-- ==== Sys2Proof/Word.lean ====
section
/-! DEFINITION. The words of the LQ8 (R4, R5, R53): bytes, 32-bit words, 64-bit values. -/

namespace Sys2Proof

/-- One byte (R5). -/
abbrev Byte := BitVec 8

/-- A 32-bit word: a scalar register, a text word, a lane (R53, R132, R62). -/
abbrev Word := BitVec 32

/-- A 64-bit value: a scalar pair, a system register, the CTL latch (R54, R70, R290). -/
abbrev DWord := BitVec 64

end Sys2Proof
end

