-- ==== Sys2Proof/Config.lean ====
section
/-! DEFINITION. What a part fixes (fuses, ROM, keys) and what the manual leaves open (free values).
An `opaque` constant has no body: no proof can see its value, so a statement holds whatever it is.
The functions below them keep every limit the manual sets. The log entries that mark them are 5 (free values),
6 (fuses), 7 (ROM), 8 (cryptography). -/

namespace Sys2Proof.Config

/-! ### Fuses (R17, R326, R355, R356, R381): log 6 -/

/-- The site the fuses hide (R17). -/
opaque hiddenSite : Fin 9
/-- Fused minimum latency of an ordered die pair, before R356's bound. -/
opaque fuseLatency : Nat → Nat → BitVec 16
/-- Fused maximum skew of an ordered die pair, before R356's bound. -/
opaque fuseSkew : Nat → Nat → BitVec 16
/-- Fused drift tolerance of a die, before R356's bound. -/
opaque fuseTolerance : Nat → BitVec 16
/-- Fused minimum patch version MINVER (R381, R382). -/
opaque minVersion : BitVec 16

/-- The site of logical die `d`: site order, the hidden site skipped (R17). -/
def dieSite (d : Nat) : Nat := if d < hiddenSite.val then d else d + 1

/-- Absolute difference of two site coordinates. -/
def gap (a b : Nat) : Nat := (a - b) + (b - a)

/-- Mesh hops between two sites: rows and columns of the 3 x 3 mesh (R16, R26). -/
def siteHops (a b : Nat) : Nat := gap (a / 3) (b / 3) + gap (a % 3) (b % 3)

/-- Mesh hops between the sites of two logical dies (R26). -/
def dieHops (a b : Nat) : Nat := siteHops (dieSite a) (dieSite b)

/-- MINLAT of an ordered pair: at most 16 + 24h (R356); 0 for a die and itself (R355). -/
def minLat (a b : Nat) : Nat := if a = b then 0 else min (fuseLatency a b).toNat (16 + 24 * dieHops a b)

/-- MAXSKEW of an ordered pair: MINLAT + MAXSKEW is at most 16 + 24h (R356). -/
def maxSkew (a b : Nat) : Nat := if a = b then 0 else min (fuseSkew a b).toNat (16 + 24 * dieHops a b - minLat a b)

/-- TOL of a die: at least 128 package ticks (R356). -/
def tolerance (d : Nat) : Nat := max (fuseTolerance d).toNat 128

/-! ### The ROM (R289): log 7 -/

/-- What a load of a ROM byte returns: not defined by the manual (R289). -/
opaque romByte : Nat → Byte

/-! ### Cryptography (R381-R383): log 8 -/

/-- SHA-384, which the manual names and does not define (R348, R381-R383). -/
opaque sha384 : List Byte → BitVec 384
/-- Whether a patch's key digest matches the fuses and its signature verifies (R382). -/
opaque patchVerifies : List Byte → List Byte → List Byte → Bool
/-- The SHA-384 digest of the ROM (R383). -/
opaque romDigest : BitVec 384
/-- The identity public key, x then y (R383). -/
opaque identityKey : BitVec 768
/-- The signature by the identity key over a report (R383). -/
opaque signReport : List Byte → BitVec 768

/-! ### Conversions of the time-domain array (R104-R107, R236, R237): log 5

The first argument is the free-value counter of the state. -/

/-- Which margin blocks get an out-of-band conversion from one command: bit 16 * (y / 16) + x / 64 (R105, R228). -/
opaque outOfBand : Nat → BitVec 64
/-- An integer from which the error of one block integer of a flagged element is taken (R106). -/
opaque conversionError : Nat → Nat → Int
/-- The count of a reference conversion of one segment (R360). -/
opaque referenceCount : Nat → Nat → BitVec 11
/-- The guard code of a reference conversion of one segment (R104, R237, R360). -/
opaque guardCode : Nat → Nat → BitVec 5

/-- The error of a block integer: within the bound of R106, and otherwise free. -/
def blockError (k j : Nat) (bound : Nat) : Int := conversionError k j % (2 * bound + 1 : Int) - bound

/-- A byte that a command reads beyond the end of its FIFO entry (R216). -/
opaque beyondEntry : Nat → Nat → Byte
/-- A byte of a frozen tile's context whose layout the manual does not give (R349). -/
opaque frozenByte : Nat → Nat → Byte

/-! ### Times the manual does not give: log 5 -/

/-- Package ticks from a copy's start to its landing (R119, R130). -/
opaque copyLandTicks : Nat → Nat
/-- Package ticks from a copy's landing to its retirement (R119). -/
opaque copyRetireTicks : Nat → Nat
/-- Package ticks of a first press of a die's tiles beyond the 300 conversions of one array (R360, R361). -/
opaque pressTicks : Nat → Nat
/-- Package ticks for SEV to set a latch, before R306's bound. -/
opaque sevTicks : Nat → Nat
/-- Package ticks the TLU takes to complete a translation (R252). -/
opaque tluTicks : Nat → Nat
/-- Package ticks until every flit that a draining link has sent is acknowledged (R366, R368). -/
opaque ackTicks : Nat → Nat
/-- Package ticks of a training attempt, before R368's bound. -/
opaque trainTicks : Nat → Nat
/-- Whether a training attempt succeeds (R368). -/
opaque trainSucceeds : Nat → Bool
/-- Whether a replay is of the flit that was replayed before it (R366). -/
opaque sameFlit : Nat → Bool
/-- Whether the host answers an access with UR or an abort, or not at all (R374). -/
opaque hostAborts : Nat → Bool
/-- Whether a remote package turns an access away (R371). -/
opaque remoteRefuses : Nat → Bool
/-- Whether a die fails a step of bring-up before step 7; die 8 is the hidden one (R387). -/
opaque stepFails : Nat → Nat → Bool
/-- Package ticks after which a divisor is applied outside a partition, before R363's bound. -/
opaque divisorTicks : Nat → Nat
/-- The wander of a die's clock against package time in a tick (R40): 1 gives no tile cycle, 2 gives two, else one. -/
opaque clockWander : Nat → Nat → Nat
/-- Package ticks an aperture access takes to be performed (R288). -/
opaque apertureTicks : Nat → Nat
/-- The storage kind that LOC gives for storage that R309 does not code (R377): log 35. -/
opaque storageKind : Nat → BitVec 4
/-- Package ticks until the ROM's link service takes its next step (R395): log 67. -/
opaque serviceTicks : Nat → Nat
/-- The size of BAR2 that the host has chosen in a tick, before R373's bounds: log 23. -/
opaque bar2Choice : Nat → Nat
/-- What a read of a remote package's memory through a port returns (R371). -/
opaque remoteByte : Nat → Byte

/-- The latency of SEV: 1 to 512 ticks (R306). -/
def sevLag (k : Nat) : Nat := sevTicks k % 512 + 1
/-- The length of a training attempt: at most 4,800 ticks when only MAP changes, else at most 24,000 (R368). -/
def trainLag (k : Nat) (mapOnly : Bool) : Nat := trainTicks k % (if mapOnly then 4800 else 24000) + 1
/-- The delay of a divisor outside a partition: within 512 ticks (R363). -/
def divisorLag (k : Nat) : Nat := divisorTicks k % 512 + 1

/-- BAR2 has 2^34 to 2^40 bytes, 16 GiB to 1 TiB (R373). -/
def bar2Bits (k : Nat) : Nat := 34 + bar2Choice k % 7

end Sys2Proof.Config
end

