-- ==== Sys2Proof/Syntax.lean ====
section
/-! DEFINITION. The instructions and steps of the LQ8: one constructor of `Instr` per row of spec/opcode_table.json.
Register numbers and field codes are already taken apart; raw words are met in Decode.lean only.
A number of type Nat names a physical tile (R20), a logical die, a partition, a link, a copy or a mailbox entry. -/

namespace Sys2Proof

/-- The ring bits of a text word's head (R46, R132): wait on predecessor, wait on successor, signal predecessor,
signal successor. -/
structure Ring where
  wp : Bool
  ws : Bool
  sp : Bool
  ss : Bool
deriving DecidableEq, Repr

/-- A scalar register s0-s63 (R53). -/
abbrev SReg := BitVec 6
/-- A predicate register p0-p63 (R53). -/
abbrev PReg := BitVec 6
/-- A branch-target register t0-t7 (R53). -/
abbrev TReg := BitVec 3

/-- The VU and TDA latches of level 10 (R65). -/
inductive Latch | alu | fma | sfu | perm | red | acc
deriving DecidableEq, Repr

/-- A VU or TDA operand (R65): a view block, an operand-file entry, a latch, a small constant, the ring scalar. -/
inductive Opnd
  | main (v i : BitVec 3)
  | ofile (e : BitVec 3)
  | latch (l : Latch)
  | const (c : BitVec 5)
  | ring
deriving DecidableEq, Repr

/-- Element types of VU words (R61, R138): ETYPE 0x0-0xE, and 0xF as .e5m2 packed four to a lane. -/
inductive EType
  | f32 | s32 | z32 | f16x2 | bf16x2 | s16x2 | s8x4 | z8x4 | e4m3x4 | s4x8 | e2m1 | pl4 | pl2 | e8m0 | x48 | e5m2x4
deriving DecidableEq, Repr

/-- Rounding modes (R88). -/
inductive Rnd | rn | rz | rd | ru | sr
deriving DecidableEq, Repr

/-- The modifiers of a VU word (R137): mode, .sat, .mk. -/
structure VMod where
  rnd : Rnd
  sat : Bool
  msk : Bool
deriving DecidableEq, Repr

/-- The conditions of VCMP (R196). -/
inductive VCond | eq | ne | lt | le | gt | ge | uo | or
deriving DecidableEq, Repr

/-- The operations of VREDR and VREDC (R205). -/
inductive RedOp | add | min | max | and | or | xor
deriving DecidableEq, Repr

/-- The operations of VSCANR and VSCANC (R206). -/
inductive ScanOp | add | min | max
deriving DecidableEq, Repr

/-- The block formats of VQMX and VDQMX (R199). -/
inductive BlkFmt | s8x4 | e4m3x4 | e5m2x4 | s4x8 | e2m1 | s6 | e2m3
deriving DecidableEq, Repr

/-- The six-bit formats of VJOIN6 and VSPLIT6 (R201, R202). -/
inductive SixFmt | s6 | e2m3
deriving DecidableEq, Repr

/-- The formats of TMAC, TMACX, TLDB and the feeds (R139, R244). -/
inductive TFmt | s4 | e2m1 | s6 | e2m3 | s8
deriving DecidableEq, Repr

/-- The row counts M of a TDA shape (R139). -/
inductive MSize | m16 | m32 | m64
deriving DecidableEq, Repr

/-- The key types of races (R232). -/
inductive KeyType | z16 | s16 | z32 | s32 | f32
deriving DecidableEq, Repr

/-- The semaphore fields of TDA commands and copy words (R139). -/
structure SemF where
  we : Bool
  wsem : BitVec 4
  se : Bool
  ssem : BitVec 4
deriving DecidableEq, Repr

/-- The fields a copy word shares (R253): engine, ordered modifier, offset, issue time, semaphores, record handle. -/
structure CopyF where
  eng : BitVec 4
  ord : Bool
  ofs : Bool
  time : BitVec 20
  sem : SemF
  hs : BitVec 16
  hg : BitVec 16
deriving DecidableEq, Repr

/-- The fields of XFLAG (R253, R268). -/
structure FlagF where
  eng : BitVec 4
  ord : Bool
  fop : BitVec 2
  time : BitVec 20
  sem : SemF
  hs : BitVec 16
  hg : BitVec 16
deriving DecidableEq, Repr

/-- The targets T of the codec: 64, 128 or 192 bytes (R247). -/
inductive SlotSize | t64 | t128 | t192
deriving DecidableEq, Repr

/-- The generator fields of a feed word (R242, R244). -/
structure FeedF where
  fmt : TFmt
  sc : Bool
  agc : BitVec 3
  agp : BitVec 3
  ags : BitVec 3
  gr : BitVec 4
deriving DecidableEq, Repr

/-- A host queue, and the die whose front end runs it (R328, R330). -/
structure QueueId where
  die : Nat
  pasid : BitVec 20
  queue : BitVec 8
deriving DecidableEq, Repr

/-- The instructions of the four text engines, of the firmware core and of the sequencer, and the steps that have no
word: one constructor per row of spec/opcode_table.json, in its order. -/
inductive Instr
  -- CTL: idle, integer, logic and shifts (R161-R163, R182)
  | nop (h : Ring) (n : BitVec 16)
  | add (h : Ring) (rd ra rb : SReg)
  | sub (h : Ring) (rd ra rb : SReg)
  | min (h : Ring) (rd ra rb : SReg)
  | max (h : Ring) (rd ra rb : SReg)
  | minz (h : Ring) (rd ra rb : SReg)
  | maxz (h : Ring) (rd ra rb : SReg)
  | adda (h : Ring) (rd ra rb : SReg) (k : BitVec 2)
  | mul (h : Ring) (rd ra rb : SReg)
  | mulh (h : Ring) (rd ra rb : SReg)
  | mulhz (h : Ring) (rd ra rb : SReg)
  | divs (h : Ring) (rd ra rb : SReg)
  | divz (h : Ring) (rd ra rb : SReg)
  | and (h : Ring) (rd ra rb : SReg)
  | or (h : Ring) (rd ra rb : SReg)
  | xor (h : Ring) (rd ra rb : SReg)
  | shl (h : Ring) (rd ra rb : SReg)
  | shr (h : Ring) (rd ra rb : SReg)
  | sar (h : Ring) (rd ra rb : SReg)
  | addi (h : Ring) (rd ra : SReg) (imm : BitVec 8)
  | andi (h : Ring) (rd ra : SReg) (imm : BitVec 8)
  | ori (h : Ring) (rd ra : SReg) (imm : BitVec 8)
  | xori (h : Ring) (rd ra : SReg) (imm : BitVec 8)
  | shli (h : Ring) (rd ra : SReg) (imm : BitVec 5)
  | shri (h : Ring) (rd ra : SReg) (imm : BitVec 5)
  | sari (h : Ring) (rd ra : SReg) (imm : BitVec 5)
  | clz (h : Ring) (rd ra : SReg)
  | popc (h : Ring) (rd ra : SReg)
  | mov (h : Ring) (rd ra : SReg)
  | bfx (h : Ring) (rd ra rb : SReg)
  | bfi (h : Ring) (rd ra rb : SReg)
  -- CTL: select, constants, latch reads (R164)
  | sel (h : Ring) (rd ra rb : SReg) (neg : Bool) (pred : PReg)
  | li (h : Ring) (rd : SReg) (imm : BitVec 32)
  | lih (h : Ring) (rd : SReg) (imm : BitVec 32)
  | movl (h : Ring) (rd : SReg)
  | movlHi (h : Ring) (rd : SReg)
  | movlD (h : Ring) (rd : SReg)
  | movlLnk (h : Ring) (rd : SReg)
  -- CTL: compares and predicates (R165)
  | cmpEq (h : Ring) (pd : PReg) (ra rb : SReg)
  | cmpNe (h : Ring) (pd : PReg) (ra rb : SReg)
  | cmpLt (h : Ring) (pd : PReg) (ra rb : SReg)
  | cmpGe (h : Ring) (pd : PReg) (ra rb : SReg)
  | cmpLtz (h : Ring) (pd : PReg) (ra rb : SReg)
  | cmpGez (h : Ring) (pd : PReg) (ra rb : SReg)
  | cmpiEq (h : Ring) (pd : PReg) (ra : SReg) (imm : BitVec 6)
  | cmpiNe (h : Ring) (pd : PReg) (ra : SReg) (imm : BitVec 6)
  | cmpiLt (h : Ring) (pd : PReg) (ra : SReg) (imm : BitVec 6)
  | cmpiGe (h : Ring) (pd : PReg) (ra : SReg) (imm : BitVec 6)
  | cmpiLtz (h : Ring) (pd : PReg) (ra : SReg) (imm : BitVec 6)
  | cmpiGez (h : Ring) (pd : PReg) (ra : SReg) (imm : BitVec 6)
  | pand (h : Ring) (pd pa pb : PReg)
  | por (h : Ring) (pd pa pb : PReg)
  | pxor (h : Ring) (pd pa pb : PReg)
  -- CTL: targets, transfers and loops (R166-R173)
  | prep (h : Ring) (t : TReg) (off : BitVec 16)
  | preps (h : Ring) (t : TReg) (ra : SReg)
  | xfer (h : Ring) (t : TReg) (p : PReg)
  | xfern (h : Ring) (t : TReg) (p : PReg)
  | call (h : Ring) (t : TReg)
  | cinv (h : Ring) (t : TReg)
  | cinva (h : Ring)
  | lpset (h : Ring) (lv : BitVec 3) (count : BitVec 16)
  | lpsetReg (h : Ring) (lv : BitVec 3) (ra : SReg)
  | lpend (h : Ring) (lv : BitVec 3)
  | lpidx (h : Ring) (rd : SReg) (lv : BitVec 3)
  -- CTL: scratchpad loads, stores and atomics (R174, R175)
  | ldb (h : Ring) (rd base : SReg) (off : BitVec 8)
  | ldbz (h : Ring) (rd base : SReg) (off : BitVec 8)
  | ldh (h : Ring) (rd base : SReg) (off : BitVec 8)
  | ldhz (h : Ring) (rd base : SReg) (off : BitVec 8)
  | ldw (h : Ring) (rd base : SReg) (off : BitVec 8)
  | ldd (h : Ring) (rd base : SReg) (off : BitVec 8)
  | stb (h : Ring) (rs base : SReg) (off : BitVec 8)
  | sth (h : Ring) (rs base : SReg) (off : BitVec 8)
  | stw (h : Ring) (rs base : SReg) (off : BitVec 8)
  | std (h : Ring) (rs base : SReg) (off : BitVec 8)
  | aadd (h : Ring) (rd ra rb : SReg)
  | amin (h : Ring) (rd ra rb : SReg)
  | amax (h : Ring) (rd ra rb : SReg)
  | axchg (h : Ring) (rd ra rb : SReg)
  | acas (h : Ring) (rd ra rb : SReg)
  | acasD (h : Ring) (rd ra rb : SReg)
  -- CTL: tokens, semaphores, FIFOs, phase and time, ownership, fences, control (R176-R183)
  | ksig (h : Ring) (k : BitVec 3) (count : BitVec 16)
  | ksigReg (h : Ring) (k : BitVec 3) (ra : SReg)
  | kwait (h : Ring) (k : BitVec 3) (count : BitVec 16)
  | kwaitReg (h : Ring) (k : BitVec 3) (ra : SReg)
  | semsig (h : Ring) (sem : BitVec 4)
  | semwait (h : Ring) (sem : BitVec 4)
  | push (h : Ring) (ra : SReg)
  | pop (h : Ring) (rd : SReg) (f : BitVec 3)
  | arrive (h : Ring)
  | mfph (h : Ring) (rd : SReg)
  | mftime (h : Ring) (rd : SReg)
  | mfcyc (h : Ring) (rd : SReg)
  | realign (h : Ring)
  | hand (h : Ring) (ra rb : SReg)
  | take (h : Ring) (ra : SReg)
  | fenceTile (h : Ring)
  | fenceDie (h : Ring)
  | fencePackage (h : Ring)
  | fenceSystem (h : Ring)
  | promote (h : Ring) (d : BitVec 3)
  | halt (h : Ring)
  | trap (h : Ring) (code : BitVec 8)
  | brk (h : Ring)
  | guard (neg : Bool) (pred : PReg)
  -- system instructions of the firmware core (R303-R309)
  | mfsr (sd : SReg) (sr : BitVec 8)
  | mtsr (sa : SReg) (sr : BitVec 8)
  | eret
  | tlbi (sa sb : SReg)
  | tlbia (sb : SReg)
  | wfe
  | sev (sb : SReg)
  | csave (sa sb : SReg)
  | crest (sa sb : SReg)
  | ttrimRd (sd sb : SReg)
  | ttrimWr (sa sb : SReg)
  | finj (sa sb : SReg)
  -- VU (R187-R213)
  | vadd (h : Ring) (ty : EType) (d a b : Opnd) (m : VMod)
  | vsub (h : Ring) (ty : EType) (d a b : Opnd) (m : VMod)
  | vmul (h : Ring) (ty : EType) (d a b : Opnd) (m : VMod)
  | vfma (h : Ring) (ty : EType) (d a b c : Opnd) (m : VMod)
  | vfms (h : Ring) (ty : EType) (d a b c : Opnd) (m : VMod)
  | vmin (h : Ring) (ty : EType) (d a b : Opnd) (mk : Bool)
  | vmax (h : Ring) (ty : EType) (d a b : Opnd) (mk : Bool)
  | vabs (h : Ring) (ty : EType) (d a : Opnd) (sat mk : Bool)
  | vneg (h : Ring) (ty : EType) (d a : Opnd) (sat mk : Bool)
  | vand (h : Ring) (ty : EType) (d a b : Opnd) (mk : Bool)
  | vor (h : Ring) (ty : EType) (d a b : Opnd) (mk : Bool)
  | vxor (h : Ring) (ty : EType) (d a b : Opnd) (mk : Bool)
  | vnot (h : Ring) (ty : EType) (d a : Opnd) (mk : Bool)
  | vshl (h : Ring) (ty : EType) (d a b : Opnd) (sat mk : Bool)
  | vshr (h : Ring) (ty : EType) (d a b : Opnd) (mk : Bool)
  | vsar (h : Ring) (ty : EType) (d a b : Opnd) (mk : Bool)
  | vcmp (h : Ring) (ty : EType) (cc : VCond) (d a b : Opnd) (mk : Bool)
  | vsel (h : Ring) (ty : EType) (d a b c : Opnd) (mk : Bool)
  | vmov (h : Ring) (ty : EType) (d a : Opnd) (mk : Bool)
  | vbcs (h : Ring) (ty : EType) (d a b : Opnd) (mk : Bool)
  | vcvt (h : Ring) (dt st : EType) (d a : Opnd) (q : BitVec 4) (rnd : Rnd) (sat : Bool)
  | vqmx (h : Ring) (fmt : BlkFmt) (d a : Opnd) (q : BitVec 4) (rnd : Rnd)
  | vdqmx (h : Ring) (fmt : BlkFmt) (d a b : Opnd) (q : BitVec 4) (rnd : Rnd)
  | vjoin6 (h : Ring) (fmt : SixFmt) (d a b : Opnd) (q : BitVec 4)
  | vsplit6P4 (h : Ring) (fmt : SixFmt) (d a : Opnd) (q : BitVec 4)
  | vsplit6P2 (h : Ring) (fmt : SixFmt) (d a : Opnd) (q : BitVec 4)
  | vrcpa (h : Ring) (d a : Opnd) (mk : Bool)
  | vrsqa (h : Ring) (d a : Opnd) (mk : Bool)
  | vrcpr (h : Ring) (d a b : Opnd) (mk : Bool)
  | vrsqr (h : Ring) (d a b : Opnd) (mk : Bool)
  | vexp2 (h : Ring) (d a : Opnd) (mk : Bool)
  | vlog2 (h : Ring) (d a : Opnd) (mk : Bool)
  | vrotr (h : Ring) (ty : EType) (d a b : Opnd) (mk : Bool)
  | vrotc (h : Ring) (ty : EType) (d a b : Opnd) (mk : Bool)
  | vbcr (h : Ring) (ty : EType) (d a b : Opnd) (mk : Bool)
  | vbcc (h : Ring) (ty : EType) (d a b : Opnd) (mk : Bool)
  | vredr (h : Ring) (ty : EType) (op : RedOp) (d a : Opnd) (m : VMod)
  | vredc (h : Ring) (ty : EType) (op : RedOp) (d a : Opnd) (m : VMod)
  | vscanr (h : Ring) (ty : EType) (op : ScanOp) (excl : Bool) (d a : Opnd) (m : VMod)
  | vscanc (h : Ring) (ty : EType) (op : ScanOp) (excl : Bool) (d a : Opnd) (m : VMod)
  | vperm (h : Ring) (ty : EType) (d a b : Opnd) (mk : Bool)
  | vtrn (h : Ring) (ty : EType) (d a : Opnd) (mk : Bool)
  | mpush (h : Ring) (ty : EType) (a : Opnd) (fresh : Bool)
  | minv (h : Ring)
  | mpop (h : Ring)
  | mqry (h : Ring) (pd : PReg)
  | vld (h : Ring) (ty : EType) (d base stride : Opnd) (rows : BitVec 4) (mk : Bool)
  | vst (h : Ring) (ty : EType) (a base stride : Opnd) (rows : BitVec 4) (mk : Bool)
  | vldd (h : Ring) (ty : EType) (d : Opnd) (rows : BitVec 4) (mk : Bool)
  | varrive (h : Ring)
  | vflg (h : Ring) (d : Opnd)
  | vflgClr (h : Ring) (d : Opnd)
  | vseedSeed (h : Ring) (a : Opnd)
  | vseedHnd (h : Ring) (a : Opnd)
  | vseedIdx (h : Ring) (a : Opnd)
  | vseedAdv (h : Ring) (a : Opnd)
  -- TDA (R215-R237)
  | tmac (h : Ring) (v i : BitVec 3) (m : MSize) (nsz : BitVec 6) (fmt : TFmt) (cs : Bool) (sem : SemF)
  | tmacx (h : Ring) (v i : BitVec 3) (m : MSize) (nsz : BitVec 6) (fmt : TFmt) (cs : Bool) (sem : SemF)
  | tldb (h : Ring) (slot cnt : BitVec 4) (x : Bool) (fmt : TFmt) (sem : SemF)
  | tzero (h : Ring) (v i : BitVec 3) (m : MSize) (nsz : BitVec 6) (cs : Bool) (sem : SemF)
  | tflag (h : Ring) (d : Opnd) (mg clr : Bool) (sem : SemF)
  | tdrain (h : Ring) (sem : SemF)
  | tcal (h : Ring) (crow : BitVec 6) (sem : SemF)
  | tmarg (h : Ring) (d : Opnd) (crow : BitVec 6) (sem : SemF)
  | raceMin (h : Ring) (d a : Opnd) (rows : BitVec 4) (kt : KeyType) (q : Bool) (sem : SemF)
  | raceMax (h : Ring) (d a : Opnd) (rows : BitVec 4) (kt : KeyType) (q : Bool) (sem : SemF)
  | raceArgmin (h : Ring) (d a : Opnd) (rows : BitVec 4) (kt : KeyType) (q : Bool) (sem : SemF)
  | raceArgmax (h : Ring) (d a : Opnd) (rows : BitVec 4) (kt : KeyType) (q : Bool) (sem : SemF)
  | raceSort (h : Ring) (d a : Opnd) (rows : BitVec 4) (kt : KeyType) (desc : Bool) (sem : SemF)
  | raceTopk (h : Ring) (d a : Opnd) (rows : BitVec 4) (kt : KeyType) (km1 : BitVec 6) (sem : SemF)
  | tarrive (h : Ring)
  -- XP (R252-R269)
  | xcopy (h : Ring) (c : CopyF)
  | xgath (h : Ring) (c : CopyF)
  | xscat (h : Ring) (c : CopyF)
  | xcnt (h : Ring) (cnt : BitVec 4) (self : Bool) (src : BitVec 9) (bytes : BitVec 21)
  | xflag (h : Ring) (c : FlagF)
  | xrdef (h : Ring) (ths thg nhs nhg : BitVec 16) (ofs : Bool)
  | xrgen (h : Ring) (hs hg : BitVec 16)
  | xarm (h : Ring) (n : BitVec 12)
  | xarrive (h : Ring)
  | endOfText
  -- TSQ (R239-R250)
  | sloop (nl : BitVec 2) (count : BitVec 16)
  | sloopReg (nl : BitVec 2) (ga : BitVec 4)
  | send (nl : BitVec 2)
  | sagenBase (ag : BitVec 3) (ga : BitVec 4)
  | sagenStep (ag : BitVec 3) (l : BitVec 2) (ga : BitVec 4)
  | sfeeda (m : MSize) (f : FeedF)
  | sfeedb (f : FeedF)
  | sdecode (tgt : SlotSize) (dmax : BitVec 3) (ags age : BitVec 3)
  | sencode (tgt : SlotSize) (agr agd age : BitVec 3)
  | sperm (f : Bool) (ag : BitVec 3)
  | spermOff (f : Bool)
  | sksig (k : BitVec 3) (count : BitVec 16)
  | sksigReg (k : BitVec 3) (ga : BitVec 4)
  | skwait (k : BitVec 3) (count : BitVec 16)
  | skwaitReg (k : BitVec 3) (ga : BitVec 4)
  | smov (gd : BitVec 4) (imm : BitVec 16)
  | smovHi (gd : BitVec 4) (imm : BitVec 16)
  | smovReg (gd gb : BitVec 4)
  | sadd (gd ga : BitVec 4) (imm : BitVec 16)
  | saddReg (gd ga gb : BitVec 4)
  | sqpop (gd : BitVec 4)
  | sqpopAg (ag : BitVec 3)
  | sqpush (ga : BitVec 4)
  | shalt
  -- steps inside a tile
  | resultLanding (t : Nat)
  | prefetchBufferFilled (t : Nat)
  | ringTokenSignal (t : Nat)
  | tokenDeadlock (t : Nat)
  | fifoElementPoppable (t : Nat)
  | tileHalted (t : Nat)
  | tdaCommandStart (t : Nat)
  | tdaCommandRetire (t : Nat)
  | tldbPlaneLatch (t : Nat)
  | translationComplete (t : Nat)
  -- copies, releases
  | copyLeave (c : Nat)
  | copyStart (c : Nat)
  | copyLanded (c : Nat)
  | copyRetired (c : Nat)
  | handoverOffer (p granule : Nat)
  | watermarkAdvance (d : Nat)
  -- partitions
  | launchStart (p : Nat)
  | phaseComplete (p : Nat)
  | phaseOpen (p d : Nat)
  | deadlineReached (p : Nat)
  | stragglerLimit (p : Nat)
  | timeZoneSlip (d : Nat)
  | partitionDone (p : Nat)
  | preemptSaveEntry (p : Nat)
  | saveComplete (p : Nat)
  | tcmdResume (d : Nat)
  | tcmdAbort (d : Nat)
  -- firmware core and system registers
  | fwcInterrupt (d : Nat)
  | dbgctlWrite (d : Nat) (v : BitVec 64)
  | mmapxWrite (d : Nat) (v : BitVec 64)
  | ctxeWrite (d : Nat) (v : BitVec 64)
  | partitionConfigWrite (d : Nat) (sr : BitVec 8) (v : BitVec 64)
  | dbqRead (d : Nat) (sd : SReg)
  | dptOverlayWrite (d : Nat) (v : BitVec 64)
  | synccfgWrite (d : Nat) (v : BitVec 64)
  | pwrcapWrite (d : Nat) (v : BitVec 64)
  | dctlDrain (d : Nat) (v : BitVec 64)
  | divisorApply (d : Nat)
  | lctlReq (d : Nat) (v : BitVec 64)
  | elctlConsume (d : Nat) (v : BitVec 64)
  | elctlClearLost (d : Nat)
  | dresetWrite (d : Nat) (v : BitVec 64)
  | calibrationDue (t : Nat)
  | tsyncPulse
  | packageTimeSlew
  | tsyncOutPulse
  -- host queues
  | doorbell (off : BitVec 16) (data : List Byte)
  | doorbellService (d : Nat)
  | timetable (q : QueueId) (part : BitVec 8) (res : Bool) (image len src save status : BitVec 64)
  | write (q : QueueId) (sz : Bool) (va value : BitVec 64)
  | wait (q : QueueId) (op : BitVec 2) (sz : Bool) (va value mask : BitVec 64)
  | waitSlotCheck (q : QueueId)
  | timer (q : QueueId) (n : BitVec 2) (per : Bool) (period : BitVec 32) (time ib bytes : BitVec 64)
  | timerCancel (q : QueueId) (n : BitVec 2)
  | indirect (q : QueueId) (bytes : BitVec 32) (va : BitVec 64)
  | fence (q : QueueId)
  | signalStore (q : QueueId) (sz msi : Bool) (vec : BitVec 12) (va value : BitVec 64)
  | signalMax (q : QueueId) (sz msi : Bool) (vec : BitVec 12) (va value : BitVec 64)
  | queueWatchdog (q : QueueId)
  | timerSlotBoundary (d : Nat)
  | leaseRenew (d : Nat)
  | leaseExpiry (d : Nat)
  | leaseTakeover (d : Nat)
  | queueLeaderMove (q : QueueId)
  -- mailbox: the die that serves it, the entry
  | mailboxScan (d : Nat)
  | create (d e : Nat)
  | destroy (d e : Nat)
  | map (d e : Nat)
  | context (d e : Nat)
  | inval (d e : Nat)
  | preempt (d e : Nat)
  | qreset (d e : Nat)
  | attest (d e : Nat)
  -- links, ports, host attachment, resets
  | flitReplay (link : Nat) (dir : Bool)
  | laneError (link : Nat) (dir : Bool) (module lane : Nat)
  | linkDrained (link : Nat)
  | linkPauseEnd (link : Nat)
  | trainingAttemptEnd (link : Nat)
  | portInboundAccess (port : Nat) (wr : Bool) (addr : BitVec 44) (data : List Byte)
  | bar2Access (wr : Bool) (off : BitVec 40) (data : List Byte)
  | atsTranslationComplete (c : Nat) (ok : Bool)
  | atsInvalidation (pasid : BitVec 20) (page : BitVec 64)
  | functionLevelReset
  | bringUp
  | illegalInstruction
  | uncoreDown (site : Nat)
  | apertureAccessPerformed (d : Nat)
  | eventLatchSet (d : Nat)
deriving DecidableEq, Repr

end Sys2Proof
end

