-- ==== Sys2Proof/WellFormed.lean ====
section
/-! DEFINITION. Which instructions an encoding can carry: the operand, register and field limits of R54, R65, R66, R68,
R127, R136-R139, R160, R176, R185, R187, R188, R215, R226, R232, R242, R250 and R253.
Checks that depend on the state of the machine (R51, R122, R253's partition limit) are not here. -/

namespace Sys2Proof

/-- A register field that names a 64-bit pair is even (R54). -/
def SReg.isEven (r : SReg) : Bool := r.toNat % 2 == 0

/-- The ring bits 0000 (R133, R287). -/
def Ring.none : Ring := ⟨false, false, false, false⟩

namespace EType

/-- Class F of R187: the floating-point types. -/
def isF : EType → Bool
  | f32 | f16x2 | bf16x2 | e4m3x4 | e5m2x4 => true
  | _ => false

/-- Class I of R187: the integer types. -/
def isI : EType → Bool
  | s32 | z32 | s16x2 | s8x4 | z8x4 | s4x8 => true
  | _ => false

/-- Class X of R187: .x48. -/
def isX : EType → Bool
  | x48 => true
  | _ => false

/-- F, I or X: the types of the arithmetic words (R187). -/
def isFIX (t : EType) : Bool := t.isF || t.isI || t.isX

/-- Class B of R187: every code except 0xC. -/
def isB : EType → Bool
  | pl2 => false
  | _ => true

/-- Twice the sub-elements per lane (R184), so that .x48 counts 1. -/
def subs2 : EType → Nat
  | x48 => 1
  | f32 | s32 | z32 => 2
  | f16x2 | bf16x2 | s16x2 => 4
  | s8x4 | z8x4 | e4m3x4 | e8m0 | e5m2x4 => 8
  | s4x8 | e2m1 | pl4 => 16
  | pl2 => 32

end EType

/-- Elements per lane of a block format (R199). -/
def BlkFmt.subs : BlkFmt → Nat
  | .s4x8 | .e2m1 => 8
  | _ => 4

namespace Opnd

/-- A VU source (R65-R68): any level; constant 0x1F is reserved; the ring scalar needs WP. -/
def isSrc (h : Ring) : Opnd → Bool
  | const c => c != 0x1F#5
  | ring => h.wp
  | _ => true

/-- A VU destination (R66): levels 00 and 01, and the latch of the instruction's own unit. -/
def isDst (l : Latch) : Opnd → Bool
  | main _ _ | ofile _ => true
  | latch l' => l' == l
  | _ => false

/-- Levels 00 and 01 only (R188 for VQMX, R215 for a race's source). -/
def isReg : Opnd → Bool
  | main _ _ | ofile _ => true
  | _ => false

end Opnd

/-- A semaphore select is zero when its enable is zero (R139). -/
def SemF.wf (s : SemF) : Bool := (s.we || s.wsem == 0#4) && (s.se || s.ssem == 0#4)

/-- RND where the result is floating: any mode; elsewhere 000 (R187, R188). -/
def EType.rndOk (t : EType) (r : Rnd) : Bool := t.isF || r == .rn

/-- Destination and sources of a VU word whose latch is `l`. -/
def vops (h : Ring) (l : Latch) (d : Opnd) (srcs : List Opnd) : Bool := d.isDst l && srcs.all (·.isSrc h)

/-- The types VCVT converts between (R198). -/
def cvtPair (dt st : EType) : Bool :=
  dt != .pl4 && dt != .pl2 && dt != .e8m0 && st != .pl4 && st != .pl2 && dt != st
    && (st != .e8m0 || dt == .f32)
    && (dt != .x48 || st == .f32 || st == .s32)
    && (st != .x48 || dt == .f32 || dt == .s32)

/-- The types that round as floating sources or results of VCVT: class F, .e2m1 and .e8m0 (R84, R198). -/
def EType.isFloatLike (t : EType) : Bool := t.isF || t == .e2m1 || t == .e8m0

/-- RND of VCVT (R188, R198): any mode into a float; not .sr into an integer or .x48; 000 from an integer to an integer and from .x48 to
.s32. An .s32 to .x48 conversion is exact, whatever mode it names. -/
def cvtRnd (dt st : EType) (r : Rnd) : Bool :=
  if dt.isFloatLike then true else if st.isFloatLike || dt == .x48 then r != .sr else r == .rn

/-- The ratio of R185: the larger count of sub-elements over the smaller. -/
def cvtRatio (a b : Nat) : Nat := max a b / min a b

/-- RND and SAT of VREDR, VREDC, VSCANR and VSCANC: on .add only (R187). -/
def addMods (t : EType) (isAdd : Bool) (m : VMod) : Bool :=
  if isAdd then t.rndOk m.rnd else m.rnd == .rn && !m.sat

/-- The fields of a copy word (R253). -/
def CopyF.wf (h : Ring) (c : CopyF) : Bool := decide (c.eng.toNat < 12) && (!c.ofs || h.ws) && c.sem.wf

/-- The fields of XFLAG (R253): FOP 11 is reserved, FOP 10 needs WS. -/
def FlagF.wf (h : Ring) (c : FlagF) : Bool :=
  decide (c.eng.toNat < 12) && c.fop != 3#2 && (c.fop != 2#2 || h.ws) && c.sem.wf

/-- Six-bit formats: two planes (R82). -/
def TFmt.isSix : TFmt → Bool
  | .s6 | .e2m3 => true
  | _ => false

/-- Formats TMACX accepts (R103, R139). -/
def TFmt.isInt : TFmt → Bool
  | .s4 | .s6 | .s8 => true
  | _ => false

/-- The fields of a feed word: unused generator fields are zero (R242, R244). -/
def FeedF.wf (f : FeedF) : Bool := (f.fmt.isSix || f.agp == 0#3) && (f.sc || f.ags == 0#3)

/-- The limits an encoding puts on an instruction. Steps without a word have none. -/
def Instr.wf : Instr → Bool
  | .lih _ rd _ | .movlD _ rd | .ldd _ rd _ _ | .std _ rd _ _ | .mfph _ rd | .mftime _ rd | .mfcyc _ rd
  | .mfsr rd _ | .mtsr rd _ | .tlbi rd _ | .csave rd _ | .crest rd _ | .finj rd _ => rd.isEven
  | .acasD _ rd _ rb => rd.isEven && rb.isEven
  | .hand _ ra _ | .take _ ra => ra.isEven
  | .ksig _ _ c | .kwait _ _ c | .sksig _ c | .skwait _ c | .sloop _ c => c != 0#16
  | .pop _ _ f => f == 1#3 || f == 2#3
  | .vadd h t d a b m | .vsub h t d a b m => t.isFIX && vops h .alu d [a, b] && t.rndOk m.rnd
  | .vmul h t d a b m => (t.isF || t.isI) && vops h .fma d [a, b] && t.rndOk m.rnd
  | .vfma h t d a b c m | .vfms h t d a b c m => (t.isF || t.isI) && vops h .fma d [a, b, c] && t.rndOk m.rnd
  | .vmin h t d a b _ | .vmax h t d a b _ => t.isFIX && vops h .alu d [a, b]
  | .vabs h t d a sat _ | .vneg h t d a sat _ => t.isFIX && vops h .alu d [a] && (!t.isF || !sat)
  | .vand h t d a b _ | .vor h t d a b _ | .vxor h t d a b _ => t.isB && vops h .alu d [a, b]
  | .vnot h t d a _ => t.isB && vops h .alu d [a]
  | .vshl h t d a b _ _ => (t.isI || t.isX) && vops h .alu d [a, b]
  | .vshr h t d a b _ => t.isI && vops h .alu d [a, b]
  | .vsar h t d a b _ => (t.isI || t.isX) && vops h .alu d [a, b]
  | .vcmp h t cc d a b _ => t.isFIX && vops h .alu d [a, b] && (t.isF || (cc != .uo && cc != .or))
  | .vsel h t d a b c _ => t.isB && vops h .alu d [a, b, c]
  | .vmov h t d a _ => t.isB && vops h .alu d [a]
  | .vbcs h t d a b _ => t.isB && vops h .alu d [a, b]
  | .vcvt h dt st d a q r _ =>
      cvtPair dt st && vops h .alu d [a] && cvtRnd dt st r && decide (q.toNat < cvtRatio dt.subs2 st.subs2)
  | .vqmx h f d a q _ => d.isReg && a.isSrc h && decide (q.toNat < f.subs)
  | .vdqmx h f d a b q _ => vops h .alu d [a, b] && decide (q.toNat < f.subs)
  | .vjoin6 h _ d a b q => vops h .alu d [a, b] && decide (q.toNat < 8)
  | .vsplit6P4 h _ d a q => vops h .alu d [a] && decide (q.toNat < 2)
  | .vsplit6P2 h _ d a q => vops h .alu d [a] && decide (q.toNat < 4)
  | .vrcpa h d a _ | .vrsqa h d a _ | .vexp2 h d a _ | .vlog2 h d a _ => vops h .sfu d [a]
  | .vrcpr h d a b _ | .vrsqr h d a b _ => vops h .fma d [a, b]
  | .vrotr h t d a b _ | .vrotc h t d a b _ | .vbcr h t d a b _ | .vbcc h t d a b _ | .vperm h t d a b _ =>
      t.isB && vops h .perm d [a, b]
  | .vredr h t op d a m | .vredc h t op d a m => t.isFIX && vops h .red d [a] && addMods t (op == .add) m
  | .vscanr h t op _ d a m | .vscanc h t op _ d a m => t.isFIX && vops h .red d [a] && addMods t (op == .add) m
  | .vtrn h t d a _ => t.isB && t != .x48 && vops h .perm d [a]
  | .mpush h t a _ => t.isB && a.isSrc h
  | .vld h t d b s _ _ => t.isB && vops h .alu d [b, s]
  | .vst h t a b s _ _ => t.isB && a.isSrc h && b.isSrc h && s.isSrc h
  | .vldd _ t d _ _ => t.isB && d.isDst .alu
  | .vflg _ d | .vflgClr _ d => d.isDst .alu
  | .vseedSeed h a | .vseedHnd h a | .vseedIdx h a | .vseedAdv h a => a.isSrc h
  | .tmac _ _ _ _ _ _ _ s => s.wf
  | .tmacx _ _ _ _ _ f _ s => f.isInt && s.wf
  | .tldb _ slot cnt x f s => decide (slot.toNat + cnt.toNat ≤ 15) && (!x || f.isInt) && s.wf
  | .tzero _ _ _ _ _ _ s | .tdrain _ s | .tcal _ _ s => s.wf
  | .tflag _ d _ _ s | .tmarg _ d _ s => d.isDst .acc && s.wf
  | .raceMin _ d a _ _ _ s | .raceMax _ d a _ _ _ s | .raceArgmin _ d a _ _ _ s | .raceArgmax _ d a _ _ _ s
  | .raceSort _ d a _ _ _ s | .raceTopk _ d a _ _ _ s => d.isDst .acc && a.isReg && s.wf
  | .xcopy h c | .xgath h c | .xscat h c => c.wf h
  | .xflag h c => c.wf h
  | .xcnt _ _ self src bytes => decide (bytes.toNat ≤ 1048576) && (!self || src == 0#9)
  | .xrdef h _ _ _ _ ofs => !ofs || h.ws
  | .sdecode _ dmax _ _ => dmax != 0#3
  | .sfeeda _ f | .sfeedb f => f.wf
  | .sperm _ _ => true
  | _ => true

end Sys2Proof
end

