-- ==== Sys2Proof/Decode.lean ====
section
/-! DEFINITION. From words to instructions and back (06; R136-R147, R160, R187, R215, R242, R253, R303).
`decodeText` reads a text word with its extension words, `decodeSeq` a sequencer word. Both are total and say why they
refuse. `encode` writes an instruction's words from the same tables. -/

namespace Sys2Proof

/-- Why a word is an illegal instruction (R134). -/
inductive Reject
  /-- The major opcode is not assigned (R141-R147). -/
  | unassignedOpcode
  /-- A reserved bit, sub-function or type code (R12, R134). -/
  | reservedField
  /-- An extension word has another tag or a ring bit (R133). -/
  | badExtension
  /-- A register, operand or field is outside its limits (R54, R65, R66, R188, R253). -/
  | badOperand
deriving DecidableEq, Repr

/-- Bits `lo + n - 1` to `lo` of a word (R4). -/
def fld (w : Word) (lo n : Nat) : BitVec n := w.extractLsb' lo n

/-- Bit `i` of a word (R4). -/
def bitAt (w : Word) (i : Nat) : Bool := w.getLsbD i

/-- The engine tag, bits 31:30 (R132). -/
def tagOf (w : Word) : BitVec 2 := fld w 30 2

/-- The major opcode, bits 25:20 (R132). -/
def opOf (w : Word) : Nat := (fld w 20 6).toNat

/-- The ring bits of a head (R132). -/
def Ring.ofWord (w : Word) : Ring := ⟨bitAt w 29, bitAt w 28, bitAt w 27, bitAt w 26⟩

/-- The end-of-text word (R78). -/
def eotWord : Word := 0xFFFFFFFF#32

/-- The instruction length a head fixes, in words (R133, R141, R143-R145). An unassigned opcode counts one word. -/
def headLength (w : Word) : Nat :=
  let op := opOf w
  match (tagOf w).toNat with
  | 0 => if op == 0x11 || op == 0x12 || op == 0x13 then 2 else 1
  | 1 => if op == 0x2B || op == 0x2C || op == 0x2D || op == 0x31 || op == 0x1F || decide (0x34 ≤ op) then 1 else 2
  | 2 => if decide (op ≤ 0x0D) then 2 else 1
  | _ => match op with
    | 0 | 1 | 2 | 4 | 5 => 3
    | 3 | 6 => 2
    | _ => 1

/-! ### Field codes -/

namespace Latch
def ofNat? : Nat → Option Latch
  | 0 => some alu | 1 => some fma | 2 => some sfu | 3 => some perm | 4 => some red | 5 => some acc
  | _ => none
def toBits : Latch → BitVec 3
  | alu => 0 | fma => 1 | sfu => 2 | perm => 3 | red => 4 | acc => 5
end Latch

namespace Opnd
/-- R65. -/
def ofBits? (b : BitVec 8) : Option Opnd :=
  match (b.extractLsb' 6 2).toNat with
  | 0 => some (main (b.extractLsb' 3 3) (b.extractLsb' 0 3))
  | 1 => if b.extractLsb' 3 3 = 0#3 then some (ofile (b.extractLsb' 0 3)) else none
  | 2 => if b.extractLsb' 3 3 = 0#3 then (Latch.ofNat? (b.extractLsb' 0 3).toNat).map latch else none
  | _ => if b.getLsbD 5 then (if b.extractLsb' 0 5 = 0#5 then some ring else none)
         else some (const (b.extractLsb' 0 5))
def toBits : Opnd → BitVec 8
  | main v i => 0#2 ++ v ++ i
  | ofile e => 1#2 ++ 0#3 ++ e
  | latch l => 2#2 ++ 0#3 ++ l.toBits
  | const c => 3#2 ++ 0#1 ++ c
  | ring => 3#2 ++ 1#1 ++ 0#5
end Opnd

namespace EType
/-- R61, R138. -/
def ofBits (b : BitVec 4) : EType :=
  match b.toNat with
  | 0 => f32 | 1 => s32 | 2 => z32 | 3 => f16x2 | 4 => bf16x2 | 5 => s16x2 | 6 => s8x4 | 7 => z8x4
  | 8 => e4m3x4 | 9 => s4x8 | 10 => e2m1 | 11 => pl4 | 12 => pl2 | 13 => e8m0 | 14 => x48 | _ => e5m2x4
def toBits : EType → BitVec 4
  | f32 => 0 | s32 => 1 | z32 => 2 | f16x2 => 3 | bf16x2 => 4 | s16x2 => 5 | s8x4 => 6 | z8x4 => 7
  | e4m3x4 => 8 | s4x8 => 9 | e2m1 => 10 | pl4 => 11 | pl2 => 12 | e8m0 => 13 | x48 => 14 | e5m2x4 => 15
end EType

namespace Rnd
/-- R137. -/
def ofBits? (b : BitVec 3) : Option Rnd :=
  match b.toNat with
  | 0 => some rn | 1 => some rz | 2 => some rd | 3 => some ru | 4 => some sr
  | _ => none
def toBits : Rnd → BitVec 3
  | rn => 0 | rz => 1 | rd => 2 | ru => 3 | sr => 4
end Rnd

namespace VCond
/-- R196. -/
def ofBits? (b : BitVec 5) : Option VCond :=
  match b.toNat with
  | 0 => some eq | 1 => some ne | 2 => some lt | 3 => some le | 4 => some gt | 5 => some ge | 6 => some uo | 7 => some or
  | _ => none
def toBits : VCond → BitVec 5
  | eq => 0 | ne => 1 | lt => 2 | le => 3 | gt => 4 | ge => 5 | uo => 6 | or => 7
end VCond

namespace RedOp
/-- R205. -/
def ofBits? (b : BitVec 5) : Option RedOp :=
  match b.toNat with
  | 0 => some add | 1 => some min | 2 => some max | 3 => some and | 4 => some or | 5 => some xor
  | _ => none
def toBits : RedOp → BitVec 5
  | add => 0 | min => 1 | max => 2 | and => 3 | or => 4 | xor => 5
end RedOp

namespace ScanOp
/-- R206: FN<1:0>. -/
def ofBits? (b : BitVec 2) : Option ScanOp :=
  match b.toNat with
  | 0 => some add | 1 => some min | 2 => some max
  | _ => none
def toBits : ScanOp → BitVec 2
  | add => 0 | min => 1 | max => 2
end ScanOp

namespace BlkFmt
/-- R199: TYPE and FN<4>. -/
def ofBits? (ty : BitVec 4) (six : Bool) : Option BlkFmt :=
  match ty.toNat, six with
  | 0x6, false => some s8x4 | 0x8, false => some e4m3x4 | 0xF, false => some e5m2x4 | 0x9, false => some s4x8
  | 0xA, false => some e2m1 | 0x6, true => some s6 | 0x8, true => some e2m3
  | _, _ => none
def toBits : BlkFmt → BitVec 4
  | s8x4 => 0x6 | e4m3x4 => 0x8 | e5m2x4 => 0xF | s4x8 => 0x9 | e2m1 => 0xA | s6 => 0x6 | e2m3 => 0x8
def isSix : BlkFmt → Bool
  | s6 | e2m3 => true
  | _ => false
end BlkFmt

namespace SixFmt
/-- R201, R202. -/
def ofBits? (ty : BitVec 4) : Option SixFmt :=
  match ty.toNat with
  | 0x6 => some s6 | 0x8 => some e2m3
  | _ => none
def toBits : SixFmt → BitVec 4
  | s6 => 0x6 | e2m3 => 0x8
end SixFmt

namespace TFmt
/-- R139, R244. -/
def ofNat? : Nat → Option TFmt
  | 0 => some s4 | 1 => some e2m1 | 2 => some s6 | 3 => some e2m3 | 4 => some s8
  | _ => none
def toBits : TFmt → BitVec 3
  | s4 => 0 | e2m1 => 1 | s6 => 2 | e2m3 => 3 | s8 => 4
end TFmt

namespace MSize
/-- R139. -/
def ofBits? (b : BitVec 2) : Option MSize :=
  match b.toNat with
  | 0 => some m16 | 1 => some m32 | 2 => some m64
  | _ => none
def toBits : MSize → BitVec 2
  | m16 => 0 | m32 => 1 | m64 => 2
end MSize

namespace KeyType
/-- R232. -/
def ofBits? (b : BitVec 3) : Option KeyType :=
  match b.toNat with
  | 0 => some z16 | 1 => some s16 | 2 => some z32 | 3 => some s32 | 4 => some f32
  | _ => none
def toBits : KeyType → BitVec 3
  | z16 => 0 | s16 => 1 | z32 => 2 | s32 => 3 | f32 => 4
end KeyType

namespace SlotSize
/-- R249. -/
def ofBits? (b : BitVec 2) : Option SlotSize :=
  match b.toNat with
  | 1 => some t64 | 2 => some t128 | 3 => some t192
  | _ => none
def toBits : SlotSize → BitVec 2
  | t64 => 1 | t128 => 2 | t192 => 3
end SlotSize

/-- The semaphore fields of an extension word: WE 25, WSEM 24:21, SE 20, SSEM 19:16 (R139). -/
def SemF.ofWord (w : Word) : SemF := ⟨bitAt w 25, fld w 21 4, bitAt w 20, fld w 16 4⟩
def SemF.toBits (s : SemF) : BitVec 10 := BitVec.ofBool s.we ++ s.wsem ++ BitVec.ofBool s.se ++ s.ssem

/-- Keep an instruction only when its reserved fields are zero. -/
def guardZ (b : Bool) (i : Instr) : Option Instr := if b then some i else none

/-! ### The CTL map (R136, R141, R159, R160) -/

/-- The CTL's three-register words of format CR whose FN selects the instruction. -/
def decodeCtl (w e : Word) : Option Instr :=
  let h := Ring.ofWord w
  let rd : SReg := fld w 14 6
  let ra : SReg := fld w 8 6
  let rb : SReg := fld w 2 6
  let fn := (fld w 0 2).toNat
  let t : TReg := fld w 17 3
  let imm8 : BitVec 8 := fld w 0 8
  let z (lo n : Nat) : Bool := fld w lo n == 0
  match opOf w with
  | 0x00 => guardZ (z 16 4) (.nop h (fld w 0 16))
  | 0x01 => match fn with
    | 0 => some (.add h rd ra rb) | 1 => some (.sub h rd ra rb) | 2 => some (.min h rd ra rb)
    | _ => some (.max h rd ra rb)
  | 0x02 => match fn with
    | 0 => some (.minz h rd ra rb) | 1 => some (.maxz h rd ra rb) | _ => none
  | 0x03 => some (.adda h rd ra rb (fld w 0 2))
  | 0x04 => match fn with
    | 0 => some (.mul h rd ra rb) | 1 => some (.mulh h rd ra rb) | 2 => some (.mulhz h rd ra rb) | _ => none
  | 0x05 => match fn with
    | 0 => some (.divs h rd ra rb) | 1 => some (.divz h rd ra rb) | _ => none
  | 0x06 => match fn with
    | 0 => some (.and h rd ra rb) | 1 => some (.or h rd ra rb) | 2 => some (.xor h rd ra rb) | _ => none
  | 0x07 => match fn with
    | 0 => some (.shl h rd ra rb) | 1 => some (.shr h rd ra rb) | 2 => some (.sar h rd ra rb) | _ => none
  | 0x08 => some (.addi h rd ra imm8)
  | 0x09 => some (.andi h rd ra imm8)
  | 0x0A => some (.ori h rd ra imm8)
  | 0x0B => some (.xori h rd ra imm8)
  | 0x0C => guardZ (z 5 3) (.shli h rd ra (fld w 0 5))
  | 0x0D => guardZ (z 5 3) (.shri h rd ra (fld w 0 5))
  | 0x0E => guardZ (z 5 3) (.sari h rd ra (fld w 0 5))
  | 0x0F => match fn with
    | 0 => guardZ (z 2 6) (.clz h rd ra) | 1 => guardZ (z 2 6) (.popc h rd ra)
    | 2 => guardZ (z 2 6) (.mov h rd ra) | _ => none
  | 0x10 => match fn with
    | 0 => some (.bfx h rd ra rb) | 1 => some (.bfi h rd ra rb) | _ => none
  | 0x11 => guardZ (z 0 2 && fld e 7 19 == 0) (.sel h rd ra rb (bitAt e 6) (fld e 0 6))
  | 0x12 => guardZ (fld e 18 8 == 0) (.li h rd (fld w 0 14 ++ fld e 0 18))
  | 0x13 => guardZ (fld e 18 8 == 0) (.lih h rd (fld w 0 14 ++ fld e 0 18))
  | 0x14 => match (fld w 12 2).toNat with
    | 0 => guardZ (z 0 12) (.movl h rd) | 1 => guardZ (z 0 12) (.movlHi h rd)
    | 2 => guardZ (z 0 12) (.movlD h rd) | _ => guardZ (z 0 12) (.movlLnk h rd)
  | 0x15 => match fn with
    | 0 => some (.cmpEq h rd ra rb) | 1 => some (.cmpNe h rd ra rb) | 2 => some (.cmpLt h rd ra rb)
    | _ => some (.cmpGe h rd ra rb)
  | 0x16 => match fn with
    | 0 => some (.cmpLtz h rd ra rb) | 1 => some (.cmpGez h rd ra rb) | _ => none
  | 0x17 => match fn with
    | 0 => some (.cmpiEq h rd ra rb) | 1 => some (.cmpiNe h rd ra rb) | 2 => some (.cmpiLt h rd ra rb)
    | _ => some (.cmpiGe h rd ra rb)
  | 0x18 => match fn with
    | 0 => some (.cmpiLtz h rd ra rb) | 1 => some (.cmpiGez h rd ra rb) | _ => none
  | 0x19 => match fn with
    | 0 => some (.pand h rd ra rb) | 1 => some (.por h rd ra rb) | 2 => some (.pxor h rd ra rb) | _ => none
  | 0x1A => guardZ (z 16 1) (.prep h t (fld w 0 16))
  | 0x1B => guardZ (z 14 3 && z 0 8) (.preps h t ra)
  | 0x1C => guardZ (z 14 3 && z 0 8) (.xfer h t ra)
  | 0x1D => guardZ (z 14 3 && z 0 8) (.xfern h t ra)
  | 0x1E => guardZ (z 0 17) (.call h t)
  | 0x1F => if bitAt w 16 then guardZ (z 17 3 && z 0 16) (.cinva h) else guardZ (z 0 16) (.cinv h t)
  | 0x20 => if bitAt w 16 then some (.lpset h t (fld w 0 16)) else guardZ (z 14 2 && z 0 8) (.lpsetReg h t ra)
  | 0x21 => guardZ (z 0 17) (.lpend h t)
  | 0x22 => guardZ (z 0 11) (.lpidx h rd (fld w 11 3))
  | 0x23 => some (.ldb h rd ra imm8)
  | 0x24 => some (.ldbz h rd ra imm8)
  | 0x25 => some (.ldh h rd ra imm8)
  | 0x26 => some (.ldhz h rd ra imm8)
  | 0x27 => some (.ldw h rd ra imm8)
  | 0x28 => some (.ldd h rd ra imm8)
  | 0x29 => some (.stb h rd ra imm8)
  | 0x2A => some (.sth h rd ra imm8)
  | 0x2B => some (.stw h rd ra imm8)
  | 0x2C => some (.std h rd ra imm8)
  | 0x2D => match fn with
    | 0 => some (.aadd h rd ra rb) | 1 => some (.amin h rd ra rb) | 2 => some (.amax h rd ra rb)
    | _ => some (.axchg h rd ra rb)
  | 0x2E => match fn with
    | 0 => some (.acas h rd ra rb) | 1 => some (.acasD h rd ra rb) | _ => none
  | 0x2F => if bitAt w 16 then some (.ksig h t (fld w 0 16)) else guardZ (z 14 2 && z 0 8) (.ksigReg h t ra)
  | 0x30 => if bitAt w 16 then some (.kwait h t (fld w 0 16)) else guardZ (z 14 2 && z 0 8) (.kwaitReg h t ra)
  | 0x31 => guardZ (z 0 16) (.semsig h (fld w 16 4))
  | 0x32 => guardZ (z 0 16) (.semwait h (fld w 16 4))
  | 0x33 => guardZ (z 14 6 && z 0 8) (.push h ra)   -- F is 0 for PUSH (R178)
  | 0x34 => guardZ (z 0 11) (.pop h rd (fld w 11 3))
  | 0x35 => guardZ (z 0 20) (.arrive h)
  | 0x36 => match (fld w 12 2).toNat with
    | 0 => guardZ (z 0 12) (.mfph h rd) | 1 => guardZ (z 0 12) (.mftime h rd)
    | 2 => guardZ (z 0 12) (.mfcyc h rd) | _ => guardZ (z 0 12 && z 14 6) (.realign h)
  | 0x37 => guardZ (z 14 6 && z 0 2) (.hand h ra rb)
  | 0x38 => guardZ (z 14 6 && z 0 8) (.take h ra)
  | 0x39 => match (fld w 18 2).toNat with
    | 0 => guardZ (z 0 18) (.fenceTile h) | 1 => guardZ (z 0 18) (.fenceDie h)
    | 2 => guardZ (z 0 18) (.fencePackage h) | _ => guardZ (z 0 18) (.fenceSystem h)
  | 0x3A => guardZ (z 3 17) (.promote h (fld w 0 3))
  | 0x3B => match (fld w 18 2).toNat with
    | 0 => guardZ (z 0 18) (.halt h) | 1 => guardZ (z 8 10) (.trap h (fld w 0 8))
    | 2 => guardZ (z 0 18) (.brk h) | _ => none
  | 0x3C => guardZ (z 0 13 && h == Ring.none) (.guard (bitAt w 19) (fld w 13 6))
  | 0x3D =>
    if h == Ring.none then match (fld w 14 6).toNat with
    | 0x00 => some (.mfsr ra imm8)
    | 0x01 => some (.mtsr ra imm8)
    | 0x02 => guardZ (z 0 14) .eret
    | 0x03 => guardZ (z 0 2) (.tlbi ra rb)
    | 0x04 => guardZ (z 8 6 && z 0 2) (.tlbia rb)
    | 0x05 => guardZ (z 0 14) .wfe
    | 0x06 => guardZ (z 8 6 && z 0 2) (.sev rb)
    | 0x07 => guardZ (z 0 2) (.csave ra rb)
    | 0x08 => guardZ (z 0 2) (.crest ra rb)
    | 0x09 => guardZ (z 0 2) (.ttrimRd ra rb)
    | 0x0A => guardZ (z 0 2) (.ttrimWr ra rb)
    | 0x0B => guardZ (z 0 2) (.finj ra rb)
    | _ => none
    else none
  | _ => none

/-- Whether a CTL opcode is assigned (R141). -/
def ctlAssigned (op : Nat) : Bool := decide (op ≤ 0x3D)

/-! ### The VU map (R137, R143, R187) -/

/-- A part number: a small constant below 16 (R185). -/
def partOf : Opnd → Option (BitVec 4)
  | .const c => if c.getLsbD 4 then none else some (c.extractLsb' 0 4)
  | _ => none

/-- A two-word VU instruction whose operands are read. A field an instruction does not use holds zero (R137, R188). -/
def decodeVu2 (w e : Word) (d a b c : Opnd) (r : Rnd) : Option Instr :=
  let h := Ring.ofWord w
  let ty := EType.ofBits (fld w 0 4)
  let fn : BitVec 5 := fld e 0 5
  let mk := bitAt e 5
  let sat := bitAt e 6
  let zd := fld w 12 8 == 0#8
  let za := fld w 4 8 == 0#8
  let zb := fld e 18 8 == 0#8
  let zc := fld e 10 8 == 0#8
  let zr := fld e 7 3 == 0#3
  let zf := fn == 0#5
  let m : VMod := ⟨r, sat, mk⟩
  let plain := zr && !sat && zf
  match opOf w with
  | 0x00 => guardZ (zc && zf) (.vadd h ty d a b m)
  | 0x01 => guardZ (zc && zf) (.vsub h ty d a b m)
  | 0x02 => guardZ (zc && zf) (.vmul h ty d a b m)
  | 0x03 => guardZ zf (.vfma h ty d a b c m)
  | 0x04 => guardZ zf (.vfms h ty d a b c m)
  | 0x05 => guardZ (zc && plain) (.vmin h ty d a b mk)
  | 0x06 => guardZ (zc && plain) (.vmax h ty d a b mk)
  | 0x07 => guardZ (zb && zc && zr && zf) (.vabs h ty d a sat mk)
  | 0x08 => guardZ (zb && zc && zr && zf) (.vneg h ty d a sat mk)
  | 0x09 => guardZ (zc && plain) (.vand h ty d a b mk)
  | 0x0A => guardZ (zc && plain) (.vor h ty d a b mk)
  | 0x0B => guardZ (zc && plain) (.vxor h ty d a b mk)
  | 0x0C => guardZ (zb && zc && plain) (.vnot h ty d a mk)
  | 0x0D => guardZ (zc && zr && zf) (.vshl h ty d a b sat mk)
  | 0x0E => guardZ (zc && plain) (.vshr h ty d a b mk)
  | 0x0F => guardZ (zc && plain) (.vsar h ty d a b mk)
  | 0x10 => (VCond.ofBits? fn).bind fun cc => guardZ (zc && zr && !sat) (.vcmp h ty cc d a b mk)
  | 0x11 => guardZ plain (.vsel h ty d a b c mk)
  | 0x12 => guardZ (zb && zc && plain) (.vmov h ty d a mk)
  | 0x13 => guardZ (zc && plain) (.vbcs h ty d a b mk)
  | 0x14 => (partOf b).bind fun n => guardZ (zc && !mk && !fn.getLsbD 4) (.vcvt h ty (EType.ofBits (fld e 0 4)) d a n r sat)
  | 0x15 => (partOf b).bind fun n => (BlkFmt.ofBits? (fld w 0 4) (fn.getLsbD 4)).bind fun f =>
      guardZ (zc && !mk && !sat && fn.extractLsb' 0 4 == 0#4) (.vqmx h f d a n r)
  | 0x16 => (partOf c).bind fun n => (BlkFmt.ofBits? (fld w 0 4) (fn.getLsbD 4)).bind fun f =>
      guardZ (!mk && !sat && fn.extractLsb' 0 4 == 0#4) (.vdqmx h f d a b n r)
  | 0x17 => (partOf c).bind fun n => (SixFmt.ofBits? (fld w 0 4)).bind fun f => guardZ (!mk && plain) (.vjoin6 h f d a b n)
  | 0x18 => (partOf b).bind fun n => (SixFmt.ofBits? (fld w 0 4)).bind fun f =>
      if fn == 0#5 then guardZ (zc && !mk && zr && !sat) (.vsplit6P4 h f d a n)
      else if fn == 1#5 then guardZ (zc && !mk && zr && !sat) (.vsplit6P2 h f d a n) else none
  | 0x19 => guardZ (zb && zc && plain && ty == .f32) (.vrcpa h d a mk)
  | 0x1A => guardZ (zb && zc && plain && ty == .f32) (.vrsqa h d a mk)
  | 0x1B => guardZ (zc && plain && ty == .f32) (.vrcpr h d a b mk)
  | 0x1C => guardZ (zc && plain && ty == .f32) (.vrsqr h d a b mk)
  | 0x1D => guardZ (zb && zc && plain && ty == .f32) (.vexp2 h d a mk)
  | 0x1E => guardZ (zb && zc && plain && ty == .f32) (.vlog2 h d a mk)
  | 0x20 => guardZ (zc && plain) (.vrotr h ty d a b mk)
  | 0x21 => guardZ (zc && plain) (.vrotc h ty d a b mk)
  | 0x22 => guardZ (zc && plain) (.vbcr h ty d a b mk)
  | 0x23 => guardZ (zc && plain) (.vbcc h ty d a b mk)
  | 0x24 => (RedOp.ofBits? fn).bind fun o => guardZ (zb && zc) (.vredr h ty o d a m)
  | 0x25 => (RedOp.ofBits? fn).bind fun o => guardZ (zb && zc) (.vredc h ty o d a m)
  | 0x26 => (ScanOp.ofBits? (fld e 0 2)).bind fun o =>
      guardZ (zb && zc && !fn.getLsbD 2 && !fn.getLsbD 4) (.vscanr h ty o (fn.getLsbD 3) d a m)
  | 0x27 => (ScanOp.ofBits? (fld e 0 2)).bind fun o =>
      guardZ (zb && zc && !fn.getLsbD 2 && !fn.getLsbD 4) (.vscanc h ty o (fn.getLsbD 3) d a m)
  | 0x28 => guardZ (zc && plain) (.vperm h ty d a b mk)
  | 0x29 => guardZ (zb && zc && plain) (.vtrn h ty d a mk)
  | 0x2A => if fn.extractLsb' 1 4 == 0#4 then guardZ (zd && zb && zc && zr && !sat && !mk) (.mpush h ty a (fn.getLsbD 0))
      else none
  | 0x2E => guardZ (za && zr && !sat && !fn.getLsbD 4) (.vld h ty d b c (fld e 0 4) mk)
  | 0x2F => guardZ (zd && zr && !sat && !fn.getLsbD 4) (.vst h ty a b c (fld e 0 4) mk)
  | 0x30 => guardZ (za && zb && zc && zr && !sat && !fn.getLsbD 4) (.vldd h ty d (fld e 0 4) mk)
  | 0x32 => if fn == 0#5 then guardZ (za && zb && zc && zr && !sat && !mk && ty == .f32) (.vflg h d)
      else if fn == 1#5 then guardZ (za && zb && zc && zr && !sat && !mk && ty == .f32) (.vflgClr h d) else none
  | 0x33 => if zd && zb && zc && zr && !sat && !mk && ty == .f32 then
      (match fn.toNat with
       | 0 => some (.vseedSeed h a) | 1 => some (.vseedHnd h a) | 2 => some (.vseedIdx h a)
       | 3 => some (.vseedAdv h a) | _ => none)
      else none
  | _ => none

/-- The VU's words (R143). -/
def decodeVu (w e : Word) : Option Instr :=
  let h := Ring.ofWord w
  match opOf w with
  | 0x2B => guardZ (fld w 0 20 == 0) (.minv h)
  | 0x2C => guardZ (fld w 0 20 == 0) (.mpop h)
  | 0x2D => guardZ (fld w 0 14 == 0) (.mqry h (fld w 14 6))
  | 0x31 => guardZ (fld w 0 20 == 0) (.varrive h)
  | _ =>
    (Opnd.ofBits? (fld w 12 8)).bind fun d => (Opnd.ofBits? (fld w 4 8)).bind fun a =>
    (Opnd.ofBits? (fld e 18 8)).bind fun b => (Opnd.ofBits? (fld e 10 8)).bind fun c =>
    (Rnd.ofBits? (fld e 7 3)).bind fun r => decodeVu2 w e d a b c r

/-- Whether a VU opcode is assigned (R143). -/
def vuAssigned (op : Nat) : Bool := decide (op ≤ 0x33) && op != 0x1F

/-! ### The TDA map (R139, R144, R215) -/

def decodeTda (w e : Word) : Option Instr :=
  let h := Ring.ofWord w
  let s := SemF.ofWord e
  let v : BitVec 3 := fld w 15 3
  let i : BitVec 3 := fld w 12 3
  let lvl0 := fld w 18 2 == 0#2
  let zx := fld e 0 16 == 0#16
  let z (lo n : Nat) : Bool := fld w lo n == 0
  let op := opOf w
  match op with
  | 0x00 => (MSize.ofBits? (fld w 10 2)).bind fun m => (TFmt.ofNat? (fld w 0 4).toNat).bind fun f =>
      guardZ (lvl0 && fld e 0 15 == 0) (.tmac h v i m (fld w 4 6) f (bitAt e 15) s)
  | 0x01 => (MSize.ofBits? (fld w 10 2)).bind fun m => (TFmt.ofNat? (fld w 0 4).toNat).bind fun f =>
      guardZ (lvl0 && fld e 0 15 == 0) (.tmacx h v i m (fld w 4 6) f (bitAt e 15) s)
  | 0x02 => (TFmt.ofNat? (fld w 0 4).toNat).bind fun f =>
      guardZ (zx && z 5 7) (.tldb h (fld w 16 4) (fld w 12 4) (bitAt w 4) f s)
  | 0x03 => (MSize.ofBits? (fld w 10 2)).bind fun m =>
      guardZ (lvl0 && z 0 4 && fld e 0 15 == 0) (.tzero h v i m (fld w 4 6) (bitAt e 15) s)
  | 0x04 => (Opnd.ofBits? (fld w 12 8)).bind fun d => guardZ (zx && z 2 10) (.tflag h d (bitAt w 1) (bitAt w 0) s)
  | 0x05 => guardZ (zx && z 0 20) (.tdrain h s)
  | 0x06 => guardZ (zx && z 0 14) (.tcal h (fld w 14 6) s)
  | 0x07 => (Opnd.ofBits? (fld w 12 8)).bind fun d => guardZ (zx && z 0 6) (.tmarg h d (fld w 6 6) s)
  | 0x0E => guardZ (z 0 20) (.tarrive h)
  | _ =>
    if op < 0x08 || 0x0D < op then none else
      (Opnd.ofBits? (fld w 12 8)).bind fun d => (Opnd.ofBits? (fld w 4 8)).bind fun a =>
      (KeyType.ofBits? (fld e 12 3)).bind fun k =>
        let rows : BitVec 4 := fld w 0 4
        let noDir := !bitAt e 11
        let noK := fld e 5 6 == 0
        let noQ := !bitAt e 15
        let z5 := fld e 0 5 == 0
        match op with
        | 0x08 => guardZ (noDir && noK && z5) (.raceMin h d a rows k (bitAt e 15) s)
        | 0x09 => guardZ (noDir && noK && z5) (.raceMax h d a rows k (bitAt e 15) s)
        | 0x0A => guardZ (noDir && noK && z5) (.raceArgmin h d a rows k (bitAt e 15) s)
        | 0x0B => guardZ (noDir && noK && z5) (.raceArgmax h d a rows k (bitAt e 15) s)
        | 0x0C => guardZ (noQ && noK && z5) (.raceSort h d a rows k (bitAt e 11) s)
        | _ => guardZ (noQ && noDir && z5) (.raceTopk h d a rows k (fld e 5 6) s)

/-- Whether a TDA opcode is assigned (R144). -/
def tdaAssigned (op : Nat) : Bool := decide (op ≤ 0x0E)

/-! ### The XP map (R145, R253) -/

def decodeXp (w e1 e2 : Word) : Option Instr :=
  let h := Ring.ofWord w
  let z (lo n : Nat) : Bool := fld w lo n == 0
  let time : BitVec 20 := fld w 0 12 ++ fld e2 18 8
  let cf : CopyF := ⟨fld w 16 4, bitAt w 15, bitAt w 14, time, SemF.ofWord e1, fld e1 0 16, fld e2 0 16⟩
  let zc := z 12 2 && fld e2 16 2 == 0#2
  match opOf w with
  | 0x00 => guardZ zc (.xcopy h cf)
  | 0x01 => guardZ zc (.xgath h cf)
  | 0x02 => guardZ zc (.xscat h cf)
  | 0x03 => guardZ (z 0 6 && fld e1 21 5 == 0) (.xcnt h (fld w 16 4) (bitAt w 15) (fld w 6 9) (fld e1 0 21))
  | 0x04 => guardZ (z 12 1 && fld e2 16 2 == 0#2)
      (.xflag h ⟨fld w 16 4, bitAt w 15, fld w 13 2, time, SemF.ofWord e1, fld e1 0 16, fld e2 0 16⟩)
  | 0x05 => guardZ (z 0 3 && fld e1 0 2 == 0 && fld e2 0 2 == 0)
      (.xrdef h (fld w 4 16) (fld e1 2 8 ++ fld e2 2 8) (fld e1 10 16) (fld e2 10 16) (bitAt w 3))
  | 0x06 => guardZ (z 16 4 && fld e1 16 10 == 0) (.xrgen h (fld w 0 16) (fld e1 0 16))
  | 0x07 => guardZ (z 12 8) (.xarm h (fld w 0 12))
  | 0x08 => guardZ (z 0 20) (.xarrive h)
  | _ => none

/-- Whether an XP opcode is assigned (R145). -/
def xpAssigned (op : Nat) : Bool := decide (op ≤ 0x08)

/-! ### Text words -/

/-- An extension word repeats its head's tag and has ring bits 0000 (R133). -/
def extOk (head e : Word) : Bool := tagOf e == tagOf head && fld e 26 4 == 0#4

/-- Keep an instruction that is within the limits of its encoding. -/
def finish : Option Instr → Except Reject Instr
  | none => .error .reservedField
  | some i => if i.wf then .ok i else .error .badOperand

/-- The instruction a text word starts, with the two words that follow it (R132-R145). The end-of-text word is
`endOfText` for every engine (R79). -/
def decodeText (w e1 e2 : Word) : Except Reject Instr :=
  if w == eotWord then .ok .endOfText
  else
    let n := headLength w
    let op := opOf w
    if (decide (2 ≤ n) && !extOk w e1) || (decide (3 ≤ n) && !extOk w e2) then .error .badExtension
    else match (tagOf w).toNat with
      | 0 => if ctlAssigned op then finish (decodeCtl w e1) else .error .unassignedOpcode
      | 1 => if vuAssigned op then finish (decodeVu w e1) else .error .unassignedOpcode
      | 2 => if tdaAssigned op then finish (decodeTda w e1) else .error .unassignedOpcode
      | _ => if xpAssigned op then finish (decodeXp w e1 e2) else .error .unassignedOpcode

/-! ### Sequencer words (R147, R242) -/

/-- The fields of a feed word (R242). -/
def FeedF.ofWord? (w : Word) : Option FeedF :=
  (TFmt.ofNat? (fld w 23 3).toNat).map fun f => ⟨f, bitAt w 20, fld w 17 3, fld w 14 3, fld w 11 3, fld w 7 4⟩

/-- The fields of a sequencer word (R242). The table shows 15:0 of SMOV as IMM for every MD, and R242 asks zero of unused generator and
register fields: that IMM must be zero with MD 10, which does not use it, is the model's choice (log 64). -/
def decodeSeqFields (w : Word) : Option Instr :=
  let z (lo n : Nat) : Bool := fld w lo n == 0
  match (fld w 26 6).toNat with
  | 0x01 => if bitAt w 23 then guardZ (z 16 7) (.sloop (fld w 24 2) (fld w 0 16))
            else guardZ (z 20 3 && z 0 16) (.sloopReg (fld w 24 2) (fld w 16 4))
  | 0x02 => guardZ (z 0 24) (.send (fld w 24 2))
  | 0x03 => if bitAt w 22 then guardZ (z 20 2 && z 0 16) (.sagenBase (fld w 23 3) (fld w 16 4))
            else guardZ (z 0 16) (.sagenStep (fld w 23 3) (fld w 20 2) (fld w 16 4))
  | 0x04 => (MSize.ofBits? (fld w 21 2)).bind fun m => (FeedF.ofWord? w).bind fun f => guardZ (z 0 7) (.sfeeda m f)
  | 0x05 => (FeedF.ofWord? w).bind fun f => guardZ (z 21 2 && z 0 7) (.sfeedb f)
  | 0x06 => (SlotSize.ofBits? (fld w 24 2)).bind fun t => guardZ (z 0 15) (.sdecode t (fld w 21 3) (fld w 18 3) (fld w 15 3))
  | 0x07 => (SlotSize.ofBits? (fld w 24 2)).bind fun t =>
      guardZ (z 21 3 && z 0 12) (.sencode t (fld w 18 3) (fld w 15 3) (fld w 12 3))
  | 0x08 => if bitAt w 24 then guardZ (z 0 21) (.sperm (bitAt w 25) (fld w 21 3))
            else guardZ (z 0 24) (.spermOff (bitAt w 25))
  | 0x09 => if bitAt w 22 then guardZ (z 16 6) (.sksig (fld w 23 3) (fld w 0 16))
            else guardZ (z 20 2 && z 0 16) (.sksigReg (fld w 23 3) (fld w 16 4))
  | 0x0A => if bitAt w 22 then guardZ (z 16 6) (.skwait (fld w 23 3) (fld w 0 16))
            else guardZ (z 20 2 && z 0 16) (.skwaitReg (fld w 23 3) (fld w 16 4))
  | 0x0B => match (fld w 20 2).toNat with
    | 0 => guardZ (z 16 4) (.smov (fld w 22 4) (fld w 0 16))
    | 1 => guardZ (z 16 4) (.smovHi (fld w 22 4) (fld w 0 16))
    | 2 => guardZ (z 0 16) (.smovReg (fld w 22 4) (fld w 16 4))
    | _ => none
  | 0x0C => if bitAt w 17 then guardZ (z 16 1) (.sadd (fld w 22 4) (fld w 18 4) (fld w 0 16))
            else guardZ (z 16 1 && z 0 12) (.saddReg (fld w 22 4) (fld w 18 4) (fld w 12 4))
  | 0x0D => if bitAt w 25 then guardZ (z 24 1 && z 0 21) (.sqpopAg (fld w 21 3))
            else guardZ (z 0 21) (.sqpop (fld w 21 4))
  | 0x0E => guardZ (z 0 22) (.sqpush (fld w 22 4))
  | 0x0F => guardZ (z 0 26) .shalt
  | _ => none

/-- The instruction of a sequencer word (R147). -/
def decodeSeq (w : Word) : Except Reject Instr :=
  if w == eotWord then .ok .endOfText
  else
    let op := (fld w 26 6).toNat
    if op == 0 || decide (0x10 ≤ op) then .error .unassignedOpcode else finish (decodeSeqFields w)

/-! ### Encoding -/

/-- The words an instruction is made of: 0 for a step without a word (R133, R143-R147). -/
inductive Words
  | none
  | one (w : Word)
  | two (w e : Word)
  | three (w e1 e2 : Word)
deriving DecidableEq, Repr

def Ring.toBits (h : Ring) : BitVec 4 :=
  BitVec.ofBool h.wp ++ BitVec.ofBool h.ws ++ BitVec.ofBool h.sp ++ BitVec.ofBool h.ss

/-- A head: tag, ring bits, opcode, engine-specific fields (R132). -/
def headW (tag : BitVec 2) (h : Ring) (op : BitVec 6) (f : BitVec 20) : Word := tag ++ h.toBits ++ op ++ f

/-- An extension word (R133). -/
def extW (tag : BitVec 2) (p : BitVec 26) : Word := tag ++ 0#4 ++ p

/-- Formats CR, CP and CM: three six-bit fields and two low bits (R136). -/
def crW (h : Ring) (op : BitVec 6) (x y z : BitVec 6) (fn : BitVec 2) : Words := .one (headW 0 h op (x ++ y ++ z ++ fn))

/-- Format CI (R136). -/
def ciW (h : Ring) (op : BitVec 6) (rd ra : BitVec 6) (imm : BitVec 8) : Words := .one (headW 0 h op (rd ++ ra ++ imm))

/-- A SYS word (R303). -/
def sysW (sf a : BitVec 6) (b : BitVec 8) : Words := .one (headW 0 Ring.none 0x3D (sf ++ a ++ b))

/-- A two-word VU instruction (R137). -/
def vuW (h : Ring) (op : BitVec 6) (d a : BitVec 8) (ty : BitVec 4) (b c : BitVec 8) (rnd : BitVec 3) (sat mk : Bool)
    (fn : BitVec 5) : Words :=
  .two (headW 1 h op (d ++ a ++ ty)) (extW 1 (b ++ c ++ rnd ++ BitVec.ofBool sat ++ BitVec.ofBool mk ++ fn))

/-- A part number as a small constant (R185). -/
def partBits (q : BitVec 4) : BitVec 8 := 3#2 ++ 0#2 ++ q

/-- A two-word TDA instruction (R139, R215). -/
def tdaW (h : Ring) (op : BitVec 6) (f : BitVec 20) (s : SemF) (x : BitVec 16) : Words :=
  .two (headW 2 h op f) (extW 2 (s.toBits ++ x))

def raceW (h : Ring) (op : BitVec 6) (d a : Opnd) (rows : BitVec 4) (kt : KeyType) (q dir : Bool) (km1 : BitVec 6)
    (s : SemF) : Words :=
  tdaW h op (d.toBits ++ a.toBits ++ rows) s (BitVec.ofBool q ++ kt.toBits ++ BitVec.ofBool dir ++ km1 ++ 0#5)

def copyW (h : Ring) (op : BitVec 6) (c : CopyF) : Words :=
  .three (headW 3 h op (c.eng ++ BitVec.ofBool c.ord ++ BitVec.ofBool c.ofs ++ 0#2 ++ c.time.extractLsb' 8 12))
    (extW 3 (c.sem.toBits ++ c.hs)) (extW 3 (c.time.extractLsb' 0 8 ++ 0#2 ++ c.hg))

def feedBits (m : BitVec 2) (f : FeedF) : BitVec 26 :=
  f.fmt.toBits ++ m ++ BitVec.ofBool f.sc ++ f.agc ++ f.agp ++ f.ags ++ f.gr ++ 0#7

/-- A sequencer word (R147). -/
def seqW (op : BitVec 6) (f : BitVec 26) : Words := .one (op ++ f)

/-- The words of an instruction, from the encoding tables of 06 to 10 and 13. -/
def encode : Instr → Words
  | .nop h n => .one (headW 0 h 0x00 (0#4 ++ n))
  | .add h rd ra rb => crW h 0x01 rd ra rb 0
  | .sub h rd ra rb => crW h 0x01 rd ra rb 1
  | .min h rd ra rb => crW h 0x01 rd ra rb 2
  | .max h rd ra rb => crW h 0x01 rd ra rb 3
  | .minz h rd ra rb => crW h 0x02 rd ra rb 0
  | .maxz h rd ra rb => crW h 0x02 rd ra rb 1
  | .adda h rd ra rb k => crW h 0x03 rd ra rb k
  | .mul h rd ra rb => crW h 0x04 rd ra rb 0
  | .mulh h rd ra rb => crW h 0x04 rd ra rb 1
  | .mulhz h rd ra rb => crW h 0x04 rd ra rb 2
  | .divs h rd ra rb => crW h 0x05 rd ra rb 0
  | .divz h rd ra rb => crW h 0x05 rd ra rb 1
  | .and h rd ra rb => crW h 0x06 rd ra rb 0
  | .or h rd ra rb => crW h 0x06 rd ra rb 1
  | .xor h rd ra rb => crW h 0x06 rd ra rb 2
  | .shl h rd ra rb => crW h 0x07 rd ra rb 0
  | .shr h rd ra rb => crW h 0x07 rd ra rb 1
  | .sar h rd ra rb => crW h 0x07 rd ra rb 2
  | .addi h rd ra imm => ciW h 0x08 rd ra imm
  | .andi h rd ra imm => ciW h 0x09 rd ra imm
  | .ori h rd ra imm => ciW h 0x0A rd ra imm
  | .xori h rd ra imm => ciW h 0x0B rd ra imm
  | .shli h rd ra imm => ciW h 0x0C rd ra (0#3 ++ imm)
  | .shri h rd ra imm => ciW h 0x0D rd ra (0#3 ++ imm)
  | .sari h rd ra imm => ciW h 0x0E rd ra (0#3 ++ imm)
  | .clz h rd ra => crW h 0x0F rd ra 0 0
  | .popc h rd ra => crW h 0x0F rd ra 0 1
  | .mov h rd ra => crW h 0x0F rd ra 0 2
  | .bfx h rd ra rb => crW h 0x10 rd ra rb 0
  | .bfi h rd ra rb => crW h 0x10 rd ra rb 1
  | .sel h rd ra rb neg p =>
      .two (headW 0 h 0x11 (rd ++ ra ++ rb ++ 0#2)) (extW 0 (0#19 ++ BitVec.ofBool neg ++ p))
  | .li h rd imm => .two (headW 0 h 0x12 (rd ++ imm.extractLsb' 18 14)) (extW 0 (0#8 ++ imm.extractLsb' 0 18))
  | .lih h rd imm => .two (headW 0 h 0x13 (rd ++ imm.extractLsb' 18 14)) (extW 0 (0#8 ++ imm.extractLsb' 0 18))
  | .movl h rd => .one (headW 0 h 0x14 (rd ++ 0#2 ++ 0#12))
  | .movlHi h rd => .one (headW 0 h 0x14 (rd ++ 1#2 ++ 0#12))
  | .movlD h rd => .one (headW 0 h 0x14 (rd ++ 2#2 ++ 0#12))
  | .movlLnk h rd => .one (headW 0 h 0x14 (rd ++ 3#2 ++ 0#12))
  | .cmpEq h pd ra rb => crW h 0x15 pd ra rb 0
  | .cmpNe h pd ra rb => crW h 0x15 pd ra rb 1
  | .cmpLt h pd ra rb => crW h 0x15 pd ra rb 2
  | .cmpGe h pd ra rb => crW h 0x15 pd ra rb 3
  | .cmpLtz h pd ra rb => crW h 0x16 pd ra rb 0
  | .cmpGez h pd ra rb => crW h 0x16 pd ra rb 1
  | .cmpiEq h pd ra imm => crW h 0x17 pd ra imm 0
  | .cmpiNe h pd ra imm => crW h 0x17 pd ra imm 1
  | .cmpiLt h pd ra imm => crW h 0x17 pd ra imm 2
  | .cmpiGe h pd ra imm => crW h 0x17 pd ra imm 3
  | .cmpiLtz h pd ra imm => crW h 0x18 pd ra imm 0
  | .cmpiGez h pd ra imm => crW h 0x18 pd ra imm 1
  | .pand h pd pa pb => crW h 0x19 pd pa pb 0
  | .por h pd pa pb => crW h 0x19 pd pa pb 1
  | .pxor h pd pa pb => crW h 0x19 pd pa pb 2
  | .prep h t off => .one (headW 0 h 0x1A (t ++ 0#1 ++ off))
  | .preps h t ra => .one (headW 0 h 0x1B (t ++ 0#3 ++ ra ++ 0#8))
  | .xfer h t p => .one (headW 0 h 0x1C (t ++ 0#3 ++ p ++ 0#8))
  | .xfern h t p => .one (headW 0 h 0x1D (t ++ 0#3 ++ p ++ 0#8))
  | .call h t => .one (headW 0 h 0x1E (t ++ 0#17))
  | .cinv h t => .one (headW 0 h 0x1F (t ++ 0#17))
  | .cinva h => .one (headW 0 h 0x1F (0#3 ++ 1#1 ++ 0#16))
  | .lpset h lv c => .one (headW 0 h 0x20 (lv ++ 1#1 ++ c))
  | .lpsetReg h lv ra => .one (headW 0 h 0x20 (lv ++ 0#3 ++ ra ++ 0#8))
  | .lpend h lv => .one (headW 0 h 0x21 (lv ++ 0#17))
  | .lpidx h rd lv => .one (headW 0 h 0x22 (rd ++ lv ++ 0#11))
  | .ldb h rd b off => ciW h 0x23 rd b off
  | .ldbz h rd b off => ciW h 0x24 rd b off
  | .ldh h rd b off => ciW h 0x25 rd b off
  | .ldhz h rd b off => ciW h 0x26 rd b off
  | .ldw h rd b off => ciW h 0x27 rd b off
  | .ldd h rd b off => ciW h 0x28 rd b off
  | .stb h rs b off => ciW h 0x29 rs b off
  | .sth h rs b off => ciW h 0x2A rs b off
  | .stw h rs b off => ciW h 0x2B rs b off
  | .std h rs b off => ciW h 0x2C rs b off
  | .aadd h rd ra rb => crW h 0x2D rd ra rb 0
  | .amin h rd ra rb => crW h 0x2D rd ra rb 1
  | .amax h rd ra rb => crW h 0x2D rd ra rb 2
  | .axchg h rd ra rb => crW h 0x2D rd ra rb 3
  | .acas h rd ra rb => crW h 0x2E rd ra rb 0
  | .acasD h rd ra rb => crW h 0x2E rd ra rb 1
  | .ksig h k c => .one (headW 0 h 0x2F (k ++ 1#1 ++ c))
  | .ksigReg h k ra => .one (headW 0 h 0x2F (k ++ 0#3 ++ ra ++ 0#8))
  | .kwait h k c => .one (headW 0 h 0x30 (k ++ 1#1 ++ c))
  | .kwaitReg h k ra => .one (headW 0 h 0x30 (k ++ 0#3 ++ ra ++ 0#8))
  | .semsig h s => .one (headW 0 h 0x31 (s ++ 0#16))
  | .semwait h s => .one (headW 0 h 0x32 (s ++ 0#16))
  | .push h ra => .one (headW 0 h 0x33 (0#6 ++ ra ++ 0#8))
  | .pop h rd f => .one (headW 0 h 0x34 (rd ++ f ++ 0#11))
  | .arrive h => .one (headW 0 h 0x35 0)
  | .mfph h rd => .one (headW 0 h 0x36 (rd ++ 0#2 ++ 0#12))
  | .mftime h rd => .one (headW 0 h 0x36 (rd ++ 1#2 ++ 0#12))
  | .mfcyc h rd => .one (headW 0 h 0x36 (rd ++ 2#2 ++ 0#12))
  | .realign h => .one (headW 0 h 0x36 (0#6 ++ 3#2 ++ 0#12))
  | .hand h ra rb => crW h 0x37 0 ra rb 0
  | .take h ra => crW h 0x38 0 ra 0 0
  | .fenceTile h => .one (headW 0 h 0x39 (0#2 ++ 0#18))
  | .fenceDie h => .one (headW 0 h 0x39 (1#2 ++ 0#18))
  | .fencePackage h => .one (headW 0 h 0x39 (2#2 ++ 0#18))
  | .fenceSystem h => .one (headW 0 h 0x39 (3#2 ++ 0#18))
  | .promote h d => .one (headW 0 h 0x3A (0#17 ++ d))
  | .halt h => .one (headW 0 h 0x3B (0#2 ++ 0#18))
  | .trap h c => .one (headW 0 h 0x3B (1#2 ++ 0#10 ++ c))
  | .brk h => .one (headW 0 h 0x3B (2#2 ++ 0#18))
  | .guard neg p => .one (headW 0 Ring.none 0x3C (BitVec.ofBool neg ++ p ++ 0#13))
  | .mfsr sd sr => sysW 0x00 sd sr
  | .mtsr sa sr => sysW 0x01 sa sr
  | .eret => sysW 0x02 0 0
  | .tlbi sa sb => sysW 0x03 sa (sb ++ 0#2)
  | .tlbia sb => sysW 0x04 0 (sb ++ 0#2)
  | .wfe => sysW 0x05 0 0
  | .sev sb => sysW 0x06 0 (sb ++ 0#2)
  | .csave sa sb => sysW 0x07 sa (sb ++ 0#2)
  | .crest sa sb => sysW 0x08 sa (sb ++ 0#2)
  | .ttrimRd sd sb => sysW 0x09 sd (sb ++ 0#2)
  | .ttrimWr sa sb => sysW 0x0A sa (sb ++ 0#2)
  | .finj sa sb => sysW 0x0B sa (sb ++ 0#2)
  | .vadd h t d a b m => vuW h 0x00 d.toBits a.toBits t.toBits b.toBits 0 m.rnd.toBits m.sat m.msk 0
  | .vsub h t d a b m => vuW h 0x01 d.toBits a.toBits t.toBits b.toBits 0 m.rnd.toBits m.sat m.msk 0
  | .vmul h t d a b m => vuW h 0x02 d.toBits a.toBits t.toBits b.toBits 0 m.rnd.toBits m.sat m.msk 0
  | .vfma h t d a b c m => vuW h 0x03 d.toBits a.toBits t.toBits b.toBits c.toBits m.rnd.toBits m.sat m.msk 0
  | .vfms h t d a b c m => vuW h 0x04 d.toBits a.toBits t.toBits b.toBits c.toBits m.rnd.toBits m.sat m.msk 0
  | .vmin h t d a b mk => vuW h 0x05 d.toBits a.toBits t.toBits b.toBits 0 0 false mk 0
  | .vmax h t d a b mk => vuW h 0x06 d.toBits a.toBits t.toBits b.toBits 0 0 false mk 0
  | .vabs h t d a sat mk => vuW h 0x07 d.toBits a.toBits t.toBits 0 0 0 sat mk 0
  | .vneg h t d a sat mk => vuW h 0x08 d.toBits a.toBits t.toBits 0 0 0 sat mk 0
  | .vand h t d a b mk => vuW h 0x09 d.toBits a.toBits t.toBits b.toBits 0 0 false mk 0
  | .vor h t d a b mk => vuW h 0x0A d.toBits a.toBits t.toBits b.toBits 0 0 false mk 0
  | .vxor h t d a b mk => vuW h 0x0B d.toBits a.toBits t.toBits b.toBits 0 0 false mk 0
  | .vnot h t d a mk => vuW h 0x0C d.toBits a.toBits t.toBits 0 0 0 false mk 0
  | .vshl h t d a b sat mk => vuW h 0x0D d.toBits a.toBits t.toBits b.toBits 0 0 sat mk 0
  | .vshr h t d a b mk => vuW h 0x0E d.toBits a.toBits t.toBits b.toBits 0 0 false mk 0
  | .vsar h t d a b mk => vuW h 0x0F d.toBits a.toBits t.toBits b.toBits 0 0 false mk 0
  | .vcmp h t cc d a b mk => vuW h 0x10 d.toBits a.toBits t.toBits b.toBits 0 0 false mk cc.toBits
  | .vsel h t d a b c mk => vuW h 0x11 d.toBits a.toBits t.toBits b.toBits c.toBits 0 false mk 0
  | .vmov h t d a mk => vuW h 0x12 d.toBits a.toBits t.toBits 0 0 0 false mk 0
  | .vbcs h t d a b mk => vuW h 0x13 d.toBits a.toBits t.toBits b.toBits 0 0 false mk 0
  | .vcvt h dt st d a q r sat => vuW h 0x14 d.toBits a.toBits dt.toBits (partBits q) 0 r.toBits sat false (0#1 ++ st.toBits)
  | .vqmx h f d a q r => vuW h 0x15 d.toBits a.toBits f.toBits (partBits q) 0 r.toBits false false
      (BitVec.ofBool f.isSix ++ 0#4)
  | .vdqmx h f d a b q r => vuW h 0x16 d.toBits a.toBits f.toBits b.toBits (partBits q) r.toBits false false
      (BitVec.ofBool f.isSix ++ 0#4)
  | .vjoin6 h f d a b q => vuW h 0x17 d.toBits a.toBits f.toBits b.toBits (partBits q) 0 false false 0
  | .vsplit6P4 h f d a q => vuW h 0x18 d.toBits a.toBits f.toBits (partBits q) 0 0 false false 0
  | .vsplit6P2 h f d a q => vuW h 0x18 d.toBits a.toBits f.toBits (partBits q) 0 0 false false 1
  | .vrcpa h d a mk => vuW h 0x19 d.toBits a.toBits 0 0 0 0 false mk 0
  | .vrsqa h d a mk => vuW h 0x1A d.toBits a.toBits 0 0 0 0 false mk 0
  | .vrcpr h d a b mk => vuW h 0x1B d.toBits a.toBits 0 b.toBits 0 0 false mk 0
  | .vrsqr h d a b mk => vuW h 0x1C d.toBits a.toBits 0 b.toBits 0 0 false mk 0
  | .vexp2 h d a mk => vuW h 0x1D d.toBits a.toBits 0 0 0 0 false mk 0
  | .vlog2 h d a mk => vuW h 0x1E d.toBits a.toBits 0 0 0 0 false mk 0
  | .vrotr h t d a b mk => vuW h 0x20 d.toBits a.toBits t.toBits b.toBits 0 0 false mk 0
  | .vrotc h t d a b mk => vuW h 0x21 d.toBits a.toBits t.toBits b.toBits 0 0 false mk 0
  | .vbcr h t d a b mk => vuW h 0x22 d.toBits a.toBits t.toBits b.toBits 0 0 false mk 0
  | .vbcc h t d a b mk => vuW h 0x23 d.toBits a.toBits t.toBits b.toBits 0 0 false mk 0
  | .vredr h t op d a m => vuW h 0x24 d.toBits a.toBits t.toBits 0 0 m.rnd.toBits m.sat m.msk op.toBits
  | .vredc h t op d a m => vuW h 0x25 d.toBits a.toBits t.toBits 0 0 m.rnd.toBits m.sat m.msk op.toBits
  | .vscanr h t op x d a m => vuW h 0x26 d.toBits a.toBits t.toBits 0 0 m.rnd.toBits m.sat m.msk
      (0#1 ++ BitVec.ofBool x ++ 0#1 ++ op.toBits)
  | .vscanc h t op x d a m => vuW h 0x27 d.toBits a.toBits t.toBits 0 0 m.rnd.toBits m.sat m.msk
      (0#1 ++ BitVec.ofBool x ++ 0#1 ++ op.toBits)
  | .vperm h t d a b mk => vuW h 0x28 d.toBits a.toBits t.toBits b.toBits 0 0 false mk 0
  | .vtrn h t d a mk => vuW h 0x29 d.toBits a.toBits t.toBits 0 0 0 false mk 0
  | .mpush h t a fresh => vuW h 0x2A 0 a.toBits t.toBits 0 0 0 false false (0#4 ++ BitVec.ofBool fresh)
  | .minv h => .one (headW 1 h 0x2B 0)
  | .mpop h => .one (headW 1 h 0x2C 0)
  | .mqry h pd => .one (headW 1 h 0x2D (pd ++ 0#14))
  | .vld h t d b s rows mk => vuW h 0x2E d.toBits 0 t.toBits b.toBits s.toBits 0 false mk (0#1 ++ rows)
  | .vst h t a b s rows mk => vuW h 0x2F 0 a.toBits t.toBits b.toBits s.toBits 0 false mk (0#1 ++ rows)
  | .vldd h t d rows mk => vuW h 0x30 d.toBits 0 t.toBits 0 0 0 false mk (0#1 ++ rows)
  | .varrive h => .one (headW 1 h 0x31 0)
  | .vflg h d => vuW h 0x32 d.toBits 0 0 0 0 0 false false 0
  | .vflgClr h d => vuW h 0x32 d.toBits 0 0 0 0 0 false false 1
  | .vseedSeed h a => vuW h 0x33 0 a.toBits 0 0 0 0 false false 0
  | .vseedHnd h a => vuW h 0x33 0 a.toBits 0 0 0 0 false false 1
  | .vseedIdx h a => vuW h 0x33 0 a.toBits 0 0 0 0 false false 2
  | .vseedAdv h a => vuW h 0x33 0 a.toBits 0 0 0 0 false false 3
  | .tmac h v i m n f cs s => tdaW h 0x00 (0#2 ++ v ++ i ++ m.toBits ++ n ++ 0#1 ++ f.toBits) s (BitVec.ofBool cs ++ 0#15)
  | .tmacx h v i m n f cs s => tdaW h 0x01 (0#2 ++ v ++ i ++ m.toBits ++ n ++ 0#1 ++ f.toBits) s (BitVec.ofBool cs ++ 0#15)
  | .tldb h slot cnt x f s => tdaW h 0x02 (slot ++ cnt ++ 0#7 ++ BitVec.ofBool x ++ 0#1 ++ f.toBits) s 0
  | .tzero h v i m n cs s => tdaW h 0x03 (0#2 ++ v ++ i ++ m.toBits ++ n ++ 0#4) s (BitVec.ofBool cs ++ 0#15)
  | .tflag h d mg clr s => tdaW h 0x04 (d.toBits ++ 0#10 ++ BitVec.ofBool mg ++ BitVec.ofBool clr) s 0
  | .tdrain h s => tdaW h 0x05 0 s 0
  | .tcal h c s => tdaW h 0x06 (c ++ 0#14) s 0
  | .tmarg h d c s => tdaW h 0x07 (d.toBits ++ c ++ 0#6) s 0
  | .raceMin h d a r k q s => raceW h 0x08 d a r k q false 0 s
  | .raceMax h d a r k q s => raceW h 0x09 d a r k q false 0 s
  | .raceArgmin h d a r k q s => raceW h 0x0A d a r k q false 0 s
  | .raceArgmax h d a r k q s => raceW h 0x0B d a r k q false 0 s
  | .raceSort h d a r k desc s => raceW h 0x0C d a r k false desc 0 s
  | .raceTopk h d a r k km1 s => raceW h 0x0D d a r k false false km1 s
  | .tarrive h => .one (headW 2 h 0x0E 0)
  | .xcopy h c => copyW h 0x00 c
  | .xgath h c => copyW h 0x01 c
  | .xscat h c => copyW h 0x02 c
  | .xcnt h n self src bytes => .two (headW 3 h 0x03 (n ++ BitVec.ofBool self ++ src ++ 0#6)) (extW 3 (0#5 ++ bytes))
  | .xflag h c =>
      .three (headW 3 h 0x04 (c.eng ++ BitVec.ofBool c.ord ++ c.fop ++ 0#1 ++ c.time.extractLsb' 8 12))
        (extW 3 (c.sem.toBits ++ c.hs)) (extW 3 (c.time.extractLsb' 0 8 ++ 0#2 ++ c.hg))
  | .xrdef h ths thg nhs nhg ofs =>
      .three (headW 3 h 0x05 (ths ++ BitVec.ofBool ofs ++ 0#3)) (extW 3 (nhs ++ thg.extractLsb' 8 8 ++ 0#2))
        (extW 3 (nhg ++ thg.extractLsb' 0 8 ++ 0#2))
  | .xrgen h hs hg => .two (headW 3 h 0x06 (0#4 ++ hs)) (extW 3 (0#10 ++ hg))
  | .xarm h n => .one (headW 3 h 0x07 (0#8 ++ n))
  | .xarrive h => .one (headW 3 h 0x08 0)
  | .endOfText => .one eotWord
  | .sloop nl c => seqW 0x01 (nl ++ 1#1 ++ 0#7 ++ c)
  | .sloopReg nl g => seqW 0x01 (nl ++ 0#1 ++ 0#3 ++ g ++ 0#16)
  | .send nl => seqW 0x02 (nl ++ 0#24)
  | .sagenBase ag g => seqW 0x03 (ag ++ 4#3 ++ g ++ 0#16)
  | .sagenStep ag l g => seqW 0x03 (ag ++ 0#1 ++ l ++ g ++ 0#16)
  | .sfeeda m f => seqW 0x04 (feedBits m.toBits f)
  | .sfeedb f => seqW 0x05 (feedBits 0 f)
  | .sdecode t n s e => seqW 0x06 (t.toBits ++ n ++ s ++ e ++ 0#15)
  | .sencode t r d e => seqW 0x07 (t.toBits ++ 0#3 ++ r ++ d ++ e ++ 0#12)
  | .sperm f ag => seqW 0x08 (BitVec.ofBool f ++ 1#1 ++ ag ++ 0#21)
  | .spermOff f => seqW 0x08 (BitVec.ofBool f ++ 0#25)
  | .sksig k c => seqW 0x09 (k ++ 1#1 ++ 0#6 ++ c)
  | .sksigReg k g => seqW 0x09 (k ++ 0#1 ++ 0#2 ++ g ++ 0#16)
  | .skwait k c => seqW 0x0A (k ++ 1#1 ++ 0#6 ++ c)
  | .skwaitReg k g => seqW 0x0A (k ++ 0#1 ++ 0#2 ++ g ++ 0#16)
  | .smov gd imm => seqW 0x0B (gd ++ 0#2 ++ 0#4 ++ imm)
  | .smovHi gd imm => seqW 0x0B (gd ++ 1#2 ++ 0#4 ++ imm)
  | .smovReg gd gb => seqW 0x0B (gd ++ 2#2 ++ gb ++ 0#16)
  | .sadd gd ga imm => seqW 0x0C (gd ++ ga ++ 1#1 ++ 0#1 ++ imm)
  | .saddReg gd ga gb => seqW 0x0C (gd ++ ga ++ 0#1 ++ 0#1 ++ gb ++ 0#12)
  | .sqpop gd => seqW 0x0D (0#1 ++ gd ++ 0#21)
  | .sqpopAg ag => seqW 0x0D (1#1 ++ 0#1 ++ ag ++ 0#21)
  | .sqpush g => seqW 0x0E (g ++ 0#22)
  | .shalt => seqW 0x0F 0
  | _ => .none

/-- The length of an instruction in words (R133). -/
def Words.length : Words → Nat
  | none => 0
  | one _ => 1
  | two _ _ => 2
  | three _ _ _ => 3

/-- The words as a list, first word first. -/
def Words.toList : Words → List Word
  | none => []
  | one w => [w]
  | two w e => [w, e]
  | three w e1 e2 => [w, e1, e2]

/-- Decoding of the words of a text instruction. -/
def Words.decodeText : Words → Except Reject Instr
  | none => .error .unassignedOpcode
  | one w => Sys2Proof.decodeText w 0 0
  | two w e => Sys2Proof.decodeText w e 0
  | three w e1 e2 => Sys2Proof.decodeText w e1 e2

/-! ### The words of the opcode table

A word of the table is read by the sequencer when its ring bits' place (29:26) is not zero under tag 00 and the word
is a legal sequencer word, else as a text word (log 9): both engines read 32-bit words, and a word does not say whose it is. -/

/-- Whether a table word is taken as a sequencer word. -/
def isSeqWord (w : Word) : Bool :=
  w != eotWord && tagOf w == 0#2 && fld w 26 4 != 0#4 &&
    match decodeSeq w with
    | .ok _ => true
    | .error _ => false

/-- Word `k` of an instruction whose bits are `w`, the first word lowest. -/
def tableWord (w k : Nat) : Word := BitVec.ofNat 32 (w / 2 ^ (32 * k))

/-- The instruction the decoder reads from the bits of an opcode-table row, words of zeros above `nbits`. -/
def decodeTableWord (nbits w : Nat) : Option Instr :=
  let v := w % 2 ^ nbits
  let w0 := tableWord v 0
  match if isSeqWord w0 then decodeSeq w0 else decodeText w0 (tableWord v 1) (tableWord v 2) with
  | .ok i => some i
  | .error _ => none

end Sys2Proof
end

