-- ==== Sys2Proof/Machine/State.lean ====
section
/-! DEFINITION. The state of the LQ8 as plain data: 512 tiles, 8 dies with their firmware cores, partitions, contexts,
links, copies, physical memory. Registers and memories are sparse maps in one canonical form: keys rise, and no entry
equals what an unlisted key reads as. INVENTORY.md gives each field's rule and its reset value.

Fields that are the model's own and not the manual's: `agenda`, `cur` (log 1), `inputs` (the host interface), `free`
(log 5), `Ctl.guard`, the serial numbers of copies, commands and signals, and what a cut into turns has to remember: `Pos.done`, `Pos.took`,
`Tda.seen` and `Tda.just` (log 16), the words that a cycle wiped (log 35), `Die.presses` (log 65), `Fe.svc` (log 67), what waits at a
link (`QRun.slots`, `Fe.scan`, `Part.lead`; log 30), and in `Pkg` the
accesses, answers, invalidations and STATUS words that wait (logs 23, 24, 40) and the frozen contexts saved (log 26). -/

namespace Sys2Proof.Machine

/-- A sparse map with natural keys, rising; the reader supplies the default. -/
abbrev Map (α : Type) := List (Nat × α)

/-- Bytes by address, rising; an unlisted byte is 0 (R55, R153; log 2). -/
abbrev Mem := List Host.Cell

/-- The engines of a tile (R2). -/
inductive Eng | ctl | vu | tda | xp | tsq
deriving DecidableEq, Repr

/-- Who takes a turn: an engine of a physical tile (R20), the firmware core of a logical die, or the package. -/
inductive Agent
  | eng (t : Nat) (e : Eng)
  | fwc (d : Nat)
  | pkg
deriving DecidableEq, Repr

/-! ### Control registers (R53-R58), shared by a tile's CTL and the firmware core (R287) -/

/-- A target's prefetch buffer (R57, R170). -/
inductive Buf | empty | filling (full : Nat) | filled
deriving DecidableEq, Repr

/-- A branch target (R56, R57). -/
structure Target where
  addr : BitVec 15
  prpd : Bool
  buf : Buf
deriving DecidableEq, Repr

/-- A loop level (R58); `spatial` levels are constants of the tile (R51). -/
structure Level where
  count : BitVec 16
  index : BitVec 16
  start : BitVec 15
  spatial : Bool
deriving DecidableEq, Repr

/-- A GUARD that its guarded word has still to follow in the same issue slot (R135). -/
structure Guard where
  addr : Nat
  holds : Bool
deriving DecidableEq, Repr

/-- The CTL's registers (R53, R70). -/
structure Ctl where
  s : Map Word
  p : Map Bool
  t : Map Target
  lv : Map Level
  alu : DWord
  /-- The cycle from which the divider is free (R158). -/
  divFree : Nat
  guard : Option Guard
deriving DecidableEq, Repr

/-! ### Pending writes (R73-R76) -/

/-- A byte memory that a pending write lands in: register space, scratchpad, operand file, VU and TDA latches,
FWC private SRAM. -/
inductive Space | reg | scr | ofl | lat | sram
deriving DecidableEq, Repr

/-- The atomics (R175). -/
inductive AtomOp | add | min | max | xchg | cas
deriving DecidableEq, Repr

/-- A change of the mask stack (R190). -/
inductive MaskOp
  | push (m : Nat)
  | inv
  | pop
deriving DecidableEq, Repr

/-- What lands (R73). -/
inductive Land
  | sreg (r : SReg) (v : Word)
  | pair (r : SReg) (v : DWord)
  | pred (p : PReg) (b : Bool)
  | alu (v : DWord)
  | target (t : TReg) (a : BitVec 15) (full : Nat)
  | level (k : BitVec 3) (l : Level)
  /-- Runs of bytes. -/
  | bytes (sp : Space) (runs : List (Nat × List Byte))
  /-- Runs of bytes with the bits that are written (R191). -/
  | part (sp : Space) (runs : List (Nat × List (Byte × Byte)))
  /-- An atomic: address, destination, operand, compare value; `wide` for the doubleword form. -/
  | atomic (op : AtomOp) (wide : Bool) (a : Nat) (rd : SReg) (b c : DWord)
  | mask (m : MaskOp)
  | vstat (f : BitVec 6)
  | seed (v : DWord)
  | hnd (v : Word)
  | idx (v : Word)
  /-- `.adv`: SRIDX advances (R212). -/
  | adv (v : Word)
deriving DecidableEq, Repr

/-- A pending-write record: landing cycle, dynamic position of its word (R73), engine, what lands.
`id` is the TDA command it belongs to, 0 for none. -/
structure Pend where
  due : Nat
  pos : Nat
  eng : Eng
  id : Nat
  land : Land
deriving DecidableEq, Repr

/-! ### Text engines (R42-R48) -/

/-- A ring signal awaiting completion (R46): the cycle at which its word is complete (`own`), the word's dynamic
position, the cycle at which the word and every earlier word are complete (`due`), the last TDA command it waits for,
where it goes, the payload taken when the word is complete (R68, R254). -/
structure Sig where
  own : Nat
  pos : Nat
  due : Nat
  cmd : Nat
  sp : Bool
  ss : Bool
  pay : Option Word
deriving DecidableEq, Repr

/-- The position of a text engine. `walk` counts every word passed since the launch; the walk count of R43 is its
value modulo 2^16. `fp` and `fs` are the tokens from the predecessor and from the successor, oldest first. -/
structure Pos where
  pc : Nat
  walk : Nat
  arrived : Bool
  stopped : Bool
  busy : Nat
  /-- Decisions applied since the launch (R44). -/
  applied : Nat
  /-- The cycle in which the engine first stood at the transfer word before it. -/
  seen : Option Nat
  sigs : List Sig
  /-- The cycle at which every word issued so far is complete. -/
  done : Nat
  /-- The TRAP or BRK before the engine has taken its tokens and waits for room (R183). -/
  took : Bool
  fp : List Word
  fs : List Word
deriving DecidableEq, Repr

/-- A decision-FIFO entry (R44): next address, the cycle it was made, the cycle the CTL's next word may issue (R170). -/
structure Dec where
  next : Nat
  made : Nat
  avail : Nat
deriving DecidableEq, Repr

/-- The vector unit's own state (R91, R92, R189). The top of the mask stack stands first. -/
structure Vu where
  vstat : BitVec 6
  srseed : DWord
  srhnd : Word
  sridx : Word
  masks : List Nat
deriving DecidableEq, Repr

/-! ### The time-domain array (R215-R237) -/

/-- An operand FIFO entry (R216, R245): its bytes, beats, and the cycle from which it is whole. -/
structure FifoEnt where
  bytes : List Byte
  beats : Nat
  whole : Nat
deriving DecidableEq, Repr

/-- The format of a plane slot (R217). -/
structure PlaneFmt where
  fmt : TFmt
  x : Bool
deriving DecidableEq, Repr

/-- A plane slot (R217). -/
structure Plane where
  kind : PlaneFmt
  bytes : List Byte
deriving DecidableEq, Repr

/-- A queued command's work, with the fields captured at push (R218). `base`, `pitch` place the accumulator. -/
inductive TOp
  | mac (x : Bool) (base pitch : Nat) (m n : Nat) (fmt : TFmt) (cs : Bool)
  | ldb (slot count : Nat) (x : Bool) (fmt : TFmt)
  | zero (base pitch esize : Nat) (m n : Nat) (cs : Bool)
  /-- A race: landings without their cycle, the words pushed into FQA, array occupancy. -/
  | race (lands : List Land) (push : List Word) (occ : Nat)
deriving DecidableEq, Repr

/-- A command of the TDA queue (R218). -/
structure TCmd where
  id : Nat
  head : Nat
  pos : Nat
  pushed : Nat
  op : TOp
  sem : SemF
deriving DecidableEq, Repr

/-- A started command that has not retired (R219): what retires at `retire`. A TLDB has planes still to latch. -/
structure TRun where
  cmd : TCmd
  start : Nat
  retire : Nat
  /-- Planes latched, and the cycle of the last latch (TLDB). -/
  latched : Nat
  lastLatch : Nat
  /-- Flags to set at retirement: OVF, CLMP, MMAP bits (R224, R228). Words to push into FQA (R234). -/
  push : List Word
  ovf : Bool
  clmp : Bool
  marg : BitVec 64
deriving DecidableEq, Repr

/-- What a direct word does when it completes (R229, R236, R237). -/
inductive TWork
  | flag
  | cal (row : BitVec 6)
  /-- TMARG: its row, whether a residual is out of band. -/
  | marg (row : BitVec 6) (out : Bool)
deriving DecidableEq, Repr

/-- A direct word in progress: TFLAG, TCAL or TMARG until its completion (R222). -/
structure TDirect where
  until_ : Nat
  work : TWork
  sem : SemF
deriving DecidableEq, Repr

structure Tda where
  calr : Bool
  clmp : Bool
  ovf : Bool
  mmap : BitVec 64
  mfirst : BitVec 15
  ofa : List FifoEnt
  ofb : List FifoEnt
  slots : Map (Option Plane)
  view : Map (Option PlaneFmt)
  queue : List TCmd
  runs : List TRun
  direct : Option TDirect
  nextId : Nat
  lastStart : Nat
  /-- The end of the previous array command's occupancy. -/
  occEnd : Nat
  /-- Writes of started commands, in start order, as later commands of the queue see them (R220): id, bytes with the bits that
  count; an entry stays while register space does not hold those bits. -/
  seen : List (Nat × List (Nat × List (Byte × Byte)))
  /-- Register-space landings of the cycle `justAt`: position of the word, runs of written bits (R73). -/
  just : List (Nat × List (Nat × List Byte))
  justAt : Nat
deriving DecidableEq, Repr

/-! ### The sequencer (R239) -/

/-- An address generator. -/
structure Agen where
  base : Word
  step0 : Word
  step1 : Word
  step2 : Word
  step3 : Word
deriving DecidableEq, Repr

/-- A nest level. -/
structure Nest where
  count : BitVec 16
  index : BitVec 16
  start : BitVec 12
deriving DecidableEq, Repr

/-- A feed map with its enable (R246). -/
structure FeedMap where
  en : Bool
  bytes : List Byte
deriving DecidableEq, Repr

structure Tsq where
  g : Map Word
  ag : Map Agen
  nl : Map Nest
  mapA : FeedMap
  mapB : FeedMap
  tpc : Nat
  halted : Bool
  busy : Nat
  /-- Words issued since the launch, to order SENCODE writes. -/
  count : Nat
deriving DecidableEq, Repr

/-! ### FIFOs, frames, counters -/

/-- An element of an engine FIFO (R127, R128): value, the first cycle in which it can be poppable, whether it is. -/
structure Fel where
  v : Word
  due : Nat
  ready : Bool
deriving DecidableEq, Repr

/-- A decoder-FIFO block (R250, R251). -/
structure Dblk where
  bytes : List Byte
  due : Nat
deriving DecidableEq, Repr

/-- A line record (R116): NONE is not listed. -/
inductive LineRec | none | out | into (s : Nat)
deriving DecidableEq, Repr

/-- The sources that wrote a frame in the open exchange phase (R114). -/
inductive FrameSrc | none | one (s : Nat) | many
deriving DecidableEq, Repr

/-- An arrival counter (R37, R267): whether it is set, its source, its count. -/
structure Counter where
  live : Bool
  self : Bool
  src : Nat
  count : Nat
deriving DecidableEq, Repr

/-- The exchange port's own state (R267, R269). -/
structure Xp where
  count : Nat
  sealed : Bool
  staged : Map Counter
  active : Map Counter
deriving DecidableEq, Repr

/-- A trap report (R293). -/
structure Report where
  w0 : DWord
  w1 : DWord
  w2 : DWord
  w3 : DWord
deriving DecidableEq, Repr

/-- Storage whose words carry a code (R375). The first five are the spaces of R309. `ofa`, `ofb` and `dcf` count 64-bit parts
from the oldest entry's first, `slot` from slot 0 on, 1,024 parts a slot. -/
inductive EccSpace | reg | scr | text | seq | sram | ofl | lat | ofa | ofb | dcf | slot | rom
deriving DecidableEq, Repr
/-- A word that holds an error (R310, R375): space, word, and its inverted bits. -/
structure EccMark where
  sp : EccSpace
  word : Nat
  bad : BitVec 64
deriving DecidableEq, Repr

/-- An event counter (R379). -/
structure Evc where
  en : Bool
  src : BitVec 8
  count : DWord
deriving DecidableEq, Repr

/-- Press bookkeeping of a physical tile (R361). -/
structure Press where
  rows : DWord
  last : Nat
  due : Bool
  /-- The row of the last completed TCAL. -/
  lastCal : Option (BitVec 6)
deriving DecidableEq, Repr

/-- What waiting keeps the tile held (R72). -/
inductive Hold | none | party
deriving DecidableEq, Repr

/-- The tile's memories (R21, R59, R65, R70, R78, R80). -/
structure Store where
  reg : Mem
  scr : Mem
  ofl : Mem
  lat : Mem
  text : Map Word
  textLen : Nat
  seq : Map Word
  seqLen : Nat
  ecc : List EccMark
  /-- The correctable errors that the landings of cycle `wipedAt` overwrote (R375). -/
  wiped : List EccMark
  wipedAt : Nat
deriving DecidableEq, Repr

/-- The tile's synchronisation state (R44, R49, R50, R127, R251). -/
structure Sync where
  decs : List Dec
  /-- Decisions freed since the launch: the absolute number of the oldest entry. -/
  decBase : Nat
  k : Map (BitVec 16)
  sem : Map (BitVec 16)
  semSat : Map Bool
  fqs : List Fel
  fqr : List Fel
  fqa : List Fel
  dcf : List Dblk
deriving DecidableEq, Repr

/-- Frames and lines (R113-R116). -/
structure Frames where
  tags : Map Word
  checked : Map Bool
  lines : Map LineRec
  srcs : Map FrameSrc
deriving DecidableEq, Repr

/-- Where the tile stands in its partition: the partition, the logical tile, the phase open on it. -/
structure Seat where
  part : Option Nat
  lt : Nat
  dies : Nat
  phase : Nat
  /-- Engines run: started, and not stopped by an abort (R27, R302). -/
  run : Bool
deriving DecidableEq, Repr

/-- Trap and halt state (R48, R75, R299, R300). -/
structure Stop where
  halted : Bool
  /-- The address of the HALT the CTL executed. -/
  haltAt : Option Nat
  frozen : Bool
  report : Option Report
  /-- The die cycle by which TPEND is set (R300). -/
  tpend : Bool
  /-- Word the resume continues at instead of the faulting one (R183). -/
  realign : Bool
  held : Hold
  /-- A translation of the waiting XP word has completed for the TLU (R252). -/
  xlated : Bool
  /-- The tick at which the translation in progress completes. -/
  xlatDue : Option Nat
  /-- The PROMOTE or TLU request in progress: the die's release number asked for (R122). -/
  promote : Option Nat
  /-- Cycles the array stays idle after a resume are already in the records' remaining counts (R76). -/
  wcfg : Word
  pbm : Bool
deriving DecidableEq, Repr

structure Tile where
  /-- Tile cycles counted since the launch: frozen and held cycles do not count (R71). -/
  cyc : Nat
  ctl : Ctl
  pctl : Pos
  pvu : Pos
  ptda : Pos
  pxp : Pos
  vu : Vu
  tda : Tda
  tsq : Tsq
  xp : Xp
  store : Store
  sync : Sync
  frames : Frames
  pend : List Pend
  vw : Map DWord
  seat : Seat
  stop : Stop
  trim : Map (BitVec 16)
  press : Press
  evc : Map Evc
deriving DecidableEq, Repr

/-! ### Copies (R30, R38, R252-R268) -/

inductive CopyKind | copy | gath | scat | flag (fop : BitVec 2)
deriving DecidableEq, Repr

/-- The life of a copy (R30, R38, R119, R264, R266). -/
inductive CopySt
  | armed
  | buffered
  | left
  /-- Started; its flits are held at a link (R368). -/
  | held
  | started
  | landed
deriving DecidableEq, Repr

structure Copy where
  id : Nat
  tile : Nat
  lt : Nat
  part : Nat
  eng : Nat
  head : Nat
  kind : CopyKind
  ord : Bool
  sem : SemF
  off : Int
  pay : Word
  /-- The PASID of the context that translated it, which its host requests carry (R313). -/
  pasid : BitVec 20
  /-- The record as captured (R257). -/
  rcd : List Byte
  time : Nat
  /-- The tick at which it leaves its buffer (R38). -/
  due : Nat
  /-- The tick of the exchange phase's origin and its number (R38, R268). -/
  phase : Nat
  st : CopySt
  leftAt : Nat
  landAt : Nat
  retireAt : Nat
  /-- Pages of the footprint: virtual base, size, physical base, SC, TLU entry (R319). -/
  pages : List (Nat × Nat × Nat × Bool × Nat)
  /-- Lines of the footprint, as (memory, first line, last line): read and written (R117). Memory 0 is physical memory,
  memory 1 + t the scratchpad of physical tile t. -/
  rd : List (Nat × Nat × Nat)
  wr : List (Nat × Nat × Nat)
  /-- Granules it covers (R123). -/
  gran : List Nat
  /-- Waiting for the host's translation of a page; the host has answered (R374). -/
  ats : Bool
  atsOk : Bool
  /-- One more than the tile cycle in which the XP executed it: a FENCE or HAND of that cycle does not cover it (R120,
  R123). -/
  issued : Nat
deriving DecidableEq, Repr

/-! ### Dies and firmware cores -/

/-- A TLU entry (R319). -/
structure TluEnt where
  id : Nat
  ctx : Nat
  va : Nat
  size : Nat
  pa : Nat
  sc : Bool
  r : Bool
  w : Bool
deriving DecidableEq, Repr

/-- An error-log entry (R376). -/
structure LogEnt where
  e0 : DWord
  e1 : DWord
  e2 : DWord
  e3 : DWord
deriving DecidableEq, Repr

/-- An injection slot (R309). -/
structure Inj where
  armed : Bool
  mode : BitVec 2
  trig : BitVec 2
  eng : BitVec 3
  space : BitVec 3
  tile : BitVec 6
  bit : BitVec 5
  waddr : BitVec 20
deriving DecidableEq, Repr

/-- What a blocking word of the firmware core waits for (R288, R301, R305-R309), with what it does at the end. -/
inductive Blk
  /-- TCMD RESUME or ABORT, its landing cycle (R301). -/
  | tcmd (v : DWord) (until_ : Nat)
  /-- TLBI or TLBIA: the entries whose copies it waits for (R305). -/
  | tlbi (ids : List Nat)
  | wfe
  | csave (slot : Nat) (pa : Nat) (until_ : Nat)
  | crest (slot : Nat) (pa : Nat) (until_ : Nat)
  | trimRd (rd : SReg) (idx : Nat) (until_ : Nat)
  | trimWr (v : BitVec 16) (idx : Nat) (until_ : Nat)
  | finj (desc : DWord) (slot : Nat) (until_ : Nat)
  /-- An MTSR, its register, value and landing cycle (R303). -/
  | mtsr (sr : BitVec 8) (v : DWord) (until_ : Nat)
  /-- An aperture access and the package tick it is performed at (R288, R129). -/
  | apLoad (pa : Nat) (size : Nat) (signed wide : Bool) (rd : SReg) (tick : Nat)
  | apStore (pa : Nat) (bytes : List Byte) (tick : Nat)
  | apAtomic (op : AtomOp) (wide : Bool) (pa : Nat) (rd : SReg) (b c : DWord) (tick : Nat)
deriving DecidableEq, Repr

/-- The firmware core of a die (R287-R296). -/
structure Fwc where
  cyc : Nat
  ctl : Ctl
  pc : Nat
  busy : Nat
  pend : List Pend
  ie : Bool
  pie : Bool
  exc : Bool
  epc : BitVec 15
  ecause : BitVec 8
  eval_ : DWord
  evec : BitVec 15
  imask : BitVec 8
  tsel : BitVec 6
  apbase : BitVec 44
  latch : Bool
  /-- IPEND AND IMASK was non-zero at the last look (R306). -/
  ipSeen : Bool
  /-- The patch region, from 0x3_8000 on, is held complemented: an unlisted word there is the end-of-text word (R289). -/
  sram : Mem
  ecc : List EccMark
  wiped : List EccMark
  wipedAt : Nat
  lock : Bool
  inst : Bool
  ver : BitVec 16
  patchLen : Nat
  patchDigest : BitVec 384
  blk : Option Blk
  /-- The head address of the blocking word, and of its GUARD. -/
  blkAt : Nat
deriving DecidableEq, Repr

/-- A queue that a die's front end runs (R330, R333-R335): where its QCB lies, the tick at which the packet in progress
started and its bytes, the timer whose buffer stands at depth 1, the slot boundaries whose visit of its timers a link holds
(R368). -/
structure QRun where
  q : QueueId
  qcb : Nat
  wait : Option Nat
  pkt : List Byte
  owner : Option Nat
  slots : List Nat
deriving DecidableEq, Repr

/-- A link service in progress (R395): its link, W32 and HALF of its plan, the step it stands at, the tick of that step. -/
structure Svc where
  link : Nat
  w32 : Bool
  half : Bool
  step : Nat
  at_ : Nat
deriving DecidableEq, Repr

/-- The firmware front end of a die (R331-R344). -/
structure Fe where
  runs : List QRun
  /-- The lease value the die last wrote, and whether it acts as leader (R342). -/
  lease : Option DWord
  acting : Bool
  nextRenew : Nat
  /-- Queues that other dies hand over through SEV, and whether to look at every queue (R328, R343). -/
  serve : List QueueId
  rescan : Bool
  /-- The ROM's link service (R395). -/
  svc : Option Svc
  /-- The mailbox entry of an INVAL that waits, with the entries it removed (R305, R344). -/
  inval : Option (Nat × List Nat)
  /-- A scan of the mailbox that waits for a link (R344, R368). -/
  scan : Bool
deriving DecidableEq, Repr

structure Die where
  cyc : Nat
  /-- Ticks left until the next tile cycle of the divided clock (R363). -/
  phaseLeft : Nat
  div : BitVec 2
  cur : BitVec 2
  divAt : Option Nat
  drain : Bool
  /-- Releases numbered, watermark, and the releases above it with the copies each still covers (R121). -/
  rel : Nat
  wm : Nat
  rels : List (Nat × List Nat)
  tlu : List TluEnt
  log : Map LogEnt
  /-- Entries of the present package tick, each with its place in R376's order, as they arose. -/
  logNow : List (Nat × LogEnt)
  logWr : Nat
  logRd : Nat
  lost : Nat
  evc : Map Evc
  evsel : BitVec 5
  /-- EVCNT writes of this tile cycle: the tile of a tile counter, the counter, the count (R379). -/
  evcSet : List (Option Nat × Nat × DWord)
  /-- The die counters written in this package tick, with their counts (R379). -/
  evcKept : List (Nat × DWord)
  inj : Map Inj
  fired : BitVec 4
  dbq : List (BitVec 20 × BitVec 8)
  ovf : Bool
  calint : Word
  /-- First presses of the die's tiles, newest first, each by the number of its free values; the tick at which one that runs
  completes (R359-R361). -/
  presses : List Nat
  pressAt : Option Nat
  dpsel : BitVec 7
  lsel : BitVec 16
  wdcmp : DWord
  twnext : DWord
  fwc : Fwc
  fe : Fe
  /-- SEV arrivals: the ticks at which the latch is set (R306). -/
  sevs : List Nat
deriving DecidableEq, Repr

/-! ### Partitions, contexts, links -/

/-- The states of a partition's phase controller (R35, R346). -/
inductive PState | idle | armed | open_ | extended | held | boundary | saving | done | aborted
deriving DecidableEq, Repr

/-- Facts of the image that the run needs (R25, R156): phase table, frame table, digest. -/
structure Image where
  dies : Nat
  /-- FIRST, DEADLINE, CLASS. -/
  phases : List (Nat × Nat × Nat)
  /-- PHASE, FRAME, TAG. -/
  frames : List (Nat × Nat × Word)
  digest : BitVec 384
deriving DecidableEq, Repr

/-- The TIMETABLE packet a partition runs (R332, R333, R338). -/
structure Launch where
  pasid : BitVec 20
  queue : BitVec 8
  head : Nat
  save : Nat
  status : Nat
  /-- STATUS is still to be written. -/
  owed : Bool
  /-- The packet's commit is still to come: the record of R333. -/
  fresh : Bool
deriving DecidableEq, Repr

structure Part where
  v : Bool
  ctx : BitVec 8
  slim : BitVec 24
  dies : BitVec 8
  rgn : BitVec 23
  nleaf : BitVec 13
  rcd : BitVec 23
  /-- The straggler limit in force (R322). -/
  slimNow : Nat
  st : PState
  heldFrom : PState
  heldAt : Nat
  phase : Nat
  origin : Nat
  /-- The tick S, or the next origin O; none while a reconfiguration holds it (R27, R34, R369). -/
  next : Option Nat
  /-- The tick at which the controller entered BOUNDARY, and the tick of the last transition. -/
  since : Nat
  deadline : Nat
  /-- Dies that have still to open the phase. -/
  opening : List Nat
  straggling : List Nat
  extStart : Nat
  /-- The PREEMPT requests pending: the mailbox entries that wait (R345). -/
  preempt : List Nat
  /-- Logical dies in order, as bound (R26). -/
  bind : List Nat
  img : Image
  launch : Launch
  commit : Nat
  /-- The cause of an ABORTED that no tile reports: a launch slip, a failed save (R28, R346). -/
  cause : Option (BitVec 8)
  /-- Slots as they stood when the phase opened, where the WRITER has changed them (R257). -/
  recOld : Map (List Byte)
  /-- Tiles still to be saved, as logical tiles, and the tick at which the die's present save ends (R346). -/
  saveLeft : List (Nat × Nat)
  /-- Lb at the completion of a compute phase whose successor a reconfiguration holds (R356, R369). -/
  lead : Nat
deriving DecidableEq, Repr

structure Ctx where
  v : Bool
  pasid : BitVec 20
  root : BitVec 28
deriving DecidableEq, Repr

inductive LState | down | training | active | draining | paused | failed
deriving DecidableEq, Repr

structure Link where
  st : LState
  half : Bool
  w32 : Bool
  s16 : Bool
  chalf : Bool
  cw32 : Bool
  cs16 : Bool
  /-- MAP and SFAIL by direction * 8 + module. -/
  map : Map Word
  sfail : Map (BitVec 4)
  /-- By direction * 8 + module. -/
  lfail : Map DWord
  /-- By (direction * 8 + module) * 68 + lane. -/
  lerr : Map (BitVec 16)
  retry0 : Word
  retry1 : Word
  thrRetry : Word
  thrLane : BitVec 16
  levt : BitVec 5
  en : BitVec 5
  /-- HALF, W32 and S16 as applied to the training (R368). -/
  thalf : Bool
  tw32 : Bool
  ts16 : Bool
  attempts : Nat
  attemptEnd : Nat
  mapOnly : Bool
  /-- The tick from which every flit sent before is acknowledged, once the link drains (R366, R368). -/
  ackAt : Option Nat
  /-- The training follows a REQ, which holds exchange phases (R369). -/
  req : Bool
  /-- Consecutive replays of the flit at the head, by direction (R366). -/
  replays0 : Nat
  replays1 : Nat
  portEn : Bool
  portIn : Bool
  rbase : BitVec 5
deriving DecidableEq, Repr

/-- An access that arrives from outside and waits for a link of its route (R368): the port or BAR2, direction, address or offset,
data. -/
structure Inbound where
  port : Option Nat
  wr : Bool
  addr : Nat
  data : List Byte
deriving DecidableEq, Repr

/-- A STATUS word whose store a link holds (R338, R368): the die that writes it, the queue's PASID and number, the virtual address,
the phase, the word. -/
structure Status where
  die : Nat
  pasid : BitVec 20
  queue : BitVec 8
  va : Nat
  phase : Nat
  word : DWord
deriving DecidableEq, Repr

/-- Package-wide registers and outputs. -/
structure Pkg where
  ctxsel : BitVec 8
  psel : BitVec 3
  qtbase : BitVec 21
  qen : Bool
  /-- The tick and die of the last write of a partition's configuration (R322). -/
  cfgAt : Option (Nat × Nat)
  leasepa : BitVec 41
  mbxpa : BitVec 32
  pwrcap : BitVec 8
  dreset : BitVec 8
  syncWin : BitVec 16
  syncExp : BitVec 6
  syncLoad : Bool
  syncMode : BitVec 2
  syncLock : Bool
  syncErr : Bool
  syncDev : Word
  syncld : DWord
  /-- The tick after which the load acts (R358). -/
  loadNow : Bool
  tsyncOut : Bool
  slewLeft : Nat
  slewUp : Bool
  overlay : Map Word
  /-- The overlay in force in this tick: the one written before it (R356). -/
  overlayNow : Map Word
  ats : List (BitVec 20 × Nat)
  msixOn : Bool
  msix : List (BitVec 12)
  down : List Nat
  /-- Inbound port accesses and BAR2 reads answered: the bytes returned (outputs). -/
  answers : List (List Byte)
  /-- The step of bring-up the package is in (R387); 0 at power-on, 10 when it is ready, 11 when it failed. -/
  boot : Nat
  /-- Package time one tick before: what a skipped count passed over (R357). -/
  prev : Nat
  /-- The size of BAR2 is 2^bar2 bytes (R373). -/
  bar2 : Nat
  /-- Invalidations of cached translations, and accesses from outside, that wait (R374, R368). -/
  invals : List (BitVec 20 × Nat)
  inbound : List Inbound
  /-- Mailbox answers that the leader has still to write: entry, RES (R344). -/
  replies : List (Nat × Nat)
  /-- STATUS words whose store waits (R338, R368). -/
  owed : List Status
  /-- Frozen tiles as CSAVE found them, each with the number of its unlaid bytes: what a context with FRZ holds beyond the
  bytes the manual lays out (R349). -/
  saves : List (Nat × Tile)
deriving DecidableEq, Repr

/-- A turn of the agenda: what happens next in the current package tick (log 1). -/
inductive Turn
  /-- An outside event. -/
  | ev (i : Instr)
  /-- Package time, links, calibration, firmware duties, partitions and copies, before the dies' cycles. -/
  | open_
  /-- The firmware of a die takes its part of the tick, before the die's own cycles in it. -/
  | firm (d : Nat)
  /-- A die's tile cycle begins. -/
  | die (d : Nat)
  /-- Decide which engines of a tile issue in this tile cycle. -/
  | plan (t : Nat)
  /-- An agent's next word. -/
  | issue (a : Agent)
  /-- A tile's cycle ends. -/
  | close (t : Nat)
  /-- A die's tile cycle ends. -/
  | done_ (d : Nat)
  /-- The package tick ends: what the phase controllers see. -/
  | endTick
deriving DecidableEq, Repr

structure State where
  /-- Package time (R353) and package ticks since power-on (R357). -/
  time : Nat
  ticks : Nat
  tiles : Map Tile
  dies : Map Die
  parts : Map Part
  ctxs : Map Ctx
  links : Map Link
  copies : List Copy
  nextId : Nat
  mem : Mem
  /-- HBM codewords that hold an error, by address / 32, and whether each is uncorrectable (R375). -/
  hbm : List (Nat × Bool)
  pkg : Pkg
  /-- The counter of free values (log 5). -/
  free : Nat
  cur : Agent
  agenda : List Turn
  /-- Outside events still to come, each with its tick (log 1). -/
  inputs : List (Nat × Instr)
deriving DecidableEq, Repr

/-! ### The machine right after reset

Bring-up has not run yet (R387): it is the first outside event. A value the manual states is the manual's (INVENTORY.md);
every other is the value of R55 at a launch, or zero (log 3). -/

namespace State

def target0 : Target := ⟨0, false, .empty⟩
def level0 : Level := ⟨0, 0, 0, false⟩
def ctl0 : Ctl := ⟨[], [], [], [], 0, 0, none⟩
def pos0 : Pos := ⟨0, 0, false, false, 0, 0, none, [], 0, false, [], []⟩
def agen0 : Agen := ⟨0, 0, 0, 0, 0⟩
def nest0 : Nest := ⟨0, 0, 0⟩
def counter0 : Counter := ⟨false, false, 0, 0⟩
def evc0 : Evc := ⟨false, 0, 0⟩
def vu0 : Vu := ⟨0, 0, 0, 0, []⟩
def tda0 : Tda :=
  { calr := false, clmp := false, ovf := false, mmap := 0, mfirst := 0, ofa := [], ofb := [], slots := [], view := [],
    queue := [], runs := [], direct := none, nextId := 1, lastStart := 0, occEnd := 0, seen := [], just := [], justAt := 0 }
def tsq0 : Tsq :=
  { g := [], ag := [], nl := [], mapA := ⟨false, []⟩, mapB := ⟨false, []⟩, tpc := 0, halted := false, busy := 0,
    count := 0 }
def xp0 : Xp := ⟨0, false, [], []⟩
def store0 : Store := ⟨[], [], [], [], [], 0, [], 0, [], [], 0⟩
def sync0 : Sync := ⟨[], 0, [], [], [], [], [], [], []⟩
def frames0 : Frames := ⟨[], [], [], []⟩
def seat0 : Seat := ⟨none, 0, 0, 0, false⟩
/-- WCFG resets to SLIP 31, DDEPTH 31 (R43). -/
def stop0 : Stop :=
  { halted := false, haltAt := none, frozen := false, report := none, tpend := false, realign := false, held := .none,
    xlated := false, xlatDue := none, promote := none, wcfg := 0xF81F, pbm := false }
def press0 : Press := ⟨0, 0, false, none⟩
def tile0 : Tile :=
  { cyc := 0, ctl := ctl0, pctl := pos0, pvu := pos0, ptda := pos0, pxp := pos0, vu := vu0, tda := tda0, tsq := tsq0,
    xp := xp0, store := store0, sync := sync0, frames := frames0, pend := [], vw := [], seat := seat0, stop := stop0,
    trim := [], press := press0, evc := [] }
def inj0 : Inj := ⟨false, 0, 0, 0, 0, 0, 0, 0⟩
def log0 : LogEnt := ⟨0, 0, 0, 0⟩
def fwc0 : Fwc :=
  { cyc := 0, ctl := ctl0, pc := 0, busy := 0, pend := [], ie := false, pie := false, exc := false, epc := 0,
    ecause := 0, eval_ := 0, evec := 0, imask := 0, tsel := 0, apbase := 0, latch := false, ipSeen := false, sram := [],
    ecc := [], wiped := [], wipedAt := 0, lock := false, inst := false, ver := 0, patchLen := 0, patchDigest := 0, blk := none, blkAt := 0 }
def fe0 : Fe := ⟨[], none, false, 0, [], false, none, none, false⟩
/-- CALCFG.INT resets to 0x0100_0000 (R362). -/
def die0 : Die :=
  { cyc := 0, phaseLeft := 0, div := 0, cur := 0, divAt := none, drain := false, rel := 0, wm := 0, rels := [],
    tlu := [], log := [], logNow := [], logWr := 0, logRd := 0, lost := 0, evc := [], evsel := 0, evcSet := [], evcKept := [], inj := [], fired := 0, dbq := [],
    ovf := false, calint := 0x01000000, presses := [], pressAt := none, dpsel := 0, lsel := 0, wdcmp := 0, twnext := 0, fwc := fwc0, fe := fe0,
    sevs := [] }
def image0 : Image := ⟨0, [], [], 0⟩
def launch0 : Launch := ⟨0, 0, 0, 0, 0, false, false⟩
def part0 : Part :=
  { v := false, ctx := 0, slim := 0, dies := 0, rgn := 0, nleaf := 0, rcd := 0, slimNow := 0, st := .idle,
    heldFrom := .open_, heldAt := 0, phase := 0, origin := 0, next := none, since := 0, deadline := 0, opening := [],
    straggling := [], extStart := 0, preempt := [], bind := [], img := image0, launch := launch0, commit := 0,
    cause := none, recOld := [], saveLeft := [], lead := 0 }
def ctx0 : Ctx := ⟨false, 0, 0⟩
/-- LTHR resets to 4,096 and 256, the state to DOWN (R367). -/
def link0 : Link :=
  { st := .down, half := false, w32 := false, s16 := false, chalf := false, cw32 := false, cs16 := false, map := [],
    sfail := [], lfail := [], lerr := [], retry0 := 0, retry1 := 0, thrRetry := 4096, thrLane := 256, levt := 0, en := 0,
    thalf := false, tw32 := false, ts16 := false, attempts := 0, attemptEnd := 0, mapOnly := false, ackAt := none, req := false, replays0 := 0, replays1 := 0, portEn := false,
    portIn := false, rbase := 0 }
/-- PWRCAP resets to 112 (R364), SYNCCFG to WIN 64 and PEXP 20 (R357). -/
def pkg0 : Pkg :=
  { ctxsel := 0, psel := 0, qtbase := 0, qen := false, cfgAt := none, leasepa := 0, mbxpa := 0, pwrcap := 112, dreset := 0,
    syncWin := 64, syncExp := 20, syncLoad := false, syncMode := 0, syncLock := false, syncErr := false, syncDev := 0,
    syncld := 0, loadNow := false, tsyncOut := false, slewLeft := 0, slewUp := false, overlay := [], overlayNow := [], ats := [],
    msixOn := false, msix := [], down := [], answers := [], boot := 0, prev := 0, bar2 := 40, invals := [], inbound := [], replies := [], owed := [], saves := [] }

def reset : State :=
  { time := 0, ticks := 0, tiles := [], dies := [], parts := [], ctxs := [], links := [], copies := [], nextId := 1,
    mem := [], hbm := [], pkg := pkg0, free := 0, cur := .pkg, agenda := [], inputs := [(0, .bringUp)] }

end State

/-! ### Stops -/

/-- Why the machine stops with a fault. The LQ8 reports its own faults as traps and exceptions, which are next states. -/
inductive Fault
  /-- Raised by a meaning whose word the acting agent never executes: a text word of another engine, a sequencer word
  outside the TSQ, a system word outside the firmware core. Safe: no scheduled turn leads there. -/
  | wrongAgent
deriving DecidableEq, Repr

/-- Why an instruction has no meaning. -/
inductive Refusal
  /-- Raised by an arm of `exec` that has no meaning yet. Safe. -/
  | notModelled (mnemonic : String)
deriving DecidableEq, Repr

abbrev Out := Host.Outcome State Fault Refusal

end Sys2Proof.Machine
end

