-- ==== Sys2Proof/Machine/Bits.lean ====
section
/-! DEFINITION. Sparse maps, bytes and words: the helpers every other definition reads and writes with (R4, R5, R9). -/

namespace Sys2Proof.Machine

/-! ### Maps -/

/-- The value at a key; `d` where the key is not listed. -/
def Map.get {α : Type} (m : Map α) (d : α) (k : Nat) : α :=
  match m with
  | [] => d
  | (j, v) :: r => if j = k then v else Map.get r d k

/-- Write a key, keeping the canonical form: an entry equal to the default is not listed. -/
def Map.set {α : Type} [DecidableEq α] (m : Map α) (d : α) (k : Nat) (v : α) : Map α :=
  m.filter (fun e => decide (e.1 < k)) ++ (if v = d then [] else [(k, v)]) ++ m.filter (fun e => decide (k < e.1))

/-- Write a key that stays listed. -/
def Map.put {α : Type} (m : Map α) (k : Nat) (v : α) : Map α :=
  m.filter (fun e => decide (e.1 < k)) ++ [(k, v)] ++ m.filter (fun e => decide (k < e.1))

/-- Keys rise strictly from `lo`, and no entry equals the default. -/
def Map.wfFrom {α : Type} [DecidableEq α] (d : α) : Nat → Map α → Bool
  | _, [] => true
  | lo, (k, v) :: r => decide (lo ≤ k) && decide (v ≠ d) && Map.wfFrom d (k + 1) r

/-- The canonical form of a memory: addresses rise strictly, no listed byte is zero. -/
def Memory.wf (m : Mem) : Bool := Map.wfFrom (0#8) 0 m

/-! ### Bytes -/

/-- The `n` bytes of a value, little-endian (R5). -/
def leBytes (n v : Nat) : List Byte := (List.range n).map fun i => BitVec.ofNat 8 (v / 2 ^ (8 * i))

/-- The value of bytes, little-endian (R5). -/
def ofLe : List Byte → Nat
  | [] => 0
  | b :: r => b.toNat + 256 * ofLe r

/-- The value of bytes, big-endian. -/
def ofBe (bs : List Byte) : Nat := ofLe bs.reverse

/-- Cells for bytes at rising addresses; zero bytes are not listed. -/
def cells : Nat → List Byte → Mem
  | _, [] => []
  | a, b :: r => if b = 0#8 then cells (a + 1) r else (a, b) :: cells (a + 1) r

/-- The byte at an address. -/
def Mem.get1 (m : Mem) (a : Nat) : Byte := Map.get m 0#8 a

/-- Write bytes at rising addresses. -/
def Mem.write (m : Mem) (a : Nat) (bs : List Byte) : Mem :=
  m.filter (fun e => decide (e.1 < a)) ++ cells a bs ++ m.filter (fun e => decide (a + bs.length ≤ e.1))

/-- Read `n` bytes. -/
def Mem.read (m : Mem) (a n : Nat) : List Byte :=
  let w : Mem := m.filter fun e => decide (a ≤ e.1) && decide (e.1 < a + n)
  (List.range n).map fun i => Map.get w 0#8 (a + i)

/-- Read `n` bytes as a little-endian number. -/
def Mem.num (m : Mem) (a n : Nat) : Nat := ofLe (Mem.read m a n)

/-- Write several runs, first run first. -/
def Mem.writeRuns (m : Mem) (rs : List (Nat × List Byte)) : Mem := rs.foldl (fun m r => Mem.write m r.1 r.2) m

/-- Whether a run of bytes touches `n` bytes from `a`. -/
def overlaps (a n b m : Nat) : Bool := decide (a < b + m) && decide (b < a + n) && decide (0 < n) && decide (0 < m)

/-! ### Numbers -/

/-- Bits `hi:lo` of a number (R4). -/
def bits (v hi lo : Nat) : Nat := v / 2 ^ lo % 2 ^ (hi + 1 - lo)

/-- Bit `i` of a number. -/
def bit (v i : Nat) : Bool := v / 2 ^ i % 2 == 1

/-- sext(x, n): the signed value of the low `n` bits (R9, R83). -/
def sext (v n : Nat) : Int := let x := v % 2 ^ n; if 2 ^ (n - 1) ≤ x then (x : Int) - 2 ^ n else x

/-- A pattern of `n` bits of an integer. -/
def toBitsN (n : Nat) (v : Int) : Nat := (v % (2 ^ n : Int)).toNat

/-- Words of 32 bits as an integer modulo 2^32. -/
def wordOf (v : Int) : Word := BitVec.ofInt 32 v

/-- Ceiling division. -/
def ceilDiv (a b : Nat) : Nat := (a + b - 1) / b

/-- Insert in rising order of a key, after equal keys. -/
def insertBy {α : Type} (key : α → Nat) (x : α) : List α → List α
  | [] => [x]
  | y :: r => if key x < key y then x :: y :: r else y :: insertBy key x r

/-- Stable insertion sort by a key. -/
def sortBy {α : Type} (key : α → Nat) (l : List α) : List α := l.foldl (fun acc x => insertBy key x acc) []

/-- The largest of numbers, from a floor. -/
def maxOf (lo : Nat) (l : List Nat) : Nat := l.foldl max lo

/-- The distinct elements, first occurrences in order. -/
def distinct {α : Type} [DecidableEq α] (l : List α) : List α :=
  (l.foldl (fun acc x => if acc.contains x then acc else x :: acc) []).reverse

/-- Replace the element at an index. -/
def replaceAt {α : Type} (l : List α) (i : Nat) (x : α) : List α := l.take i ++
  (if i < l.length then [x] else []) ++ l.drop (i + 1)

end Sys2Proof.Machine
end

