-- ==== Sys2Proof/Machine/Ops.lean ====
section
/-! DEFINITION. The named operations every meaning is made of: parts of the state, registers, memories, landings, the
error log, traps of a tile, exceptions of a firmware core and the return from one, and the issue of a text word. -/

namespace Sys2Proof.Machine

/-! ### Parts of the state -/

/-- The logical die of a physical tile, and its slot there (R20). -/
def dieOf (t : Nat) : Nat := t / 64
def slotOf (t : Nat) : Nat := t % 64

namespace State

def tile (s : State) (t : Nat) : Tile := s.tiles.get tile0 t
def setTile (s : State) (t : Nat) (x : Tile) : State := { s with tiles := s.tiles.put t x }
def modTile (s : State) (t : Nat) (f : Tile → Tile) : State := s.setTile t (f (s.tile t))
def die (s : State) (d : Nat) : Die := s.dies.get die0 d
def setDie (s : State) (d : Nat) (x : Die) : State := { s with dies := s.dies.put d x }
def modDie (s : State) (d : Nat) (f : Die → Die) : State := s.setDie d (f (s.die d))
def fwc (s : State) (d : Nat) : Fwc := (s.die d).fwc
def modFwc (s : State) (d : Nat) (f : Fwc → Fwc) : State := s.modDie d fun x => { x with fwc := f x.fwc }
def part (s : State) (p : Nat) : Part := s.parts.get part0 p
def setPart (s : State) (p : Nat) (x : Part) : State := { s with parts := s.parts.put p x }
def modPart (s : State) (p : Nat) (f : Part → Part) : State := s.setPart p (f (s.part p))
def ctx (s : State) (k : Nat) : Ctx := s.ctxs.get ctx0 k
def link (s : State) (k : Nat) : Link := s.links.get link0 k
def modLink (s : State) (k : Nat) (f : Link → Link) : State := { s with links := s.links.put k (f (s.link k)) }
/-- The next free value's number (log 5). -/
def draw (s : State) : State := { s with free := s.free + 1 }
/-- Put turns at the front of the agenda. -/
def first (s : State) (ts : List Turn) : State := { s with agenda := ts ++ s.agenda }

end State

namespace Tile

def pos (x : Tile) : Eng → Pos
  | .ctl => x.pctl
  | .vu => x.pvu
  | .tda => x.ptda
  | .xp => x.pxp
  | .tsq => State.pos0

def setPos (x : Tile) (e : Eng) (p : Pos) : Tile :=
  match e with
  | .ctl => { x with pctl := p }
  | .vu => { x with pvu := p }
  | .tda => { x with ptda := p }
  | .xp => { x with pxp := p }
  | .tsq => x

end Tile

/-- Sizes of the tile's byte memories (R21, R65, R70, R288). -/
def Space.size : Space → Nat
  | .reg => 0x80000
  | .scr => 0x100000
  | .ofl => 0x8000
  | .lat => 0x6000
  | .sram => 0x40000

namespace Store

def get (m : Store) : Space → Mem
  | .reg => m.reg
  | .scr => m.scr
  | .ofl => m.ofl
  | .lat => m.lat
  | .sram => []

def set (m : Store) (sp : Space) (x : Mem) : Store :=
  match sp with
  | .reg => { m with reg := x }
  | .scr => { m with scr := x }
  | .ofl => { m with ofl := x }
  | .lat => { m with lat := x }
  | .sram => m

end Store

/-! ### The CTL's registers (R53, R54, R70) -/

namespace Ctl

/-- s0 reads as zero (R53). -/
def rS (c : Ctl) (r : SReg) : Word := if r = 0#6 then 0#32 else c.s.get 0#32 r.toNat
/-- The pair named s0 reads as zero (R54). -/
def rD (c : Ctl) (r : SReg) : DWord :=
  if r = 0#6 then 0#64 else c.s.get 0#32 (r.toNat + 1) ++ c.s.get 0#32 r.toNat
/-- p0 reads as true (R53). -/
def rP (c : Ctl) (p : PReg) : Bool := if p = 0#6 then true else c.p.get false p.toNat
def rT (c : Ctl) (t : TReg) : Target := c.t.get State.target0 t.toNat
def rL (c : Ctl) (k : BitVec 3) : Level := c.lv.get State.level0 k.toNat

/-- A write to s0 is discarded (R53). -/
def wS (c : Ctl) (r : SReg) (v : Word) : Ctl :=
  if r = 0#6 then c else { c with s := c.s.set 0#32 r.toNat v }
/-- A 64-bit write to s0 is discarded whole (R54). -/
def wD (c : Ctl) (r : SReg) (v : DWord) : Ctl :=
  if r = 0#6 then c
  else { c with s := (c.s.set 0#32 r.toNat (v.extractLsb' 0 32)).set 0#32 (r.toNat + 1) (v.extractLsb' 32 32) }
def wP (c : Ctl) (p : PReg) (b : Bool) : Ctl := if p = 0#6 then c else { c with p := c.p.set false p.toNat b }
def wT (c : Ctl) (t : TReg) (x : Target) : Ctl := { c with t := c.t.put t.toNat x }
def wL (c : Ctl) (k : BitVec 3) (x : Level) : Ctl := { c with lv := c.lv.put k.toNat x }

/-- A register landing (R73); the other landings do not touch the CTL. -/
def land (c : Ctl) : Land → Ctl
  | .sreg r v => c.wS r v
  | .pair r v => c.wD r v
  | .pred p b => c.wP p b
  | .alu v => { c with alu := v }
  | .target t a full => c.wT t ⟨a, true, .filling full⟩
  | .level k l => c.wL k l
  | _ => c

end Ctl

/-- A 32-bit result lands in a register and, zero-extended, in l.alu (R70, R157). -/
def putS (lat : Nat) (r : SReg) (v : Word) : List (Nat × Land) := [(lat, .sreg r v), (lat, .alu (v.setWidth 64))]
/-- A 64-bit result lands in a pair and whole in l.alu. -/
def putD (lat : Nat) (r : SReg) (v : DWord) : List (Nat × Land) := [(lat, .pair r v), (lat, .alu v)]
/-- A predicate lands, and 1 or 0 in l.alu. -/
def putP (lat : Nat) (p : PReg) (b : Bool) : List (Nat × Land) := [(lat, .pred p b), (lat, .alu (if b then 1 else 0))]

/-! ### Event counters and the error log (R376-R380) -/

/-- Add to every enabled counter of a source. -/
def bumpAll (m : Map Evc) (src : BitVec 8) (n : Nat) : Map Evc :=
  m.map fun e => (e.1, if e.2.en && e.2.src == src then { e.2 with count := e.2.count + BitVec.ofNat 64 n } else e.2)

def Tile.bump (x : Tile) (src : BitVec 8) (n : Nat) : Tile := { x with evc := bumpAll x.evc src n }

/-- An entry's place among those of its tick: tile slots, copy engines, links, the firmware core (R376). -/
def logRank (code : BitVec 8) (eng : BitVec 3) (slot unit : Nat) : Nat :=
  match eng with
  | 5 => 64 + unit
  | 6 => if code = 0x25 then 76 else 77
  | _ => slot

/-- One entry enters the log, unless 256 are unread; that of a corrected error counts (R376, R380). -/
def Die.writeEntry (x : Die) (e : LogEnt) : Die :=
  if 256 ≤ (x.logWr + 512 - x.logRd) % 512 then { x with lost := min 65535 (x.lost + 1) }
  else { x with
    log := x.log.put (x.logWr % 256) e, logWr := (x.logWr + 1) % 512
    evc := if e.e0.ushiftRight 56 == 0x20#64 then bumpAll x.evc 0x22 1 else x.evc }

/-- A tick's entries enter the log at its end, so that a read within the tick returns the old WR (R376). -/
def Die.writeLog (x : Die) : Die :=
  (sortBy Prod.fst x.logNow).foldl (fun y e => y.writeEntry e.2) { x with logNow := [] }

namespace State

def bumpDie (s : State) (d : Nat) (src : BitVec 8) (n : Nat) : State :=
  s.modDie d fun x => { x with evc := bumpAll x.evc src n }

/-- An entry for the error log of a die; callers give the phase (R376). -/
def log (s : State) (d : Nat) (code : BitVec 8) (cls : BitVec 2) (eng : BitVec 3) (slot unit addr phase : Nat)
    (loc : DWord) : State :=
  s.modDie d fun x =>
    let e0 : DWord := code ++ cls ++ eng ++ BitVec.ofNat 6 slot ++ BitVec.ofNat 4 unit ++ 0#26 ++ BitVec.ofNat 15 addr
    { x with logNow := x.logNow ++
        [(logRank code eng slot unit, ⟨e0, BitVec.ofNat 64 s.time, BitVec.ofNat 64 phase, loc⟩)] }

end State

/-- ENG of a report (R293). -/
def Eng.code : Eng → BitVec 3
  | .ctl => 0
  | .vu => 1
  | .tda => 2
  | .xp => 3
  | .tsq => 4

/-! ### Cause codes (R297) -/

namespace Cause
def illegal : BitVec 8 := 0x01
def phaseIllegal : BitVec 8 := 0x02
def unprepared : BitVec 8 := 0x03
def overrun : BitVec 8 := 0x04
def software : BitVec 8 := 0x05
def breakpoint : BitVec 8 := 0x06
def shape : BitVec 8 := 0x07
def maskStack : BitVec 8 := 0x08
def deadlock : BitVec 8 := 0x09
def debugRead : BitVec 8 := 0x0A
def margin : BitVec 8 := 0x0B
def stale : BitVec 8 := 0x0C
def ownership : BitVec 8 := 0x0D
def translation : BitVec 8 := 0x0E
def schedule : BitVec 8 := 0x0F
def decodeRate : BitVec 8 := 0x10
def unavailable : BitVec 8 := 0x11
def ecc : BitVec 8 := 0x12
def straggler : BitVec 8 := 0x13
def slip : BitVec 8 := 0x14
def launchSlip : BitVec 8 := 0x15
def indirectDepth : BitVec 8 := 0x16
def load : BitVec 8 := 0x17
def refused : BitVec 8 := 0x18
def watchdog : BitVec 8 := 0x19
def interrupt : BitVec 8 := 0x1F
end Cause

/-- RSM of a tile fault (R297, R318). -/
def resumable (cause : BitVec 8) (aux : DWord) : Bool :=
  cause == Cause.software || cause == Cause.breakpoint || cause == Cause.debugRead || cause == Cause.margin
    || (cause == Cause.translation && aux.extractLsb' 52 12 == 0#12)

/-! ### The firmware core's private SRAM (R288, R289) -/

/-- Private SRAM holds the patch region complemented: a word there that nothing has written is the end-of-text word (R289). -/
def sramBytes (a : Nat) (bs : List Byte) : List Byte := if 0x38000 ≤ a then bs.map (~~~ ·) else bs

namespace Fwc

/-- Bytes of private SRAM, within one region (R288). -/
def read (f : Fwc) (a n : Nat) : List Byte := sramBytes a (f.sram.read a n)
def write (f : Fwc) (a : Nat) (bs : List Byte) : Fwc := { f with sram := f.sram.write a (sramBytes a bs) }
/-- The patch region empty: every word is the end-of-text word (R289, R382). -/
def emptied (f : Fwc) : Fwc :=
  { f with sram := f.sram.filter fun e => decide (e.1 < 0x38000), ecc := f.ecc.filter fun m => decide (m.word < 0xE000) || m.sp != .sram }
/-- The end of the code in the patch region: the installed patch's declared length, else the region's end (R289). -/
def codeEnd (f : Fwc) : Nat := if f.inst then 24576 + f.patchLen else 32768

end Fwc

/-! ### Taking a trap on a tile (R75, R293, R298-R300) -/

/-- What a trap reports. -/
structure TrapInfo where
  cause : BitVec 8
  aux : DWord
  eng : BitVec 3
  addr : Nat
  addr2 : BitVec 15
  code : BitVec 8
  async : Bool
deriving DecidableEq, Repr

/-- TRPT0 (R293). ADDR has 15 bits: an overrun at position 32,768, past the last text word, reads 0 there, which the manual does not
give (R79; log 64). -/
def TrapInfo.word0 (i : TrapInfo) : DWord :=
  i.cause ++ 0#8 ++ i.addr2 ++ BitVec.ofBool i.async ++ i.code ++ (if i.async then 7#3 else i.eng)
    ++ BitVec.ofBool (resumable i.cause i.aux && !i.async) ++ 0#5 ++ (if i.async then 0#15 else BitVec.ofNat 15 i.addr)

namespace State

/-- A freeze takes an OPEN or EXTENDED partition to HELD and stops its clocks; in a tick in which the controller has taken
a transition, the next tick does (R35, R300). -/
def holdPart (s : State) (p : Nat) : State :=
  s.modPart p fun q =>
    if q.since = s.ticks then q
    else match q.st with
    | .open_ | .extended => { q with st := .held, heldFrom := q.st, heldAt := s.time, since := s.ticks }
    | _ => q

/-- RSM of a tile's report becomes 0. -/
def noResume (s : State) (t : Nat) : State :=
  s.modTile t fun x => { x with stop := { x.stop with
    report := x.stop.report.map fun r => { r with w0 := r.w0 &&& ~~~(0x100000#64) } } }

/-- The freeze of a tile: report, TPEND, one log entry, HELD. A tile already frozen keeps its report; an asynchronous
fault then forces RSM to 0 (R298). `loc` is the entry's LOC (R377). -/
def freezeAt (s : State) (t : Nat) (i : TrapInfo) (unit : Nat) (loc : DWord) : State :=
  let x := s.tile t
  let s := s.log (dieOf t) i.cause 1 i.eng (slotOf t) unit (if i.async then i.addr2.toNat else i.addr) x.seat.phase loc
  if x.stop.frozen then (if i.async then s.noResume t else s)
  else
    let s := s.modTile t fun x => { x with stop := { x.stop with
      frozen := true, held := .none, xlated := false, xlatDue := none, promote := none, tpend := true
      report := some ⟨i.word0, BitVec.ofNat 64 s.time, BitVec.ofNat 64 x.seat.phase, i.aux⟩ } }
    match x.seat.part with
    | some p => s.holdPart p
    | none => s

/-- A freeze whose LOC is the AUX (R377). -/
def freeze (s : State) (t : Nat) (i : TrapInfo) (unit : Nat) : State := s.freezeAt t i unit i.aux

/-- MFIRST stands in ADDR2 of every margin exception (R293). -/
def trapAddr2 (x : Tile) (cause : BitVec 8) : BitVec 15 := if cause == Cause.margin then x.tda.mfirst else 0

/-- The address a CTL trap names: the GUARD's for a guarded word (R135). -/
def headAt (x : Tile) (e : Eng) : Nat :=
  match e with
  | .ctl => (x.ctl.guard.map (·.addr)).getD x.pctl.pc
  | .tsq => x.tsq.tpc
  | _ => (x.pos e).pc

/-- A GUARD whose word does not issue is undone: both issue again as one unit (R135). -/
def unguard (s : State) (t : Nat) : State :=
  s.modTile t fun x =>
    match x.ctl.guard with
    | some g => { x with ctl := { x.ctl with guard := none }
                         pctl := { x.pctl with pc := g.addr, walk := x.pctl.walk - 1 } }
    | none => x

/-- A precise trap of an engine: the tile freezes at the word, which has no effect (R75). -/
def trapWord (s : State) (t : Nat) (e : Eng) (cause : BitVec 8) (aux : DWord) : State :=
  let x := s.tile t
  (s.unguard t).freeze t ⟨cause, aux, e.code, headAt x e, trapAddr2 x cause, 0, false⟩ 0

/-- An asynchronous fault: no word is named (R293, R299). `addr2` is the XP head address of a copy fault. -/
def trapAsync (s : State) (t : Nat) (cause : BitVec 8) (aux : DWord) (addr2 : Nat) (unit : Option Nat) : State :=
  s.freeze t ⟨cause, aux, if unit.isSome then 5 else 7, 0, BitVec.ofNat 15 addr2, 0, true⟩ (unit.getD 0)

/-- The fault of a copy (R266, R293): its XP head address and engine, AUX, LOC. -/
def trapCopy (s : State) (t : Nat) (cause : BitVec 8) (aux loc : DWord) (head eng : Nat) : State :=
  s.freezeAt t ⟨cause, aux, 5, 0, BitVec.ofNat 15 head, 0, true⟩ eng loc

/-! ### Reads of HBM (R375, R376) -/

/-- A corrected error: one entry of class corrected, which counts as it is written (R375-R377, R380). -/
def logCorrected (s : State) (d : Nat) (who : BitVec 3 × Nat) (slot phase : Nat) (loc : DWord) : State :=
  s.log d 0x20 0 who.1 slot who.2 0 phase loc

end State

/-- The site of a memory node, and of a port (R16, R370). -/
def nodeSite (n : Nat) : Nat := if n < 4 then n else n + 1

/-- The logical die at a site; none at the hidden one (R17). -/
def siteDie (site : Nat) : Option Nat :=
  if site = Config.hiddenSite.val then none else some (if site < Config.hiddenSite.val then site else site - 1)

namespace State

/-- The die whose log takes the errors of the memory at an address: the die of its memory node's site, or logical die 0
(R313, R376). -/
def hbmDie (pa : Nat) : Nat := (siteDie (nodeSite (bits pa 39 37))).getD 0

/-- A read of HBM by an agent of the package: an uncorrectable codeword answers its address, the corrected ones are written
back and logged (R375, R376). -/
def touchHbm (s : State) (pa n : Nat) : State × Option Nat :=
  let hit (m : Nat × Bool) : Bool := overlaps (32 * m.1) 32 pa n
  match s.hbm.find? fun m => hit m && m.2 with
  | some m => (s, some (32 * m.1))
  | none =>
    let ms := s.hbm.filter hit
    if ms.isEmpty then (s, none)
    else (ms.foldl (fun s m => s.logCorrected (hbmDie (32 * m.1)) (6, 0) 0 0 (Config.storageKind 12 ++ BitVec.ofNat 60 (32 * m.1)))
      { s with hbm := s.hbm.filter fun m => !hit m }, none)

/-! ### The firmware core: exception, return, restart (R294, R296, R304, R382) -/

/-- Bytes of the patch store that a start reads: its header alone where LEN is out of range (R382). -/
def patchSpan (m : Mem) : Nat :=
  let len := m.num 0x100008 4
  if 8192 < len then 256 else 256 + 4 * len + 96

/-- Signed patch store at physical 0x10_0000: the reason it is rejected, or its code (R382). -/
def patchCheck (m : Mem) : Except Nat (BitVec 16 × List Byte) :=
  let b := 0x100000
  let len := m.num (b + 8) 4
  let ver := BitVec.ofNat 16 (m.num (b + 4) 2)
  if m.num b 4 ≠ 0x50514C50 || len = 0 || 8192 < len then .error 3
  else if Config.patchVerifies (m.read (b + 12) 96) (m.read b (256 + 4 * len)) (m.read (b + 256 + 4 * len) 96) = false
    then .error 1
  else if ver.toNat < Config.minVersion.toNat then .error 2
  else .ok (ver, m.read (b + 256) (4 * len))

/-- No patch stands: the region is empty and unlocked (R289, R382). -/
def noPatch (f : Fwc) : Fwc :=
  { f.emptied with lock := false, inst := false, ver := 0, patchLen := 0, patchDigest := 0 }

/-- A start from ROM word 0 installs a patch and locks its region, or leaves the region empty (R289, R382). A store that ECC cannot
correct is rejected for its format (R375; log 68). -/
def installPatch (s : State) (d : Nat) : State :=
  let reject (s : State) (r : Nat) : State := (s.log d 0x27 2 6 0 0 0 0 (BitVec.ofNat 64 r)).modFwc d noPatch
  match s.touchHbm 0x100000 (patchSpan s.mem) with
  | (s, some _) => reject s 3
  | (s, none) =>
  if s.mem.num 0x100000 4 = 0 then s.modFwc d noPatch
  else match patchCheck s.mem with
  | .ok (ver, code) =>
    s.modFwc d fun f => { f.emptied.write 0x38000 code with
      lock := true, inst := true, ver := ver, patchLen := code.length / 4, patchDigest := Config.sha384 code }
  | .error r => reject s r

/-- A restart from ROM word 0: the die's own system registers at their reset values, so its divisor, its injection slots and its
doorbell FIFO too; tiles, the log and the counts stay (R296, R376, R379). -/
def restartFwc (s : State) (d : Nat) : State :=
  let s := s.modDie d fun x => { x with
    fwc := { fwc0 with cyc := x.fwc.cyc, ctl := { x.fwc.ctl with guard := none }, sram := x.fwc.sram, ecc := x.fwc.ecc }
    evsel := 0, fired := 0, dpsel := 0, lsel := 0, wdcmp := 0, twnext := 0, calint := 0x01000000, drain := false, div := 0, cur := 0
    divAt := none, inj := [], dbq := [], ovf := false
    fe := { fe0 with rescan := true } }
  s.installPatch d

/-- EVCFG of every counter of a die at its reset value; its counts stay, which only MTSR and bring-up clear (R296, R379). A
function-level reset leaves it (R386). -/
def clearEvents (s : State) (d : Nat) : State :=
  s.modDie d fun x => { x with evc := (x.evc.map fun e => (e.1, { e.2 with en := false, src := 0 })).filter fun e => e.2 != evc0 }

/-- Taking an exception (R294); with EXC already set it is a double fault (R296). -/
def exception (s : State) (d : Nat) (cause : BitVec 8) (aux : DWord) (resume : Nat) : State :=
  let f := s.fwc d
  if f.exc then (s.log d 0x24 2 6 0 0 0 0 (cause.setWidth 64)).restartFwc d |>.clearEvents d
  else s.modFwc d fun f => { f with
    epc := BitVec.ofNat 15 resume, ecause := cause, eval_ := aux, pie := f.ie, ie := false, exc := true
    pc := f.evec.toNat, blk := none, busy := f.cyc + 1, ctl := { f.ctl with guard := none } }

/-- The head address of the firmware core's present word (R135). -/
def fwcHead (f : Fwc) : Nat := (f.ctl.guard.map (·.addr)).getD f.pc

/-- The return from an exception: IE := PIE, EXC := 0, on at EPC after 9 cycles (R304). -/
def returnFrom (s : State) (d : Nat) : State :=
  s.modFwc d fun f => { f with ie := f.pie, exc := false, pc := f.epc.toNat, busy := f.cyc + 9 }

end State

/-! ### The issue of a word -/

/-- Phase legality (R13, R29). -/
inductive Legal | c | x | cx
deriving DecidableEq, Repr

/-- Whether a phase's parity admits the word. -/
def Legal.ok (l : Legal) (phase : Nat) : Bool :=
  match l with
  | .c => phase % 2 == 0
  | .x => phase % 2 == 1
  | .cx => true

/-- What a word leaves behind when it issues: landings with their latency, issue occupancy, the cycles until it is
complete besides its landings (R46), a transfer's next address with the cycles until the CTL's next word (R44, R170),
the TDA command it pushed. -/
structure Eff where
  lands : List (Nat × Land)
  occ : Nat
  done : Nat
  next : Option (Nat × Nat)
  cmd : Nat
deriving DecidableEq, Repr

/-- A word that only lands results. -/
def Eff.of (lands : List (Nat × Land)) : Eff := ⟨lands, 1, 1, none, 0⟩
/-- A word that leaves nothing to land. -/
def Eff.nil : Eff := Eff.of []

/-- The cycles until a word is complete. -/
def Eff.lag (f : Eff) : Nat := maxOf (max 1 f.done) (f.lands.map (·.1))

/-- What a word does in a cycle: it issues, it waits (R158), it holds its tile (R72), it traps (R75). -/
inductive Act
  | go (s : State) (f : Eff)
  | wait
  | hold (s : State)
  | trap (cause : BitVec 8) (aux : DWord)
  /-- A trap after a read that fired an injection or met an error (R310, R375). -/
  | fail (s : State) (cause : BitVec 8) (aux : DWord)
  /-- A translation fault at an address that virtual space does not have: no mapping makes the word succeed (R318). -/
  | lost (s : State) (aux : DWord)
deriving DecidableEq, Repr

/-- Bookkeeping of a word: ring bits, length in words, legality, occupancy and latency when its guard is false (R135),
whether the firmware core refuses it (R287). -/
structure Form where
  h : Ring
  len : Nat
  leg : Legal
  occ : Nat
  lat : Nat
  tileOnly : Bool
deriving DecidableEq, Repr

def Form.cx (h : Ring) : Form := ⟨h, 1, .cx, 1, 1, false⟩
def Form.two (h : Ring) : Form := ⟨h, 2, .cx, 1, 1, false⟩
/-- A word of latency `n`. -/
def Form.late (h : Ring) (n : Nat) : Form := ⟨h, 1, .cx, 1, n, false⟩
/-- A word of compute phases that the firmware core executes too, of latency `n`: loads, stores and atomics. -/
def Form.c (h : Ring) (n : Nat) : Form := ⟨h, 1, .c, 1, n, false⟩
def Form.tile (h : Ring) (leg : Legal) : Form := ⟨h, 1, leg, 1, 1, true⟩

def pends (c pos : Nat) (e : Eng) (id : Nat) (ls : List (Nat × Land)) : List Pend :=
  ls.map fun l => ⟨c + l.1, pos, e, id, l.2⟩

namespace Tile

/-- Take the tokens, advance the engine, record landings, signals and the transfer decision of a word that issues. -/
def issue (x : Tile) (e : Eng) (h : Ring) (len : Nat) (f : Eff) : Tile :=
  let p := x.pos e
  let c := x.cyc
  let done := max p.done (c + f.lag)
  let p' : Pos :=
    { p with
      pc := (f.next.map (·.1)).getD (p.pc + len)
      walk := p.walk + len
      busy := c + (f.next.map (·.2)).getD f.occ
      seen := none
      done := done
      took := false
      fp := if h.wp && !p.took then p.fp.drop 1 else p.fp
      fs := if h.ws && !p.took then p.fs.drop 1 else p.fs
      sigs := if h.sp || h.ss then p.sigs ++ [⟨c + f.lag, p.walk, done, f.cmd, h.sp, h.ss, none⟩] else p.sigs }
  { x.setPos e p' with
    pend := x.pend ++ pends c p.walk e f.cmd f.lands
    sync := match f.next with
      | some (a, n) => { x.sync with decs := x.sync.decs ++ [⟨a, c, c + n⟩] }
      | none => x.sync
    ctl := if e = .ctl then { x.ctl with guard := none } else x.ctl
    stop := if e = .xp then { x.stop with held := .none, xlated := false, xlatDue := none }
      else { x.stop with held := .none } }

/-- A word of this engine holds the tokens its ring bits wait for (R46), or has taken them (R183). -/
def tokens (x : Tile) (e : Eng) (h : Ring) : Bool :=
  (x.pos e).took || ((!h.wp || !(x.pos e).fp.isEmpty) && (!h.ws || !(x.pos e).fs.isEmpty))

/-- A guard that turned out false (R135). -/
def guardFalse (x : Tile) (e : Eng) : Bool := e == .ctl && (x.ctl.guard.map (!·.holds)).getD false

end Tile

/-- All 16 entries of the command queue are taken: an entry frees when its command retires (R218). -/
def Tda.full (d : Tda) : Bool := decide (16 ≤ d.queue.length + d.runs.length)

namespace State

/-- A text word of a tile (R46, R29, R75, R72): waits for its tokens, is checked, then acts. -/
def textWord (s : State) (t : Nat) (e : Eng) (w : Form) (act : State → Act) : State :=
  let x := s.tile t
  if !x.tokens e w.h then s.unguard t
  else if !w.leg.ok x.seat.phase then s.trapWord t e Cause.phaseIllegal (BitVec.ofNat 64 (x.seat.phase % 2))
  else match if x.guardFalse e then Act.go s ⟨[], w.occ, w.lat, none, 0⟩ else act s with
  | .go s' f => s'.modTile t fun y => y.issue e w.h w.len f
  | .wait => s.unguard t
  | .hold s' => (s'.unguard t).modTile t fun y => { y with stop := { y.stop with held := .party } }
  | .trap c a => s.trapWord t e c a
  | .fail s' c a => s'.trapWord t e c a
  | .lost s' a => (s'.trapWord t e Cause.translation a).noResume t

/-- A word of the firmware core's code space (R289): ROM words are not the manual's, the patch region is the SRAM's last
32 KiB, as it stands. -/
def fwcText (f : Fwc) (w : Nat) : Word :=
  if 24576 ≤ w && w < f.codeEnd then BitVec.ofNat 32 (ofLe (f.read (4 * (w - 24576) + 0x38000) 4)) else eotWord

/-- Land and advance on the firmware core (R287). -/
def fwcIssue (s : State) (d : Nat) (len : Nat) (e : Eff) : State :=
  s.modFwc d fun f => { f with
    pc := (e.next.map (·.1)).getD (f.pc + len)
    busy := f.cyc + (e.next.map (·.2)).getD e.occ
    pend := f.pend ++ pends f.cyc 0 .ctl 0 e.lands
    ctl := { f.ctl with guard := none } }

/-- A GUARD of the firmware core whose word does not issue yet is undone (R135). -/
def fwcUnguard (s : State) (d : Nat) : State :=
  s.modFwc d fun f =>
    match f.ctl.guard with
    | some g => { f with ctl := { f.ctl with guard := none }, pc := g.addr }
    | none => f

/-- A CTL or SYS word of the firmware core (R287, R294): a fault is an exception. -/
def fwcWord (s : State) (d : Nat) (w : Form) (act : State → Act) : State :=
  let f := s.fwc d
  if w.h ≠ Ring.none || w.tileOnly then
    s.exception d Cause.illegal ((fwcText f f.pc).setWidth 64) (fwcHead f)
  else match if (f.ctl.guard.map (!·.holds)).getD false then Act.go s ⟨[], w.occ, w.lat, none, 0⟩ else act s with
  | .go s' e => s'.fwcIssue d w.len e
  | .wait => s.fwcUnguard d
  | .hold _ => s.fwcUnguard d
  | .trap c a => s.exception d c a (fwcHead f)
  | .fail s' c a => s'.exception d c a (fwcHead f)
  | .lost s' a => s'.exception d Cause.translation a (fwcHead f)

end State

/-- A CTL word: on a tile's CTL or on a firmware core (R287). -/
def ctlWord (w : Form) (act : State → Act) (s : State) : Out :=
  match s.cur with
  | .eng t .ctl => .next (s.textWord t .ctl w act)
  | .fwc d => .next (s.fwcWord d w act)
  | _ => .fault .wrongAgent

/-- A word of the VU, TDA or XP. -/
def engWord (e : Eng) (w : Form) (act : Nat → State → Act) (s : State) : Out :=
  match s.cur with
  | .eng t e' => if e' = e then .next (s.textWord t e w (act t)) else .fault .wrongAgent
  | _ => .fault .wrongAgent

/-- The registers of the CTL whose turn it is (R287). -/
def State.ctl (s : State) : Ctl :=
  match s.cur with
  | .eng t _ => (s.tile t).ctl
  | .fwc d => (s.fwc d).ctl
  | .pkg => State.ctl0

/-- The head address of the word whose turn it is: a + 1 of a guarded one (R135). -/
def State.pc (s : State) : Nat :=
  match s.cur with
  | .eng t e => ((s.tile t).pos e).pc
  | .fwc d => (s.fwc d).pc
  | .pkg => 0

/-- A text word as memory reads: the end-of-text word at and beyond the declared length (R78). -/
def Store.textAt (m : Store) (a : Nat) : Word := if a < m.textLen then m.text.get 0#32 a else eotWord
/-- A sequencer word as memory reads (R80). -/
def Store.seqAt (m : Store) (a : Nat) : Word := if a < m.seqLen then m.seq.get 0#32 a else eotWord

/-- The head word of the word whose turn it is: the AUX of an illegal instruction (R297). -/
def State.word (s : State) : Word :=
  match s.cur with
  | .eng t .tsq => (s.tile t).store.seqAt (s.tile t).tsq.tpc
  | .eng t e => (s.tile t).store.textAt ((s.tile t).pos e).pc
  | .fwc d => State.fwcText (s.fwc d) (s.fwc d).pc
  | .pkg => 0

/-- An illegal instruction found while a word runs (R51, R122). -/
def State.illegal (s : State) : Act := .trap Cause.illegal (s.word.setWidth 64)

/-- The cycle in which the word issues, in the agent's own count. -/
def State.cycle (s : State) : Nat :=
  match s.cur with
  | .eng t _ => (s.tile t).cyc
  | .fwc d => (s.fwc d).cyc
  | .pkg => 0

def State.modCtl (s : State) (f : Ctl → Ctl) : State :=
  match s.cur with
  | .eng t _ => s.modTile t fun x => { x with ctl := f x.ctl }
  | .fwc d => s.modFwc d fun x => { x with ctl := f x.ctl }
  | .pkg => s

/-- A CTL word whose whole effect is what lands (R157). -/
def ctlPure (w : Form) (f : Ctl → List (Nat × Land)) (s : State) : Out :=
  ctlWord w (fun s => .go s (Eff.of (f s.ctl))) s

end Sys2Proof.Machine
end

