-- ==== Sys2Proof/Machine/Access.lean ====
section
/-! DEFINITION. Accesses to the byte memories and landings: the limits of local space (R111), first reads (R115), ECC and
injected errors (R310, R375), the physical address map (R313, R321, R323, R371), what lands and in which order (R73). -/

namespace Sys2Proof.Machine

/-! ### Injected errors and ECC (R309, R310, R375) -/

/-- SPACE codes (R309); the storage that FINJ does not reach counts on. -/
def EccSpace.code : EccSpace → Nat
  | .reg => 0
  | .scr => 1
  | .text => 2
  | .seq => 3
  | .sram => 4
  | .ofl => 5
  | .lat => 6
  | .ofa => 7
  | .ofb => 8
  | .dcf => 9
  | .slot => 10
  | .rom => 11

/-- Bytes of a coded word: 64-bit parts in the FIFOs and plane slots, else 32-bit words (R375). -/
def EccSpace.unit : EccSpace → Nat
  | .ofa | .ofb | .dcf | .slot => 8
  | _ => 4

/-- LOC of a corrected error: the address, and in bits 63:60 the storage kind, which R309 codes for five kinds and the manual
for no other (R377; log 35). -/
def eccLoc (sp : EccSpace) (w : Nat) : DWord :=
  (if sp.code < 5 then BitVec.ofNat 4 sp.code else Config.storageKind sp.code) ++ BitVec.ofNat 60 (sp.unit * w)

def EccSpace.of (c : BitVec 3) : EccSpace :=
  match c.toNat with
  | 0 => .reg
  | 1 => .scr
  | 2 => .text
  | 3 => .seq
  | _ => .sram

/-- ENG of an injection slot for a pending write (R309). -/
def Eng.injCode : Eng → BitVec 3
  | .ctl => 0
  | .vu => 1
  | .tda => 2
  | .xp => 4
  | .tsq => 3

/-- A word that holds more inverted bits than its code corrects. -/
def EccMark.lost (m : EccMark) : Bool := m.bad &&& (m.bad - 1) != 0

/-- The inverted bits of a word. -/
def badBits (ms : List EccMark) (sp : EccSpace) (w : Nat) : BitVec 64 :=
  ((ms.find? fun m => m.sp == sp && m.word == w).map (·.bad)).getD 0
/-- A word holds these inverted bits. -/
def setBad (ms : List EccMark) (sp : EccSpace) (w : Nat) (bad : BitVec 64) : List EccMark :=
  let rest := ms.filter fun m => !(m.sp == sp && m.word == w)
  if bad = 0 then rest else ⟨sp, w, bad⟩ :: rest

/-- The oldest `n` parts of a FIFO have left it. -/
def shiftMarks (ms : List EccMark) (sp : EccSpace) (n : Nat) : List EccMark :=
  (ms.filter fun m => !(m.sp == sp && decide (m.word < n))).map fun m => if m.sp == sp then { m with word := m.word - n } else m

/-- Invert bits of a 32-bit word held as bytes. -/
def flipBits (m : Mem) (w : Nat) (v : Word) : Mem :=
  Mem.write m (4 * w) (leBytes 4 (BitVec.ofNat 32 (Mem.num m (4 * w) 4) ^^^ v).toNat)

/-- Invert bits of a 32-bit word held as a word. -/
def flipWord (m : Map Word) (w : Nat) (v : Word) : Map Word := m.set 0#32 w (m.get 0#32 w ^^^ v)

namespace State

/-- Invert stored bits. -/
def flipStored (s : State) (d t : Nat) (sp : EccSpace) (w : Nat) (v : Word) : State :=
  match sp with
  | .scr => s.modTile t fun x => { x with store := { x.store with scr := flipBits x.store.scr w v } }
  | .text => s.modTile t fun x => { x with store := { x.store with text := flipWord x.store.text w v } }
  | .seq => s.modTile t fun x => { x with store := { x.store with seq := flipWord x.store.seq w v } }
  | .sram => s.modFwc d fun f => { f with sram := flipBits f.sram w v }
  | _ => s.modTile t fun x => { x with store := { x.store with reg := flipBits x.store.reg w v } }

/-- The marks of a memory that FINJ reaches. -/
def marks (s : State) (d t : Nat) (sp : EccSpace) : List EccMark :=
  if sp = .sram then (s.fwc d).ecc else (s.tile t).store.ecc
def setMarks (s : State) (d t : Nat) (sp : EccSpace) (ms : List EccMark) : State :=
  if sp = .sram then s.modFwc d fun f => { f with ecc := ms }
  else s.modTile t fun x => { x with store := { x.store with ecc := ms } }

/-- A slot fires and disarms: MODE 00 flips the stored word and its code follows, so that bits inverted before are part of the
value; 01 and 10 invert bits that the code does not cover (R310). -/
def fire (s : State) (d k : Nat) (i : Inj) : State :=
  let t := 64 * d + i.tile.toNat
  let sp := EccSpace.of i.space
  let w := i.waddr.toNat
  let b : Word := BitVec.ofNat 32 (2 ^ i.bit.toNat)
  let old := badBits (s.marks d t sp) sp w
  let s := match i.mode.toNat with
    | 0 => (s.flipStored d t sp w (old.setWidth 32 ^^^ b)).setMarks d t sp (setBad (s.marks d t sp) sp w 0)
    | m =>
      let bad : Word := if m = 2 then b ||| b.rotateLeft 1 else b
      s.setMarks d t sp (setBad (s.marks d t sp) sp w (old ^^^ bad.setWidth 64))
  s.modDie d fun x => { x with inj := x.inj.put k { i with armed := false }, fired := x.fired ||| BitVec.ofNat 4 (2 ^ k) }

/-- Slots with a read trigger on these words fire before the read samples (R310). -/
def fireRead (s : State) (d slot : Nat) (sp : EccSpace) (w0 w1 : Nat) : State :=
  [0, 1, 2, 3].foldl (fun s k =>
    let i := (s.die d).inj.get inj0 k
    if i.armed && i.mode != 3#2 && i.trig == 2#2 && i.space.toNat == sp.code && (sp == .sram || i.tile.toNat == slot)
        && decide (w0 ≤ i.waddr.toNat) && decide (i.waddr.toNat ≤ w1)
    then s.fire d k i else s) s

/-- A read of words `w0` to `w1` of a memory of a tile (ENG, UNIT) passes ECC. An uncorrectable word answers its byte address; a
corrected one is written back and logged, also where a write of the same cycle stands in the word (R375-R377). -/
def correct (s : State) (t : Nat) (who : BitVec 3 × Nat) (sp : EccSpace) (w0 w1 : Nat) : State × Option Nat :=
  let d := dieOf t
  let hit (m : EccMark) : Bool := m.sp == sp && decide (w0 ≤ m.word) && decide (m.word ≤ w1)
  let x := s.tile t
  let ms := x.store.ecc.filter hit
  match ms.find? EccMark.lost with
  | some m => (s, some (sp.unit * m.word))
  | none =>
    let lost := if x.store.wipedAt = x.cyc then x.store.wiped.filter hit else []
    if ms.isEmpty && lost.isEmpty then (s, none)
    else
      let s := s.modTile t fun x => { x with store := { x.store with
        ecc := x.store.ecc.filter fun m => !hit m, wiped := x.store.wiped.filter fun m => !hit m } }
      ((ms ++ lost).foldl (fun s m => s.logCorrected d who (slotOf t) x.seat.phase (eccLoc sp m.word)) s, none)

/-- A read by an engine: injections, then ECC (R310). -/
def touch (s : State) (t : Nat) (who : BitVec 3 × Nat) (sp : EccSpace) (w0 w1 : Nat) : State × Option Nat :=
  (s.fireRead (dieOf t) (slotOf t) sp w0 w1).correct t who sp w0 w1

/-- The same for the firmware core's SRAM and ROM. -/
def touchFwc (s : State) (d : Nat) (sp : EccSpace) (w0 w1 : Nat) : State × Option Nat :=
  let s := s.fireRead d 0 sp w0 w1
  let hit (m : EccMark) : Bool := m.sp == sp && decide (w0 ≤ m.word) && decide (m.word ≤ w1)
  let f := s.fwc d
  let ms := f.ecc.filter hit
  match ms.find? EccMark.lost with
  | some m => (s, some (4 * m.word))
  | none =>
    let lost := if f.wipedAt = f.cyc then f.wiped.filter hit else []
    let s := s.modFwc d fun f => { f with ecc := f.ecc.filter fun m => !hit m, wiped := f.wiped.filter fun m => !hit m }
    ((ms ++ lost).foldl (fun s m => s.logCorrected d (6, 0) 0 0 (eccLoc sp m.word)) s, none)

def touchSram (s : State) (d w0 w1 : Nat) : State × Option Nat := s.touchFwc d .sram w0 w1

/-! ### Scratchpad reads (R111, R112, R115) -/

/-- The expected tag of a frame in the tile's phase (R115). -/
def frameTag (s : State) (t frame : Nat) : Option Word :=
  let x := s.tile t
  match x.seat.part with
  | none => none
  | some p => ((s.part p).img.frames.find? fun e => e.1 == x.seat.phase && e.2.1 == frame).map (·.2.2)

/-- Mark a frame as read in the phase (R115). -/
def markChecked (s : State) (t f : Nat) : State :=
  s.modTile t fun x => { x with frames := { x.frames with checked := x.frames.checked.set false f true } }

/-- The first read of each frame in turn: a mismatch answers the tile's own tag (R115). -/
def firstReads (s : State) (t : Nat) (frames : List Nat) : State × Option Word :=
  frames.foldl (fun r f =>
    match r.2 with
    | some _ => r
    | none =>
      let x := r.1.tile t
      if x.frames.checked.get false f then r
      else
        let tag := x.frames.tags.get 0#32 f
        match r.1.frameTag t f with
        | some e => if e = tag then (r.1.markChecked t f, none) else (r.1, some tag)
        | none => (r.1.markChecked t f, none)) (s, none)

/-- The frames that `n` bytes at `a` touch. -/
def framesOf (a n : Nat) : List Nat :=
  if n = 0 then [] else (List.range ((a + n - 1) / 4096 + 1 - a / 4096)).map (· + a / 4096)

def firstRead (s : State) (t a n : Nat) : State × Option Word := s.firstReads t (framesOf a n)

/-- A read of `n` scratchpad bytes by a tile engine: limits, first reads, ECC; then the bytes (R111, R115, R375). -/
def readLocal (s : State) (t : Nat) (e : Eng) (a n : Nat) : Except Act (State × List Byte) :=
  if 0x100000 < a + n then .error (.trap Cause.ownership (BitVec.ofNat 64 a))
  else match s.firstRead t a n with
  | (_, some tag) => .error (.trap Cause.schedule (tag.setWidth 64))
  | (s, none) =>
    if n = 0 then .ok (s, [])
    else match s.touch t (e.code, 0) .scr (a / 4) ((a + n - 1) / 4) with
    | (s, some w) => .error (.fail s Cause.ecc (BitVec.ofNat 64 w))
    | (s, none) => .ok (s, (s.tile t).store.scr.read a n)

/-- The checks of several ranges that one word reads: limits of all of them first, then first reads in rising frame order
(R111, R115, R241). AUX of a range that crosses the end of local space is the range's start (log 20). -/
def rangeChecks (s : State) (t : Nat) (rs : List (Nat × Nat)) : Except (BitVec 8 × DWord) State :=
  match rs.find? fun r => decide (0x100000 < r.1 + r.2) with
  | some r => .error (Cause.ownership, BitVec.ofNat 64 r.1)
  | none =>
    match s.firstReads t (sortBy id (distinct (rs.flatMap fun r => framesOf r.1 r.2))) with
    | (_, some tag) => .error (Cause.schedule, tag.setWidth 64)
    | (s, none) => .ok s

/-- The bytes of several ranges, through ECC (R375). -/
def takeRanges (s : State) (t : Nat) (e : Eng) (rs : List (Nat × Nat)) : Except Act (State × List (List Byte)) :=
  match rs.foldl (fun (q : State × Option Nat) r =>
      match q.2 with
      | some _ => q
      | none => if r.2 = 0 then q else q.1.touch t (e.code, 0) .scr (r.1 / 4) ((r.1 + r.2 - 1) / 4)) (s, none) with
  | (s, some w) => .error (.fail s Cause.ecc (BitVec.ofNat 64 w))
  | (s, none) => .ok (s, rs.map fun r => (s.tile t).store.scr.read r.1 r.2)

/-- Reads of several ranges by one word: their checks, then the bytes of each. -/
def readRanges (s : State) (t : Nat) (e : Eng) (rs : List (Nat × Nat)) : Except Act (State × List (List Byte)) :=
  match s.rangeChecks t rs with
  | .error (c, a) => .error (.trap c a)
  | .ok s => s.takeRanges t e rs

/-! ### The physical address map (R313, R321, R323, R371) -/

/-- Bytes of HBM. -/
def hbmTop : Nat := 0x10000000000
/-- The host window's first byte. -/
def hostBase : Nat := 0x80000000000
/-- The end of the physical address space. -/
def physTop : Nat := 0x100000000000

/-- The port whose open window holds an address (R371). -/
def portOf (s : State) (pa : Nat) : Option Nat :=
  if hbmTop ≤ pa && pa < hbmTop + 8 * 0x8000000000 then
    let p := (pa - hbmTop) / 0x8000000000
    if (s.link (16 + p)).portEn then some p else none
  else none

/-- Whether every byte of a range exists: HBM, one open port window, or the host window (R313). -/
def physOk (s : State) (pa n : Nat) : Bool :=
  decide (pa + n ≤ hbmTop) || (decide (hostBase ≤ pa) && decide (pa + n ≤ physTop))
    || (match s.portOf pa with
        | some p => decide (pa + n ≤ hbmTop + 0x8000000000 * (p + 1))
        | none => false)

/-- Protected memory of a live partition: region pool and record table (R321). -/
def protectedBy (q : Part) (pa n : Nat) : Bool :=
  q.v && (overlaps pa n (0x200000 * q.rgn.toNat) (0x80000 + 0x40000 * q.nleaf.toNat)
    || overlaps pa n (0x200000 * q.rcd.toNat) 0x1000000)

def inProtected (s : State) (pa n : Nat) : Bool := s.parts.any fun e => protectedBy e.2 pa n

/-- The remote physical address of a window address: RBASE * 2^39 and the offset in the window (R371). -/
def remoteAddr (s : State) (p pa : Nat) : Nat := 0x8000000000 * (s.link (16 + p)).rbase.toNat + (pa - hbmTop) % 0x8000000000

/-- Physical bytes. A remote package's bytes are not this machine's (R371). -/
def physRead (s : State) (pa n : Nat) : List Byte :=
  match s.portOf pa with
  | some p => (List.range n).map fun i => Config.remoteByte (s.remoteAddr p pa + i + s.free * physTop)
  | none => s.mem.read pa n

/-- A write through a port window leaves the package (R371); one in the package leaves its codewords without error (R375). -/
def physWrite (s : State) (pa : Nat) (bs : List Byte) : State :=
  if (s.portOf pa).isSome then s
  else { s with
    mem := s.mem.write pa bs
    hbm := s.hbm.filter fun m => !overlaps (32 * m.1) 32 pa bs.length }

/-- A host address as a request carries it, tagged with a PASID (R313): each PASID's host memory is its own. -/
def tagFor (pasid : BitVec 20) (pa : Nat) : Nat :=
  if hostBase ≤ pa && pa < physTop then pa + (pasid.toNat + 1) * physTop else pa

/-- A host address as a request through a context carries it. -/
def tagged (s : State) (c pa : Nat) : Nat := tagFor (s.ctx c).pasid pa

def physNum (s : State) (pa n : Nat) : Nat := ofLe (s.physRead pa n)

end State

/-- At rest: IDLE, DONE or ABORTED (R314, R322). -/
def PState.atRest : PState → Bool
  | .idle | .done | .aborted => true
  | _ => false

/-! ### Landings (R73, R75, R112, R190, R212) -/

/-- The new value of an atomic's location (R175). -/
def atomNew (op : AtomOp) (wide : Bool) (old b c : DWord) : DWord :=
  match op with
  | .add => (old + b) &&& 0xFFFFFFFF#64
  | .min => (if (old.setWidth 32).toInt ≤ (b.setWidth 32).toInt then old else b)
  | .max => (if (b.setWidth 32).toInt ≤ (old.setWidth 32).toInt then old else b)
  | .xchg => b
  | .cas => if (if wide then old = c else old.setWidth 32 = c.setWidth 32) then b else old

/-- The registers an atomic's old value lands in. -/
def Ctl.atomOld (c : Ctl) (wide : Bool) (rd : SReg) (old : DWord) : Ctl :=
  let c := if wide then c.wD rd old else c.wS rd (old.setWidth 32)
  { c with alu := old }

/-- Change the mask stack; the entry below the last counts as all ones (R190). -/
def landMask (ms : List Nat) : MaskOp → List Nat
  | .push m => m :: ms
  | .inv =>
    match ms with
    | m :: r => (r.headD (2 ^ 8192 - 1) &&& (2 ^ 8192 - 1 - m)) :: r
    | [] => []
  | .pop => ms.drop 1

/-- The coded storage of a space (R375). -/
def Space.ecc : Space → EccSpace
  | .reg => .reg
  | .scr => .scr
  | .ofl => .ofl
  | .lat => .lat
  | .sram => .sram

/-- A write clears the ECC marks of the words it touches. -/
def clearMarks (ms : List EccMark) (sp : Space) (runs : List (Nat × List Byte)) : List EccMark :=
  ms.filter fun m => !(m.sp == sp.ecc && runs.any fun r => overlaps (4 * m.word) 4 r.1 r.2.length)

def Store.writeRuns (m : Store) (sp : Space) (runs : List (Nat × List Byte)) : Store :=
  { m.set sp (Mem.writeRuns (m.get sp) runs) with ecc := clearMarks m.ecc sp runs }

/-- Merge a byte under a mask. -/
def mergeByte (old : Byte) (v : Byte × Byte) : Byte := (old &&& ~~~v.2) ||| (v.1 &&& v.2)

/-- Write the masked bits of a run. -/
def Mem.merge (m : Mem) (a : Nat) (vs : List (Byte × Byte)) : Mem :=
  Mem.write m a (List.zipWith mergeByte (Mem.read m a vs.length) vs)

/-- Bytes of a masked run that are written: one run a byte. -/
def maskedRuns (runs : List (Nat × List (Byte × Byte))) : List (Nat × Nat) :=
  runs.flatMap fun r => (r.2.zipIdx.filter fun v => v.1.2 != 0#8).map fun v => (r.1 + v.2, 1)

def Store.mergeRuns (m : Store) (sp : Space) (runs : List (Nat × List (Byte × Byte))) : Store :=
  { m.set sp (runs.foldl (fun x r => Mem.merge x r.1 r.2) (m.get sp)) with
    ecc := clearMarks m.ecc sp ((maskedRuns runs).map fun r => (r.1, [0#8])) }

/-- One landing on a tile. -/
def Tile.land (x : Tile) (l : Land) : Tile :=
  match l with
  | .bytes sp runs => { x with store := x.store.writeRuns sp runs }
  | .part sp runs => { x with store := x.store.mergeRuns sp runs }
  | .atomic op wide a rd b c =>
    let n := if wide then 8 else 4
    let old : DWord := BitVec.ofNat 64 (x.store.scr.num a n)
    { x with
      store := x.store.writeRuns .scr [(a, leBytes n (atomNew op wide old b c).toNat)]
      ctl := x.ctl.atomOld wide rd old }
  | .mask m => { x with vu := { x.vu with masks := landMask x.vu.masks m } }
  | .vstat f => { x with vu := { x.vu with vstat := x.vu.vstat ||| f } }
  | .seed v => { x with vu := { x.vu with srseed := v } }
  | .hnd v => { x with vu := { x.vu with srhnd := v } }
  | .idx v => { x with vu := { x.vu with sridx := v } }
  | .adv v => { x with vu := { x.vu with sridx := x.vu.sridx + v } }
  | l => { x with ctl := x.ctl.land l }

/-- One landing on a firmware core. -/
def Fwc.land (f : Fwc) (l : Land) : Fwc :=
  match l with
  | .bytes _ runs => { runs.foldl (fun f r => f.write r.1 r.2) f with ecc := clearMarks f.ecc .sram runs }
  | .atomic op wide a rd b c =>
    let n := if wide then 8 else 4
    let old : DWord := BitVec.ofNat 64 (ofLe (f.read a n))
    let new := leBytes n (atomNew op wide old b c).toNat
    { f.write a new with ctl := f.ctl.atomOld wide rd old, ecc := clearMarks f.ecc .sram [(a, new)] }
  | l => { f with ctl := f.ctl.land l }

/-- Later words land over earlier ones, the sequencer over the text engines (R73, R112). -/
def Pend.after (a b : Pend) : Bool :=
  if (a.eng == .tsq) == (b.eng == .tsq) then decide (b.pos ≤ a.pos) else a.eng == .tsq

def insertPend (p : Pend) : List Pend → List Pend
  | [] => [p]
  | q :: r => if p.after q then q :: insertPend p r else p :: q :: r

/-- Records in landing order. -/
def landingOrder (ps : List Pend) : List Pend := ps.foldl (fun acc p => insertPend p acc) []

/-- The bytes a record writes. -/
def Pend.runs (p : Pend) : Option (Space × List (Nat × Nat)) :=
  match p.land with
  | .bytes sp runs => some (sp, runs.map fun r => (r.1, r.2.length))
  | .part sp runs => some (sp, maskedRuns runs)
  | .atomic _ wide a _ _ _ => some (.scr, [(a, if wide then 8 else 4)])
  | _ => none

/-- Whether a record writes a byte of a 32-bit word. -/
def Pend.hits (p : Pend) (sp : Space) (w : Nat) : Bool :=
  match p.runs with
  | some (sp', rs) => sp' == sp && rs.any fun r => overlaps (4 * w) 4 r.1 r.2
  | none => false

/-- What lands in register space, with the bits that are written. -/
def Land.regRuns (l : Land) : List (Nat × List (Byte × Byte)) :=
  match l with
  | .bytes .reg runs => runs.map fun r => (r.1, r.2.map fun v => (v, 0xFF#8))
  | .part .reg runs => runs
  | _ => []

/-- The masks of runs. -/
def masksOf (runs : List (Nat × List (Byte × Byte))) : List (Nat × List Byte) := runs.map fun r => (r.1, r.2.map (·.2))

/-- The bits of register space that a record writes. -/
def Pend.regBits (p : Pend) : List (Nat × List Byte) := masksOf p.land.regRuns

/-- A record of a command of the queue; a direct word's is not (R222). -/
def Pend.ofQueue (p : Pend) : Bool := p.eng == .tda && p.id != 0

/-- Bits that no longer count in a run: those that a run of masks from `a` covers. -/
def cutRun (r : Nat × List (Byte × Byte)) (a : Nat) (ms : List Byte) : Nat × List (Byte × Byte) :=
  let k := a - r.1
  let ms := ms.drop (r.1 - a)
  (r.1, r.2.take k ++ List.zipWith (fun v m => (v.1, v.2 &&& ~~~m)) (r.2.drop k) ms ++ r.2.drop (k + ms.length))

/-- Cut bits out of the writes of started commands. -/
def cutSeen (seen : List (Nat × List (Nat × List (Byte × Byte)))) (rs : List (Nat × List Byte)) :
    List (Nat × List (Nat × List (Byte × Byte))) :=
  seen.map fun e => (e.1, e.2.map fun q => rs.foldl (fun q r =>
    if overlaps q.1 q.2.length r.1 r.2.length then cutRun q r.1 r.2 else q) q)

/-- A command of the queue, up to number `id`, has still to land in register space. -/
def tdaDue (ps : List Pend) (id : Nat) : Bool := ps.any fun p => p.ofQueue && decide (p.id ≤ id) && !p.regBits.isEmpty

/-- A memory holds the bits of a run that count. -/
def Mem.agrees (m : Mem) (r : Nat × List (Byte × Byte)) : Bool :=
  (List.zipWith (fun (old : Byte) (v : Byte × Byte) => old &&& v.2 == v.1 &&& v.2) (Mem.read m r.1 r.2.length) r.2).all id

/-- The writes of started commands as later commands of the queue read them, after a landing in register space: a write of
another engine or of a direct word hides the bits it writes; an entry stays until it and every command before it have landed and
register space holds its bits (R73, R191, R220; log 16). -/
def Tile.seenAfter (x : Tile) (p : Pend) : List (Nat × List (Nat × List (Byte × Byte))) :=
  if p.ofQueue && !p.regBits.isEmpty then
    x.tda.seen.filter fun e => tdaDue x.pend e.1 || e.2.any fun r => !x.store.reg.agrees r
  else cutSeen x.tda.seen p.regBits

/-- A record lands. -/
def Tile.landPend (x : Tile) (p : Pend) : Tile :=
  let y := x.land p.land
  { y with tda := { y.tda with seen := y.seenAfter p } }

/-- The correctable errors that landings have overwritten (R375). -/
def wipedMarks (old new : List EccMark) : List EccMark := old.filter fun m => !m.lost && !new.contains m

/-- The register-space bits that the records of other engines and of direct words write, each with its word's position. -/
def regLandings (ps : List Pend) : List (Nat × List (Nat × List Byte)) :=
  ps.filterMap fun p => if p.ofQueue || p.regBits.isEmpty then none else some (p.pos, p.regBits)

/-- The value of l.alu once the records up to a CTL word's position have landed (R68). The manual does not say whether a later
word's result that lands in the very cycle is part of the payload: the model leaves it out (log 62). -/
def aluAt (x : Tile) (ps : List Pend) (pos : Nat) : DWord :=
  ((ps.filter fun p => p.eng != .ctl || decide (p.pos ≤ pos)).foldl (fun x p => x.land p.land) x).ctl.alu

namespace State

/-- Slots with a write trigger: the slot fires if the write that wins the word is its engine's (R310). -/
def fireWrites (s : State) (t : Nat) (ps : List Pend) : State :=
  let d := dieOf t
  [0, 1, 2, 3].foldl (fun s k =>
    let i := (s.die d).inj.get inj0 k
    let sp : Option Space := if i.space = 0#3 then some .reg else if i.space = 1#3 then some .scr else none
    if i.armed && i.mode != 3#2 && i.trig == 1#2 && i.tile.toNat == slotOf t then
      match sp with
      | none => s
      | some sp =>
        match (ps.filter fun p => p.hits sp i.waddr.toNat).getLast? with
        | some p => if p.eng.injCode == i.eng then s.fire d k i else s
        | none => s
    else s) s

/-- RESULT_LANDING: every record due in the tile's present cycle lands, in order (R73). -/
def landDue (s : State) (t : Nat) : State :=
  let x := s.tile t
  let due := landingOrder (x.pend.filter fun p => decide (p.due ≤ x.cyc))
  if due.isEmpty then s
  else
    let sigs := x.pctl.sigs.map fun g =>
      if g.own ≤ x.cyc && g.pay.isNone then { g with pay := some ((aluAt x due g.pos).setWidth 32) } else g
    let y := due.foldl (fun x p => x.landPend p)
      { x with
        pend := x.pend.filter fun p => !decide (p.due ≤ x.cyc), pctl := { x.pctl with sigs := sigs }
        tda := { x.tda with just := regLandings due, justAt := x.cyc } }
    let y := { y with store := { y.store with wiped := wipedMarks x.store.ecc y.store.ecc, wipedAt := x.cyc } }
    (s.setTile t y).fireWrites t due

/-- Slots with a write trigger on private SRAM: the slot fires if the last write that lands on the word is its engine's, the
core being the CTL (R287, R310). -/
def fireSram (s : State) (d : Nat) (ps : List Pend) : State :=
  [0, 1, 2, 3].foldl (fun s k =>
    let i := (s.die d).inj.get inj0 k
    let hit (p : Pend) : Bool := match p.runs with
      | some (_, rs) => rs.any fun r => overlaps (4 * i.waddr.toNat) 4 r.1 r.2
      | none => false
    if i.armed && i.mode != 3#2 && i.trig == 1#2 && i.space == 4#3 && i.eng == Eng.injCode .ctl && ps.any hit
    then s.fire d k i else s) s

/-- The same on a firmware core. -/
def landFwc (s : State) (d : Nat) : State :=
  let f := s.fwc d
  let due := f.pend.filter fun p => decide (p.due ≤ f.cyc)
  if due.isEmpty then s
  else
    let g := due.foldl (fun f p => f.land p.land) { f with pend := f.pend.filter fun p => !decide (p.due ≤ f.cyc) }
    (s.modFwc d fun _ => { g with wiped := wipedMarks f.ecc g.ecc, wipedAt := f.cyc }).fireSram d due

end State

end Sys2Proof.Machine
end

