-- ==== Sys2Proof/Machine/Codec.lean ====
section
/-! DEFINITION. Fixed-rate blocks: the codec of the sequencer and of the copy engines (R247, R248, R250). -/

namespace Sys2Proof.Machine

/-- T in bytes (R249, R255: codes 1, 2, 3). -/
def SlotSize.bytes : SlotSize → Nat
  | .t64 => 64
  | .t128 => 128
  | .t192 => 192

/-- The largest delta width that fits T bytes (R247). -/
def capacity (T : Nat) : Nat := (8 * T - 16) / 255

/-- Zigzag of the difference of two bytes (R248). -/
def zigzag (a b : Byte) : Nat :=
  let d := (b - a).toInt
  if 0 ≤ d then (2 * d).toNat else (-2 * d - 1).toNat

/-- The zigzag differences of a block. -/
def deltas : List Byte → List Nat
  | a :: b :: r => zigzag a b :: deltas (b :: r)
  | _ => []

/-- Least w with every value below 2^w. -/
def widthOf (zs : List Nat) : Nat := ((List.range 9).find? fun w => zs.all fun z => decide (z < 2 ^ w)).getD 8

/-- Pack values of `w` bits, first value lowest. -/
def packW (w : Nat) : List Nat → Nat
  | [] => 0
  | z :: r => z + 2 ^ w * packW w r

/-- The slot bytes of a block, and whether it escapes (R248). -/
def encodeBlock (e : List Byte) (T : Nat) : List Byte × Bool :=
  let zs := deltas e
  let w := widthOf zs
  if 8 * T < 16 + 255 * w then (leBytes T 0x8000, true)
  else (leBytes T (w * 2 ^ 11 + (e.headD 0).toNat + 2 ^ 16 * packW w zs), false)

/-- The block header of a slot (R247). -/
def slotHeader (slot : List Byte) : Nat := ofLe (slot.take 2)

/-- A header that R248 rejects. -/
def headerBad (h T : Nat) : Bool :=
  bits h 10 8 != 0 || (bit h 15 && bits h 14 0 != 0) || (!bit h 15 && decide (capacity T < bits h 14 11))

/-- Undo a zigzag step. -/
def unzig (a : Byte) (z : Nat) : Byte :=
  if z % 2 = 0 then a + BitVec.ofNat 8 (z / 2) else a - BitVec.ofNat 8 (z / 2 + 1)

/-- The bytes after a first byte, from packed deltas. -/
def unpackFrom (w : Nat) : Nat → Byte → Nat → List Byte
  | 0, _, _ => []
  | n + 1, a, v =>
    let b := unzig a (v % 2 ^ w)
    b :: unpackFrom w n b (v / 2 ^ w)

/-- The 256 bytes of a slot whose header is accepted; `esc` is the escape entry (R248). -/
def decodeBlock (slot esc : List Byte) : List Byte :=
  let v := ofLe slot
  let h := v % 2 ^ 16
  if bit h 15 then esc
  else
    let e0 := BitVec.ofNat 8 (bits h 7 0)
    e0 :: unpackFrom (bits h 14 11) 255 e0 (v / 2 ^ 16)

/-- The class of a block: 64-byte reads it costs (R250). -/
def blockClass (h T : Nat) : Nat := T / 64 + (if bit h 15 then 4 else 0)

end Sys2Proof.Machine
end

