-- ==== Sys2Proof/Machine/Flags.lean ====
section
/-! DEFINITION. The arithmetic flags of VSTAT (R91), integer ranges, wrapping and clamping (R81, R90, R99), and the
stochastic draw (R92-R94). -/

namespace Sys2Proof.Machine

/-- VSTAT's fields: INV 0, OVF 1, UNF 2, INX 3, BLK 4, SATF 5 (R91). -/
abbrev VFlags := BitVec 6

namespace VF
def none : VFlags := 0
def inv : VFlags := 1
def ovf : VFlags := 2
def unf : VFlags := 4
def inx : VFlags := 8
def blk : VFlags := 16
def satf : VFlags := 32
/-- A flag under a condition. -/
def when (b : Bool) (f : VFlags) : VFlags := if b then f else 0
end VF

/-! ### Integers (R81, R90, R99) -/

/-- The least and the greatest integer of a format. -/
def intLo (signed : Bool) (w : Nat) : Int := if signed then -(2 ^ (w - 1) : Int) else 0
def intHi (signed : Bool) (w : Nat) : Int := if signed then (2 ^ (w - 1) : Int) - 1 else (2 ^ w : Int) - 1

/-- Clamp to a range; SATF where the value changes (R90). -/
def clampTo (lo hi v : Int) : Int × VFlags :=
  if v < lo then (lo, VF.satf) else if hi < v then (hi, VF.satf) else (v, VF.none)

/-- wrap48 (R99). -/
def wrap48 (v : Int) : Int := sext (toBitsN 48 v) 48

/-! ### Stochastic rounding (R92-R94) -/

/-- mix64 (R94). -/
def mix64 (x : DWord) : DWord :=
  let x := x ^^^ (x >>> 31)
  let x := x * 0xB5C18E6A4F2D3A17#64
  let x := x ^^^ (x >>> 29)
  let x := x * 0xE7A349D1C6B05F8B#64
  x ^^^ (x >>> 32)

/-- The 24 random bits of an element (R94). -/
def srBits (seed : DWord) (h idx : Word) : Nat :=
  let key := mix64 (h ++ idx)
  (List.range 24).foldl (fun u i => 2 * u + ((mix64 (seed ^^^ key ^^^ BitVec.ofNat 64 (i + 1))).extractLsb' 63 1).toNat) 0

/-- sr_up with the discarded part already multiplied by 2^24 and floored. -/
def srUp (seed : DWord) (h idx : Word) (d24 : Nat) : Bool := decide (srBits seed h idx < d24)

end Sys2Proof.Machine
end

