-- ==== Sys2Proof/Machine/Numbers.lean ====
section
/-! DEFINITION. Floating formats, exact values, rounding, saturation and the flags they set (R84-R90, R99). -/

namespace Sys2Proof.Machine

/-- The floating formats (R84). -/
inductive FFmt | f32 | f16 | bf16 | e4m3 | e5m2 | e2m3 | e2m1
deriving DecidableEq, Repr

/-- A format's layout and its special codes, sign bit zero (R84, R87). -/
structure FPar where
  width : Nat
  frac : Nat
  bias : Int
  inf : Option Nat
  nan : Option Nat
  top : Nat
deriving DecidableEq, Repr

def FFmt.par : FFmt → FPar
  | .f32 => ⟨32, 23, 127, some 0x7F800000, some 0x7FC00000, 0x7F7FFFFF⟩
  | .f16 => ⟨16, 10, 15, some 0x7C00, some 0x7E00, 0x7BFF⟩
  | .bf16 => ⟨16, 7, 127, some 0x7F80, some 0x7FC0, 0x7F7F⟩
  | .e4m3 => ⟨8, 3, 7, none, some 0x7F, 0x7E⟩
  | .e5m2 => ⟨8, 2, 15, some 0x7C, some 0x7E, 0x7B⟩
  | .e2m3 => ⟨6, 3, 1, none, none, 0x1F⟩
  | .e2m1 => ⟨4, 1, 1, none, none, 0x7⟩

/-- An exact value: `num neg m e` is (-1)^neg * m * 2^e, zeros keeping their sign; `inv` is an invalid operation's. -/
inductive FVal
  | nan
  | inv
  | inf (neg : Bool)
  | num (neg : Bool) (m : Nat) (e : Int)
deriving DecidableEq, Repr

/-- value(c, fmt) (R85). -/
def FFmt.value (f : FFmt) (c : Nat) : FVal :=
  let p := f.par
  let s := bit c (p.width - 1)
  let a := c % 2 ^ (p.width - 1)
  if p.inf = some a then .inf s
  else if p.top < a then .nan
  else
    let e := a / 2 ^ p.frac
    if e = 0 then .num s a (1 - p.bias - p.frac)
    else .num s (2 ^ p.frac + a % 2 ^ p.frac) (e - p.bias - p.frac)

/-- value of an .e8m0 scale (R86). -/
def scaleValue (c : Nat) : FVal := if c = 0xFF then .nan else .num false 1 ((c : Int) - 127)

/-! ### Exact arithmetic -/

/-- The signed integer of a value at exponent `q` at or below its own. -/
def atExp (neg : Bool) (m : Nat) (e q : Int) : Int :=
  let v : Int := m * 2 ^ (e - q).toNat
  if neg then -v else v

namespace FVal

/-- A value from a signed integer times 2^e; `z` is the sign of a zero. -/
def ofInt (v : Int) (e : Int) (z : Bool) : FVal := .num (if v = 0 then z else decide (v < 0)) v.natAbs e

def neg : FVal → FVal
  | .inf s => .inf !s
  | .num s m e => .num (!s) m e
  | v => v

/-- The exact product; zero times infinity is invalid (R192). -/
def mul : FVal → FVal → FVal
  | .nan, _ | _, .nan => .nan
  | .inv, _ | _, .inv => .inv
  | .inf s, .inf r => .inf (s != r)
  | .inf s, .num r m _ | .num r m _, .inf s => if m = 0 then .inv else .inf (s != r)
  | .num s m e, .num r n k => .num (s != r) (m * n) (e + k)

/-- The exact sum; infinities of opposite sign are invalid (R192), an exact zero takes its sign by R87. -/
def add (rd : Bool) : FVal → FVal → FVal
  | .nan, _ | _, .nan => .nan
  | .inv, _ | _, .inv => .inv
  | .inf s, .inf r => if s = r then .inf s else .inv
  | .inf s, .num .. | .num .., .inf s => .inf s
  | .num s m e, .num r n k =>
    if m = 0 && n = 0 then .num (if s = r then s else rd) 0 0
    else
      let q := min e k
      ofInt (atExp s m e q + atExp r n k q) q rd

def isNan : FVal → Bool
  | .nan => true
  | _ => false

/-- Whether two values that are not NaN compare less; -0 equals +0. -/
def lt : FVal → FVal → Bool
  | .inf s, .inf r => s && !r
  | .inf s, .num .. => s
  | .num .., .inf r => !r
  | .num s m e, .num r n k => let q := min e k; decide (atExp s m e q < atExp r n k q)
  | _, _ => false

def eq : FVal → FVal → Bool
  | .inf s, .inf r => s == r
  | .num s m e, .num r n k => let q := min e k; decide (atExp s m e q = atExp r n k q)
  | _, _ => false

/-- The sign of a value. -/
def sign : FVal → Bool
  | .inf s => s
  | .num s _ _ => s
  | _ => false

/-- Less, with -0 below +0 (R193). -/
def below (a b : FVal) : Bool := a.lt b || (a.eq b && a.sign && !b.sign)

end FVal

/-! ### Rounding (R88-R90) -/

/-- How a word rounds: its mode, .sat, and the draw of the element (R94). -/
structure RMode where
  rnd : Rnd
  sat : Bool
  draw : Nat → Bool

/-- Nearest even, without saturation. -/
def RMode.rne : RMode := ⟨.rn, false, fun _ => false⟩

/-- Round m + (0 or a fraction below 1 when `sticky`) to a multiple of 2^sh: the multiple, and whether a non-zero part was
discarded (R88). -/
def roundTo (md : RMode) (neg : Bool) (m sh : Nat) (sticky : Bool) : Nat × Bool :=
  let k := m / 2 ^ sh
  let r := m % 2 ^ sh
  let ix := r != 0 || sticky
  let up := match md.rnd with
    | .rn => decide (2 ^ sh < 2 * r) || (decide (2 ^ sh = 2 * r) && (sticky || k % 2 == 1))
    | .rz => false
    | .rd => neg && ix
    | .ru => !neg && ix
    | .sr => md.draw (r * 2 ^ 24 / 2 ^ sh)
  (if up then k + 1 else k, ix)

/-- floor_log2 of m * 2^e, for m above 0 (R99). -/
def floorLog2 (m : Nat) (e : Int) : Int := (Nat.log2 m : Int) + e

/-- What a finite value that overflows becomes (R89). -/
def FPar.overflow (p : FPar) (md : RMode) (neg : Bool) : Nat × VFlags :=
  let flags := VF.ovf ||| VF.inx
  match p.inf with
  | none => (p.top, flags ||| VF.satf)
  | some i =>
    if md.sat then (p.top, flags ||| VF.satf)
    else match md.rnd with
    | .rn | .sr => (i, flags)
    | .rz => (p.top, flags)
    | .rd => (if neg then i else p.top, flags)
    | .ru => (if neg then p.top else i, flags)

/-- round_fmt of a finite magnitude m * 2^e, plus a part below 2^e when `sticky` (R88, R89, R91). -/
def FFmt.roundMag (f : FFmt) (md : RMode) (neg : Bool) (m : Nat) (e : Int) (sticky : Bool) : Nat × VFlags :=
  let p := f.par
  let sgn := if neg then 2 ^ (p.width - 1) else 0
  if m = 0 then (sgn, VF.none)
  else
    let x := floorLog2 m e
    let q := max x (1 - p.bias) - p.frac
    let r := if q ≤ e then (m * 2 ^ (e - q).toNat, sticky) else roundTo md neg m (q - e).toNat sticky
    let a := (q + p.frac + p.bias - 1).toNat * 2 ^ p.frac + r.1
    if p.top < a then let o := p.overflow md neg; (sgn + o.1, o.2)
    else (sgn + a, VF.when r.2 VF.inx ||| VF.when (r.2 && decide (x < 1 - p.bias)) VF.unf)

/-- round_fmt (R89): specials, then rounding. A NaN formed by an invalid operation sets INV. -/
def FFmt.round (f : FFmt) (md : RMode) (v : FVal) : Nat × VFlags :=
  let p := f.par
  match v with
  | .nan => (match p.nan with
    | some c => (c, VF.none)
    | none => (0, VF.inv))
  | .inv => (p.nan.getD 0, VF.inv)
  | .inf s =>
    let sgn := if s then 2 ^ (p.width - 1) else 0
    (match p.inf with
    | some i => if md.sat then (sgn + p.top, VF.satf) else (sgn + i, VF.none)
    | none => (sgn + p.top, VF.satf))
  | .num s m e => f.roundMag md s m e false

/-- An integer destination from a floating source: rounded, then clamped (R90). -/
def roundInt (md : RMode) (lo hi : Int) (v : FVal) : Int × VFlags :=
  match v with
  | .nan | .inv => (0, VF.inv)
  | .inf s => (if s then lo else hi, VF.satf)
  | .num s m e =>
    let r := if 0 ≤ e then (m * 2 ^ e.toNat, false) else roundTo md s m (-e).toNat false
    let c := clampTo lo hi (if s then -(r.1 : Int) else r.1)
    (c.1, c.2 ||| VF.when r.2 VF.inx)

end Sys2Proof.Machine
end

