-- ==== Sys2Proof/Machine/Approx.lean ====
section
/-! DEFINITION. The approximate functions and their refinement steps (R108-R110). Each function's exact value is carried
as the floor of a scaled magnitude with enough bits, plus whether a smaller part follows (log 10). -/

namespace Sys2Proof.Machine

/-! ### Square roots, powers, logarithms -/

/-- Newton's descent to the integer square root. -/
def isqrtFrom (n : Nat) : Nat → Nat → Nat
  | 0, x => x
  | k + 1, x => let y := (x + n / x) / 2; if y < x then isqrtFrom n k y else x

/-- The integer square root. -/
def isqrt (n : Nat) : Nat := if n = 0 then 0 else isqrtFrom n 400 (2 ^ (Nat.log2 n / 2 + 1))

/-- Scale of the powers of two. -/
def expScale : Nat := 192

/-- 2^(2^-i) for i from 1, scaled. -/
def expRoots : Nat → Nat → List Nat
  | 0, _ => []
  | k + 1, c => let r := isqrt (c * 2 ^ expScale); r :: expRoots k r

/-- 2^f for a fraction f of 64 bits: the roots of the set bits multiplied, highest first. -/
def expFrac (f : Nat) : List Nat → Nat → Nat → Nat
  | [], _, acc => acc
  | r :: rs, i, acc => expFrac f rs (i - 1) (if bit f i then acc * r / 2 ^ expScale else acc)

/-- Bits of log2 of y / 2^200 in [1, 2), first bit highest. -/
def log2Bits : Nat → Nat → Nat → Nat
  | 0, _, acc => acc
  | k + 1, y, acc =>
    let z := y * y / 2 ^ 200
    if 2 ^ 201 ≤ z then log2Bits k (z / 2) (2 * acc + 1) else log2Bits k z (2 * acc)

/-- A magnitude m * 2^e, with a part below 2^e when `sticky`. -/
structure Mag where
  m : Nat
  e : Int
  sticky : Bool
deriving DecidableEq, Repr

/-- 1 / (m * 2^e). -/
def magRcp (m : Nat) (e : Int) : Mag := ⟨2 ^ 64 / m, -e - 64, 2 ^ 64 % m != 0⟩

/-- 1 / sqrt(m * 2^e). -/
def magRsq (m : Nat) (e : Int) : Mag :=
  let n := if e % 2 = 0 then m else 2 * m
  let k := if e % 2 = 0 then e else e - 1
  let r := isqrt (2 ^ 128 / n)
  ⟨r, -(k / 2) - 64, r * r * n != 2 ^ 128⟩

/-- 2^x for x = (-1)^s * m * 2^e, m above 0. -/
def magExp2 (s : Bool) (m : Nat) (e : Int) : Mag :=
  let x := floorLog2 m e
  if 8 ≤ x then ⟨1, if s then -600 else 512, true⟩
  else if x < -40 then (if s then ⟨2 ^ 64 - 1, -64, true⟩ else ⟨2 ^ 64, -64, true⟩)
  else
    let v := atExp s m e (-64)
    let f := (v % 2 ^ 64).toNat
    if f = 0 then ⟨1, v / 2 ^ 64, false⟩
    else ⟨expFrac f (expRoots 64 (2 ^ (expScale + 1))) 63 (2 ^ expScale), v / 2 ^ 64 - expScale, true⟩

/-- |log2(m * 2^e)| and its sign. -/
def magLog2 (m : Nat) (e : Int) : Bool × Mag :=
  let x := floorLog2 m e
  let k := Nat.log2 m
  if m = 2 ^ k then (decide (x < 0), ⟨x.natAbs, 0, false⟩)
  else
    let l := log2Bits 80 (m * 2 ^ (200 - k)) 0
    if 0 ≤ x then (false, ⟨x.toNat * 2 ^ 80 + l, -80, true⟩)
    else (true, ⟨(-x).toNat * 2 ^ 80 - l - 1, -80, true⟩)

/-- R108: to 12 significant bits, then to .f32; INX and UNF against the exact value. -/
def roundTwice (neg : Bool) (v : Mag) : Nat × VFlags :=
  if v.m = 0 then FFmt.f32.roundMag .rne neg 0 0 false
  else
    let x := floorLog2 v.m v.e
    let q := x - 11
    let r := if q ≤ v.e then (v.m * 2 ^ (v.e - q).toNat, v.sticky) else roundTo .rne neg v.m (q - v.e).toNat v.sticky
    let c := FFmt.f32.roundMag .rne neg r.1 q false
    let ix := r.2 || (c.2 &&& VF.inx) != 0
    (c.1, (c.2 &&& VF.ovf) ||| VF.when ix VF.inx ||| VF.when (ix && decide (x < -126)) VF.unf)

/-! ### The words' functions on .f32 codes (R109, R110) -/

def f32Nan : Nat := 0x7FC00000
def f32Inf (neg : Bool) : Nat := if neg then 0xFF800000 else 0x7F800000
def f32Zero (neg : Bool) : Nat := if neg then 0x80000000 else 0

def rcpApprox (a : Nat) : Nat × VFlags :=
  match FFmt.f32.value a with
  | .inf s => (f32Zero s, 0)
  | .num s m e => if m = 0 then (f32Inf s, 0) else roundTwice s (magRcp m e)
  | _ => (f32Nan, 0)

def rsqApprox (a : Nat) : Nat × VFlags :=
  match FFmt.f32.value a with
  | .inf s => if s then (f32Nan, VF.inv) else (0, 0)
  | .num s m e => if m = 0 then (f32Inf s, 0) else if s then (f32Nan, VF.inv) else roundTwice false (magRsq m e)
  | _ => (f32Nan, 0)

def exp2Approx (a : Nat) : Nat × VFlags :=
  match FFmt.f32.value a with
  | .inf s => (if s then 0 else f32Inf false, 0)
  | .num s m e => if m = 0 then (0x3F800000, 0) else roundTwice false (magExp2 s m e)
  | _ => (f32Nan, 0)

def log2Approx (a : Nat) : Nat × VFlags :=
  match FFmt.f32.value a with
  | .inf s => if s then (f32Nan, VF.inv) else (f32Inf false, 0)
  | .num s m e =>
    if m = 0 then (f32Inf true, 0) else if s then (f32Nan, VF.inv)
    else let r := magLog2 m e; roundTwice r.1 r.2
  | _ => (f32Nan, 0)

/-- The four tests of rcp_refine and rsq_refine, then `f` of the exact values rounded once (R110). -/
def refine (f : FVal → FVal → FVal) (x y : Nat) : Nat × VFlags :=
  match FFmt.f32.value y with
  | .num sy my ey =>
    if my = 0 then (y, 0)
    else match FFmt.f32.value x with
    | .num sx mx ex => if mx = 0 then (y, 0) else FFmt.f32.round .rne (f (.num sx mx ex) (.num sy my ey))
    | .inf _ => (y, 0)
    | _ => (f32Nan, 0)
  | .inf _ => (y, 0)
  | _ => (f32Nan, 0)

def FVal.one : FVal := .num false 1 0
def FVal.sub (a b : FVal) : FVal := FVal.add false a b.neg

/-- y + y * (1 - x * y). -/
def rcpStep (x y : FVal) : FVal := FVal.add false y (FVal.mul y (FVal.sub .one (FVal.mul x y)))
/-- y + y * (1 - x * y * y) / 2. -/
def rsqStep (x y : FVal) : FVal :=
  FVal.add false y
    (FVal.mul (.num false 1 (-1)) (FVal.mul y (FVal.sub .one (FVal.mul (FVal.mul x y) y))))

end Sys2Proof.Machine
end

