-- ==== Sys2Proof/Machine/Elements.lean ====
section
/-! DEFINITION. What the VU computes on sub-elements (R83, R184, R192-R198, R205): a register is the number its 4,096
bytes make, little-endian, so that sub-element n of width w is bits w*n + w - 1 : w*n of it. -/

namespace Sys2Proof.Machine

/-- How a type's sub-elements read. -/
inductive Kind
  | flt (f : FFmt)
  | int (signed : Bool)
  | raw
deriving DecidableEq, Repr

/-- The reading of a type (R61, R138). -/
def kindOf : EType → Kind
  | .f32 => .flt .f32
  | .f16x2 => .flt .f16
  | .bf16x2 => .flt .bf16
  | .e4m3x4 => .flt .e4m3
  | .e5m2x4 => .flt .e5m2
  | .e2m1 => .flt .e2m1
  | .s32 | .s16x2 | .s8x4 | .s4x8 | .x48 => .int true
  | .z32 | .z8x4 => .int false
  | .pl4 | .pl2 | .e8m0 => .raw

/-- Bits of a sub-element's place; the container of .x48 has 64 (R184). -/
def stepOf (t : EType) : Nat := 64 / t.subs2
/-- Bits of a sub-element's value. -/
def widthOfT (t : EType) : Nat := if t = .x48 then 48 else stepOf t
/-- Sub-elements of a row. -/
def rowLen (t : EType) : Nat := 32 * t.subs2

/-- Sub-element `n` of width `w`. -/
def el (w v n : Nat) : Nat := v / 2 ^ (w * n) % 2 ^ w

/-- The integer of a sub-element (R83, R81). -/
def readInt (t : EType) (c : Nat) : Int :=
  match kindOf t with
  | .int true => sext c (widthOfT t)
  | _ => c % 2 ^ stepOf t

/-- The code of an integer, wrapped; .x48 sign-extended into its container (R81). -/
def writeInt (t : EType) (v : Int) : Nat := if t = .x48 then toBitsN 64 (wrap48 v) else toBitsN (stepOf t) v

def isSigned (t : EType) : Bool := kindOf t == .int true
def loOf (t : EType) : Int := intLo (isSigned t) (widthOfT t)
def hiOf (t : EType) : Int := intHi (isSigned t) (widthOfT t)

/-- An integer result: clamped with .sat, else wrapped (R90, R192). -/
def finInt (t : EType) (sat : Bool) (v : Int) : Nat × VFlags :=
  if sat then let c := clampTo (loOf t) (hiOf t) v; (writeInt t c.1, c.2) else (writeInt t v, 0)

/-! ### Arithmetic (R192, R193) -/

inductive Arith | add | sub | mul | fma | fms
deriving DecidableEq, Repr

def Arith.onF (o : Arith) (rd : Bool) (a b c : FVal) : FVal :=
  match o with
  | .add => FVal.add rd a b
  | .sub => FVal.add rd a b.neg
  | .mul => FVal.mul a b
  | .fma => if a.isNan || b.isNan || c.isNan then .nan else FVal.add rd (FVal.mul a b) c
  | .fms => if a.isNan || b.isNan || c.isNan then .nan else FVal.add rd (FVal.mul a b) c.neg

def Arith.onI (o : Arith) (a b c : Int) : Int :=
  match o with
  | .add => a + b
  | .sub => a - b
  | .mul => a * b
  | .fma => a * b + c
  | .fms => a * b - c

def arithEl (t : EType) (o : Arith) (md : RMode) (a b c : Nat) : Nat × VFlags :=
  match kindOf t with
  | .flt f => f.round md (o.onF (md.rnd == .rd) (f.value a) (f.value b) (f.value c))
  | _ => finInt t md.sat (o.onI (readInt t a) (readInt t b) (readInt t c))

/-- The lesser, or with `up` the greater (R193). -/
def pick (t : EType) (up : Bool) (a b : Nat) : Nat :=
  match kindOf t with
  | .flt f =>
    let x := f.value a
    let y := f.value b
    if x.isNan || y.isNan then f.par.nan.getD 0
    else if up then (if x.below y then b else a) else (if y.below x then b else a)
  | _ => if up then writeInt t (max (readInt t a) (readInt t b)) else writeInt t (min (readInt t a) (readInt t b))

def absEl (t : EType) (sat : Bool) (a : Nat) : Nat × VFlags :=
  match kindOf t with
  | .flt f => (if (f.value a).isNan then f.par.nan.getD 0 else a % 2 ^ (f.par.width - 1), 0)
  | _ => if isSigned t then finInt t sat (readInt t a).natAbs else (a, 0)

/-- VNEG; an unsigned type gives (2^w - a) mod 2^w, .sat or not (R193; log 11). -/
def negEl (t : EType) (sat : Bool) (a : Nat) : Nat × VFlags :=
  match kindOf t with
  | .flt f =>
    let w := 2 ^ (f.par.width - 1)
    (if (f.value a).isNan then f.par.nan.getD 0 else if a < w then a + w else a - w, 0)
  | _ => finInt t (sat && isSigned t) (-readInt t a)

/-! ### Shifts (R195) -/

def shlEl (t : EType) (sat : Bool) (a b : Nat) : Nat × VFlags :=
  let n := b % 2 ^ widthOfT t
  let v := readInt t a
  if n < widthOfT t then finInt t sat (v * 2 ^ n)
  else if sat && v ≠ 0 then (writeInt t (if v < 0 then loOf t else hiOf t), VF.satf)
  else (0, 0)

def shrEl (t : EType) (a b : Nat) : Nat := let n := b % 2 ^ widthOfT t; if n < widthOfT t then a / 2 ^ n else 0

/-- floor(sext(a) / 2^n); from the width on, 0 or all ones by a's sign. -/
def sarEl (t : EType) (a b : Nat) : Nat :=
  let w := widthOfT t
  let n := min (b % 2 ^ w) w
  let v : Int := sext a w
  writeInt t (v.fdiv (2 ^ n))

/-! ### Compares (R196) -/

def cmpF (c : VCond) (a b : FVal) : Bool :=
  let nan := a.isNan || b.isNan
  match c with
  | .eq => !nan && a.eq b
  | .ne => nan || !a.eq b
  | .lt => !nan && a.lt b
  | .le => !nan && (a.lt b || a.eq b)
  | .gt => !nan && b.lt a
  | .ge => !nan && (b.lt a || a.eq b)
  | .uo => nan
  | .or => !nan

def cmpI (c : VCond) (a b : Int) : Bool :=
  match c with
  | .eq => a == b
  | .ne => a != b
  | .lt => decide (a < b)
  | .le => decide (a ≤ b)
  | .gt => decide (b < a)
  | .ge => decide (b ≤ a)
  | .uo | .or => false

def cmpEl (t : EType) (c : VCond) (a b : Nat) : Nat :=
  let r := match kindOf t with
    | .flt f => cmpF c (f.value a) (f.value b)
    | _ => cmpI c (readInt t a) (readInt t b)
  if r then 2 ^ stepOf t - 1 else 0

/-- A sub-element is non-zero; .x48 by bits 47:0 (R81). The manual does not say whether its code or its value counts (R190): the
code does here, so that a floating -0.0 is non-zero (log 64). -/
def nonzero (t : EType) (a : Nat) : Bool := a % 2 ^ widthOfT t != 0

/-! ### Conversion (R198) -/

/-- The source value of VCVT as a floating value; integers keep +0. -/
def cvtValue (t : EType) (c : Nat) : FVal :=
  match kindOf t with
  | .flt f => f.value c
  | .int _ => FVal.ofInt (readInt t c) 0 false
  | .raw => scaleValue c

def cvtEl (dt st : EType) (md : RMode) (c : Nat) : Nat × VFlags :=
  match kindOf dt, kindOf st with
  | .flt f, _ => f.round md (cvtValue st c)
  | _, .flt _ => let r := roundInt md (loOf dt) (hiOf dt) (cvtValue st c); (writeInt dt r.1, r.2)
  | _, _ => finInt dt md.sat (readInt st c)

/-- A sub-element as written: an .x48 container gets bits 63:48 equal to bit 47 (R81). -/
def moveEl (t : EType) (c : Nat) : Nat := if t = .x48 then writeInt t (sext c 48) else c

/-! ### Reductions and prefixes (R205, R206) -/

/-- The running state of a reduction: the exact sum, or the code so far; none before the first element. -/
inductive Acc
  | empty
  | sum (v : FVal)
  | code (c : Nat)
  | int (v : Int)
deriving DecidableEq, Repr

inductive RKind | add | min | max | and | or | xor
deriving DecidableEq, Repr

/-- The identity's code (R205). -/
def identity (t : EType) (o : RKind) : Nat :=
  match o with
  | .add | .or | .xor => 0
  | .and => 2 ^ stepOf t - 1
  | .min => match kindOf t with
    | .flt f => f.par.inf.getD f.par.top
    | _ => writeInt t (hiOf t)
  | .max => match kindOf t with
    | .flt f => 2 ^ (f.par.width - 1) + f.par.inf.getD f.par.top
    | _ => writeInt t (loOf t)

/-- One more element. -/
def accStep (t : EType) (o : RKind) (rd : Bool) (s : Acc) (c : Nat) : Acc :=
  match o with
  | .and => match s with | .code d => .code (d &&& c) | _ => .code c
  | .or => match s with | .code d => .code (d ||| c) | _ => .code c
  | .xor => match s with | .code d => .code (d ^^^ c) | _ => .code c
  | .min => match s with | .code d => .code (pick t false d c) | _ => .code (pick t false c c)
  | .max => match s with | .code d => .code (pick t true d c) | _ => .code (pick t true c c)
  | .add =>
    match kindOf t with
    | .flt f =>
      let v := f.value c
      match s with
      | .sum u => .sum (FVal.add rd u v)
      | _ => .sum v
    | _ => match s with
      | .int u => .int (u + readInt t c)
      | _ => .int (readInt t c)

/-- The result at a position. -/
def accOut (t : EType) (o : RKind) (md : RMode) (s : Acc) : Nat × VFlags :=
  match s with
  | .empty => (identity t o, 0)
  | .code c => (moveEl t c, 0)
  | .int v => finInt t md.sat v
  | .sum v => match kindOf t with
    | .flt f => f.round md v
    | _ => (0, 0)

/-! ### Six-bit codes and block formats (R82, R95-R98, R199, R200) -/

/-- How a block format's element is kept: type of its place, floating format or integer width, emax. -/
structure BlkPar where
  place : EType
  flt : Option FFmt
  bits : Nat
  emax : Int

def blkPar : BlkFmt → BlkPar
  | .s8x4 => ⟨.s8x4, none, 8, 6⟩
  | .e4m3x4 => ⟨.e4m3x4, some .e4m3, 8, 8⟩
  | .e5m2x4 => ⟨.e5m2x4, some .e5m2, 8, 15⟩
  | .s4x8 => ⟨.s4x8, none, 4, 2⟩
  | .e2m1 => ⟨.e2m1, some .e2m1, 4, 2⟩
  | .s6 => ⟨.s8x4, none, 6, 4⟩
  | .e2m3 => ⟨.e4m3x4, some .e2m3, 6, 2⟩

/-- Whether a magnitude is below another. -/
def magLt (m : Nat) (e : Int) (n : Nat) (k : Int) : Bool :=
  let q := min e k
  decide (m * 2 ^ (e - q).toNat < n * 2 ^ (k - q).toNat)

/-- amax of a block; none where an input is Inf or NaN (R95, R96). -/
def amax (vs : List FVal) : Option (Nat × Int) :=
  vs.foldl (fun r v =>
    match r, v with
    | some (m, e), .num _ n k => some (if magLt m e n k then (n, k) else (m, e))
    | _, _ => none) (some (0, 0))

/-- The scale code of a block and its flags (R95, R96). -/
def blockScale (p : BlkPar) (vs : List FVal) : Nat × VFlags :=
  match amax vs with
  | none => (0xFF, VF.blk)
  | some (m, e) =>
    if m = 0 then (0, 0)
    else
      let x := floorLog2 m e - p.emax
      if x < -127 then (0, VF.unf) else ((x + 127).toNat, 0)

/-- An element of a block with a scale (R97); the integers clamp to their symmetric range, .s6 is sign-extended. -/
def quantEl (p : BlkPar) (md : RMode) (scale : Nat) (v : FVal) : Nat × VFlags :=
  if scale = 0xFF then (0, 0)
  else match v with
  | .num s m e =>
    let v := FVal.num s m (e - scale + 127)
    match p.flt with
    | some f => f.round { md with sat := true } v
    | none =>
      let hi := intHi true p.bits
      let r := roundInt md (-hi) hi v
      (toBitsN (stepOf p.place) r.1, r.2)
  | _ => (0, 0)

/-- VDQMX of one element (R98, R200): six-bit forms read bits 5:0. -/
def dequantEl (p : BlkPar) (md : RMode) (scale c : Nat) : Nat × VFlags :=
  if scale = 0xFF then (f32Nan, 0)
  else
    let v := match p.flt with
      | some f => f.value (c % 2 ^ p.bits)
      | none => FVal.ofInt (sext c p.bits) 0 false
    match v with
    | .num s m e => FFmt.f32.round md (.num s m (e + scale - 127))
    | v => FFmt.f32.round md v

end Sys2Proof.Machine
end

