-- ==== Sys2Proof/Machine/Operands.lean ====
section
/-! DEFINITION. The operand forms of the VU and TDA: views, operand file, latches, constants, the ring scalar (R59-R70), the
checks of a block (R64, R77, R375), and what a result writes (R70, R191). -/

namespace Sys2Proof.Machine

/-! ### Views (R60-R64) -/

structure View where
  etype : BitVec 4
  shape : BitVec 2
  /-- Bytes of the index step, the extent, the row pitch, the origin. -/
  istep : Nat
  extent : Nat
  pitch : Nat
  base : Nat
deriving DecidableEq, Repr

/-- The fields of a view register (R60). -/
def View.of (v : DWord) : View :=
  { etype := v.extractLsb' 56 4
    shape := v.extractLsb' 54 2
    istep := 256 * (v.extractLsb' 42 12).toNat
    extent := 256 * (v.extractLsb' 30 12).toNat
    pitch := 64 * (v.extractLsb' 18 12).toNat
    base := 256 * (v.extractLsb' 0 11).toNat }

def Tile.view (x : Tile) (v : BitVec 3) : View := View.of (x.vw.get 0#64 v.toNat)

/-- Runs of a block of rows: `k` rows of `u` bytes, `n` bytes in all. -/
def rowRuns (at_ pitch u : Nat) : Nat → Nat → List (Nat × Nat)
  | 0, _ => []
  | k + 1, n => if n = 0 then [] else (at_, min u n) :: rowRuns (at_ + pitch) pitch u k (n - min u n)

/-- The first `n` bytes of the block m v.i as the VU reads it (R62). -/
def View.block (w : View) (i : BitVec 3) (n : Nat) : List (Nat × Nat) :=
  let b := w.base + i.toNat * w.istep
  if w.shape = 1#2 then rowRuns b w.pitch 64 64 n else rowRuns b w.pitch 256 16 n

/-- A VU access through an accumulator view that runs past it (R64). -/
def View.past (w : View) (i : BitVec 3) : Bool :=
  w.shape == 2#2 && decide (w.extent < i.toNat * w.istep + 15 * w.pitch + 256)

/-- The index of a latch in the tile's latch memory. -/
def Latch.index : Latch → Nat
  | .alu => 0
  | .fma => 1
  | .sfu => 2
  | .perm => 3
  | .red => 4
  | .acc => 5

/-- Where the first `n` bytes of an operand lie; none for a constant or the ring scalar (R65). -/
def opndRuns (x : Tile) (o : Opnd) (n : Nat) : Option (Space × List (Nat × Nat)) :=
  match o with
  | .main v i => some (.reg, (x.view v).block i n)
  | .ofile e => some (.ofl, [(4096 * e.toNat, n)])
  | .latch l => some (.lat, [(4096 * Latch.index l, n)])
  | .const _ | .ring => none

/-- Small constants (R67). -/
def smallConst (c : BitVec 5) : Nat :=
  match c.toNat with
  | 0x10 => 0
  | 0x11 => 0x3F800000
  | 0x12 => 0x40000000
  | 0x13 => 0x3F000000
  | 0x14 => 0x3E800000
  | 0x15 => 0x40800000
  | 0x16 => 0xBF800000
  | 0x17 => 0x80000000
  | 0x18 => 0x7F800000
  | 0x19 => 0xFF800000
  | 0x1A => 0x7FC00000
  | 0x1B => 0x7F7FFFFF
  | 0x1C => 0x00800000
  | 0x1D => 0xFFFFFFFF
  | 0x1E => 0x7FFFFFFF
  | n => n

/-- A lane pattern in all 1,024 lanes. -/
def splat (p : Nat) : Nat := p * ((2 ^ 32768 - 1) / (2 ^ 32 - 1))

/-- Bytes of a memory as one number, little-endian. -/
def Mem.big (m : Mem) (a n : Nat) : Nat :=
  (m.filter fun e => decide (a ≤ e.1) && decide (e.1 < a + n)).foldl (fun acc e => acc + e.2.toNat * 2 ^ (8 * (e.1 - a))) 0

/-- Runs joined in order. -/
def Mem.bigRuns (m : Mem) : List (Nat × Nat) → Nat
  | [] => 0
  | r :: rs => Mem.big m r.1 r.2 + 2 ^ (8 * r.2) * Mem.bigRuns m rs

/-- The value of an operand (R65-R68). -/
def Tile.opnd (x : Tile) (o : Opnd) (n : Nat) : Nat :=
  match o with
  | .const c => splat (smallConst c)
  | .ring => splat (x.pvu.fp.headD 0).toNat
  | o => match opndRuns x o n with
    | some (sp, rs) => Mem.bigRuns (x.store.get sp) rs
    | none => 0

/-! ### Checks -/

/-- R64's check of every level-00 operand of a word. -/
def shapeBad (x : Tile) (os : List Opnd) : Bool :=
  os.any fun o => match o with
    | .main v i => (x.view v).past i
    | _ => false

/-- The words of runs. -/
def wordsOf (rs : List (Nat × Nat)) : List Nat :=
  rs.flatMap fun r => (List.range ((r.1 + r.2 + 3) / 4 - r.1 / 4)).map (· + r.1 / 4)

/-- The runs of an accumulator's rows. -/
def accRuns (base pitch e m n : Nat) (cs : Bool) : List (Nat × Nat) :=
  let n := if cs then n + 1 else n
  (List.range (if cs then m + 1 else m)).map fun y => (base + y * pitch, n * e)

/-- The register-space ranges that a queued command will write. -/
def TOp.writes : TOp → List (Nat × Nat)
  | .mac wide base pitch m n _ cs => accRuns base pitch (if wide then 8 else 4) m n cs
  | .zero base pitch e m n cs => accRuns base pitch e m n cs
  | .ldb _ _ _ _ => []
  | .race lands _ _ => lands.flatMap fun l => match l with
    | .bytes .reg runs => runs.map fun r => (r.1, r.2.length)
    | _ => []

/-- The first register-space word of runs with a write pending, as R77's mode sees it: from the cycle in which the write's word
issues, which for a command of the array is its push (R218). Writes of the array count unless left out (R221). -/
def pendingWord (x : Tile) (rs : List (Nat × Nat)) (tda : Bool) : Option Nat :=
  (wordsOf rs).find? fun w => (x.pend.any fun p => (tda || p.eng != .tda) && p.hits .reg w)
    || (tda && x.tda.queue.any fun c => (TOp.writes c.op).any fun r => overlaps (4 * w) 4 r.1 r.2)

/-- The first pending word among the operands a word reads (R77). -/
def debugHit (x : Tile) (srcs : List (Opnd × Nat)) : Option Nat :=
  if x.stop.pbm then
    (srcs.filterMap fun o => match o.1 with
      | .main v i => pendingWord x ((x.view v).block i o.2) true
      | _ => none).head?
  else none

namespace State

/-- ECC of the words of runs of a memory, read by an engine (R375). -/
def touchRuns (s : State) (t : Nat) (e : Eng) (sp : EccSpace) (rs : List (Nat × Nat)) : State × Option Nat :=
  rs.foldl (fun (q : State × Option Nat) r =>
    match q.2 with
    | some _ => q
    | none => q.1.touch t (e.code, 0) sp (r.1 / 4) ((r.1 + r.2 - 1) / 4)) (s, none)

/-- ECC of the operands a word reads, in their order (R375). -/
def touchOpnds (s : State) (t : Nat) (e : Eng) (srcs : List (Opnd × Nat)) : State × Option Nat :=
  let x := s.tile t
  srcs.foldl (fun (q : State × Option Nat) o =>
    match q.2, opndRuns x o.1 o.2 with
    | none, some (sp, rs) => q.1.touchRuns t e sp.ecc rs
    | _, _ => q) (s, none)

/-- The checks of a word's vector operands in the order of their cause codes (R298), then its sources: each the operand and
the bytes of it that are read. `pre` holds the word's own checks, which stand between. -/
def sources (s : State) (t : Nat) (e : Eng) (named : List Opnd) (pre : Option Act) (srcs : List (Opnd × Nat)) :
    Except Act (State × List Nat) :=
  let x := s.tile t
  if shapeBad x named then .error (.trap Cause.shape 0)
  else match pre with
  | some e => .error e
  | none =>
    match debugHit x srcs with
    | some w => .error (.trap Cause.debugRead (BitVec.ofNat 64 (4 * w)))
    | none =>
      match s.touchOpnds t e srcs with
      | (s, some w) => .error (.fail s Cause.ecc (BitVec.ofNat 64 w))
      | (s, none) => .ok (s, srcs.map fun o => (s.tile t).opnd o.1 o.2)

end State

/-! ### Results (R70, R191) -/

/-- All nibbles of a register. -/
def allNibbles : Nat := 2 ^ 8192 - 1

/-- The byte mask of two nibble bits. -/
def nibByte (b : Nat) : Byte := BitVec.ofNat 8 ((b % 2) * 15 + (b / 2 % 2) * 240)

/-- Number of bits of a run of `n` bytes at an offset, as bytes. -/
def bytesAt (v off n : Nat) : List Byte := leBytes n (v / 2 ^ (8 * off) % 2 ^ (8 * n))

/-- Runs with their offset in the register. -/
def withOffsets : Nat → List (Nat × Nat) → List (Nat × Nat × Nat)
  | _, [] => []
  | off, (a, n) :: r => (a, n, off) :: withOffsets (off + n) r

/-- What lands in runs of a memory: value `v`, nibbles `wr` written. Where an accumulator view's rows overlap (RSTRIDE below 4),
the manual does not say which row's byte remains: the higher row's does here (R62; log 64). -/
def landRuns (sp : Space) (runs : List (Nat × Nat)) (v wr : Nat) : List Land :=
  let rs := withOffsets 0 runs
  let m (off n : Nat) : Nat := wr / 2 ^ (2 * off) % 2 ^ (2 * n)
  let live := rs.filter fun r => m r.2.2 r.2.1 != 0
  if live.isEmpty then []
  else if live.all fun r => m r.2.2 r.2.1 == 2 ^ (2 * r.2.1) - 1 then
    [.bytes sp (live.map fun r => (r.1, bytesAt v r.2.2 r.2.1))]
  else
    [.part sp (live.map fun r => (r.1, (bytesAt v r.2.2 r.2.1).zipIdx.map fun b =>
      (b.1, nibByte (wr / 2 ^ (2 * (r.2.2 + b.2))))))]

/-- The landings of a result in its destination and its latch (R70); a latch-only destination lands once. -/
def resultLands (x : Tile) (lat : Nat) (d : Opnd) (l : Latch) (v wr : Nat) : List (Nat × Land) :=
  let latch := landRuns .lat [(4096 * Latch.index l, 4096)] v wr
  let dest := match d with
    | .latch _ => []
    | d => match opndRuns x d 4096 with
      | some (sp, rs) => landRuns sp rs v wr
      | none => []
  (dest ++ latch).map fun a => (lat, a)

/-- Issue occupancy of a full-register word: a third level-00 source costs a cycle (R69, R186). -/
def vuOcc (srcs : List Opnd) : Nat := if 3 ≤ (srcs.filter fun o => match o with
  | .main _ _ => true
  | _ => false).length then 5 else 4

end Sys2Proof.Machine
end

