-- ==== Sys2Proof/Machine/Region.lean ====
section
/-! DEFINITION. Region tables, logical tiles and releases (R26, R121, R123, R324). -/

namespace Sys2Proof.Machine

/-- A region leaf entry (R324). -/
structure RegionEnt where
  at_ : Nat
  sc : Bool
  state : Nat
  owner : Nat
  taker : Nat
  nrel : Nat
deriving DecidableEq, Repr

/-- The 64 bits of an entry (R324). -/
def RegionEnt.bits (e : RegionEnt) : Nat :=
  2 ^ 63 + (if e.sc then 2 ^ 62 else 0) + e.state * 2 ^ 59 + e.owner * 2 ^ 50 + e.taker * 2 ^ 41 + e.nrel % 2 ^ 41

/-- The physical tile of a logical tile under a binding (R26). -/
def Part.phys (q : Part) (lt : Nat) : Nat := 64 * (q.bind.getD (lt / 64) 0) + lt % 64
/-- Logical tiles of a partition (R26). -/
def Part.tiles (q : Part) : Nat := 64 * q.bind.length

namespace State

/-- A directory entry: none without V, an error when malformed (R324). -/
def regionDir (s : State) (q : Part) (i : Nat) : Except Unit (Option Nat) :=
  let e := s.physNum (0x200000 * q.rgn.toNat + 8 * i) 8
  if bits e 62 12 ≠ 0 || (bit e 63 && decide (q.nleaf.toNat ≤ bits e 11 0)) then .error ()
  else .ok (if bit e 63 then some (bits e 11 0) else none)

/-- Where the leaf entry of a granule lies. -/
def regionAt (s : State) (q : Part) (va : Nat) : Option Nat :=
  match s.regionDir q (bits va 51 36) with
  | .ok (some k) => some (0x200000 * q.rgn.toNat + 0x80000 + 0x40000 * k + 8 * bits va 35 21)
  | _ => none

/-- The region-table entry of a granule; a malformed one is none (R324). -/
def region (s : State) (p : Nat) (va : Nat) : Option RegionEnt :=
  let q := s.part p
  match s.regionAt q va with
  | none => none
  | some a =>
    let e := s.physNum a 8
    let r : RegionEnt := ⟨a, bit e 62, bits e 61 59, bits e 58 50, bits e 49 41, bits e 40 0⟩
    if bit e 63 && decide (r.state ≤ 3) && decide (r.owner < q.tiles) then some r else none

def setRegion (s : State) (e : RegionEnt) : State := s.physWrite e.at_ (leBytes 8 e.bits)

/-- The watermark passes every release, in order, whose covered copies are all performed at package scope (R121). -/
def advance (live : Nat → Bool) (wm : Nat) : List (Nat × List Nat) → Nat × List (Nat × List Nat)
  | [] => (wm, [])
  | r :: rest => if r.2.any live then (wm, r :: rest) else advance live r.1 rest

/-- WATERMARK_ADVANCE of a die: a copy that has retired, or has ended in a fault, is no longer listed. -/
def raiseWatermark (s : State) (d : Nat) : State :=
  s.modDie d fun x =>
    let a := advance (fun id => s.copies.any fun c => c.id == id) x.wm x.rels
    { x with wm := a.1, rels := a.2 }

/-- A die-scope release takes its die's next number. It covers the copies that have landed and not retired among `cover`; they
retire at the end of the 4,095th package tick after it or before, so that 4,096 package ticks after the release every die sees the
watermark at its number (R120, R121). -/
def release (s : State) (d : Nat) (cover : Copy → Bool) : State :=
  let mine (c : Copy) : Bool := c.st == .landed && cover c
  let ids := (s.copies.filter mine).map (·.id)
  let s := s.modDie d fun x => { x with rel := x.rel + 1, rels := x.rels ++ [(x.rel + 1, ids)] }
  let s := { s with copies := s.copies.map fun c => if mine c then { c with retireAt := min c.retireAt (s.ticks + 4095) } else c }
  s.raiseWatermark d

/-- HANDOVER_OFFER: in a tick after the HAND, once every covered copy is performed at die scope, the giver's die assigns
the release number (R123). `g` is the granule's virtual address. -/
def offer (s : State) (p g : Nat) : State :=
  match s.region p g with
  | some e =>
    let t := (s.part p).phys e.owner
    let mine (c : Copy) : Bool := c.tile == t && c.gran.contains (g / 0x200000)
    let busy := s.copies.any fun c => mine c
      && (c.st == .armed || c.st == .buffered || c.st == .left || c.st == .held || c.st == .started)
    if e.state ≠ 1 || busy then s
    else
      let s := s.release (dieOf t) mine
      s.setRegion { e with state := 2, nrel := (s.die (dieOf t)).rel }
  | none => s

end State

end Sys2Proof.Machine
end

