-- ==== Sys2Proof/Machine/Routes.lean ====
section
/-! DEFINITION. Sites, routes and links of the mesh (R16, R18, R19, R365, R370, R371). -/

namespace Sys2Proof.Machine

/-- Numbers from one to another, both included. -/
def span (a b : Nat) : List Nat :=
  if a ≤ b then (List.range (b + 1 - a)).map (a + ·) else ((List.range (a + 1 - b)).map (b + ·)).reverse

/-- The sites of a route, ends included: along the row, then along the column (R19). -/
def routeSites (a b : Nat) : List Nat :=
  (span (a % 3) (b % 3)).map (3 * (a / 3) + ·) ++ ((span (a / 3) (b / 3)).drop 1).map (3 * · + b % 3)

/-- The mesh link that joins two neighbouring sites (R365). -/
def linkBetween (a b : Nat) : Nat :=
  let lo := min a b
  if a / 3 = b / 3 then 2 * (lo / 3) + lo % 3 else 6 + 2 * (lo % 3) + lo / 3

/-- The links of a route. -/
def routeLinks : List Nat → List Nat
  | a :: b :: r => linkBetween a b :: routeLinks (b :: r)
  | _ => []

/-- The two sites of a mesh link (R19). -/
def linkSites (k : Nat) : Nat × Nat :=
  if k < 6 then (3 * (k / 2) + k % 2, 3 * (k / 2) + k % 2 + 1)
  else ((k - 6) / 2 + 3 * ((k - 6) % 2), (k - 6) / 2 + 3 * ((k - 6) % 2) + 3)

/-- The die that serves a link or port (R365, R370). -/
def linkServer (k : Nat) : Nat :=
  if k < 12 then
    let (a, b) := linkSites k
    match siteDie a, siteDie b with
    | some x, some y => min x y
    | some x, none => x
    | none, some y => y
    | none, none => 0
  else (siteDie (nodeSite (k - 16))).getD 0

namespace State

/-- The site that serves a physical address: its memory node, the host attachment, a port (R16, R371, R372). -/
def siteOf (s : State) (pa : Nat) : Nat :=
  if hostBase ≤ pa then 4
  else match s.portOf pa with
  | some p => nodeSite p
  | none => nodeSite (bits pa 39 37)

/-- Reads of 8-byte words, one after the other. -/
def touchWords (s : State) (as : List Nat) : State × Option Nat :=
  as.foldl (fun (q : State × Option Nat) a =>
    match q.2 with
    | some _ => q
    | none => q.1.touchHbm a 8) (s, none)

/-- The words that a lookup of a granule reads: its directory entry and its leaf entry (R324). -/
def regionWords (s : State) (p va : Nat) : List Nat :=
  let q := s.part p
  (0x200000 * q.rgn.toNat + 8 * bits va 51 36) :: (s.regionAt q va).toList

/-- The request or response route crosses an uncore that is down or a link that has failed (R19, R131, R368). -/
def routeBad (s : State) (a b : Nat) : Bool :=
  let there := routeSites a b
  let back := routeSites b a
  (there ++ back).any (fun x => s.pkg.down.contains x)
    || (routeLinks there ++ routeLinks back).any fun k => (s.link k).st == .failed

/-- An access from a site to a physical address cannot be served (R131, R368). -/
def addrBad (s : State) (site pa : Nat) : Bool :=
  s.routeBad site (s.siteOf pa) || match s.portOf pa with
    | some p => (s.link (16 + p)).st == .failed
    | none => false

/-- The 4 KiB host pages of a range of the host window, with a PASID (R374). -/
def hostPages (pasid : BitVec 20) (pa n : Nat) : List (BitVec 20 × Nat) :=
  (List.range ((pa + n - 1 - hostBase) / 4096 + 1 - (pa - hostBase) / 4096)).map fun i => (pasid, (pa - hostBase) / 4096 + i)

/-- A link takes no new flit (R368). -/
def linkHolds (s : State) (k : Nat) : Bool :=
  let st := (s.link k).st
  st == .paused || st == .training || st == .failed

/-- An access from a site to a physical address is held at a link of its route (R368). -/
def addrHeld (s : State) (site pa : Nat) : Bool :=
  let far := s.siteOf pa
  (routeLinks (routeSites site far) ++ routeLinks (routeSites far site)).any s.linkHolds || match s.portOf pa with
    | some p => s.linkHolds (16 + p)
    | none => false

/-- An access of die `d` to `n` bytes is held: an area of a context may end at another node than it begins (R368). -/
def areaHeld (s : State) (d pa n : Nat) : Bool :=
  s.addrHeld (Config.dieSite d) pa || s.addrHeld (Config.dieSite d) (pa + n - 1)

end State

end Sys2Proof.Machine
end

