-- ==== Sys2Proof/Machine/Tokens.lean ====
section
/-! DEFINITION. The CTL's synchronisation, ownership, time and control words, GUARD, and the steps that answer a word no
engine can run (R31, R48-R50, R79, R120-R123, R127, R128, R134, R135, R176-R183). -/

namespace Sys2Proof.Machine

/-- Landing cycles of the stores and atomics of an engine that have not landed: what a release waits for (R128). -/
def Tile.storesDue (x : Tile) (e : Eng) : List Nat :=
  (x.pend.filter fun p => p.eng == e && match p.land with
    | .bytes .scr _ => true
    | .atomic _ _ _ _ _ _ => true
    | _ => false).map (·.due)

/-- The tile whose CTL acts; a firmware core never runs these (R287). -/
def onTile (s : State) (f : Nat → Tile → Act) : Act :=
  match s.cur with
  | .eng t _ => f t (s.tile t)
  | _ => .wait

namespace State

/-- Add to a counted token (R49). -/
def addToken (s : State) (t : Nat) (k : BitVec 3) (n : Nat) : State :=
  s.modTile t fun x => { x with sync := { x.sync with
    k := x.sync.k.set 0#16 k.toNat (x.sync.k.get 0#16 k.toNat + BitVec.ofNat 16 n) } }

def subToken (s : State) (t : Nat) (k : BitVec 3) (n : Nat) : State :=
  s.modTile t fun x => { x with sync := { x.sync with
    k := x.sync.k.set 0#16 k.toNat (x.sync.k.get 0#16 k.toNat - BitVec.ofNat 16 n) } }

/-- A semaphore signal saturates at 65,535 and marks the tile (R50). -/
def signalSem (s : State) (t i : Nat) : State :=
  s.modTile t fun x =>
    let v := x.sync.sem.get 0#16 i
    if v = 0xFFFF#16 then { x with sync := { x.sync with semSat := x.sync.semSat.set false i true } }
    else { x with sync := { x.sync with sem := x.sync.sem.set 0#16 i (v + 1) } }

def takeSem (s : State) (t i : Nat) : State :=
  s.modTile t fun x => { x with sync := { x.sync with sem := x.sync.sem.set 0#16 i (x.sync.sem.get 0#16 i - 1) } }

end State

def Tile.token (x : Tile) (k : BitVec 3) : Nat := (x.sync.k.get 0#16 k.toNat).toNat
def Tile.semCount (x : Tile) (i : Nat) : Nat := (x.sync.sem.get 0#16 i).toNat

/-! ### Counted tokens (R49, R176) -/

/-- KSIG: a release; it stalls while the count has no room. A register count of 0 completes at once. -/
def tokenSignal (h : Ring) (k : BitVec 3) (n : Ctl → BitVec 16) : State → Out :=
  ctlWord (.tile h .c) fun s => onTile s fun t x =>
    let n := (n x.ctl).toNat
    if n = 0 then .go s Eff.nil
    else if !(x.storesDue .ctl).isEmpty || decide (65535 < x.token k + n) then .wait
    else .go (s.addToken t k n) Eff.nil

/-- KWAIT. -/
def tokenWait (h : Ring) (k : BitVec 3) (n : Ctl → BitVec 16) : State → Out :=
  ctlWord (.tile h .c) fun s => onTile s fun t x =>
    let n := (n x.ctl).toNat
    if x.token k < n then .wait else .go (s.subToken t k n) Eff.nil

def execKsig (h : Ring) (k : BitVec 3) (n : BitVec 16) : State → Out := tokenSignal h k fun _ => n
def execKsigReg (h : Ring) (k : BitVec 3) (ra : SReg) : State → Out :=
  tokenSignal h k fun c => (c.rS ra).extractLsb' 0 16
def execKwait (h : Ring) (k : BitVec 3) (n : BitVec 16) : State → Out := tokenWait h k fun _ => n
def execKwaitReg (h : Ring) (k : BitVec 3) (ra : SReg) : State → Out :=
  tokenWait h k fun c => (c.rS ra).extractLsb' 0 16

/-! ### Semaphores (R50, R72, R177) -/

def execSemsig (h : Ring) (i : BitVec 4) : State → Out :=
  ctlWord (.tile h .cx) fun s => onTile s fun t x =>
    if (x.storesDue .ctl).isEmpty then .go (s.signalSem t i.toNat) Eff.nil else .wait

/-- In an exchange phase the wait holds the tile (R72). -/
def execSemwait (h : Ring) (i : BitVec 4) : State → Out :=
  ctlWord (.tile h .cx) fun s => onTile s fun t x =>
    if x.semCount i.toNat ≠ 0 then .go (s.takeSem t i.toNat) Eff.nil
    else if x.seat.phase % 2 = 1 then .hold s else .wait

/-! ### FIFOs (R127, R128, R178) -/

/-- An element pushed in a cycle, poppable after it once the producer's scratchpad writes have landed. -/
def fifoEl (x : Tile) (e : Eng) (v : Word) : Fel := ⟨v, maxOf (x.cyc + 1) (x.storesDue e), false⟩

def execPush (h : Ring) (ra : SReg) : State → Out :=
  ctlWord (.tile h .c) fun s => onTile s fun t x =>
    if 16 ≤ x.sync.fqs.length then .wait
    else .go (s.modTile t fun y => { y with sync := { y.sync with fqs := y.sync.fqs ++ [fifoEl x .ctl (x.ctl.rS ra)] } })
      Eff.nil

def execPop (h : Ring) (rd : SReg) (f : BitVec 3) : State → Out :=
  ctlWord (.tile h .c) fun s => onTile s fun t x =>
    match if f = 1#3 then x.sync.fqr else x.sync.fqa with
    | [] => .wait
    | e :: r =>
      if !e.ready then .wait
      else .go (s.modTile t fun y => { y with sync :=
          if f = 1#3 then { y.sync with fqr := r } else { y.sync with fqa := r } }) (Eff.of (putS 1 rd e.v))

/-! ### Arrival, phase, time, realignment (R31, R41, R179) -/

/-- An engine makes no further issue in the phase (R31). -/
def State.arrive (s : State) (t : Nat) (e : Eng) : State :=
  s.modTile t fun x => x.setPos e { x.pos e with arrived := true }

def execArrive (h : Ring) : State → Out :=
  ctlWord (.tile h .cx) fun s => onTile s fun t _ => .go (s.arrive t .ctl) Eff.nil

def execMfph (h : Ring) (rd : SReg) : State → Out :=
  ctlWord (.tile h .cx) fun s => onTile s fun _ x => .go s (Eff.of (putD 1 rd (BitVec.ofNat 64 x.seat.phase)))

/-- The die whose clocks a CTL reads. -/
def State.curDie (s : State) : Nat :=
  match s.cur with
  | .eng t _ => dieOf t
  | .fwc d => d
  | .pkg => 0

def execMftime (h : Ring) (rd : SReg) : State → Out :=
  ctlWord (.cx h) fun s => .go s (Eff.of (putD 1 rd (BitVec.ofNat 64 s.time)))
def execMfcyc (h : Ring) (rd : SReg) : State → Out :=
  ctlWord (.cx h) fun s => .go s (Eff.of (putD 1 rd (BitVec.ofNat 64 (s.die s.curDie).cyc)))

def execRealign (h : Ring) : State → Out :=
  ctlWord (.tile h .x) fun s => onTile s fun t _ =>
    .go (s.modTile t fun x => { x with stop := { x.stop with realign := true } }) Eff.nil

/-! ### Ownership (R123, R180) -/

/-- HAND and TAKE read the entry of a granule in the tile's partition: a link may hold the read (R368; log 30), and an entry that ECC
cannot correct traps with its physical address (R375; log 20). -/
def handEntry (s : State) (x : Tile) (va : DWord) (k : State → Nat → RegionEnt → Act) : Act :=
  match x.seat.part with
  | none => .trap Cause.ownership va
  | some p =>
    if 2 ^ 52 ≤ va.toNat then .trap Cause.ownership va
    else if (s.regionWords p va.toNat).any (s.addrHeld (Config.dieSite s.curDie)) then .hold s
    else match s.touchWords (s.regionWords p va.toNat) with
    | (s, some a) => .fail s Cause.ecc (BitVec.ofNat 64 a)
    | (s, none) =>
      match s.region p va.toNat with
      | none => .trap Cause.ownership va
      | some e => k s p e

/-- A copy that the XP executes in a HAND's own cycle is not covered by it (R123). -/
def State.uncover (s : State) (t g : Nat) : State :=
  { s with copies := s.copies.map fun c =>
      if c.tile = t ∧ c.issued = (s.tile t).cyc + 1 then { c with gran := c.gran.filter (· != g) } else c }

/-- HAND: only the owner offers, to a tile of the partition. -/
def execHand (h : Ring) (ra rb : SReg) : State → Out :=
  ctlWord (.tile h .cx) fun s => onTile s fun t x =>
    let va := x.ctl.rD ra
    let u := (x.ctl.rS rb).toNat
    handEntry s x va fun s p e =>
      if (s.part p).tiles ≤ u || e.state ≠ 0 || e.owner ≠ x.seat.lt then .trap Cause.ownership va
      else if u = x.seat.lt then .go s Eff.nil
      else .go ((s.setRegion { e with state := 1, taker := u, nrel := 0 }).uncover t (va.toNat / 0x200000)) Eff.nil

/-- TAKE (R123): the tile is held until the granule is offered to it and the giver's watermark has reached the offer. -/
def execTake (h : Ring) (ra : SReg) : State → Out :=
  ctlWord (.tile h .cx) fun s => onTile s fun t x =>
    let va := x.ctl.rD ra
    let u := x.seat.lt
    handEntry s x va fun s p e =>
      let giver := dieOf ((s.part p).phys e.owner)
      if e.state = 0 then (if e.owner = u then .go s Eff.nil else .hold s)
      else if e.state = 3 || e.taker ≠ u then .trap Cause.ownership va
      else if e.state = 1 then .hold s
      else if giver = dieOf t || e.nrel ≤ (s.die giver).wm then
        .go (s.setRegion { e with state := 0, owner := u, taker := 0, nrel := 0 }) Eff.nil
      else .hold s

/-! ### Fences and promotion (R120-R122, R181) -/

/-- The CTL's stores and atomics that have not landed, on a tile or a firmware core. -/
def State.storesPending (s : State) : Bool :=
  match s.cur with
  | .eng t _ => !((s.tile t).storesDue .ctl).isEmpty
  | .fwc d => (s.fwc d).pend.any fun p => match p.land with
    | .bytes _ _ => true
    | .atomic _ _ _ _ _ _ => true
    | _ => false
  | .pkg => false

/-- Copies that a FENCE of the core whose turn it is covers: those of its tile, executed in earlier cycles, that have entered a
buffer (R120). -/
def State.fenced (s : State) (c : Copy) : Bool :=
  match s.cur with
  | .eng t _ => c.tile == t && c.issued != (s.tile t).cyc + 1 && c.st != .armed
  | _ => false

/-- Covered copies that are not performed at die or at package scope (R119). -/
def State.copiesPending (s : State) (pkg : Bool) : Bool := s.copies.any fun c => s.fenced c && (pkg || c.st != .landed)

/-- A FENCE of die, package or system scope; the first two are die-scope releases. -/
def fence (h : Ring) (pkg rel : Bool) : State → Out :=
  ctlWord (.cx h) fun s =>
    if s.storesPending then .wait
    else if s.copiesPending pkg then .hold s
    else .go (if rel then s.release s.curDie s.fenced else s) Eff.nil

def execFenceTile (h : Ring) : State → Out :=
  ctlWord (.cx h) fun s => if s.storesPending then .wait else .go s Eff.nil
def execFenceDie (h : Ring) : State → Out := fence h false true
def execFencePackage (h : Ring) : State → Out := fence h true true
def execFenceSystem (h : Ring) : State → Out := fence h true false

/-- PROMOTE: the release number is the one the named die had assigned when the request reached it (R122). The manual gives the
request no time: the model takes the number in the cycle in which the word first tries to issue (log 63). -/
def execPromote (h : Ring) (d : BitVec 3) : State → Out :=
  ctlWord (.tile h .cx) fun s => onTile s fun t x =>
    match x.seat.part with
    | none => s.illegal
    | some p =>
      match (s.part p).bind[d.toNat]? with
      | none => s.illegal
      | some pd =>
        let n := x.stop.promote.getD (s.die pd).rel
        let put (v : Option Nat) : State := s.modTile t fun y => { y with stop := { y.stop with promote := v } }
        if n ≤ (s.die pd).wm then .go (put none) Eff.nil else .hold (put (some n))

/-! ### HALT, TRAP, BRK (R48, R183) -/

/-- HALT: the CTL stops; the other engines run up to the word (R48). -/
def execHalt (h : Ring) : State → Out :=
  ctlWord (.tile h .cx) fun s => onTile s fun t _ =>
    .go (s.modTile t fun y => { y with
      pctl := { y.pctl with stopped := true }, stop := { y.stop with haltAt := some y.pctl.pc } }) Eff.nil

/-- A token goes to the VU (SS) and to the XP (SP), with the payload of R68. -/
def Tile.placeCtl (x : Tile) (h : Ring) (v : Word) : Tile :=
  let x := if h.ss then { x with pvu := { x.pvu with fp := x.pvu.fp ++ [v] } } else x
  if h.sp then { x with pxp := { x.pxp with fs := x.pxp.fs ++ [v] } } else x

/-- The signals of a TRAP or BRK can be placed: every earlier word is complete and its FIFOs have room (R46, R183). -/
def Tile.trapReady (x : Tile) (h : Ring) : Bool :=
  (!(h.sp || h.ss) || (x.pctl.sigs.isEmpty && decide (x.pctl.done ≤ x.cyc)))
    && (!h.ss || decide (x.pvu.fp.length < 8)) && (!h.sp || decide (x.pxp.fs.length < 8))

/-- A TRAP or BRK issues once its waits are met: it has taken its tokens, and its guard is not read again (R135, R183). -/
def Tile.takeTrap (x : Tile) (h : Ring) : Tile :=
  let p := x.pctl
  { x with pctl := { p with
      took := true
      fp := if h.wp && !p.took then p.fp.drop 1 else p.fp
      fs := if h.ws && !p.took then p.fs.drop 1 else p.fs } }

/-- TRAP and BRK: tokens taken, signals placed once they have room, the tile freezes; a resume goes on after the word (R183), in
the cycle the word would have had (R75). -/
def softTrap (h : Ring) (cause : BitVec 8) (code : BitVec 8) (s : State) : Out :=
  match s.cur with
  | .eng t .ctl =>
    let x := s.tile t
    if x.guardFalse .ctl then .next (s.textWord t .ctl (.cx h) fun s => .go s Eff.nil)
    else if !x.tokens .ctl h then .next (s.unguard t)
    else if !x.trapReady h then .next ((s.unguard t).modTile t fun x => x.takeTrap h)
    else
      let head := State.headAt x .ctl
      let s := s.modTile t fun x =>
        (x.issue .ctl { h with sp := false, ss := false } 1 ⟨[], 0, 0, none, 0⟩).placeCtl h (x.ctl.alu.setWidth 32)
      .next (s.freeze t ⟨cause, 0, 0, head, 0, code, false⟩ 0)
  | .fwc d =>
    let f := s.fwc d
    if h ≠ Ring.none then .next (s.fwcWord d (.cx h) fun s => .go s Eff.nil)
    else if (f.ctl.guard.map (!·.holds)).getD false then .next (s.fwcWord d (.cx h) fun s => .go s Eff.nil)
    else .next (s.exception d cause 0 (f.pc + 1))
  | _ => .fault .wrongAgent

def execTrap (h : Ring) (code : BitVec 8) : State → Out := softTrap h Cause.software code
def execBrk (h : Ring) : State → Out := softTrap h Cause.breakpoint 0

/-! ### GUARD (R135) -/

/-- The CTL opcodes a GUARD may not precede: XFER, XFERN, CALL, LPSET, LPEND, ARRIVE, HALT, GUARD, SYS (R135). -/
def guardable (w : Word) : Bool :=
  tagOf w == 0#2 && !([0x1C, 0x1D, 0x1E, 0x20, 0x21, 0x35, 0x3C, 0x3D].contains (opOf w))
    && !(opOf w == 0x3B && (fld w 18 2).toNat == 0)

/-- GUARD: the predicate is read, and the guarded word follows in the same issue slot. -/
def execGuard (neg : Bool) (p : PReg) (s : State) : Out :=
  match s.cur with
  | .eng t .ctl =>
    let x := s.tile t
    let next := x.store.textAt (x.pctl.pc + 1)
    if next == eotWord then .next (s.trapWord t .ctl Cause.overrun 0)
    else if !guardable next then .next (s.trapWord t .ctl Cause.illegal (s.word.setWidth 64))
    else .next ((s.modTile t fun x => { x with
        ctl := { x.ctl with guard := some ⟨x.pctl.pc, x.pctl.took || x.ctl.rP p != neg⟩ }
        pctl := { x.pctl with pc := x.pctl.pc + 1, walk := x.pctl.walk + 1 } }).first [.issue s.cur])
  | .fwc d =>
    let f := s.fwc d
    let next := State.fwcText f (f.pc + 1)
    if next == eotWord then .next (s.exception d Cause.overrun 0 f.pc)
    else if !guardable next then .next (s.exception d Cause.illegal (s.word.setWidth 64) f.pc)
    else .next ((s.modFwc d fun f => { f with
        ctl := { f.ctl with guard := some ⟨f.pc, f.ctl.rP p != neg⟩ }, pc := f.pc + 1 }).first [.issue s.cur])
  | _ => .fault .wrongAgent

/-! ### Words no engine can run (R79, R80, R134, R287) -/

/-- END_OF_TEXT: `text overrun`, precise at the word. -/
def execEndOfText (s : State) : Out :=
  match s.cur with
  | .eng t e => .next (s.trapWord t e Cause.overrun 0)
  | .fwc d => .next (s.exception d Cause.overrun 0 (State.fwcHead (s.fwc d)))
  | .pkg => .fault .wrongAgent

/-- A head word with the opcode of a queue command of the TDA (R144, R215). -/
def queueWord (w : Word) : Bool := decide (opOf w < 4) || (decide (8 ≤ opOf w) && decide (opOf w < 14))

/-- ILLEGAL_INSTRUCTION: raised at the head once the word's ring waits are met, whatever its guard (R46, R135); a queue command
needs a free entry first (R218). AUX is the head word. -/
def execIllegalInstruction (s : State) : Out :=
  match s.cur with
  | .eng t .tsq => .next (s.trapWord t .tsq Cause.illegal (s.word.setWidth 64))
  | .eng t e =>
    let x := s.tile t
    if !x.tokens e (Ring.ofWord s.word) || (e == .tda && queueWord s.word && x.tda.full) then .next (s.unguard t)
    else .next (s.trapWord t e Cause.illegal (s.word.setWidth 64))
  | .fwc d => .next (s.exception d Cause.illegal (s.word.setWidth 64) (State.fwcHead (s.fwc d)))
  | .pkg => .fault .wrongAgent

end Sys2Proof.Machine
end

