-- ==== Sys2Proof/Machine/Seq.lean ====
section
/-! DEFINITION. The transform sequencer (R239-R251). -/

namespace Sys2Proof.Machine

/-- A word of the sequencer: nothing issues in an exchange phase (R241). -/
def State.seqRun (s : State) (t : Nat) (act : State → Act) : State :=
  let x := s.tile t
  if x.seat.phase % 2 = 1 then s
  else match act s with
  | .go s' f =>
    s'.modTile t fun y => { y with
      tsq := { y.tsq with
        tpc := (f.next.map (·.1)).getD (x.tsq.tpc + 1)
        busy := x.cyc + (f.next.map (·.2)).getD f.occ
        count := x.tsq.count + 1 }
      pend := y.pend ++ pends x.cyc x.tsq.count .tsq 0 f.lands }
  | .wait => s
  | .hold s' => s'
  | .trap c a => s.trapWord t .tsq c a
  | .fail s' c a => s'.trapWord t .tsq c a
  | .lost s' a => (s'.trapWord t .tsq Cause.translation a).noResume t

def seqWord (act : Nat → Tile → State → Act) (s : State) : Out :=
  match s.cur with
  | .eng t .tsq => .next (s.seqRun t fun s => act t (s.tile t) s)
  | _ => .fault .wrongAgent

namespace Tsq

def rG (q : Tsq) (r : BitVec 4) : Word := q.g.get 0#32 r.toNat
def wG (q : Tsq) (r : BitVec 4) (v : Word) : Tsq := { q with g := q.g.set 0#32 r.toNat v }
def rA (q : Tsq) (k : BitVec 3) : Agen := q.ag.get State.agen0 k.toNat
def wA (q : Tsq) (k : BitVec 3) (a : Agen) : Tsq := { q with ag := q.ag.put k.toNat a }
def rN (q : Tsq) (k : BitVec 2) : Nest := q.nl.get State.nest0 k.toNat
def wN (q : Tsq) (k : BitVec 2) (n : Nest) : Tsq := { q with nl := q.nl.put k.toNat n }

/-- A(ag k): base plus the sum of indices times steps, modulo 2^32 (R240). -/
def addr (q : Tsq) (k : BitVec 3) : Nat :=
  let a := q.rA k
  let i (l : BitVec 2) : Word := (q.rN l).index.setWidth 32
  (a.base + i 0 * a.step0 + i 1 * a.step1 + i 2 * a.step2 + i 3 * a.step3).toNat

end Tsq

/-- Change the sequencer's registers: visible to the next word (R241). -/
def seqSet (s : State) (t : Nat) (f : Tsq → Tsq) : Act := .go (s.modTile t fun x => { x with tsq := f x.tsq }) Eff.nil

/-! ### Loops and registers (R243) -/

def setNest (s : State) (t : Nat) (x : Tile) (k : BitVec 2) (n : BitVec 16) : Act :=
  seqSet s t fun q => q.wN k ⟨n, 0, BitVec.ofNat 12 (x.tsq.tpc + 1)⟩

def execSloop (nl : BitVec 2) (count : BitVec 16) : State → Out := seqWord fun t x s => setNest s t x nl count
def execSloopReg (nl : BitVec 2) (ga : BitVec 4) : State → Out :=
  seqWord fun t x s => setNest s t x nl ((x.tsq.rG ga).extractLsb' 0 16)

/-- SEND: a taken one occupies 2 cycles; falling through resets INDEX. -/
def execSend (nl : BitVec 2) : State → Out :=
  seqWord fun t x s =>
    let n := x.tsq.rN nl
    let put (i : BitVec 16) : State := s.modTile t fun y => { y with tsq := y.tsq.wN nl { n with index := i } }
    if n.index.toNat + 1 < n.count.toNat then .go (put (n.index + 1)) ⟨[], 1, 1, some (n.start.toNat, 2), 0⟩
    else .go (put 0) Eff.nil

def execSagenBase (ag : BitVec 3) (ga : BitVec 4) : State → Out :=
  seqWord fun t _ s => seqSet s t fun q => q.wA ag { q.rA ag with base := q.rG ga }

/-- SAGEN ag.step l. -/
def Agen.setStep (a : Agen) (l : BitVec 2) (v : Word) : Agen :=
  match l.toNat with
  | 0 => { a with step0 := v }
  | 1 => { a with step1 := v }
  | 2 => { a with step2 := v }
  | _ => { a with step3 := v }

def execSagenStep (ag : BitVec 3) (l : BitVec 2) (ga : BitVec 4) : State → Out :=
  seqWord fun t _ s => seqSet s t fun q => q.wA ag ((q.rA ag).setStep l (q.rG ga))
def execSmov (gd : BitVec 4) (imm : BitVec 16) : State → Out :=
  seqWord fun t _ s => seqSet s t fun q => q.wG gd (imm.signExtend 32)
def execSmovHi (gd : BitVec 4) (imm : BitVec 16) : State → Out :=
  seqWord fun t _ s => seqSet s t fun q => q.wG gd (imm ++ (q.rG gd).extractLsb' 0 16)
def execSmovReg (gd gb : BitVec 4) : State → Out := seqWord fun t _ s => seqSet s t fun q => q.wG gd (q.rG gb)
def execSadd (gd ga : BitVec 4) (imm : BitVec 16) : State → Out :=
  seqWord fun t _ s => seqSet s t fun q => q.wG gd (q.rG ga + imm.signExtend 32)
def execSaddReg (gd ga gb : BitVec 4) : State → Out :=
  seqWord fun t _ s => seqSet s t fun q => q.wG gd (q.rG ga + q.rG gb)
/-- The TSQ stops for the rest of the launch. -/
def execShalt : State → Out := seqWord fun t _ s => seqSet s t fun q => { q with halted := true }

/-! ### FIFOs and tokens (R127, R128, R243) -/

/-- Pop FQS: blocks until its head is poppable. -/
def seqPop (f : Tsq → Word → Tsq) : State → Out :=
  seqWord fun t x s =>
    match x.sync.fqs with
    | [] => .wait
    | e :: r =>
      if !e.ready then .wait
      else .go (s.modTile t fun y => { y with sync := { y.sync with fqs := r }, tsq := f y.tsq e.v }) Eff.nil

def execSqpop (gd : BitVec 4) : State → Out := seqPop fun q v => q.wG gd v
def execSqpopAg (ag : BitVec 3) : State → Out := seqPop fun q v => q.wA ag { q.rA ag with base := v }

def execSqpush (ga : BitVec 4) : State → Out :=
  seqWord fun t x s =>
    if 16 ≤ x.sync.fqr.length then .wait
    else .go (s.modTile t fun y => { y with sync := { y.sync with
      fqr := y.sync.fqr ++ [fifoEl x .tsq (x.tsq.rG ga)] } }) Eff.nil

/-- SKSIG: once every earlier SENCODE write has landed and the count has room (R49, R243). -/
def seqSignal (k : BitVec 3) (n : Tsq → BitVec 16) : State → Out :=
  seqWord fun t x s =>
    let n := (n x.tsq).toNat
    if n = 0 then .go s Eff.nil
    else if !(x.storesDue .tsq).isEmpty || decide (65535 < x.token k + n) then .wait
    else .go (s.addToken t k n) Eff.nil

def seqWait (k : BitVec 3) (n : Tsq → BitVec 16) : State → Out :=
  seqWord fun t x s =>
    let n := (n x.tsq).toNat
    if x.token k < n then .wait else .go (s.subToken t k n) Eff.nil

def execSksig (k : BitVec 3) (n : BitVec 16) : State → Out := seqSignal k fun _ => n
def execSksigReg (k : BitVec 3) (ga : BitVec 4) : State → Out := seqSignal k fun q => (q.rG ga).extractLsb' 0 16
def execSkwait (k : BitVec 3) (n : BitVec 16) : State → Out := seqWait k fun _ => n
def execSkwaitReg (k : BitVec 3) (ga : BitVec 4) : State → Out := seqWait k fun q => (q.rG ga).extractLsb' 0 16

/-! ### Feeds (R216, R244-R246) -/

/-- Scales per row or column (R244). -/
def TFmt.scales : TFmt → Nat
  | .s8 => 2
  | _ => 4

/-- A beat permuted by a feed map (R246). -/
def permBeat (map : List Byte) (b : List Byte) : List Byte :=
  (List.range 64).map fun i => b.getD ((map.getD i 0).toNat % 64) 0

/-- Apply a feed map to a section, beat by beat. -/
def permBeats (m : FeedMap) : Nat → List Byte → List Byte
  | 0, _ => []
  | n + 1, bs => (if m.en then permBeat m.bytes (bs.take 64) else bs.take 64) ++ permBeats m n (bs.drop 64)

/-- Beats of the entries of a FIFO, those still being pushed included (R245). -/
def beatsIn (es : List FifoEnt) : Nat := (es.map (·.beats)).sum

/-- The ranges a feed reads: code rows, 2-bit plane rows, scales. R244 gives a row's address no modulus: it is taken modulo 2^32
here, as R209 takes a VLD's, so that a pitch may be negative (log 64). -/
def feedRanges (q : Tsq) (rows : Nat) (f : FeedF) : List (Nat × Nat) :=
  let pitch := (q.rG f.gr).toNat
  let row (ag : BitVec 3) (n y : Nat) : Nat × Nat := ((q.addr ag + y * pitch) % 2 ^ 32, n)
  (List.range rows).map (row f.agc 64)
    ++ (if f.fmt.isSix then (List.range rows).map (row f.agp 32) else [])
    ++ (if f.sc then [(q.addr f.ags, rows * (TFmt.scales f.fmt))] else [])

/-- An entry of `rows` rows: sections in order, code and plane beats permuted, padded to whole beats (R216, R246). -/
def feedBytes (m : FeedMap) (rows : Nat) (f : FeedF) (parts : List (List Byte)) : List Byte :=
  let code := permBeats m rows (parts.take rows).flatten
  let plane := if f.fmt.isSix then permBeats m (rows / 2) ((parts.drop rows).take rows).flatten else []
  let scales := if f.sc then parts.getLastD [] else []
  let all := code ++ plane ++ scales
  all ++ List.replicate ((64 - all.length % 64) % 64) 0

/-- A feed issues once its FIFO has room for every beat, and occupies one cycle a beat (R245). -/
def feed (rows : Nat) (f : FeedF) (map : Tsq → FeedMap) (get : Tda → List FifoEnt)
    (put : Tda → List FifoEnt → Tda) : State → Out :=
  seqWord fun t x s =>
    let size := rows * (64 + (if f.fmt.isSix then 32 else 0) + (if f.sc then (TFmt.scales f.fmt) else 0))
    let beats := ceilDiv size 64
    if 256 < beatsIn (get x.tda) + beats then .wait
    else match s.readRanges t .tsq (feedRanges x.tsq rows f) with
    | .error e => e
    | .ok (s, parts) =>
      .go (s.modTile t fun y => { y with
          tda := put y.tda (get y.tda ++ [⟨feedBytes (map x.tsq) rows f parts, beats, x.cyc + beats⟩]) })
        ⟨[], beats, beats, none, 0⟩

def MSize.rows : MSize → Nat
  | .m16 => 16
  | .m32 => 32
  | .m64 => 64

def execSfeeda (m : MSize) (f : FeedF) : State → Out :=
  feed (MSize.rows m) f (·.mapA) (·.ofa) fun d l => { d with ofa := l }
def execSfeedb (f : FeedF) : State → Out :=
  feed 64 f (·.mapB) (·.ofb) fun d l => { d with ofb := l }

/-- SPERM reads 64 bytes as the map of a FIFO (R246). -/
def execSperm (f : Bool) (ag : BitVec 3) : State → Out :=
  seqWord fun t x s =>
    match s.readLocal t .tsq (x.tsq.addr ag) 64 with
    | .error e => e
    | .ok (s, bs) => seqSet s t fun q => if f then { q with mapB := ⟨true, bs⟩ } else { q with mapA := ⟨true, bs⟩ }

def execSpermOff (f : Bool) : State → Out :=
  seqWord fun t _ s => seqSet s t fun q =>
    if f then { q with mapB := { q.mapB with en := false } } else { q with mapA := { q.mapA with en := false } }

/-! ### Fixed-rate blocks (R249-R251) -/

/-- SENCODE: three ranges are checked; slot and escape land after 8 cycles. Where the two overlap the manual does not say which
bytes stand: the escape's do here (R249; log 64). -/
def execSencode (tgt : SlotSize) (agr agd age : BitVec 3) : State → Out :=
  seqWord fun t x s =>
    let T := SlotSize.bytes tgt
    let d := x.tsq.addr agd
    let e := x.tsq.addr age
    match [(x.tsq.addr agr, 256), (d, T), (e, 256)].find? fun r => decide (0x100000 < r.1 + r.2) with
    | some r => .trap Cause.ownership (BitVec.ofNat 64 r.1)
    | none =>
      match s.readLocal t .tsq (x.tsq.addr agr) 256 with
      | .error e => e
      | .ok (s, bs) =>
        let r := encodeBlock bs T
        let runs : List (Nat × List Byte) := (d, r.1) :: (if r.2 then [(e, bs)] else [])
        .go s { lands := [(8, Land.bytes .scr runs)], occ := 4, done := 1, next := none, cmd := 0 }

/-- SDECODE: the ranges, then class and header, then ECC are checked (R298), on the header that the read samples (R310); the block
enters the decoder FIFO at issue + class + 2 (R250). -/
def execSdecode (tgt : SlotSize) (dmax : BitVec 3) (ags age : BitVec 3) : State → Out :=
  seqWord fun t x s =>
    let T := SlotSize.bytes tgt
    let a := x.tsq.addr ags
    if 16 ≤ x.sync.dcf.length then .wait
    else if 0x100000 < a + T then .trap Cause.ownership (BitVec.ofNat 64 a)
    else
      let s1 := s.fireRead (dieOf t) (slotOf t) .scr (a / 4) ((a + T - 1) / 4)
      let h := (s1.tile t).store.scr.num a 2
      let cls := blockClass h T
      let rs := (a, T) :: (if bit h 15 then [(x.tsq.addr age, 256)] else [])
      match s1.rangeChecks t rs with
      | .error (c, aux) => .fail s1 c aux
      | .ok s2 =>
        if headerBad h T || decide (dmax.toNat < cls) then .fail s1 Cause.decodeRate (BitVec.ofNat 64 h)
        else match s2.takeRanges t .tsq rs with
        | .error e => e
        | .ok (s, parts) =>
          .go (s.modTile t fun y => ({ y with sync := { y.sync with
              dcf := y.sync.dcf ++ [Dblk.mk (decodeBlock (parts.headD []) (parts.getD 1 [])) (x.cyc + cls + 2)] } }).bump 0x09 1)
            ⟨[], cls, 1, none, 0⟩

end Sys2Proof.Machine
end

