-- ==== Sys2Proof/Machine/Products.lean ====
section
/-! DEFINITION. What the time-domain array computes: integers of codes, block terms, sums, checksums and edge races
(R100-R106, R223-R225, R232-R235). -/

namespace Sys2Proof.Machine

/-! ### Codes (R100, R216) -/

/-- Width of a code. -/
def codeBits : TFmt → Nat
  | .s4 | .e2m1 => 4
  | .s6 | .e2m3 => 6
  | .s8 => 8

/-- Passes P, pass interval I, block terms nb, exponent offset (R100, R215). -/
def passes : TFmt → Nat
  | .s4 => 3
  | .e2m1 => 4
  | .s6 => 5
  | .e2m3 => 6
  | .s8 => 7
def passGap (f : TFmt) : Nat := if f.isSix then 4 else 2
def blocksOf (f : TFmt) : Nat := if f = .s8 then 2 else 4
def foff : TFmt → Int
  | .e2m1 => -1
  | .e2m3 => -3
  | _ => 0

/-- A float code as an integer times 2^q. -/
def floatInt (f : FFmt) (c : Nat) (q : Int) : Int :=
  match f.value c with
  | .num s m e => atExp s m e q
  | _ => 0

/-- A signed code; the bottom of the range reads as the symmetric one's and is clamped. -/
def symInt (w c : Nat) : Int × Bool :=
  let v := sext c w
  if v = -(2 ^ (w - 1) : Int) then (v + 1, true) else (v, false)

/-- intq, and whether a bottom-of-range code was read (R100). -/
def intq (f : TFmt) (c : Nat) : Int × Bool :=
  match f with
  | .s4 => symInt 4 c
  | .s6 => symInt 6 c
  | .s8 => symInt 8 c
  | .e2m1 => (floatInt .e2m1 c (-1), false)
  | .e2m3 => (floatInt .e2m3 c (-3), false)

/-- The bytes of a code section of `n` rows or columns. -/
def sectionBytes (f : TFmt) (n : Nat) : Nat := n * (if f.isSix then 96 else 64)

/-- Code `i` of row `y` of an entry of `n` rows read as a number (R82, R216). -/
def codeAt (f : TFmt) (n v y i : Nat) : Nat :=
  match codeBits f with
  | 8 => el 8 v (64 * y + i)
  | 4 => el 4 v (128 * y + i)
  | _ => el 4 v (128 * y + i) + 16 * el 2 (v / 2 ^ (512 * n)) (128 * y + i)

/-- Integers of row `y`, block by block. -/
def rowInts (f : TFmt) (n v y : Nat) : List (List (Int × Bool)) :=
  (List.range (blocksOf f)).map fun j => (List.range 32).map fun i => intq f (codeAt f n v y (32 * j + i))

/-- Scales of row `y`. -/
def rowScales (f : TFmt) (n v y : Nat) : List Nat :=
  (List.range (blocksOf f)).map fun j => el 8 (v / 2 ^ (8 * sectionBytes f n)) (blocksOf f * y + j)

/-- An entry as a number with at least the bytes a command reads; what lies beyond its end is a free value. -/
def entryNum (k : Nat) (bs : List Byte) (need : Nat) : Nat :=
  ofLe (bs ++ (List.range (need - bs.length)).map fun i => Config.beyondEntry k (bs.length + i))

/-! ### Exact terms (R101) -/

/-- v * 2^e. -/
structure Dy where
  v : Int
  e : Int
deriving DecidableEq, Repr

def Dy.add (a b : Dy) : Dy :=
  let q := min a.e b.e
  ⟨a.v * 2 ^ (a.e - q).toNat + b.v * 2 ^ (b.e - q).toNat, q⟩

/-- floor(t / 2^q), and whether something is left. -/
def Dy.floorAt (t : Dy) (q : Int) : Int × Bool :=
  if q ≤ t.e then (t.v * 2 ^ (t.e - q).toNat, false)
  else let k : Int := 2 ^ (q - t.e).toNat; (t.v.fdiv k, t.v.fmod k != 0)

/-- The largest floor_log2 of the non-zero terms. -/
def topLog (ts : List Dy) : Option Int :=
  ts.foldl (fun (h : Option Int) (t : Dy) =>
    if t.v = 0 then h
    else let x := floorLog2 t.v.natAbs t.e; some (match h with
      | none => x
      | some y => max x y)) none

/-- tmac_f32 (R101, R102). -/
def tmacF32 (acc : Nat) (terms : List Dy) (nan : Bool) : Nat × VFlags :=
  match FFmt.f32.value acc with
  | .nan | .inv => (f32Nan, 0)
  | .inf s => if nan then (f32Nan, 0) else (f32Inf s, 0)
  | .num s m e =>
    if nan then (f32Nan, 0)
    else
      let list := (⟨if s then -(m : Int) else m, e⟩ : Dy) :: terms
      match topLog list with
      | none => (acc, 0)
      | some h =>
        let fs := list.map fun t => t.floorAt (h - 64)
        let sum := (fs.map (·.1)).sum
        let st : Int := if fs.any (·.2) then 1 else 0
        FFmt.f32.round .rne (FVal.ofInt (2 * sum + st) (h - 65) false)

/-- wrap48 of the sum, and whether it overflowed (R103). -/
def tmacX48 (acc : Int) (d : Int) : Int × Bool :=
  let v := acc + d
  (wrap48 v, decide (v < -(2 ^ 47)) || decide ((2 : Int) ^ 47 ≤ v))

/-! ### A product (R104-R106, R224, R225) -/

/-- The operands of a product: integers and scales of every row and column. -/
structure MacIn where
  a : List (List (List Int))
  b : List (List (List Int))
  sa : List (List Nat)
  sb : List (List Nat)
  clamp : Bool
deriving DecidableEq, Repr

/-- Read an entry and planes (R216, R223). The codes read are those of the rows and columns of the product, as R224's loop has them:
what a plane holds past column N sets no clamp flag (log 15). -/
def macIn (f : TFmt) (m n : Nat) (entry : Nat) (planes : List Nat) : MacIn :=
  let ra := (List.range m).map fun y => rowInts f m entry y
  let plane (x : Nat) : Nat := planes.getD (x / 64) 0
  let rb := (List.range n).map fun x => rowInts f 64 (plane x) (x % 64)
  { a := ra.map fun r => r.map fun l => l.map (·.1)
    b := rb.map fun r => r.map fun l => l.map (·.1)
    sa := (List.range m).map fun y => rowScales f m entry y
    sb := (List.range n).map fun x => rowScales f 64 (plane x) (x % 64)
    clamp := (ra ++ rb).any fun r => r.any fun l => l.any (·.2) }

def dot (a b : List Int) : Int := (List.zipWith (· * ·) a b).sum

/-- The margin block of an element (R105, R228). -/
def marginBit (y x : Nat) : Nat := 16 * (y / 16) + x / 64

/-- The block integers of an element: exact, or in an out-of-band block within R106's bound of it. -/
def blockInts (k : Nat) (oob : BitVec 64) (f : TFmt) (n y x : Nat) (a b : List (List Int)) : List Int :=
  let ds := List.zipWith dot a b
  if oob.getLsbD (marginBit y x) then
    let w := if codeBits f = 4 then 1 else 17
    ds.zipIdx.map fun d => d.1 + Config.blockError k ((y * n + x) * blocksOf f + d.2) (2 * (2 ^ passes f - 1) * w)
  else ds

/-- The results of a product: new accumulator codes by row, whether one overflowed. -/
structure MacOut where
  rows : List (List Nat)
  ovf : Bool
deriving DecidableEq, Repr

/-- Add term lists position by position. -/
def addTerms (ts : List (List Dy)) (nb : Nat) : List Dy :=
  ts.foldl (fun acc t => List.zipWith Dy.add acc t) (List.replicate nb ⟨0, 0⟩)

/-- The scaled terms of an element (R101). -/
def scaledTerms (f : TFmt) (ds : List Int) (sa sb : List Nat) : List Dy :=
  List.zipWith (fun d (s : Nat × Nat) => ⟨d, (s.1 : Int) + s.2 - 254 + 2 * foff f⟩) ds (List.zip sa sb)

def hasNan (s : List Nat) : Bool := s.any (· == 0xFF)

/-- Append the checksum row and column to a table of per-element sums (R225). -/
def withSums {α : Type} (add : List α → α) (cs : Bool) (n : Nat) (z : α) (t : List (List α)) : List (List α) :=
  if cs then
    let rows := t.map fun r => r ++ [add r]
    rows ++ [(List.range (n + 1)).map fun x => add (rows.map fun r => r.getD x z)]
  else t

/-- TMAC over the accumulator codes (R224, R225). -/
def productF32 (f : TFmt) (cs : Bool) (n : Nat) (i : MacIn) (ds : List (List (List Int))) (acc : List (List Nat)) :
    MacOut :=
  let nb := blocksOf f
  let cell (y x : Nat) (d : List Int) : List Dy × Bool :=
    (scaledTerms f d (i.sa.getD y []) (i.sb.getD x []), hasNan (i.sa.getD y []) || hasNan (i.sb.getD x []))
  let t := ds.zipIdx.map fun r => r.1.zipIdx.map fun d => cell r.2 d.2 d.1
  let t := withSums (fun l => (addTerms (l.map (·.1)) nb, l.any (·.2))) cs n ([], false) t
  let r := List.zipWith (fun as ts => List.zipWith (fun a (u : List Dy × Bool) => tmacF32 a u.1 u.2) as ts) acc t
  ⟨r.map fun l => l.map (·.1), r.any fun l => l.any fun c => (c.2 &&& VF.ovf) != 0⟩

/-- TMACX over the accumulator codes (R103, R224, R225). -/
def productX48 (cs : Bool) (n : Nat) (ds : List (List (List Int))) (acc : List (List Nat)) : MacOut :=
  let t := withSums (fun l => l.sum) cs n 0 (ds.map fun r => r.map fun d => d.sum)
  let r := List.zipWith (fun as ts => List.zipWith (fun a u => tmacX48 (sext a 48) u) as ts) acc t
  ⟨r.map fun l => l.map fun c => toBitsN 64 c.1, r.any fun l => l.any (·.2)⟩

/-! ### Races (R232-R235) -/

def keyBits : KeyType → Nat
  | .z16 | .s16 => 16
  | _ => 32

/-- ord(v) of a lane (R232). -/
def orderKey (kt : KeyType) (v : Nat) : Nat :=
  match kt with
  | .z16 => v % 2 ^ 16
  | .s16 => (v % 2 ^ 16 + 2 ^ 15) % 2 ^ 16
  | .z32 => v
  | .s32 => (v + 2 ^ 31) % 2 ^ 32
  | .f32 => if bit v 31 then 2 ^ 32 - 1 - v else v + 2 ^ 31

/-- The lanes of a row in ascending or descending order; the lower index wins a tie (R233). -/
def ranked (kt : KeyType) (desc : Bool) (row : List Nat) : List Nat :=
  (sortBy (fun (e : Nat × Nat) => if desc then 2 ^ 32 - orderKey kt e.1 else orderKey kt e.1) row.zipIdx).map (·.2)

/-- What a race writes in a row. -/
inductive RaceOp
  | least (desc : Bool)
  | arg (desc : Bool)
  | sort (desc : Bool)
  | topk (n : Nat)
deriving DecidableEq, Repr

def raceRow (op : RaceOp) (kt : KeyType) (y : Nat) (row : List Nat) : List Nat :=
  match op with
  | .least d => List.replicate 64 (row.getD ((ranked kt d row).headD 0) 0)
  | .arg d => List.replicate 64 (64 * y + (ranked kt d row).headD 0)
  | .sort d => (ranked kt d row).map (64 * y + ·)
  | .topk n => (ranked kt true row).zipIdx.map fun r => if r.2 < n then 64 * y + r.1 else 0xFFFFFFFF

/-- Latency (R235). -/
def raceLat (op : RaceOp) (kt : KeyType) : Nat :=
  let w := if keyBits kt = 16 then 6 else 10
  match op with
  | .least _ | .arg _ => 24 + 2 * w
  | _ => 24 + 4 * w

end Sys2Proof.Machine
end

