-- ==== Sys2Proof/Machine/VuOps.lean ====
section
/-! DEFINITION. What VU words compute on whole registers: placement, masks, reductions, scans, block formats, planes,
moves (R184, R185, R189-R208). -/

namespace Sys2Proof.Machine

/-- A register result: value, nibbles written, flags. -/
structure VRes where
  v : Nat
  wr : Nat
  fl : VFlags
deriving DecidableEq, Repr

/-- Join sub-element results; none is not written. -/
def collect (step : Nat) (rs : List (Option (Nat × VFlags))) : VRes :=
  { v := packW step (rs.map fun r => (r.map (·.1)).getD 0)
    wr := packW (step / 4) (rs.map fun r => if r.isSome then 2 ^ (step / 4) - 1 else 0)
    fl := rs.foldl (fun f r => f ||| (r.map (·.2)).getD 0) 0 }

/-- The top of the mask stack (R189). -/
def Tile.top (x : Tile) : Nat := x.vu.masks.headD allNibbles

/-- Whether sub-element `i` of a type is enabled (R189, R191). -/
def enabled (t : EType) (mk : Bool) (top i : Nat) : Bool := !mk || bit top (stepOf t / 4 * i)

/-- Sub-elements of a register. -/
def count (t : EType) : Nat := 32768 / stepOf t

/-- A result for every enabled sub-element. -/
def perElem (t : EType) (mk : Bool) (top : Nat) (f : Nat → Nat × VFlags) : VRes :=
  collect (stepOf t) ((List.range (count t)).map fun i => if enabled t mk top i then some (f i) else none)

/-- A whole-lane result written where a type's sub-elements are enabled. -/
def masked (t : EType) (mk : Bool) (top v : Nat) : VRes :=
  { v := v
    wr := if mk then packW (stepOf t / 4) ((List.range (count t)).map fun i =>
      if enabled t mk top i then 2 ^ (stepOf t / 4) - 1 else 0) else allNibbles
    fl := 0 }

/-- A register from its 1,024 lanes. -/
def lanes (f : Nat → Nat) : Nat := packW 32 ((List.range 1024).map f)

/-- The random draw of the destination's sub-element `i` (R92, R94). -/
def drawOf (x : Tile) (i : Nat) : Nat → Bool := srUp x.vu.srseed x.vu.srhnd (x.vu.sridx + BitVec.ofNat 32 i)

def modeAt (x : Tile) (r : Rnd) (sat : Bool) (i : Nat) : RMode := ⟨r, sat, drawOf x i⟩

/-! ### Moves of lanes (R197, R204, R207, R208) -/

def rotR (a n : Nat) : Nat := lanes fun i => el 32 a (i / 64 * 64 + (i % 64 + 64 - n % 64) % 64)
def rotC (a n : Nat) : Nat := lanes fun i => el 32 a ((i / 64 + 16 - n % 16) % 16 * 64 + i % 64)
def bcR (a n : Nat) : Nat := lanes fun i => el 32 a (i / 64 * 64 + n % 64)
def bcC (a n : Nat) : Nat := lanes fun i => el 32 a (n % 16 * 64 + i % 64)
def permute (a b : Nat) : Nat := lanes fun i => el 32 a (el 32 b i % 1024)

/-- The source of a sub-element under VTRN. -/
def trnFrom (t : EType) (i : Nat) : Nat :=
  let l := rowLen t
  i % l % 16 * l + i % l / 16 * 16 + i / l

/-! ### Conversion (R185, R198) -/

/-- The source sub-element of destination sub-element `n`; none outside the part. -/
def partFrom (dt st : EType) (q n : Nat) : Option Nat :=
  let rs := rowLen st
  let rd := rowLen dt
  let y := n / rd
  let i := n % rd
  if rs < rd then (if rs * q ≤ i && i < rs * q + rs then some (y * rs + i - rs * q) else none)
  else if rd < rs then some (y * rs + rd * q + i)
  else some n

def convert (x : Tile) (dt st : EType) (q : Nat) (r : Rnd) (sat : Bool) (a : Nat) : VRes :=
  collect (stepOf dt) ((List.range (count dt)).map fun n =>
    (partFrom dt st q n).map fun i => cvtEl dt st (modeAt x r sat n) (el (stepOf st) a i))

/-! ### Block formats (R199, R200) -/

/-- The .f32 values of block `b` = 2y + h. -/
def blockVals (a b : Nat) : List FVal := (List.range 32).map fun x => FFmt.f32.value (el 32 a (32 * b + x))

/-- The scales of the 32 blocks. -/
def scalesOf (p : BlkPar) (a : Nat) : List (Nat × VFlags) := (List.range 32).map fun b => blockScale p (blockVals a b)

/-- A block whose inputs are all zero: every element becomes +0 (R96). -/
def zeroBlock (vs : List FVal) : Bool := (amax vs).any fun m => m.1 == 0

def quantize (x : Tile) (p : BlkPar) (q : Nat) (r : Rnd) (sc : List (Nat × VFlags)) (a : Nat) : VRes :=
  let rd := rowLen p.place
  let zs := (List.range 32).map fun b => zeroBlock (blockVals a b)
  collect (stepOf p.place) ((List.range (count p.place)).map fun n =>
    let y := n / rd
    let i := n % rd
    if 64 * q ≤ i && i < 64 * q + 64 then
      let c := i - 64 * q
      let s := sc.getD (2 * y + c / 32) (0, 0)
      if zs.getD (2 * y + c / 32) false then some (0, s.2)
      else
        let e := quantEl p (modeAt x r true n) s.1 (FFmt.f32.value (el 32 a (64 * y + c)))
        some (e.1, e.2 ||| s.2)
    else none)

/-- The scale bytes VQMX writes to l.alu. -/
def scaleBytes (q : Nat) (sc : List (Nat × VFlags)) : VRes :=
  collect 8 ((List.range 4096).map fun n =>
    let y := n / 256
    let c := n % 256
    if 2 * q ≤ c && c < 2 * q + 2 then some ((sc.getD (2 * y + c - 2 * q) (0, 0)).1, 0) else none)

def dequantize (x : Tile) (p : BlkPar) (q : Nat) (r : Rnd) (a b : Nat) : VRes :=
  collect 32 ((List.range 1024).map fun n =>
    let y := n / 64
    let i := 64 * q + n % 64
    some (dequantEl p (modeAt x r false n) (el 8 b (256 * y + i / 32)) (el (stepOf p.place) a (y * rowLen p.place + i))))

/-! ### Six-bit planes (R82, R201, R202) -/

def join6 (f : SixFmt) (q a b : Nat) : VRes :=
  collect 8 ((List.range 4096).map fun n =>
    let c := el 4 a (4096 * (q / 4) + n) + 16 * el 2 b (4096 * (q % 4) + n)
    some (match f with
      | .s6 => toBitsN 8 (sext c 6)
      | .e2m3 => c, 0))

/-- The codes' planes: bits 3:0 or bits 5:4 of each byte. -/
def split6 (four : Bool) (q a : Nat) : VRes :=
  let codes := (List.range 4096).map fun n => el 8 a n
  if four then
    ⟨packW 4 (codes.map (· % 16)) * 2 ^ (8 * 2048 * q), (2 ^ 4096 - 1) * 2 ^ (2 * 2048 * q), 0⟩
  else
    ⟨packW 2 (codes.map (· / 16 % 4)) * 2 ^ (8 * 1024 * q), (2 ^ 2048 - 1) * 2 ^ (2 * 1024 * q), 0⟩

/-! ### Reductions and scans (R205, R206) -/

def RedOp.kind : RedOp → RKind
  | .add => .add
  | .min => .min
  | .max => .max
  | .and => .and
  | .or => .or
  | .xor => .xor

def ScanOp.kind : ScanOp → RKind
  | .add => .add
  | .min => .min
  | .max => .max

/-- An element as a reduction takes it: the identity where it is disabled. -/
def redEl (t : EType) (o : RKind) (mk : Bool) (top a n : Nat) : Nat :=
  if enabled t mk top n then el (stepOf t) a n else identity t o

/-- The sub-elements of line `k`: a row, or with `col` a column position. -/
def lineOf (t : EType) (col : Bool) (k : Nat) : List Nat :=
  if col then (List.range 16).map fun y => y * rowLen t + k else (List.range (rowLen t)).map fun i => k * rowLen t + i

/-- The line of a sub-element and its place there. -/
def placeOf (t : EType) (col : Bool) (n : Nat) : Nat × Nat :=
  if col then (n % rowLen t, n / rowLen t) else (n / rowLen t, n % rowLen t)

def lineCount (t : EType) (col : Bool) : Nat := if col then rowLen t else 16

def reduce (x : Tile) (t : EType) (o : RKind) (col : Bool) (m : VMod) (a : Nat) : VRes :=
  let accs := (List.range (lineCount t col)).map fun k =>
    (lineOf t col k).foldl (fun s n => accStep t o (m.rnd == .rd) s (redEl t o m.msk x.top a n)) Acc.empty
  perElem t m.msk x.top fun n => accOut t o (modeAt x m.rnd m.sat n) (accs.getD (placeOf t col n).1 .empty)

/-- The states after each element. -/
def prefixes (f : Acc → Nat → Acc) : Acc → List Nat → List Acc
  | _, [] => []
  | s, c :: r => let s' := f s c; s' :: prefixes f s' r

def scan (x : Tile) (t : EType) (o : RKind) (col excl : Bool) (m : VMod) (a : Nat) : VRes :=
  let accs := (List.range (lineCount t col)).map fun k =>
    let p := prefixes (accStep t o (m.rnd == .rd)) .empty ((lineOf t col k).map (redEl t o m.msk x.top a))
    if excl then Acc.empty :: p else p
  perElem t m.msk x.top fun n =>
    let p := placeOf t col n
    accOut t o (modeAt x m.rnd m.sat n) ((accs.getD p.1 []).getD p.2 .empty)

/-! ### The mask stack (R190) -/

/-- The pattern MPUSH forms. -/
def maskOf (t : EType) (a : Nat) : Nat :=
  packW (stepOf t / 4) ((List.range (count t)).map fun i =>
    if nonzero t (el (stepOf t) a i) then 2 ^ (stepOf t / 4) - 1 else 0)

end Sys2Proof.Machine
end

