-- ==== Sys2Proof/Machine/Array.lean ====
section
/-! DEFINITION. The words of the time-domain array, its command queue, and the steps by which commands start, latch and
retire (R215-R238, R360, R361). -/

namespace Sys2Proof.Machine

/-! ### Pushing commands (R217, R218) -/

/-- A word of the array in a phase that does not admit it traps in the cycle in which it would have issued (R29, R75). -/
def phaseTrap (x : Tile) : Act := .trap Cause.phaseIllegal (BitVec.ofNat 64 (x.seat.phase % 2))

/-- A queue command: room in the queue, the checks at push, phase legality first, then the push (R218). -/
def tdaQueue (h : Ring) (sem : SemF) (mk : Nat → Tile → State → Except Act (State × TOp)) : State → Out :=
  engWord .tda (.mk h 2 .cx 1 1 true) fun t s =>
    let x := s.tile t
    if x.tda.full then .wait
    else if x.seat.phase % 2 = 1 then phaseTrap x
    else match mk t x s with
    | .error e => e
    | .ok (s, op) =>
      let id := x.tda.nextId
      .go (s.modTile t fun y => { y with tda := { y.tda with
          nextId := id + 1
          queue := y.tda.queue ++ [⟨id, x.ptda.pc, x.ptda.walk, x.cyc, op, sem⟩] } })
        ⟨[], 1, 1, none, id⟩

def illegalShape {α : Type} : Except Act α := .error (.trap Cause.shape 0)

/-- N of a command (R139). -/
def colsOf (nsz : BitVec 6) : Nat := 16 * (nsz.toNat + 1)

/-- Element size of an accumulator view; none where its shape or type is wrong (R64, R227). -/
def elemSize (w : View) (f32 x48 : Bool) : Option Nat :=
  if w.shape ≠ 2#2 then none
  else if w.etype = 0#4 && f32 then some 4
  else if w.etype = 0xE#4 && x48 then some 8
  else none

/-- R64's check of an accumulator, with .cs as R225 gives: where it begins and its row pitch. -/
def accumulator (x : Tile) (v i : BitVec 3) (e m n : Nat) (cs : Bool) : Option (Nat × Nat) :=
  let w := x.view v
  let m := if cs then m + 1 else m
  let n := if cs then n + 1 else n
  if w.pitch < n * e || w.extent < i.toNat * w.istep + (m - 1) * w.pitch + n * e then none
  else some (w.base + i.toNat * w.istep, w.pitch)

/-- The push view agrees for every column group (R217). -/
def viewsAgree (x : Tile) (g : Nat) (f : TFmt) (wide : Bool) : Bool :=
  (List.range g).all fun k => x.tda.view.get none k == some ⟨f, wide⟩

def pushMac (h : Ring) (v i : BitVec 3) (msz : MSize) (nsz : BitVec 6) (f : TFmt) (cs wide : Bool) (sem : SemF) :
    State → Out :=
  tdaQueue h sem fun _ x s =>
    let m := MSize.rows msz
    let n := colsOf nsz
    match elemSize (x.view v) (!wide) wide with
    | none => illegalShape
    | some e =>
      match accumulator x v i e m n cs with
      | none => illegalShape
      | some (b, p) =>
        if viewsAgree x (ceilDiv n 64) f wide then .ok (s, .mac wide b p m n f cs) else illegalShape

def execTmac (h : Ring) (v i : BitVec 3) (m : MSize) (nsz : BitVec 6) (fmt : TFmt) (cs : Bool) (sem : SemF) :
    State → Out := pushMac h v i m nsz fmt cs false sem
def execTmacx (h : Ring) (v i : BitVec 3) (m : MSize) (nsz : BitVec 6) (fmt : TFmt) (cs : Bool) (sem : SemF) :
    State → Out := pushMac h v i m nsz fmt cs true sem

/-- TLDB updates the push view at push (R217, R226). -/
def execTldb (h : Ring) (slot cnt : BitVec 4) (x : Bool) (fmt : TFmt) (sem : SemF) : State → Out :=
  tdaQueue h sem fun t _ s =>
    let put (m : Map (Option PlaneFmt)) (k : Nat) : Map (Option PlaneFmt) := m.set none (slot.toNat + k) (some ⟨fmt, x⟩)
    .ok (s.modTile t fun y => { y with tda := { y.tda with
        view := (List.range (cnt.toNat + 1)).foldl put y.tda.view } },
      .ldb slot.toNat (cnt.toNat + 1) x fmt)

def execTzero (h : Ring) (v i : BitVec 3) (m : MSize) (nsz : BitVec 6) (cs : Bool) (sem : SemF) : State → Out :=
  tdaQueue h sem fun _ x s =>
    match elemSize (x.view v) true true with
    | none => illegalShape
    | some e =>
      match accumulator x v i e (MSize.rows m) (colsOf nsz) cs with
      | none => illegalShape
      | some (b, p) => .ok (s, .zero b p e (MSize.rows m) (colsOf nsz) cs)

/-- A race takes its keys at push (R218, R234). -/
def pushRace (h : Ring) (d a : Opnd) (rows : BitVec 4) (kt : KeyType) (q : Bool) (op : RaceOp) (sem : SemF) : State → Out :=
  tdaQueue h sem fun t x s =>
    let r := rows.toNat + 1
    match s.sources t .tda [d, a] none [(a, 256 * r)] with
    | .error e => .error e
    | .ok (s, vs) =>
      let v := vs.getD 0 0
      let out := (List.range r).map fun y =>
        raceRow op kt y ((List.range 64).map fun i => el 32 v (64 * y + i))
      let lands := (resultLands x 0 d .acc (packW 32 out.flatten) (2 ^ (512 * r) - 1)).map (·.2)
      .ok (s, .race lands (if q then out.map fun l => BitVec.ofNat 32 (l.headD 0) else []) (raceLat op kt - 24))

def execRaceMin (h : Ring) (d a : Opnd) (rows : BitVec 4) (kt : KeyType) (q : Bool) (sem : SemF) : State → Out :=
  pushRace h d a rows kt q (.least false) sem
def execRaceMax (h : Ring) (d a : Opnd) (rows : BitVec 4) (kt : KeyType) (q : Bool) (sem : SemF) : State → Out :=
  pushRace h d a rows kt q (.least true) sem
def execRaceArgmin (h : Ring) (d a : Opnd) (rows : BitVec 4) (kt : KeyType) (q : Bool) (sem : SemF) : State → Out :=
  pushRace h d a rows kt q (.arg false) sem
def execRaceArgmax (h : Ring) (d a : Opnd) (rows : BitVec 4) (kt : KeyType) (q : Bool) (sem : SemF) : State → Out :=
  pushRace h d a rows kt q (.arg true) sem
def execRaceSort (h : Ring) (d a : Opnd) (rows : BitVec 4) (kt : KeyType) (desc : Bool) (sem : SemF) : State → Out :=
  pushRace h d a rows kt false (.sort desc) sem
def execRaceTopk (h : Ring) (d a : Opnd) (rows : BitVec 4) (kt : KeyType) (km1 : BitVec 6) (sem : SemF) : State → Out :=
  pushRace h d a rows kt false (.topk (km1.toNat + 1)) sem

/-! ### Direct words (R222, R229, R230, R236, R237) -/

/-- Nothing of the array is in progress (R222). -/
def Tda.quiet (d : Tda) : Bool := d.queue.isEmpty && d.runs.isEmpty && d.direct.isNone

/-- A direct word issues once the array is quiet and its semaphore wait is met (R222); that wait of a word that an exchange phase
admits holds the tile (R72). -/
def tdaDirect (h : Ring) (leg : Legal) (sem : SemF) (act : Nat → Tile → State → Act) : State → Out :=
  engWord .tda (.mk h 2 .cx 1 1 true) fun t s =>
    let x := s.tile t
    if !Tda.quiet x.tda then .wait
    else if sem.we && x.semCount sem.wsem.toNat = 0 then (if leg == .x && x.seat.phase % 2 == 1 then .hold s else .wait)
    else if !leg.ok x.seat.phase then phaseTrap x
    else act t x (if sem.we then s.takeSem t sem.wsem.toNat else s)

/-- The word is in progress for some cycles, then its signals are sent. -/
def direct (s : State) (t : Nat) (lat : Nat) (w : TWork) (sem : SemF) (lands : List (Nat × Land)) : Act :=
  .go (s.modTile t fun x => { x with tda := { x.tda with direct := some ⟨x.cyc + lat, w, sem⟩ } })
    ⟨lands, 1, lat, none, 0⟩

def marginTrap (x : Tile) : Act := .trap Cause.margin x.tda.mmap

/-- TSTAT without MRG (R228). -/
def Tda.stat (d : Tda) : Nat := (if d.calr then 8 else 0) + (if d.clmp then 2 else 0) + (if d.ovf then 1 else 0)

def execTflag (h : Ring) (d : Opnd) (mg clr : Bool) (sem : SemF) : State → Out :=
  tdaDirect h .c sem fun t x s =>
    if shapeBad x [d] then .trap Cause.shape 0
    else if mg && x.tda.mmap ≠ 0 then marginTrap x
    else
      let s := if clr then s.modTile t fun y =>
        { y with tda := { y.tda with ovf := false, clmp := false, calr := false } } else s
      direct s t 4 .flag sem (resultLands x 4 d .acc (Tda.stat x.tda) allNibbles)

def execTdrain (h : Ring) (sem : SemF) : State → Out :=
  tdaDirect h .c sem fun t x s =>
    if x.tda.mmap ≠ 0 then marginTrap x
    else .go (if sem.se then s.signalSem t sem.ssem.toNat else s) ⟨[], 1, 0, none, 0⟩

def execTcal (h : Ring) (crow : BitVec 6) (sem : SemF) : State → Out :=
  tdaDirect h .x sem fun t _ s => direct s t 300 (.cal crow) sem []

/-- TMARG: the guard codes are the part's (log 5). -/
def execTmarg (h : Ring) (d : Opnd) (crow : BitVec 6) (sem : SemF) : State → Out :=
  tdaDirect h .x sem fun t x s =>
    if shapeBad x [d] then .trap Cause.shape 0
    else
      let g := (List.range 256).map fun j => Config.guardCode s.free j
      let v := packW 32 (g.map fun c => (c.signExtend 32).toNat)
      let out := g.any fun c => decide (11 < c.toInt.natAbs)
      direct s.draw t 300 (.marg crow out) sem (resultLands x 300 d .acc v allNibbles)

def execTarrive (h : Ring) : State → Out :=
  engWord .tda (.tile h .cx) fun t s =>
    if Tda.quiet (s.tile t).tda then .go (s.arrive t .tda) Eff.nil else .wait

/-! ### Starting (R219-R221) -/

def TOp.isMac : TOp → Bool
  | .mac .. => true
  | _ => false
def TOp.isLdb : TOp → Bool
  | .ldb .. => true
  | _ => false
def TOp.pushes : TOp → Nat
  | .race _ p _ => p.length
  | _ => 0

/-- The head entry of a FIFO is whole. -/
def headWhole (es : List FifoEnt) (cyc : Nat) : Bool := (es.head?.map fun e => decide (e.whole ≤ cyc)).getD false

/-- R219's conditions on the head of the queue. -/
def canStart (x : Tile) (c : TCmd) : Bool :=
  let d := x.tda
  decide (c.pushed < x.cyc) && decide (d.lastStart < x.cyc) && decide (d.occEnd ≤ x.cyc)
    && (!(TOp.isMac c.op || TOp.isLdb c.op) || !(d.runs.any fun r => TOp.isLdb r.cmd.op))
    && (!c.sem.we || x.semCount c.sem.wsem.toNat ≠ 0)
    && (!TOp.isMac c.op || headWhole d.ofa x.cyc)
    && (!TOp.isLdb c.op || headWhole d.ofb x.cyc)
    && decide (TOp.pushes c.op + (d.runs.map fun r => r.push.length).sum + x.sync.fqa.length ≤ 64
      || TOp.pushes c.op = 0)

/-- Register space as the array's commands read it (R220). -/
def Tile.arrayReg (x : Tile) : Mem :=
  x.tda.seen.foldl (fun m e => e.2.foldl (fun m r => Mem.merge m r.1 r.2) m) x.store.reg

/-- The command has started: it leaves the queue, takes its semaphore, and its writes are recorded. They count as landed in this
cycle for the commands after it, under the writes of later words that land in it too (R73, R220). -/
def State.begin (s : State) (t : Nat) (c : TCmd) (r : TRun) (occ : Nat) (lands : List Land) : State :=
  let s := if c.sem.we then s.takeSem t c.sem.wsem.toNat else s
  let runs := lands.flatMap Land.regRuns
  s.modTile t fun x =>
    let later := if x.tda.justAt = x.cyc then (x.tda.just.filter fun j => decide (c.pos < j.1)).flatMap (·.2) else []
    { x with
      pend := x.pend ++ lands.map fun l => ⟨r.retire, c.pos, .tda, c.id, l⟩
      tda := { x.tda with
        queue := x.tda.queue.drop 1
        runs := x.tda.runs ++ [r]
        lastStart := x.cyc
        occEnd := if TOp.isLdb c.op then x.tda.occEnd else x.cyc + occ
        seen := if runs.isEmpty then x.tda.seen
          else cutSeen x.tda.seen (masksOf runs) ++ cutSeen [(c.id, runs)] later } }

/-- A command that is not a load of planes runs for `lat` cycles. -/
def TRun.plain (x : Tile) (c : TCmd) (lat : Nat) : TRun := ⟨c, x.cyc, x.cyc + lat, 0, 0, [], false, false, 0⟩

/-- MODE 11 slots on the blocks of a product fire (R310): the blocks, and the state after. -/
def State.fireMargin (s : State) (t : Nat) (cover : BitVec 64) : State × BitVec 64 :=
  [0, 1, 2, 3].foldl (fun r k =>
    let i := (r.1.die (dieOf t)).inj.get State.inj0 k
    let b := i.waddr.toNat % 64
    if i.armed && i.mode == 3#2 && i.tile.toNat == slotOf t && cover.getLsbD b then
      (r.1.modDie (dieOf t) fun x => { x with
        inj := x.inj.put k { i with armed := false }, fired := x.fired ||| BitVec.ofNat 4 (2 ^ k) },
        r.2 ||| BitVec.ofNat 64 (2 ^ b))
    else r) (s, 0)

/-- The margin blocks of an M x N output (R105). -/
def coverOf (m n : Nat) : BitVec 64 :=
  BitVec.ofNat 64 (((List.range (m / 16)).map fun r => (2 ^ ceilDiv n 64 - 1) * 2 ^ (16 * r)).sum)

/-- 64-bit codeParts of an entry or a plane (R375). -/
def codeParts (bs : List Byte) : Nat := ceilDiv bs.length 8

/-- A step of the array: the state after it, or the fault of the command at a head address, with its cause and AUX. -/
abbrev ArrayStep := State × Option (Nat × BitVec 8 × DWord)

/-- A read of storage by the array, then its step (R375). -/
def State.tdaRead (c : TCmd) (r : State × Option Nat) (k : State → ArrayStep) : ArrayStep :=
  match r with
  | (s, some w) => (s, some (c.head, Cause.ecc, BitVec.ofNat 64 w))
  | (s, none) => k s

/-- The planes of a product are read (R375). -/
def State.touchPlanes (s : State) (t : Nat) (planes : List (List Byte)) : State × Option Nat :=
  planes.zipIdx.foldl (fun (q : State × Option Nat) p =>
    if q.2.isSome || p.1.isEmpty then q
    else q.1.touch t (Eng.code .tda, 0) .slot (1024 * p.2) (1024 * p.2 + codeParts p.1 - 1)) (s, none)

/-- The checks of a product's start: the debug pending read of its accumulator (R221), ECC of what it reads (R375). -/
def State.macReads (s : State) (t : Nat) (c : TCmd) (runs : List (Nat × Nat)) (planes : List (List Byte))
    (k : State → ArrayStep) : ArrayStep :=
  let x := s.tile t
  match if x.stop.pbm then pendingWord x runs false else none with
  | some w => (s, some (c.head, Cause.debugRead, BitVec.ofNat 64 (4 * w)))
  | none =>
    State.tdaRead c (s.touchRuns t .tda .reg runs) fun s =>
      State.tdaRead c (s.touch t (Eng.code .tda, 0) .ofa 0 (codeParts ((x.tda.ofa.head?.map (·.bytes)).getD []) - 1)) fun s =>
        State.tdaRead c (s.touchPlanes t planes) k

/-- The number of the free bytes beyond a short entry: fixed by the word, its place in the run and the logical tile, so that every
run reads the same (R1, R15). -/
def entryKey (x : Tile) (c : TCmd) : Nat :=
  17 * (((x.seat.phase * 512 + x.seat.lt) * 32768 + c.head) * 65536 + c.pos % 65536)

/-- The oldest entry of OFA leaves. -/
def Tile.popOfa (x : Tile) : Tile :=
  { x with
    store := { x.store with ecc := shiftMarks x.store.ecc .ofa (codeParts ((x.tda.ofa.head?.map (·.bytes)).getD [])) }
    tda := { x.tda with ofa := x.tda.ofa.drop 1 } }

/-- A product starts (R220, R224). -/
def State.startMac (s : State) (t : Nat) (c : TCmd) (wide : Bool) (base pitch m n : Nat) (f : TFmt) (cs : Bool) : ArrayStep :=
  let g := ceilDiv n 64
  let e := if wide then 8 else 4
  let runs := accRuns base pitch e m n cs
  let planes := (List.range g).map fun i => (((s.tile t).tda.slots.get none i).map (·.bytes)).getD []
  s.macReads t c runs planes fun s =>
    let k := s.free
    let x := s.tile t
    let need (r : Nat) : Nat := sectionBytes f r + (if wide then 0 else r * blocksOf f)
    let entry := entryNum (entryKey x c) ((x.tda.ofa.head?.map (·.bytes)).getD []) (need m)
    let i := macIn f m n entry (planes.zipIdx.map fun p => entryNum (entryKey x c + 1 + p.2) p.1 (need 64))
    let oob := Config.outOfBand k &&& coverOf m n
    let ds := i.a.zipIdx.map fun a => i.b.zipIdx.map fun b => blockInts (k + 1) oob f n a.2 b.2 a.1 b.1
    let reg := Tile.arrayReg x
    let acc := runs.map fun r => (List.range (r.2 / e)).map fun j => Mem.num reg (r.1 + j * e) e
    let o := if wide then productX48 cs n ds acc else productF32 f cs n i ds acc
    let (s, inj) := s.fireMargin t (coverOf m n)
    let occ := passes f * passGap f * g
    let out : List (Nat × List Byte) := List.zipWith (fun r l => (r.1, l.flatMap (leBytes e))) runs o.rows
    let s := { s with free := s.free + 2 }
    ((s.modTile t Tile.popOfa).begin t c
      { TRun.plain x c (24 + occ) with ovf := o.ovf, clmp := i.clamp, marg := oob ||| inj } occ [.bytes .reg out], none)

/-- A plane leaves OFB for its slot (R226). -/
def Tile.latchPlane (x : Tile) (k : Nat) (f : TFmt) (wide : Bool) : Tile :=
  let bs := (x.tda.ofb.head?.map (·.bytes)).getD []
  { x with
    store := { x.store with
      ecc := (shiftMarks x.store.ecc .ofb (codeParts bs)).filter fun m => !(m.sp == .slot && m.word / 1024 == k) }
    tda := { x.tda with slots := x.tda.slots.set none k (some ⟨⟨f, wide⟩, bs⟩), ofb := x.tda.ofb.drop 1 } }

/-- The head plane of OFB is read (R375). -/
def State.touchOfb (s : State) (t : Nat) : State × Option Nat :=
  s.touch t (Eng.code .tda, 0) .ofb 0 (codeParts (((s.tile t).tda.ofb.head?.map (·.bytes)).getD []) - 1)

/-- A TLDB after one more latch: the last one fixes its retirement (R226). -/
def TRun.latch (r : TRun) (cyc : Nat) : TRun := { r with latched := r.latched + 1, lastLatch := cyc, retire := cyc + 8 }

def State.startCmd (s : State) (t : Nat) (c : TCmd) : ArrayStep :=
  let x := s.tile t
  match c.op with
  | .mac wide base pitch m n f cs => s.startMac t c wide base pitch m n f cs
  | .ldb slot _ wide f =>
    State.tdaRead c (s.touchOfb t) fun s =>
      ((s.begin t c (TRun.latch (TRun.plain x c 8) x.cyc) 0 []).modTile t fun y => y.latchPlane slot f wide, none)
  | .zero base pitch e m n cs =>
    let occ := ceilDiv n 64 * m / 16
    (s.begin t c (TRun.plain x c (8 + occ)) occ
      [.bytes .reg ((accRuns base pitch e m n cs).map fun r => (r.1, List.replicate r.2 0#8))], none)
  | .race lands push occ => (s.begin t c { TRun.plain x c (24 + occ) with push := push } occ lands, none)

/-- The start of the head of the queue, if R219 lets it start. -/
def State.startHead (s : State) (t : Nat) : ArrayStep :=
  let x := s.tile t
  match x.tda.queue with
  | [] => (s, none)
  | c :: _ => if canStart x c then s.startCmd t c else (s, none)

/-- A fault of the array: the tile freezes with the command's head address (R221). -/
def State.arrayFreeze (s : State) (t : Nat) (f : Nat × BitVec 8 × DWord) : State :=
  s.freeze t ⟨f.2.1, f.2.2, Eng.code .tda, f.1, 0, 0, false⟩ 0

/-- A step of the array, or the freeze it ends in. -/
def State.arrayStep (t : Nat) (r : ArrayStep) : State :=
  match r with
  | (s, some f) => s.arrayFreeze t f
  | (s, none) => s

/-- TDA_COMMAND_START (R219). -/
def execTdaCommandStart (t : Nat) (s : State) : Out := .next (State.arrayStep t (s.startHead t))

/-- The next plane of a TLDB that can be latched: its command, slot and format (R226). -/
def TRun.nextPlane (x : Tile) (r : TRun) : Option (TCmd × Nat × Bool × TFmt) :=
  match r.cmd.op with
  | .ldb slot n wide f =>
    if r.latched < n && decide (r.lastLatch + 8 ≤ x.cyc) && headWhole x.tda.ofb x.cyc then
      some (r.cmd, slot + r.latched, wide, f) else none
  | _ => none

/-- Plane i + 1 of a TLDB is latched, at least 8 cycles after plane i (R226). -/
def State.latchNext (s : State) (t : Nat) : ArrayStep :=
  let x := s.tile t
  match x.tda.runs.findSome? (TRun.nextPlane x) with
  | none => (s, none)
  | some (c, k, wide, f) =>
    State.tdaRead c (s.touchOfb t) fun s =>
      (s.modTile t fun x =>
        let y := x.latchPlane k f wide
        { y with tda := { y.tda with
            runs := y.tda.runs.map fun q => if q.cmd.id = c.id then TRun.latch q x.cyc else q } }, none)

/-- TLDB_PLANE_LATCH. -/
def execTldbPlaneLatch (t : Nat) (s : State) : Out := .next (State.arrayStep t (s.latchNext t))

/-! ### Retiring (R46, R50, R219, R224, R228, R234) -/

/-- A run retires in a cycle. -/
def TRun.over (r : TRun) (cyc : Nat) : Bool :=
  decide (r.retire ≤ cyc) && match r.cmd.op with
    | .ldb _ n _ _ => decide (n ≤ r.latched)
    | _ => true

/-- Bits of a margin map that are set and were not (R380). -/
def newMargins (old new : BitVec 64) : Nat := ((List.range 64).filter fun i => new.getLsbD i && !old.getLsbD i).length

/-- Sticky flags, margin map, FQA pushes, the semaphore signal and the event counts of a command that retires. -/
def State.retire (s : State) (t : Nat) (r : TRun) : State :=
  let s := s.modTile t fun x => ((x.bump 0x0B 1).bump 0x0A (newMargins x.tda.mmap r.marg))
  let s := s.modTile t fun x => { x with
    tda := { x.tda with
      runs := x.tda.runs.filter fun q => q.cmd.id ≠ r.cmd.id
      ovf := x.tda.ovf || r.ovf
      clmp := x.tda.clmp || r.clmp
      mmap := x.tda.mmap ||| r.marg
      mfirst := if x.tda.mmap = 0 && r.marg ≠ 0 then BitVec.ofNat 15 r.cmd.head else x.tda.mfirst }
    sync := { x.sync with fqa := x.sync.fqa ++ r.push.map fun v => ⟨v, x.cyc + 1, false⟩ } }
  if r.cmd.sem.se then s.signalSem t r.cmd.sem.ssem.toNat else s

/-- One segment of a press step (R360). -/
def trimStep (old : BitVec 16) (c : BitVec 11) (g : BitVec 5) : BitVec 16 :=
  let v : Int := (old.extractLsb' 0 14).toNat - (32 * ((c.toNat : Int) - 480) + g.toInt)
  let w := max 0 (min v 16383)
  BitVec.ofBool (decide (v < 0) || decide (16383 < v)) ++ 0#1 ++ BitVec.ofInt 14 w

/-- The reset value of a trim register (R359). -/
def trimReset : BitVec 16 := 0x2000

/-- A trim register after a press of the numbers `k` (R360); `i` counts the segments of a die. -/
def trimPressed (i k : Nat) (v : BitVec 16) : BitVec 16 := trimStep v (Config.referenceCount k i) (Config.guardCode k i)

/-- A trim register that neither a TCAL word nor TTRIM has written, of a tile's slot: the die's first presses made it. -/
def trimBase (presses : List Nat) (slot i : Nat) : BitVec 16 := presses.foldr (trimPressed (16384 * slot + i)) trimReset

namespace State

/-- A trim register of a tile, by row, column and segment (R308, R359). -/
def trim (s : State) (t i : Nat) : BitVec 16 := (s.tile t).trim.get (trimBase (s.die (dieOf t)).presses (slotOf t) i) i
def setTrim (s : State) (t i : Nat) (v : BitVec 16) : State :=
  s.modTile t fun x => { x with trim := x.trim.set (trimBase (s.die (dieOf t)).presses (slotOf t) i) i v }

/-- TCAL's update of a chain row (R236, R360). -/
def trimRow (s : State) (t row : Nat) : State :=
  (List.range 256).foldl (fun z j =>
    let i := 256 * row + j
    z.setTrim t i (trimStep (z.trim t i) (Config.referenceCount s.free j) (Config.guardCode s.free j))) s.draw

/-- A first press of a tile is complete: TCAL and TMARG of all 64 rows (R361). At bring-up LAST is 0 (R387). -/
def pressTile (s : State) (k last t : Nat) : State :=
  let ps := (s.die (dieOf t)).presses
  s.modTile t fun x => { x with
    trim := x.trim.filterMap fun e =>
      let v := trimPressed (16384 * slotOf t + e.1) k e.2
      if v = trimBase (k :: ps) (slotOf t) e.1 then none else some (e.1, v)
    press := { rows := 0, last := last, due := false, lastCal := some 63 } }

/-- The first press of a die's tiles begins (R361, R385, R387): 64 rows of TCAL and TMARG take 38,400 cycles (R237; log 65). -/
def startPress (s : State) (d : Nat) : State :=
  s.draw.modDie d fun x => { x with pressAt := some (s.ticks + 38400 + Config.pressTicks s.free) }

/-- The first press of a die's tiles ends. -/
def endPress (s : State) (d : Nat) : State :=
  match (s.die d).pressAt with
  | none => s
  | some n =>
    if s.ticks < n then s
    else
      let last := if s.pkg.boot < 10 then 0 else s.time
      ((List.range 64).foldl (fun z i => z.pressTile s.free last (64 * d + i)) s).draw.modDie d fun x =>
        { x with presses := s.free :: x.presses, pressAt := none }

end State

/-- A row of a press is done (R361). -/
def Press.rowDone (p : Press) (row : BitVec 6) (time : Nat) : Press :=
  if p.lastCal = some row then
    let r := p.rows ||| BitVec.ofNat 64 (2 ^ row.toNat)
    if r = BitVec.allOnes 64 then { p with rows := 0, last := time, due := false } else { p with rows := r }
  else p

/-- A direct word completes. -/
def State.finishDirect (s : State) (t : Nat) (d : TDirect) : State :=
  let s := match d.work with
    | .flag => s
    | .cal row => (s.trimRow t row.toNat).modTile t fun x => { x with press := { x.press with lastCal := some row } }
    | .marg row out => s.modTile t fun x => { x with
        tda := { x.tda with calr := x.tda.calr || out }, press := x.press.rowDone row s.time }
  let s := s.modTile t fun x => { x with tda := { x.tda with direct := none } }
  if d.sem.se then s.signalSem t d.sem.ssem.toNat else s

/-- TDA_COMMAND_RETIRE: every command due, in start order, and the direct word that completes (R219, R222). -/
def execTdaCommandRetire (t : Nat) (s : State) : Out :=
  let x := s.tile t
  let s := (x.tda.runs.filter fun r => TRun.over r x.cyc).foldl (fun s r => s.retire t r) s
  .next <| match x.tda.direct with
  | some d => if d.until_ ≤ x.cyc then s.finishDirect t d else s
  | none => s

end Sys2Proof.Machine
end

