-- ==== Sys2Proof/Machine/Memory.lean ====
section
/-! DEFINITION. Loads, stores and atomics, on a tile's scratchpad and on the firmware core's map (R111, R115, R129, R174,
R175, R288, R323). -/

namespace Sys2Proof.Machine

/-- The effective address (R174). -/
def effAddr (c : Ctl) (base : SReg) (off : BitVec 8) (z : Nat) : Nat :=
  (c.rS base + wordOf (off.toInt * z)).toNat

/-- Where a load's value goes: sign- or zero-extended, or a pair. -/
def loadLands (lat : Nat) (rd : SReg) (z : Nat) (signed : Bool) (v : Nat) : List (Nat × Land) :=
  if z = 8 then putD lat rd (BitVec.ofNat 64 v)
  else putS lat rd (if signed then wordOf (sext v (8 * z)) else BitVec.ofNat 32 v)

/-! ### The firmware core's map (R288) -/

inductive FwcRegion | data | patch | rom | aperture
deriving DecidableEq, Repr

/-- The region that holds all of an access; none outside the regions or across two. -/
def fwcRegion (a n : Nat) : Option FwcRegion :=
  if a + n ≤ 0x38000 then some .data
  else if 0x38000 ≤ a && a + n ≤ 0x40000 then some .patch
  else if 0x40000000 ≤ a && a + n ≤ 0x40018000 then some .rom
  else if 0x80000000 ≤ a && a + n ≤ 0x100000000 then some .aperture
  else none

namespace State

/-- The physical address of an aperture access that exists (R288, R313). -/
def apertureAddr (s : State) (d a n : Nat) : Option Nat :=
  let pa := (s.fwc d).apbase.toNat + (a - 0x80000000)
  if s.physOk pa n then some pa else none

/-- A store into the protected memory of a partition that is not at rest is refused (R323). -/
def storeRefused (s : State) (pa n : Nat) : Bool :=
  s.parts.any fun e => !e.2.st.atRest && protectedBy e.2 pa n

/-- The tick at which an aperture access is performed (R288; log 5). -/
def apTick (s : State) : Nat := s.ticks + 1 + Config.apertureTicks s.free

/-- A blocking word of the firmware core begins: it issues, and nothing follows it until it ends (R288, R301-R309). -/
def block (s : State) (d : Nat) (b : Blk) : Act :=
  .go (s.modFwc d fun f => { f with blk := some b, blkAt := fwcHead f }) Eff.nil

end State

def violation (a : Nat) : Act := .trap Cause.ownership (BitVec.ofNat 64 a)

/-! ### Loads (R174) -/

/-- An uncorrectable ROM word is a double fault (R375, R296). -/
def State.romError (s : State) (d w : Nat) : Act :=
  .fail (s.modFwc d fun f => { f with exc := true }) Cause.ecc (BitVec.ofNat 64 (0x40000000 + w))

def fwcLoad (s : State) (d : Nat) (rd : SReg) (z : Nat) (signed : Bool) (a : Nat) : Act :=
  match fwcRegion a z with
  | none => violation a
  | some .aperture =>
    match s.apertureAddr d a z with
    | none => violation a
    | some pa => s.draw.block d (.apLoad pa z signed (z == 8) rd s.apTick)
  | some .rom =>
    match s.touchFwc d .rom ((a - 0x40000000) / 4) ((a - 0x40000000 + z - 1) / 4) with
    | (s, some w) => s.romError d w
    | (s, none) =>
      .go s (Eff.of (loadLands 4 rd z signed (ofLe ((List.range z).map fun i => Config.romByte (a - 0x40000000 + i)))))
  | some _ =>
    match s.touchSram d (a / 4) ((a + z - 1) / 4) with
    | (s, some w) => .fail s Cause.ecc (BitVec.ofNat 64 w)
    | (s, none) => .go s (Eff.of (loadLands 4 rd z signed (ofLe ((s.fwc d).read a z))))

def tileLoad (s : State) (t : Nat) (rd : SReg) (z : Nat) (signed : Bool) (a : Nat) : Act :=
  match s.readLocal t .ctl a z with
  | .error e => e
  | .ok (s, bs) => .go s (Eff.of (loadLands 4 rd z signed (ofLe bs)))

/-- A load of `z` bytes. -/
def load (h : Ring) (rd base : SReg) (off : BitVec 8) (z : Nat) (signed : Bool) : State → Out :=
  ctlWord (.c h 4) fun s =>
    let a := effAddr s.ctl base off z
    match s.cur with
    | .fwc d => fwcLoad s d rd z signed a
    | .eng t _ => tileLoad s t rd z signed a
    | .pkg => .wait

def execLdb (h : Ring) (rd base : SReg) (off : BitVec 8) : State → Out := load h rd base off 1 true
def execLdbz (h : Ring) (rd base : SReg) (off : BitVec 8) : State → Out := load h rd base off 1 false
def execLdh (h : Ring) (rd base : SReg) (off : BitVec 8) : State → Out := load h rd base off 2 true
def execLdhz (h : Ring) (rd base : SReg) (off : BitVec 8) : State → Out := load h rd base off 2 false
def execLdw (h : Ring) (rd base : SReg) (off : BitVec 8) : State → Out := load h rd base off 4 false
def execLdd (h : Ring) (rd base : SReg) (off : BitVec 8) : State → Out := load h rd base off 8 false

/-! ### Stores (R174) -/

def fwcStore (s : State) (d a : Nat) (bs : List Byte) : Act :=
  match fwcRegion a bs.length with
  | none => violation a
  | some .aperture =>
    match s.apertureAddr d a bs.length with
    | none => violation a
    | some pa =>
      if s.storeRefused pa bs.length then violation a
      else s.draw.block d (.apStore pa bs s.apTick)
  | some .rom => violation a
  | some .patch => if (s.fwc d).lock then violation a else .go s (Eff.of [(2, .bytes .sram [(a, bs)])])
  | some .data => .go s (Eff.of [(2, .bytes .sram [(a, bs)])])

/-- A store of `z` bytes lands after 2 cycles. -/
def store (h : Ring) (rs base : SReg) (off : BitVec 8) (z : Nat) : State → Out :=
  ctlWord (.c h 2) fun s =>
    let c := s.ctl
    let a := effAddr c base off z
    let bs := leBytes z (if z = 8 then (c.rD rs).toNat else (c.rS rs).toNat)
    match s.cur with
    | .fwc d => fwcStore s d a bs
    | .eng _ _ => if 0x100000 < a + z then violation a else .go s (Eff.of [(2, .bytes .scr [(a, bs)])])
    | .pkg => .wait

def execStb (h : Ring) (rs base : SReg) (off : BitVec 8) : State → Out := store h rs base off 1
def execSth (h : Ring) (rs base : SReg) (off : BitVec 8) : State → Out := store h rs base off 2
def execStw (h : Ring) (rs base : SReg) (off : BitVec 8) : State → Out := store h rs base off 4
def execStd (h : Ring) (rs base : SReg) (off : BitVec 8) : State → Out := store h rs base off 8

/-! ### Atomics (R175) -/

def fwcAtomic (s : State) (d : Nat) (op : AtomOp) (wide : Bool) (a : Nat) (rd : SReg) (b c : DWord) : Act :=
  let n := if wide then 8 else 4
  match fwcRegion a n with
  | none => violation a
  | some .aperture =>
    match s.apertureAddr d a n with
    | none => violation a
    | some pa =>
      if s.storeRefused pa n then violation a
      else s.draw.block d (.apAtomic op wide pa rd b c s.apTick)
  | some .rom => violation a
  | some g =>
    if g = .patch && (s.fwc d).lock then violation a
    else match s.touchSram d (a / 4) ((a + n - 1) / 4) with
    | (s, some w) => .fail s Cause.ecc (BitVec.ofNat 64 w)
    | (s, none) => .go s (Eff.of [(4, .atomic op wide a rd b c)])

/-- An atomic reads and writes at its landing, 4 cycles after issue; it counts as a first read (R112, R175). -/
def atomic (h : Ring) (op : AtomOp) (wide : Bool) (rd ra rb : SReg) : State → Out :=
  ctlWord (.c h 4) fun s =>
    let c := s.ctl
    let n := if wide then 8 else 4
    let a := (c.rS ra).toNat / n * n
    let b : DWord := if wide then c.rD rb else (c.rS rb).setWidth 64
    let e : DWord := if wide then c.rD rd else (c.rS rd).setWidth 64
    match s.cur with
    | .fwc d => fwcAtomic s d op wide a rd b e
    | .eng t _ =>
      match s.readLocal t .ctl a n with
      | .error e => e
      | .ok (s, _) => .go s (Eff.of [(4, .atomic op wide a rd b e)])
    | .pkg => .wait

def execAadd (h : Ring) (rd ra rb : SReg) : State → Out := atomic h .add false rd ra rb
def execAmin (h : Ring) (rd ra rb : SReg) : State → Out := atomic h .min false rd ra rb
def execAmax (h : Ring) (rd ra rb : SReg) : State → Out := atomic h .max false rd ra rb
def execAxchg (h : Ring) (rd ra rb : SReg) : State → Out := atomic h .xchg false rd ra rb
def execAcas (h : Ring) (rd ra rb : SReg) : State → Out := atomic h .cas false rd ra rb
def execAcasD (h : Ring) (rd ra rb : SReg) : State → Out := atomic h .cas true rd ra rb

/-! ### The end of an aperture access (R129, R288) -/

/-- An aperture access is still under way, or held at a link of its route (R368). -/
def State.apWaits (s : State) (d pa tick : Nat) : Bool := decide (s.ticks < tick) || s.addrHeld (Config.dieSite d) pa

/-- The read of an aperture access: an uncorrectable codeword of HBM is an exception at the word, with its physical address as
AUX (R297, R375; log 20). -/
def State.apRead (s : State) (d pa n : Nat) (use : State → Nat → State) : State :=
  match s.touchHbm pa n with
  | (s, some e) => s.exception d Cause.ecc (BitVec.ofNat 64 e) (s.fwc d).blkAt
  | (s, none) => use s (s.physNum pa n)

/-- APERTURE_ACCESS_PERFORMED: the access takes its place in the total order; a load or atomic lands in the next
tile cycle. -/
def execApertureAccessPerformed (d : Nat) (s : State) : Out :=
  let f := s.fwc d
  let land (s : State) (ls : List (Nat × Land)) : State :=
    s.modFwc d fun f => { f with blk := none, busy := f.cyc + 1, pend := f.pend ++ pends f.cyc 0 .ctl 0 ls }
  .next <| match f.blk with
  | some (.apLoad pa z signed _ rd tick) =>
    if s.apWaits d pa tick then s
    else s.draw.apRead d pa z fun s v => land s (loadLands 1 rd z signed v)
  | some (.apStore pa bs tick) => if s.apWaits d pa tick then s else land (s.physWrite pa bs) []
  | some (.apAtomic op wide pa rd b c tick) =>
    if s.apWaits d pa tick then s
    else
      let n := if wide then 8 else 4
      s.apRead d pa n fun s v =>
        land (s.physWrite pa (leBytes n (atomNew op wide (BitVec.ofNat 64 v) b c).toNat))
          (if wide then putD 1 rd (BitVec.ofNat 64 v) else putS 1 rd (BitVec.ofNat 32 v))
  | _ => s

end Sys2Proof.Machine
end

