-- ==== Sys2Proof/Machine/Translate.lean ====
section
/-! DEFINITION. Page tables, the walk and the TLU entries of a die (R312, R315-R320). -/

namespace Sys2Proof.Machine

/-- The page size of a leaf at a level (R315). -/
def leafSize : Nat → Nat
  | 1 => 0x40000000
  | 2 => 0x200000
  | _ => 0x10000

/-- The size of a table at a level (R315). -/
def tableSize : Nat → Nat
  | 0 => 0x10000
  | 3 => 256
  | _ => 4096

/-- The index into the table of a level (R312). -/
def walkIndex (va : Nat) : Nat → Nat
  | 0 => bits va 51 39
  | 1 => bits va 38 30
  | 2 => bits va 29 21
  | _ => bits va 20 16

/-- A leaf a walk ends at: where its entry lies, its page, its bits. -/
structure Leaf where
  at_ : Nat
  pa : Nat
  size : Nat
  bits : Nat
deriving DecidableEq, Repr

/-- A page of a footprint: its lowest address, whether the copy reads and writes it (R318). -/
structure Page where
  lo : Nat
  rd : Bool
  wr : Bool
deriving DecidableEq, Repr

/-- A translated page: virtual base, size, physical base, SC, TLU entry, as `Copy.pages` holds it. -/
abbrev Xlat := Nat × Nat × Nat × Bool × Nat

namespace State

/-- Every byte exists, and none is protected (R317). -/
def mapped (s : State) (pa n : Nat) : Bool := s.physOk pa n && !s.inProtected pa n

/-- The walk from a level's table on (R317). R313 tags the accesses that are translated through a context; a walk's own accesses to a
table in the host window are not, and the manual does not say which host memory they reach: here that of the raw address, a store
apart from every PASID's (the model's choice; log 24). -/
def walkFrom (s : State) (va : Nat) : Nat → Nat → Nat → Option Leaf
  | 0, _, _ => none
  | n + 1, l, table =>
    let a := table + 8 * walkIndex va l
    let e := s.physNum a 8
    let addr := Machine.bits e 43 8 * 256
    if !bit e 0 || Machine.bits e 63 44 ≠ 0 || bit e 7 then none
    else if bit e 1 then
      if l = 0 || addr % leafSize l ≠ 0 || !s.mapped addr (leafSize l) then none else some ⟨a, addr, leafSize l, e⟩
    else if 3 ≤ l || Machine.bits e 6 2 ≠ 0 || addr % tableSize (l + 1) ≠ 0 || !s.mapped addr (tableSize (l + 1)) then none
    else walkFrom s va n (l + 1) addr

/-- The walk of a context (R314, R317). -/
def walk (s : State) (c va : Nat) : Option Leaf :=
  let x := s.ctx c
  if x.v then s.walkFrom va 4 0 (0x10000 * x.root.toNat) else none

/-- The entries that a walk reads, from a level's table on (R317). -/
def walkTrail (s : State) (va : Nat) : Nat → Nat → Nat → List Nat
  | 0, _, _ => []
  | n + 1, l, table =>
    let a := table + 8 * walkIndex va l
    let e := s.physNum a 8
    let addr := Machine.bits e 43 8 * 256
    a :: (if bit e 0 && !bit e 1 && decide (l < 3) && s.mapped addr (tableSize (l + 1)) then walkTrail s va n (l + 1) addr else [])

/-- The entries that the walk of a context reads. -/
def walkWords (s : State) (c va : Nat) : List Nat :=
  let x := s.ctx c
  if x.v then s.walkTrail va 4 0 (0x10000 * x.root.toNat) else []

/-- The leaf's SC agrees with every mapped granule its page covers (R317). -/
def scAgrees (s : State) (p va size : Nat) (sc : Bool) : Bool :=
  (List.range (max 1 (size / 0x200000))).all fun i =>
    match s.region p (size * (va / size) + 0x200000 * i) with
    | some e => e.sc == sc
    | none => true

/-- The TLU entry of a die that serves a page (R319). An entry serves writes once a write has set D, and nothing once memory of its
page is protected (R317, R384). -/
def tluHit (s : State) (d c va : Nat) (g : Page) : Option TluEnt :=
  (s.die d).tlu.find? fun e => e.ctx == c && decide (e.va ≤ va) && decide (va < e.va + e.size)
    && (!g.rd || e.r) && (!g.wr || e.w) && s.mapped e.pa e.size

/-- Where the page that an address lies in begins, and its size: 64 KiB where no leaf maps it (R315). -/
def extent (s : State) (c va : Nat) : Nat × Nat :=
  match s.walk c va with
  | some l => (va / l.size * l.size, l.size)
  | none => (0x10000 * (va / 0x10000), 0x10000)

/-- A walk of a page that no entry serves: it sets A and D and leaves an entry, or the page fails (R316-R319). -/
def walkPage (s : State) (d p : Nat) (g : Page) : State × Option Xlat :=
  let c := (s.part p).ctx.toNat
  match s.walk c g.lo with
  | none => (s, none)
  | some l =>
    let sc := bit l.bits 4
    if (g.rd && !bit l.bits 2) || (g.wr && !bit l.bits 3) || !s.scAgrees p g.lo l.size sc then (s, none)
    else
      let old := l.bits % 256
      let new := old ||| 0x20 ||| (if g.wr then 0x40 else 0)
      let s := if new = old then s else s.physWrite l.at_ [BitVec.ofNat 8 new]
      let e : TluEnt := ⟨s.nextId, c, g.lo / l.size * l.size, l.size, l.pa, sc, bit l.bits 2, g.wr⟩
      let s := { s with nextId := s.nextId + 1 }
      (s.modDie d fun x => { x with tlu := x.tlu ++ [e] }, some (e.va, e.size, e.pa, e.sc, e.id))

/-- A page is translated through an entry, or by a walk, which counts (R380). A failure answers the state, which keeps what the TLU has done, the cause
and an address: of the page, or physical of an entry that cannot be read (R375; logs 22, 66). -/
def translate (s : State) (d p : Nat) (g : Page) : Except (State × BitVec 8 × Nat) (State × Xlat) :=
  let c := (s.part p).ctx.toNat
  match s.tluHit d c g.lo g with
  | some e =>
    if s.scAgrees p g.lo e.size e.sc then .ok (s, (e.va, e.size, e.pa, e.sc, e.id)) else .error (s, Cause.translation, g.lo)
  | none =>
    match (s.bumpDie d 0x24 1).touchWords (s.walkWords c g.lo) with
    | (s, some a) => .error (s, Cause.ecc, a)
    | (s, none) =>
      match s.walkPage d p g with
      | (s, none) => .error (s, Cause.translation, g.lo)
      | (s, some x) => .ok (s, x)

/-- Every page of a footprint in rising order. A translation fault answers the lowest footprint address in the page that fails,
which a larger leaf may place below the 64 KiB in which it failed (R318). -/
def translateAll (s : State) (d p : Nat) (all : List Page) : List Page → Except (State × BitVec 8 × Nat) (State × List Xlat)
  | [] => .ok (s, [])
  | g :: r =>
    match s.translate d p g with
    | .error (s', cause, a) =>
      if cause = Cause.translation then
        let e := s.extent (s.part p).ctx.toNat a
        .error (s', cause, ((all.find? fun y => decide (e.1 ≤ y.lo) && decide (y.lo < e.1 + e.2)).map (·.lo)).getD a)
      else .error (s', cause, a)
    | .ok (s, x) =>
      match translateAll s d p all r with
      | .error e => .error e
      | .ok (s, xs) => .ok (s, x :: xs)

/-- A walk that the pages need is held at a link of a route to a table (R368). -/
def walksHeld (s : State) (d p : Nat) (pages : List Page) : Bool :=
  let c := (s.part p).ctx.toNat
  pages.any fun g => (s.tluHit d c g.lo g).isNone && (s.walkWords c g.lo).any (s.addrHeld (Config.dieSite d))

/-- TRANSLATION_COMPLETE (R252): the walk that holds the tile has ended. -/
def endTranslation (s : State) (t : Nat) : State :=
  match (s.tile t).stop.xlatDue with
  | some n => if n ≤ s.ticks then s.modTile t fun x => { x with stop := { x.stop with xlated := true, xlatDue := none } } else s
  | none => s

end State

def execTranslationComplete (t : Nat) (s : State) : Out := .next (s.endTranslation t)

/-- The physical address of a virtual one (R318). -/
def physAt (xs : List Xlat) (va : Nat) : Nat :=
  match xs.find? fun x => decide (x.1 ≤ va) && decide (va < x.1 + x.2.1) with
  | some x => x.2.2.1 + (va - x.1)
  | none => 0

/-- A range cut at 64 KiB. -/
def cut64 (a n : Nat) : List (Nat × Nat) :=
  if n = 0 then []
  else (List.range ((a + n - 1) / 0x10000 + 1 - a / 0x10000)).map fun i =>
    let lo := max a (0x10000 * (a / 0x10000 + i))
    (lo, min (a + n) (0x10000 * (a / 0x10000 + i + 1)) - lo)

/-- The 64 KiB pages of ranges read and ranges written, rising. -/
def pagesOf (rd wr : List (Nat × Nat)) : List Page :=
  let rs := rd.flatMap fun r => (cut64 r.1 r.2).map (·.1)
  let ws := wr.flatMap fun r => (cut64 r.1 r.2).map (·.1)
  let all := sortBy id (rs ++ ws)
  let pages := distinct (all.map (· / 0x10000))
  pages.map fun k =>
    ⟨((all.find? fun a => a / 0x10000 == k).getD 0), rs.any fun a => a / 0x10000 == k, ws.any fun a => a / 0x10000 == k⟩

end Sys2Proof.Machine
end

