-- ==== Sys2Proof/Machine/Records.lean ====
section
/-! DEFINITION. Records of the exchange port, element streams and footprints (R140, R255-R263). -/

namespace Sys2Proof.Machine

/-! ### Records (R255, R256) -/

/-- A field of a record. -/
def recNum (r : List Byte) (off n : Nat) : Nat := ofLe ((r.drop off).take n)
/-- A signed 32-bit field. -/
def recInt (r : List Byte) (off : Nat) : Int := sext (recNum r off 4) 32
/-- A record with a field replaced. -/
def recPut (r : List Byte) (off n v : Nat) : List Byte := r.take off ++ leBytes n v ++ r.drop (off + n)

/-- A descriptor (R256). -/
structure Desc where
  kind : Nat
  self : Bool
  tile : Nat
  addr : Nat
deriving DecidableEq, Repr

def Desc.of (v : Nat) : Desc := ⟨bits v 63 62, bit v 61, bits v 60 52, bits v 51 0⟩

/-- No reserved bit of a descriptor is set. -/
def descOk (v : Nat) : Bool :=
  match bits v 63 62 with
  | 0 => bits v 61 52 == 0
  | 1 => bits v 51 20 == 0
  | _ => false

/-- A dimension: extent, source and destination stride. -/
structure Dim where
  ext : Nat
  src : Int
  dst : Int
deriving DecidableEq, Repr

namespace Record

def sdesc (r : List Byte) : Desc := Desc.of (recNum r 0 8)
def ddesc (r : List Byte) : Desc := Desc.of (recNum r 8 8)
def edesc (r : List Byte) : Desc := Desc.of (recNum r 0x30 8)
def esize (r : List Byte) : Nat := recNum r 0x20 1
def ndim (r : List Byte) : Nat := recNum r 0x21 1
def mode (r : List Byte) : Nat := recNum r 0x22 1
def tgt (r : List Byte) : Nat := recNum r 0x23 1
def list (r : List Byte) : Nat := recNum r 0x24 4
def nidx (r : List Byte) : Nat := recNum r 0x28 4
def writer (r : List Byte) : Nat := recNum r 0x2C 2
def gen (r : List Byte) : Nat := recNum r 0x2E 2
def dim (r : List Byte) (d : Nat) : Dim :=
  ⟨recNum r (0x40 + 12 * d) 4, recInt r (0x44 + 12 * d), recInt r (0x48 + 12 * d)⟩
/-- The dimensions used, innermost first. -/
def dims (r : List Byte) : List Dim := (List.range (ndim r)).map (dim r)
/-- The element count. -/
def count (r : List Byte) : Nat := ((dims r).map (·.ext)).foldl (· * ·) 1
/-- T in bytes (R255). -/
def slot (r : List Byte) : Nat := 64 * tgt r
/-- Blocks of a compressed stream (R261). -/
def blocks (r : List Byte) : Nat := count r * 2 ^ esize r / 256

/-- A record is valid in a partition of that many tiles (R255, R256): a reserved bit of EDESC counts, used or not. -/
def valid (r : List Byte) (tiles : Nat) : Bool :=
  descOk (recNum r 0 8) && descOk (recNum r 8 8) && descOk (recNum r 0x30 8)
    && decide (esize r ≤ 3) && decide (1 ≤ ndim r) && decide (ndim r ≤ 16) && decide (mode r ≤ 2)
    && (if mode r = 0 then tgt r == 0 else decide (1 ≤ tgt r) && decide (tgt r ≤ 3))
    && list r % 4 == 0 && decide (nidx r ≤ 65536)
    && (decide (writer r < tiles) || writer r == 0xFFFF) && decide (1 ≤ gen r)
    && recNum r 0x38 8 == 0
    && (dims r).all (fun d => d.ext != 0)
    && recNum r (0x40 + 12 * ndim r) (12 * (16 - ndim r)) == 0
    && !((sdesc r).kind == 1 && !(sdesc r).self)
    && decide (count r < 2 ^ 32)
    && (mode r == 0 || count r * 2 ^ esize r % 256 == 0)

end Record

namespace State

/-- Where a slot lies (R323). -/
def recordAt (s : State) (p slot : Nat) : Nat := 0x200000 * (s.part p).rcd.toNat + 256 * slot

/-- A slot as a logical tile reads it: its WRITER the latest content, any other tile what stood when the phase opened
(R257). -/
def record (s : State) (p slot lt : Nat) : List Byte :=
  let now := s.physRead (s.recordAt p slot) 256
  if Record.writer now = lt then now
  else match (s.part p).recOld.find? fun e => e.1 == slot with
    | some e => e.2
    | none => now

/-- Redefine a slot, keeping what stood when the phase opened (R257, R258). -/
def setRecord (s : State) (p slot : Nat) (r : List Byte) : State :=
  let old := s.physRead (s.recordAt p slot) 256
  let s := s.modPart p fun q =>
    if q.recOld.any fun e => e.1 == slot then q else { q with recOld := q.recOld.put slot old }
  s.physWrite (s.recordAt p slot) r

end State

/-- A handle that is stale: generation 0 or another one (R140). -/
def staleHandle (r : List Byte) (hg : BitVec 16) : Bool := hg == 0#16 || Record.gen r != hg.toNat
/-- A handle as AUX shows it. -/
def handleAux (hs hg : BitVec 16) : DWord := (hg ++ hs).setWidth 64

/-! ### Element streams (R260-R262) -/

/-- Where one side of a copy lies: a physical tile's scratchpad or virtual space, and ranges in stream order. -/
structure Side where
  scr : Option Nat
  runs : List (Int × Nat)
deriving DecidableEq, Repr

/-- Sums of one offset of every dimension, the first dimension fastest (R260). -/
def offsets : List (List Int) → List Int
  | [] => [0]
  | d :: r => (offsets r).flatMap fun o => d.map (o + ·)

/-- A dimension's offsets over its extent. -/
def spread (n : Nat) (stride : Int) : List Int := (List.range n).map fun (i : Nat) => (i : Int) * stride

/-- Who issues the copy: logical tile, offset, physical tile, and where its logical tiles lie. -/
structure Issuer where
  lt : Nat
  off : Int
  tile : Nat
  part : Part
deriving DecidableEq, Repr

/-- The scratchpad a descriptor names; an error outside the partition (R116, R256). -/
def Issuer.place (i : Issuer) (d : Desc) : Except Unit (Option Nat) :=
  if d.kind = 0 then .ok none
  else if d.self then .ok (some i.tile)
  else if d.tile < i.part.tiles then .ok (some (i.part.phys d.tile))
  else .error ()

/-- sb and db of R260. -/
def Issuer.srcBase (i : Issuer) (r : List Byte) : Int :=
  ((Record.sdesc r).addr : Int) + i.lt * recInt r 0x10 + i.off * recInt r 0x18
def Issuer.dstBase (i : Issuer) (r : List Byte) : Int :=
  ((Record.ddesc r).addr : Int) + i.lt * recInt r 0x14 + i.off * recInt r 0x1C

/-- Offsets of the source elements. `idx` replaces the positions of the outer dimension (R262); `none` is the whole
extent. -/
def srcOffsets (r : List Byte) (outer : Option (List Nat)) : List Int :=
  let ds := Record.dims r
  offsets (ds.zipIdx.map fun e =>
    match outer with
    | some xs => if e.2 + 1 = ds.length then xs.map fun (x : Nat) => (x : Int) * e.1.src else spread e.1.ext e.1.src
    | none => spread e.1.ext e.1.src)
def dstOffsets (r : List Byte) (outer : Option (List Nat)) : List Int :=
  let ds := Record.dims r
  offsets (ds.zipIdx.map fun e =>
    match outer with
    | some xs => if e.2 + 1 = ds.length then xs.map fun (x : Nat) => (x : Int) * e.1.dst else spread e.1.ext e.1.dst
    | none => spread e.1.ext e.1.dst)

/-- Elements at offsets from a base. -/
def elementsAt (base : Int) (n : Nat) (os : List Int) : List (Int × Nat) := os.map fun o => (base + o, n)

/-- Join neighbouring elements that are contiguous. -/
def joinRuns (rs : List (Int × Nat)) : List (Int × Nat) :=
  (rs.foldl (fun acc r =>
    match acc with
    | q :: t => if q.1 + q.2 = r.1 then (q.1, q.2 + r.2) :: t else r :: acc
    | [] => [r]) []).reverse

/-- Slots of a compressed side, and its escape entries (R261); `b0` counts in blocks. -/
def slotRuns (addr : Nat) (b0 : Int) (n size : Nat) : List (Int × Nat) :=
  (List.range n).map fun (b : Nat) => ((addr : Int) + (b0 + b) * size, size)

/-- B0 of R261. -/
def Issuer.dstBlock (i : Issuer) (r : List Byte) : Int := i.lt * recInt r 0x14 + i.off * recInt r 0x1C
def Issuer.srcBlock (i : Issuer) (r : List Byte) : Int := i.lt * recInt r 0x10 + i.off * recInt r 0x18

/-- The sides of a copy: what it reads and what it writes. With `foot` the indexed dimension of a gather or scatter covers
its whole extent, and every escape entry belongs (R263); otherwise it takes the indices `idx`. -/
structure Sides where
  rd : List Side
  wr : List Side
deriving DecidableEq, Repr

/-- The outer positions of source and destination (R262, R263). On the side that the list does not index, XGATH's destination and
XSCAT's source, the positions are 0 to NIDX - 1, in the footprint too, since NIDX is that dimension's extent under R262; R263 says
0 to EXTENT - 1 of an indexed dimension (the model's choice; log 66). -/
def outerOf (k : CopyKind) (r : List Byte) (idx : Option (List Nat)) : Option (List Nat) × Option (List Nat) :=
  let seq := List.range (Record.nidx r)
  match k with
  | .gath => (idx, some seq)
  | .scat => (some seq, idx)
  | _ => (none, none)

/-- The sides of a copy word; an error names a tile outside the partition by its local address. -/
def sidesOf (i : Issuer) (k : CopyKind) (r : List Byte) (idx : Option (List Nat)) : Except Nat Sides :=
  let n := 2 ^ Record.esize r
  let sd := Record.sdesc r
  let dd := Record.ddesc r
  let ed := Record.edesc r
  let outer := outerOf k r idx
  let srcE := elementsAt (i.srcBase r) n (srcOffsets r outer.1)
  let dstE := elementsAt (i.dstBase r) n (dstOffsets r outer.2)
  match i.place sd, i.place dd with
  | .error _, _ => .error sd.addr
  | _, .error _ => .error dd.addr
  | .ok sp, .ok dp =>
    if Record.mode r = 0 then .ok ⟨[⟨sp, srcE⟩], [⟨dp, dstE⟩]⟩
    else match i.place ed with
    | .error _ => .error ed.addr
    | .ok ep =>
      let b := Record.blocks r
      if Record.mode r = 1 then
        .ok ⟨[⟨sp, srcE⟩], [⟨dp, slotRuns dd.addr (i.dstBlock r) b (Record.slot r)⟩, ⟨ep, slotRuns ed.addr (i.dstBlock r) b 256⟩]⟩
      else
        .ok ⟨[⟨sp, slotRuns sd.addr (i.srcBlock r) b (Record.slot r)⟩, ⟨ep, slotRuns ed.addr (i.srcBlock r) b 256⟩], [⟨dp, dstE⟩]⟩

/-- The list's own bytes (R263). -/
def listSide (i : Issuer) (k : CopyKind) (r : List Byte) : List Side :=
  match k with
  | .gath | .scat => if Record.nidx r = 0 then [] else [⟨some i.tile, [((Record.list r : Int), 4 * Record.nidx r)]⟩]
  | _ => []

/-- The footprint of a copy word (R117, R263). -/
def footprint (i : Issuer) (k : CopyKind) (r : List Byte) : Except Nat Sides :=
  match sidesOf i k r none with
  | .error a => .error a
  | .ok f =>
    let join (x : Side) : Side := { x with runs := joinRuns x.runs }
    .ok ⟨f.rd.map join ++ listSide i k r, f.wr.map join⟩

/-! ### Addresses of a footprint -/

/-- An address as AUX shows it. -/
def auxOf (a : Int) : DWord := BitVec.ofInt 64 a

/-- The lowest address of a list. -/
def lowest : List Int → Option Int
  | [] => none
  | a :: r => some (r.foldl min a)

/-- The lowest scratchpad address outside local space (R111, R260). -/
def scratchOut (xs : List Side) : Option Int :=
  lowest ((xs.filter (·.scr.isSome)).flatMap fun x => x.runs.filterMap fun (r : Int × Nat) =>
    if r.1 < 0 then some r.1 else if 0x100000 < r.1 + r.2 then some (max r.1 0x100000) else none)

/-- The lowest virtual address outside 0 to 2^52 - 1 (R260, R318). -/
def virtualOut (xs : List Side) : Option Int :=
  lowest ((xs.filter (·.scr.isNone)).flatMap fun x => x.runs.filterMap fun (r : Int × Nat) =>
    if r.1 < 0 then some r.1 else if 2 ^ 52 < r.1 + r.2 then some (max r.1 (2 ^ 52)) else none)

/-- The part of a run from 0 to 2^52 - 1. -/
def clipRun (r : Int × Nat) : Nat × Nat :=
  let lo := (max r.1 0).toNat
  (lo, (min (r.1 + r.2) (2 ^ 52)).toNat - lo)

/-- The virtual ranges of sides, the bytes from 0 to 2^52 - 1. -/
def virtualRuns (xs : List Side) : List (Nat × Nat) :=
  (xs.filter (·.scr.isNone)).flatMap fun x => (x.runs.map clipRun).filter fun r => r.2 ≠ 0

/-- The 2 MiB granules of ranges, rising (R312). -/
def granulesOf (rs : List (Nat × Nat)) : List Nat :=
  sortBy id (distinct (rs.flatMap fun r =>
    if r.2 = 0 then []
    else (List.range ((r.1 + r.2 - 1) / 0x200000 + 1 - r.1 / 0x200000)).map (· + r.1 / 0x200000)))

/-- The 64-byte lines of sides, as (memory, first, last) (R117). -/
def linesOf (xs : List Xlat) (sides : List Side) : List (Nat × Nat × Nat) :=
  distinct (sides.flatMap fun x => x.runs.flatMap fun r =>
    if r.2 = 0 then []
    else match x.scr with
    | some t => [(1 + t, r.1.toNat / 64, (r.1.toNat + r.2 - 1) / 64)]
    | none => (cut64 r.1.toNat r.2).map fun c =>
        let pa := physAt xs c.1
        (0, pa / 64, (pa + c.2 - 1) / 64))

end Sys2Proof.Machine
end

