-- ==== Sys2Proof/Machine/Exchange.lean ====
section
/-! DEFINITION. The words of the exchange port (R124, R140, R252-R254, R257, R258, R263, R265, R267-R269). -/

namespace Sys2Proof.Machine

/-- The payload of the token WS takes (R254). -/
def Tile.payload (x : Tile) : Word := x.pxp.fs.headD 0

/-- The partition of an issuing tile. A tile outside every partition executes no word (R27). -/
def Tile.partNo (x : Tile) : Nat := x.seat.part.getD 0

/-- Commands of a tile armed or buffered in a copy engine (R265). -/
def State.quota (s : State) (t eng : Nat) : Nat :=
  (s.copies.filter fun c => c.tile == t && c.eng == eng && (c.st == .armed || c.st == .buffered)).length

/-! ### Records (R257, R258) -/

/-- An instruction that reads record slots: a link may hold the read (R368; log 30), and an uncorrectable codeword traps with its
physical address (R375; log 20). -/
def State.readSlots (s : State) (t p : Nat) (slots : List Nat) (k : State → Act) : Act :=
  if slots.any fun i => s.addrHeld (Config.dieSite (dieOf t)) (s.recordAt p i) then .hold s
  else match slots.foldl (fun (q : State × Option Nat) i =>
      match q.2 with
      | some _ => q
      | none => q.1.touchHbm (q.1.recordAt p i) 256) (s, none) with
  | (s, some a) => .fail s Cause.ecc (BitVec.ofNat 64 a)
  | (s, none) => k s

/-- XRDEF: both handles, then the new content, then the WRITER (R258, R298; log 20). -/
def redefine (s : State) (x : Tile) (o : Int) (ofs : Bool) (ths thg nhs nhg : BitVec 16) : Act :=
  let p := x.partNo
  let tr := s.record p ths.toNat x.seat.lt
  let nr := s.record p nhs.toNat x.seat.lt
  if staleHandle tr thg then .trap Cause.stale (handleAux ths thg)
  else if staleHandle nr nhg then .trap Cause.stale (handleAux nhs nhg)
  else
    let kept := recPut tr 0x2C 4 (recNum nr 0x2C 4)
    let sa : Int := (Record.sdesc tr).addr + (if ofs then o * recInt tr 0x18 else 0)
    let da : Int := (Record.ddesc tr).addr + (if ofs then o * recInt tr 0x1C else 0)
    if sa < 0 || 2 ^ 52 ≤ sa || da < 0 || 2 ^ 52 ≤ da then .trap Cause.shape 0
    else
      let put (v : Nat) (a : Int) : Nat := v / 2 ^ 52 * 2 ^ 52 + a.toNat
      let new := recPut (recPut kept 0 8 (put (recNum kept 0 8) sa)) 8 8 (put (recNum kept 8 8) da)
      if !Record.valid new (s.part p).tiles then .trap Cause.shape 0
      else if Record.writer nr ≠ x.seat.lt then .trap Cause.ownership (handleAux nhs nhg)
      else .go (s.setRecord p nhs.toNat new) Eff.nil

def Form.xp (h : Ring) (n : Nat) : Form := ⟨h, n, .cx, 1, 1, true⟩

def execXrdef (h : Ring) (ths thg nhs nhg : BitVec 16) (ofs : Bool) : State → Out :=
  engWord .xp (Form.xp h 3) fun t s =>
    let x := s.tile t
    s.readSlots t x.partNo [ths.toNat, nhs.toNat] fun s => redefine s x (if ofs then x.payload.toInt else 0) ofs ths thg nhs nhg

/-- XRGEN: the next generation; every older handle is stale (R258). -/
def execXrgen (h : Ring) (hs hg : BitVec 16) : State → Out :=
  engWord .xp (Form.xp h 2) fun t s =>
    let x := s.tile t
    s.readSlots t x.partNo [hs.toNat] fun s =>
    let r := s.record x.partNo hs.toNat x.seat.lt
    if staleHandle r hg then .trap Cause.stale (handleAux hs hg)
    else if Record.writer r ≠ x.seat.lt then .trap Cause.ownership (handleAux hs hg)
    else .go (s.setRecord x.partNo hs.toNat (recPut r 0x2E 2 (Record.gen r % 65535 + 1))) Eff.nil

/-! ### Copy words (R252) -/

/-- What a copy word carries besides its handle. -/
structure CopyWord where
  kind : CopyKind
  eng : Nat
  ord : Bool
  sem : SemF
  off : Int
  pay : Word
  time : Nat
deriving DecidableEq, Repr

/-- Checks 4 to 6 once the footprint stands: `rd`, `wr` its sides, `sc` whether its pages are to be SC, `pages` what it
translates. The copy is armed or placed (R30, R38). -/
def placeCopy (s : State) (t : Nat) (w : CopyWord) (r : List Byte) (rd wr : List Side) (pages : List Page) : Act :=
  let x := s.tile t
  let p := x.partNo
  if s.walksHeld (dieOf t) p pages then .hold s
  else match s.translateAll (dieOf t) p pages pages with
  | .error (s', cause, a) => .fail s' cause (BitVec.ofNat 64 a)
  | .ok (s', xs) =>
    let n := Config.tluTicks s.free
    if s'.nextId ≠ s.nextId && !x.stop.xlated && (x.stop.xlatDue.isSome || n ≠ 0) then
      .hold (if x.stop.xlatDue.isSome then s
        else s.draw.modTile t fun y => { y with stop := { y.stop with xlatDue := some (s.ticks + n) } })
    else
      let compute := x.seat.phase % 2 == 0
      if compute && (x.xp.sealed || decide (4 ≤ s.quota t w.eng)) then .trap Cause.schedule 0
      else if 4 ≤ s.quota t w.eng then .hold s
      else
        let q := s'.part p
        let vr := virtualRuns (rd ++ wr)
        let origin := if q.phase = x.seat.phase then q.origin else q.next.getD q.origin
        let c : Copy := {
          id := s'.nextId, tile := t, lt := x.seat.lt, part := p, eng := w.eng, head := x.pxp.pc, kind := w.kind
          ord := w.ord, sem := w.sem, off := w.off, pay := w.pay, pasid := (s'.ctx q.ctx.toNat).pasid, rcd := r, time := w.time, due := origin + w.time
          phase := if compute then x.seat.phase + 1 else x.seat.phase, st := if compute then .armed else .buffered
          leftAt := 0, landAt := 0, retireAt := 0, pages := distinct xs, rd := linesOf xs rd, wr := linesOf xs wr
          gran := granulesOf vr, ats := false, atsOk := false, issued := x.cyc + 1 }
        let s'' := { s'.draw with copies := s'.copies ++ [c], nextId := s'.nextId + 1 }
        .go (s''.modTile t fun y => ({ y with xp := { y.xp with count := y.xp.count + 1 } }).bump 0x0C 1) Eff.nil

/-- The region-table entries of ranges are read: a link may hold the read (R324, R368, R375; log 30). -/
def State.readRegions (s : State) (t p : Nat) (rs : List (Nat × Nat)) (k : State → Act) : Act :=
  let ws := (granulesOf rs).flatMap fun g => s.regionWords p (0x200000 * g)
  if ws.any (s.addrHeld (Config.dieSite (dieOf t))) then .hold s
  else match s.touchWords ws with
  | (s, some a) => .fail s Cause.ecc (BitVec.ofNat 64 a)
  | (s, none) => k s

/-- Check 4 of a copy: scratchpad ranges, then the granules the tile owns (R111, R124). -/
def ownedBy (s : State) (p lt : Nat) (rs : List (Nat × Nat)) : Option Nat :=
  (granulesOf rs).find? fun g =>
    match s.region p (0x200000 * g) with
    | some e => e.state != 0 || e.owner != lt || e.sc
    | none => true

/-- XCOPY, XGATH, XSCAT. A decode that reads another tile's scratchpad for its escape entries reaches what R116 does not allow
(R124). -/
def copyWord (s : State) (t : Nat) (w : CopyWord) (hs hg : BitVec 16) : Act :=
  let x := s.tile t
  let p := x.partNo
  let q := s.part p
  let r := s.record p hs.toNat x.seat.lt
  let i : Issuer := ⟨x.seat.lt, w.off, t, q⟩
  if staleHandle r hg then .trap Cause.stale (handleAux hs hg)
  else if !Record.valid r q.tiles || (w.kind != .copy && Record.mode r != 0) then .trap Cause.shape 0
  else match footprint i w.kind r with
  | .error a => violation a
  | .ok f =>
    if f.rd.any fun y => y.scr.isSome && y.scr != some t then violation (Record.edesc r).addr
    else match scratchOut (f.rd ++ f.wr) with
    | some a => .trap Cause.ownership (auxOf a)
    | none =>
      s.readRegions t p (virtualRuns (f.rd ++ f.wr)) fun s =>
      match ownedBy s p x.seat.lt (virtualRuns (f.rd ++ f.wr)) with
      | some g => violation (0x200000 * g)
      | none =>
        match virtualOut (f.rd ++ f.wr) with
        | some a => .lost s (auxOf a)
        | none => placeCopy s t w r f.rd f.wr (pagesOf (virtualRuns f.rd) (virtualRuns f.wr))

/-- XFLAG: the flag lies on an SC page; no owner is needed (R268). -/
def flagWord (s : State) (t : Nat) (w : CopyWord) (hs hg : BitVec 16) : Act :=
  let x := s.tile t
  let p := x.partNo
  let r := s.record p hs.toNat x.seat.lt
  if staleHandle r hg then .trap Cause.stale (handleAux hs hg)
  else if !Record.valid r (s.part p).tiles || decide (Record.esize r < 2) then .trap Cause.shape 0
  else
    let d := Record.ddesc r
    let a : Int := (d.addr : Int) + x.seat.lt * recInt r 0x14
    let n := 2 ^ Record.esize r
    let side : Side := ⟨none, [(a, n)]⟩
    let rs := virtualRuns [side]
    if d.kind ≠ 0 then violation d.addr
    else s.readRegions t p rs fun s =>
    if (granulesOf rs).any fun g => !((s.region p (0x200000 * g)).map (·.sc)).getD false then
      .trap Cause.ownership (auxOf a)
    else match virtualOut [side] with
    | some b => .lost s (auxOf b)
    | none => placeCopy s t w r [] [side] (pagesOf rs rs)

/-- Where a copy word's offset comes from (R254). -/
def Tile.offset (x : Tile) (ofs : Bool) : Int := if ofs then x.payload.toInt else 0

def copyForm (k : CopyKind) (h : Ring) (c : CopyF) : State → Out :=
  engWord .xp (Form.xp h 3) fun t s =>
    let x := s.tile t
    s.readSlots t x.partNo [c.hs.toNat] fun s => copyWord s t ⟨k, c.eng.toNat, c.ord, c.sem, x.offset c.ofs, 0, c.time.toNat⟩ c.hs c.hg

def execXcopy (h : Ring) (c : CopyF) : State → Out := copyForm .copy h c
def execXgath (h : Ring) (c : CopyF) : State → Out := copyForm .gath h c
def execXscat (h : Ring) (c : CopyF) : State → Out := copyForm .scat h c
def execXflag (h : Ring) (c : FlagF) : State → Out :=
  engWord .xp (Form.xp h 3) fun t s =>
    let x := s.tile t
    s.readSlots t x.partNo [c.hs.toNat] fun s => flagWord s t ⟨.flag c.fop, c.eng.toNat, c.ord, c.sem, 0, x.payload, c.time.toNat⟩ c.hs c.hg

/-! ### Counters, arming, arrival (R267, R269, R31) -/

/-- XCNT stages a counter for the next exchange opening; a source outside the partition is an illegal instruction (R253). -/
def execXcnt (h : Ring) (cnt : BitVec 4) (self : Bool) (src : BitVec 9) (bytes : BitVec 21) : State → Out :=
  engWord .xp (Form.xp h 2) fun t s =>
    let x := s.tile t
    if !self && decide ((s.part x.partNo).tiles ≤ src.toNat) then s.illegal
    else .go (s.modTile t fun y => { y with xp := { y.xp with
      staged := y.xp.staged.put cnt.toNat ⟨true, self, if self then x.seat.lt else src.toNat, bytes.toNat⟩ } }) Eff.nil

/-- XARM seals the compute phase when the count is right. -/
def execXarm (h : Ring) (n : BitVec 12) : State → Out :=
  engWord .xp (.tile h .c) fun t s =>
    if (s.tile t).xp.count ≠ n.toNat then .trap Cause.schedule 0
    else .go (s.modTile t fun y => { y with xp := { y.xp with sealed := true } }) Eff.nil

def execXarrive (h : Ring) : State → Out :=
  engWord .xp (Form.xp h 1) fun t s => .go (s.arrive t .xp) Eff.nil

end Sys2Proof.Machine
end

