-- ==== Sys2Proof/Machine/Copies.lean ====
section
/-! DEFINITION. The copy engines: leaving, starting, landing and retiring, line records, arrival counters, faults of a copy;
the handover offer and the watermark (R37, R38, R50, R114, R116, R117, R119, R121, R123, R129, R131, R260-R268, R374). -/

namespace Sys2Proof.Machine

/-- What ends a copy (R266): the tile it is raised on, cause, AUX, LOC. -/
structure CopyFault where
  tile : Nat
  cause : BitVec 8
  aux : DWord
  loc : DWord
deriving DecidableEq, Repr

def CopyFault.of (t : Nat) (cause : BitVec 8) (aux : DWord) : CopyFault := ⟨t, cause, aux, aux⟩

namespace State

def copy (s : State) (id : Nat) : Option Copy := s.copies.find? fun c => c.id == id
def setCopy (s : State) (c : Copy) : State := { s with copies := s.copies.map fun x => if x.id = c.id then c else x }
def dropCopy (s : State) (id : Nat) : State := { s with copies := s.copies.filter fun x => x.id != id }

/-- A copy faults: it is gone, and its fault freezes a tile (R266, R299). -/
def failCopy (s : State) (c : Copy) (f : CopyFault) : State :=
  (s.dropCopy c.id).trapCopy f.tile f.cause f.aux f.loc c.head c.eng

end State

/-! ### Line records and counters (R37, R116) -/

/-- LOC of an R116 fault: line address, earlier source, later source (R377). -/
def lineLoc (line earlier later : Nat) : DWord :=
  BitVec.ofNat 64 (64 * line + earlier % 512 * 2 ^ 20 + later % 512 * 2 ^ 29)

/-- A line read by an outgoing copy of its own tile. -/
def Tile.lineRead (x : Tile) (line : Nat) : Except DWord Tile :=
  let own := x.seat.lt
  match x.frames.lines.get .none line with
  | .none => .ok { x with frames := { x.frames with lines := x.frames.lines.set .none line .out } }
  | .out => .ok x
  | .into s => if s = own then .ok x else .error (lineLoc line s own)

/-- A line written by a copy of a source. -/
def Tile.lineWrite (x : Tile) (line src : Nat) : Except DWord Tile :=
  let own := x.seat.lt
  let y := { x with frames := { x.frames with lines := x.frames.lines.set .none line (.into src) } }
  match x.frames.lines.get .none line with
  | .none => .ok y
  | .out => if src = own then .ok y else .error (lineLoc line own src)
  | .into s => if s = src then .ok x else .error (lineLoc line s src)

/-- The lines of a range. -/
def linesIn (a n : Nat) : List Nat :=
  if n = 0 then [] else (List.range ((a + n - 1) / 64 + 1 - a / 64)).map (· + a / 64)

/-- Read lines one after another, up to one that faults. -/
def Tile.linesRead (x : Tile) : List Nat → Tile × Option DWord
  | [] => (x, none)
  | l :: r =>
    match x.lineRead l with
    | .error e => (x, some e)
    | .ok y => Tile.linesRead y r

/-- Count bytes of a source in the counters that name it, the lowest first (R37, R267): the bytes that found a count. -/
def Tile.countBytes (x : Tile) (src n : Nat) : Tile × Nat :=
  (List.range 16).foldl (fun (q : Tile × Nat) k =>
    let c := q.1.xp.active.get State.counter0 k
    if c.live && c.src == src then
      let take := min c.count (n - q.2)
      ({ q.1 with xp := { q.1.xp with active := q.1.xp.active.put k { c with count := c.count - take } } }, q.2 + take)
    else q) (x, 0)

/-- The lowest counter that names a source, else 16. -/
def Tile.counterOf (x : Tile) (src : Nat) : Nat :=
  ((List.range 16).find? fun k => let c := x.xp.active.get State.counter0 k; c.live && c.src == src).getD 16

/-- A frame takes a source (R114). -/
def FrameSrc.add (f : FrameSrc) (src : Nat) : FrameSrc :=
  match f with
  | .none => .one src
  | .one s => if s = src then .one s else .many
  | .many => .many

namespace State

/-- Bytes within one line arrive in a scratchpad, from a copy engine of die `d`, which counts the unit if it is written (R37, R116,
R310, R380). -/
def arriveLine (s : State) (d t src a : Nat) (bs : List Byte) : State × Option CopyFault :=
  match (s.tile t).lineWrite (a / 64) src with
  | .error loc => (s, some ⟨t, Cause.schedule, BitVec.ofNat 64 (a / 64 * 64), loc⟩)
  | .ok x =>
    let (x, k) := x.countBytes src bs.length
    let done := bs.take k
    let f := a / 4096
    let x := if k = 0 then x else
      { x with
        store := x.store.writeRuns .scr [(a, done)]
        frames := { x.frames with srcs := x.frames.srcs.set .none f ((x.frames.srcs.get .none f).add src) } }
    let s := (s.setTile t x).fireWrites t [⟨0, 0, .xp, 0, .bytes .scr [(a, done)]⟩]
    let s := if k = 0 then s else s.bumpDie d 0x23 1
    if k < bs.length then (s, some (CopyFault.of t Cause.schedule (BitVec.ofNat 64 (x.counterOf src)))) else (s, none)

/-- A run of bytes cut at line ends. -/
def cutLines (a : Nat) : Nat → List Byte → List (Nat × List Byte)
  | 0, _ => []
  | n + 1, bs =>
    if bs.isEmpty then [] else
      let k := 64 - a % 64
      (a, bs.take k) :: cutLines (a + k) n (bs.drop k)

/-- Bytes arrive in a scratchpad, line by line, until a fault. -/
def arriveBytes (s : State) (d t src a : Nat) (bs : List Byte) : State × Option CopyFault :=
  (cutLines a (bs.length / 64 + 2) bs).foldl (fun r p =>
    match r.2 with
    | some _ => r
    | none => r.1.arriveLine d t src p.1 p.2) (s, none)

/-! ### What a copy moves (R260-R262) -/

/-- Who issued a copy. -/
def issuer (s : State) (c : Copy) : Issuer := ⟨c.lt, c.off, c.tile, s.part c.part⟩

/-- The index list of an XGATH or XSCAT from its bytes (R262). -/
def indexList (c : Copy) (bs : List Byte) : Option (List Nat) :=
  match c.kind with
  | .gath | .scat => some ((List.range (Record.nidx c.rcd)).map fun e => recNum bs (4 * e) 4)
  | _ => none

/-- An index at or above EXTENT ends the copy (R262, R266). -/
def indexFault (c : Copy) (idx : Option (List Nat)) : Option CopyFault :=
  let ext := (Record.dim c.rcd (Record.ndim c.rcd - 1)).ext
  if (idx.getD []).any fun x => decide (ext ≤ x) then
    some (CopyFault.of c.tile Cause.schedule (BitVec.ofNat 64 (Record.list c.rcd)))
  else none

/-- A part of what a copy does: the state after it with what it answers, or with the fault that ends the copy. Reads made before the
fault stay made: lines read, slots fired, errors corrected (R116, R310, R375). -/
abbrev Moved (α : Type) := Except (State × CopyFault) (State × α)

/-- Read a virtual range through the pages of a copy: ECC, bytes (R131, R375). -/
def virtRead (s : State) (c : Copy) (va n : Nat) : Moved (List Byte) :=
  (cut64 va n).foldl (fun r p =>
    match r with
    | .error f => .error f
    | .ok (s, bs) =>
      let pa := physAt c.pages p.1
      match s.touchHbm pa p.2 with
      | (s, some e) => .error (s, CopyFault.of c.tile Cause.ecc (BitVec.ofNat 64 e))
      | (s, none) => .ok (s, bs ++ s.physRead (tagFor c.pasid pa) p.2)) (.ok (s, []))

/-- Read a range of one side: line records, ECC, bytes (R116, R131). -/
def copyRead (s : State) (c : Copy) (scr : Option Nat) (a : Int) (n : Nat) : Moved (List Byte) :=
  match scr with
  | none => s.virtRead c a.toNat n
  | some t =>
    match (s.tile t).linesRead (linesIn a.toNat n) with
    | (x, some loc) => .error (s.setTile t x, ⟨t, Cause.schedule, loc &&& 0xFFFFF#64, loc⟩)
    | (x, none) =>
      match (s.setTile t x).touch t (5, c.eng) .scr (a.toNat / 4) ((a.toNat + n - 1) / 4) with
      | (s, some w) => .error (s, CopyFault.of c.tile Cause.ecc (BitVec.ofNat 64 w))
      | (s, none) => .ok (s, (s.tile t).store.scr.read a.toNat n)

/-- Read ranges in order into one stream. -/
def copyReads (s : State) (c : Copy) : List (Option Nat × Int × Nat) → Moved (List Byte)
  | [] => .ok (s, [])
  | r :: rest =>
    match s.copyRead c r.1 r.2.1 r.2.2 with
    | .error f => .error f
    | .ok (s, bs) =>
      match copyReads s c rest with
      | .error f => .error f
      | .ok (s, more) => .ok (s, bs ++ more)

/-- The ranges of a side in stream order. -/
def sideRanges (x : Side) : List (Option Nat × Int × Nat) := (joinRuns x.runs).map fun r => (x.scr, r)

/-- Decode slots and escape entries into the stream; a rejected header ends the copy (R261). -/
def readBlocks (s : State) (c : Copy) : List ((Option Nat × Int × Nat) × (Option Nat × Int × Nat)) → Moved (List Byte)
  | [] => .ok (s, [])
  | r :: rest =>
    match s.copyRead c r.1.1 r.1.2.1 r.1.2.2 with
    | .error f => .error f
    | .ok (s, slot) =>
      let h := slotHeader slot
      if headerBad h (Record.slot c.rcd) then .error (s, CopyFault.of c.tile Cause.decodeRate (BitVec.ofNat 64 h))
      else
        match if bit h 15 then s.copyRead c r.2.1 r.2.2.1 r.2.2.2 else .ok (s, []) with
        | .error f => .error f
        | .ok (s, esc) =>
          match readBlocks s c rest with
          | .error f => .error f
          | .ok (s, more) => .ok (s, decodeBlock slot esc ++ more)

/-- Lay a stream over ranges. -/
def layOut : List (Option Nat × Int × Nat) → List Byte → List (Option Nat × Int × List Byte)
  | [], _ => []
  | r :: rest, bs => (r.1, r.2.1, bs.take r.2.2) :: layOut rest (bs.drop r.2.2)

/-- The 256-byte blocks of a stream. -/
def blocksOf : Nat → List Byte → List (List Byte)
  | 0, _ => []
  | n + 1, bs => bs.take 256 :: blocksOf n (bs.drop 256)

/-- Encoded slots and the escape entries of blocks that escape (R261). -/
def encodeOut (T : Nat) (slots escs : Side) (bs : List Byte) : List (Option Nat × Int × List Byte) :=
  ((blocksOf slots.runs.length bs).zip (slots.runs.zip escs.runs)).flatMap fun e =>
    let r := encodeBlock e.1 T
    (slots.scr, e.2.1.1, r.1) :: (if r.2 then [(escs.scr, e.2.2.1, e.1)] else [])

/-- Every byte a copy reads, and then what it writes in stream order (R260). The list is read first, as any other range of the tile,
and an index is tested as it was read (R116, R131, R262, R310). -/
def copyMoves (s : State) (c : Copy) : Moved (List (Option Nat × Int × List Byte)) :=
  match s.copyReads c ((listSide (s.issuer c) c.kind c.rcd).flatMap sideRanges) with
  | .error f => .error f
  | .ok (s, bs) =>
    let idx := indexList c bs
    match indexFault c idx with
    | some f => .error (s, f)
    | none =>
      match sidesOf (s.issuer c) c.kind c.rcd idx with
      | .error _ => .ok (s, [])
      | .ok ⟨[src], [dst]⟩ =>
        match s.copyReads c (sideRanges src) with
        | .error f => .error f
        | .ok (s, bs) => .ok (s, layOut (sideRanges dst) bs)
      | .ok ⟨[src], [slots, escs]⟩ =>
        match s.copyReads c (sideRanges src) with
        | .error f => .error f
        | .ok (s, bs) => .ok (s, encodeOut (Record.slot c.rcd) slots escs bs)
      | .ok ⟨[slots, escs], [dst]⟩ =>
        let ranges (x : Side) : List (Option Nat × Int × Nat) := x.runs.map fun r => (x.scr, r)
        match s.readBlocks c ((ranges slots).zip (ranges escs)) with
        | .error f => .error f
        | .ok (s, bs) => .ok (s, layOut (sideRanges dst) bs)
      | .ok _ => .ok (s, [])

/-- Write a virtual range through the pages of a copy; its 64-byte units count (R380). -/
def virtWrite (s : State) (c : Copy) (va : Nat) (bs : List Byte) : State :=
  (((cut64 va bs.length).foldl (fun (q : State × List Byte) r =>
    (q.1.physWrite (tagFor c.pasid (physAt c.pages r.1)) (q.2.take r.2), q.2.drop r.2)) (s, bs)).1).bumpDie
      (dieOf c.tile) 0x23 (linesIn va bs.length).length

/-- Write one run: memory through the pages of the copy, a scratchpad through its lines and counters. -/
def copyWrite (s : State) (c : Copy) (w : Option Nat × Int × List Byte) : State × Option CopyFault :=
  match w.1 with
  | some t => s.arriveBytes (dieOf c.tile) t c.lt w.2.1.toNat w.2.2
  | none => (s.virtWrite c w.2.1.toNat w.2.2, none)

/-- Writes in stream order; a fault ends them (R266). -/
def copyWrites (s : State) (c : Copy) (ws : List (Option Nat × Int × List Byte)) : State × Option CopyFault :=
  ws.foldl (fun r w =>
    match r.2 with
    | some _ => r
    | none => r.1.copyWrite c w) (s, none)

/-! ### XFLAG (R268) -/

/-- The flag's address and size. -/
def flagPlace (c : Copy) : Nat × Nat :=
  (((Record.ddesc c.rcd).addr + (c.lt : Int) * recInt c.rcd 0x14).toNat, 2 ^ Record.esize c.rcd)

/-- One access in the total order: an increment, the exchange phase, the payload. -/
def writeFlag (s : State) (c : Copy) (fop : BitVec 2) : Except (State × CopyFault) State :=
  let (va, n) := flagPlace c
  let old := if fop = 0#2 then s.virtRead c va n else .ok (s, [])
  match old with
  | .error f => .error f
  | .ok (s, bs) =>
    let v := match fop.toNat with
      | 0 => ofLe bs + 1
      | 1 => c.phase
      | _ => c.pay.toNat
    .ok (s.virtWrite c va (leBytes n v))

/-! ### Targets (R131, R374) -/

/-- The site of a scratchpad, which shows address 0. -/
def scrTarget (t : Nat) : Nat × Nat := (0, Config.dieSite (dieOf t))

/-- The ranges of a copy's footprint (R263). -/
def footPlaces (c : Copy) : List (Option Nat × Nat × Nat) :=
  (c.rd ++ c.wr).map fun l => (if l.1 = 0 then none else some (l.1 - 1), 64 * l.2.1, 64 * (l.2.2 + 1 - l.2.1))

/-- The memory and scratchpad ranges of a copy in stream order: a tile's scratchpad or physical memory, address, bytes. Those of an
XGATH or XSCAT that has not started are its footprint's (R262, R263; log 66). -/
def places (s : State) (c : Copy) : List (Option Nat × Nat × Nat) :=
  let placeOf (x : Option Nat × Int × Nat) : List (Option Nat × Nat × Nat) :=
    match x.1 with
    | some t => [(some t, x.2.1.toNat, x.2.2)]
    | none => (cut64 x.2.1.toNat x.2.2).map fun r => (none, physAt c.pages r.1, r.2)
  let idx := indexList c ((s.tile c.tile).store.scr.read (Record.list c.rcd) (4 * Record.nidx c.rcd))
  let moved : List (Option Nat × Nat × Nat) :=
    if (indexFault c idx).isSome then []
    else match sidesOf (s.issuer c) c.kind c.rcd idx with
      | .error _ => []
      | .ok f => (f.rd ++ f.wr).flatMap fun x => (sideRanges x).flatMap placeOf
  match c.kind with
  | .flag _ => placeOf (none, (flagPlace c).1, (flagPlace c).2)
  | .copy => moved
  | _ => if c.st == .left then footPlaces c else moved

/-- The targets of a copy: physical address, site. -/
def targets (s : State) (c : Copy) : List (Nat × Nat) :=
  (s.places c).map fun x => match x.1 with
    | some t => scrTarget t
    | none => (x.2.1, s.siteOf x.2.1)

/-- The first target that cannot be served. -/
def unavailable (s : State) (c : Copy) : Option Nat :=
  let site := Config.dieSite (dieOf c.tile)
  ((s.targets c).find? fun x => s.routeBad site x.2 || (x.1 != 0 && s.addrBad site x.1)).map (·.1)

/-- A remote package turns an address away: it is not HBM there, or its port does not accept (R371; log 5). -/
def remoteRefuses (s : State) (pa : Nat) : Bool :=
  match s.portOf pa with
  | some p => decide (hbmTop ≤ s.remoteAddr p pa) || Config.remoteRefuses (8 * s.ticks + p)
  | none => false

/-- The first target whose owner turns a copy's access away: a remote package (R371), or the host by UR, an abort or a timeout
(R374; log 5). -/
def refusedAt (s : State) (c : Copy) : Option Nat :=
  ((s.targets c).find? fun x => if hostBase ≤ x.1 then Config.hostAborts c.id else s.remoteRefuses x.1).map (·.1)

/-- The fault of a target that is not available (R131). -/
def failTarget (s : State) (c : Copy) (pa : Nat) : State :=
  s.failCopy c (CopyFault.of c.tile Cause.unavailable (BitVec.ofNat 64 pa))

/-- A copy whose target is unavailable faults (R131). -/
def failUnavailable (s : State) (c : Copy) : Option State := (s.unavailable c).map (s.failTarget c)

/-- A copy's flits are held at a link (R368). -/
def copyHeld (s : State) (c : Copy) : Bool :=
  let site := Config.dieSite (dieOf c.tile)
  (s.targets c).any fun x => if x.1 = 0 then
      (routeLinks (routeSites site x.2) ++ routeLinks (routeSites x.2 site)).any s.linkHolds
    else s.addrHeld site x.1

/-- Started copies that a loss reaches fail at once, those too that have landed and not retired (R131, R368). -/
def failStarted (s : State) : State :=
  s.copies.foldl (fun s c =>
    if c.st = .started ∨ c.st = .held ∨ c.st = .landed then (s.failUnavailable c).getD s else s) s

/-- The host pages of a copy: PASID and every 4 KiB page that it reaches (R374). -/
def atsPages (s : State) (c : Copy) : List (BitVec 20 × Nat) :=
  distinct (((s.places c).filter fun x => x.1.isNone && decide (hostBase ≤ x.2.1)).flatMap fun x => hostPages c.pasid x.2.1 x.2.2)

/-- Host pages of a copy that the translation cache does not hold. -/
def atsMisses (s : State) (c : Copy) : List (BitVec 20 × Nat) := (s.atsPages c).filter fun k => !s.pkg.ats.contains k

end State

/-! ### The life of a copy (R38, R119, R264) -/

/-- Whether one copy of a tile left before another: leave tick, then its own tick (log 68), then the XP's order (R38, R117). -/
def Copy.before (a b : Copy) : Bool :=
  decide (a.leftAt < b.leftAt)
    || (a.leftAt == b.leftAt && (decide (a.due < b.due) || (a.due == b.due && decide (a.id < b.id))))

/-- A copy is out of its buffer. -/
def Copy.isOut (c : Copy) : Bool := c.st == .left || c.st == .held || c.st == .started || c.st == .landed

/-- Two line ranges of one memory meet. -/
def linesMeet (a b : List (Nat × Nat × Nat)) : Bool :=
  a.any fun x => b.any fun y => x.1 == y.1 && decide (x.2.1 ≤ y.2.2) && decide (y.2.1 ≤ x.2.2)

/-- The footprints of two copies conflict (R117). -/
def Copy.conflicts (a b : Copy) : Bool := linesMeet a.wr (b.rd ++ b.wr) || linesMeet a.rd b.wr

/-- COPY_LEAVES_BUFFER (R38): package time has reached its tick. -/
def execCopyLeave (id : Nat) (s : State) : Out :=
  .next <| match s.copy id with
  | none => s
  | some c =>
    if c.st ≠ .buffered || s.time < c.due then s
    else
      let c := { c with st := .left, leftAt := s.ticks }
      let s := s.setCopy c
      (s.failUnavailable c).getD s

/-- ORD, the conflict interlock and the order of SC accesses let a copy start (R117, R129, R264). -/
def State.mayStart (s : State) (c : Copy) : Bool :=
  let flag := match c.kind with | .flag _ => true | _ => false
  s.copies.all fun o =>
    o.id == c.id || !o.isOut
      || (!(o.tile == c.tile && o.before c && ((c.ord && o.eng == c.eng) || c.conflicts o))
          && !(flag && dieOf o.tile == dieOf c.tile && o.eng == c.eng && o.st != .left))

/-- All bytes of a copy move: every read before any write (R260). An XFLAG writes its flag as it lands. -/
def State.moveCopy (s : State) (c : Copy) : State.Moved (Option CopyFault) :=
  match c.kind with
  | .flag _ => .ok (s, none)
  | _ =>
    match s.copyMoves c with
    | .error f => .error f
    | .ok (s, ws) => .ok (s.copyWrites c ws)

/-- A started copy moves its bytes, unless its flits are held at a link; a fault ends it (R266, R368). -/
def State.sendCopy (s : State) (c : Copy) : State :=
  let c := { c with st := .started, landAt := s.ticks + Config.copyLandTicks s.free }
  let s := s.draw.setCopy c
  match s.failUnavailable c with
  | some s => s
  | none =>
    if s.copyHeld c then s.setCopy { c with st := .held }
    else match s.refusedAt c with
    | some pa => s.failTarget c pa
    | none =>
      match s.moveCopy c with
      | .error (s, f) => s.failCopy c f
      | .ok (s, some f) => s.failCopy c f
      | .ok (s, none) => s

/-- The semaphore is taken and the copy starts (R264). -/
def State.beginCopy (s : State) (c : Copy) : State :=
  (if c.sem.we then s.takeSem c.tile c.sem.wsem.toNat else s).sendCopy c

/-- COPY_STARTS: its translations at the host stand, ORD and R117 hold, and the semaphore is taken last (R264, R374). -/
def execCopyStart (id : Nat) (s : State) : Out :=
  .next <| match s.copy id with
  | none => s
  | some c =>
    if c.st ≠ .left || c.ats || !s.mayStart c then s
    else if !c.atsOk && !(s.atsMisses c).isEmpty then s.setCopy { c with ats := true }
    else if c.sem.we && (s.tile c.tile).semCount c.sem.wsem.toNat == 0 then s
    else s.beginCopy c

/-- A copy lands: performed at die scope; the semaphore is signalled. It retires when its memory writes are performed at package or
system scope, at once where it wrote none (R50, R119). -/
def State.landCopy (s : State) (c : Copy) : State :=
  let retire := if c.wr.any (fun l => l.1 == 0) then s.ticks + Config.copyRetireTicks s.free else s.ticks
  let s := s.draw.setCopy { c with st := .landed, retireAt := retire }
  if c.sem.se then s.signalSem c.tile c.sem.ssem.toNat else s

/-- COPY_LANDED. A copy whose flits a link held moves its bytes once no link holds them (R368); an XFLAG writes its flag now, so
that one that has faulted has written none (R266). -/
def execCopyLanded (id : Nat) (s : State) : Out :=
  .next <| match s.copy id with
  | none => s
  | some c =>
    if c.st = .held then (if s.copyHeld c then s else s.sendCopy c)
    else if c.st ≠ .started || s.ticks < c.landAt then s
    else match c.kind with
    | .flag fop =>
      match s.writeFlag c fop with
      | .error (s, f) => s.failCopy c f
      | .ok s => s.landCopy c
    | _ => s.landCopy c

/-- COPY_RETIRED: every write is performed at package or system scope (R119); its TLU entries are free of it (R319). -/
def execCopyRetired (id : Nat) (s : State) : Out :=
  .next <| match s.copy id with
  | none => s
  | some c => if c.st ≠ .landed || s.ticks < c.retireAt then s else s.dropCopy id

/-- ATS_TRANSLATION_COMPLETE (R374): the host answers a copy's translation request; `ok` false fails the copy. The cache
holds 1,024 entries. -/
def execAtsTranslationComplete (id : Nat) (ok : Bool) (s : State) : Out :=
  .next <| match s.copy id with
  | none => s
  | some c =>
    if c.st ≠ .left || !c.ats then s
    else if ok then
      { s with pkg := { s.pkg with ats := (s.atsMisses c ++ s.pkg.ats).take 1024 } }.setCopy { c with ats := false, atsOk := true }
    else s.failTarget c ((((s.targets c).find? fun x => decide (State.hostBase ≤ x.1)).map (·.1)).getD 0)

/-- A cached translation goes once every request that used it has completed; until then the invalidation waits. A copy that has not
started translates afresh (R374). -/
def State.dropCached (s : State) (k : BitVec 20 × Nat) : State :=
  let uses (c : Copy) : Bool := (s.atsPages c).contains k
  if s.copies.any fun c => (c.st == .held || c.st == .started || c.st == .landed) && uses c then
    { s with pkg := { s.pkg with invals := s.pkg.invals ++ [k] } }
  else
    { s with
      pkg := { s.pkg with ats := s.pkg.ats.filter (· != k) }
      copies := s.copies.map fun c => if uses c then { c with atsOk := false } else c }

/-- The invalidations that wait are looked at again. -/
def State.retryInvals (s : State) : State := s.pkg.invals.foldl State.dropCached { s with pkg := { s.pkg with invals := [] } }

/-- ATS_INVALIDATION (R374). -/
def execAtsInvalidation (pasid : BitVec 20) (page : BitVec 64) (s : State) : Out := .next (s.dropCached (pasid, page.toNat))

/-! ### Handovers and the watermark (R121, R123) -/

/-- An offer is made where no link holds the entry's words (R123, R368). -/
def State.makeOffer (s : State) (p g : Nat) : State :=
  let held := match s.region p g with
    | some e => (s.regionWords p g).any (s.addrHeld (Config.dieSite (dieOf ((s.part p).phys e.owner))))
    | none => false
  if held then s else s.offer p g

def execHandoverOffer (p granule : Nat) (s : State) : Out := .next (s.makeOffer p (0x200000 * granule))

def execWatermarkAdvance (d : Nat) (s : State) : Out := .next (s.raiseWatermark d)

end Sys2Proof.Machine
end

