-- ==== Sys2Proof/Machine/SysRegs.lean ====
section
/-! DEFINITION. The system registers of the firmware cores: what a read returns, what a write does or why its door is
refused (R11, R290-R295, R311, R314, R321, R322, R326, R327, R355, R357, R358, R361-R364, R367-R371, R376, R379, R382,
R385). -/

namespace Sys2Proof.Machine

/-! ### What registers show -/

/-- The logical dies of a partition (R321). -/
def Part.diesOf (q : Part) : List Nat := (List.range 8).filter fun d => q.dies.getLsbD d
/-- A partition that exists and is not at rest (R314, R322). -/
def Part.active (q : Part) : Bool := q.v && !q.st.atRest

namespace State

/-- The die belongs to a partition that is not at rest. -/
def dieActive (s : State) (d : Nat) : Bool := s.parts.any fun e => e.2.active && e.2.dies.getLsbD d

/-- IPEND.LINK: events of links and ports the die serves; on logical die 0 also SYNCST.ERR (R357, R367). -/
def linkIrq (s : State) (d : Nat) : Bool :=
  (s.links.any fun e => linkServer e.1 == d && (e.2.levt &&& e.2.en) != 0#5) || (d == 0 && s.pkg.syncErr)

/-- A compare register has been reached (R327). -/
def reached (s : State) (tick : DWord) : Bool := tick != 0#64 && decide (tick.toNat ≤ s.time)

/-- The tiles of a die, by slot. -/
def slots (s : State) (d : Nat) : List Tile := (List.range 64).map fun k => s.tile (64 * d + k)

/-- Bits of a list of Booleans, first lowest. -/
def packBits : List Bool → Nat
  | [] => 0
  | b :: r => (if b then 1 else 0) + 2 * packBits r

/-- TPEND (R290, R300). -/
def tpend (s : State) (d : Nat) : DWord := BitVec.ofNat 64 (packBits ((s.slots d).map (·.stop.tpend)))

/-- IPEND: each bit follows its source (R295). -/
def ipend (s : State) (d : Nat) : BitVec 8 :=
  let x := s.die d
  let part := s.parts.any fun e => e.2.v && e.2.dies.getLsbD d && (e.2.st == .done || e.2.st == .aborted || e.2.st == .saving)
  BitVec.ofBool (s.reached x.wdcmp) ++ BitVec.ofBool (!x.dbq.isEmpty || x.ovf) ++ BitVec.ofBool (s.reached x.twnext)
    ++ BitVec.ofBool (s.linkIrq d) ++ BitVec.ofBool ((s.slots d).any (·.press.due))
    ++ BitVec.ofBool (x.logWr != x.logRd) ++ BitVec.ofBool part ++ BitVec.ofBool (s.tpend d != 0#64)

/-- The unmasked sources. -/
def irq (s : State) (d : Nat) : BitVec 8 := s.ipend d &&& (s.fwc d).imask

/-- DSTATE of a die: reset, drained, throttled, running (R327, R363). -/
def dstate (s : State) (d : Nat) : BitVec 2 :=
  let x := s.die d
  if s.pkg.dreset.getLsbD d then 1 else if x.drain then 2 else if x.cur ≠ 0#2 then 3 else 0

/-- Effective latency and skew of a pair (R355, R356). -/
def pairLat (s : State) (a b : Nat) : Nat :=
  if a = b then 0 else min (Config.minLat a b + ((s.pkg.overlayNow.get 0#32 (8 * a + b)).extractLsb' 0 16).toNat) 65535
def pairSkew (s : State) (a b : Nat) : Nat :=
  if a = b then 0 else min (Config.maxSkew a b + ((s.pkg.overlayNow.get 0#32 (8 * a + b)).extractLsb' 16 16).toNat) 65535

/-- The drift of a die: its tile cycle counter less package time (R40). -/
def drift (s : State) (d : Nat) : Int := ((s.die d).cyc : Int) - s.time

/-- REMAP (R326). -/
def remap : DWord :=
  BitVec.ofNat 32 Config.hiddenSite.val ++ BitVec.ofNat 32 ((List.range 8).map fun d => 16 ^ d * Config.dieSite d).sum

/-- CTXE of a slot (R314). -/
def ctxe (c : Ctx) : DWord := BitVec.ofBool c.v ++ 0#7 ++ c.pasid ++ 0#8 ++ c.root

/-- TSTAT's bits as a context and the registers show them (R228). -/
def tileOf (s : State) (d : Nat) : Nat := 64 * d + (s.fwc d).tsel.toNat

end State

/-! ### Links (R367, R370) -/

/-- LSEL's fields. -/
def lselLink (v : BitVec 16) : Nat := (v.extractLsb' 0 5).toNat
def lselDir (v : BitVec 16) : Nat := (v.extractLsb' 5 1).toNat
def lselMod (v : BitVec 16) : Nat := (v.extractLsb' 6 3).toNat
def lselLane (v : BitVec 16) : Nat := (v.extractLsb' 9 7).toNat
/-- A LINK value that names a mesh link or a port. -/
def linkExists (k : Nat) : Bool := decide (k < 12) || (decide (16 ≤ k) && decide (k < 24))
def isPort (k : Nat) : Bool := decide (16 ≤ k)

/-- STATE codes of LCTL. -/
def LState.code : LState → BitVec 4
  | .down => 0
  | .training => 1
  | .active => 2
  | .draining => 3
  | .paused => 4
  | .failed => 5

namespace Link

/-- The valid entries of a MAP: redundant lane, lane it replaces. -/
def entries (m : Word) : List (Nat × Nat) :=
  ([0, 1, 2, 3].filter fun k => (m.extractLsb' (8 * k + 7) 1) == 1#1).map fun k => (k, (m.extractLsb' (8 * k) 7).toNat)

/-- The lanes in use at a width (R369); a port has four lanes (R370). -/
def lanesInUse (port half w32 : Bool) : List Nat :=
  if port then List.range 4
  else if w32 then (List.range 32).map (· + if half then 32 else 0) else List.range 64

/-- A REQ with these settings is refused in this state (R369, R370). -/
def reqRefused (l : Link) (port half w32 : Bool) : Bool :=
  (l.st == .training || l.st == .draining || l.st == .paused)
    || (half && !w32) || (port && (half || w32))
    || (List.range 16).any fun k =>
      let es := entries (l.map.get 0#32 k)
      let failed := l.lfail.get 0#64 k
      (lanesInUse port half w32).any (fun n => failed.getLsbD n && !(es.any fun e => e.2 == n))
        || es.any (fun e => (l.sfail.get 0#4 k).getLsbD e.1)
        || es.any fun e => es.any fun f => e.1 != f.1 && e.2 == f.2

end Link

namespace State

/-- A read of a link register (R367, R371). -/
def linkRead (s : State) (sel : BitVec 16) (sr : BitVec 8) : DWord :=
  let k := lselLink sel
  let l := s.link k
  let dm := 8 * lselDir sel + lselMod sel
  let port := isPort k
  if !linkExists k then 0
  else match sr.toNat with
  | 0x71 => l.st.code ++ 0#41 ++ BitVec.ofBool (l.half && !port) ++ BitVec.ofBool (l.w32 && !port) ++ BitVec.ofBool l.s16
      ++ 0#12 ++ BitVec.ofBool l.chalf ++ BitVec.ofBool l.cw32 ++ BitVec.ofBool l.cs16 ++ 0#1
  | 0x72 => if port then 0 else 0#28 ++ l.sfail.get 0#4 dm ++ l.map.get 0#32 dm
  | 0x73 => l.lfail.get 0#64 dm
  | 0x74 => if lselLane sel < (if port then 4 else 68) then (l.lerr.get 0#16 (68 * dm + lselLane sel)).setWidth 64 else 0
  | 0x75 => (if lselDir sel = 0 then l.retry0 else l.retry1).setWidth 64
  | 0x76 => 0#16 ++ l.thrRetry ++ l.thrLane
  | 0x77 => 0#27 ++ l.en ++ 0#27 ++ l.levt
  | _ => if port then BitVec.ofBool l.portEn ++ BitVec.ofBool l.portIn ++ 0#18 ++ l.rbase ++ 0#39 else 0

/-- A write of a link register; none where the door is refused. -/
def linkWrite (s : State) (sel : BitVec 16) (sr : BitVec 8) (v : DWord) : Option State :=
  let k := lselLink sel
  let l := s.link k
  let dm := 8 * lselDir sel + lselMod sel
  let port := isPort k
  let put (x : Link) : Option State := some (s.modLink k fun _ => x)
  if !linkExists k then none
  else match sr.toNat with
  | 0x71 =>
    let half := v.getLsbD 18
    let w32 := v.getLsbD 17
    let s16 := v.getLsbD 16
    let l' := { l with half := half && !port, w32 := w32 && !port, s16 := s16 }
    if v.getLsbD 0 then
      if l.reqRefused port half w32 then none
      else
        let same := l'.half == l.chalf && l'.w32 == l.cw32 && l'.s16 == l.cs16
        match l.st with
        | .active => put { l' with st := .draining, req := true, mapOnly := same }
        | .failed => put { l' with st := .paused, req := true, mapOnly := same, attemptEnd := s.ticks }
        | _ => put l'
    else put l'
  | 0x72 => if port then some s else put { l with map := l.map.set 0#32 dm (v.setWidth 32) }
  | 0x73 => put { l with lfail := l.lfail.set 0#64 dm (l.lfail.get 0#64 dm &&& ~~~v) }
  | 0x74 =>
    if lselLane sel < (if port then 4 else 68) then
      put { l with lerr := l.lerr.set 0#16 (68 * dm + lselLane sel) (v.setWidth 16) }
    else some s
  | 0x75 => put (if lselDir sel = 0 then { l with retry0 := v.setWidth 32 } else { l with retry1 := v.setWidth 32 })
  | 0x76 => put { l with thrRetry := v.extractLsb' 16 32, thrLane := v.setWidth 16 }
  | 0x77 => put { l with en := v.extractLsb' 32 5, levt := l.levt &&& ~~~(v.setWidth 5) }
  | _ =>
    if port then put { l with portEn := v.getLsbD 63, portIn := v.getLsbD 62, rbase := v.extractLsb' 39 5 } else none

/-! ### Contexts and partitions (R314, R322) -/

/-- CTXE is refused, or writes a slot (R314). -/
def writeCtx (s : State) (slot : Nat) (v : DWord) : Option State :=
  let live := v.getLsbD 63
  let pasid : BitVec 20 := v.extractLsb' 36 20
  let root : BitVec 28 := v.setWidth 28
  let old := s.ctx slot
  if (live && old.v)
      || (s.ctxs.any fun e => e.1 != slot && e.2.v && e.2.pasid == pasid)
      || decide (hbmTop < 0x10000 * root.toNat + 0x10000)
      || (!live && ((s.dies.any fun e => e.2.tlu.any fun x => x.ctx == slot)
        || s.parts.any fun e => e.2.active && e.2.ctx.toNat == slot))
  then none
  else some { s with ctxs := s.ctxs.set ctx0 slot ⟨live, pasid, root⟩ }

/-- Set bits of DIES: 1, 2, 4 or 8 of them (R322). -/
def diesOk (d : BitVec 8) : Bool :=
  let n := ((List.range 8).filter fun k => d.getLsbD k).length
  n == 1 || n == 2 || n == 4 || n == 8

/-- A table of a partition lies in HBM and outside the protected memory of every other live partition (R322). -/
def tableOk (s : State) (p pa n : Nat) : Bool :=
  decide (pa + n ≤ hbmTop) && !(s.parts.any fun e => e.1 != p && protectedBy e.2 pa n)

/-- Both tables of a configuration. -/
def tablesOk (s : State) (p : Nat) (q : Part) : Bool :=
  s.tableOk p (0x200000 * q.rgn.toNat) (0x80000 + 0x40000 * q.nleaf.toNat) && s.tableOk p (0x200000 * q.rcd.toNat) 0x1000000

/-- A write of PCFG (R322). A slot that another live partition names is refused like one that is not live: R384 says that none is
shared (log 25). -/
def writePcfg (s : State) (p : Nat) (v : DWord) : Option State :=
  let q := s.part p
  let ctx : BitVec 8 := v.extractLsb' 48 8
  let dies : BitVec 8 := v.setWidth 8
  let q' := { q with v := v.getLsbD 63, ctx := ctx, slim := v.extractLsb' 24 24, dies := dies }
  if !diesOk dies
      || (s.parts.any fun e => e.1 != p && e.2.v && (e.2.dies &&& dies) != 0#8)
      || !(s.ctx ctx.toNat).v
      || !s.tablesOk p q' || (q'.v && s.parts.any fun e => e.1 != p && e.2.v && e.2.ctx == ctx)
      || (q.active && (q'.v != q.v || ctx != q.ctx || dies != q.dies))
  then none else some (s.setPart p q')

/-- A write of PRGN. -/
def writePrgn (s : State) (p : Nat) (v : DWord) : Option State :=
  let q := s.part p
  let q' := { q with rgn := v.extractLsb' 21 23, nleaf := v.setWidth 13 }
  if decide (4096 < q'.nleaf.toNat) || !s.tableOk p (0x200000 * q'.rgn.toNat) (0x80000 + 0x40000 * q'.nleaf.toNat)
      || (q.active && (q'.rgn != q.rgn || q'.nleaf != q.nleaf))
  then none else some (s.setPart p q')

/-- A write of PREC. -/
def writePrec (s : State) (p : Nat) (v : DWord) : Option State :=
  let q := s.part p
  let q' := { q with rcd := v.extractLsb' 21 23 }
  if !s.tableOk p (0x200000 * q'.rcd.toNat) 0x1000000 || (q.active && q'.rcd != q.rcd)
  then none else some (s.setPart p q')

/-- A configuration write of a die: in one tick only those of the lowest die that writes take effect, whichever partitions they name
(R322). -/
def writeConfig (s : State) (d : Nat) (sr : BitVec 8) (v : DWord) : Option State :=
  let p := s.pkg.psel.toNat
  let taken := match s.pkg.cfgAt with
    | some (t, e) => t == s.ticks && e != d
    | none => false
  if taken then none
  else
    (match sr.toNat with
      | 0x45 => s.writePcfg p v
      | 0x46 => s.writePrgn p v
      | _ => s.writePrec p v).map fun (r : State) => { r with pkg := { r.pkg with cfgAt := some (s.ticks, d) } }

/-! ### Resets and drains of a die (R363, R385) -/

/-- Die reset through DRESET: a die whose bit is set stops, and its copies go, for it makes no access of any kind (R327); one whose
bit clears starts at ROM word 0 and runs the first press on its tiles (R361, R385). -/
def writeDreset (s : State) (d : Nat) (v : DWord) : Option State :=
  let new : BitVec 8 := v.setWidth 8
  let old := s.pkg.dreset
  if new.getLsbD d || (List.range 8).any fun e => new.getLsbD e && s.dieActive e then none
  else
    let s := { s with
      pkg := { s.pkg with dreset := new }
      copies := s.copies.filter fun c => !new.getLsbD (dieOf c.tile) }
    some ((List.range 8).foldl (fun s e =>
      if old.getLsbD e && !new.getLsbD e then ((s.restartFwc e).clearEvents e).startPress e
      else if new.getLsbD e then s.modDie e fun x => { x with pressAt := none }
      else s) s)

/-- A requested divisor (R363): outside a partition it is applied within 512 ticks. -/
def writeFreq (s : State) (d : Nat) (v : DWord) : State :=
  let div : BitVec 2 := v.setWidth 2
  let s' := s.modDie d fun x => { x with
    div := div, divAt := if div = x.cur then none else some (s.ticks + Config.divisorLag s.free) }
  s'.draw

/-- The event counter that EVSEL selects (R379). -/
def evcOf (s : State) (d : Nat) : Evc :=
  let n := ((s.die d).evsel.setWidth 4).toNat
  if (s.die d).evsel.getLsbD 4 then (s.tile (s.tileOf d)).evc.get evc0 n else (s.die d).evc.get evc0 n
def modEvc (s : State) (d : Nat) (f : Evc → Evc) : State :=
  let n := ((s.die d).evsel.setWidth 4).toNat
  if (s.die d).evsel.getLsbD 4 then s.modTile (s.tileOf d) fun x => { x with evc := x.evc.put n (f (x.evc.get evc0 n)) }
  else s.modDie d fun x => { x with evc := x.evc.put n (f (x.evc.get evc0 n)) }

/-- EVCNT: the write wins over increments of the same cycle (R379). -/
def writeEvcnt (s : State) (d : Nat) (v : DWord) : State :=
  let sel := (s.die d).evsel
  (s.modEvc d fun e => { e with count := v }).modDie d fun x => { x with
    evcSet := x.evcSet ++ [(if sel.getLsbD 4 then some (s.tileOf d) else none, (sel.setWidth 4 : BitVec 4).toNat, v)] }

/-- Commitments of live partitions (R364). -/
def commitments (s : State) : Nat := ((s.parts.filter fun e => e.2.active).map (·.2.commit)).sum

/-- The log entry ELE0 to ELE3 show. -/
def logEnt (x : Die) : LogEnt := x.log.get log0 (x.logRd % 256)

end State

/-- A system register that exists (R290). -/
def regExists (sr : BitVec 8) : Bool :=
  let n := sr.toNat
  decide (n ≤ 0x06) || (decide (0x08 ≤ n) && decide (n ≤ 0x12)) || n == 0x15 || n == 0x40 || n == 0x41
    || (decide (0x44 ≤ n) && decide (n ≤ 0x47)) || n == 0x4C || (decide (0x50 ≤ n) && decide (n ≤ 0x56))
    || (decide (0x60 ≤ n) && decide (n ≤ 0x67)) || (decide (0x69 ≤ n) && decide (n ≤ 0x6C))
    || (decide (0x70 ≤ n) && decide (n ≤ 0x78)) || (decide (0x80 ≤ n) && decide (n ≤ 0x89))

/-- CTXLEN: bytes in a saved context (R290). -/
def ctxLen : Nat := 0x1A6000

namespace State

/-- What an MFSR of a register other than DBQ returns. -/
def sysRead (s : State) (d : Nat) (sr : BitVec 8) : DWord :=
  let x := s.die d
  let f := x.fwc
  let t := s.tile (s.tileOf d)
  let r : Report := t.stop.report.getD ⟨0, 0, 0, 0⟩
  let q := s.part s.pkg.psel.toNat
  match sr.toNat with
  | 0x00 => 0#48 ++ BitVec.ofNat 3 d ++ BitVec.ofNat 4 (Config.dieSite d) ++ 0#6 ++ BitVec.ofBool f.exc
      ++ BitVec.ofBool f.pie ++ BitVec.ofBool f.ie
  | 0x01 => f.epc.setWidth 64
  | 0x02 => f.ecause.setWidth 64
  | 0x03 => f.eval_
  | 0x04 => f.evec.setWidth 64
  | 0x05 => (s.ipend d).setWidth 64
  | 0x06 => f.imask.setWidth 64
  | 0x08 => f.tsel.setWidth 64
  | 0x09 => s.tpend d
  | 0x0B => r.w0
  | 0x0C => r.w1
  | 0x0D => r.w2
  | 0x0E => r.w3
  | 0x0F => if t.stop.pbm then 1 else 0
  | 0x10 => t.tda.mmap
  | 0x11 => BitVec.ofNat 64 ctxLen
  | 0x12 => f.apbase.setWidth 64
  | 0x15 => 0#56 ++ x.fired ++ BitVec.ofNat 4 (packBits ([0, 1, 2, 3].map fun k => (x.inj.get inj0 k).armed))
  | 0x40 => s.pkg.ctxsel.setWidth 64
  | 0x41 => ctxe (s.ctx s.pkg.ctxsel.toNat)
  | 0x44 => s.pkg.psel.setWidth 64
  | 0x45 => BitVec.ofBool q.v ++ 0#7 ++ q.ctx ++ q.slim ++ 0#16 ++ q.dies
  | 0x46 => 0#20 ++ q.rgn ++ 0#8 ++ q.nleaf
  | 0x47 => 0#20 ++ q.rcd ++ 0#21
  | 0x4C => remap
  | 0x50 => 0#20 ++ s.pkg.qtbase ++ 0#22 ++ BitVec.ofBool s.pkg.qen
  | 0x51 => 0#20 ++ s.pkg.leasepa ++ 0#3
  | 0x53 => x.wdcmp
  | 0x54 => x.twnext
  | 0x55 => 0#20 ++ s.pkg.mbxpa ++ 0#12
  | 0x56 => BitVec.ofNat 64 (((List.range 8).map fun e => (s.dstate e).toNat * 4 ^ e).sum)
  | 0x60 => x.dpsel.setWidth 64
  | 0x61 =>
    let a := (x.dpsel.extractLsb' 4 3).toNat
    let b := (x.dpsel.setWidth 3).toNat
    if a = b then 0
    else s.pkg.overlay.get 0#32 (8 * a + b) ++ BitVec.ofNat 16 (Config.maxSkew a b) ++ BitVec.ofNat 16 (Config.minLat a b)
  | 0x62 => BitVec.ofInt 32 (s.drift d) ++ 0#16 ++ BitVec.ofNat 16 (Config.tolerance d)
  | 0x63 => x.calint.setWidth 64
  | 0x64 => BitVec.ofBool t.press.due ++ 0#15 ++ BitVec.ofNat 48 t.press.last
  | 0x65 => t.press.rows
  | 0x66 => 0#46 ++ x.cur ++ 0#7 ++ BitVec.ofBool (x.div != x.cur) ++ 0#6 ++ x.div
  | 0x67 => s.pkg.pwrcap.setWidth 64
  | 0x69 => 0#32 ++ s.pkg.syncWin ++ 0#2 ++ s.pkg.syncExp ++ 0#5 ++ BitVec.ofBool s.pkg.syncLoad ++ s.pkg.syncMode
  | 0x6A => BitVec.ofBool s.pkg.syncLock ++ BitVec.ofBool s.pkg.syncErr ++ 0#30 ++ s.pkg.syncDev
  | 0x6B => s.pkg.syncld
  | 0x6C => if x.drain then 1 else 0
  | 0x70 => x.lsel.setWidth 64
  | 0x71 | 0x72 | 0x73 | 0x74 | 0x75 | 0x76 | 0x77 | 0x78 => s.linkRead x.lsel sr
  | 0x80 => BitVec.ofNat 16 x.lost ++ 0#23 ++ BitVec.ofNat 9 x.logWr ++ 0#7 ++ BitVec.ofNat 9 x.logRd
  | 0x81 => (logEnt x).e0
  | 0x82 => (logEnt x).e1
  | 0x83 => (logEnt x).e2
  | 0x84 => (logEnt x).e3
  | 0x85 => x.evsel.setWidth 64
  | 0x86 => 0#55 ++ BitVec.ofBool (s.evcOf d).en ++ (s.evcOf d).src
  | 0x87 => (s.evcOf d).count
  | 0x88 => BitVec.ofBool f.lock ++ BitVec.ofBool f.inst ++ 0#30 ++ Config.minVersion ++ f.ver
  | 0x89 => s.pkg.dreset.setWidth 64
  | _ => 0

/-- A debug enable sets the pending bits of words with a write pending: the model reads them off the records (R292). -/
def writeDbgctl (s : State) (d : Nat) (v : DWord) : State :=
  s.modTile (s.tileOf d) fun x => { x with stop := { x.stop with pbm := v.getLsbD 0 } }

/-- MMAPX clears bits; at zero MFIRST clears too (R228, R292). -/
def writeMmapx (s : State) (d : Nat) (v : DWord) : State :=
  s.modTile (s.tileOf d) fun x =>
    let m := x.tda.mmap &&& ~~~v
    { x with tda := { x.tda with mmap := m, mfirst := if m = 0 then 0 else x.tda.mfirst } }

/-- The overlay of the selected pair; a die and itself has none (R355). -/
def writeOverlay (s : State) (d : Nat) (v : DWord) : State :=
  let a := ((s.die d).dpsel.extractLsb' 4 3).toNat
  let b := ((s.die d).dpsel.setWidth 3).toNat
  if a = b then s
  else { s with pkg := { s.pkg with overlay := s.pkg.overlay.set 0#32 (8 * a + b) (v.extractLsb' 32 32) } }

/-- SYNCCFG: setting LOAD is refused while a partition is not at rest (R358). -/
def writeSync (s : State) (v : DWord) : Option State :=
  if v.getLsbD 2 && s.parts.any (fun e => e.2.active) then none
  else some { s with pkg := { s.pkg with
    syncWin := v.extractLsb' 16 16, syncExp := v.extractLsb' 8 6, syncLoad := v.getLsbD 2, syncMode := v.setWidth 2 } }

/-- PWRCAP is refused below the live commitments (R364). -/
def writePwrcap (s : State) (v : DWord) : Option State :=
  if (v.setWidth 8).toNat < s.commitments then none
  else some { s with pkg := { s.pkg with pwrcap := v.setWidth 8 } }

/-- DCTL: draining is refused while the die's partition is not at rest (R363). -/
def writeDctl (s : State) (d : Nat) (v : DWord) : Option State :=
  if v.getLsbD 0 && s.dieActive d then none else some (s.modDie d fun x => { x with drain := v.getLsbD 0 })

/-- ELCTL: RD may not pass WR; CLRL clears LOST (R376). -/
def writeElctl (s : State) (d : Nat) (v : DWord) : Option State :=
  let x := s.die d
  let rd := (v.setWidth 9).toNat
  if 256 < (x.logWr + 512 - rd) % 512 then none
  else some (s.modDie d fun x => { x with logRd := rd, lost := if v.getLsbD 32 then 0 else x.lost })

/-- Sources a counter may name: tile sources and die sources (R380). -/
def sourceOk (tile : Bool) (src : Nat) : Bool :=
  if tile then decide (1 ≤ src) && decide (src ≤ 0x0D) else decide (0x20 ≤ src) && decide (src ≤ 0x25)

/-- An MTSR of a register other than TCMD; none where the door is refused. -/
def sysWrite (s : State) (d : Nat) (sr : BitVec 8) (v : DWord) : Option State :=
  match sr.toNat with
  | 0x00 => some (s.modFwc d fun f => { f with pie := v.getLsbD 1, ie := v.getLsbD 0 })
  | 0x01 => some (s.modFwc d fun f => { f with epc := v.setWidth 15 })
  | 0x04 => some (s.modFwc d fun f => { f with evec := v.setWidth 15 })
  | 0x06 => some (s.modFwc d fun f => { f with imask := v.setWidth 8 })
  | 0x08 => some (s.modFwc d fun f => { f with tsel := v.setWidth 6 })
  | 0x0F => some (s.writeDbgctl d v)
  | 0x10 => some (s.writeMmapx d v)
  | 0x12 => some (s.modFwc d fun f => { f with apbase := v.extractLsb' 31 13 ++ 0#31 })
  | 0x15 => some (s.modDie d fun x => { x with fired := x.fired &&& ~~~(v.extractLsb' 4 4) })
  | 0x40 => some { s with pkg := { s.pkg with ctxsel := v.setWidth 8 } }
  | 0x41 => s.writeCtx s.pkg.ctxsel.toNat v
  | 0x44 => some { s with pkg := { s.pkg with psel := v.setWidth 3 } }
  | 0x45 | 0x46 | 0x47 => s.writeConfig d sr v
  | 0x50 => some { s with pkg := { s.pkg with qtbase := v.extractLsb' 23 21, qen := v.getLsbD 0 } }
  | 0x51 => some { s with pkg := { s.pkg with leasepa := v.extractLsb' 3 41 } }
  | 0x53 => some (s.modDie d fun x => { x with wdcmp := v })
  | 0x54 => some (s.modDie d fun x => { x with twnext := v })
  | 0x55 => some { s with pkg := { s.pkg with mbxpa := v.extractLsb' 12 32 } }
  | 0x60 => some (s.modDie d fun x => { x with dpsel := v.setWidth 7 &&& 0x77 })
  | 0x61 => some (s.writeOverlay d v)
  | 0x63 =>
    let n := (v.setWidth 32).toNat
    if n < 2 ^ 16 || 2 ^ 24 < n then none else some (s.modDie d fun x => { x with calint := v.setWidth 32 })
  | 0x64 => some (s.modTile (s.tileOf d) fun x => { x with press := { x.press with due := x.press.due && !v.getLsbD 63 } })
  | 0x66 => some (s.writeFreq d v)
  | 0x67 => s.writePwrcap v
  | 0x69 => s.writeSync v
  | 0x6A => some { s with pkg := { s.pkg with syncErr := s.pkg.syncErr && !v.getLsbD 62 } }
  | 0x6B => some { s with pkg := { s.pkg with syncld := v } }
  | 0x6C => s.writeDctl d v
  | 0x70 => some (s.modDie d fun x => { x with lsel := v.setWidth 16 })
  | 0x71 | 0x72 | 0x73 | 0x74 | 0x75 | 0x76 | 0x77 | 0x78 => s.linkWrite (s.die d).lsel sr v
  | 0x80 => s.writeElctl d v
  | 0x85 => if v.getLsbD 4 && decide (3 < (v.setWidth 4).toNat) then none
            else some (s.modDie d fun x => { x with evsel := v.setWidth 5 })
  | 0x86 => if sourceOk ((s.die d).evsel.getLsbD 4) (v.setWidth 8).toNat
            then some (s.modEvc d fun e => { e with en := v.getLsbD 8, src := v.setWidth 8 }) else none
  | 0x87 => some (s.writeEvcnt d v)
  | 0x89 => s.writeDreset d v
  | _ => some s

/-- The head of the doorbell FIFO is removed, OVF clears (R327, R328). -/
def readDbq (s : State) (d : Nat) : State × DWord :=
  let x := s.die d
  let v : DWord := match x.dbq with
    | [] => BitVec.ofBool false ++ BitVec.ofBool x.ovf ++ 0#62
    | (p, q) :: _ => BitVec.ofBool true ++ BitVec.ofBool x.ovf ++ 0#34 ++ p ++ q
  (s.modDie d fun x => { x with dbq := x.dbq.drop 1, ovf := false }, v)

end State

end Sys2Proof.Machine
end

