-- ==== Sys2Proof/Machine/TileSteps.lean ====
section
/-! DEFINITION. The steps inside a tile that no word names: landings, prefetch buffers, ring signals, deadlock, FIFO
elements, the halt (R46-R48, R57, R73, R128, R170, R231). -/

namespace Sys2Proof.Machine

/-- RESULT_LANDING (R73). -/
def execResultLanding (t : Nat) (s : State) : Out := .next (s.landDue t)

/-- A buffer whose fill has ended holds its words (R57, R170). -/
def Target.fill (g : Target) (cyc : Nat) : Target :=
  match g.buf with
  | .filling n => if n ≤ cyc then { g with buf := .filled } else g
  | _ => g

/-- PREFETCH_BUFFER_FILLED. -/
def execPrefetchBufferFilled (t : Nat) (s : State) : Out :=
  .next (s.modTile t fun x => { x with ctl := { x.ctl with t := x.ctl.t.map fun e => (e.1, e.2.fill x.cyc) } })

/-! ### Ring signals (R46, R68, R254) -/

namespace Tile

/-- The token FIFO from an engine to its predecessor or successor. -/
def fifoTo (x : Tile) (e : Eng) (succ : Bool) : List Word :=
  match e, succ with
  | .ctl, true => x.pvu.fp
  | .ctl, false => x.pxp.fs
  | .vu, true => x.ptda.fp
  | .vu, false => x.pctl.fs
  | .tda, true => x.pxp.fp
  | .tda, false => x.pvu.fs
  | .xp, true => x.pctl.fp
  | .xp, false => x.ptda.fs
  | .tsq, _ => []

/-- Room toward an engine's predecessor or successor: the FIFO there holds 8 tokens. -/
def room (x : Tile) (e : Eng) (succ : Bool) : Bool := e != .tsq && decide ((x.fifoTo e succ).length < 8)

/-- Every ring signal that waits will find room, no engine taking a token. -/
def sigsFit (x : Tile) : Bool :=
  [Eng.ctl, .vu, .tda, .xp].all fun e =>
    decide ((x.fifoTo e false).length + ((x.pos e).sigs.filter (·.sp)).length ≤ 8)
      && decide ((x.fifoTo e true).length + ((x.pos e).sigs.filter (·.ss)).length ≤ 8)

/-- Place one token. -/
def place (x : Tile) (e : Eng) (succ : Bool) (v : Word) : Tile :=
  match e, succ with
  | .ctl, true => { x with pvu := { x.pvu with fp := x.pvu.fp ++ [v] } }
  | .ctl, false => { x with pxp := { x.pxp with fs := x.pxp.fs ++ [v] } }
  | .vu, true => { x with ptda := { x.ptda with fp := x.ptda.fp ++ [v] } }
  | .vu, false => { x with pctl := { x.pctl with fs := x.pctl.fs ++ [v] } }
  | .tda, true => { x with pxp := { x.pxp with fp := x.pxp.fp ++ [v] } }
  | .tda, false => { x with pvu := { x.pvu with fs := x.pvu.fs ++ [v] } }
  | .xp, true => { x with pctl := { x.pctl with fp := x.pctl.fp ++ [v] } }
  | .xp, false => { x with ptda := { x.ptda with fs := x.ptda.fs ++ [v] } }
  | .tsq, _ => x

/-- A signal's word and every earlier word are complete, the array's commands retired (R46, R219). -/
def sigDue (x : Tile) (g : Sig) : Bool :=
  decide (g.due ≤ x.cyc)
    && (g.cmd = 0 || !((x.tda.queue.any fun c => decide (c.id ≤ g.cmd)) || x.tda.runs.any fun r => decide (r.cmd.id ≤ g.cmd)))

/-- The oldest signal's tokens that have room are placed; whether the signal is placed whole. -/
def placeSig (x : Tile) (e : Eng) (g : Sig) : Tile × Option Sig :=
  let v := g.pay.getD 0
  let (x, sp) := if g.sp && x.room e false then (x.place e false v, false) else (x, g.sp)
  let (x, ss) := if g.ss && x.room e true then (x.place e true v, false) else (x, g.ss)
  (x, if sp || ss then some { g with sp := sp, ss := ss } else none)

/-- Place an engine's signals in order, at most `n`. -/
def placeSigs (x : Tile) (e : Eng) : Nat → Tile
  | 0 => x
  | n + 1 =>
    match (x.pos e).sigs with
    | [] => x
    | g :: r =>
      if x.sigDue g then
        match x.placeSig e g with
        | (y, none) => placeSigs (y.setPos e { y.pos e with sigs := r }) e n
        | (y, some g') => y.setPos e { y.pos e with sigs := g' :: r }
      else x

/-- The payload of a CTL signal whose word is complete (R68, R254); landings take it first (`State.landDue`). -/
def payDue (x : Tile) : Tile :=
  { x with pctl := { x.pctl with sigs := x.pctl.sigs.map fun g =>
      if g.own ≤ x.cyc && g.pay.isNone then { g with pay := some (x.ctl.alu.setWidth 32) } else g } }

end Tile

/-- RING_TOKEN_SIGNAL. -/
def execRingTokenSignal (t : Nat) (s : State) : Out :=
  .next (s.modTile t fun x =>
    [Eng.ctl, .vu, .tda, .xp].foldl (fun x e => x.placeSigs e (x.pos e).sigs.length) x.payDue)

/-! ### Token deadlock (R47) -/

/-- The text engine whose tag a word carries (R132). -/
def engOf (w : Word) : Eng :=
  match (tagOf w).toNat with
  | 0 => .ctl
  | 1 => .vu
  | 2 => .tda
  | _ => .xp

/-- A signal of the engine is due and not placed: the engine stalls (R46). -/
def Tile.sigStuck (x : Tile) (e : Eng) : Bool := ((x.pos e).sigs.head?.map x.sigDue).getD false

namespace Tile

/-- The window of R43, in words. -/
def window (x : Tile) : Nat := 8 * ((x.stop.wcfg.extractLsb' 0 5).toNat + 1)
/-- The walk count of the trailing engine. -/
def trail (x : Tile) : Nat := min (min x.pctl.walk x.pvu.walk) (min x.ptda.walk x.pxp.walk)
/-- An engine may pass `n` more words. -/
def inWindow (x : Tile) (e : Eng) (n : Nat) : Bool := decide ((x.pos e).walk + n ≤ x.trail + x.window)
/-- The engine stands at a GUARD: it and its word issue as one unit (R135). -/
def atGuard (x : Tile) (e : Eng) : Bool :=
  let p := x.pos e
  let w := x.store.textAt p.pc
  e == .ctl && tagOf w == 0#2 && opOf w == 0x3C && guardable (x.store.textAt (p.pc + 1))
/-- The head whose ring bits count, and the words of the unit it issues with (R135). -/
def unitHead (x : Tile) (e : Eng) : Word := x.store.textAt (if x.atGuard e then (x.pos e).pc + 1 else (x.pos e).pc)
def unitRing (x : Tile) (e : Eng) : Ring := Ring.ofWord (x.unitHead e)
def unitLen (x : Tile) (e : Eng) : Nat := headLength (x.unitHead e) + (if x.atGuard e then 1 else 0)

/-- A TRAP or BRK whose signals have no room, unless its guard is false (R135, R183). -/
def trapFull (x : Tile) : Bool :=
  let w := x.unitHead .ctl
  let g := x.store.textAt x.pctl.pc
  let r := Ring.ofWord w
  opOf w == 0x3B && (fld w 18 2 == 1#2 || fld w 18 2 == 2#2)
    && (!x.atGuard .ctl || x.pctl.took || x.ctl.rP (fld g 13 6) != bitAt g 19)
    && ((r.ss && decide (8 ≤ x.pvu.fp.length)) || (r.sp && decide (8 ≤ x.pxp.fs.length)))

/-- The engine stands, within the window, at a word of its own. -/
def stands (x : Tile) (e : Eng) : Bool :=
  let p := x.pos e
  let w := x.store.textAt p.pc
  !p.arrived && !p.stopped && decide (p.busy ≤ x.cyc) && w != eotWord && engOf w == e && x.inWindow e (x.unitLen e)
/-- A TRAP or BRK that has taken its tokens stalls on a full FIFO. -/
def trapStalls (x : Tile) (e : Eng) : Bool :=
  e == .ctl && x.stands e && (x.pctl.took || !((x.unitRing e).wp || (x.unitRing e).ws)) && x.trapFull

/-- The engine waits for tokens, or stalls on a full token FIFO (R47). -/
def blocked (x : Tile) (e : Eng) : Bool :=
  x.sigStuck e || (x.stands e && !x.tokens e (x.unitRing e)) || x.trapStalls e

end Tile

/-- The TSQ is halted or blocked in SKWAIT (R32, R47). -/
def Tile.seqIdle (x : Tile) : Bool :=
  x.tsq.halted || match decodeSeq (x.store.seqAt x.tsq.tpc) with
    | .ok (.skwait k n) => decide (x.token k < n.toNat)
    | .ok (.skwaitReg k ga) => decide (x.token k < ((x.tsq.rG ga).extractLsb' 0 16).toNat)
    | _ => false

/-- Nothing in flight (R47). -/
def Tile.nothingInFlight (x : Tile) : Bool :=
  x.pend.isEmpty && Tda.quiet x.tda && x.seqIdle
    && [Eng.ctl, .vu, .tda, .xp].all fun e => match (x.pos e).sigs with
      | [] => true
      | g :: r => x.sigDue g && r.all x.sigDue

/-- Whether the tile is in a token deadlock. -/
def Tile.deadlocked (x : Tile) : Bool := [Eng.ctl, .vu, .tda, .xp].all x.blocked && x.nothingInFlight

/-- TOKEN_DEADLOCK: precise at the CTL's blocked word. -/
def execTokenDeadlock (t : Nat) (s : State) : Out :=
  .next (if (s.tile t).deadlocked then s.trapWord t .ctl Cause.deadlock 0 else s)

/-! ### FIFO elements (R128) -/

def readyFel (cyc : Nat) (e : Fel) : Fel := if e.due ≤ cyc then { e with ready := true } else e

/-- FIFO_ELEMENT_POPPABLE. -/
def execFifoElementPoppable (t : Nat) (s : State) : Out :=
  .next (s.modTile t fun x => { x with sync := { x.sync with
    fqs := x.sync.fqs.map (readyFel x.cyc), fqr := x.sync.fqr.map (readyFel x.cyc), fqa := x.sync.fqa.map (readyFel x.cyc) } })

/-! ### The halt (R48, R231) -/

/-- TILE_HALTED: all four engines have stopped, the queues have drained and nothing is left to land (R76); a margin flag
raises its exception instead. -/
def execTileHalted (t : Nat) (s : State) : Out :=
  let x := s.tile t
  .next <| match x.stop.haltAt with
  | none => s
  | some a =>
    if x.stop.halted || x.stop.frozen || !([Eng.ctl, .vu, .tda, .xp].all fun e => (x.pos e).stopped)
        || !Tda.quiet x.tda || !x.pend.isEmpty then s
    else if x.tda.mmap ≠ 0 then
      s.freeze t ⟨Cause.margin, x.tda.mmap, Eng.code .ctl, a, x.tda.mfirst, 0, false⟩ 0
    else s.modTile t fun x => { x with stop := { x.stop with halted := true } }

end Sys2Proof.Machine
end

