-- ==== Sys2Proof/Machine/Context.lean ====
section
/-! DEFINITION. The saved context of a tile: its bytes, and a tile restored from them (R56-R58, R307, R347-R350). -/

namespace Sys2Proof.Machine

/-! ### Sparse blocks of bytes -/

/-- A memory's bytes from 0 placed at an address. -/
def Mem.shift (m : Mem) (a : Nat) : Mem := m.map fun e => (a + e.1, e.2)
/-- The bytes of a range, at addresses from 0. -/
def Mem.slice (m : Mem) (a n : Nat) : Mem :=
  (m.filter fun e => decide (a ≤ e.1) && decide (e.1 < a + n)).map fun e => (e.1 - a, e.2)
/-- A memory in its canonical form; one that has it stays as it is. -/
def Mem.canon (m : Mem) : Mem := if Memory.wf m then m else m.foldr (fun e r => Mem.write r e.1 [e.2]) []
/-- A range of a memory replaced by a block of bytes. -/
def Mem.blit (m : Mem) (a n : Nat) (b : Mem) : Mem :=
  m.filter (fun e => decide (e.1 < a)) ++ Mem.shift (b.canon.filter fun e => decide (e.1 < n)) a ++
    m.filter (fun e => decide (a + n ≤ e.1))

def le16 (v : Nat) : List Byte := leBytes 2 v
def le32 (v : Nat) : List Byte := leBytes 4 v
def le64 (v : Nat) : List Byte := leBytes 8 v
/-- A list of values in a field of fixed size. -/
def packed (f : Nat → List Byte) (vs : List Nat) (n : Nat) : List Byte :=
  let bs := vs.flatMap f
  bs.take n ++ List.replicate (n - bs.length) 0

/-- Indices below a bound. -/
def upto (n : Nat) : List Nat := List.range n

/-! ### Fields of the control block (R348) -/

/-- t0 to t7 in R56's layout. -/
def targetBits (g : Target) : Nat := (if g.prpd then 2 ^ 31 else 0) + g.addr.toNat
/-- lv0 to lv7 in R58's layout. -/
def levelBits (l : Level) : Nat := l.count.toNat * 2 ^ 32 + l.index.toNat * 2 ^ 16 + l.start.toNat
/-- TSTAT as saved (R228). -/
def Tda.tstat (d : Tda) : Nat :=
  (if d.calr then 8 else 0) + (if d.mmap ≠ 0 then 4 else 0) + (if d.clmp then 2 else 0) + (if d.ovf then 1 else 0)
/-- A counter's eight bytes: count, source, flags. -/
def counterBytes (c : Counter) : List Byte :=
  le32 c.count ++ le16 c.src ++ le16 ((if c.live then 1 else 0) + (if c.self then 2 else 0))
/-- The position of a text engine: word address, and whether it stands after its arrival word. -/
def posBits (p : Pos) : Nat := p.pc % 2 ^ 15 + (if p.arrived then 2 ^ 15 else 0)

/-- What a context says of its launch: phase, die count, low 64 bits of the image's digest, whether it was frozen. -/
structure CtxHead where
  frz : Bool
  phase : Nat
  lt : Nat
  dies : Nat
  imgid : Nat
deriving DecidableEq, Repr

/-- The runs of the control block. Of the second word at 0x380 R348 says `feed-map enables` alone: here A is bit 0 and B bit 1 of
0x384 (the model's choice; log 26). -/
def Tile.controlRuns (x : Tile) (h : CtxHead) : List (Nat × List Byte) :=
  let c := x.ctl
  let q := x.tsq
  let fq (l : List Fel) : List Nat := l.map fun e => e.v.toNat
  let r : Report := if h.frz then x.stop.report.getD ⟨0, 0, 0, 0⟩ else ⟨0, 0, 0, 0⟩
  [ (0x000, le32 0x4C514358 ++ le32 (if h.frz then 1 else 0) ++ le64 h.phase ++ le16 h.lt ++ leBytes 1 h.dies),
    (0x018, le64 h.imgid),
    (0x020, packed le64 ((upto 8).map fun k => (x.vw.get 0#64 k).toNat) 64 ++ le32 x.stop.wcfg.toNat),
    (0x064, le32 x.vu.vstat.toNat ++ le32 x.tda.tstat ++ le32 x.tda.mfirst.toNat),
    (0x070, le64 x.tda.mmap.toNat ++ le64 x.vu.srseed.toNat ++ le32 x.vu.srhnd.toNat ++ le32 x.vu.sridx.toNat),
    (0x088, leBytes 1 x.vu.masks.length),
    (0x090, le32 (x.xp.count % 2 ^ 31 + (if x.xp.sealed then 2 ^ 31 else 0))),
    (0x100, packed le32 ((upto 64).map fun k => (c.rS (BitVec.ofNat 6 k)).toNat) 256),
    (0x200, le64 (State.packBits ((upto 64).map fun k => c.rP (BitVec.ofNat 6 k))) ++ le64 c.alu.toNat
      ++ packed le32 ((upto 8).map fun k => targetBits (c.t.get State.target0 k)) 32),
    (0x230, packed le64 ((upto 8).map fun k => levelBits (c.lv.get State.level0 k)) 64),
    (0x280, packed le32 ((upto 16).map fun k => (q.g.get 0#32 k).toNat) 64),
    (0x2C0, packed le32 ((upto 8).flatMap fun k =>
      let a := q.ag.get State.agen0 k
      [a.base.toNat, a.step0.toNat, a.step1.toNat, a.step2.toNat, a.step3.toNat]) 160),
    (0x360, packed le16 ((upto 4).flatMap fun k =>
      let n := q.nl.get State.nest0 k
      [n.count.toNat, n.index.toNat, n.start.toNat, 0]) 32),
    (0x380, le32 (q.tpc % 4096 + (if q.halted then 2 ^ 31 else 0))
      ++ le32 ((if q.mapA.en then 1 else 0) + (if q.mapB.en then 2 else 0))),
    (0x400, packed (leBytes 1) (q.mapA.bytes.map (·.toNat)) 64 ++ packed (leBytes 1) (q.mapB.bytes.map (·.toNat)) 64),
    (0x480, packed le16 ((upto 8).map fun k => (x.sync.k.get 0#16 k).toNat) 16
      ++ packed le16 ((upto 16).map fun k => (x.sync.sem.get 0#16 k).toNat) 32),
    (0x4B0, (upto 16).flatMap fun k => counterBytes (x.xp.staged.get State.counter0 k)),
    (0x540, packed (leBytes 1) [x.pvu.fp.length, x.pctl.fs.length, x.ptda.fp.length, x.pvu.fs.length, x.pxp.fp.length,
      x.ptda.fs.length, x.pctl.fp.length, x.pxp.fs.length] 8),
    (0x548, packed le32 (x.pvu.fp.map (·.toNat)) 32 ++ packed le32 (x.pxp.fs.map (·.toNat)) 32),
    (0x600, packed le32 (fq x.sync.fqs) 64 ++ packed le32 (fq x.sync.fqr) 64 ++ packed le32 (fq x.sync.fqa) 256
      ++ packed (leBytes 1) [x.sync.fqs.length, x.sync.fqr.length, x.sync.fqa.length] 4),
    (0x800, packed le32 ((upto 256).map fun k => (x.frames.tags.get 0#32 k).toNat) 1024),
    (0xC00, packed le16 (x.sync.decs.map (·.next)) 64 ++ le64 x.sync.decs.length),
    (0xC48, le64 r.w0.toNat ++ le64 r.w1.toNat ++ le64 r.w2.toNat ++ le64 r.w3.toNat),
    (0xC68, if h.frz && h.phase % 2 == 1 then (upto 16).flatMap fun k => counterBytes (x.xp.active.get State.counter0 k) else []),
    (0xCE8, packed le16 [posBits x.pctl, posBits x.pvu, posBits x.ptda, posBits x.pxp] 8
      ++ packed le16 [x.pctl.walk, x.pvu.walk, x.ptda.walk, x.pxp.walk] 8 ++ leBytes 1 (if x.stop.halted then 1 else 0)) ]

/-- The bytes of FIFO entries, oldest first. -/
def fifoBytes (es : List (List Byte)) (n : Nat) : List Byte :=
  let bs := es.flatten
  bs.take n ++ List.replicate (n - bs.length) 0

/-! ### The frozen part (R75, R76, R217, R349; log 26) -/

/-- The bytes of a frozen tile's context that the manual gives no layout: the array's state, the headers of the records, the queue
entries (R349). A CTL record's header ends with its value. -/
def unlaid : List (Nat × Nat) :=
  (0x193000, 0x8000) :: (upto 32).map (fun i => (0x1A3000 + 16 * i, 8)) ++ [(0x1A3200, 0x140), (0x1A3880, 0x2740)]
/-- Those of the `k`th frozen context. -/
def unlaidBytes (k : Nat) (r : Nat × Nat) : List Byte := (upto r.2).map fun i => Config.frozenByte k (r.1 + i)

/-- Elements with the bytes of a run, each as long as it was. -/
def relay {α : Type} (len : α → Nat) (put : α → List Byte → α) : List α → List Byte → List α
  | [], _ => []
  | e :: r, bs => put e (bs.take (len e)) :: relay len put r (bs.drop (len e))

/-- The value of a pending-write record; none for a change of the mask stack or of VSTAT, which is no record of R75. -/
def Land.value : Land → List Byte
  | .sreg _ v => le32 v.toNat
  | .pair _ v => le64 v.toNat
  | .pred _ b => [if b then 1 else 0]
  | .alu v => le64 v.toNat
  | .target _ a _ => le32 (2 ^ 31 + a.toNat)
  | .level _ l => le64 (levelBits l)
  | .bytes _ runs => runs.flatMap (·.2)
  | .part _ runs => runs.flatMap fun r => r.2.map (·.1)
  | .atomic _ _ _ _ b _ => le64 b.toNat
  | .seed v => le64 v.toNat
  | .hnd v => le32 v.toNat
  | .idx v => le32 v.toNat
  | .adv v => le32 v.toNat
  | .mask _ => []
  | .vstat _ => []

/-- A record with a value of the same size. -/
def Land.withValue (l : Land) (bs : List Byte) : Land :=
  let w : Word := BitVec.ofNat 32 (ofLe bs)
  let d : DWord := BitVec.ofNat 64 (ofLe bs)
  match l with
  | .sreg r _ => .sreg r w
  | .pair r _ => .pair r d
  | .pred p _ => .pred p (bit (ofLe bs) 0)
  | .alu _ => .alu d
  | .target t _ full => .target t (w.setWidth 15) full
  | .level k l => .level k { l with count := d.extractLsb' 32 16, index := d.extractLsb' 16 16, start := d.extractLsb' 0 15 }
  | .bytes sp runs => .bytes sp (relay (fun r => r.2.length) (fun r b => (r.1, b)) runs bs)
  | .part sp runs => .part sp (relay (fun r => r.2.length) (fun r b => (r.1, b.zip (r.2.map (·.2)))) runs bs)
  | .atomic op wide a rd _ c => .atomic op wide a rd d c
  | .seed _ => .seed d
  | .hnd _ => .hnd w
  | .idx _ => .idx w
  | .adv _ => .adv w
  | .mask m => .mask m
  | .vstat f => .vstat f

/-- The records of an engine whose values a context has room for: 32 of the CTL, 16 of the VU, 4 of the TSQ (R75). -/
def recordsFor : Eng → Nat
  | .ctl => 32
  | .vu => 16
  | .tsq => 4
  | .tda => 0
  | .xp => 0
/-- Where the value of an engine's `k`th record lies, and its room (R349). -/
def valueAt (e : Eng) (k : Nat) : Nat × Nat :=
  match e with
  | .ctl => (0x1A3008 + 16 * k, 8)
  | .vu => if k < 8 then (0x19B000 + 4096 * k, 4096) else (ctxLen + 0x29000 + 4096 * (k - 8), 4096)
  | _ => (0x1A3340 + 256 * k, 256)

/-- An engine's records, each with its place in the tile's list. -/
def recordIdx (ps : List Pend) (e : Eng) : List (Pend × Nat) :=
  (ps.zipIdx.filter fun p => p.1.eng == e && !p.1.land.value.isEmpty).take (recordsFor e)

/-- The values of an engine's records. -/
def recordRuns (ps : List Pend) (e : Eng) : List (Nat × List Byte) :=
  (recordIdx ps e).zipIdx.map fun r => ((valueAt e r.2).1, r.1.1.land.value.take (valueAt e r.2).2)

/-- Records with the values that a context holds. -/
def takeRecords (m : Mem) (ps : List Pend) (e : Eng) : List Pend :=
  (recordIdx ps e).zipIdx.foldl (fun ps r =>
    let at_ := valueAt e r.2
    let p := r.1.1
    if at_.2 < p.land.value.length then ps
    else replaceAt ps r.1.2 { p with land := p.land.withValue (m.read at_.1 p.land.value.length) }) ps

/-- A plane slot's 8 KiB: its fields stand in the first bytes of 64, the plane behind them (log 26). -/
def planeAt (k : Nat) : Nat := ctxLen + 0x9000 + 0x2000 * k
def fmtBytes : Option PlaneFmt → List Byte
  | none => [0, 0, 0]
  | some f => [1, BitVec.ofNat 8 f.fmt.toBits.toNat, if f.x then 1 else 0]
def Tile.planeRun (x : Tile) (k : Nat) : Nat × List Byte :=
  let slot := x.tda.slots.get none k
  (planeAt k, (fmtBytes (slot.map (·.kind)) ++ fmtBytes (x.tda.view.get none k) ++ List.replicate 58 0)
    ++ ((slot.map (·.bytes)).getD []).take 8128)

/-- A slot's format as saved. -/
def takeFmt (m : Mem) (a : Nat) : Option PlaneFmt :=
  if m.num a 1 = 1 then (TFmt.ofNat? (m.num (a + 1) 1)).map fun f => ⟨f, bit (m.num (a + 2) 1) 0⟩ else none
/-- Bytes of a plane of a format (R216). -/
def planeBytes (f : PlaneFmt) : Nat := sectionBytes f.fmt 64 + (if f.x then 0 else 64 * blocksOf f.fmt)
/-- A slot as saved, as long as the plane `z` that stood there, or as its format asks. -/
def takePlane (m : Mem) (z : Option Plane) (k : Nat) : Option Plane :=
  (takeFmt m (planeAt k)).map fun f => ⟨f, m.read (planeAt k + 64) ((z.map (·.bytes.length)).getD (planeBytes f))⟩

/-- What a frozen tile's context holds besides: values of records, operand and decoder FIFOs, plane slots with the push view, and
the entries in each FIFO; zeros behind the TSQ's records (R349). -/
def Tile.frozenRuns (x : Tile) (k : Nat) : List (Nat × List Byte) :=
  unlaid.map (fun r => (r.1, unlaidBytes k r)) ++ [Eng.ctl, .vu, .tsq].flatMap (recordRuns x.pend) ++
  [ (0x1A3740, List.replicate 0x140 0#8),
    (0x1A5FC0, packed le32 [x.tda.ofa.length, x.tda.ofb.length, x.sync.dcf.length] 64),
    (ctxLen, fifoBytes (x.tda.ofa.map (·.bytes)) 0x4000 ++ fifoBytes (x.tda.ofb.map (·.bytes)) 0x4000
      ++ fifoBytes (x.sync.dcf.map (·.bytes)) 0x1000) ] ++ (upto 16).map x.planeRun

/-- The bytes of a context, from 0 (R347). -/
def Tile.context (x : Tile) (h : CtxHead) (k : Nat) : Mem :=
  let masks := (x.vu.masks.reverse.zipIdx).map fun e => (0x18E000 + 1024 * e.2, leBytes 1024 e.1)
  let low : Mem := x.store.reg ++ Mem.shift x.store.scr 0x80000 ++ Mem.shift x.store.ofl 0x180000
    ++ Mem.shift x.store.lat 0x188000
  let low := Mem.writeRuns low masks
  let ctl := Mem.shift (Mem.writeRuns [] (x.controlRuns h)) 0x192000
  let all := low ++ ctl
  if h.frz then Mem.writeRuns all (x.frozenRuns k) else all

/-- The size of a context (R290, R349). -/
def ctxSize (frz : Bool) : Nat := if frz then ctxLen + 200704 else ctxLen

/-! ### Restoring (R348, R350) -/

/-- A field of a control block. -/
def cb (m : Mem) (off n : Nat) : Nat := m.num (0x192000 + off) n

/-- What the control block says of its launch. -/
def ctxHead (m : Mem) : CtxHead := ⟨bit (cb m 4 4) 0, cb m 8 8, cb m 0x10 2, cb m 0x12 1, cb m 0x18 8⟩

/-- A map over indices from a control block, entries equal to the default unlisted. -/
def cbMap {α : Type} [DecidableEq α] (d : α) (n : Nat) (f : Nat → α) : Map α :=
  (upto n).filterMap fun k => let v := f k; if v = d then none else some (k, v)

def cbCounter (m : Mem) (off : Nat) : Counter :=
  let fl := cb m (off + 6) 2
  ⟨bit fl 0, bit fl 1, cb m (off + 4) 2, cb m off 4⟩

def cbTokens (m : Mem) (k : Nat) (payload : Option Nat) : List Word :=
  (upto (cb m (0x540 + k) 1)).map fun i => match payload with
    | some off => BitVec.ofNat 32 (cb m (off + 4 * i) 4)
    | none => 0

def cbFifo (m : Mem) (off count : Nat) : List Fel :=
  (upto (cb m count 1)).map fun i => ⟨BitVec.ofNat 32 (cb m (off + 4 * i) 4), 0, true⟩

/-- Transfers of the dynamic order in the next words from an address; decisions say where each goes on. -/
def transfersIn (text : Nat → Word) : Nat → Nat → List Nat → Nat
  | 0, _, _ => 0
  | n + 1, a, ds =>
    let w := text a
    if tagOf w == 0#2 && [0x1C, 0x1D, 0x1E, 0x21].contains (opOf w) then
      match ds with
      | [] => 0
      | d :: r => 1 + transfersIn text n d r
    else transfersIn text n (a + 1) ds

/-- Positions of the text engines: address and walk count (modulo 2^16, no engine 32,768 words from the CTL) from the
block; how many of the saved decisions an engine has
applied follows from its distance to the trailing engine of VU, TDA and XP (R43, R44). -/
def restorePos (x : Tile) (m : Mem) : Tile :=
  let pc (e : Nat) : Nat := bits (cb m (0xCE8 + 2 * e) 2) 14 0
  let arr (e : Nat) : Bool := bit (cb m (0xCE8 + 2 * e) 2) 15
  let saved (e : Nat) : Nat := cb m (0xCF0 + 2 * e) 2
  let ahead (e : Nat) : Nat := (saved e + 98304 - saved 0) % 65536
  let walk (e : Nat) : Nat := saved 0 + 32768 + ahead e
  let last := [2, 3].foldl (fun b e => if ahead e < ahead b then e else b) 1
  let decs := (upto (cb m 0xC40 8)).map fun i => cb m (0xC00 + 2 * i) 2
  let halted := bit (cb m 0xCF8 1) 0
  let applied (e : Nat) : Nat := transfersIn x.store.textAt (ahead e - ahead last) (pc last) decs
  let put (p : Pos) (e : Nat) (fp fs : List Word) : Pos :=
    { p with pc := pc e, walk := walk e, arrived := arr e, stopped := halted, busy := 0, applied := applied e, seen := none
             sigs := [], done := 0, fp := fp, fs := fs }
  { x with
    pctl := put x.pctl 0 (cbTokens m 6 none) (cbTokens m 1 none)
    pvu := put x.pvu 1 (cbTokens m 0 (some 0x548)) (cbTokens m 3 none)
    ptda := put x.ptda 2 (cbTokens m 2 none) (cbTokens m 5 none)
    pxp := put x.pxp 3 (cbTokens m 4 none) (cbTokens m 7 (some 0x568))
    sync := { x.sync with decs := decs.map fun a => ⟨a, 0, 0⟩, decBase := 0 } }

/-- The bits of a view, of WCFG, of a tag and of TRPT0 that hold a field: a reserved bit reads as zero (R11, R43, R60, R113, R293). -/
def viewBits : DWord := 0x0FFFFFFFFFFC07FF
def wcfgBits : Word := 0xF81F
def tagBits : Word := 0xFFFFC1FF
def trpt0Bits : DWord := 0xFF00FFFFFFF07FFF

/-- CTL, VU, TDA and TSQ registers of a block. Writes to s0 and p0 are discarded (R53). -/
def restoreRegs (x : Tile) (m : Mem) : Tile :=
  let w32 (off : Nat) : Word := BitVec.ofNat 32 (cb m off 4)
  let fl := cb m 0x384 4
  let fmap (off : Nat) (b : Nat) : FeedMap := ⟨bit fl b, (upto 64).map fun i => BitVec.ofNat 8 (cb m (off + i) 1)⟩
  let depth := min (cb m 0x88 1) 16
  let ts := cb m 0x68 4
  { x with
    ctl := { x.ctl with
      s := cbMap 0#32 64 fun k => if k = 0 then 0#32 else w32 (0x100 + 4 * k)
      p := cbMap false 64 fun k => k != 0 && bit (cb m 0x200 8) k
      t := cbMap State.target0 8 fun k =>
        let v := cb m (0x210 + 4 * k) 4
        ⟨BitVec.ofNat 15 (v % 2 ^ 15), bit v 31, .empty⟩
      lv := cbMap State.level0 8 fun k =>
        let v := cb m (0x230 + 8 * k) 8
        ⟨BitVec.ofNat 16 (bits v 47 32), BitVec.ofNat 16 (bits v 31 16), BitVec.ofNat 15 (bits v 14 0),
          (x.ctl.lv.get State.level0 k).spatial⟩
      alu := BitVec.ofNat 64 (cb m 0x208 8), divFree := 0, guard := none }
    vu := { vstat := BitVec.ofNat 6 (cb m 0x64 4), srseed := BitVec.ofNat 64 (cb m 0x78 8), srhnd := w32 0x80
            sridx := w32 0x84
            masks := ((upto depth).map fun k => m.num (0x18E000 + 1024 * k) 1024).reverse }
    tda := { State.tda0 with
      calr := bit ts 3, clmp := bit ts 1, ovf := bit ts 0, mmap := BitVec.ofNat 64 (cb m 0x70 8)
      mfirst := BitVec.ofNat 15 (cb m 0x6C 4) }
    tsq := { State.tsq0 with
      g := cbMap 0#32 16 fun k => w32 (0x280 + 4 * k)
      ag := cbMap State.agen0 8 fun k =>
        let o := 0x2C0 + 20 * k
        ⟨w32 o, w32 (o + 4), w32 (o + 8), w32 (o + 12), w32 (o + 16)⟩
      nl := cbMap State.nest0 4 fun k =>
        let o := 0x360 + 8 * k
        ⟨BitVec.ofNat 16 (cb m o 2), BitVec.ofNat 16 (cb m (o + 2) 2), BitVec.ofNat 12 (cb m (o + 4) 2)⟩
      mapA := fmap 0x400 0, mapB := fmap 0x440 1
      tpc := cb m 0x380 4 % 4096, halted := bit (cb m 0x380 4) 31 }
    vw := cbMap 0#64 8 fun k => BitVec.ofNat 64 (cb m (0x20 + 8 * k) 8) &&& viewBits }

/-- A tile restored from a context that holds no frozen parts. The launch's own settings (seat, text, loop kinds, trims,
press, counters) stay the tile's. -/
def restoreTile (x : Tile) (m : Mem) : Tile :=
  let x := { x with
    store := { x.store with
      reg := Mem.slice m 0 0x80000, scr := Mem.slice m 0x80000 0x100000, ofl := Mem.slice m 0x180000 0x8000
      lat := Mem.slice m 0x188000 0x6000
      ecc := x.store.ecc.filter fun e => e.sp == .text || e.sp == .seq }
    cyc := 0, pend := [] }
  let x := restorePos (restoreRegs x m) m
  let xc := cb m 0x90 4
  { x with
    xp := { count := xc % 2 ^ 31, sealed := bit xc 31
            staged := cbMap State.counter0 16 fun k => cbCounter m (0x4B0 + 8 * k)
            active := cbMap State.counter0 16 fun k => cbCounter m (0xC68 + 8 * k) }
    sync := { x.sync with
      k := cbMap 0#16 8 fun k => BitVec.ofNat 16 (cb m (0x480 + 2 * k) 2)
      sem := cbMap 0#16 16 fun k => BitVec.ofNat 16 (cb m (0x490 + 2 * k) 2)
      semSat := []
      fqs := cbFifo m 0x600 0x780, fqr := cbFifo m 0x640 0x781, fqa := cbFifo m 0x680 0x782, dcf := [] }
    frames := { State.frames0 with tags := cbMap 0#32 256 fun k => BitVec.ofNat 32 (cb m (0x800 + 4 * k) 4) &&& tagBits }
    stop := { State.stop0 with
      halted := bit (cb m 0xCF8 1) 0, haltAt := if bit (cb m 0xCF8 1) 0 then some x.pctl.pc else none
      wcfg := BitVec.ofNat 32 (cb m 0x60 4) &&& wcfgBits, pbm := x.stop.pbm } }

/-- A tile restored from a frozen context, whatever wrote it: its plane slots, the push view and the blocks of the decoder FIFO come
from the bytes (R217, R251, R349). -/
def thawLaid (y z : Tile) (m : Mem) : Tile :=
  { y with
    tda := { y.tda with
      slots := cbMap none 16 fun k => takePlane m (z.tda.slots.get none k) k
      view := cbMap none 16 fun k => takeFmt m (planeAt k + 3) }
    sync := { y.sync with
      dcf := (upto (min 16 (m.num 0x1A5FC8 4))).map fun i => ⟨m.read (ctxLen + 0x8000 + 256 * i) 256, ((z.sync.dcf[i]?).map (·.due)).getD 0⟩ } }

/-- A tile restored from a frozen context that a CSAVE wrote: what the manual's layout holds comes from the bytes, `y`; the rest is as
CSAVE found it in the tile `z` (R75, R76, R349). -/
def thaw (y z : Tile) (m : Mem) : Tile :=
  let pos (a b : Pos) : Pos := { b with pc := a.pc, arrived := a.arrived, stopped := a.stopped || b.stopped, fp := a.fp, fs := a.fs }
  let cut (es : List FifoEnt) (a n : Nat) : List FifoEnt :=
    relay (fun e => e.bytes.length) (fun e bs => { e with bytes := bs }) es (m.read a n)
  { y with
    cyc := z.cyc, pend := [Eng.ctl, .vu, .tsq].foldl (takeRecords m) z.pend
    ctl := { y.ctl with divFree := z.ctl.divFree }
    pctl := pos y.pctl z.pctl, pvu := pos y.pvu z.pvu, ptda := pos y.ptda z.ptda, pxp := pos y.pxp z.pxp
    tda := { z.tda with
      calr := y.tda.calr, clmp := y.tda.clmp, ovf := y.tda.ovf, mmap := y.tda.mmap, mfirst := y.tda.mfirst
      slots := y.tda.slots, view := y.tda.view
      ofa := cut z.tda.ofa ctxLen 0x4000, ofb := cut z.tda.ofb (ctxLen + 0x4000) 0x4000 }
    tsq := { y.tsq with busy := z.tsq.busy, count := z.tsq.count }
    sync := { y.sync with
      decs := List.zipWith (fun (a : Dec) b => { b with next := a.next }) y.sync.decs z.sync.decs
      decBase := z.sync.decBase, semSat := z.sync.semSat
      fqs := List.zipWith (fun (a : Fel) b => { b with v := a.v }) y.sync.fqs z.sync.fqs
      fqr := List.zipWith (fun (a : Fel) b => { b with v := a.v }) y.sync.fqr z.sync.fqr
      fqa := List.zipWith (fun (a : Fel) b => { b with v := a.v }) y.sync.fqa z.sync.fqa }
    frames := { z.frames with tags := y.frames.tags }
    stop := { y.stop with haltAt := z.stop.haltAt, realign := z.stop.realign } }

/-- A tile restored from a context. One with FRZ is frozen with its report and its TPEND bit; the parts whose layout the manual
leaves open return as CSAVE found them, where their bytes are still the ones it wrote (R307, R349; log 26). -/
def State.restoreContext (s : State) (x : Tile) (m : Mem) : Tile :=
  let h := ctxHead m
  let y := restoreTile x m
  let y := { y with seat := { y.seat with phase := h.phase } }
  if h.frz then
    let w (o : Nat) : DWord := BitVec.ofNat 64 (cb m o 8)
    let y := { y with stop := { y.stop with
      frozen := true, tpend := true, report := some ⟨w 0xC48 &&& trpt0Bits, w 0xC50, w 0xC58, w 0xC60⟩ } }
    match s.pkg.saves.find? fun e => unlaid.all fun r => m.read r.1 r.2 == unlaidBytes e.1 r with
    | some (_, z) => thaw (thawLaid y z m) z m
    | none => thawLaid y State.tile0 m
  else y

end Sys2Proof.Machine
end

