-- ==== Sys2Proof/Machine/System.lean ====
section
/-! DEFINITION. The system instructions of the firmware core, how its blocking words end, the register writes and commands
that take effect at a landing, interrupts and the event latch (R294, R295, R301-R311, R319, R320). -/

namespace Sys2Proof.Machine

/-- A SYS word: on a tile's CTL it is an illegal instruction (R141, R286). -/
def sysWord (act : Nat → State → Act) : State → Out :=
  ctlWord (.cx Ring.none) fun s =>
    match s.cur with
    | .fwc d => act d s
    | _ => s.illegal

/-- `door refused`, with the refused operand (R297). -/
def refuse (v : DWord) : Act := .trap Cause.refused v

/-! ### MFSR, MTSR, ERET (R290, R303, R304) -/

/-- An MFSR of DBQ takes the oldest doorbell; its 64 bits land in 1 cycle. -/
def takeDoorbell (s : State) (d : Nat) (sd : SReg) : Act :=
  let r := s.readDbq d
  .go r.1 (Eff.of (putD 1 sd r.2))

def execMfsr (sd : SReg) (sr : BitVec 8) : State → Out :=
  sysWord fun d s =>
    if !regExists sr then s.illegal
    else if sr = 0x52#8 then takeDoorbell s d sd
    else .go s (Eff.of (putD 1 sd (s.sysRead d sr)))

/-- DBQ_READ: the read of DBQ as an event of die `d` (R327). -/
def execDbqRead (d : Nat) (sd : SReg) (s : State) : Out :=
  let r := s.readDbq d
  .next (r.1.modFwc d fun f => { f with pend := f.pend ++ pends f.cyc 0 .ctl 0 (putD 1 sd r.2) })

/-- MTSR reads its pair at issue; the write lands a cycle later (R303). -/
def execMtsr (sa : SReg) (sr : BitVec 8) : State → Out :=
  sysWord fun d s =>
    if !regExists sr then s.illegal
    else s.block d (.mtsr sr (s.ctl.rD sa) (s.cycle + 1))

/-- ERET: an illegal instruction outside an exception. -/
def execEret : State → Out :=
  sysWord fun d s =>
    let f := s.fwc d
    if !f.exc then s.illegal else .go (s.returnFrom d) ⟨[], 1, 1, some (f.epc.toNat, 9), 0⟩

/-! ### TLBI, TLBIA (R305, R319, R320) -/

/-- Remove entries from every TLU; the word blocks until no copy uses them. -/
def invalidate (s : State) (d : Nat) (hit : TluEnt → Bool) : Act :=
  let ids := (s.dies.flatMap fun (e : Nat × Die) => e.2.tlu.filter hit).map (·.id)
  let s' := { s with dies := s.dies.map fun (e : Nat × Die) => (e.1, { e.2 with tlu := e.2.tlu.filter fun x => !hit x }) }
  s'.block d (.tlbi ids)

def execTlbi (sa sb : SReg) : State → Out :=
  sysWord fun d s =>
    let va := s.ctl.rD sa
    let c := (s.ctl.rS sb).toNat % 256
    if 2 ^ 52 ≤ va.toNat then refuse va
    else invalidate s d fun e => e.ctx == c && decide (e.va ≤ va.toNat) && decide (va.toNat < e.va + e.size)

def execTlbia (sb : SReg) : State → Out :=
  sysWord fun d s => let c := (s.ctl.rS sb).toNat % 256; invalidate s d fun e => e.ctx == c

/-! ### WFE, SEV (R306) -/

def execWfe : State → Out :=
  sysWord fun d s =>
    if (s.fwc d).latch then .go (s.modFwc d fun f => { f with latch := false }) Eff.nil else s.block d .wfe

/-- Each latch named is set within 512 ticks. -/
def State.sendEvents (s : State) (ds : BitVec 8) : State :=
  (upto 8).foldl (fun s e =>
    if ds.getLsbD e then s.draw.modDie e fun x => { x with sevs := x.sevs ++ [s.ticks + Config.sevLag s.free] } else s) s

def execSev (sb : SReg) : State → Out :=
  sysWord fun _ s => .go (s.sendEvents ((s.ctl.rS sb).setWidth 8)) Eff.nil

/-- EVENT_LATCH_SET: an event arrives, or IPEND AND IMASK has become non-zero; a WFE that waits takes the latch. -/
def State.setLatch (s : State) (d : Nat) : State :=
  let now := s.irq d != 0#8
  s.modDie d fun x =>
    let f := x.fwc
    let set := f.latch || x.sevs.any (fun n => decide (n ≤ s.ticks)) || (now && !f.ipSeen)
    let f := { f with latch := set, ipSeen := now }
    { x with
      sevs := x.sevs.filter fun n => !decide (n ≤ s.ticks)
      fwc := if set && f.blk == some .wfe then { f with latch := false, blk := none, busy := max f.busy f.cyc } else f }

def execEventLatchSet (d : Nat) (s : State) : Out := .next (s.setLatch d)

/-- FWC_INTERRUPT: at an issue cycle with IE = 1, EXC = 0 and an unmasked source; of blocking words only a WFE ends (R294). -/
def State.interrupt (s : State) (d : Nat) : State :=
  let f := s.fwc d
  let waits := f.blk.isNone || f.blk == some .wfe
  if f.ie && !f.exc && s.irq d != 0#8 && waits then
    s.exception d Cause.interrupt ((s.irq d).setWidth 64) (if f.blk.isNone then State.fwcHead f else f.pc)
  else s

def execFwcInterrupt (d : Nat) (s : State) : Out := .next (s.interrupt d)

/-! ### CSAVE, CREST (R307) -/

/-- The partition that a tile's die belongs to. -/
def State.partOfDie (s : State) (d : Nat) : Option Nat :=
  (s.parts.find? fun e => e.2.v && e.2.dies.getLsbD d).map (·.1)

/-- No copy can still write scratchpads of an exchange phase: every copy of the phase has ended, and every XP is frozen,
halted or past its arrival word. -/
def State.quietPart (s : State) (p : Nat) : Bool :=
  !(s.copies.any fun c => c.part == p)
    && (upto (s.part p).tiles).all fun lt =>
      let x := s.tile ((s.part p).phys lt)
      x.stop.frozen || x.stop.halted || x.pxp.stopped || x.pxp.arrived

/-- CSAVE is accepted of a tile that is frozen in a compute phase, whatever its partition does, or in an exchange phase once no copy
can write its scratchpad; of a tile of a SAVING partition, or of an ABORTED or DONE one whose copies have ended; of a tile in no
partition (R307). -/
def State.saveOk (s : State) (t : Nat) : Bool :=
  match s.partOfDie (dieOf t) with
  | none => true
  | some p =>
    let x := s.tile t
    (x.stop.frozen && (x.seat.phase % 2 == 0 || s.quietPart p)) || match (s.part p).st with
    | .saving => true
    | .aborted | .done => !(s.copies.any fun c => c.part == p)
    | _ => false

/-- CREST is accepted: the tile is in no partition that runs (R307). -/
def State.restoreOk (s : State) (t : Nat) : Bool :=
  match s.partOfDie (dieOf t) with
  | none => true
  | some p => match (s.part p).st with
    | .armed | .open_ | .extended | .held | .boundary => false
    | _ => true

/-- A context's address is one the door takes. -/
def State.ctxAddrOk (s : State) (pa : DWord) (n : Nat) : Bool :=
  pa.toNat % 4096 == 0 && decide (pa.toNat < State.physTop) && s.physOk pa.toNat n

/-- What a tile's context says of its launch (R348). -/
def State.headOf (s : State) (t : Nat) (frz : Bool) (phase : Nat) : CtxHead :=
  let x := s.tile t
  let img := (s.part (x.seat.part.getD 0)).img
  ⟨frz, phase, x.seat.lt, img.dies, (img.digest.setWidth 64).toNat⟩

/-- A tile is frozen for the purpose of a context. -/
def Tile.isFrozen (x : Tile) : Bool := x.stop.frozen

/-- PHASE of a tile's context: the phase about to open, at the boundary of a SAVING partition; else, and of a frozen tile, the
present one (R348). -/
def State.savePhase (s : State) (t : Nat) : Nat :=
  let x := s.tile t
  match x.seat.part with
  | some p => if (s.part p).st = .saving && !x.isFrozen then x.seat.phase + 1 else x.seat.phase
  | none => x.seat.phase

/-- The memories that a context holds (R347, R349). -/
def savedSpaces (frz : Bool) : List EccSpace :=
  [EccSpace.reg, .scr, .ofl, .lat] ++ (if frz then [EccSpace.ofa, .ofb, .dcf, .slot] else [])

/-- The firmware core reads a tile's memories for a context: ECC corrects, or an uncorrectable word answers its address in its memory.
It is no engine's access and fires no injection (R310, R375). -/
def State.readTile (s : State) (t : Nat) : State × Option Nat :=
  (savedSpaces (s.tile t).isFrozen).foldl (fun (q : State × Option Nat) sp =>
    match q.2 with
    | some _ => q
    | none => q.1.correct t (6, 0) sp 0 0x100000) (s, none)

/-- CSAVE writes a context; through a port window it leaves the package (R307, R347, R371). -/
def State.saveContext (s : State) (t pa : Nat) : State :=
  let x := s.tile t
  let h := s.headOf t x.isFrozen (s.savePhase t)
  let s' := if (s.portOf pa).isSome then s else { s with
    mem := s.mem.blit pa (ctxSize h.frz) (x.context h s.free)
    hbm := s.hbm.filter fun m => !overlaps (32 * m.1) 32 pa (ctxSize h.frz) }
  if h.frz then { s'.draw with pkg := { s'.pkg with saves := (s.free, x) :: s'.pkg.saves } } else s'

/-- A block of physical bytes, at addresses from 0. -/
def State.physBlock (s : State) (pa n : Nat) : Mem :=
  if (s.portOf pa).isSome then cells 0 (s.physRead pa n) else Mem.slice s.mem pa n

/-- FRZ of the context at an address (R348). -/
def State.ctxFrozen (s : State) (pa : Nat) : Bool := bit (s.physNum (pa + 0x192004) 4) 0

/-- CREST loads one. -/
def State.loadContext (s : State) (t pa : Nat) : State :=
  s.draw.setTile t (s.restoreContext (s.tile t) (s.physBlock pa (ctxSize (s.ctxFrozen pa))))

/-- Tile cycles of a context of a size: 64 bytes a cycle. -/
def ctxCycles (frz : Bool) : Nat := ctxSize frz / 64

/-- A door that the tile's state closes is refused with the address pair as EVAL too: which operand EVAL holds then the manual does not
say (the model's choice; log 20). -/
def execCsave (sa sb : SReg) : State → Out :=
  sysWord fun d s =>
    let pa := s.ctl.rD sa
    let slot := (s.ctl.rS sb).toNat % 64
    let frz := (s.tile (64 * d + slot)).isFrozen
    if !s.ctxAddrOk pa (ctxSize frz) || !s.saveOk (64 * d + slot) then refuse pa
    else s.block d (.csave slot pa.toNat (s.cycle + ctxCycles frz))

/-- EVAL of a refused door is the address pair, as CSAVE's is (the model's choice; log 20). FLAGS is read at issue, and the word waits
where a link holds that read (R368; log 30). -/
def execCrest (sa sb : SReg) : State → Out :=
  sysWord fun d s =>
    let pa := s.ctl.rD sa
    let slot := (s.ctl.rS sb).toNat % 64
    let frz := s.ctxFrozen pa.toNat
    if !s.ctxAddrOk pa ctxLen || !s.restoreOk (64 * d + slot) then refuse pa
    else if s.addrHeld (Config.dieSite d) (pa.toNat + 0x192004) then .wait
    else if !s.ctxAddrOk pa (ctxSize frz) then refuse pa
    else s.block d (.crest slot pa.toNat (s.cycle + ctxCycles frz))

/-! ### TTRIM (R308, R359) -/

/-- A trim register of a die: its tile and its key there. -/
def trimOf (d idx : Nat) : Nat × Nat := (64 * d + bits idx 19 14, bits idx 13 0)

def execTtrimRd (sd sb : SReg) : State → Out :=
  sysWord fun d s => s.block d (.trimRd sd (s.ctl.rS sb).toNat (s.cycle + 16))
def execTtrimWr (sa sb : SReg) : State → Out :=
  sysWord fun d s => s.block d (.trimWr ((s.ctl.rS sa).setWidth 16) (s.ctl.rS sb).toNat (s.cycle + 16))

/-! ### FINJ (R309, R310) -/

/-- Words of a SPACE (R309). -/
def spaceWords (c : BitVec 3) : Nat :=
  match c.toNat with
  | 0 => 131072
  | 1 => 262144
  | 2 => 32768
  | 3 => 2048
  | _ => 65536

/-- The slot a descriptor arms. -/
def injOf (v : DWord) : Inj :=
  ⟨v.getLsbD 63, v.extractLsb' 61 2, v.extractLsb' 59 2, v.extractLsb' 56 3, v.extractLsb' 53 3, v.extractLsb' 47 6,
    v.extractLsb' 42 5, v.extractLsb' 0 20⟩

/-- A descriptor keeps its layout. -/
def injOk (v : DWord) : Bool :=
  let i := injOf v
  (v.extractLsb' 20 22) == 0#22 && i.trig != 3#2 && decide (i.eng.toNat ≤ 4) && decide (i.space.toNat ≤ 4)
    && (if i.mode = 3#2 then decide (i.waddr.toNat < 64) else decide (i.waddr.toNat < spaceWords i.space))

def execFinj (sa sb : SReg) : State → Out :=
  sysWord fun d s =>
    let v := s.ctl.rD sa
    if !injOk v then refuse v else s.block d (.finj v ((s.ctl.rS sb).toNat % 4) (s.cycle + 16))

/-! ### TCMD (R301, R302) -/

/-- Copies of a partition that have not left their buffers are discarded (R302). -/
def State.discardCopies (s : State) (p : Nat) : State :=
  { s with copies := s.copies.filter fun c => !(c.part == p && (c.st == .armed || c.st == .buffered)) }

/-- Change every tile of a partition. -/
def State.modTiles (s : State) (p : Nat) (f : Tile → Tile) : State :=
  (upto (s.part p).tiles).foldl (fun s lt => s.modTile ((s.part p).phys lt) f) s

/-- The lowest die of a partition runs its phase controller and writes its STATUS (R34, R338). -/
def State.lead (q : Part) : Nat := q.diesOf.headD 0

/-- An extended phase that ends has its one entry, with the ticks of the extension, which a hold interrupts (R35, R36). -/
def State.logExtension (s : State) (q : Part) : State :=
  let put (n : Nat) : State := s.log (State.lead q) 0x21 2 6 0 0 0 q.phase (BitVec.ofNat 64 (n - q.extStart))
  match q.st with
  | .extended => put s.time
  | .held => if q.heldFrom = .extended then put q.heldAt else s
  | _ => s

/-- Entry into ABORTED (R302): an extension ends, engines stop, waiting copies are discarded. -/
def State.abortPart (s : State) (p : Nat) : State :=
  let s := ((s.logExtension (s.part p)).discardCopies p).modTiles p fun x => { x with seat := { x.seat with run := false } }
  s.modPart p fun q => { q with st := .aborted, since := s.ticks }

/-- The partition of a tile is HELD. -/
def State.tileHeld (s : State) (t : Nat) : Option Nat :=
  match (s.tile t).seat.part with
  | some p => if (s.part p).st = .held then some p else none
  | none => none

/-- RESUME is accepted (R301). -/
def State.resumeOk (s : State) (t : Nat) : Bool :=
  let x := s.tile t
  x.stop.frozen && (s.tileHeld t).isSome && match x.stop.report with
    | some r => r.w0.getLsbD 20
    | none => false

/-- A tile resumes under R75: its report and TPEND clear. -/
def State.resumeTile (s : State) (t : Nat) : State :=
  let s := s.modTile t fun x => { x with stop := { x.stop with frozen := false, report := none, tpend := false } }
  match s.tileHeld t with
  | none => s
  | some p =>
    let q := s.part p
    if (upto q.tiles).any fun lt => (s.tile (q.phys lt)).stop.frozen then s
    else s.modPart p fun q => { q with
      st := q.heldFrom, since := s.ticks
      deadline := q.deadline + (s.time - q.heldAt)
      extStart := if q.heldFrom = .extended then q.extStart + (s.time - q.heldAt) else q.extStart }

/-- The blocking word ends: the core issues on. -/
def State.unblock (s : State) (d : Nat) : State := s.modFwc d fun f => { f with blk := none, busy := max f.busy f.cyc }

/-- The blocking word's door is refused: an exception at that word. -/
def State.refuseBlk (s : State) (d : Nat) (v : DWord) : State := s.exception d Cause.refused v (s.fwc d).blkAt

/-- An MTSR of TCMD lands: RESUME waits two cycles more, ABORT acts at once, any other command is refused (R301). -/
def State.landTcmd (s : State) (d : Nat) (v : DWord) : State :=
  let f := s.fwc d
  let wait (n : Nat) : State := s.modFwc d fun f => { f with blk := some (.tcmd v n) }
  if v.setWidth 3 = 1#3 then (if s.resumeOk (s.tileOf d) then wait (f.cyc + 2) else s.refuseBlk d v)
  else if v.setWidth 3 = 2#3 then (if (s.tileHeld (s.tileOf d)).isSome then wait f.cyc else s.refuseBlk d v)
  else s.refuseBlk d v

/-! ### Register writes that land (R303) -/

/-- A write of a register by die `d`: done, or refused at the MTSR that waits for it. -/
def State.landWrite (s : State) (d : Nat) (sr : BitVec 8) (v : DWord) : State :=
  let waiting := match (s.fwc d).blk with
    | some (.mtsr _ _ _) => true
    | _ => false
  match s.sysWrite d sr v with
  | some s' => if waiting then s'.unblock d else s'
  | none => if waiting then s.refuseBlk d v else s

def execDbgctlWrite (d : Nat) (v : BitVec 64) (s : State) : Out := .next (s.landWrite d 0x0F v)
def execMmapxWrite (d : Nat) (v : BitVec 64) (s : State) : Out := .next (s.landWrite d 0x10 v)
def execCtxeWrite (d : Nat) (v : BitVec 64) (s : State) : Out := .next (s.landWrite d 0x41 v)
/-- `sr` names PCFG, PRGN or PREC; another register is left alone. -/
def execPartitionConfigWrite (d : Nat) (sr : BitVec 8) (v : BitVec 64) (s : State) : Out :=
  .next (if sr = 0x45#8 ∨ sr = 0x46#8 ∨ sr = 0x47#8 then s.landWrite d sr v else s)
def execDptOverlayWrite (d : Nat) (v : BitVec 64) (s : State) : Out := .next (s.landWrite d 0x61 v)
def execSynccfgWrite (d : Nat) (v : BitVec 64) (s : State) : Out := .next (s.landWrite d 0x69 v)
def execPwrcapWrite (d : Nat) (v : BitVec 64) (s : State) : Out := .next (s.landWrite d 0x67 v)
def execDctlDrain (d : Nat) (v : BitVec 64) (s : State) : Out := .next (s.landWrite d 0x6C v)
def execLctlReq (d : Nat) (v : BitVec 64) (s : State) : Out := .next (s.landWrite d 0x71 v)
def execElctlConsume (d : Nat) (v : BitVec 64) (s : State) : Out := .next (s.landWrite d 0x80 v)
/-- ELCTL_CLEAR_LOST: CLRL alone, RD as it stands. -/
def execElctlClearLost (d : Nat) (s : State) : Out :=
  .next (s.landWrite d 0x80 (BitVec.ofNat 64 (2 ^ 32 + (s.die d).logRd)))
def execDresetWrite (d : Nat) (v : BitVec 64) (s : State) : Out := .next (s.landWrite d 0x89 v)

/-! ### The end of the other blocking words -/

/-- The core's blocking word ends when its time has come and what it waits for holds (R305-R309). A context, or a tile's memory,
that ECC cannot correct is an exception at CREST, or at CSAVE (R375); a link may hold either's accesses (R368; log 30). Aperture accesses, MTSR and TCMD have events of their own. -/
def State.endBlock (s : State) (d : Nat) : State :=
  let f := s.fwc d
  match f.blk with
  | some (.tlbi ids) =>
    if s.copies.any fun c => c.pages.any fun p => ids.contains p.2.2.2.2 then s else s.unblock d
  | some (.csave slot pa n) =>
    if f.cyc < n || s.areaHeld d pa (ctxSize (s.tile (64 * d + slot)).isFrozen) then s
    else match s.readTile (64 * d + slot) with
    | (s, some e) => s.exception d Cause.ecc (BitVec.ofNat 64 e) f.blkAt
    | (s, none) => (s.saveContext (64 * d + slot) pa).unblock d
  | some (.crest slot pa n) =>
    if f.cyc < n || s.areaHeld d pa (ctxSize (s.ctxFrozen pa)) then s
    else match s.touchHbm pa (ctxSize (s.ctxFrozen pa)) with
    | (s, some e) => s.exception d Cause.ecc (BitVec.ofNat 64 e) f.blkAt
    | (s, none) => (s.loadContext (64 * d + slot) pa).unblock d
  | some (.trimRd rd idx n) =>
    if f.cyc < n then s
    else
      let k := trimOf d idx
      let v : Word := (s.trim k.1 k.2).setWidth 32
      (s.modFwc d fun f => (putS 0 rd v).foldl (fun f l => f.land l.2) f).unblock d
  | some (.trimWr v idx n) =>
    let k := trimOf d idx
    let busy := match (s.tile k.1).tda.direct with
      | some ⟨_, .flag, _⟩ => false
      | some _ => true
      | none => false
    if f.cyc < n || busy then s
    else (s.setTrim k.1 k.2 (v &&& 0xBFFF)).unblock d
  | some (.finj v slot n) =>
    if f.cyc < n then s
    else
      let i := injOf v
      let s := (s.modDie d fun x => { x with inj := x.inj.put slot i }).unblock d
      if i.armed && i.mode != 3#2 && i.trig == 0#2 then s.fire d slot i else s
  | _ => s

/-- The state a meaning answers; a stop leaves the state. -/
def took (o : Out) (s : State) : State :=
  match o with
  | .next s' => s'
  | _ => s

/-- A blocking word other than one of TCMD ends, if its time has come. -/
def State.endOther (s : State) (d : Nat) : State :=
  match (s.fwc d).blk with
  | some (.mtsr sr v n) => if (s.fwc d).cyc < n || sr = 0x0A#8 then s else s.landWrite d sr v
  | some (.tcmd _ _) => s
  | some (.apLoad ..) | some (.apStore ..) | some (.apAtomic ..) => took (execApertureAccessPerformed d s) s
  | some _ => s.endBlock d
  | none => s

/-! ### TCMD RESUME, which an ABORT of its tick overrides (R301) -/

/-- The instruction at a firmware core's pc: tag 00 only (R287). -/
def Fwc.instr (f : Fwc) : Instr :=
  let w := State.fwcText f f.pc
  if w == eotWord then .endOfText
  else if tagOf w != 0#2 then .illegalInstruction
  else if decide (f.codeEnd < f.pc + headLength w) then .endOfText
  else match decodeText w (State.fwcText f (f.pc + 1)) 0 with
  | .ok i => i
  | .error _ => .illegalInstruction

namespace State

/-- The core issues from its patch region; the ROM's own code is the firmware behaviour that the events model (R289). -/
def fwcIssues (s : State) (d : Nat) : Bool :=
  let f := s.fwc d
  f.blk.isNone && decide (f.busy ≤ f.cyc) && decide (24576 ≤ f.pc)

/-- An unmasked source interrupts a core that could issue. -/
def fwcInterrupt (s : State) (d : Nat) : State := if (s.fwc d).busy ≤ (s.fwc d).cyc then s.interrupt d else s

/-- Tile cycles that a die still begins in this tick. -/
def cyclesLeft (s : State) (d : Nat) : Nat :=
  let n := (s.agenda.filter (· == .die d)).length
  let x := s.die d
  if n ≤ x.phaseLeft then 0 else (n - x.phaseLeft - 1) / (x.cur.toNat + 1) + 1

/-- The core's next cycle issues an MTSR of TCMD ABORT. -/
def issuesAbort (s : State) (d : Nat) : Bool :=
  let s := (((s.landFwc d).setLatch d).endOther d).fwcInterrupt d
  s.fwcIssues d && match (s.fwc d).instr with
    | .mtsr sa sr => sr == 0x0A#8 && ((s.fwc d).ctl.rD sa).setWidth 3 == 2#3
    | _ => false

/-- A die whose cycles are still to come in this tick lands an ABORT for the partition of a tile. -/
def abortComing (s : State) (t : Nat) : Bool :=
  (upto 8).any fun a =>
    let f := s.fwc a
    let k := s.cyclesLeft a
    decide (0 < k) && !s.pkg.dreset.getLsbD a && s.tileHeld (s.tileOf a) == (s.tile t).seat.part
      && match f.blk with
        | some (.mtsr sr v n) => sr == 0x0A#8 && v.setWidth 3 == 2#3 && decide (n < f.cyc + k)
        | _ => decide (2 ≤ k) && s.issuesAbort a

end State

/-- TCMD_RESUME: three cycles after its MTSR issued the tile resumes, or the command is refused; an ABORT of the same tick
wins. -/
def execTcmdResume (d : Nat) (s : State) : Out :=
  .next <| match (s.fwc d).blk with
  | some (.tcmd v n) =>
    if v.setWidth 3 ≠ 1#3 || (s.fwc d).cyc < n then s
    else if s.resumeOk (s.tileOf d) && !s.abortComing (s.tileOf d) then (s.resumeTile (s.tileOf d)).unblock d
    else s.refuseBlk d v
  | _ => s

end Sys2Proof.Machine
end

