-- ==== Sys2Proof/Machine/Transfer.lean ====
section
/-! DEFINITION. Targets, transfers, calls and loops (R44, R56-R58, R166-R173). -/

namespace Sys2Proof.Machine

/-- The word address of the head, as a target register holds it. -/
def State.here (s : State) : BitVec 15 := BitVec.ofNat 15 s.pc

/-- The decision FIFO has no room (R44). The firmware core has none (R287). -/
def State.decisionsFull (s : State) : Bool :=
  match s.cur with
  | .eng t _ =>
    let x := s.tile t
    decide ((x.stop.wcfg.extractLsb' 11 5).toNat + 1 ≤ x.sync.decs.length)
  | _ => false

/-- Cycles until the CTL's next word after a taken transfer through a target (R170). -/
def Target.delay (t : Target) (cycle : Nat) : Nat :=
  match t.buf with
  | .filled => 1
  | .filling full => max 1 (full - cycle)
  | .empty => 9

/-- One refetch is counted for a taken transfer through an empty buffer (R57, R170, R380). -/
def State.countRefetch (s : State) (t : Target) : State :=
  match s.cur, t.buf with
  | .eng k _, .empty => s.modTile k fun x => x.bump 0x08 1
  | _, _ => s

/-- A transfer's decision: next address, cycles to the next word, what lands. -/
def goTo (s : State) (next delay : Nat) (lands : List (Nat × Land)) : Act := .go s ⟨lands, 1, 1, some (next, delay), 0⟩

/-- A transfer through a target (R57, R167, R168): `unprepared target` when it is not prepared. -/
def goThrough (s : State) (t : TReg) (lands : List (Nat × Land)) : Act :=
  let x := s.ctl.rT t
  if x.prpd then goTo (s.countRefetch x) x.addr.toNat (x.delay s.cycle) lands
  else .trap Cause.unprepared (t.setWidth 64)

def Form.transfer (h : Ring) : Form := .cx h

/-- PREP and PREPS (R166): the target lands after 1 cycle, its buffer is filled 8 cycles after issue (R170). -/
def prepare (s : State) (t : TReg) (a : BitVec 15) : Act := .go s (Eff.of [(1, .target t a (s.cycle + 8))])

def execPrep (h : Ring) (t : TReg) (off : BitVec 16) : State → Out :=
  ctlWord (.cx h) fun s => prepare s t (s.here + off.setWidth 15)
def execPreps (h : Ring) (t : TReg) (ra : SReg) : State → Out :=
  ctlWord (.cx h) fun s => prepare s t ((s.ctl.rS ra).extractLsb' 0 15)

/-- XFER and XFERN (R167): an untaken transfer reads nothing of its target. -/
def transfer (h : Ring) (t : TReg) (p : PReg) (sense : Bool) : State → Out :=
  ctlWord (.transfer h) fun s =>
    if s.decisionsFull then .wait
    else if s.ctl.rP p == sense then goThrough s t []
    else goTo s (s.pc + 1) 1 []

def execXfer (h : Ring) (t : TReg) (p : PReg) : State → Out := transfer h t p true
def execXfern (h : Ring) (t : TReg) (p : PReg) : State → Out := transfer h t p false

/-- CALL (R168): the target is read before t7 is written. -/
def execCall (h : Ring) (t : TReg) : State → Out :=
  ctlWord (.transfer h) fun s =>
    if s.decisionsFull then .wait
    else goThrough s t [(1, .target 7 (s.here + 1) (s.cycle + 8))]

/-- Empty a buffer (R57, R169). -/
def Target.emptied (t : Target) : Target := { t with buf := .empty }

def execCinv (h : Ring) (t : TReg) : State → Out :=
  ctlWord (.cx h) fun s => .go (s.modCtl fun c => c.wT t (c.rT t).emptied) Eff.nil
def execCinva (h : Ring) : State → Out :=
  ctlWord (.cx h) fun s =>
    .go (s.modCtl fun c => { c with t := c.t.map fun e => (e.1, e.2.emptied) }) Eff.nil

/-- LPSET (R171); a spatial level is an illegal instruction (R51). -/
def setLoop (s : State) (k : BitVec 3) (count : BitVec 16) : Act :=
  if (s.ctl.rL k).spatial then s.illegal
  else .go s (Eff.of [(1, .level k ⟨count, 0, s.here + 1, false⟩)])

def execLpset (h : Ring) (lv : BitVec 3) (count : BitVec 16) : State → Out :=
  ctlWord (.cx h) fun s => setLoop s lv count
def execLpsetReg (h : Ring) (lv : BitVec 3) (ra : SReg) : State → Out :=
  ctlWord (.cx h) fun s => setLoop s lv ((s.ctl.rS ra).extractLsb' 0 16)

/-- LPEND (R172): a taken one occupies 2 cycles (R158). -/
def execLpend (h : Ring) (lv : BitVec 3) : State → Out :=
  ctlWord (.transfer h) fun s =>
    let l := s.ctl.rL lv
    if s.decisionsFull then .wait
    else if l.spatial then s.illegal
    else if l.index.toNat + 1 < l.count.toNat then
      goTo s l.start.toNat 2 [(1, .level lv { l with index := l.index + 1 })]
    else goTo s (s.pc + 1) 1 []

def execLpidx (h : Ring) (rd : SReg) (lv : BitVec 3) : State → Out :=
  ctlPure (.cx h) fun c => putS 1 rd ((c.rL lv).index.setWidth 32)

end Sys2Proof.Machine
end

