-- ==== Sys2Proof/Machine/Partition.lean ====
section
/-! DEFINITION. The phase controller of a partition: start, completion, boundaries, deadlines, slips, completion of the
timetable, pre-emption (R27-R41, R114, R126, R217, R257, R269, R300-R302, R338, R345, R346, R363, R369). -/

namespace Sys2Proof.Machine

/-! ### The front end's accesses through a context (R332, R338) -/

namespace State

/-- The end of an access of the front end: the state and what it answers; or the state and the cause that fails it, with no cause
where a link holds it (R368). -/
abbrev Front (α : Type) := Except (State × Option (BitVec 8)) (State × α)

/-- An access goes on from what another answers. -/
def frontThen {α β : Type} (r : Front α) (k : State → α → Front β) : Front β :=
  match r with
  | .ok (s, a) => k s a
  | .error e => .error e

/-- An access that fails. -/
def refuseFront {α : Type} (s : State) (cause : BitVec 8) : Front α := .error (s, some cause)

/-- The physical address of a byte through a context, with A and D set; whether its page is SC (R317). The walk is made at die `d`,
where it counts (R380): a link may hold it, and an entry may be uncorrectable (R368, R375). R317 has a leaf's SC agree with the region
table of the partition that translates; no partition makes a front end's translation, and whether the check applies to it the
manual does not say: here it does not (the model's choice; log 37). -/
def frontTranslate (s : State) (d c va : Nat) (wr : Bool) : Front (Nat × Bool) :=
  if 2 ^ 52 ≤ va then s.refuseFront Cause.translation
  else if (s.walkWords c va).any (s.addrHeld (Config.dieSite d)) then .error (s, none)
  else match (s.bumpDie d 0x24 1).touchWords (s.walkWords c va) with
  | (s, some _) => s.refuseFront Cause.ecc
  | (s, none) =>
    match s.walk c va with
    | none => s.refuseFront Cause.translation
    | some l =>
      if !bit l.bits (if wr then 3 else 2) then s.refuseFront Cause.translation
      else
        let new := l.bits % 256 ||| 0x20 ||| (if wr then 0x40 else 0)
        let s := if new = l.bits % 256 then s else s.physWrite l.at_ [BitVec.ofNat 8 new]
        .ok (s, l.pa + va % l.size, bit l.bits 4)

/-- An access by die `d` to `n` bytes at a physical address: a link may hold it, a remote package may turn it away, and the host may
refuse it (R368, R371, R374; log 24). R333 names no cause for a remote package's refusal: it is a copy's (the model's choice; log 24).
It answers the address that the request carries, tagged with the PASID (R313). -/
def frontReach (s : State) (d c pa n : Nat) : Front Nat :=
  if s.areaHeld d pa n then .error (s, none)
  else if s.remoteRefuses pa then s.refuseFront Cause.unavailable
  else if pa < hostBase then .ok (s, pa)
  else if Config.hostAborts s.free then s.draw.refuseFront Cause.translation
  else
    let new := (hostPages (s.ctx c).pasid pa n).filter fun k => !s.pkg.ats.contains k
    .ok ({ s.draw with pkg := { s.pkg with ats := (new ++ s.pkg.ats).take 1024 } }, s.tagged c pa)

/-- Read bytes of one page through a context (R375). -/
def frontPiece (s : State) (d c va n : Nat) : Front (List Byte) :=
  match s.frontTranslate d c va false with
  | .error e => .error e
  | .ok (s, pa, _) =>
    match s.frontReach d c pa n with
    | .error e => .error e
    | .ok (s, a) =>
      match s.touchHbm a n with
      | (s, some _) => s.refuseFront Cause.ecc
      | (s, none) => .ok (s, s.physRead a n)

/-- Read bytes through a context. -/
def frontRead (s : State) (d c va n : Nat) : Front (List Byte) :=
  (cut64 va n).foldl (fun r p =>
    match r with
    | .error e => .error e
    | .ok (s, bs) => (s.frontPiece d c p.1 p.2).map fun q => (q.1, bs ++ q.2)) (.ok (s, []))

/-- Write bytes through a context; an SC word must lie on an SC page. -/
def frontWrite (s : State) (d c va : Nat) (sc : Bool) (bs : List Byte) : Front Unit :=
  match s.frontTranslate d c va true with
  | .error e => .error e
  | .ok (s, pa, isSc) =>
    if sc && !isSc then s.refuseFront Cause.translation
    else (s.frontReach d c pa bs.length).map fun q => (q.1.physWrite q.2 bs, ())

/-- The live context slot with a PASID (R314). -/
def ctxOf (s : State) (pasid : BitVec 20) : Option Nat :=
  (s.ctxs.find? fun e => e.2.v && e.2.pasid == pasid).map (·.1)

/-! ### STATUS and requests (R338, R344, R345) -/

/-- The word of R338. -/
def statusWord (out : Nat) (cause : BitVec 8) (phase : Nat) : DWord :=
  BitVec.ofNat 8 out ++ cause ++ BitVec.ofNat 48 phase

/-- The STATUS word is stored through the live context of the PASID; where it cannot be, the die logs the cause and the
address (R338). A store that a link holds waits, and that of a die in reset, which makes no access (R327, R368). -/
def storeStatus (s : State) (x : Status) : State :=
  let fail (s : State) (cause : BitVec 8) : State := s.log x.die cause 1 6 0 0 0 x.phase (BitVec.ofNat 64 x.va)
  if s.pkg.dreset.getLsbD x.die then { s with pkg := { s.pkg with owed := s.pkg.owed ++ [x] } }
  else match s.ctxOf x.pasid with
  | none => fail s Cause.translation
  | some c =>
    match s.frontWrite x.die c x.va true (leBytes 8 x.word.toNat) with
    | .ok (s, _) => s
    | .error (s, some cause) => fail s cause
    | .error (s, none) => { s with pkg := { s.pkg with owed := s.pkg.owed ++ [x] } }

/-- Stores of STATUS that wait are tried again. -/
def retryStatus (s : State) : State := s.pkg.owed.foldl storeStatus { s with pkg := { s.pkg with owed := [] } }

/-- STATUS is written once for a timetable. -/
def writeStatus (s : State) (p : Nat) (w : DWord) : State :=
  let q := s.part p
  let l := q.launch
  if !l.owed then s
  else (s.modPart p fun q => { q with launch := { q.launch with owed := false } }).storeStatus
    ⟨lead q, l.pasid, l.queue, l.status, q.phase, w⟩

/-- RES, then ACK := SEQ, of a mailbox entry (R344). -/
def answer (s : State) (e : Nat) (res : Nat) : State :=
  let a := s.pkg.mbxpa.toNat * 4096 + 256 * e
  let seq := s.physNum a 4
  (s.physWrite (a + 12) (leBytes 4 res)).physWrite (a + 8) (leBytes 4 seq)

/-- The pending PREEMPT requests end: their answers are for the leader to write (R344, R345). -/
def endPreempt (s : State) (p res : Nat) : State :=
  { s with pkg := { s.pkg with replies := s.pkg.replies ++ (s.part p).preempt.map fun e => (e, res) } }.modPart p fun q =>
    { q with preempt := [] }

/-- The leader writes the answers that are due. -/
def writeReplies (s : State) : State :=
  s.pkg.replies.foldl (fun s e => s.answer e.1 e.2) { s with pkg := { s.pkg with replies := [] } }

/-- The physical tiles of a partition, and those of one of its dies. -/
def tilesOf (s : State) (p : Nat) : List Nat := (upto (s.part p).tiles).map (s.part p).phys
def dieTiles (s : State) (p d : Nat) : List Nat := (s.tilesOf p).filter fun t => dieOf t == d

/-- The cause of the earliest report, ties to the lowest physical tile (R302). -/
def earliest (s : State) (p : Nat) : BitVec 8 :=
  match (s.part p).cause with
  | some c => c
  | none =>
    let rs := (sortBy id (s.tilesOf p)).filterMap fun t => (s.tile t).stop.report
    match rs with
    | [] => 0
    | r :: rest => ((rest.foldl (fun b x => if x.w1.toNat < b.w1.toNat then x else b) r).w0 >>> 56).setWidth 8

/-- ABORTED: the engines stop, waiting copies go, STATUS tells the cause, a pending PREEMPT is overtaken (R302). -/
def abort (s : State) (p : Nat) : State :=
  let s := (s.abortPart p).modPart p fun q => { q with opening := [], next := none, saveLeft := [] }
  (s.writeStatus p (statusWord 2 (s.earliest p) (s.part p).phase)).endPreempt p 1

/-! ### Phase facts (R32-R35, R156) -/

/-- A phase's deadline and class: the last entry whose FIRST is at most the phase. -/
def phaseEntry (img : Image) (phase : Nat) : Nat × Nat :=
  match (img.phases.filter fun e => decide (e.1 ≤ phase)).getLast? with
  | some e => e.2
  | none => (0, 0)

/-- The boundary lead Lb (R34, R356). -/
def boundaryLead (s : State) (q : Part) : Nat :=
  8 + maxOf 0 (q.diesOf.map fun d => s.pairLat (lead q) d + s.pairSkew (lead q) d)

/-- A tile has arrived (R32). Its words' signals are sent as they count (R31, R46): a ring signal that finds its FIFO full keeps the tile
from arriving, since a context has no place for it and a resumed run loses no token (R15, R348, R350; log 68). -/
def arrived (x : Tile) : Bool :=
  x.stop.halted
    || (x.pctl.arrived && x.pvu.arrived && x.ptda.arrived && x.pxp.arrived && x.pend.isEmpty && x.sigsFit
      && (x.seat.phase % 2 == 1
        || (Tda.quiet x.tda && x.seqIdle && x.tda.ofa.isEmpty && x.tda.ofb.isEmpty && x.sync.dcf.isEmpty)))

/-- Every counter that an XCNT set stands at zero (R37). -/
def satisfied (x : Tile) : Bool := x.xp.active.all fun e => !e.2.live || e.2.count == 0

/-- The phase open on the partition is complete (R33). -/
def complete (s : State) (p : Nat) : Bool :=
  let q := s.part p
  q.opening.isEmpty && ((s.tilesOf p).all fun t => arrived (s.tile t))
    && (q.phase % 2 == 0 || (((s.tilesOf p).all fun t => satisfied (s.tile t)) && !(s.copies.any fun c => c.part == p)))

/-- A tile has arrived in its partition's phase: on a die that has still to open the phase, a halted one alone (R32, R34). -/
def hasArrived (s : State) (q : Part) (t : Nat) : Bool :=
  let x := s.tile t
  x.stop.halted || (!q.opening.contains (dieOf t) && arrived x)

/-- A controller takes one transition in a tick (R35). -/
def free_ (s : State) (q : Part) : Bool := q.since != s.ticks

/-! ### Completion (R34, R35, R39, R114) -/

/-- The tags of a tile as its exchange phase completes (R114). -/
def newTags (x : Tile) : Tile :=
  let step := x.seat.phase / 2 % 65536
  { x with frames := { x.frames with
      tags := x.frames.srcs.foldl (fun m e => match e.2 with
        | .none => m
        | .one src => m.set 0#32 e.1 (BitVec.ofNat 32 (step * 65536 + 0x4000 + src))
        | .many => m.set 0#32 e.1 (BitVec.ofNat 32 (step * 65536 + 0x8000))) x.frames.tags
      srcs := [] } }

/-- A reconfiguration holds the opening of exchange phases (R369). -/
def linkHold (s : State) : Bool :=
  s.links.any fun e => e.2.req && (e.2.st == .draining || e.2.st == .paused || e.2.st == .training)

/-- BOUNDARY: new tags, records as they stand are what the next phase opens with, the next origin is fixed; where a reconfiguration
holds it, Lb is (R34, R257, R356, R369). -/
def toBoundary (s : State) (p : Nat) : State :=
  let q := s.part p
  let s := s.logExtension q
  let s := if q.phase % 2 = 1 then (s.tilesOf p).foldl (fun s t => s.modTile t newTags) s else s
  let held := q.phase % 2 == 0 && s.linkHold
  s.modPart p fun q => { q with
    st := .boundary, since := s.ticks, straggling := [], recOld := [], opening := q.bind
    next := if held then none else some (s.time + s.boundaryLead q), lead := s.boundaryLead q }

/-- A tile that froze in the tick of a transition takes the partition to HELD in the next one (R35). -/
def lateHold (s : State) (p : Nat) : State :=
  if (s.tilesOf p).any fun t => (s.tile t).stop.frozen then s.holdPart p else s

/-- PHASE_COMPLETE. A phase complete in OPEN with every tile halted is PARTITION_DONE's. -/
def phaseComplete (s : State) (p : Nat) : State :=
  let q := s.part p
  let halted := (s.tilesOf p).all fun t => (s.tile t).stop.halted
  if !(q.st == .open_ || q.st == .extended) || !s.free_ q || !s.complete p || (q.st == .open_ && halted) then s
  else s.toBoundary p

/-- PARTITION_DONE: the counters report up the tree (R39). -/
def partitionDone (s : State) (p : Nat) : State :=
  let q := s.part p
  if q.st ≠ .open_ || !s.free_ q || !s.complete p || !((s.tilesOf p).all fun t => (s.tile t).stop.halted) then s
  else
    let s := if q.phase % 2 = 1 then (s.tilesOf p).foldl (fun s t => s.modTile t newTags) s else s
    let s := s.modTiles p fun x => { x with seat := { x.seat with run := false } }
    let s := s.modPart p fun q => { q with st := .done, since := s.ticks }
    (s.writeStatus p (statusWord 1 0 q.phase)).endPreempt p 1

/-! ### Opening (R27, R28, R34, R37, R41, R126) -/

/-- The effects of a boundary on a tile whose phase `phase` opens: engines are released, line records, checked bits, prefetch
buffers and plane slots are cleared, counters installed, marks and counts cleared. What the array's commands wrote has landed. -/
def enterPhase (x : Tile) (phase : Nat) : Tile :=
  let rel (p : Pos) : Pos := { p with arrived := false }
  { x with
    seat := { x.seat with phase := phase }
    pctl := rel x.pctl, pvu := rel x.pvu, ptda := rel x.ptda, pxp := rel x.pxp
    ctl := { x.ctl with t := x.ctl.t.map fun e => (e.1, e.2.emptied) }
    tda := { x.tda with slots := [], view := [], seen := [], just := [], justAt := 0 }
    store := { x.store with ecc := x.store.ecc.filter fun m => m.sp != .slot }
    frames := { x.frames with lines := [], checked := [] }
    xp := if phase % 2 = 1 then { count := 0, sealed := false, active := x.xp.staged, staged := [] }
      else { x.xp with count := 0, sealed := false }
    sync := { x.sync with semSat := [] }
    stop := { x.stop with realign := false } }

/-- The opening of the next phase on a tile. -/
def openTile (x : Tile) : Tile := enterPhase x (x.seat.phase + 1)

/-- The first opening of a launch on a tile: its engines start in the phase of the launch, which on a resumed launch its context
holds; engines that its context holds behind their arrival words are released (R27, R34, R350). -/
def startTile (x : Tile) : Tile := enterPhase { x with seat := { x.seat with run := true } } x.seat.phase

/-- At a boundary, one entry for each semaphore that saturated (R50). -/
def logSaturated (s : State) (t : Nat) : State :=
  ((s.tile t).sync.semSat.foldl (fun s e =>
    s.log (dieOf t) 0x22 2 7 (slotOf t) 0 0 (s.tile t).seat.phase (BitVec.ofNat 64 e.1)) s).modTile t fun x =>
      { x with sync := { x.sync with semSat := [] } }

/-- A pending divisor is applied, unless a reconfiguration at the die holds it (R363, R369). -/
def applyDivisor (s : State) (d : Nat) : State :=
  let site := Config.dieSite d
  let held := s.links.any fun e => decide (e.1 < 12) && ((linkSites e.1).1 == site || (linkSites e.1).2 == site)
    && (e.2.st == .draining || e.2.st == .paused || (e.2.st == .training && e.2.req))
  if held then s else s.modDie d fun x => { x with cur := x.div, divAt := none }

/-- Every tile of the die executed REALIGN in the exchange phase that closes, or is halted (R41). -/
def realigns (s : State) (ts : List Nat) : Bool :=
  ts.all fun t => let x := s.tile t; x.seat.phase % 2 == 1 && (x.stop.realign || x.stop.halted)

/-- Armed copies of a die's tiles enter their buffers at the origin (R30, R38). -/
def enterBuffers (s : State) (p d origin : Nat) : State :=
  { s with copies := s.copies.map fun c =>
      if c.part == p && dieOf c.tile == d && c.st == .armed then { c with st := .buffered, due := origin + c.time } else c }

/-- A tile cycle of the die begins in this tick. -/
def cycles (s : State) (d : Nat) : Bool := (s.die d).phaseLeft == 0

/-- The origin a die waits for: at a boundary it is sent once the boundary's first tick has passed (R34); at a launch the
controller's start of tick S comes first, whose check of quiescence no die may run ahead of, though the counter of a die with
positive drift reaches S before (R27, R28; log 55). -/
def originFor (s : State) (q : Part) : Option Nat :=
  match q.st with
  | .boundary => if s.ticks < q.since + 2 then none else q.next
  | .open_ | .extended | .held => some q.origin
  | _ => none

/-- The die's part of PHASE_OPEN: at its first tile cycle whose count is at least the origin, or, where it realigns, whose
package time is, the die opens the next phase; at a launch its engines start instead (R27, R34, R41). -/
def dieOpen (s : State) (p d : Nat) : State :=
  let q := s.part p
  let ts := s.dieTiles p d
  match s.originFor q with
  | none => s
  | some o =>
    let launch := q.st != .boundary && ts.any fun t => !(s.tile t).seat.run
    let re := !launch && s.realigns ts
    if !q.opening.contains d || !s.cycles d || decide ((if re then s.time else (s.die d).cyc) < o) then s
    else
      let s := s.modPart p fun q => { q with opening := q.opening.filter (· != d) }
      if launch then ts.foldl (fun s t => s.modTile t startTile) s
      else
        let s := if re then s.modDie d fun x => { x with cyc := s.time } else s
        let s := ts.foldl (fun s t => (s.logSaturated t).modTile t openTile) s
        let s := s.applyDivisor d
        if (ts.map fun t => (s.tile t).seat.phase % 2) == [] || ts.any (fun t => (s.tile t).seat.phase % 2 == 0) then s
        else s.enterBuffers p d o

/-- The controller's part of PHASE_OPEN at tick O: OPEN, or HELD where a tile is frozen (R35, R300). -/
def controllerOpen (s : State) (p : Nat) : State :=
  let q := s.part p
  match q.st, q.next with
  | .boundary, some o =>
    if !s.free_ q || s.time < o then s
    else
      let frozen := (s.tilesOf p).any fun t => (s.tile t).stop.frozen
      s.modPart p fun q => { q with
        st := if frozen then .held else .open_, heldFrom := .open_, heldAt := o, phase := q.phase + 1, origin := o
        next := none, since := s.ticks, deadline := o + (phaseEntry q.img (q.phase + 1)).1, slimNow := q.slim.toNat }
  | _, _ => s

/-- Partitions whose exchange opening was held take their origins at the tick the last link is done, Lb being that of the phase's
completion (R356, R369). -/
def releaseHeld (s : State) : State :=
  if s.linkHold then s
  else { s with parts := s.parts.map fun (e : Nat × Part) =>
      if e.2.st == .boundary && e.2.next.isNone && e.2.phase % 2 == 0 then
        (e.1, { e.2 with next := some (s.time + e.2.lead) })
      else e }

/-! ### The start of a launch (R27, R28) -/

/-- Every engine of a tile is quiescent (R28). R28 names copies in the time-sorted buffer, and the manual says nothing of a copy still armed
as its partition reaches DONE out of a compute phase: it is kept, and makes the next launch slip (the model's choice; log 68). -/
def quiescent (s : State) (t : Nat) : Bool :=
  let x := s.tile t
  !x.stop.frozen && x.pend.isEmpty && Tda.quiet x.tda && x.tda.ofa.isEmpty && x.tda.ofb.isEmpty && x.sync.dcf.isEmpty
    && !(s.copies.any fun c => c.tile == t && (c.st == .armed || c.st == .buffered))

/-- LAUNCH_START: at tick S the partition opens its first phase, or slips (R27, R28, R35). -/
def launchStart (s : State) (p : Nat) : State :=
  let q := s.part p
  match q.st, q.next with
  | .armed, some o =>
    if !s.free_ q || s.time < o then s
    else if (s.tilesOf p).all s.quiescent then
      s.modPart p fun q => { q with
        st := .open_, since := s.ticks, origin := o, next := none, opening := q.bind
        deadline := o + (phaseEntry q.img q.phase).1, slimNow := q.slim.toNat }
    else (s.modPart p fun q => { q with cause := some Cause.launchSlip }).abort p
  | _, _ => s

/-! ### Deadlines, stragglers, slips (R35, R36, R40) -/

/-- DEADLINE_REACHED: tiles that have not arrived are straggling. -/
def deadlineReached (s : State) (p : Nat) : State :=
  let q := s.part p
  if q.st ≠ .open_ || !s.free_ q || s.time < q.deadline then s
  else
    let late := (upto q.tiles).filter fun lt => !s.hasArrived q (q.phys lt)
    s.modPart p fun q => { q with st := .extended, since := s.ticks, straggling := late, extStart := q.deadline }

/-- STRAGGLER_LIMIT: `straggler` on every tile still straggling, and the partition aborts with that cause, also where only a counter
or a copy keeps the phase open. -/
def stragglerLimit (s : State) (p : Nat) : State :=
  let q := s.part p
  if q.st ≠ .extended || !s.free_ q || s.time < q.deadline + q.slimNow then s
  else
    let late := (q.straggling.map q.phys).filter fun t => !s.hasArrived q t
    let s := late.foldl (fun s t => s.trapAsync t Cause.straggler (BitVec.ofNat 64 (s.time - q.extStart)) 0 none) s
    (if late.isEmpty then s.modPart p fun q => { q with cause := some Cause.straggler } else s).abort p

/-- TIME_ZONE_SLIP, first in a package tick, before the dies' cycles in it: the drift of a die exceeds its tolerance; every tile of the die
takes the fault and the timetable aborts from any state that is not at rest (R40, R301, R346). -/
def timeZoneSlip (s : State) (d : Nat) : State :=
  let n := s.drift d
  if n.natAbs ≤ Config.tolerance d then s
  else match s.parts.find? fun e => e.2.active && e.2.dies.getLsbD d with
  | none => s
  | some (p, _) => ((s.dieTiles p d).foldl (fun s t => s.trapAsync t Cause.slip (BitVec.ofInt 64 n) 0 none) s).abort p

/-! ### Pre-emption (R345, R346) -/

/-- PREEMPT_SAVE_ENTRY: considered in the first tick after an exchange phase's BOUNDARY is entered. The dies save in
parallel, each its 64 tiles one after another. -/
def saveEntry (s : State) (p : Nat) : State :=
  let q := s.part p
  if q.st ≠ .boundary || q.phase % 2 = 0 || s.ticks ≠ q.since + 1 || q.preempt.isEmpty then s
  else ((s.tilesOf p).foldl logSaturated s).modPart p fun q => { q with
    st := .saving, since := s.ticks, next := none, opening := []
    saveLeft := q.bind.map fun d => (d, s.ticks + 64 * ctxCycles false * ((s.die d).cur.toNat + 1)) }

/-- The context of a logical tile is written to SAVE + L * 2 MiB by its die: a translation or an access that fails or that a link holds,
an address that CSAVE's door refuses, and a word of the tile that ECC cannot correct end it (R307, R346, R375). -/
def saveTile (s : State) (q : Part) (c lt : Nat) : Front Unit :=
  let t := q.phys lt
  let n := ctxSize (s.tile t).isFrozen
  match s.frontTranslate (dieOf t) c (q.launch.save + 0x200000 * lt) true with
  | .error e => .error e
  | .ok (s, pa, _) =>
    if !s.ctxAddrOk (BitVec.ofNat 64 pa) n then s.refuseFront Cause.refused
    else match s.frontReach (dieOf t) c pa n with
    | .error e => .error e
    | .ok (s, a) =>
      match s.readTile t with
      | (s, some _) => s.refuseFront Cause.ecc
      | (s, none) => .ok (s.saveContext t a, ())

/-- Every context of a partition is written. -/
def saveTiles (s : State) (q : Part) (c : Nat) : Front Unit :=
  (upto q.tiles).foldl (fun r lt =>
    match r with
    | .error e => .error e
    | .ok (s, _) => s.saveTile q c lt) (.ok (s, ()))

/-- SAVE_COMPLETE: every context is written; a failed CSAVE or translation aborts instead, with its cause. -/
def saveComplete (s : State) (p : Nat) : State :=
  let q := s.part p
  if q.st ≠ .saving || !s.free_ q || q.saveLeft.any (fun e => decide (s.ticks < e.2)) then s
  else
    let fail (s : State) (cause : BitVec 8) : State := (s.modPart p fun q => { q with cause := some cause }).abort p
    match s.ctxOf q.launch.pasid with
    | none => fail s Cause.translation
    | some c =>
      match s.saveTiles q c with
      | .error (s, some cause) => fail s cause
      | .error (_, none) => s
      | .ok (s, _) =>
        let s := s.modTiles p fun x => { x with seat := { x.seat with run := false } }
        let s := s.modPart p fun q => { q with st := .idle, since := s.ticks, saveLeft := [] }
        (s.writeStatus p (statusWord 3 0 (q.phase + 1))).endPreempt p 0

end State

/-! ### The table's events -/

/-- TCMD_ABORT: the partition enters ABORTED in the tick in which the MTSR lands (R301). -/
def execTcmdAbort (d : Nat) (s : State) : Out :=
  .next <| match (s.fwc d).blk with
  | some (.tcmd v n) =>
    if v.setWidth 3 ≠ 2#3 || (s.fwc d).cyc < n then s
    else match s.tileHeld (s.tileOf d) with
    | some p => (s.abort p).unblock d
    | none => s.refuseBlk d v
  | _ => s

def execLaunchStart (p : Nat) (s : State) : Out := .next (s.launchStart p)
def execPhaseComplete (p : Nat) (s : State) : Out := .next (s.phaseComplete p)
/-- PHASE_OPEN: the controller's transition at tick O, and the opening on a die. -/
def execPhaseOpen (p d : Nat) (s : State) : Out := .next ((s.controllerOpen p).dieOpen p d)
def execDeadlineReached (p : Nat) (s : State) : Out := .next (s.deadlineReached p)
def execStragglerLimit (p : Nat) (s : State) : Out := .next (s.stragglerLimit p)
def execTimeZoneSlip (d : Nat) (s : State) : Out := .next (s.timeZoneSlip d)
def execPartitionDone (p : Nat) (s : State) : Out := .next (s.partitionDone p)
def execPreemptSaveEntry (p : Nat) (s : State) : Out := .next (s.saveEntry p)
def execSaveComplete (p : Nat) (s : State) : Out := .next (s.saveComplete p)

/-- DIVISOR_APPLY outside a running partition (R363). -/
def execDivisorApply (d : Nat) (s : State) : Out :=
  .next <| match (s.die d).divAt with
  | some n => if n ≤ s.ticks && !s.dieActive d then s.modDie d fun x => { x with cur := x.div, divAt := none } else s
  | none => s

end Sys2Proof.Machine
end

