-- ==== Sys2Proof/Machine/Links.lean ====
section
/-! DEFINITION. Mesh links and ports: replay, lane errors, reconfiguration and training; the uncore of a site; accesses that
arrive from outside; package time and its synchronisation; calibration (R131, R353, R357, R358, R361, R366-R371, R373). -/

namespace Sys2Proof.Machine

namespace State

/-! ### Replay and lanes (R366, R367) -/

/-- LEVT bits. -/
def levtLane : BitVec 5 := 1
def levtRetry : BitVec 5 := 2
def levtAuto : BitVec 5 := 4
def levtDone : BitVec 5 := 8
def levtFail : BitVec 5 := 16

/-- A training attempt begins (R368; its length is free, log 5). -/
def startAttempt (s : State) (k n : Nat) : State :=
  (s.modLink k fun l => { l with
    st := .training, attempts := n, attemptEnd := s.ticks + Config.trainLag s.free l.mapOnly }).draw

/-- FLIT_REPLAY: LRETRY counts; the eighth consecutive replay of one flit retrains an ACTIVE link. -/
def replayFlit (s : State) (k : Nat) (dir : Bool) : State :=
  if !linkExists k then s
  else
    let l := s.link k
    let same := Config.sameFlit s.free
    let n (r : Nat) : Nat := if same then r + 1 else 1
    let l' := if dir then { l with retry1 := l.retry1 + 1, replays1 := n l.replays1 }
      else { l with retry0 := l.retry0 + 1, replays0 := n l.replays0 }
    let count := if dir then l'.retry1 else l'.retry0
    let again := if dir then l'.replays1 else l'.replays0
    let l' := { l' with levt := if count = l.thrRetry then l.levt ||| levtRetry else l.levt }
    let s := (s.draw.modLink k fun _ => l').bumpDie (linkServer k) 0x21 1
    if again = 8 && l.st = .active then
      (s.modLink k fun l => { l with
        levt := l.levt ||| levtAuto, mapOnly := false, req := false, replays0 := 0, replays1 := 0
        thalf := l.chalf, tw32 := l.cw32, ts16 := l.cs16 }).startAttempt k 1
    else s

/-- LANE_ERROR: LERR counts; at LTHR.LANE the lane fails. -/
def errLane (s : State) (k : Nat) (dir : Bool) (m lane : Nat) : State :=
  if !linkExists k || 8 ≤ m || (if isPort k then 4 else 68) ≤ lane then s
  else
    let dm := (if dir then 8 else 0) + m
    let l := s.link k
    let old := (l.lerr.get 0#16 (68 * dm + lane)).toNat
    let n := min (old + 1) 65535
    let l' := { l with lerr := l.lerr.set 0#16 (68 * dm + lane) (BitVec.ofNat 16 n) }
    if n = l.thrLane.toNat && old ≠ n then
      let l' := if lane < 64 then { l' with lfail := l.lfail.set 0#64 dm (l.lfail.get 0#64 dm ||| BitVec.ofNat 64 (2 ^ lane)) }
        else { l' with sfail := l.sfail.set 0#4 dm (l.sfail.get 0#4 dm ||| BitVec.ofNat 4 (2 ^ (lane - 64))) }
      (s.modLink k fun _ => { l' with levt := l'.levt ||| levtLane }).log (linkServer k) 0x25 2 6 0 (k % 16) 0 0
        (BitVec.ofNat 64 (m * 256 + lane))
    else s.modLink k fun _ => l'

/-! ### Reconfiguration and training (R368, R369) -/

/-- An exchange phase is open, or its origin was set before the request was accepted. -/
def exchangeOpen (s : State) : Bool :=
  s.parts.any fun e => match e.2.st with
    | .open_ | .extended | .held => e.2.phase % 2 == 1
    | .boundary => e.2.phase % 2 == 0 && e.2.next.isSome
    | _ => false

/-- LINK_DRAINED: no exchange phase is open, no copy's flits are under way, and every flit sent before is acknowledged, which takes
a time that the manual does not give (R366, R368; log 5). -/
def drainLink (s : State) (k : Nat) : State :=
  let l := s.link k
  if l.st ≠ .draining || s.exchangeOpen || s.copies.any (fun c => c.st == .started) then s
  else
    let n := l.ackAt.getD (s.ticks + Config.ackTicks s.free)
    if s.ticks < n then s.draw.modLink k fun l => { l with ackAt := some n }
    else s.draw.modLink k fun l => { l with st := .paused, attemptEnd := s.ticks, ackAt := none }

/-- LINK_PAUSE_END: the next tick applies MAP, W32, HALF and S16, and trains. -/
def endPause (s : State) (k : Nat) : State :=
  if (s.link k).st ≠ .paused || s.ticks ≤ (s.link k).attemptEnd then s
  else (s.modLink k fun l => { l with thalf := l.half, tw32 := l.w32, ts16 := l.s16 }).startAttempt k 1

/-- TRAINING_ATTEMPT_END: ACTIVE, another attempt, or after the third FAILED. Held exchange phases open once no link is
being reconfigured; copies that need a failed link fail. -/
def endAttempt (s : State) (k : Nat) : State :=
  let l := s.link k
  if l.st ≠ .training || s.ticks < l.attemptEnd then s
  else if Config.trainSucceeds s.free then
    (s.draw.modLink k fun l => { l with
      st := .active, levt := l.levt ||| levtDone, req := false, replays0 := 0, replays1 := 0
      chalf := l.thalf, cw32 := l.tw32, cs16 := l.ts16 }).releaseHeld
  else if l.attempts < 3 then s.draw.startAttempt k (l.attempts + 1)
  else (s.draw.modLink k fun l => { l with st := .failed, levt := l.levt ||| levtFail, req := false }).failStarted.releaseHeld

/-- UNCORE_DOWN (R131). -/
def failUncore (s : State) (site : Nat) : State :=
  if 9 ≤ site || s.pkg.down.contains site then s
  else { s with pkg := { s.pkg with down := s.pkg.down ++ [site] } }.failStarted

/-! ### Accesses from outside (R371, R373) -/

/-- Bytes returned to the requester; none where the access fails. -/
def answerOut (s : State) (bs : List Byte) : State := { s with pkg := { s.pkg with answers := s.pkg.answers ++ [bs] } }

/-- An access to HBM: a write, or a read of as many bytes as `data` has, which fails where ECC cannot correct it (R375; log 23). -/
def hbmAccess (s : State) (wr : Bool) (a : Nat) (data : List Byte) : State :=
  if wr then s.physWrite a data
  else match s.touchHbm a data.length with
  | (s, some _) => s.answerOut []
  | (s, none) => s.answerOut (s.physRead a data.length)

/-- An access from a port fails where IN is 0 or the address is not HBM. -/
def portAccess (s : State) (port : Nat) (wr : Bool) (a : Nat) (data : List Byte) : State :=
  if 8 ≤ port || !(s.link (16 + port)).portIn || hbmTop < a + data.length then s.answerOut []
  else s.hbmAccess wr a data

/-- BAR2 + x is physical address x in HBM, as far as BAR2 reaches. -/
def bar2 (s : State) (wr : Bool) (off : Nat) (data : List Byte) : State :=
  if min hbmTop (2 ^ s.pkg.bar2) < off + data.length then s.answerOut [] else s.hbmAccess wr off data

/-- A host read of `n` bytes at a reserved offset of BAR0 returns zeros (R373); no row of the table reads BAR0 (log 23). -/
def readBar0 (s : State) (n : Nat) : State := s.answerOut (List.replicate n 0)

/-- The host may resize BAR2, from 1 TiB down to 16 GiB: when and to which size is its own (R372, R373; log 23). -/
def resizeBar2 (s : State) : State := { s with pkg := { s.pkg with bar2 := Config.bar2Bits s.ticks } }

/-- An access from outside takes effect. -/
def serveInbound (s : State) (i : Inbound) : State :=
  match i.port with
  | some p => s.portAccess p i.wr i.addr i.data
  | none => s.bar2 i.wr i.addr i.data

/-- An access from outside is held at a link of its route (R368). -/
def inboundHeld (s : State) (i : Inbound) : Bool :=
  match i.port with
  | some p => s.linkHolds (16 + p) || s.addrHeld (nodeSite p) i.addr
  | none => s.addrHeld 4 i.addr

/-- An access from outside, behind those that wait at the same place. -/
def takeInbound (s : State) (i : Inbound) : State :=
  if (s.pkg.inbound.any fun j => j.port == i.port) || s.inboundHeld i then
    { s with pkg := { s.pkg with inbound := s.pkg.inbound ++ [i] } }
  else s.serveInbound i

/-- The accesses that wait are tried again, in their order. -/
def retryInbound (s : State) : State := s.pkg.inbound.foldl takeInbound { s with pkg := { s.pkg with inbound := [] } }

end State

/-! ### The ROM's link service (R395) -/

/-- Lanes in use of the three plans, as LFAIL's bits, with W32 and HALF. -/
def linkPlans : List (DWord × Bool × Bool) :=
  [(BitVec.allOnes 64, false, false), (0xFFFFFFFF, true, false), (0xFFFFFFFF00000000, true, true)]

/-- Numbers of the bits that are set. -/
def bitsSet (n v : Nat) : List Nat := (List.range n).filter (bit v)

/-- The failed lanes in use of a direction and module, and its sound redundant lanes, both ascending. -/
def Link.failedIn (l : Link) (dm : Nat) (use : DWord) : List Nat := bitsSet 64 (l.lfail.get 0#64 dm &&& use).toNat
def Link.sound (l : Link) (dm : Nat) : List Nat := bitsSet 4 (~~~(l.sfail.get 0#4 dm)).toNat

/-- The first plan in which every module's sound redundant lanes replace its failed lanes. -/
def Link.plan (l : Link) : Option (DWord × Bool × Bool) :=
  linkPlans.find? fun c => (List.range 16).all fun dm => decide ((l.failedIn dm c.1).length ≤ (l.sound dm).length)

/-- LMAP of a module under a plan: sound redundant lanes take the failed lanes in turn. -/
def Link.mapOf (l : Link) (dm : Nat) (use : DWord) : Word :=
  BitVec.ofNat 32 ((((l.sound dm).zip (l.failedIn dm use)).map fun e => (128 + e.2) * 256 ^ e.1).sum)

namespace State

/-- The routine goes on with step `n`, after a time that the manual does not give (log 67). -/
def nextService (s : State) (d : Nat) (v : Svc) (n : Nat) : State :=
  s.draw.modDie d fun x => { x with fe := { x.fe with svc := some { v with step := n, at_ := s.ticks + Config.serviceTicks s.free } } }

/-- The routine returns. -/
def endService (s : State) (d : Nat) : State := s.modDie d fun x => { x with fe := { x.fe with svc := none } }

def setLsel (s : State) (d v : Nat) : State := s.modDie d fun x => { x with lsel := BitVec.ofNat 16 v }

/-- Darn: the first plan that fits, and LMAP of all 16 modules; the last that LSEL names is module 7 of direction 1. -/
def serviceMap (s : State) (d : Nat) (v : Svc) : State :=
  let k := v.link
  match (s.link k).plan with
  | none => s.endService d
  | some c =>
    let s := if isPort k then s
      else s.modLink k fun l => { l with map := (List.range 16).foldl (fun m dm => m.set 0#32 dm (l.mapOf dm c.1)) l.map }
    (s.setLsel d (k + 480)).nextService d { v with w32 := c.2.1, half := c.2.2 } (if c.2.1 && !(s.link k).cw32 then 1 else 3)

/-- A plan that halves a full link adds 8 to OVLAT and OVSKEW of every pair. -/
def serviceOverlay (s : State) (d : Nat) (v : Svc) : State :=
  let wider := (List.range 64).foldl (fun m k => if k / 8 = k % 8 then m else m.set 0#32 k (m.get 0#32 k + 0x00080008))
    s.pkg.overlay
  ({ s with pkg := { s.pkg with overlay := wider } }.modDie d fun x => { x with dpsel := 0x77 }).nextService d v 2

/-- It doubles SLIM of every live partition, by a write of PCFG that another die's of its tick may refuse (R322). -/
def serviceLimit (s : State) (d : Nat) (v : Svc) : State :=
  let one (s : State) (p : Nat) : State :=
    let s := { s with pkg := { s.pkg with psel := BitVec.ofNat 3 p } }
    let q := s.part p
    if q.v then
      (s.writeConfig d 0x45 (BitVec.ofNat 64 (2 ^ 63 + 0x1000000000000 * q.ctx.toNat + 0x1000000 * min (2 * q.slim.toNat) 0xFFFFFF
        + q.dies.toNat))).getD s
    else s
  ((List.range 8).foldl one s).nextService d v 3

/-- Request: LRETRY, LEVT, then REQ with W32 and HALF; it returns where REQ is refused. -/
def serviceRequest (s : State) (d : Nat) (v : Svc) : State :=
  let s := (s.modLink v.link fun l => { l with
    retry0 := 0, retry1 := 0, en := 0x1B, levt := l.levt &&& ~~~(levtRetry ||| levtLane) }).setLsel d (v.link + 32)
  match s.linkWrite (BitVec.ofNat 16 v.link) 0x71 (1 + (if v.w32 then 0x20000 else 0) + (if v.half then 0x40000 else 0)) with
  | some s => s.nextService d v 4
  | none => s.endService d

/-- Wait: DONE or FAIL is set, and the routine clears what it read. -/
def serviceWait (s : State) (d : Nat) (v : Svc) : State :=
  if (s.link v.link).levt &&& (levtDone ||| levtFail) = 0 then s
  else (s.modLink v.link fun l => { l with levt := 0 }).endService d

/-- A link asks for service: an enabled LEVT.RETRY or LEVT.LANE, a state in which REQ is taken, and a plan that fits; one that no plan
fits changes nothing, and another of the die's links is serviced (R369, R395). -/
def wantsService (s : State) (d k : Nat) : Bool :=
  let l := s.link k
  linkServer k == d && l.levt &&& l.en &&& (levtRetry ||| levtLane) != 0 && (l.st == .active || l.st == .failed) && l.plan.isSome

/-- The ROM of a die services a link that it serves, each step in a tick of its own (R395, R396; log 67). -/
def linkService (s : State) (d : Nat) : State :=
  match (s.die d).fe.svc with
  | some v =>
    if v.step = 4 then s.serviceWait d v
    else if s.ticks < v.at_ then s
    else match v.step with
    | 0 => s.serviceMap d v
    | 1 => s.serviceOverlay d v
    | 2 => s.serviceLimit d v
    | _ => s.serviceRequest d v
  | none =>
    match ((List.range 24).filter linkExists).find? (s.wantsService d) with
    | none => s
    | some k => s.nextService d ⟨k, false, false, 0, 0⟩ 0

/-! ### Package time (R353, R357, R358) -/

/-- TSYNC_PULSE in MODE 01: a load, or DEV with a slew inside WIN; either ends a slew in progress. -/
def tsync (s : State) : State :=
  let p := s.pkg
  if p.syncMode ≠ 1#2 then s
  else if p.syncLoad then { s with pkg := { p with loadNow := true, slewLeft := 0 } }
  else
    let u := 2 ^ p.syncExp.toNat
    let m := (s.time + u / 2) / u * u
    let dev : Int := (s.time : Int) - m
    let ok := decide (dev.natAbs ≤ p.syncWin.toNat)
    let p := { p with
      syncDev := BitVec.ofInt 32 dev, syncLock := ok, syncErr := p.syncErr || !ok
      slewLeft := if ok then dev.natAbs * 65536 else 0, slewUp := decide (dev < 0) }
    let s := { s with pkg := p }
    if ok then s else s.log 0 0x28 2 6 0 0 0 0 (BitVec.ofInt 64 dev)

/-- PACKAGE_TIME_SLEW is due: the next tick is the 65,536th of a slew. -/
def slewDue (s : State) : Bool := decide (0 < s.pkg.slewLeft) && s.pkg.slewLeft % 65536 == 1

/-- Package time moves on to `t`; an overlay written before is in force (R356). R353 says nothing of what follows count 2^64 - 1, which
a load can reach: time is an unbounded number here, that neither wraps nor stops (the model's choice; log 11). -/
def timeTo (s : State) (t : Nat) : State :=
  { s with
    time := t, ticks := s.ticks + 1
    pkg := { s.pkg with
      overlayNow := s.pkg.overlay, prev := s.time, slewLeft := s.pkg.slewLeft - 1, loadNow := false, syncLoad := s.pkg.syncLoad && !s.pkg.loadNow } }

/-- PACKAGE_TIME_SLEW: the count advances by 0 or by 2. -/
def slew (s : State) : State := s.timeTo (if s.pkg.slewUp then s.time + 2 else s.time)

/-- The end of a package tick: the load of R358, the slew, or one more. -/
def nextTick (s : State) : State :=
  if s.pkg.loadNow then s.timeTo s.pkg.syncld.toNat
  else if s.slewDue then s.slew
  else s.timeTo (s.time + 1)

/-- TSYNC_OUT is high for 16 ticks from each multiple of 2^PEXP in MODE 10 (R357). -/
def tsyncOutput (s : State) : State :=
  { s with pkg := { s.pkg with tsyncOut := s.pkg.syncMode == 2#2 && decide (s.time % 2 ^ s.pkg.syncExp.toNat < 16) } }

/-- CALIBRATION_DUE: package time reaches LAST + INT (R361). -/
def calibrate (s : State) (t : Nat) : State :=
  let x := s.tile t
  let at_ := x.press.last + (s.die (dieOf t)).calint.toNat
  if s.pkg.prev < at_ && at_ ≤ s.time && !x.press.due then
    (s.modTile t fun x => { x with press := { x.press with due := true } }).log (dieOf t) 0x26 2 7 (slotOf t) 0 0 x.seat.phase
      (BitVec.ofNat 64 x.press.last)
  else s

end State

def execFlitReplay (link : Nat) (dir : Bool) (s : State) : Out := .next (s.replayFlit link dir)
def execLaneError (link : Nat) (dir : Bool) (module lane : Nat) (s : State) : Out := .next (s.errLane link dir module lane)
def execLinkDrained (link : Nat) (s : State) : Out := .next (s.drainLink link)
def execLinkPauseEnd (link : Nat) (s : State) : Out := .next (s.endPause link)
def execTrainingAttemptEnd (link : Nat) (s : State) : Out := .next (s.endAttempt link)
def execPortInboundAccess (port : Nat) (wr : Bool) (addr : BitVec 44) (data : List Byte) (s : State) : Out :=
  .next (s.takeInbound ⟨some port, wr, addr.toNat, data⟩)
def execBar2Access (wr : Bool) (off : BitVec 40) (data : List Byte) (s : State) : Out := .next (s.takeInbound ⟨none, wr, off.toNat, data⟩)
def execUncoreDown (site : Nat) (s : State) : Out := .next (s.failUncore site)
def execTsyncPulse (s : State) : Out := .next s.tsync
def execPackageTimeSlew (s : State) : Out := .next (if s.slewDue then s.slew else s)
def execTsyncOutPulse (s : State) : Out := .next s.tsyncOutput
def execCalibrationDue (t : Nat) (s : State) : Out := .next (s.calibrate t)

end Sys2Proof.Machine
end

