-- ==== Sys2Proof/Machine/Loader.lean ====
section
/-! DEFINITION. The loader: the bytes of a Pelkor image, its checks, the binding of dies, the state of a tile at launch, and
acceptance of a timetable (R25-R27, R43, R51, R55, R63, R115, R154-R156, R259, R325, R337, R350, R364). -/

namespace Sys2Proof.Machine

/-! ### Image bytes (R154, R155) -/

/-- A directory entry. -/
structure Sect where
  type : Nat
  tile : Nat
  off : Nat
  len : Nat
deriving DecidableEq, Repr

/-- A field of bytes. -/
abbrev fieldAt (b : List Byte) (off n : Nat) : Nat := recNum b off n

/-- Bytes cut into pieces of `n`. -/
def chunks (n : Nat) : Nat → List Byte → List (List Byte)
  | 0, _ => []
  | k + 1, b => b.take n :: chunks n k (b.drop n)

/-- The entries of a section of entries of `n` bytes. -/
def entriesOf (n : Nat) (b : List Byte) : List (List Byte) := chunks n (b.length / n) b

/-- Every byte is zero. -/
def zeroBytes (b : List Byte) : Bool := b.all (· == 0#8)

/-- Bytes of a section. -/
def Sect.bytes (b : List Byte) (e : Sect) : List Byte := (b.drop e.off).take e.len

/-- The header is right, and its reserved bytes are zero (R154, R155). -/
def headerOk (b : List Byte) : Bool :=
  let dies := fieldAt b 6 1
  fieldAt b 0 4 == 0x4F4B4C50 && fieldAt b 4 2 == 1 && (dies == 1 || dies == 2 || dies == 4 || dies == 8)
    && fieldAt b 7 1 == 0 && fieldAt b 12 4 % 16 == 0 && zeroBytes ((b.drop 0x18).take 40)
    && decide (64 ≤ fieldAt b 16 8) && decide (fieldAt b 16 8 ≤ b.length)
    && decide (fieldAt b 12 4 + 16 * fieldAt b 8 4 ≤ fieldAt b 16 8)

/-- The directory. -/
def directory (b : List Byte) : List Sect :=
  (chunks 16 (fieldAt b 8 4) (b.drop (fieldAt b 12 4))).map fun e =>
    ⟨fieldAt e 0 2, fieldAt e 2 2, fieldAt e 8 4, fieldAt e 12 4⟩

/-- No two elements agree. -/
def allDistinct {α : Type} [DecidableEq α] : List α → Bool
  | [] => true
  | x :: r => !r.contains x && allDistinct r

/-- The directory keeps R155: types, tiles, reserved bytes, bounds, no pair twice. -/
def directoryOk (b : List Byte) : Bool :=
  let dies := fieldAt b 6 1
  let raw := chunks 16 (fieldAt b 8 4) (b.drop (fieldAt b 12 4))
  let ds := directory b
  raw.all (fun e => zeroBytes ((e.drop 4).take 4))
    && ds.all (fun e => decide (1 ≤ e.type) && decide (e.type ≤ 10)
      && (if e.type ≤ 4 then decide (e.tile < 64 * dies) else e.tile == 0xFFFF)
      && e.off % 16 == 0 && decide (e.off + e.len ≤ fieldAt b 16 8))
    && allDistinct (ds.map fun e => (e.type, e.tile))

/-- The bytes of a section, where the directory has it. -/
def sectionOf (b : List Byte) (ds : List Sect) (type tile : Nat) : Option (List Byte) :=
  (ds.find? fun e => e.type == type && e.tile == tile).map fun e => e.bytes b

/-! ### Per-tile sections (R25, R63, R155) -/

/-- A text or program: its length in words, then the words. -/
def codeWords (limit : Nat) (b : List Byte) : Option (List Word) :=
  let n := fieldAt b 0 4
  if b.length < 4 || limit < n || b.length ≠ 4 + 4 * n then none
  else some ((chunks 4 n (b.drop 4)).map fun w => BitVec.ofNat 32 (ofLe w))

/-- The runs of a scratchpad initialiser: address, length, bytes padded to 4. R153 makes runs that overlap an error of ezas alone, and the
manual does not say what the loader does with them or with padding that is not zero: the later run stands, the padding is ignored (the
model's choice; log 68). -/
def runsOf : Nat → List Byte → Option (List (Nat × List Byte))
  | 0, b => if b.isEmpty then some [] else none
  | k + 1, b =>
    if b.isEmpty then some []
    else
      let a := fieldAt b 0 4
      let n := fieldAt b 4 4
      if b.length < 8 + 4 * ceilDiv n 4 || 0x100000 < a + n then none
      else (runsOf k (b.drop (8 + 4 * ceilDiv n 4))).map fun r => (a, (b.drop 8).take n) :: r

/-- ETYPE is legal for SHAPE (R61). -/
def etypeOk (etype shape : Nat) : Bool :=
  match shape with
  | 0 => decide (etype ≤ 0xD)
  | 1 => etype == 0 || (decide (6 ≤ etype) && decide (etype ≤ 0xD))
  | 2 => etype == 0 || etype == 0xE
  | _ => false

/-- A view the loader takes (R60, R63). -/
def viewOk (v : DWord) : Bool :=
  let w := View.of v
  let ext := w.extent
  (v.extractLsb' 60 4) == 0#4 && (v.extractLsb' 11 7) == 0#7 && etypeOk w.etype.toNat w.shape.toNat
    && decide (256 ≤ ext) && decide (ext ≤ 2048 * 256) && decide (0 < w.pitch) && decide (w.base + ext ≤ 524288)
    && (w.shape != 0#2 || (decide (256 ≤ w.pitch) && decide (7 * w.istep + 15 * w.pitch + 256 ≤ ext)))
    && (w.shape != 1#2 || decide (7 * w.istep + 63 * w.pitch + 64 ≤ ext))

/-- View settings: vw0 to vw7, WCFG, four zero bytes. A reserved byte that is not zero is a load fault (R155); reserved bits of WCFG
beside a field are ignored (R11, R43). -/
def viewsOf (b : List Byte) : Option (List DWord × Word) :=
  let vs := (chunks 8 8 b).map fun w => BitVec.ofNat 64 (ofLe w)
  let w : Word := BitVec.ofNat 32 (fieldAt b 64 4)
  if b.length ≠ 72 || fieldAt b 68 4 ≠ 0 || fieldAt b 66 2 ≠ 0 || !vs.all viewOk then none else some (vs, w &&& wcfgBits)

/-- What an image gives a tile. -/
structure TileImage where
  text : List Word
  init : List (Nat × List Byte)
  seq : List Word
  views : List DWord
  wcfg : Word
deriving DecidableEq, Repr

def tileImage (b : List Byte) (ds : List Sect) (lt : Nat) : Option TileImage := do
  let text ← sectionOf b ds 1 lt >>= codeWords 32768
  let v ← sectionOf b ds 4 lt >>= viewsOf
  let init ← match sectionOf b ds 2 lt with
    | some r => runsOf r.length r
    | none => some []
  let seq ← match sectionOf b ds 3 lt with
    | some r => codeWords 2048 r
    | none => some []
  pure ⟨text, init, seq, v.1, v.2⟩

/-! ### Partition-wide sections (R115, R156, R259) -/

/-- A loop-table entry: KIND, COUNT, DIV. -/
def loopOf (e : List Byte) : Option (Nat × Nat × Nat) :=
  let k := fieldAt e 0 1
  let c := fieldAt e 2 2
  let q := fieldAt e 4 2
  if 3 ≤ k || c = 0 || q = 0 || 512 < q || fieldAt e 1 1 ≠ 0 || fieldAt e 6 2 ≠ 0 then none else some (k, c, q)

def loopsOf (b : List Byte) : Option (List (Nat × Nat × Nat)) :=
  if b.length ≠ 64 then none else (entriesOf 8 b).mapM loopOf

/-- An exchange-schedule entry: PHASE, SRC, DST, BYTES. -/
def scheduleOf (e : List Byte) : Nat × Nat × Nat × Nat := (fieldAt e 0 8, fieldAt e 8 2, fieldAt e 10 2, fieldAt e 12 4)

/-- The exchange schedule keeps R156. -/
def scheduleOk (b : List Byte) (tiles : Nat) : Bool :=
  let es := (entriesOf 16 b).map scheduleOf
  b.length % 16 == 0
    && es.all fun e => e.1 % 2 == 1 && decide (e.2.1 < tiles) && (decide (e.2.2.1 < tiles) || e.2.2.1 == 0xFFFF)
      && (e.2.2.1 == 0xFFFF || decide (((es.filter fun o => o.1 == e.1 && o.2.2.1 == e.2.2.1).map (·.2.2.2)).sum ≤ 1048576))

/-- A frame-arrival entry: PHASE, FRAME, TAG; its tag keeps R115. -/
def frameOf (e : List Byte) : Option (Nat × Nat × Word) :=
  let p := fieldAt e 0 8
  let f := fieldAt e 8 2
  let t := fieldAt e 12 4
  if p % 2 = 1 || 255 < f || fieldAt e 10 2 ≠ 0 || bits t 15 14 = 3 || bits t 13 9 ≠ 0 then none
  else some (p, f, BitVec.ofNat 32 t)

/-- Keys rise strictly. -/
def rising : List Nat → Bool
  | a :: b :: r => decide (a < b) && rising (b :: r)
  | _ => true

def framesTable (b : List Byte) : Option (List (Nat × Nat × Word)) :=
  if b.length % 16 ≠ 0 then none
  else match (entriesOf 16 b).mapM frameOf with
  | some es => if rising (es.map fun e => e.1 * 256 + e.2.1) then some es else none
  | none => none

/-- A phase-table entry: FIRST, DEADLINE, CLASS. -/
def phaseOf (e : List Byte) : Option (Nat × Nat × Nat) :=
  let d := fieldAt e 8 4
  let c := fieldAt e 12 1
  if d = 0 || 15 < c || fieldAt e 13 3 ≠ 0 then none else some (fieldAt e 0 8, d, c)

def phasesTable (b : List Byte) : Option (List (Nat × Nat × Nat)) :=
  if b.length % 16 ≠ 0 then none
  else match (entriesOf 16 b).mapM phaseOf with
  | some es => if (es.map (·.1)).head? = some 0 && rising (es.map (·.1)) then some es else none
  | none => none

/-- A neighbour distance: the lower die, the higher die, hops. -/
def neighbourOf (dies : Nat) (e : List Byte) : Option (Nat × Nat × Nat) :=
  let a := fieldAt e 0 1
  let b := fieldAt e 1 1
  let h := fieldAt e 2 1
  if a = b || dies ≤ a || dies ≤ b || h = 0 || 4 < h || fieldAt e 3 1 ≠ 0 then none else some (min a b, max a b, h)

def neighboursOf (dies : Nat) (b : List Byte) : Option (List (Nat × Nat × Nat)) :=
  if b.length % 4 ≠ 0 then none
  else match (entriesOf 4 b).mapM (neighbourOf dies) with
  | some es => if es.all fun e => es.all fun o => !(e.1 == o.1 && e.2.1 == o.2.1) || e.2.2 == o.2.2 then some es else none
  | none => none

/-- A record entry: its slot and 256 bytes; valid, of generation 1 (R259). -/
def recordOf (tiles : Nat) (e : List Byte) : Option (Nat × List Byte) :=
  let r := (e.drop 16).take 256
  if !zeroBytes ((e.drop 2).take 14) || !Record.valid r tiles || Record.gen r ≠ 1 then none else some (fieldAt e 0 2, r)

def recordsOf (tiles : Nat) (b : List Byte) : Option (List (Nat × List Byte)) :=
  if b.length % 272 ≠ 0 then none
  else match (entriesOf 272 b).mapM (recordOf tiles) with
  | some rs => if allDistinct (rs.map (·.1)) then some rs else none
  | none => none

/-- A whole image. -/
structure Loaded where
  img : Image
  tiles : List TileImage
  loops : List (Nat × Nat × Nat)
  records : List (Nat × List Byte)
  hops : List (Nat × Nat × Nat)
deriving DecidableEq, Repr

/-- An image that passes every check of the loader; none is a load fault. -/
def parseImage (b : List Byte) : Option Loaded := do
  if !headerOk b then none
  let b := b.take (fieldAt b 16 8)
  let dies := fieldAt b 6 1
  if !directoryOk b then none
  let ds := directory b
  let wide (t : Nat) : Option (List Byte) := sectionOf b ds t 0xFFFF
  let tiles ← (upto (64 * dies)).mapM (tileImage b ds)
  let loops ← wide 5 >>= loopsOf
  let sched ← wide 7
  if !scheduleOk sched (64 * dies) then none
  let frames ← wide 8 >>= framesTable
  let phases ← wide 9 >>= phasesTable
  let records ← recordsOf (64 * dies) ((wide 6).getD [])
  let hops ← neighboursOf dies ((wide 10).getD [])
  pure ⟨⟨dies, phases, frames, Config.sha384 b⟩, tiles, loops, records, hops⟩

/-! ### Binding (R26) -/

/-- A die may follow the dies chosen so far. -/
def bindOk (hops : List (Nat × Nat × Nat)) (chosen : List Nat) (d : Nat) : Bool :=
  hops.all fun e => e.2.1 != chosen.length || Config.dieHops (chosen.getD e.1 0) d == e.2.2

/-- The first binding in lexicographic order of dies that meets every distance. -/
def bindFrom (hops : List (Nat × Nat × Nat)) : Nat → List Nat → List Nat → Option (List Nat)
  | 0, chosen, _ => some chosen
  | n + 1, chosen, rest => rest.findSome? fun d =>
      if bindOk hops chosen d then bindFrom hops n (chosen ++ [d]) (rest.filter (· != d)) else none

/-! ### A tile at launch (R51, R55) -/

/-- Words as a map; zero words are not listed. -/
def wordMap (ws : List Word) : Map Word := (ws.zipIdx.filter fun e => e.1 != 0#32).map fun e => (e.2, e.1)

/-- A loop level at launch (R51, R55, R58). -/
def levelOf (lt : Nat) (e : Nat × Nat × Nat) : Level :=
  match e.1 with
  | 1 => ⟨BitVec.ofNat 16 e.2.1, BitVec.ofNat 16 (lt / e.2.2 % e.2.1), 0, true⟩
  | 2 => ⟨BitVec.ofNat 16 e.2.1, BitVec.ofNat 16 (lt / 64 / e.2.2 % e.2.1), 0, true⟩
  | _ => State.level0

/-- The state of R55. Trims, press bookkeeping, event counters and the debug enable are the physical tile's own and stay. -/
def launchTile (x : Tile) (p lt dies : Nat) (loops : List (Nat × Nat × Nat)) (i : TileImage) : Tile :=
  { State.tile0 with
    ctl := { State.ctl0 with lv := (loops.zipIdx.map fun e => (e.2, levelOf lt e.1)).filter fun e => e.2 != State.level0 }
    store := { State.store0 with
      scr := Mem.writeRuns [] i.init
      text := wordMap i.text, textLen := i.text.length
      seq := wordMap i.seq, seqLen := i.seq.length }
    vw := (i.views.zipIdx.filter fun e => e.1 != 0#64).map fun e => (e.2, e.1)
    seat := ⟨some p, lt, dies, 0, false⟩
    stop := { State.stop0 with wcfg := i.wcfg, pbm := x.stop.pbm }
    trim := x.trim, press := x.press, evc := x.evc }

namespace State

/-! ### The region table at acceptance (R325) -/

/-- The 8-byte words of a table that hold a listed byte. -/
def listedWords (s : State) (base n : Nat) : List Nat :=
  ((s.mem.filter fun e => decide (base ≤ e.1) && decide (e.1 < base + 8 * n)).foldl (fun acc e =>
    let k := (e.1 - base) / 8
    match acc with
    | j :: _ => if j = k then acc else k :: acc
    | [] => [k]) ([] : List Nat)).reverse

/-- The pool's base. -/
def poolBase (q : Part) : Nat := 0x200000 * q.rgn.toNat

/-- A directory that names only leaves of the pool. -/
def dirOk (s : State) (q : Part) : Bool :=
  (s.listedWords (poolBase q) 65536).all fun i => match s.regionDir q i with | .ok _ => true | .error _ => false

/-- Leaves that the directory names. -/
def leavesOf (s : State) (q : Part) : List Nat :=
  (s.listedWords (poolBase q) 65536).filterMap fun i => match s.regionDir q i with | .ok r => r | .error _ => none

/-- A leaf's mapped entries: where each lies and its bits. -/
def leafEntries (s : State) (q : Part) (k : Nat) : List (Nat × Nat) :=
  let base := poolBase q + 0x80000 + 0x40000 * k
  ((s.listedWords base 32768).map fun j => (base + 8 * j, s.physNum (base + 8 * j) 8)).filter fun e => bit e.2 63

/-- The region table passes the acceptance check. -/
def regionsOk (s : State) (q : Part) (tiles : Nat) : Bool :=
  s.dirOk q && (s.leavesOf q).all fun k => (s.leafEntries q k).all fun e =>
    decide (bits e.2 61 59 ≤ 3) && decide (bits e.2 58 50 < tiles) && (!bit e.2 62 || bits e.2 61 59 == 3)

/-- A load fault of the timetable (R337). -/
def loadFault {α : Type} (s : State) : Front α := s.refuseFront Cause.load

/-- The partition's phase controller reads the directory and the leaves that it names: a link may hold the reads, and an entry that ECC
cannot correct is a load fault (R325, R368, R375; logs 30, 68). -/
def checkRegions (s : State) (q : Part) (tiles : Nat) : Front Unit :=
  if s.areaHeld (lead q) (poolBase q) (0x80000 + 0x40000 * q.nleaf.toNat) then .error (s, none)
  else match ((poolBase q, 0x80000) :: (s.leavesOf q).map fun k => (poolBase q + 0x80000 + 0x40000 * k, 0x40000)).foldl
      (fun (r : State × Option Nat) (a : Nat × Nat) => match r.2 with
        | some _ => r
        | none => r.1.touchHbm a.1 a.2) (s, none) with
  | (s, some _) => s.loadFault
  | (s, none) => if s.regionsOk q tiles then .ok (s, ()) else s.loadFault

/-- RELEASING and OFFERED entries are read as OFFERED with NREL 0. -/
def regionsReset (s : State) (q : Part) : State :=
  (s.leavesOf q).foldl (fun s k => (s.leafEntries q k).foldl (fun s e =>
    if bits e.2 61 59 = 1 ∨ bits e.2 61 59 = 2 then
      s.physWrite e.1 (leBytes 8 (e.2 - bits e.2 61 59 * 2 ^ 59 - bits e.2 40 0 + 2 * 2 ^ 59))
    else s) s) s

/-! ### Contexts of a restore (R337, R350) -/

/-- The 2 MiB at a virtual address lie in one leaf of 2 MiB or 1 GiB with R or W. A check is no access: it sets neither A nor D. Its walk
counts, a link may hold it, and an entry that ECC cannot correct is a load fault (R368, R375, R380). -/
def leafArea (s : State) (d c va : Nat) (wr : Bool) : Front Unit :=
  if 2 ^ 52 ≤ va then s.loadFault
  else if (s.walkWords c va).any (s.addrHeld (Config.dieSite d)) then .error (s, none)
  else match (s.bumpDie d 0x24 1).touchWords (s.walkWords c va) with
  | (s, some _) => s.loadFault
  | (s, none) =>
    match s.walk c va with
    | some l =>
      if l.size < 0x200000 || l.size < va % l.size + 0x200000 || !bit l.bits (if wr then 3 else 2) then s.loadFault
      else .ok (s, ())
    | none => s.loadFault

/-- The 2 MiB of every logical tile's context in a table (R337). -/
def leafAreas (s : State) (d c va tiles : Nat) (wr : Bool) : Front Unit :=
  (upto tiles).foldl (fun r lt => frontThen r fun s _ => s.leafArea d c (va + 0x200000 * lt) wr) (.ok (s, ()))

/-- A context suits the image (R350). -/
def contextOk (m : Mem) (lt : Nat) (img : Image) (i : TileImage) : Bool :=
  let h := ctxHead m
  cb m 0 4 == 0x4C514358 && !h.frz && h.lt == lt && h.dies == img.dies && h.imgid == (img.digest.setWidth 64).toNat
    && ((upto 8).all fun k => BitVec.ofNat 64 (cb m (0x20 + 8 * k) 8) &&& viewBits == i.views.getD k 0)
    && BitVec.ofNat 32 (cb m 0x60 4) &&& wcfgBits == i.wcfg
    && h.phase % 2 == 0

/-! ### Acceptance (R27, R337) -/

/-- The bytes of a saved context, read by die `d` through a context slot: its door is CREST's (R307), a link or the host may hold or
refuse the read, and ECC may not correct it (R350, R368, R374, R375). -/
def readContext (s : State) (d c va : Nat) : Front Mem :=
  match s.frontTranslate d c va false with
  | .error e => .error e
  | .ok (s, pa, _) =>
    if !s.ctxAddrOk (BitVec.ofNat 64 pa) ctxLen then s.loadFault
    else match s.frontReach d c pa ctxLen with
    | .error e => .error e
    | .ok (s, a) =>
      match s.touchHbm a ctxLen with
      | (s, some _) => s.loadFault
      | (s, none) => .ok (s.draw, s.physBlock a ctxLen)

/-- Step 4 on one tile: the state of R55, or a restore from a context that suits (R350). The answer is the phase that opens. -/
def launchOne (s : State) (p d c : Nat) (q : Part) (l : Loaded) (res : Bool) (src ph lt : Nat) (i : TileImage) : Front Nat :=
  let t := q.phys lt
  let x := launchTile (s.tile t) p lt l.img.dies l.loops i
  if !res then .ok (s.setTile t x, 0)
  else match s.readContext d c (src + 0x200000 * lt) with
  | .error e => .error e
  | .ok (s, m) =>
    if !contextOk m lt l.img i || (lt != 0 && (ctxHead m).phase != ph) then s.loadFault
    else .ok (s.setTile t (s.restoreContext x m), (ctxHead m).phase)

/-- Step 4: every tile of the partition as the launch leaves it, with the phase that opens. A launch that fails leaves the tiles. -/
def launchTiles (s : State) (p d c : Nat) (bind : List Nat) (l : Loaded) (res : Bool) (src : Nat) : Front Nat :=
  match (l.tiles.zipIdx).foldl (fun r e => frontThen r fun s ph =>
      s.launchOne p d c { part0 with bind := bind } l res src ph e.2 e.1) (.ok (s, 0)) with
  | .ok r => .ok r
  | .error e => .error ({ e.1 with tiles := s.tiles }, e.2)

/-- The packet a timetable comes from. -/
structure Packet where
  pasid : BitVec 20
  queue : BitVec 8
  head : Nat
  part : Nat
  res : Bool
  image : Nat
  len : Nat
  src : Nat
  save : Nat
  status : Nat
deriving DecidableEq, Repr

/-- Tile powers that an image commits (R364). -/
def commitOf (l : Loaded) : Nat := l.img.dies * (maxOf 0 (l.img.phases.map (·.2.2)) + 1)

/-- Step 5: the phase controller is ARMED for tick S; the region table, the records and the releases are as a launch finds them (R27,
R121, R257, R325). -/
def arm (s : State) (k : Packet) (bind : List Nat) (l : Loaded) (phase : Nat) : State :=
  let q := s.part k.part
  let s := s.regionsReset q
  let s := if k.res then s else l.records.foldl (fun s (e : Nat × List Byte) => s.physWrite (s.recordAt k.part e.1) e.2) s
  let s := q.diesOf.foldl (fun s d => s.modDie d fun x => { x with rel := 0, wm := 0, rels := [] }) s
  s.modPart k.part fun q => { q with
    st := .armed, phase := phase, next := some (s.time + s.boundaryLead q + 1024), since := s.ticks, opening := []
    straggling := [], preempt := [], bind := bind, img := l.img
    launch := ⟨k.pasid, k.queue, k.head, k.save, k.status, true, true⟩
    commit := commitOf l, cause := none, recOld := [], saveLeft := [] }

/-- Steps 2 to 5 on a partition that exists and is at rest, for an image's bytes: a cause is a load fault, no cause the wait for a link
(R337, R368). -/
def acceptTimetable (s : State) (d c : Nat) (k : Packet) (image : List Byte) : Front Unit :=
  let q := s.part k.part
  match parseImage image with
  | none => s.loadFault
  | some l =>
    match if q.diesOf.length = l.img.dies then bindFrom l.hops l.img.dies [] q.diesOf else none with
    | none => s.loadFault
    | some bind =>
      let tiles := 64 * l.img.dies
      frontThen (s.checkRegions q tiles) fun s _ =>
      if s.pkg.pwrcap.toNat < s.commitments + commitOf l then s.loadFault
      else if !k.res && !l.records.isEmpty && s.areaHeld d (s.recordAt k.part 0) 0x1000000 then .error (s, none)
      else
        frontThen (if k.save = 0 then .ok (s, ()) else s.leafAreas d c k.save tiles true) fun s _ =>
        frontThen (if k.res then s.leafAreas d c k.src tiles false else .ok (s, ())) fun s _ =>
        frontThen (s.launchTiles k.part d c bind l k.res k.src) fun s phase => .ok (s.arm k bind l phase, ())

/-- A timetable that fails writes STATUS with OUT 4 (R337, R338). -/
def refuseTimetable (s : State) (d : Nat) (k : Packet) (cause : BitVec 8) : State :=
  let d := (s.part k.part).diesOf.headD d
  s.storeStatus ⟨d, k.pasid, k.queue, k.status, 0, statusWord 4 cause 0⟩

/-- The loader of die `d` reads the image; none where a link holds it (R368). -/
def readImage (s : State) (d c : Nat) (k : Packet) : Option (State × Option (List Byte)) :=
  if 2 ^ 52 < k.image + k.len then some (s, none)
  else match s.frontRead d c k.image k.len with
  | .ok (s, bs) => some (s, some bs)
  | .error (s, some _) => some (s, none)
  | .error (_, none) => none

/-- R337, for a queue whose PASID has the live context `c`; none where the packet has to wait. -/
def timetable (s : State) (d c : Nat) (k : Packet) : Option State :=
  let q := s.part k.part
  let own := q.launch.fresh && q.launch.pasid == k.pasid && q.launch.queue == k.queue && q.launch.head == k.head
  if own then some s
  else if !q.v || !q.st.atRest || q.ctx.toNat != c then some (s.refuseTimetable d k Cause.refused)
  else match s.readImage d c k with
  | none => none
  | some (s, none) => some (s.refuseTimetable d k Cause.load)
  | some (s, some image) =>
    match s.acceptTimetable d c k image with
    | .ok (s, _) => some s
    | .error (s, some _) => some (s.refuseTimetable d k Cause.load)
    | .error (_, none) => none

end State

end Sys2Proof.Machine
end

