-- ==== Sys2Proof/Machine/Queue.lean ====
section
/-! DEFINITION. Host queues: doorbells, the queue table, queue control blocks and commits, packets, indirect buffers,
waits, timers, the watchdog, leadership (R328-R340, R343, R373). -/

namespace Sys2Proof.Machine

/-! ### Slots of a QCB (R330, R339) -/

namespace QSlot

def ring (r : List Byte) : Nat := recNum r 0x00 8
def rsize (r : List Byte) : Nat := recNum r 0x08 1
def state (r : List Byte) : Nat := recNum r 0x09 1
def leader (r : List Byte) : Nat := recNum r 0x0A 1
def depth (r : List Byte) : Nat := recNum r 0x0B 1
def head (r : List Byte) : Nat := recNum r 0x0C 4
def wddl (r : List Byte) : Nat := recNum r 0x18 8
/-- The stack entry of a depth: next address, bytes that remain. -/
def entryAt (k : Nat) : Nat := 0x20 + 16 * (k - 1)
def entryVa (r : List Byte) (k : Nat) : Nat := recNum r (entryAt k) 8
def entryLeft (r : List Byte) (k : Nat) : Nat := recNum r (entryAt k + 8) 4

def setState (r : List Byte) (v : Nat) : List Byte := recPut r 0x09 1 v
def setLeader (r : List Byte) (v : Nat) : List Byte := recPut r 0x0A 1 v
def setDepth (r : List Byte) (v : Nat) : List Byte := recPut r 0x0B 1 v
def setHead (r : List Byte) (v : Nat) : List Byte := recPut r 0x0C 4 v
def setCause (r : List Byte) (v : Nat) : List Byte := recPut r 0x10 4 v
def setWddl (r : List Byte) (v : Nat) : List Byte := recPut r 0x18 8 v
def setEntry (r : List Byte) (k va left : Nat) : List Byte :=
  recPut (recPut r (entryAt k) 8 va) (entryAt k + 8) 8 left

/-- A timer's record. -/
structure Timer where
  armed : Bool
  per : Bool
  busy : Bool
  period : Nat
  next : Nat
  ib : Nat
  bytes : Nat
  miss : Nat
  pend : Nat
deriving DecidableEq, Repr

def timerAt (n : Nat) : Nat := 0x80 + 32 * n
def timer (r : List Byte) (n : Nat) : Timer :=
  let b := timerAt n
  let f := recNum r b 4
  ⟨bit f 0, bit f 1, bit f 2, recNum r (b + 4) 4, recNum r (b + 8) 8, recNum r (b + 0x10) 8, recNum r (b + 0x18) 4,
    recNum r (b + 0x1C) 2, recNum r (b + 0x1E) 2⟩
def setTimer (r : List Byte) (n : Nat) (t : Timer) : List Byte :=
  let fl := (if t.armed then 1 else 0) + (if t.per then 2 else 0) + (if t.busy then 4 else 0)
  r.take (timerAt n) ++ (leBytes 4 fl ++ leBytes 4 t.period ++ leBytes 8 t.next ++ leBytes 8 t.ib ++ leBytes 4 t.bytes
    ++ leBytes 2 t.miss ++ leBytes 2 t.pend) ++ r.drop (timerAt n + 32)

/-- The position moves past `n` bytes: HEAD in 16-byte units, or the top stack entry (R333). -/
def advance (r : List Byte) (n : Nat) : List Byte :=
  let k := depth r
  if k = 0 then setHead r (head r + n / 16) else setEntry r k (entryVa r k + n) (entryLeft r k - n)

/-- Entries with nothing left are popped; BUSY of the timer that owns the buffer at depth 1 clears (R334, R340). -/
def popDone (owner : Option Nat) : Nat → List Byte → List Byte × Option Nat
  | 0, r => (r, owner)
  | n + 1, r =>
    let k := depth r
    if k = 0 || entryLeft r k ≠ 0 then (r, owner)
    else if k = 1 then
      match owner with
      | some m => (setTimer (setDepth r 0) m { timer r m with busy := false }, none)
      | none => (setDepth r 0, none)
    else popDone owner n (setDepth r (k - 1))

end QSlot

namespace State

/-- The active slot (R330). -/
def qslot (s : State) (qcb : Nat) : List Byte := s.physRead (qcb + 0x100 + 0x100 * (s.physNum qcb 8 % 2)) 256
def qtail (s : State) (qcb : Nat) : Nat := s.physNum (qcb + 8) 4

/-- A commit: the inactive slot is written whole, then SEL with ACT inverted and COUNT + 1 (R331). -/
def commit (s : State) (qcb : Nat) (r : List Byte) : State :=
  let sel := s.physNum qcb 8
  let act := 1 - sel % 2
  (s.physWrite (qcb + 0x100 + 0x100 * act) r).physWrite qcb (leBytes 8 ((sel / 2 + 1) * 2 + act))

/-! ### The queue table (R329) -/

/-- An entry the walk passes, with A set; none where it fails, an entry that ECC cannot correct as one with V = 0 (R375; log 68). -/
def tableEntry (s : State) (a align n : Nat) : Option (State × Nat) :=
  match s.touchHbm a 8 with
  | (_, some _) => none
  | (s, none) =>
    let e := s.physNum a 8
    let next := bits e 43 10 * 1024
    if !bit e 0 || !bit e 1 || bits e 63 44 ≠ 0 || bits e 9 3 ≠ 0 || next % align ≠ 0 || !s.physOk next n then none
    else some (s.physWrite a [BitVec.ofNat 8 (e % 256 ||| 4)], next)

/-- The level-1 entry of a PASID. -/
def queueTable (s : State) (pasid : Nat) : Option (State × Nat) :=
  s.tableEntry (0x800000 * s.pkg.qtbase.toNat + 8 * pasid) 2048 2048

/-- The QCB of a queue. -/
def walkQueue (s : State) (pasid queue : Nat) : Option (State × Nat) :=
  match s.queueTable pasid with
  | none => none
  | some (s, t) => s.tableEntry (t + 8 * queue) 1024 1024

/-- A walk that fails at level 2 went through the level-1 entry, which has A set (R329). -/
def markTable (s : State) (pasid : Nat) : State :=
  match s.queueTable pasid with
  | some (s, _) => s
  | none => s

/-- A walk from die `d` is held at a link of a route to one of the entries, or to the QCB (R368; log 30). -/
def queueHeld (s : State) (d pasid queue : Nat) : Bool :=
  let held := s.addrHeld (Config.dieSite d)
  held (0x800000 * s.pkg.qtbase.toNat + 8 * pasid) || match s.queueTable pasid with
    | none => false
    | some (s', t) => held (t + 8 * queue) || match s'.tableEntry (t + 8 * queue) 1024 1024 with
      | none => false
      | some (_, qcb) => held qcb

/-- The level-1 table is held (R368). -/
def tableHeld (s : State) (d : Nat) : Bool := s.addrHeld (Config.dieSite d) (0x800000 * s.pkg.qtbase.toNat)

/-- Every queue that the table lists. -/
def allQueues (s : State) : List (Nat × Nat) :=
  (s.listedWords (0x800000 * s.pkg.qtbase.toNat) 0x100000).flatMap fun p =>
    match s.queueTable p with
    | some (_, t) => (s.listedWords t 256).map fun q => (p, q)
    | none => []

/-! ### Runs of a front end -/

def qrun (s : State) (q : QueueId) : Option QRun := (s.die q.die).fe.runs.find? fun r => r.q == q
def modRuns (s : State) (d : Nat) (f : List QRun → List QRun) : State :=
  s.modDie d fun x => { x with fe := { x.fe with runs := f x.fe.runs } }
def modRun (s : State) (q : QueueId) (f : QRun → QRun) : State :=
  s.modRuns q.die fun rs => rs.map fun r => if r.q = q then f r else r

/-- The timer whose buffer stands at depth 1, for a front end that takes the queue over: the busy timer whose buffer ends
where the entry ends. -/
def ownerOf (r : List Byte) : Option Nat :=
  if QSlot.depth r = 0 then none
  else [0, 1, 2, 3].find? fun n =>
    let t := QSlot.timer r n
    t.busy && QSlot.entryVa r 1 + QSlot.entryLeft r 1 == t.ib + t.bytes

/-- A front end takes up a queue it leads, from its active slot (R331, R343). -/
def startRun (s : State) (q : QueueId) (qcb : Nat) : State :=
  if (s.qrun q).isSome then s
  else s.modRuns q.die fun rs => sortBy (fun r => r.q.pasid.toNat * 256 + r.q.queue.toNat)
    (rs ++ [⟨q, qcb, none, [], ownerOf (s.qslot qcb), []⟩])

/-- The die whose FWC may act: it is not in reset. -/
def alive (s : State) (d : Nat) : Bool := decide (d < 8) && !s.pkg.dreset.getLsbD d
/-- The lowest die that DSTATE shows running (R343). -/
def lowestRunning (s : State) : Option Nat := (upto 8).find? fun d => s.dstate d == 0#2
/-- The lease holder acts as leader while package time is below the E it last wrote (R342). -/
def leaseEnd (v : DWord) : Nat := 16 * (v.setWidth 52).toNat
def isLeader (s : State) (d : Nat) : Bool :=
  let f := (s.die d).fe
  s.alive d && f.acting && match f.lease with
    | some v => decide (s.time < leaseEnd v)
    | none => false

/-- A queue is handed to another die, which learns of it through SEV (R343). -/
def handOver (s : State) (q : QueueId) (d : Nat) : State :=
  (s.modDie d fun x => { x with fe := { x.fe with serve := x.fe.serve ++ [{ q with die := d }] } }).sendEvents
    (BitVec.ofNat 8 (2 ^ d))

/-- The die that logs a doorbell whose walk fails, of those that read it: the leader, without one the lowest running die (R329,
R342; log 38). -/
def logsWalk (s : State) (d : Nat) : Bool := s.isLeader d || (!((upto 8).any s.isLeader) && s.lowestRunning == some d)

/-- A queue that a die looks at again in the next tick. -/
def putServe (s : State) (q : QueueId) : State :=
  s.modDie q.die fun x => { x with fe := { x.fe with serve := x.fe.serve ++ [q] } }

/-- A die serves a queue that names it; the lease holder gives a queue without a leader to the lowest running die; every
other die passes it by (R328, R343). Where a link holds its walk the die looks again (R368). -/
def serveQueue (s : State) (d : Nat) (pasid : BitVec 20) (queue : BitVec 8) : State :=
  if s.queueHeld d pasid.toNat queue.toNat then s.putServe ⟨d, pasid, queue⟩
  else match s.walkQueue pasid.toNat queue.toNat with
  | none =>
    let s := s.markTable pasid.toNat
    if s.logsWalk d then s.log d 0x23 2 6 0 0 0 0 ((pasid ++ queue).setWidth 64) else s
  | some (s, qcb) =>
    let r := s.qslot qcb
    let q : QueueId := ⟨d, pasid, queue⟩
    if QSlot.leader r = d then s.startRun q qcb
    else if QSlot.leader r = 0xFF && s.isLeader d then
      match s.lowestRunning with
      | some e =>
        let s := s.commit qcb (QSlot.setLeader r e)
        if e = d then s.startRun q qcb else s.handOver q e
      | none => s.startRun q qcb
    else s

/-! ### Doorbells (R328, R373) -/

/-- The die at whose log the host attachment's errors stand: site E's, or logical die 0 (R372, R376). -/
def hostDie : Nat := (siteDie 4).getD 0

/-- A doorbell enters the FIFO of each running die, whatever EN: that decides what is served. -/
def ring (s : State) (v : DWord) : State :=
  (upto 8).foldl (fun s d =>
    if s.dstate d ≠ 0#2 then s
    else s.modDie d fun x =>
      if x.dbq.length < 64 then { x with dbq := x.dbq ++ [(v.extractLsb' 8 20, v.setWidth 8)] } else { x with ovf := true }) s

/-- A host write to BAR0: an aligned 8-byte write at 0 whose reserved bits are zero rings the doorbell; any other is
discarded and logged. -/
def writeBar0 (s : State) (off : Nat) (data : List Byte) : State :=
  let v : DWord := BitVec.ofNat 64 (ofLe data)
  if off = 0 && data.length = 8 && v.ushiftRight 28 == 0#64 then s.ring v else s.log hostDie 0x23 2 6 0 0 0 0 v

/-- A front end looks at every queue it leads (R328, R343); where a link holds its walks, again in the next tick (R368). -/
def rescan (s : State) (d : Nat) (all : Bool) : State :=
  if s.tableHeld d then s.modDie d fun x => { x with fe := { x.fe with rescan := true } }
  else s.allQueues.foldl (fun s k =>
    if s.queueHeld d k.1 k.2 then s.putServe ⟨d, BitVec.ofNat 20 k.1, BitVec.ofNat 8 k.2⟩
    else match s.walkQueue k.1 k.2 with
    | none => s.markTable k.1
    | some (s, qcb) =>
      let r := s.qslot qcb
      let mine := QSlot.leader r == d || (QSlot.leader r == 0xFF && s.isLeader d)
      if mine && (all || s.qtail qcb != QSlot.head r) then
        s.serveQueue d (BitVec.ofNat 20 k.1) (BitVec.ofNat 8 k.2)
      else s) s

/-- DOORBELL_SERVICE: the FWC reads its doorbell FIFO and serves what it finds; with EN = 0 it serves nothing (R327-R329). -/
def serveDoorbell (s : State) (d : Nat) : State :=
  if !s.alive d then s
  else if !s.pkg.qen then (s.readDbq d).1
  else
    let x := s.die d
    let s := if x.fe.rescan then (s.modDie d fun x => { x with fe := { x.fe with rescan := false } }).rescan d true else s
    let s := x.fe.serve.foldl (fun s q => s.serveQueue d q.pasid q.queue)
      (s.modDie d fun x => { x with fe := { x.fe with serve := [] } })
    if x.dbq.isEmpty && !x.ovf then s
    else
      let s := (s.readDbq d).1
      let s := if x.ovf then s.rescan d false else s
      match x.dbq with
      | (p, q) :: _ => s.serveQueue d p q
      | [] => s

/-! ### Packets (R332-R336) -/

/-- What becomes of a packet: it completes with an edit of its slot, it goes on, it stops its queue. -/
inductive Pk
  | done (s : State) (edit : List Byte → List Byte)
  | stay (s : State)
  | stop (s : State) (cause : BitVec 8)

/-- A packet goes on from an access of the front end: one that fails stops the queue (R333), one that a link holds is made again
(R368). -/
def Pk.after {α : Type} (r : Front α) (k : State → α → Pk) : Pk :=
  match r with
  | .ok (s, a) => k s a
  | .error (s, some cause) => .stop s cause
  | .error (s, none) => .stay s

/-- The queue stops: STATE 2 with the cause (R333). -/
def stopQueue (s : State) (q : QueueId) (cause : BitVec 8) : State :=
  match s.qrun q with
  | none => s
  | some r => (s.commit r.qcb (QSlot.setCause (QSlot.setState (s.qslot r.qcb) 2) cause.toNat)).modRun q fun r =>
      { r with wait := none, pkt := [] }

/-- A packet of `n` bytes completes: one commit moves past it (R333). -/
def finish (s : State) (q : QueueId) (n : Nat) (edit : List Byte → List Byte) : State :=
  match s.qrun q with
  | none => s
  | some r =>
    let v := QSlot.popDone r.owner 5 (edit (QSlot.setWddl (QSlot.advance (s.qslot r.qcb) n) 0))
    let idle := QSlot.depth v.1 == 0 && QSlot.head v.1 == s.qtail r.qcb
    let s := (s.commit r.qcb (QSlot.setState v.1 (if idle then 0 else 1))).modRun q fun r =>
      { r with wait := none, pkt := [], owner := v.2 }
    { s with parts := s.parts.map fun (e : Nat × Part) => (e.1, { e.2 with launch := { e.2.launch with fresh := false } }) }

/-- A packet starts: WDDL := start + 50 ms (R336). -/
def begin_ (s : State) (q : QueueId) : State :=
  match s.qrun q with
  | none => s
  | some r =>
    match r.wait with
    | some _ => s
    | none =>
      (s.commit r.qcb (QSlot.setWddl (QSlot.setState (s.qslot r.qcb) 1) (s.time + 30000000))).modRun q fun r =>
        { r with wait := some s.time }

/-- The accesses of a queue's die to its QCB are held at a link (R368). -/
def qcbHeld (s : State) (q : QueueId) (qcb : Nat) : Bool := s.addrHeld (Config.dieSite q.die) qcb

/-- A front end runs queue `q` in this state: its die is not in reset, its QCB can be reached, the queue is not stopped. -/
def runs (s : State) (q : QueueId) : Bool :=
  match s.qrun q with
  | some r => s.alive q.die && !s.qcbHeld q r.qcb && QSlot.state (s.qslot r.qcb) != 2
  | none => false

/-- A packet of `n` bytes of queue `q` starts or goes on, through the live context of its PASID (R332, R333). -/
def packet (s : State) (q : QueueId) (n : Nat) (act : State → Nat → Pk) : State :=
  if !s.runs q then s
  else
    let s := s.begin_ q
    match s.ctxOf q.pasid with
    | none => s.stopQueue q Cause.translation
    | some c =>
      match act s c with
      | .done s e => s.finish q n e
      | .stay s => s
      | .stop s cause => s.stopQueue q cause

/-- Bytes of an access size. -/
def szBytes (sz : Bool) : Nat := if sz then 8 else 4
/-- A misaligned address stops the queue (R333). -/
def misaligned (va : DWord) (sz : Bool) : Bool := va.toNat % szBytes sz != 0

def pktWrite (q : QueueId) (sz : Bool) (va value : DWord) (s : State) : State :=
  s.packet q 32 fun s c =>
    if misaligned va sz then .stop s Cause.illegal
    else Pk.after (s.frontWrite q.die c va.toNat false (leBytes (szBytes sz) value.toNat)) fun s _ => .done s id

/-- The condition of a WAIT (R335). -/
def waitHolds (op : BitVec 2) (word value mask : DWord) : Bool :=
  let m := word &&& mask
  match op.toNat with
  | 0 => m == value
  | 1 => m != value
  | _ => value.ule m

/-- The bytes of a WAIT packet (R332). -/
def waitBytes (op : BitVec 2) (sz : Bool) (va value mask : DWord) : List Byte :=
  leBytes 8 (3 + 2 * 256 + op.toNat * 2 ^ 16 + (if sz then 2 ^ 18 else 0)) ++ leBytes 8 va.toNat ++ leBytes 8 value.toNat
    ++ leBytes 8 mask.toNat

def pktWait (q : QueueId) (op : BitVec 2) (sz : Bool) (va value mask : DWord) (s : State) : State :=
  s.packet q 32 fun s c =>
    if misaligned va sz || op = 3#2 then .stop s Cause.illegal
    else Pk.after (s.frontRead q.die c va.toNat (szBytes sz)) fun s bs =>
      if waitHolds op (BitVec.ofNat 64 (ofLe bs)) (BitVec.ofNat 64 (value.toNat % 2 ^ (8 * szBytes sz))) mask then .done s id
      else .stay (s.modRun q fun r => { r with pkt := waitBytes op sz va value mask })

/-- Package time has reached a slot boundary in this tick (R335, R357). -/
def slotBoundary (s : State) : Bool := s.time / 600 != s.pkg.prev / 600
/-- The boundary itself. -/
def boundaryTick (s : State) : Nat := s.time / 600 * 600

/-- WAIT_SLOT_CHECK: a WAIT in progress reads its word again (R335). -/
def recheckWait (q : QueueId) (s : State) : State :=
  match s.qrun q with
  | some r =>
    if r.wait.isNone || recNum r.pkt 0 1 ≠ 3 || !s.slotBoundary then s
    else
      let h := recNum r.pkt 0 4
      s.pktWait q (BitVec.ofNat 2 (bits h 17 16)) (bit h 18) (BitVec.ofNat 64 (recNum r.pkt 8 8))
        (BitVec.ofNat 64 (recNum r.pkt 16 8)) (BitVec.ofNat 64 (recNum r.pkt 24 8))
  | none => s

/-- TIMER replaces a timer's record; BUSY and MISS stay (R339). -/
def pktTimer (q : QueueId) (n : BitVec 2) (per : Bool) (period : Word) (time ib bytes : DWord) (s : State) : State :=
  s.packet q 32 fun s _ =>
    if ib.toNat % 16 ≠ 0 || bytes.toNat % 16 ≠ 0 || bytes.toNat < 16 || 2 ^ 24 < bytes.toNat || (per && period == 0#32)
    then .stop s Cause.illegal
    else .done s fun r =>
      let t := QSlot.timer r n.toNat
      QSlot.setTimer r n.toNat { t with
        armed := true, per := per, period := period.toNat, next := time.toNat, ib := ib.toNat, bytes := bytes.toNat, pend := 0 }

def pktTimerCancel (q : QueueId) (n : BitVec 2) (s : State) : State :=
  s.packet q 32 fun s _ => .done s fun r =>
    QSlot.setTimer r n.toNat { QSlot.timer r n.toNat with armed := false, pend := 0 }

/-- INDIRECT pushes its buffer; a fifth depth stops the queue (R334). -/
def pktIndirect (q : QueueId) (bytes : Word) (va : DWord) (s : State) : State :=
  s.packet q 16 fun s _ =>
    let k := match s.qrun q with
      | some r => QSlot.depth (s.qslot r.qcb)
      | none => 0
    if va.toNat % 16 ≠ 0 || bytes.toNat % 16 ≠ 0 then .stop s Cause.illegal
    else if 4 ≤ k then .stop s Cause.indirectDepth
    else .done s fun r => QSlot.setEntry (QSlot.setDepth r (k + 1)) (k + 1) va.toNat bytes.toNat

/-- A TIMETABLE of the queue has still to write its STATUS. -/
def owes (s : State) (q : QueueId) : Bool :=
  (s.parts.any fun e => e.2.launch.owed && e.2.launch.pasid == q.pasid && e.2.launch.queue == q.queue)
    || s.pkg.owed.any fun x => x.pasid == q.pasid && x.queue == q.queue

def pktFence (q : QueueId) (s : State) : State :=
  s.packet q 16 fun s _ => if s.owes q then .stay (s.modRun q fun r => { r with pkt := [6] }) else .done s id

/-- Send an MSI-X vector (R332, R372). -/
def sendMsi (s : State) (msi : Bool) (vec : BitVec 12) : State :=
  if msi && s.pkg.msixOn then { s with pkg := { s.pkg with msix := s.pkg.msix ++ [vec] } } else s

def pktSignal (q : QueueId) (maxi sz msi : Bool) (vec : BitVec 12) (va value : DWord) (s : State) : State :=
  s.packet q 32 fun s c =>
    let n := szBytes sz
    if misaligned va sz || 2048 ≤ vec.toNat then .stop s Cause.illegal
    else Pk.after (if maxi then s.frontRead q.die c va.toNat n else .ok (s, [])) fun s bs =>
      let v := value.toNat % 2 ^ (8 * n)
      Pk.after (s.frontWrite q.die c va.toNat true (leBytes n (max v (ofLe bs)))) fun s _ => .done (s.sendMsi msi vec) id

/-- TIMETABLE (R333, R337). -/
def pktTimetable (q : QueueId) (part : BitVec 8) (res : Bool) (image len src save status : DWord) (s : State) : State :=
  s.packet q 48 fun s c =>
    let head := match s.qrun q with
      | some r => QSlot.head (s.qslot r.qcb)
      | none => 0
    if status.toNat % 8 ≠ 0 then .stop s Cause.illegal
    else match s.timetable q.die c
      ⟨q.pasid, q.queue, head, part.toNat, res, image.toNat, len.toNat, src.toNat, save.toNat, status.toNat⟩ with
    | some s => .done s id
    | none => .stay s

/-! ### Fetching packets (R330, R332-R334) -/

/-- LEN of a packet type; none for an unassigned type. -/
def packetLen : Nat → Option Nat
  | 1 => some 3
  | 2 | 3 | 4 | 7 => some 2
  | 5 | 6 => some 1
  | _ => none

/-- Reserved bits and bytes of a packet are zero (R332). -/
def reservedOk (b : List Byte) : Bool :=
  let hi := recNum b 2 2
  let z (off n : Nat) : Bool := recNum b off n == 0
  match recNum b 0 1 with
  | 1 => decide (hi < 2 ^ 9) && z 4 4
  | 2 => decide (hi < 2) && z 4 4 && z 24 8
  | 3 => decide (hi < 8) && z 4 4
  | 4 => decide (hi < 16)
  | 5 => hi == 0
  | 6 => hi == 0 && z 4 12
  | _ => bits hi 1 1 == 0 && z 4 4 && z 24 8

/-- The next 16-byte units of a queue: where unit `i` lies. -/
def unitVa (r : List Byte) (i : Nat) : Nat :=
  if QSlot.depth r = 0 then QSlot.ring r + 16 * (QSlot.head r + i) % 2 ^ QSlot.rsize r
  else QSlot.entryVa r (QSlot.depth r) + 16 * i

def readUnits (s : State) (d c : Nat) (r : List Byte) (n : Nat) : Front (List Byte) :=
  (upto n).foldl (fun q i =>
    match q with
    | .error e => .error e
    | .ok (s, bs) => (s.frontRead d c (unitVa r i) 16).map fun p => (p.1, bs ++ p.2)) (.ok (s, []))

/-- Units that stand in the ring or the buffer; an error where TAIL has run ahead of the ring, or the ring is malformed. -/
def unitsLeft (s : State) (qcb : Nat) (r : List Byte) : Except Unit Nat :=
  let n := (s.qtail qcb + 2 ^ 32 - QSlot.head r) % 2 ^ 32
  let z := QSlot.rsize r
  if z < 12 || 30 < z || QSlot.ring r % 2 ^ z ≠ 0 || 2 ^ z / 16 < n then .error ()
  else .ok (if QSlot.depth r ≠ 0 then QSlot.entryLeft r (QSlot.depth r) / 16 else n)

/-- The next packet of a queue: none where nothing stands there, an error for what stops the queue (R333) or holds the read
(R368). -/
def fetchPacket (s : State) (q : QueueId) (qcb : Nat) : Front (Option (List Byte)) :=
  let r := s.qslot qcb
  match s.touchHbm qcb 0x300 with
  | (s, some _) => s.refuseFront Cause.ecc
  | (s, none) =>
  match s.unitsLeft qcb r with
  | .error _ => s.refuseFront Cause.illegal
  | .ok 0 => .ok (s, none)
  | .ok left =>
    match s.ctxOf q.pasid with
    | none => s.refuseFront Cause.translation
    | some c =>
      match s.readUnits q.die c r 1 with
      | .error e => .error e
      | .ok (s, h) =>
        match packetLen (recNum h 0 1) with
        | none => s.refuseFront Cause.illegal
        | some n =>
          if recNum h 1 1 ≠ n || left < n then s.refuseFront Cause.illegal
          else match s.readUnits q.die c r n with
          | .error e => .error e
          | .ok (s, b) => if reservedOk b then .ok (s, some b) else s.refuseFront Cause.illegal

/-- Run a packet's bytes (R332). -/
def runPacket (s : State) (q : QueueId) (b : List Byte) : State :=
  let hi := recNum b 2 2
  let w (off : Nat) : DWord := BitVec.ofNat 64 (recNum b off 8)
  match recNum b 0 1 with
  | 1 => s.pktTimetable q (BitVec.ofNat 8 hi) (bit hi 8) (w 8) (w 16) (w 24) (w 32) (w 40)
  | 2 => s.pktWrite q (bit hi 0) (w 8) (w 16)
  | 3 => s.pktWait q (BitVec.ofNat 2 hi) (bit hi 2) (w 8) (w 16) (w 24)
  | 4 =>
    if bit hi 3 then s.pktTimerCancel q (BitVec.ofNat 2 hi)
    else s.pktTimer q (BitVec.ofNat 2 hi) (bit hi 2) (BitVec.ofNat 32 (recNum b 4 4)) (w 8) (w 16) (w 24)
  | 5 => s.pktIndirect q (BitVec.ofNat 32 (recNum b 4 4)) (w 8)
  | 6 => s.pktFence q
  | _ => s.pktSignal q (bit hi 0) (bit hi 2) (bit hi 3) (BitVec.ofNat 12 (hi / 16)) (w 8) (w 16)

/-! ### Timers (R339, R340) -/

/-- A timer at slot boundary `b` (R340). -/
def visitTimer (b : Nat) (t : QSlot.Timer) : QSlot.Timer :=
  let due := t.armed && decide (t.next ≤ b)
  let step (t : QSlot.Timer) : QSlot.Timer :=
    if !due then t else if t.per then { t with next := (t.next + 600 * t.period) % 2 ^ 64 } else { t with armed := false }
  if t.busy then (if due then step { t with pend := min (t.pend + 1) 65535 } else t)
  else if 0 < t.pend || due then step { t with miss := t.pend, pend := 0, busy := true }
  else t

/-- The four timers of a slot at a slot boundary, in their order. -/
def visitSlot (b : Nat) (v : List Byte) : List Byte :=
  [0, 1, 2, 3].foldl (fun v n => QSlot.setTimer v n (visitTimer b (QSlot.timer v n))) v

/-- The timers of one queue at the slot boundaries that it has not been visited at; a change reaches the QCB by a commit. -/
def visitQueue (s : State) (r : QRun) : State :=
  if s.qcbHeld r.q r.qcb then s
  else
    let old := s.qslot r.qcb
    let new := r.slots.foldl (fun v b => visitSlot b v) old
    (if new = old then s else s.commit r.qcb new).modRun r.q fun r => { r with slots := [] }

/-- TIMER_SLOT_BOUNDARY: the leader visits the timers of its queues in order of PASID, queue, timer; a queue whose QCB a link holds it
visits as soon as it can (R340, R368). -/
def visitTimers (s : State) (d : Nat) : State :=
  if !s.alive d then s
  else
    let s := if s.slotBoundary then
        s.modRuns d fun rs => rs.map fun r => { r with slots := r.slots ++ [s.boundaryTick] } else s
    ((s.die d).fe.runs.filter fun r => !r.slots.isEmpty).foldl visitQueue s

/-- A released timer's buffer is entered at depth 1, at a packet boundary of the ring (R340). -/
def enterTimer (s : State) (q : QueueId) (qcb n : Nat) : State :=
  let r := s.qslot qcb
  let t := QSlot.timer r n
  (s.commit qcb (QSlot.setEntry (QSlot.setDepth r 1) 1 t.ib t.bytes)).modRun q fun x => { x with owner := some n }

/-- The compare registers as the firmware programs them: the earliest watchdog deadline, the next boundary with work
(R336, R340). -/
def programTimers (s : State) (d : Nat) : State :=
  let slots := (s.die d).fe.runs.map fun r => s.qslot r.qcb
  let least (l : List Nat) : Nat := match l with
    | [] => 0
    | x :: r => r.foldl min x
  let wd := least ((slots.map QSlot.wddl).filter (· != 0))
  let now := s.boundaryTick + 600
  let work := least (slots.flatMap fun r => [0, 1, 2, 3].filterMap fun n =>
    let t := QSlot.timer r n
    if t.armed then some (max now (ceilDiv t.next 600 * 600)) else if 0 < t.pend && !t.busy then some now else none)
  if slots.isEmpty then s
  else s.modDie d fun x => { x with wdcmp := BitVec.ofNat 64 wd, twnext := BitVec.ofNat 64 work }

/-! ### Leadership of queues (R343) -/

/-- QUEUE_LEADER_MOVE: a drained or throttled leader gives its queue away at a packet boundary; the lease holder gives away
the queue of a die in reset. -/
def moveLeader (s : State) (q : QueueId) : State :=
  if s.queueHeld q.die q.pasid.toNat q.queue.toNat then s
  else match s.walkQueue q.pasid.toNat q.queue.toNat with
  | none => s.markTable q.pasid.toNat
  | some (s, qcb) =>
    let r := s.qslot qcb
    let l := QSlot.leader r
    let between := match s.qrun { q with die := l } with
      | some x => x.wait.isNone
      | none => true
    let leaves := decide (l < 8) && ((s.dstate l == 2#2 || s.dstate l == 3#2) && between
      || (s.dstate l == 1#2 && (upto 8).any fun d => s.isLeader d))
    match s.lowestRunning with
    | some e =>
      if !leaves then s
      else
        ((s.commit qcb (QSlot.setLeader r e)).modRuns l fun rs => rs.filter fun x => x.q != { q with die := l }).handOver q e
    | none => s

/-! ### The front end's turn -/

/-- QUEUE_WATCHDOG (R336). -/
def watchdog (s : State) (q : QueueId) : State :=
  match s.qrun q with
  | some y =>
    if y.wait.isSome && QSlot.wddl (s.qslot y.qcb) ≠ 0 && QSlot.wddl (s.qslot y.qcb) ≤ s.time then
      s.stopQueue q Cause.watchdog
    else s
  | none => s

/-- The packet the queue stands at is fetched and run. -/
def runNext (s : State) (q : QueueId) (qcb : Nat) : State :=
  match s.fetchPacket q qcb with
  | .error (s, some cause) => s.stopQueue q cause
  | .error (s, none) => s
  | .ok (s, none) => s
  | .ok (s, some b) => s.runPacket q b

/-- A packet in progress goes on: a FENCE and a WAIT look again, any other that a link has held is fetched again. -/
def goOn (s : State) (q : QueueId) (x : QRun) : State :=
  if x.pkt.isEmpty then s.runNext q x.qcb
  else if recNum x.pkt 0 1 = 6 then s.pktFence q
  else s.recheckWait q

/-- What the front end does for a queue in a tick: what is in progress goes on; otherwise a released timer's buffer is
entered, or the next packet starts (R333, R335, R336, R340). -/
def frontStep (s : State) (q : QueueId) : State :=
  match s.qrun q with
  | none => s
  | some x =>
    let r := s.qslot x.qcb
    if !s.alive q.die || s.qcbHeld q x.qcb then s
    else if QSlot.leader r ≠ q.die && QSlot.leader r ≠ 0xFF then s.modRuns q.die fun rs => rs.filter fun y => y.q != q
    else match x.wait with
    | some _ => (s.goOn q x).watchdog q
    | none =>
      if s.dstate q.die ≠ 0#2 then s.moveLeader q
      else if !s.runs q then s
      else
        match if QSlot.depth r = 0 then [0, 1, 2, 3].find? fun n => (QSlot.timer r n).busy else none with
        | some n => s.enterTimer q x.qcb n
        | none => s.runNext q x.qcb

end State

/-! ### The table's rows -/

def execDoorbell (off : BitVec 16) (data : List Byte) (s : State) : Out := .next (s.writeBar0 off.toNat data)
def execDoorbellService (d : Nat) (s : State) : Out := .next (s.serveDoorbell d)
def execTimetable (q : QueueId) (part : BitVec 8) (res : Bool) (image len src save status : BitVec 64) (s : State) : Out :=
  .next (s.pktTimetable q part res image len src save status)
def execWrite (q : QueueId) (sz : Bool) (va value : BitVec 64) (s : State) : Out := .next (s.pktWrite q sz va value)
def execWait (q : QueueId) (op : BitVec 2) (sz : Bool) (va value mask : BitVec 64) (s : State) : Out :=
  .next (s.pktWait q op sz va value mask)
def execWaitSlotCheck (q : QueueId) (s : State) : Out := .next (s.recheckWait q)
def execTimer (q : QueueId) (n : BitVec 2) (per : Bool) (period : BitVec 32) (time ib bytes : BitVec 64) (s : State) : Out :=
  .next (s.pktTimer q n per period time ib bytes)
def execTimerCancel (q : QueueId) (n : BitVec 2) (s : State) : Out := .next (s.pktTimerCancel q n)
def execIndirect (q : QueueId) (bytes : BitVec 32) (va : BitVec 64) (s : State) : Out := .next (s.pktIndirect q bytes va)
def execFence (q : QueueId) (s : State) : Out := .next (s.pktFence q)
def execSignalStore (q : QueueId) (sz msi : Bool) (vec : BitVec 12) (va value : BitVec 64) (s : State) : Out :=
  .next (s.pktSignal q false sz msi vec va value)
def execSignalMax (q : QueueId) (sz msi : Bool) (vec : BitVec 12) (va value : BitVec 64) (s : State) : Out :=
  .next (s.pktSignal q true sz msi vec va value)
def execQueueWatchdog (q : QueueId) (s : State) : Out := .next (s.watchdog q)
def execTimerSlotBoundary (d : Nat) (s : State) : Out := .next (s.visitTimers d)
def execQueueLeaderMove (q : QueueId) (s : State) : Out := .next (s.moveLeader q)

end Sys2Proof.Machine
end

