-- ==== Sys2Proof/Machine/Mailbox.lean ====
section
/-! DEFINITION. The leader lease and the host mailbox with its requests (R324, R341, R342, R344, R345, R383). -/

namespace Sys2Proof.Machine

namespace State

/-! ### The lease (R341, R342) -/

/-- Where the lease word lies. -/
def leaseAt (s : State) : Nat := s.pkg.leasepa.toNat * 8
def leaseWord (s : State) : DWord := BitVec.ofNat 64 (s.physNum s.leaseAt 8)
/-- The lease of a die from now: 10 ms. -/
def leaseOf (s : State) (d : Nat) : DWord := BitVec.ofNat 8 d ++ BitVec.ofNat 56 ((s.time + 6000000) / 16 % 2 ^ 52)
/-- The lease that nobody holds. -/
def leaseFree : DWord := 0xFF00000000000000
/-- A die's accesses to the lease word are held at a link (R368; log 30). -/
def leaseHeld (s : State) (d : Nat) : Bool := s.addrHeld (Config.dieSite d) s.leaseAt
/-- The lease word as read; none where ECC cannot correct it (R375). -/
def readLease (s : State) : State × Option DWord :=
  match s.touchHbm s.leaseAt 8 with
  | (s, some _) => (s, none)
  | (s, none) => (s, some s.leaseWord)
/-- An ACAS of the lease word (R175): whether it succeeds. One that ECC cannot correct fails it (R375; log 68). -/
def casLease (s : State) (old new : DWord) : State × Bool :=
  match s.readLease with
  | (s, some v) => if v = old then (s.physWrite s.leaseAt (leBytes 8 new.toNat), true) else (s, false)
  | (s, none) => (s, false)
def modFe (s : State) (d : Nat) (f : Fe → Fe) : State := s.modDie d fun x => { x with fe := f x.fe }

/-- LEASE_RENEW: the holder renews from the value it last wrote; a failed ACAS ends its holding. A drained or throttled
holder releases the lease instead, and signals every die. Where a link holds the ACAS it is made as soon as it can be (R368). -/
def renewLease (s : State) (d : Nat) : State :=
  match (s.die d).fe.lease with
  | none => s
  | some old =>
    if !s.alive d || s.leaseHeld d then s
    else if s.dstate d ≠ 0#2 then
      ((s.casLease old leaseFree).1.modFe d fun f => { f with lease := none, acting := false }).sendEvents 0xFF
    else
      let new := s.leaseOf d
      match s.casLease old new with
      | (s, true) => s.modFe d fun f => { f with lease := some new, acting := true, nextRenew := s.time + 1200000 }
      | (s, false) => s.modFe d fun f => { f with lease := none, acting := false }

/-- LEASE_EXPIRY: the holder stops acting at the E it last wrote. -/
def expireLease (s : State) (d : Nat) : State :=
  match (s.die d).fe.lease with
  | some v => if leaseEnd v ≤ s.time then s.modFe d fun f => { f with acting := false } else s
  | none => s

/-- Package time has reached, in this tick, a multiple of 60,000 plus 6,000 times the die's number (R342). -/
def lapseSlot (s : State) (d : Nat) : Bool := (s.time + 60000 - 6000 * d) / 60000 != (s.pkg.prev + 60000 - 6000 * d) / 60000

/-- LEASE_TAKEOVER: a running die other than the holder attempts in its slot of the round, 1 ms after E; where a link holds its access
or ECC cannot correct the word it makes no attempt in that round (logs 30, 68). A die that restarted while the word names it has lost
the value it wrote: whether R342's `other than the holder` then bars it the manual does not say, and here it may attempt (the model's
choice; log 68). -/
def takeLease (s : State) (d : Nat) : State :=
  if !s.alive d || s.dstate d ≠ 0#2 || (s.die d).fe.lease.isSome || !s.lapseSlot d || s.leaseHeld d then s
  else match s.readLease with
  | (s, none) => s
  | (s, some old) =>
    if s.time < leaseEnd old + 600000 then s
    else
      let new := s.leaseOf d
      (s.casLease old new).1.modFe d fun f => { f with
        lease := some new, acting := true, nextRenew := s.time + 1200000, rescan := true }

/-! ### Mailbox entries (R344) -/

def mbxAt (s : State) (e : Nat) : Nat := s.pkg.mbxpa.toNat * 4096 + 256 * e
/-- A die's accesses to the mailbox are held at a link (R368; log 30). -/
def mbxHeld (s : State) (d : Nat) : Bool := s.addrHeld (Config.dieSite d) (s.mbxAt 0)
/-- A field of ARGS. -/
def mbxArg (s : State) (e off n : Nat) : Nat := s.physNum (s.mbxAt e + 0x10 + off) n

/-- What becomes of a request: performed, refused, or pending. -/
inductive Req
  | done (s : State)
  | refused (s : State)
  | pending (s : State)

/-- Performed, or refused with nothing changed. -/
def Req.of (s : State) : Option State → Req
  | some s => .done s
  | none => .refused s

/-- A request of the entry waits for its end. -/
def reqPending (s : State) (d e : Nat) : Bool :=
  (s.parts.any fun p => p.2.preempt.contains e) || (s.pkg.replies.any fun r => r.1 == e) || match (s.die d).fe.inval with
    | some (k, _) => k == e
    | none => false

/-- The leader performs entry `e` when it asks for `code`, and answers (R344). A request that a link holds stays asked (R368), and an
entry that ECC cannot correct is not served (R375; log 68). -/
def request (s : State) (d e code : Nat) (f : State → Req) : State :=
  let a := s.mbxAt e
  if !s.isLeader d || 16 ≤ e || s.mbxHeld d || s.physNum a 4 == s.physNum (a + 8) 4 || s.physNum (a + 4) 1 != code
      || s.reqPending d e then s
  else match s.touchHbm a 256 with
  | (s, some _) => s
  | (s, none) =>
    match f s with
    | .done s => s.answer e 0
    | .refused s => s.answer e 0x18
    | .pending s => s

/-- Writes of configuration registers by the leader, one after another (R322). -/
def configure (s : State) (d p : Nat) : List (BitVec 8 × DWord) → Option State
  | [] => some s
  | w :: r =>
    match { s with pkg := { s.pkg with psel := BitVec.ofNat 3 p } }.writeConfig d w.1 w.2 with
    | some s => configure s d p r
    | none => none

/-- CREATE: PRGN, PREC and then PCFG, or nothing. -/
def reqCreate (d e : Nat) (s : State) : Req :=
  let p := s.mbxArg e 0 1
  let slim := s.mbxArg e 4 4
  let rgn := s.mbxArg e 8 8
  let nleaf := s.mbxArg e 0x10 2
  let rcd := s.mbxArg e 0x18 8
  if 8 ≤ p || rgn % 0x200000 ≠ 0 || rcd % 0x200000 ≠ 0 || 2 ^ 44 ≤ rgn || 2 ^ 44 ≤ rcd || 4096 < nleaf || 2 ^ 24 ≤ slim
  then .refused s
  else .of s (s.configure d p
    [ (0x46, BitVec.ofNat 64 (rgn + nleaf)), (0x47, BitVec.ofNat 64 rcd),
      (0x45, BitVec.ofNat 64 (2 ^ 63 + s.mbxArg e 1 1 * 2 ^ 48 + slim * 2 ^ 24 + s.mbxArg e 2 1)) ])

/-- DESTROY: PCFG.V := 0. -/
def reqDestroy (d e : Nat) (s : State) : Req :=
  let p := s.mbxArg e 0 1
  let q := s.part p
  if 8 ≤ p then .refused s
  else .of s (s.configure d p [(0x45, 0#8 ++ q.ctx ++ q.slim ++ 0#16 ++ q.dies)])

/-- The lowest leaf of a pool that its directory does not name. -/
def freeLeaf (s : State) (q : Part) : Option Nat :=
  let used := s.leavesOf q
  (upto (used.length + 1)).find? fun k => !used.contains k && decide (k < q.nleaf.toNat)

/-- The entry of one granule is set; a malformed entry, or no leaf, refuses the request (R324). -/
def mapGranule (s : State) (q : Part) (va ent : Nat) : Option State :=
  let i := bits va 51 36
  let dir := poolBase q + 8 * i
  let put (s : State) (k : Nat) : Option State :=
    let a := poolBase q + 0x80000 + 0x40000 * k + 8 * bits va 35 21
    let old := s.physNum a 8
    if 3 < bits old 61 59 || 64 * q.diesOf.length ≤ bits old 58 50 then none else some (s.physWrite a (leBytes 8 ent))
  match s.regionDir q i with
  | .error _ => none
  | .ok (some k) => put s k
  | .ok none =>
    match s.freeLeaf q with
    | none => none
    | some k => put (s.physWrite dir (leBytes 8 (2 ^ 63 + k))) k

/-- MAP: COUNT granules from VA, all or none; an entry that ECC cannot correct refuses it as a malformed one does (R375; log 68). -/
def reqMap (d e : Nat) (s : State) : Req :=
  let p := s.mbxArg e 0 1
  let q := s.part p
  let sc := s.mbxArg e 1 1
  let owner := s.mbxArg e 2 2
  let n := s.mbxArg e 4 4
  let va := s.mbxArg e 8 8
  let none' := owner == 0xFFFF
  let ent := 2 ^ 63 + (if sc ≠ 0 then 2 ^ 62 else 0) + (if sc ≠ 0 || none' then 3 * 2 ^ 59 else 0)
    + (if none' then 0 else owner * 2 ^ 50)
  if 8 ≤ p || q.active || (!none' && decide (64 * q.diesOf.length ≤ owner)) || 2 ^ 52 < 0x200000 * (va / 0x200000) + 0x200000 * n
  then .refused s
  else if s.areaHeld d (poolBase q) (0x80000 + 0x40000 * q.nleaf.toNat) then .pending s
  else match s.touchWords ((upto n).flatMap fun i => s.regionWords p (0x200000 * (va / 0x200000) + 0x200000 * i)) with
  | (s, some _) => .refused s
  | (s, none) => .of s ((upto n).foldl (fun r i => r.bind fun s => mapGranule s q (0x200000 * (va / 0x200000) + 0x200000 * i) ent) (some s))

/-- CONTEXT: CTXE of a slot. R344 does not say whether ROOT is CTXE's field or an address: here it is the byte address of the level-0
table, and one that is no multiple of 64 KiB or not below 2^44 is refused (R314; the model's choice, log 68). -/
def reqContext (_d e : Nat) (s : State) : Req :=
  let slot := s.mbxArg e 0 1
  let v := s.mbxArg e 1 1
  let pasid := s.mbxArg e 4 4
  let root := s.mbxArg e 8 8
  if 2 ^ 20 ≤ pasid || root % 0x10000 ≠ 0 || 2 ^ 44 ≤ root then .refused s
  else .of s ({ s with pkg := { s.pkg with ctxsel := BitVec.ofNat 8 slot } }.writeCtx slot
    (BitVec.ofNat 64 ((if v ≠ 0 then 2 ^ 63 else 0) + pasid * 2 ^ 36 + root / 0x10000)))

/-- INVAL: TLBI or TLBIA (R305): pending while a copy uses a removed entry. -/
def reqInval (d e : Nat) (s : State) : Req :=
  let c := s.mbxArg e 0 1
  let all := s.mbxArg e 1 1 != 0
  let va := s.mbxArg e 8 8
  let hit (x : TluEnt) : Bool := x.ctx == c && (all || (decide (x.va ≤ va) && decide (va < x.va + x.size)))
  if !all && 2 ^ 52 ≤ va then .refused s
  else
    let ids := (s.dies.flatMap fun (k : Nat × Die) => k.2.tlu.filter hit).map (·.id)
    let s := { s with dies := s.dies.map fun (k : Nat × Die) => (k.1, { k.2 with tlu := k.2.tlu.filter fun x => !hit x }) }
    if s.copies.any fun c => c.pages.any fun p => ids.contains p.2.2.2.2 then
      .pending (s.modFe d fun f => { f with inval := some (e, ids) })
    else .done s

/-- PREEMPT: pending unless R345 refuses it. -/
def reqPreempt (_d e : Nat) (s : State) : Req :=
  let p := s.mbxArg e 0 1
  let q := s.part p
  let live := match q.st with
    | .armed | .open_ | .extended | .held | .boundary => true
    | _ => false
  if 8 ≤ p || !q.v || !live || q.launch.save = 0 then .refused s
  else .pending (s.modPart p fun q => { q with preempt := q.preempt ++ [e] })

/-- QRESET: the queue's leader commits STATE 0, DEPTH 0, HEAD := TAIL, WDDL 0, CAUSE 0. -/
def reqQreset (d e : Nat) (s : State) : Req :=
  let pasid := s.mbxArg e 4 4
  if pasid < 2 ^ 20 && s.queueHeld d pasid (s.mbxArg e 0 1) then .pending s
  else match if pasid < 2 ^ 20 then s.walkQueue pasid (s.mbxArg e 0 1) else none with
  | none => .refused (if pasid < 2 ^ 20 then s.markTable pasid else s)
  | some (s, qcb) =>
    let r := s.qslot qcb
    let r' := QSlot.setCause (QSlot.setWddl (QSlot.setHead (QSlot.setDepth (QSlot.setState r 0) 0) (s.qtail qcb)) 0) 0
    .done ((s.commit qcb r').modRuns (QSlot.leader r) fun rs => rs.map fun x =>
      if x.qcb = qcb then { x with wait := none, pkt := [], owner := none } else x)

/-- Bytes of a digest, and of a 96-byte key or signature. -/
def digestBytes (v : BitVec 384) : List Byte := leBytes 48 v.toNat
def pairBytes (v : BitVec 768) : List Byte := (leBytes 96 v.toNat).reverse

/-- The attestation report up to its signature (R383). -/
def reportBody (s : State) (d : Nat) (nonce : List Byte) : List Byte :=
  let f := s.fwc d
  leBytes 4 0x52514C51 ++ leBytes 2 f.ver.toNat ++ leBytes 2 0 ++ leBytes 8 remap.toNat ++ leBytes 8 s.time
    ++ digestBytes Config.romDigest ++ digestBytes f.patchDigest
    ++ (upto 8).flatMap (fun p => digestBytes (s.part p).img.digest) ++ nonce ++ pairBytes Config.identityKey

/-- ATTEST: the report is written to a multiple of 8 in HBM. -/
def reqAttest (d e : Nat) (s : State) : Req :=
  let pa := s.mbxArg e 48 8
  if pa % 8 ≠ 0 || hbmTop < pa + 0x2E8 || s.storeRefused pa 0x2E8 then .refused s
  else if s.areaHeld d pa 0x2E8 then .pending s
  else
    let body := s.reportBody d (s.physRead (s.mbxAt e + 0x10) 48)
    .done (s.physWrite pa (body ++ pairBytes (Config.signReport body)))

/-- An INVAL that waits ends once no copy uses what it removed (R305, R344). -/
def endInval (s : State) (d : Nat) : State :=
  match (s.die d).fe.inval with
  | none => s
  | some (e, ids) =>
    if s.copies.any fun c => c.pages.any fun p => ids.contains p.2.2.2.2 then s
    else (s.answer e 0).modFe d fun f => { f with inval := none }

/-- An entry whose REQ names no request is refused. -/
def serveEntry (s : State) (d e : Nat) : State :=
  if (s.die d).fe.inval.isSome then s
  else match s.physNum (s.mbxAt e + 4) 1 with
  | 1 => s.request d e 1 (reqCreate d e)
  | 2 => s.request d e 2 (reqDestroy d e)
  | 3 => s.request d e 3 (reqMap d e)
  | 4 => s.request d e 4 (reqContext d e)
  | 5 => s.request d e 5 (reqInval d e)
  | 6 => s.request d e 6 (reqPreempt d e)
  | 7 => s.request d e 7 (reqQreset d e)
  | 8 => s.request d e 8 (reqAttest d e)
  | n => s.request d e n fun s => .refused s

/-- MAILBOX_SCAN: the entries in index order (R344); a scan that a link holds is made as soon as it can be (R368). -/
def scanMailbox (s : State) (d : Nat) : State :=
  if !s.isLeader d || s.pkg.boot ≠ 10 then s
  else if s.mbxHeld d then s.modFe d fun f => { f with scan := true }
  else
    let s := if (s.die d).fe.scan then s.modFe d fun f => { f with scan := false } else s
    (upto 16).foldl (fun s e => s.serveEntry d e) (s.endInval d)

end State

def execLeaseRenew (d : Nat) (s : State) : Out := .next (s.renewLease d)
def execLeaseExpiry (d : Nat) (s : State) : Out := .next (s.expireLease d)
def execLeaseTakeover (d : Nat) (s : State) : Out := .next (s.takeLease d)
def execMailboxScan (d : Nat) (s : State) : Out := .next (s.scanMailbox d)
def execCreate (d e : Nat) (s : State) : Out := .next (s.request d e 1 (State.reqCreate d e))
def execDestroy (d e : Nat) (s : State) : Out := .next (s.request d e 2 (State.reqDestroy d e))
def execMap (d e : Nat) (s : State) : Out := .next (s.request d e 3 (State.reqMap d e))
def execContext (d e : Nat) (s : State) : Out := .next (s.request d e 4 (State.reqContext d e))
def execInval (d e : Nat) (s : State) : Out := .next (s.request d e 5 (State.reqInval d e))
def execPreempt (d e : Nat) (s : State) : Out := .next (s.request d e 6 (State.reqPreempt d e))
def execQreset (d e : Nat) (s : State) : Out := .next (s.request d e 7 (State.reqQreset d e))
def execAttest (d e : Nat) (s : State) : Out := .next (s.request d e 8 (State.reqAttest d e))

end Sys2Proof.Machine
end

