-- ==== Sys2Proof/Machine/Boot.lean ====
section
/-! DEFINITION. Bring-up and the function-level reset (R361, R382, R386, R387). -/

namespace Sys2Proof.Machine

namespace State

/-- READY, at physical 0x8 (R387). -/
def writeReady (s : State) (v : Nat) : State := s.physWrite 8 (leBytes 4 v)

/-- The patch store, which step 7 keeps: its header, as much code as it may have, its signature (R382). -/
def patchStore : Nat := 0x100000
def patchStoreEnd : Nat := patchStore + 256 + 4 * 8192 + 96

/-- Step 7: every FWC that is not in reset starts at ROM word 0, and low memory is zeroed but for the patch store. -/
def startCores (s : State) : State :=
  let s := (upto 8).foldl (fun s d => if s.alive d then s.restartFwc d else s) s
  let kept (a n : Nat) : Bool := decide (0x1000000 ≤ a) || (decide (patchStore ≤ a) && decide (a + n ≤ patchStoreEnd))
  { s with mem := s.mem.filter fun e => kept e.1 1, hbm := s.hbm.filter fun m => kept (32 * m.1) 32 }

/-- Step 8: the election starts from a lease nobody holds (R341). -/
def startElection (s : State) : State :=
  { s with pkg := { s.pkg with leasepa := 0 } }.physWrite 0 (leBytes 8 leaseFree.toNat)

/-- Step 9: the queues are ready; a doorbell rung before is not served. -/
def openQueues (s : State) : State :=
  { s with
    dies := s.dies.map fun (e : Nat × Die) => (e.1, { e.2 with dbq := [], ovf := false })
    pkg := { s.pkg with mbxpa := 1, qtbase := 1, qen := true, msixOn := true, boot := 10 } }.writeReady 1

/-- A step before step 7 fails for these dies: they are held in reset and logged, and bring-up stops. -/
def failStep (s : State) (n : Nat) (ds : List Nat) : State :=
  let s := ds.foldl (fun s d =>
    { s with pkg := { s.pkg with dreset := s.pkg.dreset ||| BitVec.ofNat 8 (2 ^ d) } }.log d 0 1 6 0 0 0 0 (BitVec.ofNat 64 n)) s
  { s with pkg := { s.pkg with boot := 11 } }.writeReady (0x80000000 + n)

/-- A step before step 7, on every die of the package. The hidden die's failure goes to the log of die 0, and bring-up goes on
(R376, R387). -/
def bootStep (s : State) (n : Nat) (f : State → State) : State :=
  let s := if Config.stepFails n 8 then s.log 0 0 1 6 0 0 0 0 (BitVec.ofNat 64 n) else s
  match (upto 8).filter fun d => Config.stepFails n d with
  | [] => f s
  | ds => s.failStep n ds

/-- The mesh links, and the ports. -/
def meshLinks : List Nat := upto 12
def portLinks : List Nat := (upto 8).map (16 + ·)

/-- Steps 1 to 3, and the start of step 4: fuses, remap, HBM; package time 0; links and ports leave DOWN. -/
def powerOn (s : State) : State :=
  s.bootStep 1 fun s => s.bootStep 2 fun s => s.bootStep 3 fun s =>
    let s := { s with time := 0, pkg := { s.pkg with prev := 0, boot := 4 } }
    let s := s.writeReady 0
    (meshLinks ++ portLinks).foldl (fun s k => s.startAttempt k 1) s

/-- Step 5, PCI Express training, and the start of step 6: the first press on every tile. -/
def firstPress (s : State) : State :=
  s.bootStep 5 fun s => s.bootStep 6 fun s =>
    let s := (upto 8).foldl startPress s
    { s with pkg := { s.pkg with boot := 6 } }

/-- BRING_UP goes on by one step whose predecessor is complete (R387). -/
def bringUp (s : State) : State :=
  match s.pkg.boot with
  | 0 => s.powerOn
  | 4 =>
    if meshLinks.any fun k => (s.link k).st == .failed then s.failStep 4 []
    else if (meshLinks ++ portLinks).any fun k => (s.link k).st == .training then s
    else s.firstPress
  | 6 => if (upto 8).any fun d => (s.die d).pressAt.isSome then s else { s with pkg := { s.pkg with boot := 7 } }
  | 7 => let s := s.startCores.startElection; { s with pkg := { s.pkg with boot := 8 } }
  | 8 => if (upto 8).any fun d => (s.die d).fe.lease.isSome then s.openQueues else s
  | _ => s

/-- FUNCTION_LEVEL_RESET: partitions enter ABORTED without STATUS, doorbells go, the ATS cache empties, MSI-X is disabled,
and the FWCs start again with steps 7 to 9 (R386); a bring-up that has still to reach step 7 goes on to it, one that has failed stays
failed (R387). -/
def flr (s : State) : State :=
  let s := s.parts.foldl (fun s e =>
    if e.2.active then
      (s.abortPart e.1).modPart e.1 fun q => { q with
        launch := { q.launch with owed := false }, preempt := [], opening := [], next := none, saveLeft := [] }
    else s) s
  let s := { s with dies := s.dies.map fun (e : Nat × Die) => (e.1, { e.2 with dbq := [], ovf := false }) }
  { s with pkg := { s.pkg with
    qen := false, ats := [], invals := [], inbound := s.pkg.inbound.filter (·.port.isSome), msixOn := false
    boot := if s.pkg.boot < 7 || s.pkg.boot = 11 then s.pkg.boot else 7 } }

end State

def execBringUp (s : State) : Out := .next s.bringUp
def execFunctionLevelReset (s : State) : Out := .next s.flr

end Sys2Proof.Machine
end

