-- ==== Sys2Proof/Machine/Integer.lean ====
section
/-! DEFINITION. CTL words that only compute: idle, integer, logic, shift, select, constant, latch-read, compare and
predicate words (R161-R165, R182). -/

namespace Sys2Proof.Machine

/-! ### Results -/

/-- The lesser and the greater, signed (R161). -/
def sMin (a b : Word) : Word := if a.toInt ≤ b.toInt then a else b
def sMax (a b : Word) : Word := if b.toInt ≤ a.toInt then a else b
/-- The lesser and the greater, unsigned (R161). -/
def uMin (a b : Word) : Word := if a.toNat ≤ b.toNat then a else b
def uMax (a b : Word) : Word := if b.toNat ≤ a.toNat then a else b

/-- SHL, SHR, SAR by 0 to 63 (R161). -/
def shlW (a : Word) (n : Nat) : Word := a <<< n
def shrW (a : Word) (n : Nat) : Word := a >>> n
def sarW (a : Word) (n : Nat) : Word := a.sshiftRight n

/-- The shift amount b<5:0> (R161). -/
def shAmt (b : Word) : Nat := (b.extractLsb' 0 6).toNat

/-- Bits 63:32 of the exact product (R162). -/
def mulHiS (a b : Word) : Word := ((a.signExtend 64 * b.signExtend 64).extractLsb' 32 32)
def mulHiZ (a b : Word) : Word := ((a.setWidth 64 * b.setWidth 64).extractLsb' 32 32)

/-- Quotient and remainder, signed (R162). -/
def divS (a b : Word) : Word × Word :=
  if b = 0#32 then (0xFFFFFFFF#32, a) else (wordOf (a.toInt.tdiv b.toInt), wordOf (a.toInt.tmod b.toInt))
/-- Quotient and remainder, unsigned (R162). -/
def divZ (a b : Word) : Word × Word :=
  if b = 0#32 then (0xFFFFFFFF#32, a) else (BitVec.ofNat 32 (a.toNat / b.toNat), BitVec.ofNat 32 (a.toNat % b.toNat))

/-- Leading zero bits among the low `n` bits of `a`. -/
def clzN : Nat → Word → Nat
  | 0, _ => 0
  | n + 1, a => if a.getLsbD n then 0 else 1 + clzN n a
/-- One bits among the low `n` bits of `a`. -/
def popN : Nat → Word → Nat
  | 0, _ => 0
  | n + 1, a => (if a.getLsbD n then 1 else 0) + popN n a

/-- The field of BFX and BFI: position and effective width (R163). -/
def bfPos (b : Word) : Nat := (b.extractLsb' 0 5).toNat
def bfWidth (b : Word) : Nat := min ((b.extractLsb' 8 5).toNat + 1) (32 - bfPos b)
/-- Ones in the low `n` bits. -/
def onesW (n : Nat) : Word := BitVec.ofNat 32 (2 ^ n - 1)
def bfxW (a b : Word) : Word := (a >>> bfPos b) &&& onesW (bfWidth b)
def bfiW (d a b : Word) : Word :=
  (d &&& ~~~(onesW (bfWidth b) <<< bfPos b)) ||| ((a &&& onesW (bfWidth b)) <<< bfPos b)

/-! ### Shared shapes -/

/-- rd := f(ra, rb), latency 1 unless given (R161). -/
def execRR (h : Ring) (lat : Nat) (rd ra rb : SReg) (f : Word → Word → Word) : State → Out :=
  ctlPure (.late h lat) fun c => putS lat rd (f (c.rS ra) (c.rS rb))

/-- rd := f(ra). -/
def execR (h : Ring) (rd ra : SReg) (f : Word → Word) : State → Out :=
  ctlPure (.cx h) fun c => putS 1 rd (f (c.rS ra))

/-- pd := f(ra, rb). -/
def execCmp (h : Ring) (pd : PReg) (ra rb : SReg) (f : Word → Word → Bool) : State → Out :=
  ctlPure (.cx h) fun c => putP 1 pd (f (c.rS ra) (c.rS rb))

/-- pd := f(ra, imm). -/
def execCmpI (h : Ring) (pd : PReg) (ra : SReg) (imm : Word) (f : Word → Word → Bool) : State → Out :=
  ctlPure (.cx h) fun c => putP 1 pd (f (c.rS ra) imm)

/-- pd := f(pa, pb). -/
def execPred (h : Ring) (pd pa pb : PReg) (f : Bool → Bool → Bool) : State → Out :=
  ctlPure (.cx h) fun c => putP 1 pd (f (c.rP pa) (c.rP pb))

/-- A divide stalls until the earlier divide has landed; the latch takes remainder and quotient (R158, R162). -/
def execDiv (h : Ring) (rd ra rb : SReg) (f : Word → Word → Word × Word) : State → Out :=
  ctlWord (.late h 18) fun s =>
    let c := s.ctl
    if s.cycle < c.divFree then .wait
    else
      let qm := f (c.rS ra) (c.rS rb)
      .go (s.modCtl fun c => { c with divFree := s.cycle + 18 })
        (Eff.of [(18, .sreg rd qm.1), (18, .alu (qm.2 ++ qm.1))])

/-! ### Idle (R182) -/

/-- NOP idles for max(1, n) cycles; its ring bits still act. -/
def execNop (h : Ring) (n : BitVec 16) : State → Out :=
  ctlWord ⟨h, 1, .cx, max 1 n.toNat, 1, false⟩ fun s => .go s ⟨[], max 1 n.toNat, 1, none, 0⟩

/-! ### Integer and logic (R161, R162) -/

def execAdd (h : Ring) (rd ra rb : SReg) : State → Out := execRR h 1 rd ra rb (· + ·)
def execSub (h : Ring) (rd ra rb : SReg) : State → Out := execRR h 1 rd ra rb (· - ·)
def execMin (h : Ring) (rd ra rb : SReg) : State → Out := execRR h 1 rd ra rb sMin
def execMax (h : Ring) (rd ra rb : SReg) : State → Out := execRR h 1 rd ra rb sMax
def execMinz (h : Ring) (rd ra rb : SReg) : State → Out := execRR h 1 rd ra rb uMin
def execMaxz (h : Ring) (rd ra rb : SReg) : State → Out := execRR h 1 rd ra rb uMax
def execAdda (h : Ring) (rd ra rb : SReg) (k : BitVec 2) : State → Out :=
  execRR h 1 rd ra rb fun a b => a + b <<< k.toNat
def execMul (h : Ring) (rd ra rb : SReg) : State → Out := execRR h 3 rd ra rb (· * ·)
def execMulh (h : Ring) (rd ra rb : SReg) : State → Out := execRR h 3 rd ra rb mulHiS
def execMulhz (h : Ring) (rd ra rb : SReg) : State → Out := execRR h 3 rd ra rb mulHiZ
def execDivs (h : Ring) (rd ra rb : SReg) : State → Out := execDiv h rd ra rb divS
def execDivz (h : Ring) (rd ra rb : SReg) : State → Out := execDiv h rd ra rb divZ
def execAnd (h : Ring) (rd ra rb : SReg) : State → Out := execRR h 1 rd ra rb (· &&& ·)
def execOr (h : Ring) (rd ra rb : SReg) : State → Out := execRR h 1 rd ra rb (· ||| ·)
def execXor (h : Ring) (rd ra rb : SReg) : State → Out := execRR h 1 rd ra rb (· ^^^ ·)
def execShl (h : Ring) (rd ra rb : SReg) : State → Out := execRR h 1 rd ra rb fun a b => shlW a (shAmt b)
def execShr (h : Ring) (rd ra rb : SReg) : State → Out := execRR h 1 rd ra rb fun a b => shrW a (shAmt b)
def execSar (h : Ring) (rd ra rb : SReg) : State → Out := execRR h 1 rd ra rb fun a b => sarW a (shAmt b)
def execAddi (h : Ring) (rd ra : SReg) (imm : BitVec 8) : State → Out := execR h rd ra (· + imm.signExtend 32)
def execAndi (h : Ring) (rd ra : SReg) (imm : BitVec 8) : State → Out := execR h rd ra (· &&& imm.setWidth 32)
def execOri (h : Ring) (rd ra : SReg) (imm : BitVec 8) : State → Out := execR h rd ra (· ||| imm.setWidth 32)
def execXori (h : Ring) (rd ra : SReg) (imm : BitVec 8) : State → Out := execR h rd ra (· ^^^ imm.setWidth 32)
def execShli (h : Ring) (rd ra : SReg) (imm : BitVec 5) : State → Out := execR h rd ra (shlW · imm.toNat)
def execShri (h : Ring) (rd ra : SReg) (imm : BitVec 5) : State → Out := execR h rd ra (shrW · imm.toNat)
def execSari (h : Ring) (rd ra : SReg) (imm : BitVec 5) : State → Out := execR h rd ra (sarW · imm.toNat)

/-! ### Bit counts and fields (R163) -/

def execClz (h : Ring) (rd ra : SReg) : State → Out := execR h rd ra fun a => BitVec.ofNat 32 (clzN 32 a)
def execPopc (h : Ring) (rd ra : SReg) : State → Out := execR h rd ra fun a => BitVec.ofNat 32 (popN 32 a)
def execMov (h : Ring) (rd ra : SReg) : State → Out := execR h rd ra id
def execBfx (h : Ring) (rd ra rb : SReg) : State → Out := execRR h 1 rd ra rb bfxW
def execBfi (h : Ring) (rd ra rb : SReg) : State → Out :=
  ctlPure (.cx h) fun c => putS 1 rd (bfiW (c.rS rd) (c.rS ra) (c.rS rb))

/-! ### Select, constants, latch reads (R164) -/

def execSel (h : Ring) (rd ra rb : SReg) (neg : Bool) (p : PReg) : State → Out :=
  ctlPure (.two h) fun c => putS 1 rd (if c.rP p != neg then c.rS ra else c.rS rb)
def execLi (h : Ring) (rd : SReg) (imm : BitVec 32) : State → Out := ctlPure (.two h) fun _ => putS 1 rd imm
/-- The high register takes the immediate; only it is written, and the latch takes the pair (R164). -/
def execLih (h : Ring) (rd : SReg) (imm : BitVec 32) : State → Out :=
  ctlPure (.two h) fun c =>
    if rd = 0#6 then [(1, .alu (imm ++ 0#32))]
    else [(1, .sreg (rd + 1) imm), (1, .alu (imm ++ c.rS rd))]
def execMovl (h : Ring) (rd : SReg) : State → Out := ctlPure (.cx h) fun c => putS 1 rd (c.alu.extractLsb' 0 32)
def execMovlHi (h : Ring) (rd : SReg) : State → Out := ctlPure (.cx h) fun c => putS 1 rd (c.alu.extractLsb' 32 32)
def execMovlD (h : Ring) (rd : SReg) : State → Out := ctlPure (.cx h) fun c => putD 1 rd c.alu
def execMovlLnk (h : Ring) (rd : SReg) : State → Out :=
  ctlPure (.cx h) fun c => putS 1 rd ((c.rT 7).addr.setWidth 32)

/-! ### Compares and predicates (R165) -/

def cEq (a b : Word) : Bool := a == b
def cNe (a b : Word) : Bool := a != b
def cLt (a b : Word) : Bool := decide (a.toInt < b.toInt)
def cGe (a b : Word) : Bool := decide (b.toInt ≤ a.toInt)
def cLtz (a b : Word) : Bool := decide (a.toNat < b.toNat)
def cGez (a b : Word) : Bool := decide (b.toNat ≤ a.toNat)

def execCmpEq (h : Ring) (pd : PReg) (ra rb : SReg) : State → Out := execCmp h pd ra rb cEq
def execCmpNe (h : Ring) (pd : PReg) (ra rb : SReg) : State → Out := execCmp h pd ra rb cNe
def execCmpLt (h : Ring) (pd : PReg) (ra rb : SReg) : State → Out := execCmp h pd ra rb cLt
def execCmpGe (h : Ring) (pd : PReg) (ra rb : SReg) : State → Out := execCmp h pd ra rb cGe
def execCmpLtz (h : Ring) (pd : PReg) (ra rb : SReg) : State → Out := execCmp h pd ra rb cLtz
def execCmpGez (h : Ring) (pd : PReg) (ra rb : SReg) : State → Out := execCmp h pd ra rb cGez
def execCmpiEq (h : Ring) (pd : PReg) (ra : SReg) (i : BitVec 6) : State → Out := execCmpI h pd ra (i.signExtend 32) cEq
def execCmpiNe (h : Ring) (pd : PReg) (ra : SReg) (i : BitVec 6) : State → Out := execCmpI h pd ra (i.signExtend 32) cNe
def execCmpiLt (h : Ring) (pd : PReg) (ra : SReg) (i : BitVec 6) : State → Out := execCmpI h pd ra (i.signExtend 32) cLt
def execCmpiGe (h : Ring) (pd : PReg) (ra : SReg) (i : BitVec 6) : State → Out := execCmpI h pd ra (i.signExtend 32) cGe
def execCmpiLtz (h : Ring) (pd : PReg) (ra : SReg) (i : BitVec 6) : State → Out := execCmpI h pd ra (i.setWidth 32) cLtz
def execCmpiGez (h : Ring) (pd : PReg) (ra : SReg) (i : BitVec 6) : State → Out := execCmpI h pd ra (i.setWidth 32) cGez
def execPand (h : Ring) (pd pa pb : PReg) : State → Out := execPred h pd pa pb (· && ·)
def execPor (h : Ring) (pd pa pb : PReg) : State → Out := execPred h pd pa pb (· || ·)
def execPxor (h : Ring) (pd pa pb : PReg) : State → Out := execPred h pd pa pb (· != ·)

end Sys2Proof.Machine
end

