-- ==== Sys2Proof/Machine/Vector.lean ====
section
/-! DEFINITION. The words of the vector unit (R184-R214). -/

namespace Sys2Proof.Machine

/-- Flags land with the results (R91, R194). -/
def flagLands (lat : Nat) (f : VFlags) : List (Nat × Land) := if f = 0 then [] else [(lat, .vstat f)]

/-- A two-word VU word: its checks, its sources, then what it does. -/
def vuTwo (h : Ring) (named : List Opnd) (srcs : List (Opnd × Nat)) (pre : Tile → Option Act)
    (act : Nat → Tile → State → List Nat → Act) : State → Out :=
  engWord .vu (.mk h 2 .c 1 1 true) fun t s =>
    match s.sources t .vu named (pre (s.tile t)) srcs with
    | .error e => e
    | .ok (s, vs) => act t (s.tile t) s vs

/-- A word that writes a register and its latch (R70, R186, R187). -/
def vuOp (h : Ring) (lat : Nat) (l : Latch) (d : Opnd) (srcs : List (Opnd × Nat)) (f : Tile → List Nat → VRes) :
    State → Out :=
  vuTwo h (d :: srcs.map (·.1)) srcs (fun _ => none) fun _ x s vs =>
    let r := f x vs
    .go s ⟨resultLands x lat d l r.v r.wr ++ flagLands lat r.fl, vuOcc (srcs.map (·.1)), lat, none, 0⟩

/-- Operands read whole. -/
def whole (os : List Opnd) : List (Opnd × Nat) := os.map fun o => (o, 4096)

/-- A word that works on each enabled sub-element. -/
def vuEl (h : Ring) (t : EType) (lat : Nat) (l : Latch) (d : Opnd) (srcs : List Opnd) (mk : Bool)
    (f : Tile → Nat → Nat → Nat → Nat → Nat × VFlags) : State → Out :=
  vuOp h lat l d (whole srcs) fun x vs =>
    perElem t mk x.top fun i =>
      let e (k : Nat) : Nat := el (stepOf t) (vs.getD k 0) i
      f x i (e 0) (e 1) (e 2)

/-- A word that works on whole lanes. -/
def vuLane (h : Ring) (t : EType) (lat : Nat) (l : Latch) (d : Opnd) (srcs : List (Opnd × Nat)) (mk : Bool)
    (f : Nat → Nat → Nat) : State → Out :=
  vuOp h lat l d srcs fun x vs => masked t mk x.top (f (vs.getD 0 0) (vs.getD 1 0))

/-! ### Arithmetic (R192, R193) -/

def vuArith (o : Arith) (h : Ring) (t : EType) (lat : Nat) (l : Latch) (d : Opnd) (srcs : List Opnd) (m : VMod) :
    State → Out :=
  vuEl h t lat l d srcs m.msk fun x i a b c => arithEl t o (modeAt x m.rnd m.sat i) a b c

def execVadd (h : Ring) (ty : EType) (d a b : Opnd) (m : VMod) : State → Out := vuArith .add h ty 6 .alu d [a, b] m
def execVsub (h : Ring) (ty : EType) (d a b : Opnd) (m : VMod) : State → Out := vuArith .sub h ty 6 .alu d [a, b] m
def execVmul (h : Ring) (ty : EType) (d a b : Opnd) (m : VMod) : State → Out := vuArith .mul h ty 9 .fma d [a, b] m
def execVfma (h : Ring) (ty : EType) (d a b c : Opnd) (m : VMod) : State → Out :=
  vuArith .fma h ty 9 .fma d [a, b, c] m
def execVfms (h : Ring) (ty : EType) (d a b c : Opnd) (m : VMod) : State → Out :=
  vuArith .fms h ty 9 .fma d [a, b, c] m
def execVmin (h : Ring) (ty : EType) (d a b : Opnd) (mk : Bool) : State → Out :=
  vuEl h ty 6 .alu d [a, b] mk fun _ _ a b _ => (pick ty false a b, 0)
def execVmax (h : Ring) (ty : EType) (d a b : Opnd) (mk : Bool) : State → Out :=
  vuEl h ty 6 .alu d [a, b] mk fun _ _ a b _ => (pick ty true a b, 0)
def execVabs (h : Ring) (ty : EType) (d a : Opnd) (sat mk : Bool) : State → Out :=
  vuEl h ty 6 .alu d [a] mk fun _ _ a _ _ => absEl ty sat a
def execVneg (h : Ring) (ty : EType) (d a : Opnd) (sat mk : Bool) : State → Out :=
  vuEl h ty 6 .alu d [a] mk fun _ _ a _ _ => negEl ty sat a

/-! ### Logic and shifts (R195) -/

def execVand (h : Ring) (ty : EType) (d a b : Opnd) (mk : Bool) : State → Out :=
  vuLane h ty 6 .alu d (whole [a, b]) mk fun a b => a &&& b
def execVor (h : Ring) (ty : EType) (d a b : Opnd) (mk : Bool) : State → Out :=
  vuLane h ty 6 .alu d (whole [a, b]) mk fun a b => a ||| b
def execVxor (h : Ring) (ty : EType) (d a b : Opnd) (mk : Bool) : State → Out :=
  vuLane h ty 6 .alu d (whole [a, b]) mk fun a b => a ^^^ b
def execVnot (h : Ring) (ty : EType) (d a : Opnd) (mk : Bool) : State → Out :=
  vuLane h ty 6 .alu d (whole [a]) mk fun a _ => 2 ^ 32768 - 1 - a
def execVshl (h : Ring) (ty : EType) (d a b : Opnd) (sat mk : Bool) : State → Out :=
  vuEl h ty 6 .alu d [a, b] mk fun _ _ a b _ => shlEl ty sat a b
def execVshr (h : Ring) (ty : EType) (d a b : Opnd) (mk : Bool) : State → Out :=
  vuEl h ty 6 .alu d [a, b] mk fun _ _ a b _ => (shrEl ty a b, 0)
def execVsar (h : Ring) (ty : EType) (d a b : Opnd) (mk : Bool) : State → Out :=
  vuEl h ty 6 .alu d [a, b] mk fun _ _ a b _ => (sarEl ty a b, 0)

/-! ### Compare, select, move (R196, R197) -/

def execVcmp (h : Ring) (ty : EType) (cc : VCond) (d a b : Opnd) (mk : Bool) : State → Out :=
  vuEl h ty 6 .alu d [a, b] mk fun _ _ a b _ => (cmpEl ty cc a b, 0)
def execVsel (h : Ring) (ty : EType) (d a b c : Opnd) (mk : Bool) : State → Out :=
  vuEl h ty 6 .alu d [a, b, c] mk fun _ _ a b c => (moveEl ty (if nonzero ty c then a else b), 0)
def execVmov (h : Ring) (ty : EType) (d a : Opnd) (mk : Bool) : State → Out :=
  vuEl h ty 6 .alu d [a] mk fun _ _ a _ _ => (moveEl ty a, 0)
def execVbcs (h : Ring) (ty : EType) (d a b : Opnd) (mk : Bool) : State → Out :=
  vuLane h ty 6 .alu d [(a, 4096), (b, 4)] mk fun a b => splat (el 32 a (el 32 b 0 % 1024))

/-! ### Conversion and block formats (R198-R202) -/

def execVcvt (h : Ring) (dt st : EType) (d a : Opnd) (q : BitVec 4) (rnd : Rnd) (sat : Bool) : State → Out :=
  vuOp h 10 .alu d (whole [a]) fun x vs => convert x dt st q.toNat rnd sat (vs.getD 0 0)

/-- VQMX: elements to d, scales to l.alu (R199). -/
def execVqmx (h : Ring) (fmt : BlkFmt) (d a : Opnd) (q : BitVec 4) (rnd : Rnd) : State → Out :=
  vuTwo h [d, a] (whole [a]) (fun _ => none) fun _ x s vs =>
    let p := blkPar fmt
    let v := vs.getD 0 0
    let sc := scalesOf p v
    let r := quantize x p q.toNat rnd sc v
    let b := scaleBytes q.toNat sc
    let dest := match opndRuns x d 4096 with
      | some (sp, rs) => landRuns sp rs r.v r.wr
      | none => []
    let lands := (dest ++ landRuns .lat [(0, 4096)] b.v b.wr).map fun l => (10, l)
    .go s ⟨lands ++ flagLands 10 r.fl, vuOcc [a], 10, none, 0⟩

def execVdqmx (h : Ring) (fmt : BlkFmt) (d a b : Opnd) (q : BitVec 4) (rnd : Rnd) : State → Out :=
  vuOp h 10 .alu d (whole [a, b]) fun x vs => dequantize x (blkPar fmt) q.toNat rnd (vs.getD 0 0) (vs.getD 1 0)
def execVjoin6 (h : Ring) (fmt : SixFmt) (d a b : Opnd) (q : BitVec 4) : State → Out :=
  vuOp h 10 .alu d (whole [a, b]) fun _ vs => join6 fmt q.toNat (vs.getD 0 0) (vs.getD 1 0)
def execVsplit6P4 (h : Ring) (_fmt : SixFmt) (d a : Opnd) (q : BitVec 4) : State → Out :=
  vuOp h 10 .alu d (whole [a]) fun _ vs => split6 true q.toNat (vs.getD 0 0)
def execVsplit6P2 (h : Ring) (_fmt : SixFmt) (d a : Opnd) (q : BitVec 4) : State → Out :=
  vuOp h 10 .alu d (whole [a]) fun _ vs => split6 false q.toNat (vs.getD 0 0)

/-! ### Special functions (R203) -/

def execVrcpa (h : Ring) (d a : Opnd) (mk : Bool) : State → Out :=
  vuEl h .f32 16 .sfu d [a] mk fun _ _ a _ _ => rcpApprox a
def execVrsqa (h : Ring) (d a : Opnd) (mk : Bool) : State → Out :=
  vuEl h .f32 16 .sfu d [a] mk fun _ _ a _ _ => rsqApprox a
def execVrcpr (h : Ring) (d a b : Opnd) (mk : Bool) : State → Out :=
  vuEl h .f32 9 .fma d [a, b] mk fun _ _ a b _ => refine rcpStep a b
def execVrsqr (h : Ring) (d a b : Opnd) (mk : Bool) : State → Out :=
  vuEl h .f32 9 .fma d [a, b] mk fun _ _ a b _ => refine rsqStep a b
def execVexp2 (h : Ring) (d a : Opnd) (mk : Bool) : State → Out :=
  vuEl h .f32 16 .sfu d [a] mk fun _ _ a _ _ => exp2Approx a
def execVlog2 (h : Ring) (d a : Opnd) (mk : Bool) : State → Out :=
  vuEl h .f32 16 .sfu d [a] mk fun _ _ a _ _ => log2Approx a

/-! ### Rotations, broadcasts, permutes (R204, R207, R208) -/

def execVrotr (h : Ring) (ty : EType) (d a b : Opnd) (mk : Bool) : State → Out :=
  vuLane h ty 6 .perm d [(a, 4096), (b, 4)] mk fun a b => rotR a (el 32 b 0)
def execVrotc (h : Ring) (ty : EType) (d a b : Opnd) (mk : Bool) : State → Out :=
  vuLane h ty 10 .perm d [(a, 4096), (b, 4)] mk fun a b => rotC a (el 32 b 0)
def execVbcr (h : Ring) (ty : EType) (d a b : Opnd) (mk : Bool) : State → Out :=
  vuLane h ty 6 .perm d [(a, 4096), (b, 4)] mk fun a b => bcR a (el 32 b 0)
def execVbcc (h : Ring) (ty : EType) (d a b : Opnd) (mk : Bool) : State → Out :=
  vuLane h ty 6 .perm d [(a, 4096), (b, 4)] mk fun a b => bcC a (el 32 b 0)
def execVperm (h : Ring) (ty : EType) (d a b : Opnd) (mk : Bool) : State → Out :=
  vuLane h ty 14 .perm d (whole [a, b]) mk permute
def execVtrn (h : Ring) (ty : EType) (d a : Opnd) (mk : Bool) : State → Out :=
  vuOp h 14 .perm d (whole [a]) fun x vs =>
    perElem ty mk x.top fun i => (el (stepOf ty) (vs.getD 0 0) (trnFrom ty i), 0)

/-! ### Reductions and scans (R205, R206) -/

def execVredr (h : Ring) (ty : EType) (op : RedOp) (d a : Opnd) (m : VMod) : State → Out :=
  vuOp h 12 .red d (whole [a]) fun x vs => reduce x ty (RedOp.kind op) false m (vs.getD 0 0)
def execVredc (h : Ring) (ty : EType) (op : RedOp) (d a : Opnd) (m : VMod) : State → Out :=
  vuOp h 16 .red d (whole [a]) fun x vs => reduce x ty (RedOp.kind op) true m (vs.getD 0 0)
def execVscanr (h : Ring) (ty : EType) (op : ScanOp) (excl : Bool) (d a : Opnd) (m : VMod) : State → Out :=
  vuOp h 14 .red d (whole [a]) fun x vs => scan x ty (ScanOp.kind op) false excl m (vs.getD 0 0)
def execVscanc (h : Ring) (ty : EType) (op : ScanOp) (excl : Bool) (d a : Opnd) (m : VMod) : State → Out :=
  vuOp h 18 .red d (whole [a]) fun x vs => scan x ty (ScanOp.kind op) true excl m (vs.getD 0 0)

/-! ### The mask stack (R189, R190) -/

/-- A mask stack fault; AUX is the depth (R297). -/
def maskFault (x : Tile) : Act := .trap Cause.maskStack (BitVec.ofNat 64 x.vu.masks.length)

def execMpush (h : Ring) (ty : EType) (a : Opnd) (fresh : Bool) : State → Out :=
  vuTwo h [a] (whole [a]) (fun x => if 16 ≤ x.vu.masks.length then some (maskFault x) else none) fun _ x s vs =>
    let m := maskOf ty (vs.getD 0 0)
    .go s ⟨[(4, .mask (.push (if fresh then m else m &&& x.top)))], vuOcc [a], 4, none, 0⟩

/-- MINV and MPOP: a fault on an empty stack. -/
def maskWord (h : Ring) (op : MaskOp) : State → Out :=
  engWord .vu (.tile h .c) fun t s =>
    if (s.tile t).vu.masks.isEmpty then maskFault (s.tile t) else .go s (Eff.of [(1, .mask op)])

def execMinv (h : Ring) : State → Out := maskWord h .inv
def execMpop (h : Ring) : State → Out := maskWord h .pop

/-- MQRY: whether the top is all zero; false on an empty stack. -/
def execMqry (h : Ring) (pd : PReg) : State → Out :=
  engWord .vu (.tile h .c) fun t s => .go s (Eff.of [(3, .pred pd ((s.tile t).vu.masks.head? == some 0))])

/-! ### Memory and the decoder FIFO (R209, R210) -/

/-- The row addresses of VLD and VST. -/
def rowAddrs (r base stride : Nat) : List Nat := (List.range r).map fun y => (base + y * stride) % 2 ^ 32

/-- Nibbles of the first `r` rows, where a type's sub-elements are enabled. -/
def rowMask (t : EType) (mk : Bool) (x : Tile) (r : Nat) : Nat := (masked t mk x.top 0).wr &&& (2 ^ (512 * r) - 1)

def execVld (h : Ring) (ty : EType) (d base stride : Opnd) (rows : BitVec 4) (mk : Bool) : State → Out :=
  vuTwo h [d, base, stride] [(base, 4), (stride, 4)] (fun _ => none) fun t x s vs =>
    let r := rows.toNat + 1
    match s.readRanges t .vu ((rowAddrs r (el 32 (vs.getD 0 0) 0) (el 32 (vs.getD 1 0) 0)).map fun a => (a, 256)) with
    | .error e => e
    | .ok (s, parts) =>
      .go s ⟨resultLands x 8 d .alu (ofLe parts.flatten) (rowMask ty mk x r), vuOcc [base, stride], 8, none, 0⟩

/-- VST. Under .mk a byte of a 4-bit type may hold an enabled and a disabled sub-element; R191 does not say what the byte of memory
then takes: the enabled nibble alone here (log 64). -/
def execVst (h : Ring) (ty : EType) (a base stride : Opnd) (rows : BitVec 4) (mk : Bool) : State → Out :=
  let r := rows.toNat + 1
  vuTwo h [a, base, stride] [(a, 256 * r), (base, 4), (stride, 4)] (fun _ => none) fun _ x s vs =>
    let as := rowAddrs r (el 32 (vs.getD 1 0) 0) (el 32 (vs.getD 2 0) 0)
    match as.find? fun a => decide (0x100000 < a + 256) with
    | some a => .trap Cause.ownership (BitVec.ofNat 64 a)
    | none =>
      let lands := (landRuns .scr (as.map fun a => (a, 256)) (vs.getD 0 0) (rowMask ty mk x r)).map fun l => (6, l)
      .go s ⟨lands, vuOcc [a, base, stride], 6, none, 0⟩

/-- VLDD waits until its blocks are in the decoder FIFO. The manual does not say whether its other checks come before that wait:
they do here (R214; log 64). -/
def execVldd (h : Ring) (ty : EType) (d : Opnd) (rows : BitVec 4) (mk : Bool) : State → Out :=
  vuTwo h [d] [] (fun _ => none) fun t x s _ =>
    let r := rows.toNat + 1
    let bs := x.sync.dcf.take r
    if bs.length < r || bs.any (fun b => decide (x.cyc < b.due)) then .wait
    else match s.touch t (Eng.code .vu, 0) .dcf 0 (32 * r - 1) with
    | (s, some w) => .fail s Cause.ecc (BitVec.ofNat 64 w)
    | (s, none) =>
      .go (s.modTile t fun y => { y with
          sync := { y.sync with dcf := y.sync.dcf.drop r }
          store := { y.store with ecc := shiftMarks y.store.ecc .dcf (32 * r) } })
        ⟨resultLands x 8 d .alu (ofLe (bs.flatMap (·.bytes))) (rowMask ty mk x r), 4, 8, none, 0⟩

/-! ### Arrival, flags, seeds (R211-R213) -/

def execVarrive (h : Ring) : State → Out :=
  engWord .vu (.tile h .cx) fun t s => .go (s.arrive t .vu) Eff.nil

/-- VFLG: the flags sampled in the issue cycle; with `clr` those sampled are cleared in it. -/
def vuFlags (h : Ring) (d : Opnd) (clr : Bool) : State → Out :=
  vuTwo h [d] [] (fun _ => none) fun t x s _ =>
    let s := if clr then s.modTile t fun y => { y with vu := { y.vu with vstat := 0 } } else s
    .go s ⟨resultLands x 6 d .alu (splat x.vu.vstat.toNat) allNibbles, 4, 6, none, 0⟩

def execVflg (h : Ring) (d : Opnd) : State → Out := vuFlags h d false
def execVflgClr (h : Ring) (d : Opnd) : State → Out := vuFlags h d true

/-- VSEED from lanes (0, 0) and (0, 1). -/
def vuSeed (h : Ring) (a : Opnd) (f : Word → Word → Land) : State → Out :=
  vuTwo h [a] [(a, 8)] (fun _ => none) fun _ _ s vs =>
    let v := vs.getD 0 0
    .go s (Eff.of [(1, f (BitVec.ofNat 32 (el 32 v 0)) (BitVec.ofNat 32 (el 32 v 1)))])

def execVseedSeed (h : Ring) (a : Opnd) : State → Out := vuSeed h a fun v w => .seed (w ++ v)
def execVseedHnd (h : Ring) (a : Opnd) : State → Out := vuSeed h a fun v _ => .hnd v
def execVseedIdx (h : Ring) (a : Opnd) : State → Out := vuSeed h a fun v _ => .idx v
def execVseedAdv (h : Ring) (a : Opnd) : State → Out := vuSeed h a fun v _ => .adv v

end Sys2Proof.Machine
end

