-- ==== Sys2Proof/Machine/Dispatch.lean ====
section
/-! DEFINITION. The one dispatch from an instruction to its meaning. -/

namespace Sys2Proof.Machine

def exec (i : Instr) (s : State) : Host.Outcome State Fault Refusal :=
  match i with
  | .nop h n => Sys2Proof.Machine.execNop h n s
  | .add h rd ra rb => Sys2Proof.Machine.execAdd h rd ra rb s
  | .sub h rd ra rb => Sys2Proof.Machine.execSub h rd ra rb s
  | .min h rd ra rb => Sys2Proof.Machine.execMin h rd ra rb s
  | .max h rd ra rb => Sys2Proof.Machine.execMax h rd ra rb s
  | .minz h rd ra rb => Sys2Proof.Machine.execMinz h rd ra rb s
  | .maxz h rd ra rb => Sys2Proof.Machine.execMaxz h rd ra rb s
  | .adda h rd ra rb k => Sys2Proof.Machine.execAdda h rd ra rb k s
  | .mul h rd ra rb => Sys2Proof.Machine.execMul h rd ra rb s
  | .mulh h rd ra rb => Sys2Proof.Machine.execMulh h rd ra rb s
  | .mulhz h rd ra rb => Sys2Proof.Machine.execMulhz h rd ra rb s
  | .divs h rd ra rb => Sys2Proof.Machine.execDivs h rd ra rb s
  | .divz h rd ra rb => Sys2Proof.Machine.execDivz h rd ra rb s
  | .and h rd ra rb => Sys2Proof.Machine.execAnd h rd ra rb s
  | .or h rd ra rb => Sys2Proof.Machine.execOr h rd ra rb s
  | .xor h rd ra rb => Sys2Proof.Machine.execXor h rd ra rb s
  | .shl h rd ra rb => Sys2Proof.Machine.execShl h rd ra rb s
  | .shr h rd ra rb => Sys2Proof.Machine.execShr h rd ra rb s
  | .sar h rd ra rb => Sys2Proof.Machine.execSar h rd ra rb s
  | .addi h rd ra imm => Sys2Proof.Machine.execAddi h rd ra imm s
  | .andi h rd ra imm => Sys2Proof.Machine.execAndi h rd ra imm s
  | .ori h rd ra imm => Sys2Proof.Machine.execOri h rd ra imm s
  | .xori h rd ra imm => Sys2Proof.Machine.execXori h rd ra imm s
  | .shli h rd ra imm => Sys2Proof.Machine.execShli h rd ra imm s
  | .shri h rd ra imm => Sys2Proof.Machine.execShri h rd ra imm s
  | .sari h rd ra imm => Sys2Proof.Machine.execSari h rd ra imm s
  | .clz h rd ra => Sys2Proof.Machine.execClz h rd ra s
  | .popc h rd ra => Sys2Proof.Machine.execPopc h rd ra s
  | .mov h rd ra => Sys2Proof.Machine.execMov h rd ra s
  | .bfx h rd ra rb => Sys2Proof.Machine.execBfx h rd ra rb s
  | .bfi h rd ra rb => Sys2Proof.Machine.execBfi h rd ra rb s
  | .sel h rd ra rb neg pred => Sys2Proof.Machine.execSel h rd ra rb neg pred s
  | .li h rd imm => Sys2Proof.Machine.execLi h rd imm s
  | .lih h rd imm => Sys2Proof.Machine.execLih h rd imm s
  | .movl h rd => Sys2Proof.Machine.execMovl h rd s
  | .movlHi h rd => Sys2Proof.Machine.execMovlHi h rd s
  | .movlD h rd => Sys2Proof.Machine.execMovlD h rd s
  | .movlLnk h rd => Sys2Proof.Machine.execMovlLnk h rd s
  | .cmpEq h pd ra rb => Sys2Proof.Machine.execCmpEq h pd ra rb s
  | .cmpNe h pd ra rb => Sys2Proof.Machine.execCmpNe h pd ra rb s
  | .cmpLt h pd ra rb => Sys2Proof.Machine.execCmpLt h pd ra rb s
  | .cmpGe h pd ra rb => Sys2Proof.Machine.execCmpGe h pd ra rb s
  | .cmpLtz h pd ra rb => Sys2Proof.Machine.execCmpLtz h pd ra rb s
  | .cmpGez h pd ra rb => Sys2Proof.Machine.execCmpGez h pd ra rb s
  | .cmpiEq h pd ra imm => Sys2Proof.Machine.execCmpiEq h pd ra imm s
  | .cmpiNe h pd ra imm => Sys2Proof.Machine.execCmpiNe h pd ra imm s
  | .cmpiLt h pd ra imm => Sys2Proof.Machine.execCmpiLt h pd ra imm s
  | .cmpiGe h pd ra imm => Sys2Proof.Machine.execCmpiGe h pd ra imm s
  | .cmpiLtz h pd ra imm => Sys2Proof.Machine.execCmpiLtz h pd ra imm s
  | .cmpiGez h pd ra imm => Sys2Proof.Machine.execCmpiGez h pd ra imm s
  | .pand h pd pa pb => Sys2Proof.Machine.execPand h pd pa pb s
  | .por h pd pa pb => Sys2Proof.Machine.execPor h pd pa pb s
  | .pxor h pd pa pb => Sys2Proof.Machine.execPxor h pd pa pb s
  | .prep h t off => Sys2Proof.Machine.execPrep h t off s
  | .preps h t ra => Sys2Proof.Machine.execPreps h t ra s
  | .xfer h t p => Sys2Proof.Machine.execXfer h t p s
  | .xfern h t p => Sys2Proof.Machine.execXfern h t p s
  | .call h t => Sys2Proof.Machine.execCall h t s
  | .cinv h t => Sys2Proof.Machine.execCinv h t s
  | .cinva h => Sys2Proof.Machine.execCinva h s
  | .lpset h lv count => Sys2Proof.Machine.execLpset h lv count s
  | .lpsetReg h lv ra => Sys2Proof.Machine.execLpsetReg h lv ra s
  | .lpend h lv => Sys2Proof.Machine.execLpend h lv s
  | .lpidx h rd lv => Sys2Proof.Machine.execLpidx h rd lv s
  | .ldb h rd base off => Sys2Proof.Machine.execLdb h rd base off s
  | .ldbz h rd base off => Sys2Proof.Machine.execLdbz h rd base off s
  | .ldh h rd base off => Sys2Proof.Machine.execLdh h rd base off s
  | .ldhz h rd base off => Sys2Proof.Machine.execLdhz h rd base off s
  | .ldw h rd base off => Sys2Proof.Machine.execLdw h rd base off s
  | .ldd h rd base off => Sys2Proof.Machine.execLdd h rd base off s
  | .stb h rs base off => Sys2Proof.Machine.execStb h rs base off s
  | .sth h rs base off => Sys2Proof.Machine.execSth h rs base off s
  | .stw h rs base off => Sys2Proof.Machine.execStw h rs base off s
  | .std h rs base off => Sys2Proof.Machine.execStd h rs base off s
  | .aadd h rd ra rb => Sys2Proof.Machine.execAadd h rd ra rb s
  | .amin h rd ra rb => Sys2Proof.Machine.execAmin h rd ra rb s
  | .amax h rd ra rb => Sys2Proof.Machine.execAmax h rd ra rb s
  | .axchg h rd ra rb => Sys2Proof.Machine.execAxchg h rd ra rb s
  | .acas h rd ra rb => Sys2Proof.Machine.execAcas h rd ra rb s
  | .acasD h rd ra rb => Sys2Proof.Machine.execAcasD h rd ra rb s
  | .ksig h k count => Sys2Proof.Machine.execKsig h k count s
  | .ksigReg h k ra => Sys2Proof.Machine.execKsigReg h k ra s
  | .kwait h k count => Sys2Proof.Machine.execKwait h k count s
  | .kwaitReg h k ra => Sys2Proof.Machine.execKwaitReg h k ra s
  | .semsig h sem => Sys2Proof.Machine.execSemsig h sem s
  | .semwait h sem => Sys2Proof.Machine.execSemwait h sem s
  | .push h ra => Sys2Proof.Machine.execPush h ra s
  | .pop h rd f => Sys2Proof.Machine.execPop h rd f s
  | .arrive h => Sys2Proof.Machine.execArrive h s
  | .mfph h rd => Sys2Proof.Machine.execMfph h rd s
  | .mftime h rd => Sys2Proof.Machine.execMftime h rd s
  | .mfcyc h rd => Sys2Proof.Machine.execMfcyc h rd s
  | .realign h => Sys2Proof.Machine.execRealign h s
  | .hand h ra rb => Sys2Proof.Machine.execHand h ra rb s
  | .take h ra => Sys2Proof.Machine.execTake h ra s
  | .fenceTile h => Sys2Proof.Machine.execFenceTile h s
  | .fenceDie h => Sys2Proof.Machine.execFenceDie h s
  | .fencePackage h => Sys2Proof.Machine.execFencePackage h s
  | .fenceSystem h => Sys2Proof.Machine.execFenceSystem h s
  | .promote h d => Sys2Proof.Machine.execPromote h d s
  | .halt h => Sys2Proof.Machine.execHalt h s
  | .trap h code => Sys2Proof.Machine.execTrap h code s
  | .brk h => Sys2Proof.Machine.execBrk h s
  | .guard neg pred => Sys2Proof.Machine.execGuard neg pred s
  | .mfsr sd sr => Sys2Proof.Machine.execMfsr sd sr s
  | .mtsr sa sr => Sys2Proof.Machine.execMtsr sa sr s
  | .eret => Sys2Proof.Machine.execEret s
  | .tlbi sa sb => Sys2Proof.Machine.execTlbi sa sb s
  | .tlbia sb => Sys2Proof.Machine.execTlbia sb s
  | .wfe => Sys2Proof.Machine.execWfe s
  | .sev sb => Sys2Proof.Machine.execSev sb s
  | .csave sa sb => Sys2Proof.Machine.execCsave sa sb s
  | .crest sa sb => Sys2Proof.Machine.execCrest sa sb s
  | .ttrimRd sd sb => Sys2Proof.Machine.execTtrimRd sd sb s
  | .ttrimWr sa sb => Sys2Proof.Machine.execTtrimWr sa sb s
  | .finj sa sb => Sys2Proof.Machine.execFinj sa sb s
  | .vadd h ty d a b m => Sys2Proof.Machine.execVadd h ty d a b m s
  | .vsub h ty d a b m => Sys2Proof.Machine.execVsub h ty d a b m s
  | .vmul h ty d a b m => Sys2Proof.Machine.execVmul h ty d a b m s
  | .vfma h ty d a b c m => Sys2Proof.Machine.execVfma h ty d a b c m s
  | .vfms h ty d a b c m => Sys2Proof.Machine.execVfms h ty d a b c m s
  | .vmin h ty d a b mk => Sys2Proof.Machine.execVmin h ty d a b mk s
  | .vmax h ty d a b mk => Sys2Proof.Machine.execVmax h ty d a b mk s
  | .vabs h ty d a sat mk => Sys2Proof.Machine.execVabs h ty d a sat mk s
  | .vneg h ty d a sat mk => Sys2Proof.Machine.execVneg h ty d a sat mk s
  | .vand h ty d a b mk => Sys2Proof.Machine.execVand h ty d a b mk s
  | .vor h ty d a b mk => Sys2Proof.Machine.execVor h ty d a b mk s
  | .vxor h ty d a b mk => Sys2Proof.Machine.execVxor h ty d a b mk s
  | .vnot h ty d a mk => Sys2Proof.Machine.execVnot h ty d a mk s
  | .vshl h ty d a b sat mk => Sys2Proof.Machine.execVshl h ty d a b sat mk s
  | .vshr h ty d a b mk => Sys2Proof.Machine.execVshr h ty d a b mk s
  | .vsar h ty d a b mk => Sys2Proof.Machine.execVsar h ty d a b mk s
  | .vcmp h ty cc d a b mk => Sys2Proof.Machine.execVcmp h ty cc d a b mk s
  | .vsel h ty d a b c mk => Sys2Proof.Machine.execVsel h ty d a b c mk s
  | .vmov h ty d a mk => Sys2Proof.Machine.execVmov h ty d a mk s
  | .vbcs h ty d a b mk => Sys2Proof.Machine.execVbcs h ty d a b mk s
  | .vcvt h dt st d a q rnd sat => Sys2Proof.Machine.execVcvt h dt st d a q rnd sat s
  | .vqmx h fmt d a q rnd => Sys2Proof.Machine.execVqmx h fmt d a q rnd s
  | .vdqmx h fmt d a b q rnd => Sys2Proof.Machine.execVdqmx h fmt d a b q rnd s
  | .vjoin6 h fmt d a b q => Sys2Proof.Machine.execVjoin6 h fmt d a b q s
  | .vsplit6P4 h fmt d a q => Sys2Proof.Machine.execVsplit6P4 h fmt d a q s
  | .vsplit6P2 h fmt d a q => Sys2Proof.Machine.execVsplit6P2 h fmt d a q s
  | .vrcpa h d a mk => Sys2Proof.Machine.execVrcpa h d a mk s
  | .vrsqa h d a mk => Sys2Proof.Machine.execVrsqa h d a mk s
  | .vrcpr h d a b mk => Sys2Proof.Machine.execVrcpr h d a b mk s
  | .vrsqr h d a b mk => Sys2Proof.Machine.execVrsqr h d a b mk s
  | .vexp2 h d a mk => Sys2Proof.Machine.execVexp2 h d a mk s
  | .vlog2 h d a mk => Sys2Proof.Machine.execVlog2 h d a mk s
  | .vrotr h ty d a b mk => Sys2Proof.Machine.execVrotr h ty d a b mk s
  | .vrotc h ty d a b mk => Sys2Proof.Machine.execVrotc h ty d a b mk s
  | .vbcr h ty d a b mk => Sys2Proof.Machine.execVbcr h ty d a b mk s
  | .vbcc h ty d a b mk => Sys2Proof.Machine.execVbcc h ty d a b mk s
  | .vredr h ty op d a m => Sys2Proof.Machine.execVredr h ty op d a m s
  | .vredc h ty op d a m => Sys2Proof.Machine.execVredc h ty op d a m s
  | .vscanr h ty op excl d a m => Sys2Proof.Machine.execVscanr h ty op excl d a m s
  | .vscanc h ty op excl d a m => Sys2Proof.Machine.execVscanc h ty op excl d a m s
  | .vperm h ty d a b mk => Sys2Proof.Machine.execVperm h ty d a b mk s
  | .vtrn h ty d a mk => Sys2Proof.Machine.execVtrn h ty d a mk s
  | .mpush h ty a fresh => Sys2Proof.Machine.execMpush h ty a fresh s
  | .minv h => Sys2Proof.Machine.execMinv h s
  | .mpop h => Sys2Proof.Machine.execMpop h s
  | .mqry h pd => Sys2Proof.Machine.execMqry h pd s
  | .vld h ty d base stride rows mk => Sys2Proof.Machine.execVld h ty d base stride rows mk s
  | .vst h ty a base stride rows mk => Sys2Proof.Machine.execVst h ty a base stride rows mk s
  | .vldd h ty d rows mk => Sys2Proof.Machine.execVldd h ty d rows mk s
  | .varrive h => Sys2Proof.Machine.execVarrive h s
  | .vflg h d => Sys2Proof.Machine.execVflg h d s
  | .vflgClr h d => Sys2Proof.Machine.execVflgClr h d s
  | .vseedSeed h a => Sys2Proof.Machine.execVseedSeed h a s
  | .vseedHnd h a => Sys2Proof.Machine.execVseedHnd h a s
  | .vseedIdx h a => Sys2Proof.Machine.execVseedIdx h a s
  | .vseedAdv h a => Sys2Proof.Machine.execVseedAdv h a s
  | .tmac h v blk m nsz fmt cs sem => Sys2Proof.Machine.execTmac h v blk m nsz fmt cs sem s
  | .tmacx h v blk m nsz fmt cs sem => Sys2Proof.Machine.execTmacx h v blk m nsz fmt cs sem s
  | .tldb h slot cnt x fmt sem => Sys2Proof.Machine.execTldb h slot cnt x fmt sem s
  | .tzero h v blk m nsz cs sem => Sys2Proof.Machine.execTzero h v blk m nsz cs sem s
  | .tflag h d mg clr sem => Sys2Proof.Machine.execTflag h d mg clr sem s
  | .tdrain h sem => Sys2Proof.Machine.execTdrain h sem s
  | .tcal h crow sem => Sys2Proof.Machine.execTcal h crow sem s
  | .tmarg h d crow sem => Sys2Proof.Machine.execTmarg h d crow sem s
  | .raceMin h d a rows kt q sem => Sys2Proof.Machine.execRaceMin h d a rows kt q sem s
  | .raceMax h d a rows kt q sem => Sys2Proof.Machine.execRaceMax h d a rows kt q sem s
  | .raceArgmin h d a rows kt q sem => Sys2Proof.Machine.execRaceArgmin h d a rows kt q sem s
  | .raceArgmax h d a rows kt q sem => Sys2Proof.Machine.execRaceArgmax h d a rows kt q sem s
  | .raceSort h d a rows kt desc sem => Sys2Proof.Machine.execRaceSort h d a rows kt desc sem s
  | .raceTopk h d a rows kt km1 sem => Sys2Proof.Machine.execRaceTopk h d a rows kt km1 sem s
  | .tarrive h => Sys2Proof.Machine.execTarrive h s
  | .xcopy h c => Sys2Proof.Machine.execXcopy h c s
  | .xgath h c => Sys2Proof.Machine.execXgath h c s
  | .xscat h c => Sys2Proof.Machine.execXscat h c s
  | .xcnt h cnt self src bytes => Sys2Proof.Machine.execXcnt h cnt self src bytes s
  | .xflag h c => Sys2Proof.Machine.execXflag h c s
  | .xrdef h ths thg nhs nhg ofs => Sys2Proof.Machine.execXrdef h ths thg nhs nhg ofs s
  | .xrgen h hs hg => Sys2Proof.Machine.execXrgen h hs hg s
  | .xarm h n => Sys2Proof.Machine.execXarm h n s
  | .xarrive h => Sys2Proof.Machine.execXarrive h s
  | .endOfText => Sys2Proof.Machine.execEndOfText s
  | .sloop nl count => Sys2Proof.Machine.execSloop nl count s
  | .sloopReg nl ga => Sys2Proof.Machine.execSloopReg nl ga s
  | .send nl => Sys2Proof.Machine.execSend nl s
  | .sagenBase ag ga => Sys2Proof.Machine.execSagenBase ag ga s
  | .sagenStep ag l ga => Sys2Proof.Machine.execSagenStep ag l ga s
  | .sfeeda m f => Sys2Proof.Machine.execSfeeda m f s
  | .sfeedb f => Sys2Proof.Machine.execSfeedb f s
  | .sdecode tgt dmax ags age => Sys2Proof.Machine.execSdecode tgt dmax ags age s
  | .sencode tgt agr agd age => Sys2Proof.Machine.execSencode tgt agr agd age s
  | .sperm f ag => Sys2Proof.Machine.execSperm f ag s
  | .spermOff f => Sys2Proof.Machine.execSpermOff f s
  | .sksig k count => Sys2Proof.Machine.execSksig k count s
  | .sksigReg k ga => Sys2Proof.Machine.execSksigReg k ga s
  | .skwait k count => Sys2Proof.Machine.execSkwait k count s
  | .skwaitReg k ga => Sys2Proof.Machine.execSkwaitReg k ga s
  | .smov gd imm => Sys2Proof.Machine.execSmov gd imm s
  | .smovHi gd imm => Sys2Proof.Machine.execSmovHi gd imm s
  | .smovReg gd gb => Sys2Proof.Machine.execSmovReg gd gb s
  | .sadd gd ga imm => Sys2Proof.Machine.execSadd gd ga imm s
  | .saddReg gd ga gb => Sys2Proof.Machine.execSaddReg gd ga gb s
  | .sqpop gd => Sys2Proof.Machine.execSqpop gd s
  | .sqpopAg ag => Sys2Proof.Machine.execSqpopAg ag s
  | .sqpush ga => Sys2Proof.Machine.execSqpush ga s
  | .shalt => Sys2Proof.Machine.execShalt s
  | .resultLanding t => Sys2Proof.Machine.execResultLanding t s
  | .prefetchBufferFilled t => Sys2Proof.Machine.execPrefetchBufferFilled t s
  | .ringTokenSignal t => Sys2Proof.Machine.execRingTokenSignal t s
  | .tokenDeadlock t => Sys2Proof.Machine.execTokenDeadlock t s
  | .fifoElementPoppable t => Sys2Proof.Machine.execFifoElementPoppable t s
  | .tileHalted t => Sys2Proof.Machine.execTileHalted t s
  | .tdaCommandStart t => Sys2Proof.Machine.execTdaCommandStart t s
  | .tdaCommandRetire t => Sys2Proof.Machine.execTdaCommandRetire t s
  | .tldbPlaneLatch t => Sys2Proof.Machine.execTldbPlaneLatch t s
  | .translationComplete t => Sys2Proof.Machine.execTranslationComplete t s
  | .copyLeave c => Sys2Proof.Machine.execCopyLeave c s
  | .copyStart c => Sys2Proof.Machine.execCopyStart c s
  | .copyLanded c => Sys2Proof.Machine.execCopyLanded c s
  | .copyRetired c => Sys2Proof.Machine.execCopyRetired c s
  | .handoverOffer p granule => Sys2Proof.Machine.execHandoverOffer p granule s
  | .watermarkAdvance d => Sys2Proof.Machine.execWatermarkAdvance d s
  | .launchStart p => Sys2Proof.Machine.execLaunchStart p s
  | .phaseComplete p => Sys2Proof.Machine.execPhaseComplete p s
  | .phaseOpen p d => Sys2Proof.Machine.execPhaseOpen p d s
  | .deadlineReached p => Sys2Proof.Machine.execDeadlineReached p s
  | .stragglerLimit p => Sys2Proof.Machine.execStragglerLimit p s
  | .timeZoneSlip d => Sys2Proof.Machine.execTimeZoneSlip d s
  | .partitionDone p => Sys2Proof.Machine.execPartitionDone p s
  | .preemptSaveEntry p => Sys2Proof.Machine.execPreemptSaveEntry p s
  | .saveComplete p => Sys2Proof.Machine.execSaveComplete p s
  | .tcmdResume d => Sys2Proof.Machine.execTcmdResume d s
  | .tcmdAbort d => Sys2Proof.Machine.execTcmdAbort d s
  | .fwcInterrupt d => Sys2Proof.Machine.execFwcInterrupt d s
  | .dbgctlWrite d v => Sys2Proof.Machine.execDbgctlWrite d v s
  | .mmapxWrite d v => Sys2Proof.Machine.execMmapxWrite d v s
  | .ctxeWrite d v => Sys2Proof.Machine.execCtxeWrite d v s
  | .partitionConfigWrite d sr v => Sys2Proof.Machine.execPartitionConfigWrite d sr v s
  | .dbqRead d sd => Sys2Proof.Machine.execDbqRead d sd s
  | .dptOverlayWrite d v => Sys2Proof.Machine.execDptOverlayWrite d v s
  | .synccfgWrite d v => Sys2Proof.Machine.execSynccfgWrite d v s
  | .pwrcapWrite d v => Sys2Proof.Machine.execPwrcapWrite d v s
  | .dctlDrain d v => Sys2Proof.Machine.execDctlDrain d v s
  | .divisorApply d => Sys2Proof.Machine.execDivisorApply d s
  | .lctlReq d v => Sys2Proof.Machine.execLctlReq d v s
  | .elctlConsume d v => Sys2Proof.Machine.execElctlConsume d v s
  | .elctlClearLost d => Sys2Proof.Machine.execElctlClearLost d s
  | .dresetWrite d v => Sys2Proof.Machine.execDresetWrite d v s
  | .calibrationDue t => Sys2Proof.Machine.execCalibrationDue t s
  | .tsyncPulse => Sys2Proof.Machine.execTsyncPulse s
  | .packageTimeSlew => Sys2Proof.Machine.execPackageTimeSlew s
  | .tsyncOutPulse => Sys2Proof.Machine.execTsyncOutPulse s
  | .doorbell off data => Sys2Proof.Machine.execDoorbell off data s
  | .doorbellService d => Sys2Proof.Machine.execDoorbellService d s
  | .timetable q part res image len src save status => Sys2Proof.Machine.execTimetable q part res image len src save status s
  | .write q sz va value => Sys2Proof.Machine.execWrite q sz va value s
  | .wait q op sz va value mask => Sys2Proof.Machine.execWait q op sz va value mask s
  | .waitSlotCheck q => Sys2Proof.Machine.execWaitSlotCheck q s
  | .timer q n per period time ib bytes => Sys2Proof.Machine.execTimer q n per period time ib bytes s
  | .timerCancel q n => Sys2Proof.Machine.execTimerCancel q n s
  | .indirect q bytes va => Sys2Proof.Machine.execIndirect q bytes va s
  | .fence q => Sys2Proof.Machine.execFence q s
  | .signalStore q sz msi vec va value => Sys2Proof.Machine.execSignalStore q sz msi vec va value s
  | .signalMax q sz msi vec va value => Sys2Proof.Machine.execSignalMax q sz msi vec va value s
  | .queueWatchdog q => Sys2Proof.Machine.execQueueWatchdog q s
  | .timerSlotBoundary d => Sys2Proof.Machine.execTimerSlotBoundary d s
  | .leaseRenew d => Sys2Proof.Machine.execLeaseRenew d s
  | .leaseExpiry d => Sys2Proof.Machine.execLeaseExpiry d s
  | .leaseTakeover d => Sys2Proof.Machine.execLeaseTakeover d s
  | .queueLeaderMove q => Sys2Proof.Machine.execQueueLeaderMove q s
  | .mailboxScan d => Sys2Proof.Machine.execMailboxScan d s
  | .create d e => Sys2Proof.Machine.execCreate d e s
  | .destroy d e => Sys2Proof.Machine.execDestroy d e s
  | .map d e => Sys2Proof.Machine.execMap d e s
  | .context d e => Sys2Proof.Machine.execContext d e s
  | .inval d e => Sys2Proof.Machine.execInval d e s
  | .preempt d e => Sys2Proof.Machine.execPreempt d e s
  | .qreset d e => Sys2Proof.Machine.execQreset d e s
  | .attest d e => Sys2Proof.Machine.execAttest d e s
  | .flitReplay link dir => Sys2Proof.Machine.execFlitReplay link dir s
  | .laneError link dir module lane => Sys2Proof.Machine.execLaneError link dir module lane s
  | .linkDrained link => Sys2Proof.Machine.execLinkDrained link s
  | .linkPauseEnd link => Sys2Proof.Machine.execLinkPauseEnd link s
  | .trainingAttemptEnd link => Sys2Proof.Machine.execTrainingAttemptEnd link s
  | .portInboundAccess port wr addr data => Sys2Proof.Machine.execPortInboundAccess port wr addr data s
  | .bar2Access wr off data => Sys2Proof.Machine.execBar2Access wr off data s
  | .atsTranslationComplete c ok => Sys2Proof.Machine.execAtsTranslationComplete c ok s
  | .atsInvalidation pasid page => Sys2Proof.Machine.execAtsInvalidation pasid page s
  | .functionLevelReset => Sys2Proof.Machine.execFunctionLevelReset s
  | .bringUp => Sys2Proof.Machine.execBringUp s
  | .illegalInstruction => Sys2Proof.Machine.execIllegalInstruction s
  | .uncoreDown site => Sys2Proof.Machine.execUncoreDown site s
  | .apertureAccessPerformed d => Sys2Proof.Machine.execApertureAccessPerformed d s
  | .eventLatchSet d => Sys2Proof.Machine.execEventLatchSet d s

end Sys2Proof.Machine
end

