-- ==== Sys2Proof/Machine/Sched.lean ====
section
/-! DEFINITION. What happens next: the text walk (R42-R45, R48), which engines issue in a tile cycle (R71, R72, R75, R298),
the cycles of a die and its firmware core, and a package tick from its outside events to its end (log 1, log 4).
`run` is the meaning of an instruction: Step.lean supplies `exec`. -/

namespace Sys2Proof.Machine

/-! ### Fetch (R78-R80, R133, R134, R287) -/

/-- The instruction at a text address: a word that reaches the declared length is the end of text (R133). -/
def Store.instrAt (m : Store) (a : Nat) : Instr :=
  let w := m.textAt a
  if w != eotWord && decide (m.textLen < a + headLength w) then .endOfText
  else match decodeText w (m.textAt (a + 1)) (m.textAt (a + 2)) with
  | .ok i => i
  | .error _ => .illegalInstruction

/-- The instruction at a sequencer address. -/
def Store.seqInstrAt (m : Store) (a : Nat) : Instr :=
  match decodeSeq (m.seqAt a) with
  | .ok i => i
  | .error _ => .illegalInstruction

/-- The instruction an agent stands at. -/
def State.fetch (s : State) (a : Agent) : Instr :=
  match a with
  | .eng t .tsq => (s.tile t).store.seqInstrAt (s.tile t).tsq.tpc
  | .eng t e => (s.tile t).store.instrAt ((s.tile t).pos e).pc
  | .fwc d => (s.fwc d).instr
  | .pkg => .illegalInstruction

/-! ### The walk of the text engines (R42-R45, R48) -/

/-- What the other engines observe of a CTL word (R42). -/
inductive Flow | none | transfer | halt
deriving DecidableEq, Repr

def flowOf (i : Instr) : Flow :=
  match i with
  | .xfer _ _ _ | .xfern _ _ _ | .call _ _ | .lpend _ _ => .transfer
  | .halt _ => .halt
  | _ => .none

namespace Tile

/-- The engine's issue slot is free, and no signal of it waits for room (R46). -/
def ready (x : Tile) (e : Eng) : Bool :=
  !(x.pos e).arrived && !(x.pos e).stopped && decide ((x.pos e).busy ≤ x.cyc) && !x.sigStuck e
/-- The word the engine stands at. -/
def wordAt (x : Tile) (e : Eng) : Word := x.store.textAt (x.pos e).pc
/-- That word is the engine's own, or the end of text (R42, R79). -/
def atOwn (x : Tile) (e : Eng) : Bool := x.wordAt e == eotWord || engOf (x.wordAt e) == e
/-- What the CTL word the engine stands at makes it do. -/
def flow (x : Tile) (e : Eng) : Flow := flowOf (x.store.instrAt (x.pos e).pc)
/-- The decision for the transfer word an engine stands at (R44). -/
def decision (x : Tile) (e : Eng) : Option Dec := x.sync.decs[(x.pos e).applied - x.sync.decBase]?

/-- Decisions that all three engines have applied leave the FIFO (R44). -/
def freeDecs (x : Tile) : Tile :=
  let n := min x.pvu.applied (min x.ptda.applied x.pxp.applied) - x.sync.decBase
  { x with sync := { x.sync with decs := x.sync.decs.drop n, decBase := x.sync.decBase + n } }

/-- One word passed by an engine: a foreign word, or a transfer word whose decision may be applied (R42, R44, R170). None
where the engine stays. -/
def pass (x : Tile) (e : Eng) : Option Tile :=
  let p := x.pos e
  if !x.ready e || x.atOwn e || !x.inWindow e 1 then none
  else match if e = .ctl then Flow.none else x.flow e with
  | .none => some (x.setPos e { p with pc := p.pc + 1, walk := p.walk + 1 })
  | .halt => none
  | .transfer =>
    match x.decision e, p.seen with
    | some d, some c =>
      if x.cyc < max (c + 1) (max (d.made + 1) d.avail) then none
      else some (x.setPos e { p with pc := d.next, walk := p.walk + 1, applied := p.applied + 1, seen := none }).freeDecs
    | _, _ => none

/-- An engine passes words while it can. -/
def passAll (e : Eng) : Nat → Tile → Tile
  | 0, x => x
  | n + 1, x =>
    match x.pass e with
    | some y => passAll e n y
    | none => x

/-- An engine that stands at a transfer word has reached it; one at a HALT that the CTL has executed stops (R48, R170). -/
def stand (x : Tile) (e : Eng) : Tile :=
  let p := x.pos e
  if e = .ctl || !x.ready e || x.atOwn e || !x.inWindow e 1 then x
  else match x.flow e with
  | .none => x
  | .transfer => if p.seen.isNone then x.setPos e { p with seen := some x.cyc } else x
  | .halt => if x.stop.haltAt.isSome then x.setPos e { p with stopped := true } else x

def textEngines : List Eng := [.ctl, .vu, .tda, .xp]

/-- The walk of a cycle: the engines pass words until none can, whatever their order (R71). -/
def walkAll : Nat → Tile → Tile
  | 0, x => x
  | n + 1, x =>
    let y := textEngines.foldl (fun x e => passAll e 0x20000 x) x
    if (y.pctl.walk, y.pvu.walk, y.ptda.walk, y.pxp.walk) = (x.pctl.walk, x.pvu.walk, x.ptda.walk, x.pxp.walk) then y
    else walkAll n y

def walkText (x : Tile) : Tile := textEngines.foldl stand (walkAll 0x20000 x)

/-- The engine stands, within the window, at a word of its own whose tokens it holds: the word could issue (R46, R75). -/
def couldIssue (x : Tile) (e : Eng) : Bool :=
  match e with
  | .tsq => x.seat.phase % 2 == 0 && !x.tsq.halted && decide (x.tsq.busy ≤ x.cyc)
  | e => x.ready e && x.atOwn e
      && (if x.wordAt e == eotWord then x.inWindow e 1 else x.inWindow e (x.unitLen e) && x.tokens e (x.unitRing e))

/-! ### Stalls that event counters count (R380) -/

def waitsToken (x : Tile) (e : Eng) : Bool :=
  x.ready e && x.atOwn e && x.wordAt e != eotWord && x.inWindow e (x.unitLen e) && !x.tokens e (x.unitRing e)
def waitsWindow (x : Tile) (e : Eng) : Bool :=
  x.ready e && x.wordAt e != eotWord && !x.inWindow e (if x.atOwn e then x.unitLen e else 1)
def waitsDecision (x : Tile) (e : Eng) : Bool :=
  e != .ctl && x.ready e && !x.atOwn e && x.inWindow e 1 && x.flow e == .transfer

end Tile

/-- KWAIT, SKWAIT and SEMWAIT (R380). -/
def isWait (i : Instr) : Bool :=
  match i with
  | .kwait _ _ _ | .kwaitReg _ _ _ | .semwait _ _ | .skwait _ _ | .skwaitReg _ _ => true
  | _ => false

/-- Words that go through the command queue of the TDA (R218). -/
def isQueued (i : Instr) : Bool :=
  match i with
  | .tmac _ _ _ _ _ _ _ _ | .tmacx _ _ _ _ _ _ _ _ | .tldb _ _ _ _ _ _ | .tzero _ _ _ _ _ _ _
  | .raceMin _ _ _ _ _ _ _ | .raceMax _ _ _ _ _ _ _ | .raceArgmin _ _ _ _ _ _ _ | .raceArgmax _ _ _ _ _ _ _
  | .raceSort _ _ _ _ _ _ _ | .raceTopk _ _ _ _ _ _ _ => true
  | _ => false

/-! ### Which engines issue in a tile cycle -/

abbrev Run := Instr → State → Out

namespace State

/-- The state in which an engine's word, with the word it guards, would leave the tile; nothing is scheduled by it. -/
def trial (run : Run) (s : State) (t : Nat) (e : Eng) : State :=
  let a := Agent.eng t e
  let s1 := took (run (s.fetch a) { s with cur := a }) s
  let s2 := if (s1.tile t).ctl.guard.isSome then took (run (s1.fetch a) { s1 with cur := a }) s1 else s1
  { s2 with cur := s.cur, agenda := s.agenda }

/-- Outcomes of a trial; a TRAP that takes its tokens issues, and waits for room (R183). -/
def trapped (t : Nat) (s' : State) : Bool := (s'.tile t).stop.frozen
def holds (t : Nat) (s' : State) : Bool := (s'.tile t).stop.held == .party
def issues (s : State) (t : Nat) (e : Eng) (s' : State) : Bool :=
  match e with
  | .tsq => (s'.tile t).tsq.count != (s.tile t).tsq.count
  | .ctl => (s'.tile t).pctl.walk != (s.tile t).pctl.walk || (s'.tile t).pctl.took != (s.tile t).pctl.took
  | e => ((s'.tile t).pos e).walk != ((s.tile t).pos e).walk

/-- The words an engine fetches are read: injections fire, errors are corrected or reported (R310, R375). -/
def touchFetch (s : State) (t : Nat) (e : Eng) : State × Option Nat :=
  let x := s.tile t
  match e with
  | .tsq => if x.tsq.tpc < x.store.seqLen then s.touch t (Eng.code .tsq, 0) .seq x.tsq.tpc x.tsq.tpc else (s, none)
  | e =>
    let a := (x.pos e).pc
    if a < x.store.textLen then s.touch t (e.code, 0) .text a (min (a + x.unitLen e) x.store.textLen - 1) else (s, none)

def touchAll (s : State) (t : Nat) (es : List Eng) : State × List (Eng × Nat) :=
  es.foldl (fun r e =>
    match r.1.touchFetch t e with
    | (s, some a) => (s, r.2 ++ [(e, a)])
    | (s, none) => (s, r.2)) (s, [])

/-- What a tile's cycle does before any word issues: landings, buffers, the array, ring signals, FIFO elements. In a held
cycle it finds nothing left to do. A step of the array that faults is left to the decision of the cycle (R298). -/
def beforeIssue (s : State) (t : Nat) : ArrayStep :=
  let s := s.modTile t fun x => { x with stop := { x.stop with held := .none } }
  let s := took (execPrefetchBufferFilled t (s.landDue t)) s
  let s := took (execTdaCommandRetire t s) s
  let s := took (execRingTokenSignal t s) s
  let s := took (execFifoElementPoppable t s) s
  let r := match s.latchNext t with
    | (s, none) => s.startHead t
    | r => r
  (r.1.endTranslation t, r.2)

/-- The instruction an engine would issue: the guarded one at a GUARD (R135). -/
def unitInstr (s : State) (t : Nat) (e : Eng) : Instr :=
  let x := s.tile t
  if x.atGuard e then x.store.instrAt (x.pctl.pc + 1) else s.fetch (.eng t e)

/-- The stall sources of a cycle that counts: each adds 1 where some engine meets it (R380). -/
def countStalls (s : State) (t : Nat) (stuck : List Eng) : State :=
  let x := s.tile t
  let one (src : BitVec 8) (b : Bool) (y : Tile) : Tile := if b then y.bump src 1 else y
  let es := Tile.textEngines
  s.modTile t fun y =>
    one 0x02 (es.any x.waitsToken) (one 0x03 (es.any fun e => x.sigStuck e || x.trapStalls e) (one 0x04 (es.any x.waitsWindow)
      (one 0x05 (es.any x.waitsDecision)
        (one 0x06 (stuck.any fun e => e == .tda && isQueued (s.fetch (.eng t e)) && x.tda.full)
          (one 0x07 (stuck.any fun e => isWait (s.unitInstr t e)) y)))))

/-- The issue order within a cycle: the words read the state that stands at the cycle's start. -/
def issueOrder : List Eng := [.xp, .ctl, .tda, .vu, .tsq]

/-- The stop of a cycle by the first faulting word in order, or by the array's step, which stands as the TDA's: CTL, VU, TDA, XP,
TSQ (R298). -/
def firstTrap (s : State) (t : Nat) (bad : List (Eng × Nat)) (array : Option (Nat × BitVec 8 × DWord)) (traps : List Eng) :
    Option State :=
  let word (e : Eng) : State :=
    match bad.find? fun b => b.1 == e with
    | some b => s.trapWord t e Cause.ecc (BitVec.ofNat 64 b.2)
    | none => s.first [.issue (.eng t e)]
  match traps.find? fun e => e == .ctl || e == .vu, array with
  | some e, _ => some (word e)
  | none, some f => some (s.arrayFreeze t f)
  | none, none => traps.head?.map word

/-- Decide a tile's cycle. A word that waits on a party outside holds the tile; else the first faulting word in order
freezes it; else every word that can issue does (R47, R71, R72, R75, R298). -/
def plan (run : Run) (s : State) (t : Nat) : State :=
  let x := s.tile t
  if x.stop.frozen || !x.seat.run then s
  else if x.stop.halted then (s.beforeIssue t).1.first [.close t]
  else
    let (s, array) := s.beforeIssue t
    let s := s.modTile t Tile.walkText
    let es := [Eng.ctl, .vu, .tda, .xp, .tsq].filter (s.tile t).couldIssue
    let (s, bad) := s.touchAll t es
    let ok := es.filter fun e => !(bad.any fun b => b.1 == e)
    let after := ok.map fun e => (e, s.trial run t e)
    let held := (after.filter fun r => holds t r.2).map (·.1)
    let traps := es.filter fun e => bad.any (·.1 == e) || after.any fun r => r.1 == e && trapped t r.2
    if !held.isEmpty then
      (held.foldl (fun s e => s.trial run t e) s).modTile t fun y => y.bump 0x0D 1
    else match s.firstTrap t bad array traps with
    | some s => s
    | none =>
      if (s.tile t).deadlocked then took (execTokenDeadlock t s) s
      else
        let go := (after.filter fun r => s.issues t r.1 r.2).map (·.1)
        let s := s.countStalls t (ok.filter fun e => !go.contains e)
        s.first (((issueOrder.filter go.contains).map fun e => Turn.issue (.eng t e)) ++ [.close t])

/-- A tile's cycle ends: it counts, and the tile may be halted (R48, R71, R380). -/
def closeTile (s : State) (t : Nat) : State :=
  if (s.tile t).stop.frozen then s
  else
    let s := s.modTile t fun x => { x with cyc := x.cyc + 1 }.bump 0x01 1
    took (execTileHalted t s) s

/-- An agent's next word. A frozen tile issues nothing (R75). -/
def issueTurn (run : Run) (s : State) (a : Agent) : Out :=
  match a with
  | .eng t e => if (s.tile t).stop.frozen then .next s else run (s.fetch (.eng t e)) { s with cur := .eng t e }
  | a => run (s.fetch a) { s with cur := a }

/-! ### A die's tile cycle (R286, R287, R294, R363) -/

/-- A blocking word of a firmware core ends, if its time has come. -/
def endBlocking (s : State) (d : Nat) : State :=
  match (s.fwc d).blk with
  | some (.mtsr 0x0A v n) => if (s.fwc d).cyc < n then s else s.landTcmd d v
  | some (.tcmd c _) => if c.setWidth 3 = 1#3 then took (execTcmdResume d s) s else took (execTcmdAbort d s) s
  | _ => s.endOther d

/-- What a firmware core does in a cycle before it issues: landings, buffers, its latch, the end of a blocking word, an
interrupt. A TCMD takes its turn after the MTSR that named it. -/
def fwcBefore (s : State) (d : Nat) : State :=
  let s := (s.landFwc d).modFwc d fun f =>
    { f with ctl := { f.ctl with t := f.ctl.t.map fun (e : Nat × Target) => (e.1, Target.fill e.2 f.cyc) } }
  (((s.setLatch d).endBlocking d).endBlocking d).fwcInterrupt d

/-- Words of the unit that a firmware core issues: a GUARD and its word are one (R135). -/
def fwcUnitLen (f : Fwc) : Nat :=
  let w := fwcText f f.pc
  let next := fwcText f (f.pc + 1)
  if tagOf w == 0#2 && opOf w == 0x3C && guardable next then 1 + headLength next else headLength w

/-- The firmware core's part of a cycle: its turn, where it issues. -/
def fwcCycle (s : State) (d : Nat) : State × List Turn :=
  if !s.alive d then (s, [])
  else
    let s := s.fwcBefore d
    if !s.fwcIssues d then (s, [])
    else
      let f := s.fwc d
      if f.codeEnd ≤ f.pc then (s, [.issue (.fwc d)])
      else match s.touchSram d (0x8000 + f.pc) (0x8000 + min (f.pc + fwcUnitLen f) f.codeEnd - 1) with
      | (s, some a) => (s.exception d Cause.ecc (BitVec.ofNat 64 a) (fwcHead f), [])
      | (s, none) => (s, [.issue (.fwc d)])

/-- A pulse of a die's 600 MHz clock: within a divided cycle it passes; else a tile cycle begins. A die in reset only counts: its tiles
issue nothing and it opens no phase (R327; log 68). -/
def dieTurn (s : State) (d : Nat) : State :=
  if (s.die d).phaseLeft ≠ 0 then s.modDie d fun x => { x with phaseLeft := x.phaseLeft - 1 }
  else if s.pkg.dreset.getLsbD d then s.first [.done_ d]
  else
    let s := s.parts.foldl (fun s (e : Nat × Part) => if e.2.active then s.dieOpen e.1 d else s) s
    let (s, ts) := s.fwcCycle d
    let tiles := (upto 64).map (64 * d + ·)
    let running := tiles.filter fun t => (s.tile t).seat.run && !(s.tile t).stop.frozen
    s.first (ts ++ running.map Turn.plan ++ [.done_ d])

/-- Counters written in this tile cycle hold what was written, whatever they counted in it (R379). -/
def keepWritten (s : State) (d : Nat) : State :=
  ((s.die d).evcSet.foldl (fun s (e : Option Nat × Nat × DWord) =>
    match e.1 with
    | some t => s.modTile t fun x => { x with evc := x.evc.put e.2.1 { x.evc.get evc0 e.2.1 with count := e.2.2 } }
    | none => s.modDie d fun x => { x with
        evc := x.evc.put e.2.1 { x.evc.get evc0 e.2.1 with count := e.2.2 }, evcKept := x.evcKept ++ [e.2] }) s).modDie d
    fun x => { x with evcSet := [] }

/-- A tile cycle of the die ends: it counts in periods of 600 MHz (R40, R363). -/
def dieDone (s : State) (d : Nat) : State :=
  (s.keepWritten d).modDie d fun x => { x with
    cyc := x.cyc + (x.cur.toNat + 1), phaseLeft := x.cur.toNat, fwc := { x.fwc with cyc := x.fwc.cyc + 1 } }

/-! ### A package tick -/

/-- Events that come from outside the package (the host, its bus, other packages, pins, wear). -/
def outside (i : Instr) : Bool :=
  match i with
  | .doorbell _ _ | .tsyncPulse | .flitReplay _ _ | .laneError _ _ _ _ | .portInboundAccess _ _ _ _ | .bar2Access _ _ _
  | .atsTranslationComplete _ _ | .atsInvalidation _ _ | .functionLevelReset | .bringUp | .uncoreDown _ => true
  | _ => false

/-- The turns of a tick: its outside events, then the package. -/
def newTick (s : State) : State :=
  let due := s.inputs.filter fun e => decide (e.1 ≤ s.ticks) && outside e.2
  { s with
    inputs := s.inputs.filter fun e => !decide (e.1 ≤ s.ticks)
    agenda := due.map (fun e => Turn.ev e.2) ++ [.open_] }

/-- Mesh links and ports. -/
def linkStep (s : State) (k : Nat) : State := ((s.drainLink k).endPause k).endAttempt k

/-- The lease holder gives away the queues of dies in reset (R343). -/
def moveQueues (s : State) (d : Nat) : State :=
  if s.tableHeld d then s
  else s.allQueues.foldl (fun s (k : Nat × Nat) =>
    if s.queueHeld d k.1 k.2 then s
    else match s.walkQueue k.1 k.2 with
    | some (s, qcb) =>
      if s.dstate (QSlot.leader (s.qslot qcb)) = 1#2 && decide (QSlot.leader (s.qslot qcb) < 8) then
        s.moveLeader ⟨d, BitVec.ofNat 20 k.1, BitVec.ofNat 8 k.2⟩ else s
    | none => s.markTable k.1) s

/-- The firmware of a die in a tick: links, lease, mailbox, doorbells, timers, queues (R328, R335, R340-R344, R395). -/
def firmware (s : State) (d : Nat) : State :=
  if !s.alive d || s.pkg.boot < 8 || s.pkg.boot = 11 then s
  else
    let s := ((s.linkService d).expireLease d).takeLease d
    let s := if (s.die d).fe.nextRenew ≤ s.time || s.dstate d ≠ 0#2 then s.renewLease d else s
    let s := if s.isLeader d && !s.mbxHeld d then s.writeReplies else s
    let s := if s.isLeader d && (s.slotBoundary || (s.die d).fe.scan) then s.scanMailbox d else s
    let s := if s.isLeader d && s.slotBoundary then s.moveQueues d else s
    let s := (s.serveDoorbell d).visitTimers d
    ((s.die d).fe.runs.foldl (fun s r => s.frontStep r.q) s).programTimers d

/-- Granules of a partition that are being released. -/
def releasing (s : State) (p : Nat) : List Nat :=
  let q := s.part p
  (s.listedWords (poolBase q) 65536).flatMap fun i =>
    match s.regionDir q i with
    | .ok (some k) =>
      let base := poolBase q + 0x80000 + 0x40000 * k
      ((s.listedWords base 32768).filter fun j =>
        let e := s.physNum (base + 8 * j) 8
        bit e 63 && decide (bits e 61 59 = 1)).map (i * 32768 + ·)
    | _ => []

/-- The copies in a tick, once the dies have had their cycles: they leave, those too that have entered a buffer in it, start in
the order they left (tick, logical tile, program order), land, retire; the watermarks follow (R38, R117, R119, R121, R264). R38
orders commands of equal ticks alone: of commands that leave in one package tick because their different ticks have passed, the
earlier tick leaves first, as the buffer is sorted by time (the model's choice; log 68). -/
def copiesStep (s : State) : State :=
  let s := s.copies.foldl (fun s c => took (execCopyLeave c.id s) s) s
  let s := (sortBy Copy.leftAt (sortBy Copy.due (sortBy Copy.lt s.copies))).foldl (fun s c => took (execCopyStart c.id s) s) s
  let s := s.copies.foldl (fun s c => took (execCopyLanded c.id s) s) s
  let s := s.copies.foldl (fun s c => took (execCopyRetired c.id s) s) s
  (upto 8).foldl (fun s d => took (execWatermarkAdvance d s) s) s.retryInvals

/-- Pulses of a die's clock in a package tick: 0, 1 or 2 (R40; log 5). -/
def pulses (s : State) (d : Nat) : Nat :=
  match Config.clockWander s.ticks d with
  | 1 => 0
  | 2 => 2
  | _ => 1

/-- Presses that fall due: of tiles with a state of their own, and of the rest, whose LAST is still 0 (R361). -/
def calibrateAll (s : State) : State :=
  let s := s.tiles.foldl (fun s (e : Nat × Tile) => s.calibrate e.1) s
  (upto 8).foldl (fun s d =>
    let n := (s.die d).calint.toNat
    if s.pkg.prev < n && n ≤ s.time then (upto 64).foldl (fun s k => s.calibrate (64 * d + k)) s else s) s

/-- The turns of a tick's dies in their order (R322): each die's firmware, then its cycles. -/
def dieTurns (s : State) : List Turn := (upto 8).flatMap fun d => Turn.firm d :: List.replicate (s.pulses d) (Turn.die d)

/-- The package's part of a tick, and the turns of its dies. -/
def openTick (s : State) : State :=
  let s := (upto 8).foldl timeZoneSlip s.resizeBar2
  let s := if 4 ≤ s.pkg.boot && s.pkg.boot < 10 then s.bringUp else s
  let s := s.tsyncOutput
  let s := s.calibrateAll
  let s := (meshLinks ++ portLinks).foldl linkStep s
  let s := ((upto 8).foldl endPress s).retryInbound.retryStatus
  let s := s.parts.foldl (fun s (e : Nat × Part) => (s.launchStart e.1).controllerOpen e.1) s
  let s := s.parts.foldl (fun s (e : Nat × Part) =>
    if e.2.active then (s.releasing e.1).foldl (fun s g => s.makeOffer e.1 (0x200000 * g)) s else s) s
  let s := (upto 8).foldl (fun s d => took (execDivisorApply d s) s) s
  s.first (s.dieTurns ++ [.endTick])

/-- What a phase controller sees at the end of a tick (R35). -/
def partStep (s : State) (p : Nat) : State :=
  (((((((s.lateHold p).partitionDone p).phaseComplete p).deadlineReached p).stragglerLimit p).saveEntry p).saveComplete p)

/-- Counters of a die written in this tick hold what was written, whatever they counted in it (R379). -/
def Die.keepCounts (x : Die) : Die :=
  { x with evcKept := [], evc := x.evcKept.foldl (fun m e => m.put e.1 { m.get evc0 e.1 with count := e.2 }) x.evc }

/-- Straggler ticks and package ticks (R380). -/
def countTick (s : State) : State :=
  let s := { s with dies := s.dies.map fun (e : Nat × Die) => (e.1, { e.2 with evc := bumpAll e.2.evc 0x25 1 }) }
  s.parts.foldl (fun s (e : Nat × Part) => if e.2.st = .extended then s.bumpDie (lead e.2) 0x20 1 else s) s

/-- The end of a package tick. -/
def closeTick (s : State) : State :=
  let s := s.copiesStep
  let s := s.parts.foldl (fun s (e : Nat × Part) => s.partStep e.1) s
  let s := s.countTick
  { s with dies := s.dies.map fun (e : Nat × Die) => (e.1, Die.keepCounts e.2.writeLog) }.nextTick

/-- The next turn. -/
def turn (run : Run) (s : State) : Out :=
  match s.agenda with
  | [] => .next s.newTick
  | u :: rest =>
    let s := { s with agenda := rest }
    match u with
    | .ev i => run i { s with cur := .pkg }
    | .open_ => .next s.openTick
    | .firm d => .next (s.firmware d)
    | .die d => .next (s.dieTurn d)
    | .plan t => .next (s.plan run t)
    | .issue a => s.issueTurn run a
    | .close t => .next (s.closeTile t)
    | .done_ d => .next (s.dieDone d)
    | .endTick => .next s.closeTick

end State

end Sys2Proof.Machine
end

