-- ==== Sys2Proof/Machine/Step.lean ====
section
/-! DEFINITION. One step: the next turn of the agenda, with `exec` as the meaning of instructions. -/

namespace Sys2Proof.Machine

/-- One step of the machine (log 1). -/
def step (s : State) : Out := s.turn exec

/-- The agent that runs a table word: the firmware core for SYS words, else the engine of the word (log 9). -/
def agentOf (w : Word) : Agent :=
  if isSeqWord w then .eng 0 .tsq
  else if tagOf w == 0#2 && opOf w == 0x3D then .fwc 0
  else .eng 0 (engOf w)

/-- Words that only an exchange phase admits (R29). -/
def exchangeOnly (i : Option Instr) : Bool :=
  match i with
  | some (.realign _) | some (.tcal _ _ _) | some (.tmarg _ _ _ _) | some (.xcopy _ _) | some (.xgath _ _)
  | some (.xscat _ _) | some (.xflag _ _) => true
  | _ => false

/-- Words placed from an address on. -/
def putWords (m : Map Word) (a : Nat) (w0 w1 w2 : Word) : Map Word :=
  ((m.set 0#32 a w0).set 0#32 (a + 1) w1).set 0#32 (a + 2) w2

/-- The instruction of a table row stored where the next step fetches, on tile 0 or on the firmware core of die 0 (log 1,
log 9): its words at the agent's pc, a text that reaches past them, a phase that admits the word, the agent's turn. -/
def State.withFetchWord (s : State) (nbits w : Nat) : State :=
  let v := w % 2 ^ nbits
  let w0 := tableWord v 0
  let a := agentOf w0
  let s := { s with agenda := [.issue a], cur := a }
  match a with
  | .fwc d => s.modFwc d fun f => { f with pc := 24576 }.write 0x38000
      (leBytes 4 w0.toNat ++ leBytes 4 (tableWord v 1).toNat ++ leBytes 4 (tableWord v 2).toNat)
  | .eng t .tsq => s.modTile t fun x => { x with
      seat := { x.seat with run := true }
      store := { x.store with seq := x.store.seq.set 0#32 x.tsq.tpc w0, seqLen := max x.store.seqLen (x.tsq.tpc + 1) } }
  | .eng t e => s.modTile t fun x => { x with
      seat := { x.seat with run := true, phase := if exchangeOnly (decodeTableWord nbits w) then 1 else 0 }
      store := { x.store with
        text := putWords x.store.text (x.pos e).pc w0 (tableWord v 1) (tableWord v 2)
        textLen := max x.store.textLen ((x.pos e).pc + 3) } }
  | .pkg => s

end Sys2Proof.Machine
end

