-- ==== Sys2Proof/Safety.lean ====
section
/-! DEFINITION. What claims are stated in: when a word may issue, what its issue leaves alone, what a landing leaves alone,
the invariant of memory. -/

namespace Sys2Proof.Machine

/-! ### A word's turn -/

/-- A word of engine `e` of tile `t` may issue: it is the engine's turn, the tokens of its ring bits are there (R46), the
phase admits it (R29), and no GUARD before it turned out false (R135). -/
abbrev Ready (s : State) (t : Nat) (e : Eng) (h : Ring) (leg : Legal) : Prop :=
  s.cur = .eng t e ∧ (s.tile t).tokens e h = true ∧ leg.ok (s.tile t).seat.phase = true ∧ (s.tile t).guardFalse e = false

/-- A word of the firmware core of die `d` may issue: it is the core's turn and no GUARD before it turned out false. -/
abbrev FwcReady (s : State) (d : Nat) : Prop :=
  s.cur = .fwc d ∧ ((s.fwc d).ctl.guard.map (!·.holds)).getD false = false

/-- A word of the sequencer of tile `t` may issue: its turn, in a compute phase (R241). -/
abbrev SeqReady (s : State) (t : Nat) : Prop := s.cur = .eng t .tsq ∧ (s.tile t).seat.phase % 2 = 0

/-- The state in which a word of `len` words of an engine has issued from `s`, leaving `f` (R46, R73, R158). -/
abbrev State.issued (s : State) (t : Nat) (e : Eng) (h : Ring) (len : Nat) (f : Eff) : State :=
  s.modTile t fun x => x.issue e h len f

/-- The state in which a sequencer word has issued: the next address, the first cycle of the next word, one word more,
what lands (R241). -/
abbrev State.seqIssued (s : State) (t : Nat) (x : Tile) (f : Eff) : State :=
  s.modTile t fun y => { y with
    tsq := { y.tsq with
      tpc := (f.next.map (·.1)).getD (x.tsq.tpc + 1)
      busy := x.cyc + (f.next.map (·.2)).getD f.occ
      count := x.tsq.count + 1 }
    pend := y.pend ++ pends x.cyc x.tsq.count .tsq 0 f.lands }

/-! ### What stays -/

/-- Everything outside tile `t` stays: every other tile, every die, partition, context and link, every copy, every byte of
physical memory, the package registers, package time. -/
abbrev OnlyTile (t : Nat) (s s' : State) : Prop :=
  (∀ u, u ≠ t → s'.tile u = s.tile u) ∧ s'.dies = s.dies ∧ s'.parts = s.parts ∧ s'.ctxs = s.ctxs ∧ s'.links = s.links
    ∧ s'.copies = s.copies ∧ s'.mem = s.mem ∧ s'.pkg = s.pkg ∧ s'.time = s.time ∧ s'.ticks = s.ticks

/-- A tile's registers and memories stay: scalars, predicates, targets, loop levels, the CTL latch; register space,
scratchpad, operand file, the other latches, both texts, each read at every address; the VU's registers and mask stack. -/
abbrev SameRegisters (x y : Tile) : Prop :=
  (∀ r, y.ctl.rS r = x.ctl.rS r) ∧ (∀ p, y.ctl.rP p = x.ctl.rP p) ∧ (∀ k, y.ctl.rT k = x.ctl.rT k)
    ∧ (∀ k, y.ctl.rL k = x.ctl.rL k) ∧ y.ctl.alu = x.ctl.alu
    ∧ (∀ sp a, Mem.get1 (y.store.get sp) a = Mem.get1 (x.store.get sp) a)
    ∧ (∀ a, y.store.textAt a = x.store.textAt a) ∧ (∀ a, y.store.seqAt a = x.store.seqAt a)
    ∧ y.vu = x.vu ∧ y.vw = x.vw

/-- The array, the sequencer, the exchange port, tokens and FIFOs, frames and counters of a tile stay. -/
abbrev SameUnits (x y : Tile) : Prop :=
  y.tda = x.tda ∧ y.tsq = x.tsq ∧ y.xp = x.xp ∧ y.frames = x.frames ∧ y.trim = x.trim ∧ y.press = x.press
    ∧ y.seat = x.seat ∧ y.evc = x.evc

/-- Engines other than `e` stand where they stood. -/
abbrev OtherEngines (e : Eng) (x y : Tile) : Prop := ∀ e', e' ≠ e → y.pos e' = x.pos e'

/-! ### The invariant -/

/-- Physical memory has its canonical form. -/
abbrev State.memoryOk (s : State) : Prop := Memory.wf s.mem = true

/-- Every byte memory of a tile has its canonical form. -/
abbrev Store.ok (m : Store) : Prop :=
  Memory.wf m.reg = true ∧ Memory.wf m.scr = true ∧ Memory.wf m.ofl = true ∧ Memory.wf m.lat = true

/-- Nothing is stored for s0 and p0, whose writes are discarded (R53, R54). -/
abbrev Ctl.zeroOk (c : Ctl) : Prop := c.s.get 0#32 0 = 0#32 ∧ c.p.get false 0 = false

/-- A tile's memories have their canonical form, its hard-wired registers hold nothing, and the reserved bits of WCFG and of the
views are zero (R11, R43, R60). -/
abbrev Tile.ok (x : Tile) : Prop :=
  x.store.ok ∧ x.ctl.zeroOk ∧ x.stop.wcfg &&& 0xFFFF07E0#32 = 0#32 ∧ ∀ k, x.vw.get 0#64 k &&& 0xF00000000003F800#64 = 0#64

/-- The same of a firmware core; ELCTL's pointers have 9 bits (R376). -/
abbrev Die.ok (x : Die) : Prop :=
  Memory.wf x.fwc.sram = true ∧ x.fwc.ctl.zeroOk ∧ x.logWr < 512 ∧ x.logRd < 512

/-- The invariant of the machine: memory, tiles and dies. -/
abbrev State.ok (s : State) : Prop := s.memoryOk ∧ (∀ t, (s.tile t).ok) ∧ ∀ d, (s.die d).ok

end Sys2Proof.Machine
end

