-- ==== Sys2Proof/Certificates/Slice0/Obligations.lean ====
section
/-! DEFINITION. The statements about the LQ8: what each instruction does where it completes, what it leaves alone, the
encodings, the invariant. Where a clause rests on a choice of the model, its docstring names the log entry. -/

open Sys2Proof Sys2Proof.Machine

namespace Sys2Proof.Claims

/-! ### What the tables of the rules say of one word

Each table names its instructions one by one; an instruction outside it has no entry. -/

/-- The results of the CTL words that only compute, from the CTL's registers at issue: ring bits, words, what lands when
(R157, R161-R165, R168, R173). -/
def ctlResult : Instr → Option (Ring × Nat × (Ctl → List (Nat × Land)))
  | .add h rd ra rb => some (h, 1, fun c => putS 1 rd (c.rS ra + c.rS rb))
  | .sub h rd ra rb => some (h, 1, fun c => putS 1 rd (c.rS ra - c.rS rb))
  | .min h rd ra rb => some (h, 1, fun c => putS 1 rd (if (c.rS ra).toInt ≤ (c.rS rb).toInt then c.rS ra else c.rS rb))
  | .max h rd ra rb => some (h, 1, fun c => putS 1 rd (if (c.rS rb).toInt ≤ (c.rS ra).toInt then c.rS ra else c.rS rb))
  | .minz h rd ra rb => some (h, 1, fun c => putS 1 rd (if (c.rS ra).toNat ≤ (c.rS rb).toNat then c.rS ra else c.rS rb))
  | .maxz h rd ra rb => some (h, 1, fun c => putS 1 rd (if (c.rS rb).toNat ≤ (c.rS ra).toNat then c.rS ra else c.rS rb))
  | .adda h rd ra rb k => some (h, 1, fun c => putS 1 rd (c.rS ra + c.rS rb * BitVec.ofNat 32 (2 ^ k.toNat)))
  | .mul h rd ra rb => some (h, 1, fun c => putS 3 rd (BitVec.ofInt 32 ((c.rS ra).toInt * (c.rS rb).toInt)))
  | .mulh h rd ra rb => some (h, 1, fun c => putS 3 rd (BitVec.ofInt 32 ((c.rS ra).toInt * (c.rS rb).toInt / 2 ^ 32)))
  | .mulhz h rd ra rb => some (h, 1, fun c => putS 3 rd (BitVec.ofNat 32 ((c.rS ra).toNat * (c.rS rb).toNat / 2 ^ 32)))
  | .and h rd ra rb => some (h, 1, fun c => putS 1 rd (c.rS ra &&& c.rS rb))
  | .or h rd ra rb => some (h, 1, fun c => putS 1 rd (c.rS ra ||| c.rS rb))
  | .xor h rd ra rb => some (h, 1, fun c => putS 1 rd (c.rS ra ^^^ c.rS rb))
  | .shl h rd ra rb => some (h, 1, fun c => putS 1 rd (BitVec.ofNat 32 ((c.rS ra).toNat * 2 ^ ((c.rS rb).toNat % 64))))
  | .shr h rd ra rb => some (h, 1, fun c => putS 1 rd (BitVec.ofNat 32 ((c.rS ra).toNat / 2 ^ ((c.rS rb).toNat % 64))))
  | .sar h rd ra rb => some (h, 1, fun c => putS 1 rd (BitVec.ofInt 32 ((c.rS ra).toInt / 2 ^ ((c.rS rb).toNat % 64))))
  | .addi h rd ra imm => some (h, 1, fun c => putS 1 rd (c.rS ra + imm.signExtend 32))
  | .andi h rd ra imm => some (h, 1, fun c => putS 1 rd (c.rS ra &&& imm.setWidth 32))
  | .ori h rd ra imm => some (h, 1, fun c => putS 1 rd (c.rS ra ||| imm.setWidth 32))
  | .xori h rd ra imm => some (h, 1, fun c => putS 1 rd (c.rS ra ^^^ imm.setWidth 32))
  | .shli h rd ra imm => some (h, 1, fun c => putS 1 rd (BitVec.ofNat 32 ((c.rS ra).toNat * 2 ^ imm.toNat)))
  | .shri h rd ra imm => some (h, 1, fun c => putS 1 rd (BitVec.ofNat 32 ((c.rS ra).toNat / 2 ^ imm.toNat)))
  | .sari h rd ra imm => some (h, 1, fun c => putS 1 rd (BitVec.ofInt 32 ((c.rS ra).toInt / 2 ^ imm.toNat)))
  | .clz h rd ra => some (h, 1, fun c => putS 1 rd (BitVec.ofNat 32 (32 - (c.rS ra).toNat.size)))
  | .popc h rd ra => some (h, 1, fun c => putS 1 rd (BitVec.ofNat 32 ((List.range 32).filter fun i => (c.rS ra).getLsbD i).length))
  | .mov h rd ra => some (h, 1, fun c => putS 1 rd (c.rS ra))
  | .bfx h rd ra rb => some (h, 1, fun c =>
      let pos := (c.rS rb).toNat % 32
      let we := min ((c.rS rb).toNat / 256 % 32 + 1) (32 - pos)
      putS 1 rd (BitVec.ofNat 32 ((c.rS ra).toNat / 2 ^ pos % 2 ^ we)))
  | .bfi h rd ra rb => some (h, 1, fun c =>
      let pos := (c.rS rb).toNat % 32
      let we := min ((c.rS rb).toNat / 256 % 32 + 1) (32 - pos)
      let ones : Word := BitVec.ofNat 32 (2 ^ we - 1)
      putS 1 rd ((c.rS rd &&& ~~~(ones <<< pos)) ||| ((c.rS ra &&& ones) <<< pos)))
  | .sel h rd ra rb neg p => some (h, 2, fun c => putS 1 rd (if c.rP p = !neg then c.rS ra else c.rS rb))
  | .li h rd imm => some (h, 2, fun _ => putS 1 rd imm)
  | .lih h rd imm => some (h, 2, fun c =>
      if rd = 0 then [(1, .alu (imm ++ 0#32))] else [(1, .sreg (rd + 1) imm), (1, .alu (imm ++ c.rS rd))])
  | .movl h rd => some (h, 1, fun c => putS 1 rd (c.alu.extractLsb' 0 32))
  | .movlHi h rd => some (h, 1, fun c => putS 1 rd (c.alu.extractLsb' 32 32))
  | .movlD h rd => some (h, 1, fun c => putD 1 rd c.alu)
  | .movlLnk h rd => some (h, 1, fun c => putS 1 rd ((c.rT 7).addr.setWidth 32))
  | .cmpEq h pd ra rb => some (h, 1, fun c => putP 1 pd (decide (c.rS ra = c.rS rb)))
  | .cmpNe h pd ra rb => some (h, 1, fun c => putP 1 pd (decide (c.rS ra ≠ c.rS rb)))
  | .cmpLt h pd ra rb => some (h, 1, fun c => putP 1 pd (decide ((c.rS ra).toInt < (c.rS rb).toInt)))
  | .cmpGe h pd ra rb => some (h, 1, fun c => putP 1 pd (decide ((c.rS rb).toInt ≤ (c.rS ra).toInt)))
  | .cmpLtz h pd ra rb => some (h, 1, fun c => putP 1 pd (decide ((c.rS ra).toNat < (c.rS rb).toNat)))
  | .cmpGez h pd ra rb => some (h, 1, fun c => putP 1 pd (decide ((c.rS rb).toNat ≤ (c.rS ra).toNat)))
  | .cmpiEq h pd ra imm => some (h, 1, fun c => putP 1 pd (decide (c.rS ra = imm.signExtend 32)))
  | .cmpiNe h pd ra imm => some (h, 1, fun c => putP 1 pd (decide (c.rS ra ≠ imm.signExtend 32)))
  | .cmpiLt h pd ra imm => some (h, 1, fun c => putP 1 pd (decide ((c.rS ra).toInt < imm.toInt)))
  | .cmpiGe h pd ra imm => some (h, 1, fun c => putP 1 pd (decide (imm.toInt ≤ (c.rS ra).toInt)))
  | .cmpiLtz h pd ra imm => some (h, 1, fun c => putP 1 pd (decide ((c.rS ra).toNat < imm.toNat)))
  | .cmpiGez h pd ra imm => some (h, 1, fun c => putP 1 pd (decide (imm.toNat ≤ (c.rS ra).toNat)))
  | .pand h pd pa pb => some (h, 1, fun c => putP 1 pd (c.rP pa && c.rP pb))
  | .por h pd pa pb => some (h, 1, fun c => putP 1 pd (c.rP pa || c.rP pb))
  | .pxor h pd pa pb => some (h, 1, fun c => putP 1 pd (c.rP pa ^^ c.rP pb))
  | .lpidx h rd lv => some (h, 1, fun c => putS 1 rd ((c.rL lv).index.setWidth 32))
  | _ => none

end Sys2Proof.Claims

open Sys2Proof.Claims

/-- The CTL words of R161 to R165, R173 and MOVL issue on a tile and on a firmware core, and leave exactly the results
the rules give: the next state is the state in which the word has issued, with those landings and nothing else. -/
def Sys2Proof.Claims.CtlResults : Prop :=
  ∀ (i : Instr) (h : Ring) (len : Nat) (f : Ctl → List (Nat × Land)) (s : State), ctlResult i = some (h, len, f) →
    (∀ t, Ready s t .ctl h .cx → exec i s = .next (s.issued t .ctl h len (Eff.of (f (s.tile t).ctl))))
    ∧ (∀ d, FwcReady s d → h = Ring.none → exec i s = .next (s.fwcIssue d len (Eff.of (f (s.fwc d).ctl))))

/-- Quotient and remainder of DIVS and DIVZ (R162). -/
def Sys2Proof.Claims.quotients (signed : Bool) (a b : Word) : Word × Word :=
  if b = 0 then (0xFFFFFFFF, a)
  else if signed then (BitVec.ofInt 32 (a.toInt.tdiv b.toInt), BitVec.ofInt 32 (a.toInt.tmod b.toInt))
  else (BitVec.ofNat 32 (a.toNat / b.toNat), BitVec.ofNat 32 (a.toNat % b.toNat))

/-- DIVS and DIVZ on a tile and on a firmware core (R158, R162, R287): once the divider is free they issue, the quotient lands
in rd after 18 cycles and the latch takes remainder and quotient; before, they wait. -/
def Sys2Proof.Claims.Divides : Prop :=
  ∀ (i : Instr) (h : Ring) (rd ra rb : SReg) (signed : Bool) (s : State),
    (i = .divs h rd ra rb ∧ signed = true ∨ i = .divz h rd ra rb ∧ signed = false) →
    let lands (c : Ctl) : Eff :=
      let r := quotients signed (c.rS ra) (c.rS rb)
      Eff.of [(18, .sreg rd r.1), (18, .alu (r.2 ++ r.1))]
    (∀ t, Ready s t .ctl h .cx →
      let x := s.tile t
      (x.ctl.divFree ≤ x.cyc → exec i s = .next ((s.modTile t fun y =>
        { y with ctl := { y.ctl with divFree := x.cyc + 18 } }).issued t .ctl h 1 (lands x.ctl)))
      ∧ (x.cyc < x.ctl.divFree → exec i s = .next (s.unguard t)))
    ∧ (∀ d, FwcReady s d → h = Ring.none →
      let f := s.fwc d
      (f.ctl.divFree ≤ f.cyc → exec i s = .next ((s.modFwc d fun g =>
        { g with ctl := { g.ctl with divFree := f.cyc + 18 } }).fwcIssue d 1 (lands f.ctl)))
      ∧ (f.cyc < f.ctl.divFree → exec i s = .next (s.fwcUnguard d)))

/-- The CTL words that only compute, and division (R157, R158, R161-R165, R168, R173). -/
def Obligations.ComputeWords : Prop := Sys2Proof.Claims.CtlResults ∧ Sys2Proof.Claims.Divides

/-! ### Targets, transfers, loops (R44, R56-R58, R166-R173) -/

/-- The decision FIFO of a tile has room (R44). -/
abbrev Sys2Proof.Claims.DecisionRoom (x : Tile) : Prop := x.sync.decs.length < (x.stop.wcfg.extractLsb' 11 5).toNat + 1

/-- The cycles to the CTL's next word after a taken transfer (R170). -/
def Sys2Proof.Claims.transferDelay (b : Buf) (cycle : Nat) : Nat :=
  match b with
  | .filled => 1
  | .filling full => max 1 (full - cycle)
  | .empty => 9

/-- The state in which a refetch of an empty buffer is counted (R57, R380). -/
def Sys2Proof.Claims.refetched (s : State) (t : Nat) (b : Buf) : State :=
  if b = .empty then s.modTile t fun x => x.bump 0x08 1 else s

/-- PREP and PREPS (R166): the named target lands a cycle later with the address the rule gives, prepared, its buffer
filling; no latch is written. -/
def Sys2Proof.Claims.PreparedTargets : Prop :=
  ∀ (h : Ring) (k : TReg) (off : BitVec 16) (ra : SReg) (s : State),
    (∀ t, Ready s t .ctl h .cx →
      let x := s.tile t
      exec (.prep h k off) s = .next (s.issued t .ctl h 1
        (Eff.of [(1, .target k (BitVec.ofInt 15 ((x.pctl.pc : Int) + off.toInt)) (x.cyc + 8))]))
      ∧ exec (.preps h k ra) s = .next (s.issued t .ctl h 1
        (Eff.of [(1, .target k (BitVec.ofNat 15 (x.ctl.rS ra).toNat) (x.cyc + 8))])))
    ∧ (∀ d, FwcReady s d → h = Ring.none →
      let f := s.fwc d
      exec (.prep h k off) s = .next (s.fwcIssue d 1
        (Eff.of [(1, .target k (BitVec.ofInt 15 ((f.pc : Int) + off.toInt)) (f.cyc + 8))]))
      ∧ exec (.preps h k ra) s = .next (s.fwcIssue d 1
        (Eff.of [(1, .target k (BitVec.ofNat 15 (f.ctl.rS ra).toNat) (f.cyc + 8))])))

/-- XFER and XFERN on a tile (R44, R167, R170): taken through a prepared target, not taken, taken through an unprepared
one (a trap, and no decision), and with a full decision FIFO (nothing issues). -/
def Sys2Proof.Claims.Transfers : Prop :=
  ∀ (h : Ring) (k : TReg) (p : PReg) (s : State) (t : Nat), Ready s t .ctl h .cx →
    let x := s.tile t
    let tg := x.ctl.rT k
    let go (next delay : Nat) (s : State) : State := s.issued t .ctl h 1 ⟨[], 1, 1, some (next, delay), 0⟩
    (∀ i, i = Instr.xfer h k p ∧ x.ctl.rP p = true ∨ i = Instr.xfern h k p ∧ x.ctl.rP p = false →
      (DecisionRoom x → tg.prpd = true →
        exec i s = .next (go tg.addr.toNat (transferDelay tg.buf x.cyc) (refetched s t tg.buf)))
      ∧ (DecisionRoom x → tg.prpd = false → exec i s = .next (s.trapWord t .ctl 0x03 (k.setWidth 64)))
      ∧ (¬DecisionRoom x → exec i s = .next (s.unguard t)))
    ∧ (∀ i, i = Instr.xfer h k p ∧ x.ctl.rP p = false ∨ i = Instr.xfern h k p ∧ x.ctl.rP p = true →
      (DecisionRoom x → exec i s = .next (go (x.pctl.pc + 1) 1 s)) ∧ (¬DecisionRoom x → exec i s = .next (s.unguard t)))

/-- XFER and XFERN on a firmware core, which has no decision FIFO (R287). -/
def Sys2Proof.Claims.FirmwareTransfers : Prop :=
  ∀ (k : TReg) (p : PReg) (s : State) (d : Nat), FwcReady s d →
    let f := s.fwc d
    let tg := f.ctl.rT k
    let go (next delay : Nat) : State := s.fwcIssue d 1 ⟨[], 1, 1, some (next, delay), 0⟩
    (∀ i, i = Instr.xfer Ring.none k p ∧ f.ctl.rP p = true ∨ i = Instr.xfern Ring.none k p ∧ f.ctl.rP p = false →
      (tg.prpd = true → exec i s = .next (go tg.addr.toNat (transferDelay tg.buf f.cyc)))
      ∧ (tg.prpd = false → exec i s = .next (s.exception d 0x03 (k.setWidth 64) (State.fwcHead f))))
    ∧ (∀ i, i = Instr.xfer Ring.none k p ∧ f.ctl.rP p = false ∨ i = Instr.xfern Ring.none k p ∧ f.ctl.rP p = true →
      exec i s = .next (go (f.pc + 1) 1))

/-- CALL on a tile and on a firmware core (R168, R287): through a prepared target, t7 takes the word after the call; through an
unprepared one it traps; with a full decision FIFO a tile's CALL waits. -/
def Sys2Proof.Claims.Calls : Prop :=
  ∀ (h : Ring) (k : TReg) (s : State),
    (∀ t, Ready s t .ctl h .cx →
      let x := s.tile t
      let tg := x.ctl.rT k
      (DecisionRoom x → tg.prpd = true → exec (.call h k) s = .next ((refetched s t tg.buf).issued t .ctl h 1
          ⟨[(1, .target 7 (BitVec.ofNat 15 (x.pctl.pc + 1)) (x.cyc + 8))], 1, 1,
            some (tg.addr.toNat, transferDelay tg.buf x.cyc), 0⟩))
      ∧ (DecisionRoom x → tg.prpd = false → exec (.call h k) s = .next (s.trapWord t .ctl 0x03 (k.setWidth 64)))
      ∧ (¬DecisionRoom x → exec (.call h k) s = .next (s.unguard t)))
    ∧ (∀ d, FwcReady s d → h = Ring.none →
      let f := s.fwc d
      let tg := f.ctl.rT k
      (tg.prpd = true → exec (.call h k) s = .next (s.fwcIssue d 1
          ⟨[(1, .target 7 (BitVec.ofNat 15 (f.pc + 1)) (f.cyc + 8))], 1, 1,
            some (tg.addr.toNat, transferDelay tg.buf f.cyc), 0⟩))
      ∧ (tg.prpd = false → exec (.call h k) s = .next (s.exception d 0x03 (k.setWidth 64) (State.fwcHead f))))

/-- XFER, XFERN and CALL on a tile and on a firmware core (R44, R167, R168, R170, R287). -/
def Obligations.TransferWords : Prop := Sys2Proof.Claims.Transfers ∧ Sys2Proof.Claims.FirmwareTransfers ∧ Sys2Proof.Claims.Calls

/-- The targets of `c` with those buffers empty that `k` names, all of them where it names none. -/
def Sys2Proof.Claims.BuffersEmptied (k : Option TReg) (c c' : Ctl) : Prop :=
  (∀ j, (c'.rT j).addr = (c.rT j).addr ∧ (c'.rT j).prpd = (c.rT j).prpd
    ∧ (c'.rT j).buf = if k = none ∨ k = some j then .empty else (c.rT j).buf)
  ∧ (∀ r, c'.rS r = c.rS r) ∧ (∀ p, c'.rP p = c.rP p) ∧ (∀ l, c'.rL l = c.rL l) ∧ c'.alu = c.alu

/-- CINV and CINVA on a tile and on a firmware core (R169, R287): the buffers named are empty, and no target's address or
prepared bit changes. -/
def Sys2Proof.Claims.BufferInvalidates : Prop :=
  ∀ (i : Instr) (h : Ring) (j : TReg) (k : Option TReg) (s : State),
    (i = .cinv h j ∧ k = some j ∨ i = .cinva h ∧ k = none) →
    (∀ t, Ready s t .ctl h .cx → ∃ a : State, exec i s = .next (a.issued t .ctl h 1 Eff.nil)
      ∧ OnlyTile t s a ∧ BuffersEmptied k (s.tile t).ctl (a.tile t).ctl)
    ∧ (∀ d, FwcReady s d → h = Ring.none → ∃ a : State, exec i s = .next (a.fwcIssue d 1 Eff.nil)
      ∧ a.tiles = s.tiles ∧ a.mem = s.mem ∧ (∀ e, e ≠ d → a.die e = s.die e) ∧ (a.fwc d).sram = (s.fwc d).sram
      ∧ BuffersEmptied k (s.fwc d).ctl (a.fwc d).ctl)

/-- PREP and PREPS prepare a target, CINV and CINVA empty buffers (R166, R169). -/
def Obligations.TargetWords : Prop := Sys2Proof.Claims.PreparedTargets ∧ Sys2Proof.Claims.BufferInvalidates

/-- LPSET (both forms) and LPEND on a tile (R171, R172): the level's new fields; START or the next word as the decision. A spatial
level is an illegal instruction. -/
def Sys2Proof.Claims.TileLoops : Prop :=
  ∀ (h : Ring) (lv : BitVec 3) (n : BitVec 16) (ra : SReg) (s : State) (t : Nat), Ready s t .ctl h .cx →
    let x := s.tile t
    let l := x.ctl.rL lv
    let here := x.pctl.pc
    let set (c : BitVec 16) : State := s.issued t .ctl h 1 (Eff.of [(1, .level lv ⟨c, 0, BitVec.ofNat 15 (here + 1), false⟩)])
    (l.spatial = false →
      exec (.lpset h lv n) s = .next (set n) ∧ exec (.lpsetReg h lv ra) s = .next (set (BitVec.ofNat 16 (x.ctl.rS ra).toNat)))
    ∧ (l.spatial = true → exec (.lpset h lv n) s = .next (s.trapWord t .ctl 0x01 (s.word.setWidth 64))
        ∧ exec (.lpsetReg h lv ra) s = .next (s.trapWord t .ctl 0x01 (s.word.setWidth 64))
        ∧ (DecisionRoom x → exec (.lpend h lv) s = .next (s.trapWord t .ctl 0x01 (s.word.setWidth 64))))
    ∧ (l.spatial = false → DecisionRoom x → l.index.toNat + 1 < l.count.toNat →
      exec (.lpend h lv) s = .next (s.issued t .ctl h 1
        ⟨[(1, .level lv { l with index := l.index + 1 })], 1, 1, some (l.start.toNat, 2), 0⟩))
    ∧ (l.spatial = false → DecisionRoom x → l.count.toNat ≤ l.index.toNat + 1 →
      exec (.lpend h lv) s = .next (s.issued t .ctl h 1 ⟨[], 1, 1, some (here + 1, 1), 0⟩))
    ∧ (¬DecisionRoom x → exec (.lpend h lv) s = .next (s.unguard t))

/-- LPSET and LPEND on a firmware core, which has no decision FIFO (R171, R172, R287). -/
def Sys2Proof.Claims.FirmwareLoops : Prop :=
  ∀ (lv : BitVec 3) (n : BitVec 16) (ra : SReg) (s : State) (d : Nat), FwcReady s d →
    let f := s.fwc d
    let l := f.ctl.rL lv
    let set (c : BitVec 16) : State := s.fwcIssue d 1 (Eff.of [(1, .level lv ⟨c, 0, BitVec.ofNat 15 (f.pc + 1), false⟩)])
    let illegal : State := s.exception d 0x01 (s.word.setWidth 64) (State.fwcHead f)
    (l.spatial = false → exec (.lpset Ring.none lv n) s = .next (set n)
      ∧ exec (.lpsetReg Ring.none lv ra) s = .next (set (BitVec.ofNat 16 (f.ctl.rS ra).toNat)))
    ∧ (l.spatial = true → exec (.lpset Ring.none lv n) s = .next illegal ∧ exec (.lpsetReg Ring.none lv ra) s = .next illegal
        ∧ exec (.lpend Ring.none lv) s = .next illegal)
    ∧ (l.spatial = false → l.index.toNat + 1 < l.count.toNat → exec (.lpend Ring.none lv) s = .next (s.fwcIssue d 1
        ⟨[(1, .level lv { l with index := l.index + 1 })], 1, 1, some (l.start.toNat, 2), 0⟩))
    ∧ (l.spatial = false → l.count.toNat ≤ l.index.toNat + 1 →
      exec (.lpend Ring.none lv) s = .next (s.fwcIssue d 1 ⟨[], 1, 1, some (f.pc + 1, 1), 0⟩))

/-- LPSET and LPEND on a tile and on a firmware core (R171, R172, R287). -/
def Obligations.Loops : Prop := Sys2Proof.Claims.TileLoops ∧ Sys2Proof.Claims.FirmwareLoops

/-! ### Loads, stores, atomics (R111, R112, R115, R174, R175, R288) -/

/-- The loads: destination, base, offset, bytes, whether sign-extended (R174). -/
def Sys2Proof.Claims.loadOf : Instr → Option (Ring × SReg × SReg × BitVec 8 × Nat × Bool)
  | .ldb h rd b off => some (h, rd, b, off, 1, true)
  | .ldbz h rd b off => some (h, rd, b, off, 1, false)
  | .ldh h rd b off => some (h, rd, b, off, 2, true)
  | .ldhz h rd b off => some (h, rd, b, off, 2, false)
  | .ldw h rd b off => some (h, rd, b, off, 4, false)
  | .ldd h rd b off => some (h, rd, b, off, 8, false)
  | _ => none

/-- The stores: source, base, offset, bytes. -/
def Sys2Proof.Claims.storeOf : Instr → Option (Ring × SReg × SReg × BitVec 8 × Nat)
  | .stb h rs b off => some (h, rs, b, off, 1)
  | .sth h rs b off => some (h, rs, b, off, 2)
  | .stw h rs b off => some (h, rs, b, off, 4)
  | .std h rs b off => some (h, rs, b, off, 8)
  | _ => none

/-- The atomics: operation, whether doubleword, rd, ra, rb (R175). -/
def Sys2Proof.Claims.atomicOf : Instr → Option (Ring × AtomOp × Bool × SReg × SReg × SReg)
  | .aadd h rd ra rb => some (h, .add, false, rd, ra, rb)
  | .amin h rd ra rb => some (h, .min, false, rd, ra, rb)
  | .amax h rd ra rb => some (h, .max, false, rd, ra, rb)
  | .axchg h rd ra rb => some (h, .xchg, false, rd, ra, rb)
  | .acas h rd ra rb => some (h, .cas, false, rd, ra, rb)
  | .acasD h rd ra rb => some (h, .cas, true, rd, ra, rb)
  | _ => none

/-- A load's value as it lands: a pair, or sign- or zero-extended to a word; and the same in l.alu, zero-extended. -/
def Sys2Proof.Claims.loaded (rd : SReg) (z : Nat) (signed : Bool) (v : Nat) : List (Nat × Land) :=
  if z = 8 then putD 4 rd (BitVec.ofNat 64 v)
  else if signed && decide (2 ^ (8 * z - 1) ≤ v) then putS 4 rd (BitVec.ofInt 32 ((v : Int) - 2 ^ (8 * z)))
  else putS 4 rd (BitVec.ofNat 32 v)

/-- The loads of a tile. Where the local memory read is accepted, what it read lands after 4 cycles; outside local space
it traps with `ownership violation`. -/
def Sys2Proof.Claims.TileLoads : Prop :=
  ∀ (i : Instr) (h : Ring) (rd b : SReg) (off : BitVec 8) (z : Nat) (sg : Bool) (s : State) (t : Nat),
    loadOf i = some (h, rd, b, off, z, sg) → Ready s t .ctl h .c →
    let a := effAddr (s.tile t).ctl b off z
    (∀ r, s.readLocal t .ctl a z = .ok r → exec i s = .next (r.1.issued t .ctl h 1 (Eff.of (loaded rd z sg (ofLe r.2)))))
    ∧ (0x100000 < a + z → exec i s = .next (s.trapWord t .ctl 0x0D (BitVec.ofNat 64 a)))

/-- A read of local memory by an engine (R111, R115): inside local space, with the tags of the frames it touches as the frame
table expects and no error met, it gives the bytes of the scratchpad and changes at most which frames are checked. -/
def Sys2Proof.Claims.LocalReads : Prop :=
  ∀ (s : State) (t : Nat) (e : Eng) (a n : Nat), a + n ≤ 0x100000 → (s.die (dieOf t)).inj = [] →
    (s.tile t).store.ecc = [] → (s.tile t).store.wiped = [] →
    (∀ f ∈ State.framesOf a n, s.frameTag t f = none ∨ s.frameTag t f = some ((s.tile t).frames.tags.get 0#32 f)) →
    ∃ s', s.readLocal t e a n = .ok (s', (List.range n).map fun k => Mem.get1 (s.tile t).store.scr (a + k))
      ∧ OnlyTile t s s' ∧ SameRegisters (s.tile t) (s'.tile t)
      ∧ (s'.tile t).frames.tags = (s.tile t).frames.tags
      ∧ (∀ f, (s'.tile t).frames.checked.get false f = ((s.tile t).frames.checked.get false f || (State.framesOf a n).contains f))

/-- A first read of a frame whose tag is not the one the frame table gives for the phase is a `schedule fault` with the
tile's own tag (R115): the read is refused with that trap. -/
def Sys2Proof.Claims.TagMismatch : Prop :=
  ∀ (s : State) (t : Nat) (e : Eng) (a n f : Nat) (want : Word), a + n ≤ 0x100000 → State.framesOf a n = [f] →
    (s.tile t).frames.checked.get false f = false → s.frameTag t f = some want → want ≠ (s.tile t).frames.tags.get 0#32 f →
    s.readLocal t e a n = .error (.trap 0x0F (((s.tile t).frames.tags.get 0#32 f).setWidth 64))

/-- The effective address of a load or store is (S[base] + sext(OFF) × z) mod 2^32 (R174). -/
def Sys2Proof.Claims.EffectiveAddress : Prop :=
  ∀ (c : Ctl) (b : SReg) (off : BitVec 8) (z : Nat), z ∈ [1, 2, 4, 8] →
    (effAddr c b off z : Int) = (((c.rS b).toNat : Int) + off.toInt * z) % 2 ^ 32

/-- Loads on a tile: their address, the checks of the bytes they read, what they land (R111, R112, R115, R174). -/
def Obligations.LoadWords : Prop := Sys2Proof.Claims.TileLoads ∧ Sys2Proof.Claims.LocalReads ∧ Sys2Proof.Claims.TagMismatch ∧ Sys2Proof.Claims.EffectiveAddress

/-- The stores of a tile: the low bytes of the source land little-endian at the effective address after 2 cycles;
outside local space the word traps. -/
def Sys2Proof.Claims.TileStores : Prop :=
  ∀ (i : Instr) (h : Ring) (rs b : SReg) (off : BitVec 8) (z : Nat) (s : State) (t : Nat),
    storeOf i = some (h, rs, b, off, z) → Ready s t .ctl h .c →
    let c := (s.tile t).ctl
    let a := effAddr c b off z
    let bs := leBytes z (if z = 8 then (c.rD rs).toNat else (c.rS rs).toNat)
    (a + z ≤ 0x100000 → exec i s = .next (s.issued t .ctl h 1 (Eff.of [(2, .bytes .scr [(a, bs)])])))
    ∧ (0x100000 < a + z → exec i s = .next (s.trapWord t .ctl 0x0D (BitVec.ofNat 64 a)))

/-- The atomics of a tile: the address loses its low bits; the read counts as a first read; read and write happen
at the landing, 4 cycles after issue; outside local space the word traps. -/
def Sys2Proof.Claims.TileAtomics : Prop :=
  ∀ (i : Instr) (h : Ring) (op : AtomOp) (wide : Bool) (rd ra rb : SReg) (s : State) (t : Nat),
    atomicOf i = some (h, op, wide, rd, ra, rb) → Ready s t .ctl h .c →
    let c := (s.tile t).ctl
    let n := if wide then 8 else 4
    let a := (c.rS ra).toNat / n * n
    (∀ r, s.readLocal t .ctl a n = .ok r →
      exec i s = .next (r.1.issued t .ctl h 1 (Eff.of [(4, .atomic op wide a rd
        (if wide then c.rD rb else (c.rS rb).setWidth 64) (if wide then c.rD rd else (c.rS rd).setWidth 64))])))
    ∧ (0x100000 < a + n → exec i s = .next (s.trapWord t .ctl 0x0D (BitVec.ofNat 64 a)))

/-- The landing of an atomic (R175): rd and l.alu receive the old value, the location the new one, every other byte
reads as before. -/
def Sys2Proof.Claims.AtomicLanding : Prop :=
  ∀ (x : Tile) (op : AtomOp) (a : Nat) (rd : SReg) (b c : Word), rd ≠ 0 →
    let old : Word := BitVec.ofNat 32 (x.store.scr.num a 4)
    let new : Word := match op with
      | .add => old + b
      | .min => if old.toInt ≤ b.toInt then old else b
      | .max => if b.toInt ≤ old.toInt then old else b
      | .xchg => b
      | .cas => if old = c then b else old
    let y := x.land (.atomic op false a rd (b.setWidth 64) (c.setWidth 64))
    y.ctl.rS rd = old ∧ y.ctl.alu = old.setWidth 64
    ∧ (∀ k, Mem.get1 y.store.scr k = if a ≤ k ∧ k < a + 4 then (leBytes 4 new.toNat).getD (k - a) 0 else Mem.get1 x.store.scr k)
    ∧ (∀ r, r ≠ rd → y.ctl.rS r = x.ctl.rS r) ∧ (∀ p, y.ctl.rP p = x.ctl.rP p)
    ∧ (∀ sp k, sp ≠ Space.scr → Mem.get1 (y.store.get sp) k = Mem.get1 (x.store.get sp) k) ∧ y.vu = x.vu

/-- The landing of ACAS.d (R175): the pair rd and l.alu receive the old doubleword; where it equals the expected one the
location takes the new one; every other byte reads as before. -/
def Sys2Proof.Claims.WideAtomicLanding : Prop :=
  ∀ (x : Tile) (a : Nat) (rd : SReg) (b c : DWord), rd ≠ 0 → rd.toNat % 2 = 0 →
    let old : DWord := BitVec.ofNat 64 (x.store.scr.num a 8)
    let y := x.land (.atomic .cas true a rd b c)
    y.ctl.rD rd = old ∧ y.ctl.alu = old
    ∧ (∀ k, Mem.get1 y.store.scr k =
        if a ≤ k ∧ k < a + 8 then (leBytes 8 (if old = c then b else old).toNat).getD (k - a) 0 else Mem.get1 x.store.scr k)
    ∧ (∀ r, r ≠ rd → r ≠ rd + 1 → y.ctl.rS r = x.ctl.rS r) ∧ (∀ p, y.ctl.rP p = x.ctl.rP p)
    ∧ (∀ sp k, sp ≠ Space.scr → Mem.get1 (y.store.get sp) k = Mem.get1 (x.store.get sp) k) ∧ y.vu = x.vu

/-- Stores and atomics on a tile, and what an atomic lands (R111, R174, R175). -/
def Obligations.StoreWords : Prop :=
  Sys2Proof.Claims.TileStores ∧ Sys2Proof.Claims.TileAtomics ∧ Sys2Proof.Claims.AtomicLanding ∧ Sys2Proof.Claims.WideAtomicLanding

/-- The region of a firmware core's map that holds all of an access (R288). -/
def Sys2Proof.Claims.InSram (a n : Nat) : Prop := a + n ≤ 0x38000 ∨ 0x38000 ≤ a ∧ a + n ≤ 0x40000
def Sys2Proof.Claims.InPatch (a n : Nat) : Prop := 0x38000 ≤ a ∧ a + n ≤ 0x40000
def Sys2Proof.Claims.InRom (a n : Nat) : Prop := 0x40000000 ≤ a ∧ a + n ≤ 0x40018000
def Sys2Proof.Claims.InAperture (a n : Nat) : Prop := 0x80000000 ≤ a ∧ a + n ≤ 0x100000000

/-- The core of die d has issued the present word and blocks on it. -/
def Sys2Proof.Claims.blocked (s : State) (d : Nat) (b : Blk) : State :=
  (s.modFwc d fun f => { f with blk := some b, blkAt := State.fwcHead f }).fwcIssue d 1 Eff.nil

/-- Loads of a firmware core (R288, R289): private SRAM and ROM answer after 4 cycles, an aperture address that exists blocks the
core until its access is performed, every other address (a hole, a straddle) is an exception; an uncorrectable word of SRAM is
an exception, one of ROM a double fault (R296, R375). The bytes of ROM and the ticks of an aperture access are free values
(logs 7 and 5). -/
def Sys2Proof.Claims.FirmwareLoads : Prop :=
  ∀ (i : Instr) (s : State) (d : Nat) (rd b : SReg) (off : BitVec 8) (z : Nat) (sg : Bool), FwcReady s d →
    loadOf i = some (Ring.none, rd, b, off, z, sg) →
    let f := s.fwc d
    let a := effAddr f.ctl b off z
    let bad (u : State) (cause : BitVec 8) (aux : Nat) : State := u.exception d cause (BitVec.ofNat 64 aux) (State.fwcHead f)
    let pa := f.apbase.toNat + (a - 0x80000000)
    (InSram a z →
      (∀ r, s.touchSram d (a / 4) ((a + z - 1) / 4) = (r, none) →
        exec i s = .next (r.fwcIssue d 1 (Eff.of (loadLands 4 rd z sg (ofLe ((r.fwc d).read a z))))))
      ∧ (∀ r w, s.touchSram d (a / 4) ((a + z - 1) / 4) = (r, some w) → exec i s = .next (bad r 0x12 w)))
    ∧ (InRom a z →
      let o := a - 0x40000000
      (∀ r, s.touchFwc d .rom (o / 4) ((o + z - 1) / 4) = (r, none) →
        exec i s = .next (r.fwcIssue d 1 (Eff.of (loadLands 4 rd z sg (ofLe ((List.range z).map fun k => Config.romByte (o + k)))))))
      ∧ (∀ r w, s.touchFwc d .rom (o / 4) ((o + z - 1) / 4) = (r, some w) →
        exec i s = .next (bad (r.modFwc d fun g => { g with exc := true }) 0x12 (0x40000000 + w))))
    ∧ (InAperture a z → s.physOk pa z = true → ∃ tick, s.ticks < tick ∧
        exec i s = .next (blocked s.draw d (.apLoad pa z sg (z == 8) rd tick)))
    ∧ (¬InSram a z ∧ ¬InRom a z ∧ (InAperture a z → s.physOk pa z = false) → exec i s = .next (bad s 0x0D a))

/-- Stores of a firmware core (R288, R289, R323): data region and unlocked patch region after 2 cycles; an aperture address that
exists and that no running partition protects blocks the core; the ROM and every other address are exceptions. That a store to
the locked patch region is one too is the model's reading (log 33). -/
def Sys2Proof.Claims.FirmwareStores : Prop :=
  ∀ (i : Instr) (s : State) (d : Nat) (rs b : SReg) (off : BitVec 8) (z : Nat), FwcReady s d →
    storeOf i = some (Ring.none, rs, b, off, z) →
    let f := s.fwc d
    let a := effAddr f.ctl b off z
    let bs := leBytes z (if z = 8 then (f.ctl.rD rs).toNat else (f.ctl.rS rs).toNat)
    let pa := f.apbase.toNat + (a - 0x80000000)
    let open_ : Prop := s.physOk pa z = true ∧ s.storeRefused pa z = false
    (InSram a z → ¬(InPatch a z ∧ f.lock = true) → exec i s = .next (s.fwcIssue d 1 (Eff.of [(2, .bytes .sram [(a, bs)])])))
    ∧ (InAperture a z → open_ → ∃ tick, s.ticks < tick ∧ exec i s = .next (blocked s.draw d (.apStore pa bs tick)))
    ∧ ((InSram a z → InPatch a z ∧ f.lock = true) → (InAperture a z → ¬open_) →
        exec i s = .next (s.exception d 0x0D (BitVec.ofNat 64 a) (State.fwcHead f)))

/-- Atomics of a firmware core (R288, R289, R323), in the regions of its stores; their old value lands after 4 cycles. -/
def Sys2Proof.Claims.FirmwareAtomics : Prop :=
  ∀ (i : Instr) (s : State) (d : Nat) (op : AtomOp) (wide : Bool) (rd ra rb : SReg), FwcReady s d →
    atomicOf i = some (Ring.none, op, wide, rd, ra, rb) →
    let f := s.fwc d
    let n := if wide then 8 else 4
    let a := (f.ctl.rS ra).toNat / n * n
    let new : DWord := if wide then f.ctl.rD rb else (f.ctl.rS rb).setWidth 64
    let want : DWord := if wide then f.ctl.rD rd else (f.ctl.rS rd).setWidth 64
    let pa := f.apbase.toNat + (a - 0x80000000)
    let open_ : Prop := s.physOk pa n = true ∧ s.storeRefused pa n = false
    let bad (u : State) (cause : BitVec 8) (aux : Nat) : State := u.exception d cause (BitVec.ofNat 64 aux) (State.fwcHead f)
    (InSram a n → ¬(InPatch a n ∧ f.lock = true) →
      (∀ r, s.touchSram d (a / 4) ((a + n - 1) / 4) = (r, none) →
        exec i s = .next (r.fwcIssue d 1 (Eff.of [(4, .atomic op wide a rd new want)])))
      ∧ (∀ r w, s.touchSram d (a / 4) ((a + n - 1) / 4) = (r, some w) → exec i s = .next (bad r 0x12 w)))
    ∧ (InAperture a n → open_ → ∃ tick, s.ticks < tick ∧ exec i s = .next (blocked s.draw d (.apAtomic op wide pa rd new want tick)))
    ∧ ((InSram a n → InPatch a n ∧ f.lock = true) → (InAperture a n → ¬open_) → exec i s = .next (bad s 0x0D a))

/-- Loads, stores and atomics of a firmware core over its whole map (R288, R289). -/
def Obligations.FirmwareMemory : Prop :=
  Sys2Proof.Claims.FirmwareLoads ∧ Sys2Proof.Claims.FirmwareStores ∧ Sys2Proof.Claims.FirmwareAtomics

/-! ### Synchronisation, time and control words of the CTL (R31, R41, R48-R50, R72, R127, R128, R176-R183) -/

/-- KSIG and KWAIT in both forms: token, count (R176). -/
def Sys2Proof.Claims.tokenWord (c : Ctl) : Instr → Option (Ring × BitVec 3 × Nat × Bool)
  | .ksig h k n => some (h, k, n.toNat, true)
  | .ksigReg h k ra => some (h, k, (c.rS ra).toNat % 65536, true)
  | .kwait h k n => some (h, k, n.toNat, false)
  | .kwaitReg h k ra => some (h, k, (c.rS ra).toNat % 65536, false)
  | _ => none

/-- A store or atomic of the CTL of a tile has still to land (R128). -/
def Sys2Proof.Claims.storePending (x : Tile) : Prop :=
  ∃ p ∈ x.pend, p.eng = .ctl ∧ ((∃ rs, p.land = .bytes .scr rs) ∨ ∃ op w a rd b c, p.land = .atomic op w a rd b c)

/-- KSIG and KWAIT (R49, R176): a signal waits for the CTL's stores and for room, then adds its count; a wait blocks
until the token holds its count, then subtracts it. A register count of 0 completes with no effect. -/
def Sys2Proof.Claims.TokenWords : Prop :=
  ∀ (i : Instr) (h : Ring) (k : BitVec 3) (n : Nat) (sig : Bool) (s : State) (t : Nat),
    tokenWord (s.tile t).ctl i = some (h, k, n, sig) → Ready s t .ctl h .c →
    let x := s.tile t
    let v := (x.sync.k.get 0 k.toNat).toNat
    let go (m : Nat) : State :=
      (s.setTile t { x with sync := { x.sync with k := x.sync.k.set 0 k.toNat (BitVec.ofNat 16 m) } }).issued t .ctl h 1 Eff.nil
    (sig = true →
      (n = 0 → exec i s = .next (s.issued t .ctl h 1 Eff.nil))
      ∧ (n ≠ 0 → ¬storePending x → v + n ≤ 65535 → exec i s = .next (go (v + n)))
      ∧ (n ≠ 0 → (storePending x ∨ 65535 < v + n) → exec i s = .next (s.unguard t)))
    ∧ (sig = false →
      (n ≤ v → exec i s = .next (go (v - n))) ∧ (v < n → exec i s = .next (s.unguard t)))

/-- SEMSIG and SEMWAIT (R50, R72, R177): a signal waits for the CTL's stores, adds one and saturates at 65,535, marking
the tile; a wait takes one, and where the count is zero blocks, holding the tile in an exchange phase. -/
def Sys2Proof.Claims.SemaphoreWords : Prop :=
  ∀ (h : Ring) (i : BitVec 4) (s : State) (t : Nat), Ready s t .ctl h .cx →
    let x := s.tile t
    let v := x.sync.sem.get 0#16 i.toNat
    let go (y : Sync) : State := (s.setTile t { x with sync := y }).issued t .ctl h 1 Eff.nil
    (storePending x → exec (.semsig h i) s = .next (s.unguard t))
    ∧ (¬storePending x → v ≠ 65535 →
        exec (.semsig h i) s = .next (go { x.sync with sem := x.sync.sem.set 0 i.toNat (v + 1) }))
    ∧ (¬storePending x → v = 65535 →
        exec (.semsig h i) s = .next (go { x.sync with semSat := x.sync.semSat.set false i.toNat true }))
    ∧ (v ≠ 0 → exec (.semwait h i) s = .next (go { x.sync with sem := x.sync.sem.set 0 i.toNat (v - 1) }))
    ∧ (v = 0 → x.seat.phase % 2 = 0 → exec (.semwait h i) s = .next (s.unguard t))
    ∧ (v = 0 → x.seat.phase % 2 = 1 → exec (.semwait h i) s = .next ((s.unguard t).modTile t fun y =>
        { y with stop := { y.stop with held := .party } }))

/-- Counted tokens and semaphores (R49, R50, R72, R176, R177). -/
def Obligations.CountedWords : Prop := Sys2Proof.Claims.TokenWords ∧ Sys2Proof.Claims.SemaphoreWords

/-- PUSH and POP (R127, R128, R178): the element goes to the end of FQS, poppable from the first cycle after the push in which
every store and atomic that the CTL issued before it has landed; the head of FQR or FQA, once poppable, leaves and lands in rd and l.alu; a full FIFO, an empty one and a head that is not
poppable stop the word. -/
def Obligations.FifoWords : Prop :=
  ∀ (h : Ring) (r : SReg) (s : State) (t : Nat), Ready s t .ctl h .c →
    let x := s.tile t
    let go (y : Sync) (f : Eff) : State := (s.setTile t { x with sync := y }).issued t .ctl h 1 f
    let store (p : Pend) : Prop :=
      p.eng = .ctl ∧ ((∃ rs, p.land = .bytes .scr rs) ∨ ∃ op w a rd b c, p.land = .atomic op w a rd b c)
    (x.sync.fqs.length < 16 → ∃ due, x.cyc + 1 ≤ due ∧ (∀ p ∈ x.pend, store p → p.due ≤ due)
        ∧ (due = x.cyc + 1 ∨ ∃ p ∈ x.pend, store p ∧ p.due = due)
        ∧ exec (.push h r) s = .next (go { x.sync with fqs := x.sync.fqs ++ [⟨x.ctl.rS r, due, false⟩] } Eff.nil))
    ∧ (16 ≤ x.sync.fqs.length → exec (.push h r) s = .next (s.unguard t))
    ∧ (∀ e rest, x.sync.fqr = e :: rest → e.ready = true →
        exec (.pop h r 1) s = .next (go { x.sync with fqr := rest } (Eff.of (putS 1 r e.v))))
    ∧ (∀ e rest, x.sync.fqa = e :: rest → e.ready = true →
        exec (.pop h r 2) s = .next (go { x.sync with fqa := rest } (Eff.of (putS 1 r e.v))))
    ∧ ((x.sync.fqr = [] ∨ ∃ e rest, x.sync.fqr = e :: rest ∧ e.ready = false) → exec (.pop h r 1) s = .next (s.unguard t))
    ∧ ((x.sync.fqa = [] ∨ ∃ e rest, x.sync.fqa = e :: rest ∧ e.ready = false) → exec (.pop h r 2) s = .next (s.unguard t))

/-- NOP, ARRIVE, MFPH, MFTIME, MFCYC, REALIGN and HALT on a tile (R31, R41, R48, R179, R182): the idle cycles; the
arrival; phase, package time and the die's cycle count in a pair and l.alu; the mark; the CTL stopped with the HALT's
address. -/
def Sys2Proof.Claims.ControlWordsRule : Prop :=
  ∀ (h : Ring) (rd : SReg) (n : BitVec 16) (s : State) (t : Nat), Ready s t .ctl h .cx →
    let x := s.tile t
    let go (y : Tile) : State := (s.setTile t y).issued t .ctl h 1 Eff.nil
    (∃ f : Eff, f.lands = [] ∧ f.next = none ∧ f.occ = max 1 n.toNat ∧ exec (.nop h n) s = .next (s.issued t .ctl h 1 f))
    ∧ exec (.arrive h) s = .next (go { x with pctl := { x.pctl with arrived := true } })
    ∧ exec (.mfph h rd) s = .next (s.issued t .ctl h 1 (Eff.of (putD 1 rd (BitVec.ofNat 64 x.seat.phase))))
    ∧ exec (.mftime h rd) s = .next (s.issued t .ctl h 1 (Eff.of (putD 1 rd (BitVec.ofNat 64 s.time))))
    ∧ exec (.mfcyc h rd) s = .next (s.issued t .ctl h 1 (Eff.of (putD 1 rd (BitVec.ofNat 64 (s.die (t / 64)).cyc))))
    ∧ (x.seat.phase % 2 = 1 → exec (.realign h) s = .next (go { x with stop := { x.stop with realign := true } }))
    ∧ exec (.halt h) s = .next (go { x with
        pctl := { x.pctl with stopped := true }, stop := { x.stop with haltAt := some x.pctl.pc } })

/-- HAND and TAKE of a granule that has an entry, read without an error of HBM and held by no link (R123, R180): the owner's offer
makes the granule RELEASING, names the taker and covers the copies the XP executed in earlier cycles; an offer to oneself does
nothing; a HAND in any other state, by another tile or to a tile outside the partition is an `ownership violation`; a TAKE of an
own granule completes, one of an offered granule makes the tile its owner once the giver's watermark stands, one that cannot
complete yet holds the tile, one of a granule on its way to another tile or without an owner is an `ownership violation`. AUX is
the address operand (log 20). -/
def Sys2Proof.Claims.GranuleStates : Prop :=
  ∀ (h : Ring) (ra rb : SReg) (s : State) (t p : Nat) (e : RegionEnt), Ready s t .ctl h .cx →
    let x := s.tile t
    let q := s.part p
    let va := x.ctl.rD ra
    let u := (x.ctl.rS rb).toNat
    let giver := q.phys e.owner / 64
    let held : State := (s.unguard t).modTile t fun y => { y with stop := { y.stop with held := .party } }
    s.hbm = [] → x.seat.part = some p → va.toNat < 2 ^ 52 → s.region p va.toNat = some e →
    (∀ a ∈ s.regionWords p va.toNat, s.addrHeld (Config.dieSite (t / 64)) a = false) →
    (e.state = 0 → e.owner = x.seat.lt → u < q.tiles → u ≠ x.seat.lt →
        exec (.hand h ra rb) s = .next ({ s.setRegion { e with state := 1, taker := u, nrel := 0 } with
          copies := s.copies.map fun (c : Copy) => if c.tile = t ∧ c.issued = x.cyc + 1 then
            { c with gran := c.gran.filter (· != va.toNat / 0x200000) } else c }.issued t .ctl h 1 Eff.nil))
    ∧ (e.state = 0 → e.owner = x.seat.lt → u < q.tiles → u = x.seat.lt →
        exec (.hand h ra rb) s = .next (s.issued t .ctl h 1 Eff.nil))
    ∧ ((e.state ≠ 0 ∨ e.owner ≠ x.seat.lt ∨ q.tiles ≤ u) → exec (.hand h ra rb) s = .next (s.trapWord t .ctl 0x0D va))
    ∧ (e.state = 0 → e.owner = x.seat.lt → exec (.take h ra) s = .next (s.issued t .ctl h 1 Eff.nil))
    ∧ (e.state = 0 → e.owner ≠ x.seat.lt → exec (.take h ra) s = .next held)
    ∧ (e.state = 1 → e.taker = x.seat.lt → exec (.take h ra) s = .next held)
    ∧ (e.state = 2 → e.taker = x.seat.lt → (giver = t / 64 ∨ e.nrel ≤ (s.die giver).wm) →
        exec (.take h ra) s = .next ((s.setRegion { e with state := 0, owner := x.seat.lt, taker := 0, nrel := 0 }).issued t .ctl h 1 Eff.nil))
    ∧ (e.state = 2 → e.taker = x.seat.lt → giver ≠ t / 64 → (s.die giver).wm < e.nrel → exec (.take h ra) s = .next held)
    ∧ ((e.state = 1 ∨ e.state = 2) → e.taker ≠ x.seat.lt → exec (.take h ra) s = .next (s.trapWord t .ctl 0x0D va))
    ∧ (e.state = 3 → exec (.take h ra) s = .next (s.trapWord t .ctl 0x0D va))

/-- HAND and TAKE of an address that virtual space does not have, or of a granule without an entry, are an `ownership violation`
(R180); while a link holds the read of the table the tile is held (R368, log 30); an entry that ECC cannot correct traps with its
physical address (R375, log 20). -/
def Sys2Proof.Claims.GranuleUnread : Prop :=
  ∀ (h : Ring) (ra rb : SReg) (s : State) (t p : Nat), Ready s t .ctl h .cx → (s.tile t).seat.part = some p →
    ∀ i ∈ [Instr.hand h ra rb, .take h ra],
    let va := (s.tile t).ctl.rD ra
    let words := s.regionWords p va.toNat
    let free : Prop := ∀ a ∈ words, s.addrHeld (Config.dieSite (t / 64)) a = false
    (2 ^ 52 ≤ va.toNat → exec i s = .next (s.trapWord t .ctl 0x0D va))
    ∧ (va.toNat < 2 ^ 52 → free → s.hbm = [] → s.region p va.toNat = none → exec i s = .next (s.trapWord t .ctl 0x0D va))
    ∧ (va.toNat < 2 ^ 52 → ¬free →
        exec i s = .next ((s.unguard t).modTile t fun y => { y with stop := { y.stop with held := .party } }))
    ∧ (va.toNat < 2 ^ 52 → free → ∀ a rest, words = a :: rest → (a / 32, true) ∈ s.hbm →
        exec i s = .next (s.trapWord t .ctl 0x12 (BitVec.ofNat 64 (32 * (a / 32)))))

/-- HAND and TAKE (R123, R180). -/
def Obligations.OwnershipWords : Prop := Sys2Proof.Claims.GranuleStates ∧ Sys2Proof.Claims.GranuleUnread

/-- A copy of tile t, executed in an earlier cycle, has entered a buffer and is not performed at die scope, or at package scope (R119, R120). -/
def Sys2Proof.Claims.copyPending (s : State) (t : Nat) (pkg : Bool) : Prop :=
  ∃ c ∈ s.copies, c.tile = t ∧ c.issued ≠ (s.tile t).cyc + 1 ∧ c.st ≠ .armed ∧ (c.st = .landed → pkg = true)

/-- The fences and PROMOTE on a tile (R120-R122, R181): each waits for the CTL's stores; .die, .package and .system
hold the tile while copies are not performed; .die and .package then take the die's next release number, which the watermark
passes as soon as every copy that it and the releases before it cover has retired, at most 4,096 package ticks later; PROMOTE
waits for the named die's watermark to reach the release number that die had when the word was first tried (log 63). -/
def Sys2Proof.Claims.FenceWords : Prop :=
  ∀ (h : Ring) (dd : BitVec 3) (s : State) (t : Nat), Ready s t .ctl h .cx →
    let x := s.tile t
    let d := t / 64
    let held (s : State) : State := (s.unguard t).modTile t fun y => { y with stop := { y.stop with held := .party } }
    let covered (c : Copy) : Prop := c.tile = t ∧ c.issued ≠ x.cyc + 1 ∧ c.st = .landed
    let released (r : State) (ids : List Nat) : Prop := (r.die d).rel = (s.die d).rel + 1
      ∧ ((r.die d).wm, (r.die d).rels) = State.advance (fun id => s.copies.any fun c => c.id == id) (s.die d).wm
          ((s.die d).rels ++ [((s.die d).rel + 1, ids)])
      ∧ r.tiles = s.tiles ∧ r.mem = s.mem ∧ (∀ e, e ≠ d → r.die e = s.die e)
    (storePending x → ∀ i ∈ [Instr.fenceTile h, .fenceDie h, .fencePackage h, .fenceSystem h], exec i s = .next (s.unguard t))
    ∧ (¬storePending x → exec (.fenceTile h) s = .next (s.issued t .ctl h 1 Eff.nil)
      ∧ (copyPending s t false → exec (.fenceDie h) s = .next (held s))
      ∧ (copyPending s t true → exec (.fencePackage h) s = .next (held s) ∧ exec (.fenceSystem h) s = .next (held s))
      ∧ (¬copyPending s t false → ∃ (ids : List Nat) (r : State), exec (.fenceDie h) s = .next (r.issued t .ctl h 1 Eff.nil)
          ∧ released r ids ∧ (∀ id, id ∈ ids ↔ ∃ c ∈ s.copies, covered c ∧ c.id = id)
          ∧ (∀ c ∈ s.copies, covered c → { c with retireAt := min c.retireAt (s.ticks + 4095) } ∈ r.copies)
          ∧ (∀ c ∈ s.copies, ¬covered c → c ∈ r.copies) ∧ r.copies.length = s.copies.length)
      ∧ (¬copyPending s t true → (∃ r : State, exec (.fencePackage h) s = .next (r.issued t .ctl h 1 Eff.nil)
          ∧ released r [] ∧ r.copies = s.copies)
        ∧ exec (.fenceSystem h) s = .next (s.issued t .ctl h 1 Eff.nil)))
    ∧ (∀ p pd, x.seat.part = some p → (s.part p).bind[dd.toNat]? = some pd →
        let n := x.stop.promote.getD (s.die pd).rel
        (n ≤ (s.die pd).wm → exec (.promote h dd) s = .next
          ((s.setTile t { x with stop := { x.stop with promote := none } }).issued t .ctl h 1 Eff.nil))
        ∧ ((s.die pd).wm < n → exec (.promote h dd) s = .next
          (held (s.setTile t { x with stop := { x.stop with promote := some n } }))))
    ∧ (∀ p, x.seat.part = some p → (s.part p).bind[dd.toNat]? = none →
        exec (.promote h dd) s = .next (s.trapWord t .ctl 0x01 (s.word.setWidth 64)))

/-- The watermark passes the releases in order, each once no copy it covers is left (R121). -/
def Sys2Proof.Claims.WatermarkOrder : Prop :=
  ∀ (live : Nat → Bool) (wm : Nat) (rels : List (Nat × List Nat)),
    let a := State.advance live wm rels
    (∃ done, rels = done ++ a.2 ∧ (∀ r ∈ done, ∀ id ∈ r.2, live id = false)
      ∧ a.1 = ((done.getLast?).map (·.1)).getD wm)
    ∧ (∀ r rest, a.2 = r :: rest → ∃ id ∈ r.2, live id = true)

/-- The CTL's control words: the no-operation, HALT, reads of phase and time, ARRIVE, fences, PROMOTE. -/
def Obligations.ControlWords : Prop :=
  Sys2Proof.Claims.ControlWordsRule ∧ Sys2Proof.Claims.FenceWords ∧ Sys2Proof.Claims.WatermarkOrder

/-- TRAP and BRK on a tile (R75, R135, R183, R293), guarded or not: behind a false GUARD the word is passed; it waits for its
tokens, takes them, and waits on until its signals have room (that it waits, and freezes only then, is log 47); then it has completed, and the tile freezes with a report that
names the head word, the cause and the code. -/
def Sys2Proof.Claims.SoftwareTraps : Prop :=
  ∀ (i : Instr) (h : Ring) (code : BitVec 8) (cause c : BitVec 8) (s : State) (t : Nat),
    (i = Instr.trap h code ∧ cause = 0x05#8 ∧ c = code ∨ i = Instr.brk h ∧ cause = 0x06#8 ∧ c = 0#8) → s.cur = .eng t .ctl →
    let x := s.tile t
    let p := x.pctl
    let full := (h.ss = true ∧ 8 ≤ x.pvu.fp.length) ∨ (h.sp = true ∧ 8 ≤ x.pxp.fs.length)
      ∨ ((h.sp = true ∨ h.ss = true) ∧ (p.sigs ≠ [] ∨ x.cyc < p.done))
    let fp' := if h.wp && !p.took then p.fp.drop 1 else p.fp
    let fs' := if h.ws && !p.took then p.fs.drop 1 else p.fs
    (x.tokens .ctl h = false → exec i s = .next (s.unguard t))
    ∧ (x.tokens .ctl h = true → x.guardFalse .ctl = true → exec i s = .next (s.issued t .ctl h 1 Eff.nil))
    ∧ (x.tokens .ctl h = true → x.guardFalse .ctl = false → full → ∃ s', exec i s = .next s'
        ∧ (s'.tile t).pctl.took = true ∧ (s'.tile t).pctl.fp = fp' ∧ (s'.tile t).pctl.fs = fs'
        ∧ (s'.tile t).pctl.pc = State.headAt x .ctl ∧ (s'.tile t).ctl.guard = none ∧ (s'.tile t).stop = x.stop
        ∧ (s'.tile t).pvu = x.pvu ∧ (s'.tile t).pxp = x.pxp ∧ OnlyTile t s s' ∧ SameRegisters x (s'.tile t))
    ∧ (x.tokens .ctl h = true → x.guardFalse .ctl = false → ¬full → x.stop.frozen = false → ∃ s' r, exec i s = .next s'
        ∧ (s'.tile t).stop.frozen = true ∧ (s'.tile t).stop.report = some r
        ∧ r.w0.extractLsb' 56 8 = cause ∧ r.w0.extractLsb' 24 8 = c
        ∧ r.w0.extractLsb' 0 15 = BitVec.ofNat 15 (State.headAt x .ctl)
        ∧ r.w1 = BitVec.ofNat 64 s.time ∧ r.w2 = BitVec.ofNat 64 x.seat.phase
        ∧ (s'.tile t).pctl.pc = p.pc + 1 ∧ (s'.tile t).pctl.took = false
        ∧ (s'.tile t).pctl.fp = fp' ∧ (s'.tile t).pctl.fs = fs'
        ∧ (s'.tile t).pvu.fp = (if h.ss then x.pvu.fp ++ [x.ctl.alu.setWidth 32] else x.pvu.fp)
        ∧ (s'.tile t).pxp.fs = (if h.sp then x.pxp.fs ++ [x.ctl.alu.setWidth 32] else x.pxp.fs)
        ∧ (∀ u, u ≠ t → s'.tile u = s.tile u) ∧ s'.mem = s.mem)

/-- TRAP and BRK on a firmware core (R183, R287, R294): an exception that resumes after the word. -/
def Sys2Proof.Claims.FirmwareTraps : Prop :=
  ∀ (code : BitVec 8) (s : State) (d : Nat), FwcReady s d →
    exec (.trap Ring.none code) s = .next (s.exception d 0x05 0 ((s.fwc d).pc + 1))
    ∧ exec (.brk Ring.none) s = .next (s.exception d 0x06 0 ((s.fwc d).pc + 1))

/-- A word that may not follow a GUARD (R135). -/
def Sys2Proof.Claims.Unguardable (w : Word) : Prop :=
  let op := w.toNat / 2 ^ 20 % 2 ^ 6
  w.toNat / 2 ^ 30 ≠ 0 ∨ op ∈ [0x1C, 0x1D, 0x1E, 0x20, 0x21, 0x35, 0x3C, 0x3D] ∨ (op = 0x3B ∧ w.toNat / 2 ^ 18 % 4 = 0)

/-- GUARD on a tile and on a firmware core (R135, R287): the pair issues as one unit, so the guarded word's turn follows at once;
the predicate is read now, but for a TRAP or BRK that has taken its tokens (R183). A word that may not be guarded makes the
GUARD an illegal instruction; that the end of the text after it is a text overrun is log 46. -/
def Sys2Proof.Claims.GuardWord : Prop :=
  ∀ (neg : Bool) (p : PReg) (s : State),
    (∀ t, s.cur = .eng t .ctl →
      let x := s.tile t
      let w := x.store.textAt (x.pctl.pc + 1)
      (w ≠ 0xFFFFFFFF → ¬Unguardable w → exec (.guard neg p) s = .next { (s.setTile t { x with
          ctl := { x.ctl with guard := some ⟨x.pctl.pc, x.pctl.took || (x.ctl.rP p != neg)⟩ }
          pctl := { x.pctl with pc := x.pctl.pc + 1, walk := x.pctl.walk + 1 } }) with
          agenda := .issue (.eng t .ctl) :: s.agenda })
      ∧ (w ≠ 0xFFFFFFFF → Unguardable w → exec (.guard neg p) s = .next (s.trapWord t .ctl 0x01 (s.word.setWidth 64)))
      ∧ (w = 0xFFFFFFFF → exec (.guard neg p) s = .next (s.trapWord t .ctl 0x04 0)))
    ∧ (∀ d, s.cur = .fwc d →
      let f := s.fwc d
      let w := State.fwcText f (f.pc + 1)
      (w ≠ 0xFFFFFFFF → ¬Unguardable w → exec (.guard neg p) s = .next { (s.modFwc d fun g => { g with
          ctl := { g.ctl with guard := some ⟨f.pc, f.ctl.rP p != neg⟩ }, pc := f.pc + 1 }) with
          agenda := .issue (.fwc d) :: s.agenda })
      ∧ (w ≠ 0xFFFFFFFF → Unguardable w → exec (.guard neg p) s = .next (s.exception d 0x01 (s.word.setWidth 64) f.pc))
      ∧ (w = 0xFFFFFFFF → exec (.guard neg p) s = .next (s.exception d 0x04 0 f.pc)))

/-- TRAP, BRK and GUARD (R75, R135, R183, R293, R294). -/
def Obligations.GuardsAndTraps : Prop :=
  Sys2Proof.Claims.SoftwareTraps ∧ Sys2Proof.Claims.FirmwareTraps ∧ Sys2Proof.Claims.GuardWord

/-- END_OF_TEXT and ILLEGAL_INSTRUCTION (R46, R79, R80, R134, R135, R218): `text overrun`; and `illegal instruction` with the head
word in AUX, whatever the word's guard, once its ring waits are met and, for a queue command of the TDA, an entry is free; on a
firmware core the same causes are exceptions. -/
def Sys2Proof.Claims.UnrunnableWords : Prop :=
  ∀ (s : State),
    (∀ t e, s.cur = .eng t e → exec .endOfText s = .next (s.trapWord t e 0x04 0))
    ∧ (∀ t e, s.cur = .eng t e → e ≠ .tsq →
        let x := s.tile t
        let w := x.store.textAt (x.pos e).pc
        let op := w.toNat / 2 ^ 20 % 2 ^ 6
        let full : Prop := e = .tda ∧ (op < 4 ∨ 8 ≤ op ∧ op < 14) ∧ 16 ≤ x.tda.queue.length + x.tda.runs.length
        (x.tokens e (Ring.ofWord w) = true → ¬full → exec .illegalInstruction s = .next (s.trapWord t e 0x01 (w.setWidth 64)))
        ∧ ((x.tokens e (Ring.ofWord w) = false ∨ full) → exec .illegalInstruction s = .next (s.unguard t)))
    ∧ (∀ t, s.cur = .eng t .tsq →
        exec .illegalInstruction s = .next (s.trapWord t .tsq 0x01 (((s.tile t).store.seqAt (s.tile t).tsq.tpc).setWidth 64)))
    ∧ (∀ d, s.cur = .fwc d → exec .endOfText s = .next (s.exception d 0x04 0 (State.fwcHead (s.fwc d)))
        ∧ exec .illegalInstruction s = .next (s.exception d 0x01 ((State.fwcText (s.fwc d) (s.fwc d).pc).setWidth 64)
            (State.fwcHead (s.fwc d))))

/-! ### The firmware core and the system registers (R289-R311, R314, R322, R355-R364, R376) -/

/-- The number of a system register is one of those the tables assign. -/
def Sys2Proof.Claims.assigned (n : Nat) : Prop :=
  n ≤ 0x06 ∨ (0x08 ≤ n ∧ n ≤ 0x12) ∨ n = 0x15 ∨ n = 0x40 ∨ n = 0x41 ∨ (0x44 ≤ n ∧ n ≤ 0x47) ∨ n = 0x4C
    ∨ (0x50 ≤ n ∧ n ≤ 0x56) ∨ (0x60 ≤ n ∧ n ≤ 0x67) ∨ (0x69 ≤ n ∧ n ≤ 0x6C) ∨ (0x70 ≤ n ∧ n ≤ 0x78) ∨ (0x80 ≤ n ∧ n ≤ 0x89)

/-- MFSR, MTSR, ERET, WFE and SEV on a firmware core (R290, R303, R304, R306): the read lands in its pair and in the
latch; a read of DBQ takes the oldest doorbell; an MTSR blocks until its landing a cycle later (log 25); ERET restores IE and
goes on at EPC 9 cycles later; an unassigned register and an ERET outside an exception are illegal; WFE takes a set
latch or blocks. -/
def Sys2Proof.Claims.SystemWordsRule : Prop :=
  ∀ (sd : SReg) (sr : BitVec 8) (s : State) (d : Nat), FwcReady s d →
    let f := s.fwc d
    let x := s.die d
    let illegal : State := s.exception d 0x01 ((State.fwcText f f.pc).setWidth 64) (State.fwcHead f)
    (assigned sr.toNat → sr ≠ 0x52 →
        exec (.mfsr sd sr) s = .next (s.fwcIssue d 1 (Eff.of (putD 1 sd (s.sysRead d sr)))))
    ∧ (exec (.mfsr sd 0x52) s = .next ((s.modDie d fun y => { y with dbq := x.dbq.drop 1, ovf := false }).fwcIssue d 1
        (Eff.of (putD 1 sd (match x.dbq with
          | [] => BitVec.ofNat 64 (if x.ovf then 2 ^ 62 else 0)
          | e :: _ => BitVec.ofNat 64 (2 ^ 63 + (if x.ovf then 2 ^ 62 else 0) + e.1.toNat * 256 + e.2.toNat))))))
    ∧ (assigned sr.toNat → exec (.mtsr sd sr) s = .next (blocked s d (.mtsr sr (f.ctl.rD sd) (f.cyc + 1))))
    ∧ (¬assigned sr.toNat → exec (.mfsr sd sr) s = .next illegal ∧ exec (.mtsr sd sr) s = .next illegal)
    ∧ (f.exc = true → ∃ s', exec .eret s = .next s' ∧ (s'.fwc d).ie = f.pie ∧ (s'.fwc d).exc = false
        ∧ (s'.fwc d).pc = f.epc.toNat ∧ (s'.fwc d).busy = f.cyc + 9 ∧ s'.tiles = s.tiles ∧ s'.mem = s.mem)
    ∧ (f.exc = false → exec .eret s = .next illegal)
    ∧ (f.latch = true → exec .wfe s = .next ((s.modFwc d fun f => { f with latch := false }).fwcIssue d 1 Eff.nil))
    ∧ (f.latch = false → exec .wfe s = .next (blocked s d .wfe))
    ∧ (∃ r : State, exec (.sev sd) s = .next (r.fwcIssue d 1 Eff.nil)
        ∧ (∀ e, e < 8 → (f.ctl.rS sd).getLsbD e = true → ∃ n, s.ticks < n ∧ n ≤ s.ticks + 512 ∧ (r.die e).sevs = (s.die e).sevs ++ [n])
        ∧ (∀ e, (8 ≤ e ∨ (f.ctl.rS sd).getLsbD e = false) → r.die e = s.die e) ∧ r.tiles = s.tiles ∧ r.mem = s.mem)

/-- A tile whose context CSAVE takes (R307): in no partition; frozen in a compute phase; frozen in an exchange phase when no copy of
the partition is left and no XP of it can execute another; at a boundary of a SAVING partition; of an ABORTED or DONE partition whose
copies have all ended. -/
def Sys2Proof.Claims.Savable (s : State) (t : Nat) : Prop :=
  let x := s.tile t
  s.partOfDie (t / 64) = none ∨ ∃ p, s.partOfDie (t / 64) = some p ∧
    let q := s.part p
    let copiesOver : Prop := ∀ c ∈ s.copies, c.part ≠ p
    (x.stop.frozen = true ∧ x.seat.phase % 2 = 0)
    ∨ (x.stop.frozen = true ∧ copiesOver ∧ ∀ lt, lt < q.tiles →
        let y := s.tile (q.phys lt)
        y.stop.frozen = true ∨ y.stop.halted = true ∨ y.pxp.stopped = true ∨ y.pxp.arrived = true)
    ∨ q.st = .saving ∨ ((q.st = .aborted ∨ q.st = .done) ∧ copiesOver)

/-- A tile that CREST loads (R307): in no partition that is ARMED, OPEN, EXTENDED, HELD or BOUNDARY. -/
def Sys2Proof.Claims.Restorable (s : State) (t : Nat) : Prop :=
  ∀ p, s.partOfDie (t / 64) = some p → (s.part p).st ∉ [PState.armed, .open_, .extended, .held, .boundary]

/-- A context's address that the doors take (R307). -/
def Sys2Proof.Claims.ContextAt (s : State) (a n : Nat) : Prop := a % 4096 = 0 ∧ a < 2 ^ 44 ∧ s.physOk a n = true

/-- An injection descriptor that keeps its layout (R309). -/
def Sys2Proof.Claims.GoodInjection (v : DWord) : Prop :=
  let f (hi lo : Nat) : Nat := v.toNat / 2 ^ lo % 2 ^ (hi - lo + 1)
  f 41 20 = 0 ∧ f 60 59 ≠ 3 ∧ f 58 56 ≤ 4 ∧ f 55 53 ≤ 4
    ∧ (f 62 61 = 3 → f 19 6 = 0)
    ∧ (f 62 61 ≠ 3 → f 19 0 < [131072, 262144, 32768, 2048, 65536].getD (f 55 53) 0)

/-- TLBI, TLBIA, CSAVE, CREST, TTRIM.rd, TTRIM.wr and FINJ on a firmware core (R305, R307-R309): operands are read at
issue; matching entries leave every TLU at once (log 51), and the word blocks on them; the doors block for their fixed time; a bad address,
a door that is not open and a descriptor that breaks its layout are `door refused`, with the address or the descriptor in EVAL (log 20
where it is the tile that closes the door). A CREST whose read of FLAGS a link holds waits (log 30). -/
def Sys2Proof.Claims.DoorWords : Prop :=
  ∀ (sa sb : SReg) (s : State) (d : Nat), FwcReady s d →
    let f := s.fwc d
    let a := f.ctl.rD sa
    let b := (f.ctl.rS sb).toNat
    let refused : State := s.exception d 0x18 a (State.fwcHead f)
    let t := 64 * d + b % 64
    let frz := (s.tile t).stop.frozen
    let size (frz : Bool) : Nat := if frz then 1929216 else 1728512
    let held := s.addrHeld (Config.dieSite d) (a.toNat + 0x192004)
    let frzThere := (s.physNum (a.toNat + 0x192004) 4).testBit 0
    let hit (e : TluEnt) : Bool := e.ctx == b % 256 && decide (e.va ≤ a.toNat) && decide (a.toNat < e.va + e.size)
    let all (e : TluEnt) : Bool := e.ctx == b % 256
    let inval (m : TluEnt → Bool) : State :=
      blocked { s with dies := s.dies.map fun e => (e.1, { e.2 with tlu := e.2.tlu.filter fun x => !m x }) } d
        (.tlbi ((s.dies.flatMap fun e => e.2.tlu.filter m).map (·.id)))
    (a.toNat < 2 ^ 52 → exec (.tlbi sa sb) s = .next (inval hit))
    ∧ (2 ^ 52 ≤ a.toNat → exec (.tlbi sa sb) s = .next refused)
    ∧ exec (.tlbia sb) s = .next (inval all)
    ∧ (ContextAt s a.toNat (size frz) → Savable s t →
        exec (.csave sa sb) s = .next (blocked s d (.csave (b % 64) a.toNat (f.cyc + size frz / 64))))
    ∧ (¬ContextAt s a.toNat (size frz) ∨ ¬Savable s t → exec (.csave sa sb) s = .next refused)
    ∧ (ContextAt s a.toNat (size false) → Restorable s t → held = false → ContextAt s a.toNat (size frzThere) →
        exec (.crest sa sb) s = .next (blocked s d (.crest (b % 64) a.toNat (f.cyc + size frzThere / 64))))
    ∧ (ContextAt s a.toNat (size false) → Restorable s t → held = true → exec (.crest sa sb) s = .next (s.fwcUnguard d))
    ∧ (¬ContextAt s a.toNat (size false) ∨ ¬Restorable s t ∨ held = false ∧ ¬ContextAt s a.toNat (size frzThere) →
        exec (.crest sa sb) s = .next refused)
    ∧ exec (.ttrimRd sa sb) s = .next (blocked s d (.trimRd sa b (f.cyc + 16)))
    ∧ exec (.ttrimWr sa sb) s = .next (blocked s d (.trimWr ((f.ctl.rS sa).setWidth 16) b (f.cyc + 16)))
    ∧ (GoodInjection a → exec (.finj sa sb) s = .next (blocked s d (.finj a (b % 4) (f.cyc + 16))))
    ∧ (¬GoodInjection a → exec (.finj sa sb) s = .next refused)

/-- The system words of the firmware core (R290, R303-R309). -/
def Obligations.SystemWords : Prop := Sys2Proof.Claims.SystemWordsRule ∧ Sys2Proof.Claims.DoorWords

/-- The system words on a tile's CTL are illegal instructions (R141, R286). -/
def Sys2Proof.Claims.SystemWordsOnTiles : Prop :=
  ∀ (sa sb : SReg) (sr : BitVec 8) (s : State) (t : Nat), Ready s t .ctl Ring.none .cx →
    ∀ i ∈ [Instr.mfsr sa sr, .mtsr sa sr, .eret, .tlbi sa sb, .tlbia sb, .wfe, .sev sb, .csave sa sb, .crest sa sb,
      .ttrimRd sa sb, .ttrimWr sa sb, .finj sa sb],
    exec i s = .next (s.trapWord t .ctl 0x01 (((s.tile t).store.textAt (s.tile t).pctl.pc).setWidth 64))

/-- The end of the text, illegal words, and system words on a tile (R79, R80, R134, R141, R286). -/
def Obligations.WordsNobodyRuns : Prop := Sys2Proof.Claims.UnrunnableWords ∧ Sys2Proof.Claims.SystemWordsOnTiles

/-- Reads of the core's and the tile's registers, and of those beside them (R290-R293, R311, R327, R361-R364, R376): the fields at
their bits. -/
def Sys2Proof.Claims.CoreReads : Prop :=
  ∀ (s : State) (d : Nat), d < 8 →
    let f := s.fwc d
    let x := s.die d
    let t := s.tile (64 * d + f.tsel.toNat)
    let rd (n : BitVec 8) : Nat := (s.sysRead d n).toNat
    rd 0x00 = d * 2 ^ 13 + Config.dieSite d * 2 ^ 9 + (if f.exc then 4 else 0) + (if f.pie then 2 else 0) + (if f.ie then 1 else 0)
    ∧ rd 0x01 = f.epc.toNat ∧ rd 0x02 = f.ecause.toNat ∧ rd 0x03 = f.eval_.toNat ∧ rd 0x04 = f.evec.toNat
    ∧ rd 0x06 = f.imask.toNat ∧ rd 0x08 = f.tsel.toNat
    ∧ (∀ k, k < 64 → (s.sysRead d 0x09).getLsbD k = (s.tile (64 * d + k)).stop.tpend)
    ∧ (t.stop.report = none → rd 0x0B = 0 ∧ rd 0x0C = 0 ∧ rd 0x0D = 0 ∧ rd 0x0E = 0)
    ∧ (∀ r, t.stop.report = some r →
        rd 0x0B = r.w0.toNat ∧ rd 0x0C = r.w1.toNat ∧ rd 0x0D = r.w2.toNat ∧ rd 0x0E = r.w3.toNat)
    ∧ rd 0x0F = (if t.stop.pbm then 1 else 0) ∧ rd 0x10 = t.tda.mmap.toNat ∧ rd 0x11 = 1728512 ∧ rd 0x12 = f.apbase.toNat
    ∧ (∀ k, k < 4 → (s.sysRead d 0x15).getLsbD k = (x.inj.get State.inj0 k).armed
        ∧ (s.sysRead d 0x15).getLsbD (4 + k) = x.fired.getLsbD k)
    ∧ rd 0x53 = x.wdcmp.toNat ∧ rd 0x54 = x.twnext.toNat ∧ rd 0x63 = x.calint.toNat ∧ rd 0x65 = t.press.rows.toNat
    ∧ rd 0x66 = x.div.toNat + (if x.div = x.cur then 0 else 256) + x.cur.toNat * 2 ^ 16
    ∧ rd 0x67 = s.pkg.pwrcap.toNat ∧ rd 0x6C = (if x.drain then 1 else 0) ∧ rd 0x89 = s.pkg.dreset.toNat
    ∧ (x.logRd < 512 → x.logWr < 512 → x.lost < 65536 → rd 0x80 = x.lost * 2 ^ 48 + x.logWr * 2 ^ 16 + x.logRd)

/-- IPEND (R295): each bit follows its source. -/
def Sys2Proof.Claims.PendingReads : Prop :=
  ∀ (s : State) (d : Nat), d < 8 →
    let x := s.die d
    let v := s.sysRead d 0x05
    let reached (c : DWord) : Prop := c ≠ 0 ∧ c.toNat ≤ s.time
    v.toNat < 256
    ∧ (v.getLsbD 0 = true ↔ ∃ k, k < 64 ∧ (s.tile (64 * d + k)).stop.tpend = true)
    ∧ (v.getLsbD 1 = true ↔ ∃ e ∈ s.parts, e.2.v = true ∧ e.2.dies.getLsbD d = true ∧ e.2.st ∈ [PState.done, .aborted, .saving])
    ∧ (v.getLsbD 2 = true ↔ x.logWr ≠ x.logRd)
    ∧ (v.getLsbD 3 = true ↔ ∃ k, k < 64 ∧ (s.tile (64 * d + k)).press.due = true)
    ∧ (v.getLsbD 4 = true ↔ (∃ e ∈ s.links, linkServer e.1 = d ∧ e.2.levt &&& e.2.en ≠ 0) ∨ d = 0 ∧ s.pkg.syncErr = true)
    ∧ (v.getLsbD 5 = true ↔ reached x.twnext)
    ∧ (v.getLsbD 6 = true ↔ x.dbq ≠ [] ∨ x.ovf = true)
    ∧ (v.getLsbD 7 = true ↔ reached x.wdcmp)

/-- Reads of the registers of contexts, partitions, queues, time, press, counters and patches (R290, R314, R322, R326-R328, R342, R344,
R355, R357, R358, R361, R376, R379, R383). The fuses are free values (log 5). -/
def Sys2Proof.Claims.PackageReads : Prop :=
  ∀ (s : State) (d : Nat), d < 8 →
    let f := s.fwc d
    let x := s.die d
    let t := s.tile (64 * d + f.tsel.toNat)
    let rd (n : BitVec 8) : Nat := (s.sysRead d n).toNat
    let flag (b : Bool) (k : Nat) : Nat := if b then 2 ^ k else 0
    let c := s.ctx s.pkg.ctxsel.toNat
    let q := s.part s.pkg.psel.toNat
    let src := x.dpsel.toNat / 16 % 8
    let dst := x.dpsel.toNat % 8
    let e := (if x.evsel.getLsbD 4 then t.evc else x.evc).get State.evc0 (x.evsel.toNat % 16)
    let log := x.log.get State.log0 (x.logRd % 256)
    rd 0x40 = s.pkg.ctxsel.toNat ∧ rd 0x41 = flag c.v 63 + c.pasid.toNat * 2 ^ 36 + c.root.toNat
    ∧ rd 0x44 = s.pkg.psel.toNat
    ∧ rd 0x45 = flag q.v 63 + q.ctx.toNat * 2 ^ 48 + q.slim.toNat * 2 ^ 24 + q.dies.toNat
    ∧ rd 0x46 = q.rgn.toNat * 2 ^ 21 + q.nleaf.toNat ∧ rd 0x47 = q.rcd.toNat * 2 ^ 21
    ∧ (∀ k, k < 8 → rd 0x4C / 16 ^ k % 16 = Config.dieSite k) ∧ rd 0x4C / 2 ^ 32 = Config.hiddenSite.val
    ∧ rd 0x50 = s.pkg.qtbase.toNat * 2 ^ 23 + flag s.pkg.qen 0 ∧ rd 0x51 = s.pkg.leasepa.toNat * 8
    ∧ rd 0x55 = s.pkg.mbxpa.toNat * 4096
    ∧ (∀ k, k < 8 → rd 0x56 / 4 ^ k % 4 =
        if s.pkg.dreset.getLsbD k then 1 else if (s.die k).drain then 2 else if (s.die k).cur ≠ 0 then 3 else 0)
    ∧ rd 0x60 = x.dpsel.toNat ∧ (src = dst → rd 0x61 = 0)
    ∧ (src ≠ dst → rd 0x61 = (s.pkg.overlay.get 0 (8 * src + dst)).toNat * 2 ^ 32
        + Config.maxSkew src dst % 65536 * 2 ^ 16 + Config.minLat src dst % 65536)
    ∧ (s.sysRead d 0x62).extractLsb' 32 32 = BitVec.ofInt 32 ((x.cyc : Int) - s.time)
    ∧ rd 0x62 % 2 ^ 32 = Config.tolerance d % 65536
    ∧ rd 0x64 = flag t.press.due 63 + t.press.last % 2 ^ 48
    ∧ rd 0x69 = s.pkg.syncWin.toNat * 2 ^ 16 + s.pkg.syncExp.toNat * 2 ^ 8 + flag s.pkg.syncLoad 2 + s.pkg.syncMode.toNat
    ∧ rd 0x6A = flag s.pkg.syncLock 63 + flag s.pkg.syncErr 62 + s.pkg.syncDev.toNat ∧ rd 0x6B = s.pkg.syncld.toNat
    ∧ rd 0x81 = log.e0.toNat ∧ rd 0x82 = log.e1.toNat ∧ rd 0x83 = log.e2.toNat ∧ rd 0x84 = log.e3.toNat
    ∧ rd 0x85 = x.evsel.toNat ∧ rd 0x86 = flag e.en 8 + e.src.toNat ∧ rd 0x87 = e.count.toNat
    ∧ rd 0x88 = flag f.lock 63 + flag f.inst 62 + Config.minVersion.toNat * 2 ^ 16 + f.ver.toNat

/-- Reads of the link registers that LSEL selects (R367, R370, R371): the fields at their bits; a port has no MAP, SFAIL, HALF and W32
and four lanes; PORTCTL is a port's alone; an unassigned LINK reads zero. -/
def Sys2Proof.Claims.LinkReads : Prop :=
  ∀ (s : State) (d : Nat), d < 8 →
    let x := s.die d
    let rd (n : BitVec 8) : Nat := (s.sysRead d n).toNat
    let flag (b : Bool) (k : Nat) : Nat := if b then 2 ^ k else 0
    let k := x.lsel.toNat % 32
    let port : Bool := decide (16 ≤ k)
    let l := s.link k
    let way := x.lsel.toNat / 32 % 2
    let dm := 8 * way + x.lsel.toNat / 64 % 8
    let lane := x.lsel.toNat / 512
    rd 0x70 = x.lsel.toNat
    ∧ ((12 ≤ k ∧ k < 16 ∨ 24 ≤ k) → ∀ n ∈ [0x71#8, 0x72, 0x73, 0x74, 0x75, 0x76, 0x77, 0x78], rd n = 0)
    ∧ ((k < 12 ∨ 16 ≤ k ∧ k < 24) →
      rd 0x71 = l.st.code.toNat * 2 ^ 60 + flag (l.half && !port) 18 + flag (l.w32 && !port) 17 + flag l.s16 16
        + flag l.chalf 3 + flag l.cw32 2 + flag l.cs16 1
      ∧ rd 0x72 = (if port then 0 else (l.sfail.get 0 dm).toNat * 2 ^ 32 + (l.map.get 0 dm).toNat)
      ∧ rd 0x73 = (l.lfail.get 0 dm).toNat
      ∧ rd 0x74 = (if lane < (if port then 4 else 68) then (l.lerr.get 0 (68 * dm + lane)).toNat else 0)
      ∧ rd 0x75 = (if way = 0 then l.retry0 else l.retry1).toNat
      ∧ rd 0x76 = l.thrRetry.toNat * 2 ^ 16 + l.thrLane.toNat
      ∧ rd 0x77 = l.en.toNat * 2 ^ 32 + l.levt.toNat
      ∧ rd 0x78 = (if port then flag l.portEn 63 + flag l.portIn 62 + l.rbase.toNat * 2 ^ 39 else 0))

/-- What reads of the system registers return (R290-R295, R311, R314, R322, R327, R355-R364, R367, R376-R379): every field at its bits. -/
def Obligations.RegisterReads : Prop :=
  Sys2Proof.Claims.CoreReads ∧ Sys2Proof.Claims.PendingReads ∧ Sys2Proof.Claims.PackageReads ∧ Sys2Proof.Claims.LinkReads

/-- A register write's landing is over: an MTSR that waited for it ends. -/
def Sys2Proof.Claims.landed (s r : State) (d : Nat) : State :=
  match (s.fwc d).blk with
  | some (.mtsr _ _ _) => r.modFwc d fun f => { f with blk := none, busy := max f.busy f.cyc }
  | _ => r

/-- A register write is refused: an exception at the MTSR that waited for it, with the value. -/
def Sys2Proof.Claims.turnedAway (s : State) (d : Nat) (v : DWord) : State :=
  match (s.fwc d).blk with
  | some (.mtsr _ _ _) => s.exception d 0x18 v (s.fwc d).blkAt
  | _ => s

/-- A partition other than one at rest exists. -/
def Sys2Proof.Claims.someActive (s : State) : Prop := ∃ e ∈ s.parts, e.2.v = true ∧ e.2.st.atRest = false

/-- The register-write events (R228, R292, R314, R355, R358, R363, R364, R376, R385): what each leaves in its
register, and where the door is refused. -/
def Sys2Proof.Claims.RegisterWritesRule : Prop :=
  ∀ (s : State) (d : Nat) (v : BitVec 64),
    let x := s.die d
    let t := 64 * d + (s.fwc d).tsel.toNat
    exec (.dbgctlWrite d v) s = .next (landed s (s.modTile t fun x => { x with stop := { x.stop with pbm := v.getLsbD 0 } }) d)
    ∧ exec (.mmapxWrite d v) s = .next (landed s (s.modTile t fun x => { x with tda := { x.tda with
        mmap := x.tda.mmap &&& ~~~v, mfirst := if x.tda.mmap &&& ~~~v = 0 then 0 else x.tda.mfirst } }) d)
    ∧ (x.dpsel.extractLsb' 4 3 ≠ x.dpsel.setWidth 3 → exec (.dptOverlayWrite d v) s = .next (landed s { s with pkg := { s.pkg with
        overlay := s.pkg.overlay.set 0 (8 * (x.dpsel.extractLsb' 4 3).toNat + (x.dpsel.setWidth 3 : BitVec 3).toNat) (v.extractLsb' 32 32) } } d))
    ∧ (v.getLsbD 2 = false ∨ ¬someActive s → exec (.synccfgWrite d v) s = .next (landed s { s with pkg := { s.pkg with
        syncWin := v.extractLsb' 16 16, syncExp := v.extractLsb' 8 6, syncLoad := v.getLsbD 2, syncMode := v.setWidth 2 } } d))
    ∧ (v.getLsbD 2 = true → someActive s → exec (.synccfgWrite d v) s = .next (turnedAway s d v))
    ∧ (s.commitments ≤ v.toNat % 256 →
        exec (.pwrcapWrite d v) s = .next (landed s { s with pkg := { s.pkg with pwrcap := v.setWidth 8 } } d))
    ∧ (v.toNat % 256 < s.commitments → exec (.pwrcapWrite d v) s = .next (turnedAway s d v))
    ∧ (v.getLsbD 0 = false ∨ s.dieActive d = false →
        exec (.dctlDrain d v) s = .next (landed s (s.modDie d fun x => { x with drain := v.getLsbD 0 }) d))
    ∧ (v.getLsbD 0 = true → s.dieActive d = true → exec (.dctlDrain d v) s = .next (turnedAway s d v))
    ∧ ((x.logWr + 512 - v.toNat % 512) % 512 ≤ 256 → exec (.elctlConsume d v) s = .next (landed s (s.modDie d fun x =>
        { x with logRd := v.toNat % 512, lost := if v.getLsbD 32 then 0 else x.lost }) d))
    ∧ (256 < (x.logWr + 512 - v.toNat % 512) % 512 → exec (.elctlConsume d v) s = .next (turnedAway s d v))
    ∧ (x.logRd < 512 → (x.logWr + 512 - x.logRd) % 512 ≤ 256 →
        exec (.elctlClearLost d) s = .next (landed s (s.modDie d fun x => { x with lost := 0 }) d))
    ∧ (∀ slot, slot = s.pkg.ctxsel.toNat →
        let live := v.getLsbD 63
        let pasid : BitVec 20 := v.extractLsb' 36 20
        let shut := (live = true ∧ (s.ctx slot).v = true) ∨ (∃ e ∈ s.ctxs, e.1 ≠ slot ∧ e.2.v = true ∧ e.2.pasid = pasid)
          ∨ State.hbmTop < 0x10000 * (v.toNat % 2 ^ 28) + 0x10000
          ∨ (live = false ∧ ((∃ e ∈ s.dies, ∃ y ∈ e.2.tlu, y.ctx = slot)
              ∨ ∃ e ∈ s.parts, e.2.v = true ∧ e.2.st.atRest = false ∧ e.2.ctx.toNat = slot))
        (¬shut → exec (.ctxeWrite d v) s = .next (landed s { s with
            ctxs := s.ctxs.set State.ctx0 slot ⟨live, pasid, v.setWidth 28⟩ } d))
        ∧ (shut → exec (.ctxeWrite d v) s = .next (turnedAway s d v)))

/-- MTSRs of PCFG, PRGN and PREC (R322): the selected partition's fields; several dies in one tick; refusals; and
DRESET (R327, R361, R385), LCTL with REQ (R369). The checks of PCFG are made with V = 0 too, and a context slot that another live
partition names is refused (log 25; R384); a PRGN with NLEAF over 4,096 is refused (log 28); a die released from reset runs its
first press for 38,400 ticks and a free number more (log 65). -/
def Sys2Proof.Claims.ConfigurationWrites : Prop :=
  ∀ (s : State) (d : Nat) (v : BitVec 64),
    let p := s.pkg.psel.toNat
    let q := s.part p
    let free := ∀ n e, s.pkg.cfgAt = some (n, e) → n = s.ticks → e = d
    let done (q' : Part) : State := landed s { s.setPart p q' with pkg := { s.pkg with cfgAt := some (s.ticks, d) } } d
    let dies : BitVec 8 := v.setWidth 8
    let ctx : BitVec 8 := v.extractLsb' 48 8
    let q1 : Part := { q with v := v.getLsbD 63, ctx := ctx, slim := v.extractLsb' 24 24, dies := dies }
    let q2 : Part := { q with rgn := v.extractLsb' 21 23, nleaf := v.setWidth 13 }
    let q3 : Part := { q with rcd := v.extractLsb' 21 23 }
    let resting := q.v = false ∨ q.st.atRest = true
    let shared := v.getLsbD 63 = true ∧ ∃ e ∈ s.parts, e.1 ≠ p ∧ e.2.v = true ∧ e.2.ctx = ctx
    (free → State.diesOk dies = true → (s.ctx ctx.toNat).v = true
        → (∀ e ∈ s.parts, e.1 ≠ p → e.2.v = true → e.2.dies &&& dies = 0) → s.tablesOk p q1 = true → ¬shared → resting →
        exec (.partitionConfigWrite d 0x45 v) s = .next (done q1))
    ∧ ((State.diesOk dies = false ∨ (s.ctx ctx.toNat).v = false ∨ (∃ e ∈ s.parts, e.1 ≠ p ∧ e.2.v = true ∧ e.2.dies &&& dies ≠ 0)
          ∨ s.tablesOk p q1 = false ∨ shared) →
        exec (.partitionConfigWrite d 0x45 v) s = .next (turnedAway s d v))
    ∧ (free → v.toNat % 8192 ≤ 4096 → s.tableOk p (0x200000 * q2.rgn.toNat) (0x80000 + 0x40000 * q2.nleaf.toNat) = true → resting →
        exec (.partitionConfigWrite d 0x46 v) s = .next (done q2))
    ∧ (4096 < v.toNat % 8192 → exec (.partitionConfigWrite d 0x46 v) s = .next (turnedAway s d v))
    ∧ (free → s.tableOk p (0x200000 * q3.rcd.toNat) 0x1000000 = true → resting →
        exec (.partitionConfigWrite d 0x47 v) s = .next (done q3))
    ∧ (¬free → ∀ sr ∈ [0x45#8, 0x46#8, 0x47#8], exec (.partitionConfigWrite d sr v) s = .next (turnedAway s d v))
    ∧ (dies.getLsbD d = false → (∀ e, e < 8 → dies.getLsbD e = true → s.dieActive e = false) →
        ∃ r : State, exec (.dresetWrite d v) s = .next (landed s r d)
          ∧ r.pkg = { s.pkg with dreset := dies } ∧ r.copies = s.copies.filter (fun c => !dies.getLsbD (c.tile / 64))
          ∧ r.tiles = s.tiles ∧ r.parts = s.parts ∧ r.mem = s.mem
          ∧ (∀ e, dies.getLsbD e = true → r.die e = { s.die e with pressAt := none })
          ∧ (∀ e, dies.getLsbD e = false → s.pkg.dreset.getLsbD e = false → r.die e = s.die e)
          ∧ (∀ e, dies.getLsbD e = false → s.pkg.dreset.getLsbD e = true →
              (r.fwc e).pc = 0 ∧ ∃ n, (r.die e).pressAt = some n ∧ s.ticks + 38400 ≤ n))
    ∧ (dies.getLsbD d = true ∨ (∃ e, e < 8 ∧ dies.getLsbD e = true ∧ s.dieActive e = true) →
        exec (.dresetWrite d v) s = .next (turnedAway s d v))
    ∧ (let k := ((s.die d).lsel.setWidth 5 : BitVec 5).toNat
       let l := s.link k
       let wide := { l with half := v.getLsbD 18 && !isPort k, w32 := v.getLsbD 17 && !isPort k, s16 := v.getLsbD 16 }
       (linkExists k = true → v.getLsbD 0 = true → l.reqRefused (isPort k) (v.getLsbD 18) (v.getLsbD 17) = false → l.st = .active →
          exec (.lctlReq d v) s = .next (landed s (s.modLink k fun _ => { wide with
            st := .draining, req := true
            mapOnly := wide.half == l.chalf && wide.w32 == l.cw32 && wide.s16 == l.cs16 }) d))
       ∧ (linkExists k = true → v.getLsbD 0 = true → l.reqRefused (isPort k) (v.getLsbD 18) (v.getLsbD 17) = true →
          exec (.lctlReq d v) s = .next (turnedAway s d v))
       ∧ (linkExists k = false → exec (.lctlReq d v) s = .next (turnedAway s d v)))

/-- Writes of system registers and of the configuration registers (R228, R292, R314, R322, R355-R364, R376, R385). -/
def Obligations.RegisterWrites : Prop := Sys2Proof.Claims.RegisterWritesRule ∧ Sys2Proof.Claims.ConfigurationWrites

/-! ### The vector unit (R64, R69, R70, R77, R91, R184-R212) -/

/-- A VU word that writes a register: ring bits, latency, latch, destination, sources with the bytes read of each, and its
result from the sources' values (R187). -/
structure Sys2Proof.Claims.VuRow where
  h : Ring
  lat : Nat
  latch : Latch
  d : Opnd
  srcs : List (Opnd × Nat)
  res : Tile → List Nat → VRes

/-- A word that works on each enabled sub-element of whole sources (R184, R191). -/
def Sys2Proof.Claims.each (t : EType) (mk : Bool) (f : Tile → Nat → Nat → Nat → Nat → Nat × VFlags) (x : Tile) (vs : List Nat) : VRes :=
  perElem t mk x.top fun i => f x i (el (stepOf t) (vs.getD 0 0) i) (el (stepOf t) (vs.getD 1 0) i) (el (stepOf t) (vs.getD 2 0) i)

/-- A word that moves or combines whole lanes, written where the type's sub-elements are enabled. -/
def Sys2Proof.Claims.lane (t : EType) (mk : Bool) (f : Nat → Nat → Nat) (x : Tile) (vs : List Nat) : VRes :=
  masked t mk x.top (f (vs.getD 0 0) (vs.getD 1 0))

/-- The table of R187 for the words with a register result, row by row. -/
def Sys2Proof.Claims.vuRow : Instr → Option VuRow
  | .vadd h ty d a b m => some ⟨h, 6, .alu, d, whole [a, b], each ty m.msk fun x i a b c => arithEl ty .add (modeAt x m.rnd m.sat i) a b c⟩
  | .vsub h ty d a b m => some ⟨h, 6, .alu, d, whole [a, b], each ty m.msk fun x i a b c => arithEl ty .sub (modeAt x m.rnd m.sat i) a b c⟩
  | .vmul h ty d a b m => some ⟨h, 9, .fma, d, whole [a, b], each ty m.msk fun x i a b c => arithEl ty .mul (modeAt x m.rnd m.sat i) a b c⟩
  | .vfma h ty d a b c m => some ⟨h, 9, .fma, d, whole [a, b, c], each ty m.msk fun x i a b c => arithEl ty .fma (modeAt x m.rnd m.sat i) a b c⟩
  | .vfms h ty d a b c m => some ⟨h, 9, .fma, d, whole [a, b, c], each ty m.msk fun x i a b c => arithEl ty .fms (modeAt x m.rnd m.sat i) a b c⟩
  | .vmin h ty d a b mk => some ⟨h, 6, .alu, d, whole [a, b], each ty mk fun _ _ a b _ => (pick ty false a b, 0)⟩
  | .vmax h ty d a b mk => some ⟨h, 6, .alu, d, whole [a, b], each ty mk fun _ _ a b _ => (pick ty true a b, 0)⟩
  | .vabs h ty d a sat mk => some ⟨h, 6, .alu, d, whole [a], each ty mk fun _ _ a _ _ => absEl ty sat a⟩
  | .vneg h ty d a sat mk => some ⟨h, 6, .alu, d, whole [a], each ty mk fun _ _ a _ _ => negEl ty sat a⟩
  | .vand h ty d a b mk => some ⟨h, 6, .alu, d, whole [a, b], lane ty mk fun a b => a &&& b⟩
  | .vor h ty d a b mk => some ⟨h, 6, .alu, d, whole [a, b], lane ty mk fun a b => a ||| b⟩
  | .vxor h ty d a b mk => some ⟨h, 6, .alu, d, whole [a, b], lane ty mk fun a b => a ^^^ b⟩
  | .vnot h ty d a mk => some ⟨h, 6, .alu, d, whole [a], lane ty mk fun a _ => 2 ^ 32768 - 1 - a⟩
  | .vshl h ty d a b sat mk => some ⟨h, 6, .alu, d, whole [a, b], each ty mk fun _ _ a b _ => shlEl ty sat a b⟩
  | .vshr h ty d a b mk => some ⟨h, 6, .alu, d, whole [a, b], each ty mk fun _ _ a b _ => (shrEl ty a b, 0)⟩
  | .vsar h ty d a b mk => some ⟨h, 6, .alu, d, whole [a, b], each ty mk fun _ _ a b _ => (sarEl ty a b, 0)⟩
  | .vcmp h ty cc d a b mk => some ⟨h, 6, .alu, d, whole [a, b], each ty mk fun _ _ a b _ => (cmpEl ty cc a b, 0)⟩
  | .vsel h ty d a b c mk => some ⟨h, 6, .alu, d, whole [a, b, c], each ty mk fun _ _ a b c => (moveEl ty (if nonzero ty c then a else b), 0)⟩
  | .vmov h ty d a mk => some ⟨h, 6, .alu, d, whole [a], each ty mk fun _ _ a _ _ => (moveEl ty a, 0)⟩
  | .vbcs h ty d a b mk => some ⟨h, 6, .alu, d, [(a, 4096), (b, 4)], lane ty mk fun a b => splat (el 32 a (el 32 b 0 % 1024))⟩
  | .vcvt h dt st d a q rnd sat => some ⟨h, 10, .alu, d, whole [a], fun x vs => convert x dt st q.toNat rnd sat (vs.getD 0 0)⟩
  | .vdqmx h fmt d a b q rnd => some ⟨h, 10, .alu, d, whole [a, b], fun x vs => dequantize x (blkPar fmt) q.toNat rnd (vs.getD 0 0) (vs.getD 1 0)⟩
  | .vjoin6 h fmt d a b q => some ⟨h, 10, .alu, d, whole [a, b], fun _ vs => join6 fmt q.toNat (vs.getD 0 0) (vs.getD 1 0)⟩
  | .vsplit6P4 h _ d a q => some ⟨h, 10, .alu, d, whole [a], fun _ vs => split6 true q.toNat (vs.getD 0 0)⟩
  | .vsplit6P2 h _ d a q => some ⟨h, 10, .alu, d, whole [a], fun _ vs => split6 false q.toNat (vs.getD 0 0)⟩
  | .vrcpa h d a mk => some ⟨h, 16, .sfu, d, whole [a], each .f32 mk fun _ _ a _ _ => rcpApprox a⟩
  | .vrsqa h d a mk => some ⟨h, 16, .sfu, d, whole [a], each .f32 mk fun _ _ a _ _ => rsqApprox a⟩
  | .vrcpr h d a b mk => some ⟨h, 9, .fma, d, whole [a, b], each .f32 mk fun _ _ a b _ => refine rcpStep a b⟩
  | .vrsqr h d a b mk => some ⟨h, 9, .fma, d, whole [a, b], each .f32 mk fun _ _ a b _ => refine rsqStep a b⟩
  | .vexp2 h d a mk => some ⟨h, 16, .sfu, d, whole [a], each .f32 mk fun _ _ a _ _ => exp2Approx a⟩
  | .vlog2 h d a mk => some ⟨h, 16, .sfu, d, whole [a], each .f32 mk fun _ _ a _ _ => log2Approx a⟩
  | .vrotr h ty d a b mk => some ⟨h, 6, .perm, d, [(a, 4096), (b, 4)], lane ty mk fun a b => rotR a (el 32 b 0)⟩
  | .vrotc h ty d a b mk => some ⟨h, 10, .perm, d, [(a, 4096), (b, 4)], lane ty mk fun a b => rotC a (el 32 b 0)⟩
  | .vbcr h ty d a b mk => some ⟨h, 6, .perm, d, [(a, 4096), (b, 4)], lane ty mk fun a b => bcR a (el 32 b 0)⟩
  | .vbcc h ty d a b mk => some ⟨h, 6, .perm, d, [(a, 4096), (b, 4)], lane ty mk fun a b => bcC a (el 32 b 0)⟩
  | .vperm h ty d a b mk => some ⟨h, 14, .perm, d, whole [a, b], lane ty mk permute⟩
  | .vtrn h ty d a mk => some ⟨h, 14, .perm, d, whole [a], fun x vs =>
      perElem ty mk x.top fun i => (el (stepOf ty) (vs.getD 0 0) (trnFrom ty i), 0)⟩
  | .vredr h ty op d a m => some ⟨h, 12, .red, d, whole [a], fun x vs => reduce x ty (RedOp.kind op) false m (vs.getD 0 0)⟩
  | .vredc h ty op d a m => some ⟨h, 16, .red, d, whole [a], fun x vs => reduce x ty (RedOp.kind op) true m (vs.getD 0 0)⟩
  | .vscanr h ty op ex d a m => some ⟨h, 14, .red, d, whole [a], fun x vs => scan x ty (ScanOp.kind op) false ex m (vs.getD 0 0)⟩
  | .vscanc h ty op ex d a m => some ⟨h, 18, .red, d, whole [a], fun x vs => scan x ty (ScanOp.kind op) true ex m (vs.getD 0 0)⟩
  | _ => none

/-- The operands of a word can be read: no access past an accumulator view (R64), no debug mode (R77), no ECC mark on the
tile and no injection on the die (R310, R375). -/
abbrev Sys2Proof.Claims.Clean (s : State) (t : Nat) (named : List Opnd) : Prop :=
  shapeBad (s.tile t) named = false ∧ (s.tile t).stop.pbm = false ∧ (s.tile t).store.ecc = [] ∧ (s.tile t).store.wiped = []
    ∧ (s.die (t / 64)).inj = []

/-- The VU words with a register result (R69, R70, R186, R187, R191): where the operands can be read, the word issues for
4 cycles, or 5 with three register-space sources, and lands its result after its latency in the destination and its
latch, in the enabled sub-elements alone, with its flags. -/
def Sys2Proof.Claims.VectorWordsRule : Prop :=
  ∀ (i : Instr) (r : VuRow) (s : State) (t : Nat), vuRow i = some r → Ready s t .vu r.h .c →
    Clean s t (r.d :: r.srcs.map (·.1)) →
    let x := s.tile t
    let v := r.res x (r.srcs.map fun o => x.opnd o.1 o.2)
    exec i s = .next (s.issued t .vu r.h 2 ⟨resultLands x r.lat r.d r.latch v.v v.wr ++ (if v.fl = 0 then [] else [(r.lat, .vstat v.fl)]),
      (if 3 ≤ (r.srcs.filter fun o => match o.1 with
        | .main _ _ => true
        | _ => false).length then 5 else 4), r.lat, none, 0⟩)

/-- Where an operand cannot be read, a VU word traps (R64, R77, R298, R375): past an accumulator view with `illegal shape`, on a
pending word in debug mode with the address of the first (log 12), on a word that ECC cannot correct with its address; in that
order. Which bytes of each source are read is the word's (log 13). -/
def Sys2Proof.Claims.VectorTraps : Prop :=
  ∀ (i : Instr) (r : VuRow) (s : State) (t : Nat), vuRow i = some r → Ready s t .vu r.h .c →
    let x := s.tile t
    (shapeBad x (r.d :: r.srcs.map (·.1)) = true → exec i s = .next (s.trapWord t .vu 0x07 0))
    ∧ (shapeBad x (r.d :: r.srcs.map (·.1)) = false → ∀ w, debugHit x r.srcs = some w →
        exec i s = .next (s.trapWord t .vu 0x0A (BitVec.ofNat 64 (4 * w))))
    ∧ (shapeBad x (r.d :: r.srcs.map (·.1)) = false → debugHit x r.srcs = none →
        ∀ u a, s.touchOpnds t .vu r.srcs = (u, some a) → exec i s = .next (u.trapWord t .vu 0x12 (BitVec.ofNat 64 a)))

/-- A read of coded words by a tile engine (R310, R375-R377), with no injection armed on the die: a word with more inverted bits
than its code corrects answers its address and changes nothing; else every word read leaves with none, and one entry and one
count are made for each that had one. -/
def Sys2Proof.Claims.CodedReads : Prop :=
  ∀ (s : State) (t : Nat) (who : BitVec 3 × Nat) (sp : EccSpace) (w0 w1 : Nat), (s.die (t / 64)).inj = [] →
    let x := s.tile t
    let hit (m : EccMark) : Bool := m.sp == sp && decide (w0 ≤ m.word) && decide (m.word ≤ w1)
    ((∃ m ∈ x.store.ecc, hit m = true ∧ m.lost = true) →
      ∃ m ∈ x.store.ecc, hit m = true ∧ m.lost = true ∧ s.touch t who sp w0 w1 = (s, some (sp.unit * m.word)))
    ∧ ((∀ m ∈ x.store.ecc, hit m = true → m.lost = false) → ∃ u, s.touch t who sp w0 w1 = (u, none)
        ∧ (u.tile t).store.ecc = x.store.ecc.filter (fun m => !hit m)
        ∧ (x.store.wiped = [] → (u.die (t / 64)).logNow.length = (s.die (t / 64)).logNow.length + (x.store.ecc.filter hit).length)
        ∧ SameRegisters x (u.tile t) ∧ (∀ k, k ≠ t → u.tile k = s.tile k) ∧ u.mem = s.mem)

/-- An integer type: width of its value, bits of its place, signedness (R81, R184). -/
def Sys2Proof.Claims.intForm : EType → Option (Nat × Nat × Bool)
  | .s32 => some (32, 32, true)
  | .z32 => some (32, 32, false)
  | .s16x2 => some (16, 16, true)
  | .s8x4 => some (8, 8, true)
  | .z8x4 => some (8, 8, false)
  | .s4x8 => some (4, 4, true)
  | .x48 => some (48, 64, true)
  | _ => none

/-- The integer of a code, and the code of an integer modulo 2^w; an .x48 code fills its place with its sign (R81). -/
def Sys2Proof.Claims.intVal (w : Nat) (sg : Bool) (c : Nat) : Int := if sg && decide (2 ^ (w - 1) ≤ c) then (c : Int) - 2 ^ w else c
def Sys2Proof.Claims.codeOf (w : Nat) (v : Int) : Nat := (v % 2 ^ w).toNat
def Sys2Proof.Claims.intPlace (w step : Nat) (sg : Bool) (v : Int) : Nat := codeOf step (intVal w sg (codeOf w v))

/-- An integer result: with .sat clamped to the type's range, SATF where that changed it; else wrapped (R90). -/
def Sys2Proof.Claims.intResult (w step : Nat) (sg sat : Bool) (v : Int) : Nat × VFlags :=
  let lo : Int := if sg then -2 ^ (w - 1) else 0
  let hi : Int := if sg then 2 ^ (w - 1) - 1 else 2 ^ w - 1
  if sat = false then (intPlace w step sg v, 0)
  else if v < lo then (intPlace w step sg lo, 32) else if hi < v then (intPlace w step sg hi, 32) else (intPlace w step sg v, 0)

/-! ### Floating values (R84-R91, R94, R99) -/

/-- A type whose sub-elements are floating: its format (R84, R138). -/
def Sys2Proof.Claims.floatType : EType → Option FFmt
  | .f32 => some .f32
  | .f16x2 => some .f16
  | .bf16x2 => some .bf16
  | .e4m3x4 => some .e4m3
  | .e5m2x4 => some .e5m2
  | .e2m1 => some .e2m1
  | _ => none

/-- A code without its sign bit; its sign; whether it is finite, an infinity, a NaN (R84). -/
abbrev Sys2Proof.Claims.magnitude (f : FFmt) (c : Nat) : Nat := c % 2 ^ (f.par.width - 1)
abbrev Sys2Proof.Claims.signBit (f : FFmt) (c : Nat) : Bool := c.testBit (f.par.width - 1)
abbrev Sys2Proof.Claims.IsFinite (f : FFmt) (c : Nat) : Prop := magnitude f c ≤ f.par.top
abbrev Sys2Proof.Claims.IsInfinite (f : FFmt) (c : Nat) : Prop := f.par.inf = some (magnitude f c)
abbrev Sys2Proof.Claims.IsNaN (f : FFmt) (c : Nat) : Prop := ¬IsFinite f c ∧ ¬IsInfinite f c
/-- A magnitude with a sign. -/
abbrev Sys2Proof.Claims.withSign (f : FFmt) (neg : Bool) (m : Nat) : Nat := (if neg then 2 ^ (f.par.width - 1) else 0) + m
/-- The canonical NaN of a format (R87). -/
abbrev Sys2Proof.Claims.canonicalNaN (f : FFmt) : Nat := f.par.nan.getD 0

/-- The value of a finite code (R85). -/
def Sys2Proof.Claims.codeValue (f : FFmt) (c : Nat) : ℚ :=
  let p := f.par
  let e := magnitude f c / 2 ^ p.frac
  let m : ℚ := ((magnitude f c % 2 ^ p.frac : Nat) : ℚ) / 2 ^ p.frac
  (if signBit f c then -1 else 1) * if e = 0 then m * 2 ^ (1 - p.bias) else (1 + m) * 2 ^ ((e : Int) - p.bias)

/-- `n` is what the mode makes of a non-negative `y`: its whole part or the next integer (R88, R94). -/
def Sys2Proof.Claims.WholeRounded (md : RMode) (neg : Bool) (y : ℝ) (n : ℕ) : Prop :=
  let k := ⌊y⌋₊
  let d := y - k
  let up : Prop := match md.rnd with
    | .rn => 1 / 2 < d ∨ d = 1 / 2 ∧ k % 2 = 1
    | .rz => False
    | .rd => neg = true ∧ d ≠ 0
    | .ru => neg = false ∧ d ≠ 0
    | .sr => md.draw ⌊d * 2 ^ 24⌋₊ = true
  up ∧ n = k + 1 ∨ ¬up ∧ n = k

/-- `r` is the code of a non-zero exact value `v` rounded into a format, with its flags (R88, R89, R91): the nearest codes to `v` lie
one unit in the last place apart; overflow is judged on the value rounded with unbounded exponent, tininess before rounding. -/
def Sys2Proof.Claims.Rounded (f : FFmt) (md : RMode) (v : ℝ) (r : Nat × VFlags) : Prop :=
  let p := f.par
  let neg : Bool := decide (v < 0)
  let u : ℝ := 2 ^ (max (Int.log 2 |v|) (1 - p.bias) - p.frac)
  let toInf : Bool := match md.rnd with
    | .rn => true
    | .sr => true
    | .rz => false
    | .rd => neg
    | .ru => !neg
  ∃ n, WholeRounded md neg (|v| / u) n
    ∧ (n * u ≤ codeValue f p.top → signBit f r.1 = neg ∧ IsFinite f r.1 ∧ r.1 < 2 ^ p.width ∧ |(codeValue f r.1 : ℝ)| = n * u
        ∧ (n * u = |v| → r.2 = 0) ∧ (n * u ≠ |v| → r.2 = if |v| < 2 ^ (1 - p.bias) then 12 else 8))
    ∧ (codeValue f p.top < n * u → r =
        if p.inf = none ∨ md.sat = true then (withSign f neg p.top, 42)
        else if toInf then (withSign f neg (p.inf.getD 0), 10) else (withSign f neg p.top, 10))

/-- `r` is what an exact result `v` delivers; `z` is the sign of an exact zero. -/
def Sys2Proof.Claims.Delivers (f : FFmt) (md : RMode) (v : ℝ) (z : Bool) (r : Nat × VFlags) : Prop :=
  (v = 0 → r = (withSign f z 0, 0)) ∧ (v ≠ 0 → Rounded f md v r)

/-- What an infinite result delivers (R89). -/
def Sys2Proof.Claims.infiniteResult (f : FFmt) (md : RMode) (neg : Bool) : Nat × VFlags :=
  match f.par.inf with
  | some i => if md.sat then (withSign f neg f.par.top, 32) else (withSign f neg i, 0)
  | none => (withSign f neg f.par.top, 32)

/-- A mode in which an exact value never rounds away from zero, as sr_up has it (R94). -/
abbrev Sys2Proof.Claims.KeepsExact (md : RMode) : Prop := md.draw 0 = false

/-- sr_up (R94): 24 bits, each the top bit of a mix of seed, key and bit position, against the discarded part; every VU word draws with
the tile's seed, handle and index (R92), and keeps exact values. -/
def Sys2Proof.Claims.StochasticDraw : Prop :=
  (∀ (seed : DWord) (h idx : Word) (d24 : Nat),
    let key := mix64 (h ++ idx)
    let b (j : Nat) : Nat := if (mix64 (seed ^^^ key ^^^ BitVec.ofNat 64 j)).msb then 2 ^ (24 - j) else 0
    srUp seed h idx d24 = decide (((List.range 24).map fun i => b (i + 1)).sum < d24))
  ∧ ∀ (x : Tile) (r : Rnd) (sat : Bool) (i : Nat), KeepsExact (modeAt x r sat i)
    ∧ (modeAt x r sat i).draw = srUp x.vu.srseed x.vu.srhnd (x.vu.sridx + BitVec.ofNat 32 i)

/-- VADD, VSUB, VMUL, VFMA and VFMS of floating sub-elements (R87-R91, R192): NaN, invalid operations and infinities first; else the exact
value rounded once. -/
def Sys2Proof.Claims.FloatArithmetic : Prop :=
  ∀ (ty : EType) (f : FFmt) (md : RMode) (a b c : Nat), floatType ty = some f → KeepsExact md →
    a < 2 ^ f.par.width → b < 2 ^ f.par.width → c < 2 ^ f.par.width →
    let V (x : Nat) : ℝ := codeValue f x
    let sg := signBit f
    let rd : Bool := decide (md.rnd = .rd)
    let zero (x : Nat) : Prop := IsFinite f x ∧ V x = 0
    (∀ o k, (o = Arith.add ∧ k = false) ∨ (o = Arith.sub ∧ k = true) →
      let r := arithEl ty o md a b c
      let sb := sg b != k
      (IsNaN f a ∨ IsNaN f b → r = (canonicalNaN f, 0))
      ∧ (IsInfinite f a → IsInfinite f b → r = if sg a = sb then infiniteResult f md sb else (canonicalNaN f, 1))
      ∧ (IsInfinite f a → IsFinite f b → r = infiniteResult f md (sg a)) ∧ (IsFinite f a → IsInfinite f b → r = infiniteResult f md sb)
      ∧ (IsFinite f a → IsFinite f b →
          Delivers f md (V a + if k then -V b else V b) (if V a = 0 ∧ V b = 0 ∧ sg a = sb then sb else rd) r))
    ∧ (let r := arithEl ty .mul md a b c
       (IsNaN f a ∨ IsNaN f b → r = (canonicalNaN f, 0))
       ∧ (zero a ∧ IsInfinite f b ∨ IsInfinite f a ∧ zero b → r = (canonicalNaN f, 1))
       ∧ (¬IsNaN f a → ¬IsNaN f b → ¬zero a → ¬zero b → IsInfinite f a ∨ IsInfinite f b → r = infiniteResult f md (sg a != sg b))
       ∧ (IsFinite f a → IsFinite f b → Delivers f md (V a * V b) (sg a != sg b) r))
    ∧ (∀ o k, (o = Arith.fma ∧ k = false) ∨ (o = Arith.fms ∧ k = true) →
      let r := arithEl ty o md a b c
      let sp := sg a != sg b
      let sc := sg c != k
      let invalid : Prop := zero a ∧ IsInfinite f b ∨ IsInfinite f a ∧ zero b
      let infP : Prop := (IsInfinite f a ∨ IsInfinite f b) ∧ ¬invalid
      let nan : Prop := IsNaN f a ∨ IsNaN f b ∨ IsNaN f c
      (nan → r = (canonicalNaN f, 0)) ∧ (¬nan → invalid → r = (canonicalNaN f, 1))
      ∧ (¬nan → infP → r = if IsInfinite f c ∧ sp ≠ sc then (canonicalNaN f, 1) else infiniteResult f md sp)
      ∧ (IsFinite f a → IsFinite f b → IsInfinite f c → r = infiniteResult f md sc)
      ∧ (IsFinite f a → IsFinite f b → IsFinite f c →
          Delivers f md (V a * V b + if k then -V c else V c) (if V a * V b = 0 ∧ V c = 0 ∧ sp = sc then sp else rd) r))

/-- VMIN, VMAX, VCMP, VABS and VNEG of floating sub-elements (R193, R196): -0 is less than +0 for the first two and equal to it for the
compares; a NaN gives the canonical NaN without a flag, and of the compares only .ne and .uo hold. -/
def Sys2Proof.Claims.FloatCompares : Prop :=
  ∀ (ty : EType) (f : FFmt) (a b : Nat), floatType ty = some f → a < 2 ^ f.par.width → b < 2 ^ f.par.width →
    let V (x : Nat) : EReal := if IsInfinite f x then (if signBit f x then ⊥ else ⊤) else ((codeValue f x : ℝ) : EReal)
    let nan : Prop := IsNaN f a ∨ IsNaN f b
    let less (x y : Nat) : Prop := V x < V y ∨ V x = V y ∧ signBit f x = true ∧ signBit f y = false
    let w := f.par.width
    let holds (cc : VCond) (p : Prop) : Prop :=
      (p → cmpEl ty cc a b = 2 ^ w - 1) ∧ (¬p → cmpEl ty cc a b = 0)
    (nan → ∀ up, pick ty up a b = canonicalNaN f)
    ∧ (¬nan → (less b a → pick ty false a b = b) ∧ (¬less b a → pick ty false a b = a)
        ∧ (less a b → pick ty true a b = b) ∧ (¬less a b → pick ty true a b = a))
    ∧ holds .eq (¬nan ∧ V a = V b) ∧ holds .ne (nan ∨ V a ≠ V b) ∧ holds .lt (¬nan ∧ V a < V b) ∧ holds .le (¬nan ∧ V a ≤ V b)
    ∧ holds .gt (¬nan ∧ V b < V a) ∧ holds .ge (¬nan ∧ V b ≤ V a) ∧ holds .uo nan ∧ holds .or (¬nan)
    ∧ (∀ sat, (IsNaN f a → absEl ty sat a = (canonicalNaN f, 0) ∧ negEl ty sat a = (canonicalNaN f, 0))
        ∧ (¬IsNaN f a → absEl ty sat a = (magnitude f a, 0) ∧ negEl ty sat a = (withSign f (!signBit f a) (magnitude f a), 0)))

/-- Integer sub-elements, .x48 among them where the type takes it (R90, R192, R193, R195, R196): sums, differences, products and fused
products wrap, or with .sat clamp and set SATF; lesser and greater, magnitude and negation by signedness; shifts whose counts
may reach or pass the width; compares give all ones or zero. -/
def Sys2Proof.Claims.IntegerElementsRule : Prop :=
  ∀ (ty : EType) (w step : Nat) (sg : Bool) (md : RMode) (a b c : Nat), intForm ty = some (w, step, sg) →
    a < 2 ^ step → b < 2 ^ step → c < 2 ^ step →
    let A := intVal w sg (a % 2 ^ w)
    let B := intVal w sg (b % 2 ^ w)
    let C := intVal w sg (c % 2 ^ w)
    let n := b % 2 ^ w
    let lo : Int := if sg then -2 ^ (w - 1) else 0
    let hi : Int := if sg then 2 ^ (w - 1) - 1 else 2 ^ w - 1
    let fin := intResult w step sg md.sat
    let put := intPlace w step sg
    let ones (p : Prop) [Decidable p] : Nat := if p then 2 ^ step - 1 else 0
    arithEl ty .add md a b c = fin (A + B) ∧ arithEl ty .sub md a b c = fin (A - B)
    ∧ (ty ≠ .x48 → arithEl ty .mul md a b c = fin (A * B) ∧ arithEl ty .fma md a b c = fin (A * B + C)
        ∧ arithEl ty .fms md a b c = fin (A * B - C) ∧ shrEl ty a b = (if b < w then a / 2 ^ b else 0))
    ∧ pick ty false a b = put (min A B) ∧ pick ty true a b = put (max A B)
    ∧ (∀ sat, (sg = true → absEl ty sat a = intResult w step sg sat |A| ∧ negEl ty sat a = intResult w step sg sat (-A))
        ∧ (sg = false → absEl ty sat a = (a, 0) ∧ negEl ty sat a = ((2 ^ w - a) % 2 ^ w, 0)))
    ∧ (∀ sat, (n < w → shlEl ty sat a b = intResult w step sg sat (A * 2 ^ n))
        ∧ (w ≤ n → (sat = false ∨ A = 0) → shlEl ty sat a b = (0, 0))
        ∧ (w ≤ n → sat = true → (A < 0 → shlEl ty sat a b = (put lo, 32)) ∧ (0 < A → shlEl ty sat a b = (put hi, 32))))
    ∧ sarEl ty a b = put ((intVal w true (a % 2 ^ w)).fdiv (2 ^ min n w))
    ∧ cmpEl ty .eq a b = ones (A = B) ∧ cmpEl ty .ne a b = ones (A ≠ B) ∧ cmpEl ty .lt a b = ones (A < B)
    ∧ cmpEl ty .le a b = ones (A ≤ B) ∧ cmpEl ty .gt a b = ones (B < A) ∧ cmpEl ty .ge a b = ones (B ≤ A)

/-- What a masked word writes (R189, R191): a disabled sub-element's nibbles are not written, an enabled one's all are,
without .mk every sub-element is enabled, and the word's flags are those of the enabled ones. -/
def Sys2Proof.Claims.MaskedElements : Prop :=
  ∀ (ty : EType) (mk : Bool) (top : Nat) (f : Nat → Nat × VFlags), (∀ k, (f k).1 < 2 ^ stepOf ty) →
    let r := perElem ty mk top f
    let on_ (i : Nat) : Bool := !mk || top.testBit (stepOf ty / 4 * i)
    (∀ i, i < count ty → el (stepOf ty / 4) r.wr i = (if on_ i then 2 ^ (stepOf ty / 4) - 1 else 0)
      ∧ (on_ i = true → el (stepOf ty) r.v i = (f i).1))
    ∧ ∀ b, r.fl.getLsbD b = true ↔ ∃ i, i < count ty ∧ on_ i = true ∧ (f i).2.getLsbD b = true

/-- VCVT of one sub-element (R86, R89, R90, R198): the exact source value, rounded into a floating type, rounded to an integer and clamped
with INX judged before the clamp, or kept in its low bits or clamped under .sat between integers. -/
def Sys2Proof.Claims.Conversions : Prop :=
  ∀ (dt st : EType) (md : RMode) (c : Nat), KeepsExact md → c < 2 ^ stepOf st →
    let r := cvtEl dt st md c
    (∀ f g, floatType dt = some f → floatType st = some g →
      (IsNaN g c → r = match f.par.nan with
        | some n => (n, 0)
        | none => (0, 1))
      ∧ (IsInfinite g c → r = infiniteResult f md (signBit g c))
      ∧ (IsFinite g c → Delivers f md (codeValue g c : ℝ) (signBit g c) r))
    ∧ (∀ f w step sg, floatType dt = some f → intForm st = some (w, step, sg) → Delivers f md (intVal w sg (c % 2 ^ w)) false r)
    ∧ (dt = .f32 → st = .e8m0 → (c = 255 → r = (0x7FC00000, 0)) ∧ (c ≠ 255 → Delivers .f32 md (2 ^ ((c : Int) - 127)) false r))
    ∧ (∀ g w step sg, intForm dt = some (w, step, sg) → floatType st = some g →
      let lo : Int := if sg then -2 ^ (w - 1) else 0
      let hi : Int := if sg then 2 ^ (w - 1) - 1 else 2 ^ w - 1
      let s := signBit g c
      (IsNaN g c → r = (0, 1)) ∧ (IsInfinite g c → r = (intPlace w step sg (if s then lo else hi), 32))
      ∧ (IsFinite g c → ∃ n, WholeRounded md s |(codeValue g c : ℝ)| n ∧
          let v : Int := if s then -n else n
          let inx : VFlags := if (n : ℚ) = |codeValue g c| then 0 else 8
          let cl := intResult w step sg true v
          r = (cl.1, cl.2 ||| inx)))
    ∧ (∀ w step sg w' step' sg', intForm dt = some (w, step, sg) → intForm st = some (w', step', sg') →
        r = intResult w step sg md.sat (intVal w' sg' (c % 2 ^ w')))

/-- The approximate functions and refinements (R108-R110): the special inputs; a reciprocal and a reciprocal square root rounded to twelve
significant bits and then to .f32; a refinement rounded once. Of VEXP2 and VLOG2, exact results are exact and the others lie within
the relative error that R108 gives (that they too are the twelve-bit roundings rests on the working precision of log 10). -/
def Sys2Proof.Claims.SpecialFunctions : Prop :=
  ∀ (a b : Nat), a < 2 ^ 32 → b < 2 ^ 32 →
    let V (x : Nat) : ℝ := codeValue .f32 x
    let nan := IsNaN .f32
    let sg := signBit .f32
    let inf (s : Bool) : Nat := withSign .f32 s 0x7F800000
    let zero (x : Nat) : Prop := IsFinite .f32 x ∧ V x = 0
    let some_ (x : Nat) : Prop := IsFinite .f32 x ∧ V x ≠ 0
    let twice (v : ℝ) (r : Nat × VFlags) : Prop :=
      let u : ℝ := 2 ^ (Int.log 2 |v| - 11)
      ∃ n q, WholeRounded .rne false (|v| / u) n ∧ Rounded .f32 .rne (if v < 0 then -(n * u) else n * u) q ∧ r.1 = q.1
        ∧ (let ovf : Prop := 0x7F7FFFFF < magnitude .f32 q.1
           let isExact : Prop := ¬ovf ∧ V q.1 = v
           r.2 = (if ovf then 2 else 0) + (if isExact then 0 else 8) + (if ¬isExact ∧ |v| < 2 ^ (-126 : Int) then 4 else 0))
    (nan a → rcpApprox a = (0x7FC00000, 0) ∧ rsqApprox a = (0x7FC00000, 0) ∧ exp2Approx a = (0x7FC00000, 0) ∧ log2Approx a = (0x7FC00000, 0))
    ∧ (zero a → rcpApprox a = (inf (sg a), 0) ∧ rsqApprox a = (inf (sg a), 0) ∧ exp2Approx a = (0x3F800000, 0)
        ∧ log2Approx a = (inf true, 0))
    ∧ (a = 0x7F800000 → rcpApprox a = (0, 0) ∧ rsqApprox a = (0, 0) ∧ exp2Approx a = (inf false, 0) ∧ log2Approx a = (inf false, 0))
    ∧ (a = 0xFF800000 → rcpApprox a = (0x80000000, 0) ∧ rsqApprox a = (0x7FC00000, 1) ∧ exp2Approx a = (0, 0)
        ∧ log2Approx a = (0x7FC00000, 1))
    ∧ (some_ a → sg a = true → rsqApprox a = (0x7FC00000, 1) ∧ log2Approx a = (0x7FC00000, 1))
    ∧ (some_ a → twice (1 / V a) (rcpApprox a))
    ∧ (some_ a → sg a = false → twice (1 / Real.sqrt (V a)) (rsqApprox a))
    ∧ (some_ a →
        (∀ n : ℤ, V a = n → -149 ≤ n → n < 128 → IsFinite .f32 (exp2Approx a).1 ∧ V (exp2Approx a).1 = 2 ^ n ∧ (exp2Approx a).2 = 0)
        ∧ (128 - 23 * 2 ^ (-17 : Int) ≤ V a → exp2Approx a = (inf false, 10)) ∧ (V a < -150 → exp2Approx a = (0, 12))
        ∧ ((∀ n : ℤ, V a ≠ n) → -126 ≤ V a → V a < 128 - 23 * 2 ^ (-17 : Int) → IsFinite .f32 (exp2Approx a).1
            ∧ |V (exp2Approx a).1 - 2 ^ (V a)| ≤ 2 ^ (-12 : Int) * 2 ^ (V a) ∧ (exp2Approx a).2 = 8))
    ∧ (some_ a → sg a = false →
        (∀ n : ℤ, V a = 2 ^ n → IsFinite .f32 (log2Approx a).1 ∧ V (log2Approx a).1 = n ∧ (log2Approx a).2 = 0)
        ∧ ((∀ n : ℤ, V a ≠ 2 ^ n) → IsFinite .f32 (log2Approx a).1
            ∧ |V (log2Approx a).1 - Real.logb 2 (V a)| ≤ 2 ^ (-12 : Int) * |Real.logb 2 (V a)| ∧ (log2Approx a).2 = 8))
    ∧ (∀ g (v : ℝ), (g = rcpStep ∧ v = V b + V b * (1 - V a * V b) ∨ g = rsqStep ∧ v = V b + V b * (1 - V a * V b * V b) / 2) →
        (nan b → refine g a b = (0x7FC00000, 0)) ∧ (zero b ∨ IsInfinite .f32 b → refine g a b = (b, 0))
        ∧ (some_ b → nan a → refine g a b = (0x7FC00000, 0)) ∧ (some_ b → zero a ∨ IsInfinite .f32 a → refine g a b = (b, 0))
        ∧ (some_ b → some_ a → Delivers .f32 .rne v false (refine g a b)))

/-- Words that move whole lanes or sub-elements, and those that write lanes under a mask (R191, R195, R197, R201, R202, R204, R207, R208):
where each lane of the result comes from. -/
def Sys2Proof.Claims.MovedLanes : Prop :=
  (∀ (a b n v y x : Nat), y < 16 → x < 64 → v < 2 ^ 32 →
    let at_ (r y x : Nat) : Nat := el 32 r (64 * y + x)
    let m := at_ b y x % 1024
    at_ (rotR a n) y x = at_ a y ((x + 64 - n % 64) % 64) ∧ at_ (rotC a n) y x = at_ a ((y + 16 - n % 16) % 16) x
    ∧ at_ (bcR a n) y x = at_ a y (n % 64) ∧ at_ (bcC a n) y x = at_ a (n % 16) x
    ∧ at_ (permute a b) y x = at_ a (m / 64) (m % 64) ∧ at_ (splat v) y x = v)
  ∧ (∀ (ty : EType) (s y c : Nat), 16 * s < rowLen ty → ty ≠ .x48 → y < 16 → c < 16 →
      trnFrom ty (y * rowLen ty + 16 * s + c) = c * rowLen ty + 16 * s + y)
  ∧ (∀ (ty : EType) (c : Nat), (ty ≠ .x48 → moveEl ty c = c ∧ nonzero ty c = (c % 2 ^ stepOf ty != 0))
      ∧ moveEl .x48 c = codeOf 64 (intVal 48 true (c % 2 ^ 48)) ∧ nonzero .x48 c = (c % 2 ^ 48 != 0))
  ∧ (∀ (ty : EType) (mk : Bool) (top v : Nat), (masked ty mk top v).v = v ∧ (masked ty mk top v).fl = 0
      ∧ ∀ i, i < count ty → el (stepOf ty / 4) (masked ty mk top v).wr i =
          if mk = false ∨ top.testBit (stepOf ty / 4 * i) = true then 2 ^ (stepOf ty / 4) - 1 else 0)
  ∧ (∀ (q a b n : Nat), q < 8 → n < 4096 →
      let c := el 4 a (4096 * (q / 4) + n) + 16 * el 2 b (4096 * (q % 4) + n)
      el 8 (join6 .e2m3 q a b).v n = c ∧ el 8 (join6 .s6 q a b).v n = codeOf 8 (intVal 6 true c)
      ∧ ∀ f, el 2 (join6 f q a b).wr n = 3 ∧ (join6 f q a b).fl = 0)
  ∧ (∀ (q a n k : Nat), n < 4096 → k < 8192 →
      (q < 2 → el 4 (split6 true q a).v (4096 * q + n) = el 8 a n % 16
        ∧ ((split6 true q a).wr.testBit k = true ↔ 4096 * q ≤ k ∧ k < 4096 * q + 4096))
      ∧ (q < 4 → el 2 (split6 false q a).v (4096 * q + n) = el 8 a n / 16 % 4
        ∧ ((split6 false q a).wr.testBit k = true ↔ 2048 * q ≤ k ∧ k < 2048 * q + 2048)))

/-- Where VCVT takes each destination sub-element from and which it writes (R185, R198), its value and the word's flags. -/
def Sys2Proof.Claims.PlacedConversions : Prop :=
  ∀ (x : Tile) (dt st : EType) (q : Nat) (rnd : Rnd) (sat : Bool) (a y i : Nat), y < 16 → i < rowLen dt →
    let R := convert x dt st q rnd sat a
    let kd := rowLen dt
    let ks := rowLen st
    let n := y * kd + i
    let from_ (n : Nat) : Nat := if ks < kd then n / kd * ks + (n % kd - ks * q) else if kd < ks then n / kd * ks + kd * q + n % kd else n
    let on_ (n : Nat) : Prop := ks < kd → ks * q ≤ n % kd ∧ n % kd < ks * q + ks
    let e (n : Nat) : Nat × VFlags := cvtEl dt st (modeAt x rnd sat n) (el (stepOf st) a (from_ n))
    (on_ n → el (stepOf dt) R.v n = (e n).1 % 2 ^ stepOf dt ∧ el (stepOf dt / 4) R.wr n = 2 ^ (stepOf dt / 4) - 1)
    ∧ (¬on_ n → el (stepOf dt / 4) R.wr n = 0)
    ∧ ∀ b, R.fl.getLsbD b = true ↔ ∃ n, n < count dt ∧ on_ n ∧ (e n).2.getLsbD b = true

/-- The code that a disabled sub-element takes part as (R205). -/
def Sys2Proof.Claims.neutral (ty : EType) (o : RKind) : Nat :=
  match o, floatType ty, intForm ty with
  | .and, _, _ => 2 ^ stepOf ty - 1
  | .min, some f, _ => f.par.inf.getD f.par.top
  | .max, some f, _ => withSign f true (f.par.inf.getD f.par.top)
  | .min, none, some (w, step, sg) => intPlace w step sg (if sg then 2 ^ (w - 1) - 1 else 2 ^ w - 1)
  | .max, none, some (w, step, sg) => intPlace w step sg (if sg then -2 ^ (w - 1) else 0)
  | _, _, _ => 0

/-- What the operation of a reduction makes of the codes of a line, one or more (R205). -/
def Sys2Proof.Claims.Reduces (ty : EType) (o : RKind) (md : RMode) (cs : List Nat) (r : Nat × VFlags) : Prop :=
  (∀ f, floatType ty = some f →
    let V (c : Nat) : ℝ := codeValue f c
    let key (c : Nat) : EReal := if IsInfinite f c then (if signBit f c then ⊥ else ⊤) else ((V c : ℝ) : EReal)
    let less (x y : Nat) : Prop := key x < key y ∨ key x = key y ∧ signBit f x = true ∧ signBit f y = false
    let nan : Prop := ∃ c ∈ cs, IsNaN f c
    let inf (s : Bool) : Prop := ∃ c ∈ cs, IsInfinite f c ∧ signBit f c = s
    let zeros (s : Bool) : Prop := ∀ c ∈ cs, V c = 0 ∧ signBit f c = s
    (o = .add → (nan → r = (canonicalNaN f, 0)) ∧ (¬nan → inf true → inf false → r = (canonicalNaN f, 1))
      ∧ (∀ s, ¬nan → inf s → ¬inf (!s) → r = infiniteResult f md s)
      ∧ (∀ z, (∀ c ∈ cs, IsFinite f c) → (zeros z ∨ ¬zeros true ∧ ¬zeros false ∧ z = decide (md.rnd = .rd)) →
          Delivers f md ((cs.map V).sum) z r))
    ∧ (o = .min ∨ o = .max → (nan → r = (canonicalNaN f, 0))
      ∧ (¬nan → r.2 = 0 ∧ r.1 ∈ cs ∧ ∀ c ∈ cs, if o = .min then ¬less c r.1 else ¬less r.1 c)))
  ∧ (∀ w step sg, intForm ty = some (w, step, sg) →
    let I (c : Nat) : Int := intVal w sg (c % 2 ^ w)
    (o = .add → r = intResult w step sg md.sat (cs.map I).sum)
    ∧ (o = .min → ∃ c ∈ cs, r = (intPlace w step sg (I c), 0) ∧ ∀ c' ∈ cs, I c ≤ I c')
    ∧ (o = .max → ∃ c ∈ cs, r = (intPlace w step sg (I c), 0) ∧ ∀ c' ∈ cs, I c' ≤ I c))
  ∧ (o = .and ∨ o = .or ∨ o = .xor → r.2 = 0 ∧ ∀ b, b < stepOf ty →
    let k := if ty = .x48 then min b 47 else b
    (r.1.testBit b = true ↔ match o with
      | .and => ∀ c ∈ cs, c.testBit k = true
      | .or => ∃ c ∈ cs, c.testBit k = true
      | _ => (cs.filter fun c => c.testBit k).length % 2 = 1))

/-- VREDR, VREDC, VSCANR and VSCANC (R189, R205, R206): over the row or the column position of each enabled sub-element, all of it or as far
as the sub-element, with or without itself; disabled ones take part as the identity, which .excl writes at the start of a line. -/
def Sys2Proof.Claims.Reductions : Prop :=
  ∀ (x : Tile) (ty : EType) (col excl : Bool) (m : VMod) (a : Nat), (floatType ty).isSome ∨ (intForm ty).isSome → ty ≠ .e2m1 →
    let L := rowLen ty
    let on_ (n : Nat) : Bool := !m.msk || x.top.testBit (stepOf ty / 4 * n)
    let code (o : RKind) (n : Nat) : Nat := if on_ n then el (stepOf ty) a n else neutral ty o
    let line (n : Nat) : List Nat := if col then (List.range 16).map fun y => y * L + n % L else (List.range L).map fun i => n / L * L + i
    let place (n : Nat) : Nat := if col then n / L else n % L
    let tells (R : VRes) (P : Nat → Nat × VFlags → Prop) : Prop :=
      ∃ g : Nat → VFlags, (∀ n, n < count ty → on_ n = true → P n (el (stepOf ty) R.v n, g n))
        ∧ (∀ n, n < count ty → el (stepOf ty / 4) R.wr n = if on_ n then 2 ^ (stepOf ty / 4) - 1 else 0)
        ∧ ∀ b, R.fl.getLsbD b = true ↔ ∃ n, n < count ty ∧ on_ n = true ∧ (g n).getLsbD b = true
    (∀ op : RedOp, let o := RedOp.kind op
      tells (reduce x ty o col m a) fun n r => Reduces ty o (modeAt x m.rnd m.sat n) ((line n).map (code o)) r)
    ∧ ∀ op : ScanOp, let o := ScanOp.kind op
      tells (scan x ty o col excl m a) fun n r =>
        let cs := ((line n).take (if excl then place n else place n + 1)).map (code o)
        (cs = [] → r = (neutral ty o, 0)) ∧ (cs ≠ [] → Reduces ty o (modeAt x m.rnd m.sat n) cs r)

/-- VU words with a register result: they issue, or trap (R64, R69, R70, R77, R186, R187, R191, R298, R375); where the lanes of moves,
conversions, reductions and scans come from and what they make of them (R185, R195, R197, R198, R201-R208). The values of the
elements are those of the next statement. -/
def Obligations.VectorWords : Prop :=
  Sys2Proof.Claims.VectorWordsRule ∧ Sys2Proof.Claims.VectorTraps ∧ Sys2Proof.Claims.CodedReads
  ∧ Sys2Proof.Claims.MovedLanes ∧ Sys2Proof.Claims.PlacedConversions ∧ Sys2Proof.Claims.Reductions

/-- Elements of the vector unit (R81-R91, R94, R108-R110, R189, R191-R198): integer and floating arithmetic, compares, masks, conversions,
special functions. -/
def Obligations.IntegerElements : Prop :=
  Sys2Proof.Claims.IntegerElementsRule ∧ Sys2Proof.Claims.MaskedElements ∧ Sys2Proof.Claims.StochasticDraw
  ∧ Sys2Proof.Claims.FloatArithmetic ∧ Sys2Proof.Claims.FloatCompares ∧ Sys2Proof.Claims.Conversions
  ∧ Sys2Proof.Claims.SpecialFunctions

/-- VLD, VST and VLDD (R209, R210): the rows read, stored and popped, at their addresses; the wait of VLDD; a row outside
local space is an `ownership violation`. -/
def Obligations.VectorMemoryWords : Prop :=
  ∀ (h : Ring) (ty : EType) (d a b c : Opnd) (rows : BitVec 4) (mk : Bool) (s : State) (t : Nat), Ready s t .vu h .c →
    let x := s.tile t
    let n := rows.toNat + 1
    let adr (k : Nat) : Nat := (x.opnd b 4 % 2 ^ 32 + k * (x.opnd c 4 % 2 ^ 32)) % 2 ^ 32
    let rng := (List.range n).map fun k => (adr k, 256)
    let wr := (masked ty mk x.top 0).wr &&& (2 ^ (512 * n) - 1)
    (Clean s t [d, b, c] → ∀ q, s.readRanges t .vu rng = .ok q →
        exec (.vld h ty d b c rows mk) s = .next (q.1.issued t .vu h 2 ⟨resultLands x 8 d .alu (ofLe q.2.flatten) wr, 4, 8, none, 0⟩))
    ∧ (Clean s t [a, b, c] → (∀ k, k < n → adr k + 256 ≤ 0x100000) →
        exec (.vst h ty a b c rows mk) s = .next (s.issued t .vu h 2
          ⟨(landRuns .scr rng (x.opnd a (256 * n)) wr).map fun l => (6, l), vuOcc [a, b, c], 6, none, 0⟩))
    ∧ (∀ k, k < n → 0x100000 < adr k + 256 → (∀ j, j < k → adr j + 256 ≤ 0x100000) →
        (Clean s t [a, b, c] → exec (.vst h ty a b c rows mk) s = .next (s.trapWord t .vu 0x0D (BitVec.ofNat 64 (adr k))))
        ∧ (Clean s t [d, b, c] → exec (.vld h ty d b c rows mk) s = .next (s.trapWord t .vu 0x0D (BitVec.ofNat 64 (adr k)))))
    ∧ (Clean s t [d] → n ≤ x.sync.dcf.length → (∀ e ∈ x.sync.dcf.take n, e.due ≤ x.cyc) →
        exec (.vldd h ty d rows mk) s = .next ((s.setTile t { x with sync := { x.sync with dcf := x.sync.dcf.drop n } }).issued t .vu h 2
          ⟨resultLands x 8 d .alu (ofLe ((x.sync.dcf.take n).flatMap (·.bytes))) wr, 4, 8, none, 0⟩))
    ∧ (Clean s t [d] → (x.sync.dcf.length < n ∨ ∃ e ∈ x.sync.dcf.take n, x.cyc < e.due) →
        exec (.vldd h ty d rows mk) s = .next (s.unguard t))

/-- A block format: the type of an element's place, its floating format or none, its bits, emax (R95, R199). -/
def Sys2Proof.Claims.blockForm : BlkFmt → EType × Option FFmt × Nat × Int
  | .s8x4 => (.s8x4, none, 8, 6)
  | .e4m3x4 => (.e4m3x4, some .e4m3, 8, 8)
  | .e5m2x4 => (.e5m2x4, some .e5m2, 8, 15)
  | .s4x8 => (.s4x8, none, 4, 2)
  | .e2m1 => (.e2m1, some .e2m1, 4, 2)
  | .s6 => (.s8x4, none, 6, 4)
  | .e2m3 => (.e4m3x4, some .e2m3, 6, 2)

/-- The scale of a block of .f32 codes, and its flags (R95, R96). -/
def Sys2Proof.Claims.ScaleOf (fmt : BlkFmt) (cs : List Nat) (r : Nat × VFlags) : Prop :=
  let V (c : Nat) : ℝ := |(codeValue .f32 c : ℝ)|
  ((∃ c ∈ cs, ¬IsFinite .f32 c) → r = (255, 16))
  ∧ ((∀ c ∈ cs, IsFinite .f32 c ∧ V c = 0) → r = (0, 0))
  ∧ ∀ c ∈ cs, (∀ d ∈ cs, IsFinite .f32 d ∧ V d ≤ V c) → V c ≠ 0 →
      let x := Int.log 2 (V c) - (blockForm fmt).2.2.2
      r = if x < -127 then (0, 4) else ((x + 127).toNat, 0)

/-- An element of a block whose inputs are not all zero (R96, R97): divided by the scale, rounded and saturated, an integer to its symmetric
range; +0 under the scale of a block that holds an infinity or a NaN. -/
def Sys2Proof.Claims.QuantizedAs (fmt : BlkFmt) (md : RMode) (scale c : Nat) (r : Nat × VFlags) : Prop :=
  let v : ℝ := (codeValue .f32 c : ℝ) / 2 ^ ((scale : Int) - 127)
  let s := signBit .f32 c
  (scale = 255 → r = (0, 0))
  ∧ (scale ≠ 255 → (∀ f, (blockForm fmt).2.1 = some f → Delivers f { md with sat := true } v s r)
    ∧ ((blockForm fmt).2.1 = none → ∃ n, WholeRounded md s |v| n ∧
        let hi : Int := 2 ^ ((blockForm fmt).2.2.1 - 1) - 1
        let i : Int := if s then -n else n
        r = (codeOf (stepOf (blockForm fmt).1) (max (-hi) (min hi i)),
          (if hi < n then 32 else 0) ||| (if n = |v| then 0 else 8))))

/-- An element of a block as VDQMX delivers it (R98, R200). -/
def Sys2Proof.Claims.DequantizedAs (fmt : BlkFmt) (md : RMode) (scale c : Nat) (r : Nat × VFlags) : Prop :=
  let k : ℝ := 2 ^ ((scale : Int) - 127)
  let bits := (blockForm fmt).2.2.1
  let c := c % 2 ^ bits
  (scale = 255 → r = (0x7FC00000, 0))
  ∧ (scale ≠ 255 →
    (∀ f, (blockForm fmt).2.1 = some f → (IsNaN f c → r = (0x7FC00000, 0)) ∧ (IsInfinite f c → r = infiniteResult .f32 md (signBit f c))
      ∧ (IsFinite f c → Delivers .f32 md ((codeValue f c : ℝ) * k) (signBit f c) r))
    ∧ ((blockForm fmt).2.1 = none → Delivers .f32 md ((intVal bits true c : ℝ) * k) false r))

/-- VQMX and VDQMX (R95-R98, R185, R199, R200): the scale of each block of 32 lanes, the elements of its part at their row indices, what is
written, the scale bytes of the latch, the flags; and the lanes that VDQMX makes of elements and scales. -/
def Sys2Proof.Claims.BlockFormats : Prop :=
  ∀ (x : Tile) (fmt : BlkFmt) (q : Nat) (rnd : Rnd) (a b : Nat),
    let p := blkPar fmt
    let ty := (blockForm fmt).1
    let step := stepOf ty
    let L := rowLen ty
    64 * q < L →
    let cs (y h : Nat) : List Nat := (List.range 32).map fun k => el 32 a (64 * y + 32 * h + k)
    let zero (y h : Nat) : Prop := ∀ c ∈ cs y h, IsFinite .f32 c ∧ codeValue .f32 c = 0
    let sc := scalesOf p a
    let scale (y h : Nat) : Nat × VFlags := sc.getD (2 * y + h) (0, 0)
    let R := quantize x p q rnd sc a
    let S := scaleBytes q sc
    let D := dequantize x p q rnd a b
    let at_ (y c : Nat) : Nat := y * L + 64 * q + c
    (∀ y h, y < 16 → h < 2 → ScaleOf fmt (cs y h) (scale y h)
      ∧ el 8 S.v (256 * y + 2 * q + h) = (scale y h).1 ∧ el 2 S.wr (256 * y + 2 * q + h) = 3)
    ∧ (∀ n, n < 4096 → (∀ y h, y < 16 → h < 2 → n ≠ 256 * y + 2 * q + h) → el 2 S.wr n = 0)
    ∧ (∃ g : Nat → Nat → VFlags,
        (∀ y c, y < 16 → c < 64 →
          (zero y (c / 32) → el step R.v (at_ y c) = 0 ∧ g y c = 0)
          ∧ (¬zero y (c / 32) → QuantizedAs fmt (modeAt x rnd true (at_ y c)) (scale y (c / 32)).1 (el 32 a (64 * y + c))
              (el step R.v (at_ y c), g y c))
          ∧ el (step / 4) R.wr (at_ y c) = 2 ^ (step / 4) - 1)
        ∧ (∀ n, n < count ty → (∀ y c, y < 16 → c < 64 → n ≠ at_ y c) → el (step / 4) R.wr n = 0)
        ∧ ∀ k, R.fl.getLsbD k = true ↔ ∃ y c, y < 16 ∧ c < 64 ∧ (g y c ||| (scale y (c / 32)).2).getLsbD k = true)
    ∧ ∃ g : Nat → Nat → VFlags,
        (∀ y c, y < 16 → c < 64 → DequantizedAs fmt (modeAt x rnd false (64 * y + c)) (el 8 b (256 * y + (64 * q + c) / 32))
            (el step a (at_ y c)) (el 32 D.v (64 * y + c), g y c) ∧ el 8 D.wr (64 * y + c) = 255)
        ∧ ∀ k, D.fl.getLsbD k = true ↔ ∃ y c, y < 16 ∧ c < 64 ∧ (g y c).getLsbD k = true

/-- The mask stack, flags, seeds and VQMX (R91, R92, R189, R190, R199, R211, R212) and the arrival of the VU (R31): what each lands and
when; a full stack and an empty one are `mask stack fault`s with the depth. -/
def Sys2Proof.Claims.StateWords : Prop :=
  ∀ (h : Ring) (ty : EType) (fmt : BlkFmt) (d a : Opnd) (q : BitVec 4) (rnd : Rnd) (pd : PReg) (fresh : Bool) (s : State) (t : Nat),
    Ready s t .vu h .c →
    let x := s.tile t
    let v := x.opnd a 4096
    let w := x.opnd a 8
    let depth : DWord := BitVec.ofNat 64 x.vu.masks.length
    let go (l : List (Nat × Land)) : State := s.issued t .vu h 1 (Eff.of l)
    let seed (l : Land) : State := s.issued t .vu h 2 (Eff.of [(1, l)])
    let flg (r : State) : State := r.issued t .vu h 2 ⟨resultLands x 6 d .alu (splat x.vu.vstat.toNat) allNibbles, 4, 6, none, 0⟩
    (Clean s t [a] → x.vu.masks.length < 16 → exec (.mpush h ty a fresh) s = .next (s.issued t .vu h 2
        ⟨[(4, .mask (.push (if fresh then maskOf ty v else maskOf ty v &&& x.vu.masks.headD allNibbles)))], 4, 4, none, 0⟩))
    ∧ (shapeBad x [a] = false → 16 ≤ x.vu.masks.length → exec (.mpush h ty a fresh) s = .next (s.trapWord t .vu 0x08 depth))
    ∧ (x.vu.masks ≠ [] → exec (.minv h) s = .next (go [(1, .mask .inv)]) ∧ exec (.mpop h) s = .next (go [(1, .mask .pop)]))
    ∧ (x.vu.masks = [] → exec (.minv h) s = .next (s.trapWord t .vu 0x08 0) ∧ exec (.mpop h) s = .next (s.trapWord t .vu 0x08 0))
    ∧ exec (.mqry h pd) s = .next (go [(3, .pred pd (x.vu.masks.head? == some 0))])
    ∧ exec (.varrive h) s = .next ((s.setTile t { x with pvu := { x.pvu with arrived := true } }).issued t .vu h 1 Eff.nil)
    ∧ (Clean s t [d] → exec (.vflg h d) s = .next (flg s)
        ∧ exec (.vflgClr h d) s = .next (flg (s.setTile t { x with vu := { x.vu with vstat := 0 } })))
    ∧ (Clean s t [a] →
        exec (.vseedSeed h a) s = .next (seed (.seed (BitVec.ofNat 32 (w / 2 ^ 32) ++ BitVec.ofNat 32 w)))
        ∧ exec (.vseedHnd h a) s = .next (seed (.hnd (BitVec.ofNat 32 w)))
        ∧ exec (.vseedIdx h a) s = .next (seed (.idx (BitVec.ofNat 32 w)))
        ∧ exec (.vseedAdv h a) s = .next (seed (.adv (BitVec.ofNat 32 w))))
    ∧ (Clean s t [d, a] → (∀ l, d ≠ .latch l) → (∀ k, d ≠ .const k) → d ≠ .ring →
        let p := blkPar fmt
        let sc := scalesOf p v
        let r := quantize x p q.toNat rnd sc v
        let b := scaleBytes q.toNat sc
        ∃ sp rs, opndRuns x d 4096 = some (sp, rs) ∧ exec (.vqmx h fmt d a q rnd) s = .next (s.issued t .vu h 2
          ⟨(landRuns sp rs r.v r.wr ++ landRuns .lat [(0, 4096)] b.v b.wr).map (fun l => (10, l))
            ++ (if r.fl = 0 then [] else [(10, .vstat r.fl)]), 4, 10, none, 0⟩))

/-- VARRIVE is legal in exchange phases too (R29, R31): the arrival. -/
def Sys2Proof.Claims.VectorArrival : Prop :=
  ∀ (h : Ring) (s : State) (t : Nat), Ready s t .vu h .cx →
    let x := s.tile t
    exec (.varrive h) s = .next ((s.setTile t { x with pvu := { x.pvu with arrived := true } }).issued t .vu h 1 Eff.nil)

/-- The state words of the vector unit and block formats (R29, R31, R91, R92, R95-R98, R189, R190, R199, R200, R211, R212). -/
def Obligations.VectorStateWords : Prop :=
  Sys2Proof.Claims.StateWords ∧ Sys2Proof.Claims.VectorArrival ∧ Sys2Proof.Claims.BlockFormats

/-! ### The time-domain array (R64, R99-R103, R215-R237, R360, R361) -/

/-- The command queue of an array has room (R218). -/
abbrev Sys2Proof.Claims.QueueRoom (x : Tile) : Prop := x.tda.queue.length + x.tda.runs.length < 16

/-- The state in which a command has been pushed and its word has issued (R218). -/
def Sys2Proof.Claims.pushed (s : State) (t : Nat) (h : Ring) (d : Tda) (op : TOp) (sem : SemF) : State :=
  let x := s.tile t
  (s.setTile t { x with tda := { d with
    nextId := x.tda.nextId + 1
    queue := x.tda.queue ++ [⟨x.tda.nextId, x.ptda.pc, x.ptda.walk, x.cyc, op, sem⟩] } }).issued t .tda h 2
    ⟨[], 1, 1, none, x.tda.nextId⟩

/-- The accumulator of a command lies within its view (R64, R225): rows and columns grow by one with .cs. -/
def Sys2Proof.Claims.accFits (w : View) (i : BitVec 3) (e m n : Nat) (cs : Bool) : Prop :=
  (if cs then n + 1 else n) * e ≤ w.pitch
  ∧ i.toNat * w.istep + ((if cs then m + 1 else m) - 1) * w.pitch + (if cs then n + 1 else n) * e ≤ w.extent

/-- TMAC, TMACX, TLDB and TZERO are pushed with the fields captured at push (R64, R217, R218, R225, R227); a full queue
waits; a wrong shape, type or extent, or a push view that disagrees, is an `illegal shape`. -/
def Sys2Proof.Claims.ArrayCommandsRule : Prop :=
  ∀ (h : Ring) (v i : BitVec 3) (msz : MSize) (nsz : BitVec 6) (f : TFmt) (cs : Bool) (sem : SemF) (slot cnt : BitVec 4) (wide : Bool)
    (s : State) (t : Nat), Ready s t .tda h .c →
    let x := s.tile t
    let w := x.view v
    let m := MSize.rows msz
    let n := 16 * (nsz.toNat + 1)
    let base := w.base + i.toNat * w.istep
    let mac : Instr := if wide then .tmacx h v i msz nsz f cs sem else .tmac h v i msz nsz f cs sem
    let ty : BitVec 4 := if wide then 0xE else 0
    let e := if wide then 8 else 4
    let views := ∀ k, 64 * k < n → x.tda.view.get none k = some ⟨f, wide⟩
    (¬QueueRoom x → ∀ j ∈ [mac, .tldb h slot cnt wide f sem, .tzero h v i msz nsz cs sem], exec j s = .next (s.unguard t))
    ∧ (QueueRoom x → w.shape = 2 → w.etype = ty → accFits w i e m n cs → views →
        exec mac s = .next (pushed s t h x.tda (.mac wide base w.pitch m n f cs) sem))
    ∧ (QueueRoom x → (w.shape ≠ 2 ∨ w.etype ≠ ty ∨ ¬accFits w i e m n cs ∨ ¬views) →
        exec mac s = .next (s.trapWord t .tda 0x07 0))
    ∧ (QueueRoom x → w.shape = 2 → w.etype = ty → accFits w i e m n cs →
        exec (.tzero h v i msz nsz cs sem) s = .next (pushed s t h x.tda (.zero base w.pitch e m n cs) sem))
    ∧ (QueueRoom x → (w.shape ≠ 2 ∨ (w.etype ≠ 0 ∧ w.etype ≠ 0xE)) →
        exec (.tzero h v i msz nsz cs sem) s = .next (s.trapWord t .tda 0x07 0))
    ∧ (QueueRoom x → ∃ pv : Map (Option PlaneFmt),
        exec (.tldb h slot cnt wide f sem) s = .next (pushed s t h { x.tda with view := pv } (.ldb slot.toNat (cnt.toNat + 1) wide f) sem)
        ∧ ∀ k, pv.get none k = if slot.toNat ≤ k ∧ k ≤ slot.toNat + cnt.toNat then some ⟨f, wide⟩ else x.tda.view.get none k)

/-- The races: destination, keys, rows, key type, whether results go to FQA, the race, the semaphores (R232). -/
def Sys2Proof.Claims.raceOf : Instr → Option (Ring × Opnd × Opnd × BitVec 4 × KeyType × Bool × RaceOp × SemF)
  | .raceMin h d a r kt q sem => some (h, d, a, r, kt, q, .least false, sem)
  | .raceMax h d a r kt q sem => some (h, d, a, r, kt, q, .least true, sem)
  | .raceArgmin h d a r kt q sem => some (h, d, a, r, kt, q, .arg false, sem)
  | .raceArgmax h d a r kt q sem => some (h, d, a, r, kt, q, .arg true, sem)
  | .raceSort h d a r kt desc sem => some (h, d, a, r, kt, false, .sort desc, sem)
  | .raceTopk h d a r kt km1 sem => some (h, d, a, r, kt, false, .topk (km1.toNat + 1), sem)
  | _ => none

/-- The races (R218, R234, R235): keys are taken at push, row by row; the results of the rows, and of no other row, wait
with the command for its start, in the destination and l.acc; with .q lane 0 of each row is kept for FQA. -/
def Sys2Proof.Claims.RaceCommands : Prop :=
  ∀ (j : Instr) (h : Ring) (d a : Opnd) (rows : BitVec 4) (kt : KeyType) (q : Bool) (op : RaceOp) (sem : SemF) (s : State) (t : Nat),
    raceOf j = some (h, d, a, rows, kt, q, op, sem) → Ready s t .tda h .c →
    let x := s.tile t
    let n := rows.toNat + 1
    let keys := x.opnd a (256 * n)
    let out := (List.range n).map fun y => raceRow op kt y ((List.range 64).map fun k => el 32 keys (64 * y + k))
    (QueueRoom x → Clean s t [d, a] → exec j s = .next (pushed s t h x.tda
        (.race ((resultLands x 0 d .acc (packW 32 out.flatten) (2 ^ (512 * n) - 1)).map (·.2))
          (if q then out.map fun l => BitVec.ofNat 32 (l.headD 0) else []) (raceLat op kt - 24)) sem))
    ∧ (¬QueueRoom x → exec j s = .next (s.unguard t))
    ∧ (QueueRoom x → shapeBad x [d, a] = true → exec j s = .next (s.trapWord t .tda 0x07 0))

/-- The commands of the array's queue (R215-R233). -/
def Obligations.ArrayCommands : Prop := Sys2Proof.Claims.ArrayCommandsRule ∧ Sys2Proof.Claims.RaceCommands

/-- The order key of R232, on the lane as a word. -/
def Sys2Proof.Claims.ordKey (kt : KeyType) (v : Word) : Nat :=
  match kt with
  | .z16 => v.toNat % 65536
  | .s16 => (v ^^^ 0x8000).toNat % 65536
  | .z32 => v.toNat
  | .s32 => (v ^^^ 0x80000000).toNat
  | .f32 => if v.msb then (~~~v).toNat else (v ^^^ 0x80000000).toNat

/-- Lane i precedes lane j of a row (R233). -/
def Sys2Proof.Claims.precedes (kt : KeyType) (desc : Bool) (row : List Nat) (i j : Nat) : Prop :=
  let k (n : Nat) : Nat := ordKey kt (BitVec.ofNat 32 (row.getD n 0))
  (if desc then k j < k i else k i < k j) ∨ (k i = k j ∧ i < j)

/-- What a race finds in a row of 64 lanes (R232-R234): there is one order of the lanes in which each precedes the next,
and every race reads its result off it. -/
def Obligations.RaceOrder : Prop :=
  ∀ (kt : KeyType) (desc : Bool) (y n : Nat) (row : List Nat), row.length = 64 → (∀ v ∈ row, v < 2 ^ 32) → 1 ≤ n → n ≤ 64 →
    ∃ l : List Nat, l.Perm (List.range 64) ∧ l.Pairwise (precedes kt desc row)
      ∧ raceRow (.sort desc) kt y row = l.map (64 * y + ·)
      ∧ raceRow (.arg desc) kt y row = List.replicate 64 (64 * y + l.headD 0)
      ∧ raceRow (.least desc) kt y row = List.replicate 64 (row.getD (l.headD 0) 0)
      ∧ (desc = true → raceRow (.topk n) kt y row = (l.take n).map (64 * y + ·) ++ List.replicate (64 - n) 0xFFFFFFFF)

/-- Nothing of the array is in progress (R222). -/
abbrev Sys2Proof.Claims.ArrayQuiet (x : Tile) : Prop := x.tda.queue = [] ∧ x.tda.runs = [] ∧ x.tda.direct = none

/-- The semaphore wait of a direct word is met (R222). -/
abbrev Sys2Proof.Claims.waitMet (x : Tile) (sem : SemF) : Prop := sem.we = true → x.sync.sem.get 0#16 sem.wsem.toNat ≠ 0

/-- The state after the semaphore wait of a direct word has taken one. -/
def Sys2Proof.Claims.taken (s : State) (t : Nat) (sem : SemF) : State :=
  if sem.we then s.modTile t fun x => { x with sync := { x.sync with
    sem := x.sync.sem.set 0 sem.wsem.toNat (x.sync.sem.get 0#16 sem.wsem.toNat - 1) } } else s

/-- The direct words TFLAG, TDRAIN, TCAL, TMARG and TARRIVE (R31, R72, R222, R228-R230, R236, R237): each waits for a quiet array
and its semaphore, which in an exchange phase holds the tile; what each lands, clears, signals and keeps in progress; the margin
exception. TMARG's guard codes are the part's,
free values of the model (log 5). -/
def Obligations.ArrayDirectWords : Prop :=
  ∀ (h : Ring) (d : Opnd) (mg clr : Bool) (row : BitVec 6) (sem : SemF) (s : State) (t : Nat),
    let x := s.tile t
    let busy (k : Nat) (w : TWork) (lands : List (Nat × Land)) (r : State) : State :=
      (r.modTile t fun y => { y with tda := { y.tda with direct := some ⟨x.cyc + k, w, sem⟩ } }).issued t .tda h 2 ⟨lands, 1, k, none, 0⟩
    let stat := (if x.tda.calr then 8 else 0) + (if x.tda.clmp then 2 else 0) + (if x.tda.ovf then 1 else 0)
    (Ready s t .tda h .c → ArrayQuiet x → waitMet x sem →
      (shapeBad x [d] = false → (mg = false ∨ x.tda.mmap = 0) → exec (.tflag h d mg clr sem) s = .next
          (busy 4 .flag (resultLands x 4 d .acc stat allNibbles)
            (if clr then (taken s t sem).modTile t fun y => { y with tda := { y.tda with ovf := false, clmp := false, calr := false } }
             else taken s t sem)))
      ∧ (shapeBad x [d] = false → mg = true → x.tda.mmap ≠ 0 →
          exec (.tflag h d mg clr sem) s = .next (s.trapWord t .tda 0x0B x.tda.mmap))
      ∧ (x.tda.mmap ≠ 0 → exec (.tdrain h sem) s = .next (s.trapWord t .tda 0x0B x.tda.mmap))
      ∧ (x.tda.mmap = 0 → exec (.tdrain h sem) s = .next
          ((if sem.se then (taken s t sem).signalSem t sem.ssem.toNat else taken s t sem).issued t .tda h 2 ⟨[], 1, 0, none, 0⟩)))
    ∧ (Ready s t .tda h .x → ArrayQuiet x → waitMet x sem →
      exec (.tcal h row sem) s = .next (busy 300 (.cal row) [] (taken s t sem))
      ∧ (shapeBad x [d] = false → ∃ codes : List (BitVec 5), codes.length = 256
          ∧ exec (.tmarg h d row sem) s = .next
            (busy 300 (.marg row (codes.any fun c => decide (11 < c.toInt.natAbs)))
              (resultLands x 300 d .acc (packW 32 (codes.map fun c => (c.signExtend 32 : Word).toNat)) allNibbles)
              { taken s t sem with free := s.free + 1 })))
    ∧ (ArrayQuiet x → ¬waitMet x sem →
        (Ready s t .tda h .c → exec (.tflag h d mg clr sem) s = .next (s.unguard t) ∧ exec (.tdrain h sem) s = .next (s.unguard t))
        ∧ (Ready s t .tda h .x → ∀ i ∈ [Instr.tcal h row sem, .tmarg h d row sem], exec i s = .next ((s.unguard t).modTile t fun y =>
            { y with stop := { y.stop with held := .party } })))
    ∧ (Ready s t .tda h .x → (¬ArrayQuiet x) → exec (.tcal h row sem) s = .next (s.unguard t) ∧ exec (.tmarg h d row sem) s = .next (s.unguard t))
    ∧ (Ready s t .tda h .c → (¬ArrayQuiet x) → exec (.tflag h d mg clr sem) s = .next (s.unguard t) ∧ exec (.tdrain h sem) s = .next (s.unguard t))
    ∧ (Ready s t .tda h .cx → (ArrayQuiet x →
          exec (.tarrive h) s = .next ((s.setTile t { x with ptda := { x.ptda with arrived := true } }).issued t .tda h 1 Eff.nil))
        ∧ (¬ArrayQuiet x → exec (.tarrive h) s = .next (s.unguard t)))

/-! What a product computes (R100, R101, R103, R216, R224, R225) -/

/-- The bytes of a row of codes, both planes of a six-bit format together; the block terms of a row (R101, R216). -/
def Sys2Proof.Claims.rowBytes : TFmt → Nat
  | .s6 => 96
  | .e2m3 => 96
  | _ => 64
def Sys2Proof.Claims.blockTerms : TFmt → Nat
  | .s8 => 2
  | _ => 4

/-- Code `i` of row or column `y` of an entry of `n` rows or columns (R82, R216). -/
def Sys2Proof.Claims.entryCode (f : TFmt) (n : Nat) (bs : List Byte) (y i : Nat) : Nat :=
  let b (k : Nat) : Nat := (bs.getD k 0).toNat
  let nibble := b (64 * y + i / 2) / 16 ^ (i % 2) % 16
  match f with
  | .s8 => b (64 * y + i)
  | .s4 => nibble
  | .e2m1 => nibble
  | _ => nibble + 16 * (b (64 * n + 32 * y + i / 4) / 4 ^ (i % 4) % 4)

/-- Scale `j` of row or column `y`. -/
def Sys2Proof.Claims.entryScale (f : TFmt) (n : Nat) (bs : List Byte) (y j : Nat) : Nat :=
  (bs.getD (n * rowBytes f + blockTerms f * y + j) 0).toNat

/-- The integer of a code and the exponent offset (R100): the bottom of a signed range reads as the symmetric one's. -/
def Sys2Proof.Claims.codeInt (f : TFmt) (c : Nat) : Int :=
  match f with
  | .s4 => max (-7) (intVal 4 true c)
  | .s6 => max (-31) (intVal 6 true c)
  | .s8 => max (-127) (intVal 8 true c)
  | .e2m1 => (2 * codeValue .e2m1 c).num
  | .e2m3 => (8 * codeValue .e2m3 c).num
def Sys2Proof.Claims.exponentOffset : TFmt → Int
  | .e2m1 => -1
  | .e2m3 => -3
  | _ => 0

/-- `r` is tmac_f32 of an accumulator and terms (R101, R102): NaN and infinity first, a list of zeros keeps the accumulator, else the sum in
units of 2^(h - 64), what lies below them as half a unit, rounded once to nearest even. -/
def Sys2Proof.Claims.AddsTerms (acc : Nat) (nan : Prop) (terms : List ℝ) (r : Nat × VFlags) : Prop :=
  let list : List ℝ := (codeValue .f32 acc : ℝ) :: terms
  (IsNaN .f32 acc ∨ nan → r = (0x7FC00000, 0)) ∧ (IsInfinite .f32 acc → ¬nan → r = (acc, 0))
  ∧ (IsFinite .f32 acc → ¬nan → (∀ t ∈ list, t = 0) → r = (acc, 0))
  ∧ (IsFinite .f32 acc → ¬nan → ∀ h, (∃ t ∈ list, t ≠ 0 ∧ Int.log 2 |t| = h) → (∀ t ∈ list, t ≠ 0 → Int.log 2 |t| ≤ h) →
      let q : ℝ := 2 ^ (h - 64)
      let s : ℤ := (list.map fun t => ⌊t / q⌋).sum
      ∃ st : ℝ, ((∃ t ∈ list, ⌊t / q⌋ * q ≠ t) → st = 1) ∧ ((∀ t ∈ list, ⌊t / q⌋ * q = t) → st = 0)
        ∧ Delivers .f32 .rne ((s + st / 2) * q) false r)

/-- What a product leaves in element (y, x) of its accumulator, a checksum where y = m or x = n (R101, R103, R224, R225): `e` is the A entry,
`plane` the B planes, `old` and `r` the codes before and after, `r.2` the overflow among its flags. -/
def Sys2Proof.Claims.Product (wide : Bool) (f : TFmt) (m n : Nat) (e : List Byte) (plane : Nat → List Byte) (y x old : Nat)
    (r : Nat × VFlags) : Prop :=
  let ys := if y < m then [y] else List.range m
  let xs := if x < n then [x] else List.range n
  let q (y x j : Nat) : Int := ((List.range 32).map fun k =>
    codeInt f (entryCode f m e y (32 * j + k)) * codeInt f (entryCode f 64 (plane (x / 64)) (x % 64) (32 * j + k))).sum
  let sa (y j : Nat) : Nat := entryScale f m e y j
  let sb (x j : Nat) : Nat := entryScale f 64 (plane (x / 64)) (x % 64) j
  let blocks := List.range (blockTerms f)
  let sum (j : Nat) : Int := (ys.map fun y => (xs.map fun x => q y x j).sum).sum
  let term (j : Nat) : ℝ := (ys.map fun y => (xs.map fun x =>
    (q y x j : ℝ) * 2 ^ ((sa y j : Int) + sb x j - 254 + 2 * exponentOffset f)).sum).sum
  let total := intVal 48 true (old % 2 ^ 48) + (blocks.map sum).sum
  if wide then r = (codeOf 64 (intVal 48 true (codeOf 48 total)), if total < -(2 ^ 47) ∨ 2 ^ 47 ≤ total then 2 else 0)
  else AddsTerms old (∃ j ∈ blocks, (∃ y ∈ ys, sa y j = 255) ∨ ∃ x ∈ xs, sb x j = 255) (blocks.map term) r

/-- The head of the queue may start, by what R219 asks of every command. -/
def Sys2Proof.Claims.startable (x : Tile) (c : TCmd) (rest : List TCmd) : Prop :=
  x.tda.queue = c :: rest ∧ waitMet x c.sem ∧ c.pushed < x.cyc ∧ x.tda.lastStart < x.cyc ∧ x.tda.occEnd ≤ x.cyc

/-- No error and no injection meets the array of a tile, and its debug mode is off. -/
def Sys2Proof.Claims.soundArray (s : State) (t : Nat) : Prop :=
  (s.tile t).stop.pbm = false ∧ (s.tile t).store.ecc = [] ∧ (s.tile t).store.wiped = [] ∧ (s.die (t / 64)).inj = []

/-- The array after a start (R219, R220): what the queue, the runs and the records become; the semaphore that it waited for is one
less. -/
def Sys2Proof.Claims.started (x y : Tile) (c : TCmd) (rest : List TCmd) (r : TRun) (occEnd : Nat) (lands : List Land) : Prop :=
  r.cmd = c ∧ r.start = x.cyc ∧ y.tda.queue = rest ∧ y.tda.runs = x.tda.runs ++ [r] ∧ y.tda.lastStart = x.cyc ∧ y.tda.occEnd = occEnd
  ∧ y.pend = x.pend ++ lands.map (fun l => ⟨r.retire, c.pos, .tda, c.id, l⟩)
  ∧ y.sync = (if c.sem.we then { x.sync with
      sem := x.sync.sem.set 0 c.sem.wsem.toNat (x.sync.sem.get 0#16 c.sem.wsem.toNat - 1) } else x.sync)
  ∧ y.store = x.store ∧ y.ctl = x.ctl ∧ y.vu = x.vu ∧ y.vw = x.vw

/-- The start of a command of the array (R72, R217-R220, R224-R227, R234): TZERO writes zeros in its rows, TMAC and TMACX their sums
in the rows of their accumulator, a race its results, each when it retires; TMAC and TMACX take an entry of OFA, TLDB a plane of
OFB. The sums are R101's and R103's of the codes and scales of the entry and the planes, where both are as long as the format asks (past
their end the codes are free values, log 5), in every margin block that the command leaves unflagged (R105), and of the accumulator as
R220 has later commands read it: register space under the writes of earlier commands (`seen`, log 16). -/
def Sys2Proof.Claims.CommandStarts : Prop :=
  ∀ (s : State) (t : Nat) (c : TCmd) (rest : List TCmd),
    let x := s.tile t
    startable x c rest →
    (∀ base pitch e m n cs, c.op = .zero base pitch e m n cs →
      let occ := (n + 63) / 64 * m / 16
      let rows := (List.range (if cs then m + 1 else m)).map fun y => (base + y * pitch, List.replicate ((if cs then n + 1 else n) * e) (0#8))
      ∃ s' r, exec (.tdaCommandStart t) s = .next s' ∧ OnlyTile t s s'
        ∧ started x (s'.tile t) c rest r (x.cyc + occ) [.bytes .reg rows] ∧ r.retire = x.cyc + (8 + occ)
        ∧ (x.tda.seen = [] → x.tda.justAt ≠ x.cyc → rows ≠ [] →
            (s'.tile t).tda.seen = [(c.id, rows.map fun r => (r.1, r.2.map fun v => (v, 0xFF#8)))]))
    ∧ (∀ lands push occ, c.op = .race lands push occ →
      (push = [] ∨ push.length + (x.tda.runs.map fun r => r.push.length).sum + x.sync.fqa.length ≤ 64) →
      ∃ s' r, exec (.tdaCommandStart t) s = .next s' ∧ OnlyTile t s s'
        ∧ started x (s'.tile t) c rest r (x.cyc + occ) lands ∧ r.retire = x.cyc + (24 + occ) ∧ r.push = push)
    ∧ (∀ slot n wide f e es, c.op = .ldb slot n wide f → soundArray s t → (∀ r ∈ x.tda.runs, TOp.isLdb r.cmd.op = false) →
      x.tda.ofb = e :: es → e.whole ≤ x.cyc →
      ∃ s' r, exec (.tdaCommandStart t) s = .next s' ∧ OnlyTile t s s'
        ∧ started x (s'.tile t) c rest r x.tda.occEnd [] ∧ r.latched = 1 ∧ r.lastLatch = x.cyc ∧ r.retire = x.cyc + 8
        ∧ (s'.tile t).tda.slots = x.tda.slots.set none slot (some ⟨⟨f, wide⟩, e.bytes⟩) ∧ (s'.tile t).tda.ofb = es)
    ∧ (∀ wide base pitch m n f cs e es, c.op = .mac wide base pitch m n f cs → soundArray s t →
      (∀ r ∈ x.tda.runs, TOp.isLdb r.cmd.op = false) → x.tda.ofa = e :: es → e.whole ≤ x.cyc →
      let occ := passes f * passGap f * ((n + 63) / 64)
      let z := if wide then 8 else 4
      let rows := if cs then m + 1 else m
      let cols := if cs then n + 1 else n
      let plane (k : Nat) : List Byte := ((x.tda.slots.get none k).map (·.bytes)).getD []
      let need (k : Nat) : Nat := k * rowBytes f + if wide then 0 else k * blockTerms f
      ∃ s' r out, exec (.tdaCommandStart t) s = .next s'
        ∧ started x (s'.tile t) c rest r (x.cyc + occ) [.bytes .reg out] ∧ r.retire = x.cyc + (24 + occ)
        ∧ (s'.tile t).tda.ofa = es ∧ (s'.tile t).tda.slots = x.tda.slots
        ∧ (∀ u, u ≠ t → s'.tile u = s.tile u) ∧ s'.mem = s.mem
        ∧ out.map (fun w => (w.1, w.2.length)) = (List.range rows).map (fun y => (base + y * pitch, cols * z))
        ∧ (need m ≤ e.bytes.length → (∀ k, 64 * k < n → need 64 ≤ (plane k).length) →
          ∃ fl : Nat → Nat → VFlags,
            (∀ y x', y < rows → x' < cols →
              (∀ v w, (v = y ∨ m ≤ y ∧ v < m) → (w = x' ∨ n ≤ x' ∧ w < n) → r.marg.getLsbD (16 * (v / 16) + w / 64) = false) →
              Product wide f m n e.bytes plane y x' (Mem.num (Tile.arrayReg x) (base + y * pitch + x' * z) z)
                (ofLe (((out.getD y (0, [])).2.drop (x' * z)).take z), fl y x'))
            ∧ (r.ovf = true ↔ ∃ y x', y < rows ∧ x' < cols ∧ (fl y x').getLsbD 1 = true)
            ∧ (r.clmp = true ↔ (f = .s4 ∨ f = .s6 ∨ f = .s8) ∧
                let low := 2 ^ (match f with | .s4 => 3 | .s6 => 5 | _ => 7)
                ∃ i, i < 32 * blockTerms f ∧ ((∃ y, y < m ∧ entryCode f m e.bytes y i = low)
                  ∨ ∃ x', x' < n ∧ entryCode f 64 (plane (x' / 64)) (x' % 64) i = low))))

/-- What a retiring command leaves (R46, R50, R228, R234): its flags and margins, MFIRST when MMAP was zero, its pushes, its signal. -/
def Sys2Proof.Claims.retired (x y : Tile) (r : TRun) : Prop :=
  let v := x.sync.sem.get 0#16 r.cmd.sem.ssem.toNat
  y.tda.ovf = (x.tda.ovf || r.ovf) ∧ y.tda.clmp = (x.tda.clmp || r.clmp) ∧ y.tda.mmap = x.tda.mmap ||| r.marg
  ∧ y.tda.mfirst = (if x.tda.mmap = 0 ∧ r.marg ≠ 0 then BitVec.ofNat 15 r.cmd.head else x.tda.mfirst)
  ∧ y.sync.fqa = x.sync.fqa ++ r.push.map (fun v => ⟨v, x.cyc + 1, false⟩)
  ∧ (r.cmd.sem.se = false → y.sync.sem = x.sync.sem)
  ∧ (r.cmd.sem.se = true → v ≠ 65535 → y.sync.sem = x.sync.sem.set 0 r.cmd.sem.ssem.toNat (v + 1))
  ∧ (r.cmd.sem.se = true → v = 65535 → y.sync.semSat = x.sync.semSat.set false r.cmd.sem.ssem.toNat true)
  ∧ y.ctl = x.ctl ∧ y.store = x.store ∧ y.pend = x.pend

/-- What keeps the head of the queue from starting, and how commands latch and retire (R72, R219, R226, R228): a TLDB takes another
plane at least 8 cycles after the last; a command that is over retires (log 15). -/
def Sys2Proof.Claims.CommandEnds : Prop :=
  ∀ (s : State) (t : Nat),
    let x := s.tile t
    (x.tda.queue = [] → exec (.tdaCommandStart t) s = .next s)
    ∧ (∀ c rest, x.tda.queue = c :: rest → (x.cyc ≤ c.pushed ∨ x.cyc ≤ x.tda.lastStart ∨ x.cyc < x.tda.occEnd ∨ ¬waitMet x c.sem) →
        exec (.tdaCommandStart t) s = .next s)
    ∧ (∀ r qs qs' e rest slot n wide f, soundArray s t → x.tda.runs = qs ++ r :: qs' →
        (∀ q ∈ qs ++ qs', TOp.isLdb q.cmd.op = false ∧ q.cmd.id ≠ r.cmd.id) → r.cmd.op = .ldb slot n wide f → r.latched < n →
        r.lastLatch + 8 ≤ x.cyc → x.tda.ofb = e :: rest → e.whole ≤ x.cyc →
        exec (.tldbPlaneLatch t) s = .next (s.setTile t { x with tda := { x.tda with
          slots := x.tda.slots.set none (slot + r.latched) (some ⟨⟨f, wide⟩, e.bytes⟩), ofb := rest
          runs := qs ++ { r with latched := r.latched + 1, lastLatch := x.cyc, retire := x.cyc + 8 } :: qs' } }))
    ∧ ((∀ r ∈ x.tda.runs, ∀ slot n wide f, r.cmd.op = .ldb slot n wide f →
          n ≤ r.latched ∨ x.cyc < r.lastLatch + 8 ∨ headWhole x.tda.ofb x.cyc = false) → exec (.tldbPlaneLatch t) s = .next s)
    ∧ (∀ r qs qs', x.tda.runs = qs ++ r :: qs' → x.tda.direct = none → r.retire ≤ x.cyc →
        (∀ slot n wide f, r.cmd.op = .ldb slot n wide f → n ≤ r.latched) →
        (∀ q ∈ qs ++ qs', x.cyc < q.retire ∧ q.cmd.id ≠ r.cmd.id) →
        ∃ s', exec (.tdaCommandRetire t) s = .next s' ∧ (s'.tile t).tda.runs = qs ++ qs' ∧ retired x (s'.tile t) r
          ∧ (∀ u, u ≠ t → s'.tile u = s.tile u) ∧ s'.mem = s.mem)
    ∧ (x.tda.direct = none → (∀ r ∈ x.tda.runs, x.cyc < r.retire) → exec (.tdaCommandRetire t) s = .next s)

/-- How the direct words complete (R222, R229, R236, R237, R360, R361): TFLAG, TCAL with the trims of its row, TMARG with the row of the
press, each with its signal; the counts and codes of the reference edges are the part's, free values of the model (log 5). -/
def Sys2Proof.Claims.DirectEnds : Prop :=
  ∀ (s : State) (t : Nat) (d : TDirect),
    let x := s.tile t
    let done (r : State) : State :=
      let r := r.modTile t fun y => { y with tda := { y.tda with direct := none } }
      if d.sem.se then r.signalSem t d.sem.ssem.toNat else r
    (∀ r ∈ x.tda.runs, x.cyc < r.retire) → x.tda.direct = some d →
    (x.cyc < d.until_ → exec (.tdaCommandRetire t) s = .next s)
    ∧ (d.until_ ≤ x.cyc →
      (d.work = .flag → exec (.tdaCommandRetire t) s = .next (done s))
      ∧ (∀ row : BitVec 6, d.work = .cal row → ∃ r : State, exec (.tdaCommandRetire t) s = .next (done r)
          ∧ OnlyTile t s r ∧ (r.tile t).press = { x.press with lastCal := some row }
          ∧ (∀ i, i / 256 ≠ row.toNat → r.trim t i = s.trim t i)
          ∧ ∀ j, j < 256 →
              let old := s.trim t (256 * row.toNat + j)
              let v : Int := ((old.toNat % 2 ^ 14 : Nat) : Int)
                - (32 * (((Config.referenceCount s.free j).toNat : Int) - 480) + (Config.guardCode s.free j).toInt)
              (r.trim t (256 * row.toNat + j)).toNat = (max 0 (min v 16383)).toNat + if v < 0 ∨ 16383 < v then 2 ^ 15 else 0)
      ∧ (∀ row out, d.work = .marg row out →
          let rows := x.press.rows ||| BitVec.ofNat 64 (2 ^ BitVec.toNat row)
          let press : Press := if x.press.lastCal ≠ some row then x.press
            else if rows = BitVec.allOnes 64 then { x.press with rows := 0, last := s.time, due := false }
            else { x.press with rows := rows }
          exec (.tdaCommandRetire t) s = .next (done (s.setTile t { x with
            tda := { x.tda with calr := x.tda.calr || out }, press := press }))))

/-- A command of the array starts, latches and retires, and a direct word completes (R217-R220, R222, R224-R229, R234, R236, R237). -/
def Obligations.ArrayEvents : Prop :=
  Sys2Proof.Claims.CommandStarts ∧ Sys2Proof.Claims.CommandEnds ∧ Sys2Proof.Claims.DirectEnds

/-- What TMACX adds (R103): the exact sum of the products joins the accumulator modulo 2^48 as a signed number, and overflow
is flagged exactly when the sum leaves the range. -/
def Sys2Proof.Claims.WideAccumulation : Prop :=
  ∀ (acc : Int) (ds : List Int), -(2 ^ 47) ≤ acc → acc < 2 ^ 47 →
    let r := tmacX48 acc ds.sum
    r.1 < 2 ^ 47 ∧ -(2 ^ 47) ≤ r.1 ∧ (r.1 - (acc + ds.sum)) % 2 ^ 48 = 0
    ∧ (r.2 = true ↔ acc + ds.sum < -(2 ^ 47) ∨ 2 ^ 47 ≤ acc + ds.sum) ∧ (r.2 = false → r.1 = acc + ds.sum)

/-- TMAC's sum (R101): a NaN scale or accumulator gives the canonical NaN, an infinite accumulator stays, and terms that
are all zero leave a zero accumulator's code as it is, -0 included. -/
def Sys2Proof.Claims.TmacSpecialCases : Prop :=
  ∀ (acc : Nat) (terms : List Dy) (nan : Bool), acc < 2 ^ 32 →
    (acc % 2 ^ 31 > 0x7F800000 → tmacF32 acc terms nan = (0x7FC00000, 0))
    ∧ (nan = true → tmacF32 acc terms nan = (0x7FC00000, 0))
    ∧ (acc % 2 ^ 31 = 0x7F800000 → nan = false → tmacF32 acc terms nan = (acc, 0))
    ∧ (acc % 2 ^ 31 = 0 → nan = false → (∀ x ∈ terms, x.v = 0) → tmacF32 acc terms nan = (acc, 0))

/-- TMAC's sum in general (R101, R102): of any accumulator and any terms, each a multiple of a power of two. -/
def Sys2Proof.Claims.TmacSum : Prop :=
  ∀ (acc : Nat) (terms : List Dy) (nan : Bool), acc < 2 ^ 32 →
    AddsTerms acc (nan = true) (terms.map fun d => (d.v : ℝ) * 2 ^ d.e) (tmacF32 acc terms nan)

/-- What a product adds to the accumulator (R99-R104). -/
def Obligations.ArrayProducts : Prop :=
  Sys2Proof.Claims.WideAccumulation ∧ Sys2Proof.Claims.TmacSpecialCases ∧ Sys2Proof.Claims.TmacSum

/-! ### The exchange port (R30, R31, R124, R252-R258, R265-R269) -/

/-- The handle names the record's generation (R258). -/
abbrev Sys2Proof.Claims.liveHandle (r : List Byte) (hg : BitVec 16) : Prop := hg ≠ 0 ∧ Record.gen r = hg.toNat

/-- No link holds the reads of these record slots, or of the region-table words of these ranges, by tile t of partition p (R368). -/
abbrev Sys2Proof.Claims.RecordsFree (s : State) (t p : Nat) (slots : List Nat) : Prop :=
  ∀ k ∈ slots, s.addrHeld (Config.dieSite (t / 64)) (s.recordAt p k) = false
abbrev Sys2Proof.Claims.RegionsFree (s : State) (t p : Nat) (rs : List (Nat × Nat)) : Prop :=
  ∀ g ∈ granulesOf rs, ∀ a ∈ s.regionWords p (0x200000 * g), s.addrHeld (Config.dieSite (t / 64)) a = false

/-- The state in which a word waits for another party and holds its tile (R72). -/
abbrev Sys2Proof.Claims.heldTile (s : State) (t : Nat) : State :=
  (s.unguard t).modTile t fun y => { y with stop := { y.stop with held := .party } }

/-- XCNT, XARM and XARRIVE (R31, R253, R267, R269): the staged counter, the seal, the arrival; a wrong count is a `schedule fault`, a
source outside the partition an illegal instruction. -/
def Sys2Proof.Claims.PortWords : Prop :=
  ∀ (h : Ring) (cnt : BitVec 4) (self : Bool) (src : BitVec 9) (bytes : BitVec 21) (n : BitVec 12) (s : State) (t p : Nat),
    (s.tile t).seat.part = some p →
    let x := s.tile t
    let q := s.part p
    let trap (c : BitVec 8) (a : DWord) : State := s.trapWord t .xp c a
    (Ready s t .xp h .cx →
      ((self = true ∨ src.toNat < q.tiles) → exec (.xcnt h cnt self src bytes) s = .next ((s.setTile t { x with xp := { x.xp with
          staged := x.xp.staged.put cnt.toNat ⟨true, self, if self then x.seat.lt else src.toNat, bytes.toNat⟩ } }).issued t .xp h 2 Eff.nil))
      ∧ (self = false → q.tiles ≤ src.toNat → exec (.xcnt h cnt self src bytes) s = .next (trap 0x01 (s.word.setWidth 64)))
      ∧ exec (.xarrive h) s = .next ((s.setTile t { x with pxp := { x.pxp with arrived := true } }).issued t .xp h 1 Eff.nil))
    ∧ (Ready s t .xp h .c →
      (x.xp.count = n.toNat → exec (.xarm h n) s = .next ((s.setTile t { x with xp := { x.xp with sealed := true } }).issued t .xp h 1 Eff.nil))
      ∧ (x.xp.count ≠ n.toNat → exec (.xarm h n) s = .next (trap 0x0F 0)))

/-- XRGEN and XRDEF (R257, R258), their records read without an error of HBM and held by no link: the next generation, the new record; a
dead handle is a `stale handle`, a new record out of its limits an `illegal shape`, a record of another writer an `ownership
violation`. Of XRDEF's faults the handles' come first, the template's before the other's, then the content's, then the writer's (R298;
log 20). -/
def Sys2Proof.Claims.RecordWords : Prop :=
  ∀ (h : Ring) (ths thg nhs nhg : BitVec 16) (ofs : Bool) (s : State) (t p : Nat), (s.tile t).seat.part = some p → Ready s t .xp h .cx →
    let x := s.tile t
    let q := s.part p
    let rec_ (k : BitVec 16) : List Byte := s.record p k.toNat x.seat.lt
    let trap (c : BitVec 8) (a : DWord) : State := s.trapWord t .xp c a
    let name (a b : BitVec 16) : DWord := BitVec.ofNat 64 (b.toNat * 65536 + a.toNat)
    s.hbm = [] →
    (RecordsFree s t p [ths.toNat] →
      (liveHandle (rec_ ths) thg → Record.writer (rec_ ths) = x.seat.lt → exec (.xrgen h ths thg) s = .next ((s.setRecord p ths.toNat
          (recPut (rec_ ths) 0x2E 2 (Record.gen (rec_ ths) % 65535 + 1))).issued t .xp h 2 Eff.nil))
      ∧ (¬liveHandle (rec_ ths) thg → exec (.xrgen h ths thg) s = .next (trap 0x0C (name ths thg)))
      ∧ (liveHandle (rec_ ths) thg → Record.writer (rec_ ths) ≠ x.seat.lt →
          exec (.xrgen h ths thg) s = .next (trap 0x0D (name ths thg))))
    ∧ (RecordsFree s t p [ths.toNat, nhs.toNat] →
      (¬liveHandle (rec_ ths) thg → exec (.xrdef h ths thg nhs nhg ofs) s = .next (trap 0x0C (name ths thg)))
      ∧ (liveHandle (rec_ ths) thg → ¬liveHandle (rec_ nhs) nhg →
          exec (.xrdef h ths thg nhs nhg ofs) s = .next (trap 0x0C (name nhs nhg)))
      ∧ (let kept := recPut (rec_ ths) 0x2C 4 (recNum (rec_ nhs) 0x2C 4)
         let o : Int := (x.pxp.fs.headD 0).toInt
         let sa : Int := (Record.sdesc (rec_ ths)).addr + (if ofs then o * recInt (rec_ ths) 0x18 else 0)
         let da : Int := (Record.ddesc (rec_ ths)).addr + (if ofs then o * recInt (rec_ ths) 0x1C else 0)
         let put (v : Nat) (a : Int) : Nat := v / 2 ^ 52 * 2 ^ 52 + a.toNat
         let new := recPut (recPut kept 0 8 (put (recNum kept 0 8) sa)) 8 8 (put (recNum kept 8 8) da)
         let fits : Prop := 0 ≤ sa ∧ sa < 2 ^ 52 ∧ 0 ≤ da ∧ da < 2 ^ 52 ∧ Record.valid new q.tiles = true
         liveHandle (rec_ ths) thg → liveHandle (rec_ nhs) nhg →
         (fits → Record.writer (rec_ nhs) = x.seat.lt →
            exec (.xrdef h ths thg nhs nhg ofs) s = .next ((s.setRecord p nhs.toNat new).issued t .xp h 3 Eff.nil))
         ∧ (fits → Record.writer (rec_ nhs) ≠ x.seat.lt →
            exec (.xrdef h ths thg nhs nhg ofs) s = .next (trap 0x0D (name nhs nhg)))
         ∧ (¬fits → exec (.xrdef h ths thg nhs nhg ofs) s = .next (trap 0x07 0))))

/-- Words whose records cannot be read: while a link holds a read the tile is held (R368, log 30); a record that ECC cannot correct traps
with its physical address (R375, log 20). -/
def Sys2Proof.Claims.RecordsUnread : Prop :=
  ∀ (h : Ring) (i : Instr) (ths thg nhs nhg : BitVec 16) (ofs : Bool) (c : CopyF) (g : FlagF) (slots : List Nat) (s : State) (t p : Nat),
    (s.tile t).seat.part = some p → Ready s t .xp h .cx →
    (i, slots) ∈ [(Instr.xrgen h ths thg, [ths.toNat]), (.xrdef h ths thg nhs nhg ofs, [ths.toNat, nhs.toNat]), (.xcopy h c, [c.hs.toNat]),
      (.xgath h c, [c.hs.toNat]), (.xscat h c, [c.hs.toNat]), (.xflag h g, [g.hs.toNat])] →
    (¬RecordsFree s t p slots → exec i s = .next (heldTile s t))
    ∧ (RecordsFree s t p slots → ∀ k m, slots.head? = some k → (m, true) ∈ s.hbm →
        s.recordAt p k ≤ 32 * m → 32 * m < s.recordAt p k + 256 →
        ∃ m', (m', true) ∈ s.hbm ∧ s.recordAt p k ≤ 32 * m' ∧ 32 * m' < s.recordAt p k + 256
          ∧ exec i s = .next (s.trapWord t .xp 0x12 (BitVec.ofNat 64 (32 * m'))))

/-- The words of the exchange port but for the copies, and words whose records cannot be read (R31, R253, R257, R258, R267, R269, R298,
R368, R375). -/
def Obligations.ExchangeWords : Prop := Sys2Proof.Claims.PortWords ∧ Sys2Proof.Claims.RecordWords ∧ Sys2Proof.Claims.RecordsUnread

/-- A copy is on its way: everything its word has checked stands, and it joins the machine's copies, armed in a compute phase
and buffered in an exchange phase, due at its TIME from the origin of its exchange phase, under the PASID of its partition's context
(R30, R38, R313). -/
def Sys2Proof.Claims.placed (s r : State) (t p : Nat) (h : Ring) (c : Copy) : Prop :=
  let x := s.tile t
  let q := s.part p
  ∃ r' : State, r = r'.issued t .xp h 3 Eff.nil
    ∧ r'.copies = s.copies ++ [c]
    ∧ c.tile = t ∧ c.lt = x.seat.lt ∧ c.part = p ∧ c.head = x.pxp.pc ∧ c.pasid = (s.ctx q.ctx.toNat).pasid
    ∧ (x.seat.phase % 2 = 0 → c.st = .armed ∧ c.phase = x.seat.phase + 1)
    ∧ (x.seat.phase % 2 = 1 → c.st = .buffered ∧ c.phase = x.seat.phase)
    ∧ c.due = (if q.phase = x.seat.phase then q.origin else q.next.getD q.origin) + c.time
    ∧ (r'.tile t).xp.count = x.xp.count + 1 ∧ (r'.tile t).store = x.store ∧ (r'.tile t).ctl = x.ctl
    ∧ (∀ u, u ≠ t → r'.tile u = s.tile u)

/-- The copy engine takes the word (R265): the phase is not sealed in a compute phase, and fewer than four of the tile's
commands are armed or buffered in that engine. -/
def Sys2Proof.Claims.engineTakes (s : State) (t eng : Nat) : Prop :=
  ((s.tile t).seat.phase % 2 = 0 → (s.tile t).xp.sealed = false)
  ∧ (s.copies.filter fun c => c.tile == t && c.eng == eng && (c.st == .armed || c.st == .buffered)).length < 4

/-- The record, footprint and ranges of an XCOPY, XGATH or XSCAT stand (R116, R124, R252-R258, R324): a live handle of a valid record, read without an error of HBM and held by no link, sides inside local and virtual space, the tile's own scratchpad where
it reads one, its own granules. -/
def Sys2Proof.Claims.copyChecked (s : State) (t p : Nat) (c : CopyF) (k : CopyKind) (f : Sides) : Prop :=
  let x := s.tile t
  let q := s.part p
  let r := s.record p c.hs.toNat x.seat.lt
  s.hbm = [] ∧ RecordsFree s t p [c.hs.toNat] ∧ RegionsFree s t p (virtualRuns (f.rd ++ f.wr))
  ∧ liveHandle r c.hg ∧ Record.valid r q.tiles = true ∧ (k = .copy ∨ Record.mode r = 0)
  ∧ footprint ⟨x.seat.lt, if c.ofs then (x.pxp.fs.headD 0).toInt else 0, t, q⟩ k r = .ok f
  ∧ (∀ y ∈ f.rd, ∀ u, y.scr = some u → u = t) ∧ scratchOut (f.rd ++ f.wr) = none
  ∧ ownedBy s p x.seat.lt (virtualRuns (f.rd ++ f.wr)) = none ∧ virtualOut (f.rd ++ f.wr) = none

/-- The same of an XFLAG, whose flag lies at `a` on SC pages (R268). -/
def Sys2Proof.Claims.flagChecked (s : State) (t p : Nat) (g : FlagF) (side : Side) : Prop :=
  let x := s.tile t
  let r := s.record p g.hs.toNat x.seat.lt
  s.hbm = [] ∧ RecordsFree s t p [g.hs.toNat] ∧ RegionsFree s t p (virtualRuns [side])
  ∧ liveHandle r g.hg ∧ Record.valid r (s.part p).tiles = true ∧ 2 ≤ Record.esize r ∧ (Record.ddesc r).kind = 0
  ∧ side = ⟨none, [(((Record.ddesc r).addr : Int) + x.seat.lt * recInt r 0x14, 2 ^ Record.esize r)]⟩
  ∧ (∀ k ∈ granulesOf (virtualRuns [side]), ∃ e, s.region p (0x200000 * k) = some e ∧ e.sc = true) ∧ virtualOut [side] = none

/-- Every page is translated: no walk is held at a link (R368), none fails, and what the TLU has added the word has waited for
(R252). -/
def Sys2Proof.Claims.translated (s : State) (t p : Nat) (pages : List Page) : Prop :=
  s.walksHeld (t / 64) p pages = false ∧ ∃ s' xs, s.translateAll (t / 64) p pages pages = .ok (s', xs)
    ∧ (s'.nextId = s.nextId ∨ (s.tile t).stop.xlated = true)

/-- XCOPY, XGATH, XSCAT and XFLAG complete (R30, R38, R124, R252-R254, R265, R268): with a live handle, a valid record, a
footprint inside local space, virtual space and the tile's own granules (for XFLAG: on SC pages) and translations that have
completed, the copy is placed with the word's fields. -/
def Sys2Proof.Claims.CopyWordsRule : Prop :=
  ∀ (h : Ring) (c : CopyF) (g : FlagF) (s : State) (t p : Nat), Ready s t .xp h .cx → (s.tile t).seat.part = some p →
    let x := s.tile t
    (∀ i k f, (i, k) ∈ [(Instr.xcopy h c, CopyKind.copy), (.xgath h c, .gath), (.xscat h c, .scat)] →
      copyChecked s t p c k f → translated s t p (pagesOf (virtualRuns f.rd) (virtualRuns f.wr)) → engineTakes s t c.eng.toNat →
      ∃ r' cp, exec i s = .next r' ∧ placed s r' t p h cp ∧ cp.kind = k ∧ cp.eng = c.eng.toNat ∧ cp.ord = c.ord
        ∧ cp.sem = c.sem ∧ cp.off = (if c.ofs then (x.pxp.fs.headD 0).toInt else 0)
        ∧ cp.rcd = s.record p c.hs.toNat x.seat.lt ∧ cp.time = c.time.toNat)
    ∧ (∀ side, flagChecked s t p g side → translated s t p (pagesOf (virtualRuns [side]) (virtualRuns [side])) →
      engineTakes s t g.eng.toNat →
      ∃ r' cp, exec (.xflag h g) s = .next r' ∧ placed s r' t p h cp ∧ cp.kind = .flag g.fop ∧ cp.eng = g.eng.toNat
        ∧ cp.ord = g.ord ∧ cp.sem = g.sem ∧ cp.pay = x.pxp.fs.headD 0 ∧ cp.rcd = s.record p g.hs.toNat x.seat.lt
        ∧ cp.time = g.time.toNat)

/-- What keeps a copy word whose ranges stand from being placed (R252, R265, R318, R368): a walk held at a link holds the tile (log 30); a
page that fails traps, and the A and D bits that its walks have set stay set (log 22); in a compute phase the seal, or four commands armed in the engine, are a `schedule fault`; in an exchange
phase four commands hold the tile. -/
def Sys2Proof.Claims.notPlaced (i : Instr) (s : State) (t p eng : Nat) (pages : List Page) : Prop :=
  let x := s.tile t
  let held := heldTile s t
  let four : Prop := 4 ≤ (s.copies.filter fun c => c.tile == t && c.eng == eng && (c.st == .armed || c.st == .buffered)).length
  (s.walksHeld (t / 64) p pages = true → exec i s = .next held)
  ∧ (s.walksHeld (t / 64) p pages = false → ∀ s' cause a, s.translateAll (t / 64) p pages pages = .error (s', cause, a) →
      exec i s = .next (s'.trapWord t .xp cause (BitVec.ofNat 64 a)))
  ∧ (translated s t p pages → x.seat.phase % 2 = 0 → x.xp.sealed = true ∨ four → exec i s = .next (s.trapWord t .xp 0x0F 0))
  ∧ (translated s t p pages → x.seat.phase % 2 = 1 → four → exec i s = .next held)

/-- A translation fault at an address that virtual space does not have (R318): the trap of the word, its report with RSM 0. -/
def Sys2Proof.Claims.lostWord (s : State) (t : Nat) (a : DWord) : State :=
  (s.trapWord t .xp 0x0E a).modTile t fun x => { x with stop := { x.stop with
    report := x.stop.report.map fun r => { r with w0 := r.w0 &&& ~~~(2 ^ 20 : DWord) } } }

/-- Where XCOPY, XGATH and XSCAT stop (R111, R116, R124, R252-R258, R260, R298, R318, R375), the first of these that applies: a
record that ECC cannot correct, a dead handle, a record that is not valid or not of the word's mode, a tile outside the partition
or a source in another tile's scratchpad, a range outside local space, a granule that is not the tile's, an address outside virtual
space (with RSM 0: no mapping makes the word succeed), and what `notPlaced` says. A read that a link holds holds the tile (log 30). The
AUX of an ownership violation is log 20's. -/
def Sys2Proof.Claims.CopyWordStops : Prop :=
  ∀ (h : Ring) (c : CopyF) (s : State) (t p : Nat) (i : Instr) (k : CopyKind), Ready s t .xp h .cx → (s.tile t).seat.part = some p →
    (i, k) ∈ [(Instr.xcopy h c, CopyKind.copy), (.xgath h c, .gath), (.xscat h c, .scat)] →
    let x := s.tile t
    let q := s.part p
    let r := s.record p c.hs.toNat x.seat.lt
    let stop (cause : BitVec 8) (a : DWord) : Prop := exec i s = .next (s.trapWord t .xp cause a)
    let foot := footprint ⟨x.seat.lt, if c.ofs then (x.pxp.fs.headD 0).toInt else 0, t, q⟩ k r
    let read : Prop := s.hbm = [] ∧ RecordsFree s t p [c.hs.toNat]
    let good : Prop := read ∧ liveHandle r c.hg ∧ Record.valid r q.tiles = true ∧ (k = .copy ∨ Record.mode r = 0)
    (read → ¬liveHandle r c.hg → stop 0x0C (BitVec.ofNat 64 (c.hg.toNat * 65536 + c.hs.toNat)))
    ∧ (read → liveHandle r c.hg → (Record.valid r q.tiles = false ∨ k ≠ .copy ∧ Record.mode r ≠ 0) → stop 0x07 0)
    ∧ (good → ∀ a, foot = .error a → stop 0x0D (BitVec.ofNat 64 a))
    ∧ (good → ∀ f, foot = .ok f → (∃ y ∈ f.rd, ∃ u, y.scr = some u ∧ u ≠ t) → stop 0x0D (BitVec.ofNat 64 (Record.edesc r).addr))
    ∧ (good → ∀ f, foot = .ok f → (∀ y ∈ f.rd, ∀ u, y.scr = some u → u = t) →
        (∀ a, scratchOut (f.rd ++ f.wr) = some a → stop 0x0D (auxOf a))
        ∧ (scratchOut (f.rd ++ f.wr) = none →
          (¬RegionsFree s t p (virtualRuns (f.rd ++ f.wr)) → exec i s = .next (heldTile s t))
          ∧ (RegionsFree s t p (virtualRuns (f.rd ++ f.wr)) →
            (∀ m, ownedBy s p x.seat.lt (virtualRuns (f.rd ++ f.wr)) = some m → stop 0x0D (BitVec.ofNat 64 (0x200000 * m)))
            ∧ (ownedBy s p x.seat.lt (virtualRuns (f.rd ++ f.wr)) = none → ∀ a, virtualOut (f.rd ++ f.wr) = some a →
                exec i s = .next (lostWord s t (auxOf a))))))
    ∧ (∀ f, copyChecked s t p c k f → notPlaced i s t p c.eng.toNat (pagesOf (virtualRuns f.rd) (virtualRuns f.wr)))

/-- Where XFLAG stops (R252, R258, R268, R298, R318): a dead handle, a record that is not valid; an element size below 4 bytes an
`illegal shape`; a flag in a scratchpad, or on a page that is not SC, an `ownership violation` (log 20); an address outside virtual
space; and what `notPlaced` says. -/
def Sys2Proof.Claims.FlagStops : Prop :=
  ∀ (h : Ring) (g : FlagF) (s : State) (t p : Nat), Ready s t .xp h .cx → (s.tile t).seat.part = some p →
    let x := s.tile t
    let r := s.record p g.hs.toNat x.seat.lt
    let a : Int := ((Record.ddesc r).addr : Int) + x.seat.lt * recInt r 0x14
    let side : Side := ⟨none, [(a, 2 ^ Record.esize r)]⟩
    let stop (cause : BitVec 8) (a : DWord) : Prop := exec (.xflag h g) s = .next (s.trapWord t .xp cause a)
    let read : Prop := s.hbm = [] ∧ RecordsFree s t p [g.hs.toNat]
    let good : Prop := read ∧ liveHandle r g.hg ∧ Record.valid r (s.part p).tiles = true ∧ 2 ≤ Record.esize r
    let free := RegionsFree s t p (virtualRuns [side])
    let shared : Prop := ∀ k ∈ granulesOf (virtualRuns [side]), ∃ e, s.region p (0x200000 * k) = some e ∧ e.sc = true
    (read → ¬liveHandle r g.hg → stop 0x0C (BitVec.ofNat 64 (g.hg.toNat * 65536 + g.hs.toNat)))
    ∧ (read → liveHandle r g.hg → (Record.valid r (s.part p).tiles = false ∨ Record.esize r < 2) → stop 0x07 0)
    ∧ (good → (Record.ddesc r).kind ≠ 0 → stop 0x0D (BitVec.ofNat 64 (Record.ddesc r).addr))
    ∧ (good → (Record.ddesc r).kind = 0 → ¬free → exec (.xflag h g) s = .next (heldTile s t))
    ∧ (good → (Record.ddesc r).kind = 0 → free → ¬shared → stop 0x0D (auxOf a))
    ∧ (good → (Record.ddesc r).kind = 0 → free → shared → ∀ b, virtualOut [side] = some b →
        exec (.xflag h g) s = .next (lostWord s t (auxOf b)))
    ∧ (flagChecked s t p g side → notPlaced (.xflag h g) s t p g.eng.toNat (pagesOf (virtualRuns [side]) (virtualRuns [side])))

/-- The copy words: they complete, or stop (R30, R38, R111, R116, R124, R252-R268, R298, R318). -/
def Obligations.CopyWords : Prop :=
  Sys2Proof.Claims.CopyWordsRule ∧ Sys2Proof.Claims.CopyWordStops ∧ Sys2Proof.Claims.FlagStops

/-! ### The transform sequencer (R49, R127, R128, R239-R251) -/

/-- An address generator's address (R240). -/
def Sys2Proof.Claims.agAddr (q : Tsq) (k : BitVec 3) : Nat :=
  let a := q.rA k
  let i (l : BitVec 2) : Nat := (q.rN l).index.toNat
  (a.base.toNat + i 0 * a.step0.toNat + i 1 * a.step1.toNat + i 2 * a.step2.toNat + i 3 * a.step3.toNat) % 2 ^ 32

/-- The words that set a sequencer register: what the sequencer is after (R243). -/
def Sys2Proof.Claims.seqSets (q : Tsq) : Instr → Option Tsq
  | .sloop l n => some (q.wN l ⟨n, 0, BitVec.ofNat 12 (q.tpc + 1)⟩)
  | .sloopReg l ga => some (q.wN l ⟨BitVec.ofNat 16 (q.rG ga).toNat, 0, BitVec.ofNat 12 (q.tpc + 1)⟩)
  | .sagenBase k ga => some (q.wA k { q.rA k with base := q.rG ga })
  | .sagenStep k l ga => some (q.wA k (match l.toNat with
      | 0 => { q.rA k with step0 := q.rG ga }
      | 1 => { q.rA k with step1 := q.rG ga }
      | 2 => { q.rA k with step2 := q.rG ga }
      | _ => { q.rA k with step3 := q.rG ga }))
  | .smov gd imm => some (q.wG gd (imm.signExtend 32))
  | .smovHi gd imm => some (q.wG gd (BitVec.ofNat 32 (imm.toNat * 65536 + (q.rG gd).toNat % 65536)))
  | .smovReg gd gb => some (q.wG gd (q.rG gb))
  | .sadd gd ga imm => some (q.wG gd (q.rG ga + imm.signExtend 32))
  | .saddReg gd ga gb => some (q.wG gd (q.rG ga + q.rG gb))
  | .spermOff false => some { q with mapA := { q.mapA with en := false } }
  | .spermOff true => some { q with mapB := { q.mapB with en := false } }
  | .shalt => some { q with halted := true }
  | _ => none

/-- The sequencer words that set its registers, its nest levels and its maps (R240, R241, R243, R246): the new value stands
for the next word, and nothing else of the machine changes; in an exchange phase no word issues. -/
def Sys2Proof.Claims.SequencerRegisters : Prop :=
  ∀ (i : Instr) (q' : Tsq) (s : State) (t : Nat), s.cur = .eng t .tsq → seqSets (s.tile t).tsq i = some q' →
    let x := s.tile t
    (x.seat.phase % 2 = 0 → exec i s = .next (s.setTile t { x with
        tsq := { q' with tpc := x.tsq.tpc + 1, busy := x.cyc + 1, count := x.tsq.count + 1 } }))
    ∧ (x.seat.phase % 2 = 1 → exec i s = .next s)

/-- The state in which a sequencer word has issued from a changed tile. -/
def Sys2Proof.Claims.seqDone (s : State) (t : Nat) (y : Tile) (occ : Nat) (lands : List (Nat × Land)) : State :=
  let x := s.tile t
  s.setTile t { y with
    tsq := { y.tsq with tpc := x.tsq.tpc + 1, busy := x.cyc + occ, count := x.tsq.count + 1 }
    pend := y.pend ++ lands.map fun l => ⟨x.cyc + l.1, x.tsq.count, .tsq, 0, l.2⟩ }

/-- The tokens of SKSIG and SKWAIT in both forms (R243). -/
def Sys2Proof.Claims.seqToken (q : Tsq) : Instr → Option (BitVec 3 × Nat × Bool)
  | .sksig k n => some (k, n.toNat, true)
  | .sksigReg k ga => some (k, (q.rG ga).toNat % 65536, true)
  | .skwait k n => some (k, n.toNat, false)
  | .skwaitReg k ga => some (k, (q.rG ga).toNat % 65536, false)
  | _ => none

/-- A write of the sequencer to the scratchpad has still to land (R243). -/
def Sys2Proof.Claims.encodePending (x : Tile) : Prop := ∃ p ∈ x.pend, p.eng = .tsq ∧ ∃ rs, p.land = .bytes .scr rs

/-- SEND, SQPOP, SQPUSH, SKSIG and SKWAIT (R49, R127, R128, R243): a taken SEND goes on at START after 2 cycles; pops and
pushes of the FIFOs; tokens; and where each blocks, nothing changes. -/
def Sys2Proof.Claims.SequencerControl : Prop :=
  ∀ (l : BitVec 2) (g : BitVec 4) (k : BitVec 3) (s : State) (t : Nat), SeqReady s t →
    let x := s.tile t
    let n := x.tsq.rN l
    (n.index.toNat + 1 < n.count.toNat → exec (.send l) s = .next (s.setTile t { x with
        tsq := { x.tsq.wN l { n with index := n.index + 1 } with tpc := n.start.toNat, busy := x.cyc + 2, count := x.tsq.count + 1 } }))
    ∧ (n.count.toNat ≤ n.index.toNat + 1 → exec (.send l) s = .next (seqDone s t { x with tsq := x.tsq.wN l { n with index := 0 } } 1 []))
    ∧ (∀ e r, x.sync.fqs = e :: r → e.ready = true →
        exec (.sqpop g) s = .next (seqDone s t { x with sync := { x.sync with fqs := r }, tsq := x.tsq.wG g e.v } 1 [])
        ∧ exec (.sqpopAg k) s = .next (seqDone s t { x with sync := { x.sync with fqs := r }, tsq := x.tsq.wA k { x.tsq.rA k with base := e.v } } 1 []))
    ∧ ((x.sync.fqs = [] ∨ ∃ e r, x.sync.fqs = e :: r ∧ e.ready = false) → exec (.sqpop g) s = .next s ∧ exec (.sqpopAg k) s = .next s)
    ∧ (x.sync.fqr.length < 16 → ∃ due, x.cyc + 1 ≤ due
        ∧ exec (.sqpush g) s = .next (seqDone s t { x with sync := { x.sync with fqr := x.sync.fqr ++ [⟨x.tsq.rG g, due, false⟩] } } 1 []))
    ∧ (16 ≤ x.sync.fqr.length → exec (.sqpush g) s = .next s)
    ∧ (∀ i c m sig, seqToken x.tsq i = some (c, m, sig) →
        let v := (x.sync.k.get 0#16 c.toNat).toNat
        let put (u : Nat) : State := seqDone s t { x with sync := { x.sync with k := x.sync.k.set 0 c.toNat (BitVec.ofNat 16 u) } } 1 []
        (sig = true → m = 0 → exec i s = .next (seqDone s t x 1 []))
        ∧ (sig = true → m ≠ 0 → (∀ q ∈ x.pend, q.eng ≠ .tsq) → v + m ≤ 65535 → exec i s = .next (put (v + m)))
        ∧ (sig = true → m ≠ 0 → (encodePending x ∨ 65535 < v + m) → exec i s = .next s)
        ∧ (sig = false → m ≤ v → exec i s = .next (put (v - m))) ∧ (sig = false → v < m → exec i s = .next s))

/-- The sequencer's register and control words (R241-R243). -/
def Obligations.SequencerWords : Prop := Sys2Proof.Claims.SequencerRegisters ∧ Sys2Proof.Claims.SequencerControl

/-- The addresses of the sequencer's generators (R240). -/
def Sys2Proof.Claims.GeneratorAddress : Prop := ∀ (q : Tsq) (k : BitVec 3), q.addr k = agAddr q k

/-- SFEEDA, SFEEDB, SPERM, SDECODE and SENCODE (R216, R244-R251): what enters the operand FIFOs, the maps and the decoder
FIFO, what is stored, when the next word issues, where they wait and trap. SDECODE tests the ranges, then class and header, then
the ECC of what it reads (R298), on the header that the read samples (R310). That a row's address wraps at 2^32 and that an
ownership violation names its range's start are the model's choices (logs 64, 20). -/
def Sys2Proof.Claims.SequencerFeedsRule : Prop :=
  ∀ (m : MSize) (f : FeedF) (b : Bool) (ag agr agd age : BitVec 3) (tgt : SlotSize) (dmax : BitVec 3) (s : State) (t : Nat), SeqReady s t →
    let x := s.tile t
    let T := SlotSize.bytes tgt
    let beats (rows : Nat) : Nat :=
      (rows * (64 + (if f.fmt.isSix then 32 else 0) + (if f.sc then (if f.fmt = .s8 then 2 else 4) else 0)) + 63) / 64
    let ent (rows : Nat) (mp : FeedMap) (ps : List (List Byte)) : FifoEnt := ⟨feedBytes mp rows f ps, beats rows, x.cyc + beats rows⟩
    let ra := MSize.rows m
    let slot := agAddr x.tsq ag
    let s1 := s.fireRead (t / 64) (t % 64) .scr (slot / 4) ((slot + T - 1) / 4)
    let h := (s1.tile t).store.scr.num slot 2
    let cls := blockClass h T
    let block := (slot, T) :: (if h / 2 ^ 15 % 2 = 1 then [(agAddr x.tsq age, 256)] else [])
    (∀ r ps, (x.tda.ofa.map (·.beats)).sum + beats ra ≤ 256 → s.readRanges t .tsq (feedRanges x.tsq ra f) = .ok (r, ps) →
        exec (.sfeeda m f) s = .next (r.modTile t fun y => { y with
          tda := { y.tda with ofa := y.tda.ofa ++ [ent ra x.tsq.mapA ps] }
          tsq := { y.tsq with tpc := x.tsq.tpc + 1, busy := x.cyc + beats ra, count := x.tsq.count + 1 } }))
    ∧ (256 < (x.tda.ofa.map (·.beats)).sum + beats ra → exec (.sfeeda m f) s = .next s)
    ∧ (∀ r ps, (x.tda.ofb.map (·.beats)).sum + beats 64 ≤ 256 → s.readRanges t .tsq (feedRanges x.tsq 64 f) = .ok (r, ps) →
        exec (.sfeedb f) s = .next (r.modTile t fun y => { y with
          tda := { y.tda with ofb := y.tda.ofb ++ [ent 64 x.tsq.mapB ps] }
          tsq := { y.tsq with tpc := x.tsq.tpc + 1, busy := x.cyc + beats 64, count := x.tsq.count + 1 } }))
    ∧ (256 < (x.tda.ofb.map (·.beats)).sum + beats 64 → exec (.sfeedb f) s = .next s)
    ∧ (∀ r bs, s.readLocal t .tsq slot 64 = .ok (r, bs) → exec (.sperm b ag) s = .next (r.modTile t fun y => { y with
          tsq := { (if b then { y.tsq with mapB := ⟨true, bs⟩ } else { y.tsq with mapA := ⟨true, bs⟩ }) with
            tpc := x.tsq.tpc + 1, busy := x.cyc + 1, count := x.tsq.count + 1 } }))
    ∧ (0x100000 < slot + 64 → exec (.sperm b ag) s = .next (s.trapWord t .tsq 0x0D (BitVec.ofNat 64 slot)))
    ∧ (16 ≤ x.sync.dcf.length → exec (.sdecode tgt dmax ag age) s = .next s)
    ∧ (x.sync.dcf.length < 16 → 0x100000 < slot + T → exec (.sdecode tgt dmax ag age) s = .next (s.trapWord t .tsq 0x0D (BitVec.ofNat 64 slot)))
    ∧ (∀ c aux, x.sync.dcf.length < 16 → slot + T ≤ 0x100000 → s1.rangeChecks t block = .error (c, aux) →
        exec (.sdecode tgt dmax ag age) s = .next (s1.trapWord t .tsq c aux))
    ∧ (∀ s2, x.sync.dcf.length < 16 → slot + T ≤ 0x100000 → s1.rangeChecks t block = .ok s2 →
        (∀ r ps, headerBad h T = false → cls ≤ dmax.toNat → s2.takeRanges t .tsq block = .ok (r, ps) → ∃ r', exec (.sdecode tgt dmax ag age) s = .next r'
          ∧ (r'.tile t).sync.dcf = x.sync.dcf ++ [⟨decodeBlock (ps.headD []) (ps.getD 1 []), x.cyc + cls + 2⟩]
          ∧ (r'.tile t).tsq = { x.tsq with tpc := x.tsq.tpc + 1, busy := x.cyc + cls, count := x.tsq.count + 1 })
        ∧ ((headerBad h T = true ∨ dmax.toNat < cls) →
          exec (.sdecode tgt dmax ag age) s = .next (s1.trapWord t .tsq 0x10 (BitVec.ofNat 64 h))))
    ∧ (∀ r bs, agAddr x.tsq agd + T ≤ 0x100000 → agAddr x.tsq age + 256 ≤ 0x100000 → s.readLocal t .tsq (agAddr x.tsq agr) 256 = .ok (r, bs) →
        let e := encodeBlock bs T
        exec (.sencode tgt agr agd age) s = .next (r.modTile t fun y => { y with
          tsq := { y.tsq with tpc := x.tsq.tpc + 1, busy := x.cyc + 4, count := x.tsq.count + 1 }
          pend := y.pend ++ [⟨x.cyc + 8, x.tsq.count, .tsq, 0,
            .bytes .scr ((agAddr x.tsq agd, e.1) :: (if e.2 then [(agAddr x.tsq age, bs)] else []))⟩] }))

/-- Address generators and the words that use them (R241, R244-R250). -/
def Obligations.SequencerFeeds : Prop := Sys2Proof.Claims.GeneratorAddress ∧ Sys2Proof.Claims.SequencerFeedsRule

/-- The fixed-rate codec loses nothing (R247-R249): decoding what the encoder made of 256 bytes, with those bytes as the
escape entry, gives them back, at every target size; an escape is marked by bit 15 of the slot's header. -/
def Obligations.CodecLossless : Prop :=
  ∀ (e : List Byte) (tgt : SlotSize), e.length = 256 →
    let r := encodeBlock e (SlotSize.bytes tgt)
    r.1.length = SlotSize.bytes tgt ∧ decodeBlock r.1 e = e ∧ headerBad (slotHeader r.1) (SlotSize.bytes tgt) = false
    ∧ (r.2 = true ↔ 2 ^ 15 ≤ slotHeader r.1)

/-! ### Steps inside a tile (R46-R48, R57, R73, R92, R127, R128, R190, R231, R252) -/

/-- What lands, kind by kind (R53, R54, R70, R73, R91, R92, R166, R172, R190, R212): registers take their values, s0 and p0
none; a mask push, inversion or removal; flags accumulate; the seed registers. -/
def Sys2Proof.Claims.Landings : Prop :=
  ∀ (x : Tile) (r : SReg) (p : PReg) (k : TReg) (lv : BitVec 3) (v : Word) (d : DWord) (b : Bool) (a : BitVec 15) (full : Nat) (l : Level)
    (m : Nat) (ms : List Nat) (f : BitVec 6),
    (∀ q, (x.land (.sreg r v)).ctl.rS q = if q = r ∧ r ≠ 0 then v else x.ctl.rS q)
    ∧ (r.toNat % 2 = 0 → ∀ q, (x.land (.pair r d)).ctl.rS q =
        if r = 0 then x.ctl.rS q else if q = r then d.setWidth 32 else if q.toNat = r.toNat + 1 then (d >>> 32).setWidth 32 else x.ctl.rS q)
    ∧ (∀ q, (x.land (.pred p b)).ctl.rP q = if q = p ∧ p ≠ 0 then b else x.ctl.rP q)
    ∧ (∀ q, (x.land (.target k a full)).ctl.rT q = if q = k then ⟨a, true, .filling full⟩ else x.ctl.rT q)
    ∧ (∀ q, (x.land (.level lv l)).ctl.rL q = if q = lv then l else x.ctl.rL q)
    ∧ (x.land (.alu d)).ctl.alu = d
    ∧ (x.vu.masks = ms → (x.land (.mask (.push m))).vu.masks = m :: ms)
    ∧ (x.vu.masks = m :: ms → (x.land (.mask .pop)).vu.masks = ms
        ∧ (x.land (.mask .inv)).vu.masks = (ms.headD (2 ^ 8192 - 1) &&& (2 ^ 8192 - 1 - m)) :: ms)
    ∧ (x.land (.vstat f)).vu.vstat = x.vu.vstat ||| f ∧ (x.land (.seed d)).vu.srseed = d
    ∧ (x.land (.hnd v)).vu.srhnd = v ∧ (x.land (.idx v)).vu.sridx = v ∧ (x.land (.adv v)).vu.sridx = x.vu.sridx + v

/-- What a landing leaves alone (R73): bytes land in their runs and nowhere else, a register landing changes no memory and
no other unit, and no landing touches the array's command queue, the exchange port, tokens, frames, the seat. -/
def Sys2Proof.Claims.LandingFrame : Prop :=
  ∀ (x : Tile) (l : Land),
    SameUnits x (x.land l) ∧ (x.land l).sync = x.sync ∧ (x.land l).stop = x.stop ∧ (x.land l).pend = x.pend
    ∧ (∀ e, (x.land l).pos e = x.pos e) ∧ (x.land l).vw = x.vw
    ∧ (∀ a, (x.land l).store.textAt a = x.store.textAt a) ∧ (∀ a, (x.land l).store.seqAt a = x.store.seqAt a)
    ∧ (∀ sp runs, l = .bytes sp runs → (x.land l).ctl = x.ctl ∧ (x.land l).vu = x.vu
        ∧ ∀ sp' a, (sp' ≠ sp ∨ ∀ q ∈ runs, a < q.1 ∨ q.1 + q.2.length ≤ a) →
          Mem.get1 ((x.land l).store.get sp') a = Mem.get1 (x.store.get sp') a)
    ∧ (∀ sp runs, l = .part sp runs → (x.land l).ctl = x.ctl ∧ (x.land l).vu = x.vu
        ∧ ∀ sp' a, (sp' ≠ sp ∨ ∀ q ∈ runs, a < q.1 ∨ q.1 + q.2.length ≤ a) →
          Mem.get1 ((x.land l).store.get sp') a = Mem.get1 (x.store.get sp') a)
    ∧ ((∀ sp runs, l ≠ .bytes sp runs) → (∀ sp runs, l ≠ .part sp runs) → (∀ op w a rd b c, l ≠ .atomic op w a rd b c) →
        (x.land l).store = x.store)

/-- RESULT_LANDING (R73): exactly the records due land; the others wait; with none due nothing changes, and nothing outside
the tile and its die does. -/
def Sys2Proof.Claims.LandDueOnly : Prop :=
  ∀ (s : State) (t : Nat),
    let x := s.tile t
    ((∀ p ∈ x.pend, x.cyc < p.due) → exec (.resultLanding t) s = .next s)
    ∧ ((s.die (t / 64)).inj = [] → ∃ s', exec (.resultLanding t) s = .next s' ∧ OnlyTile t s s'
        ∧ (s'.tile t).pend = x.pend.filter (fun p => decide (x.cyc < p.due)) ∧ (s'.tile t).cyc = x.cyc
        ∧ (∀ r, (∀ p ∈ x.pend, p.due ≤ x.cyc → (∀ v, p.land ≠ .sreg r v) ∧ (∀ q v, p.land ≠ .pair q v)
              ∧ (∀ op w a rd b c, p.land ≠ .atomic op w a rd b c)) → (s'.tile t).ctl.rS r = x.ctl.rS r)
        ∧ (∀ p, x.pend.filter (fun p => decide (p.due ≤ x.cyc)) = [p] →
            (s'.tile t).ctl = (x.land p.land).ctl ∧ (s'.tile t).vu = (x.land p.land).vu
            ∧ ∃ w, (s'.tile t).store = { (x.land p.land).store with wiped := w, wipedAt := x.cyc }))

/-- Landings: what each writes, what it leaves alone, when it happens (R53, R54, R70, R73, R91, R92, R166, R172, R190, R212). -/
def Obligations.ResultsLand : Prop := Sys2Proof.Claims.Landings ∧ Sys2Proof.Claims.LandingFrame ∧ Sys2Proof.Claims.LandDueOnly

/-- PREFETCH_BUFFER_FILLED, FIFO_ELEMENT_POPPABLE, TILE_HALTED and TRANSLATION_COMPLETE (R48, R57, R128, R170, R231, R252): what each
does where its condition holds, and that nothing changes where it does not; TOKEN_DEADLOCK and one RING_TOKEN_SIGNAL. -/
def Sys2Proof.Claims.TileSteps : Prop :=
  ∀ (s : State) (t : Nat),
    let x := s.tile t
    (∃ s', exec (.prefetchBufferFilled t) s = .next s' ∧ OnlyTile t s s' ∧ ∀ k,
        ((s'.tile t).ctl.rT k).addr = (x.ctl.rT k).addr ∧ ((s'.tile t).ctl.rT k).prpd = (x.ctl.rT k).prpd
        ∧ ((s'.tile t).ctl.rT k).buf = match (x.ctl.rT k).buf with
          | .filling n => if n ≤ x.cyc then .filled else .filling n
          | b => b)
    ∧ (let up (e : Fel) : Fel := { e with ready := e.ready || decide (e.due ≤ x.cyc) }
       exec (.fifoElementPoppable t) s = .next (s.setTile t { x with sync := { x.sync with
          fqs := x.sync.fqs.map up, fqr := x.sync.fqr.map up, fqa := x.sync.fqa.map up } }))
    ∧ (∀ a, x.stop.haltAt = some a → x.stop.halted = false → x.stop.frozen = false → (∀ e, e ≠ .tsq → (x.pos e).stopped = true) →
        ArrayQuiet x → x.pend = [] →
        (x.tda.mmap = 0 → exec (.tileHalted t) s = .next (s.setTile t { x with stop := { x.stop with halted := true } }))
        ∧ (x.tda.mmap ≠ 0 → exec (.tileHalted t) s = .next (s.freeze t ⟨0x0B, x.tda.mmap, 0, a, x.tda.mfirst, 0, false⟩ 0)))
    ∧ ((x.stop.haltAt = none ∨ (∃ e, e ≠ .tsq ∧ (x.pos e).stopped = false) ∨ ¬ArrayQuiet x) → exec (.tileHalted t) s = .next s)
    ∧ (x.deadlocked = true → exec (.tokenDeadlock t) s = .next (s.trapWord t .ctl 0x09 0))
    ∧ (x.deadlocked = false → exec (.tokenDeadlock t) s = .next s)
    ∧ (∀ g, x.pctl.sigs = [g] → x.pvu.sigs = [] → x.ptda.sigs = [] → x.pxp.sigs = [] → g.due ≤ x.cyc → g.cmd = 0 → g.own ≤ x.cyc →
        g.ss = true → g.sp = false → g.pay = none → x.pvu.fp.length < 8 →
        exec (.ringTokenSignal t) s = .next (s.setTile t { x with
          pctl := { x.pctl with sigs := [] }, pvu := { x.pvu with fp := x.pvu.fp ++ [x.ctl.alu.setWidth 32] } }))
    ∧ (∀ n, x.stop.xlatDue = some n → n ≤ s.ticks → exec (.translationComplete t) s = .next (s.setTile t { x with
        stop := { x.stop with xlated := true, xlatDue := none } }))
    ∧ ((x.stop.xlatDue = none ∨ ∃ n, x.stop.xlatDue = some n ∧ s.ticks < n) → exec (.translationComplete t) s = .next s)

/-- The token FIFO from an engine to its predecessor, or with `succ` to its successor, round the ring CTL, VU, TDA, XP (R46). -/
def Sys2Proof.Claims.ringFifo (x : Tile) (e : Eng) (succ : Bool) : List Word :=
  match e, succ with
  | .ctl, true => x.pvu.fp
  | .vu, true => x.ptda.fp
  | .tda, true => x.pxp.fp
  | .xp, true => x.pctl.fp
  | .ctl, false => x.pxp.fs
  | .vu, false => x.pctl.fs
  | .tda, false => x.pvu.fs
  | .xp, false => x.ptda.fs
  | .tsq, _ => []

/-- A signal's word and every earlier one have completed, and the array has retired the commands pushed up to it (R46, R219). -/
abbrev Sys2Proof.Claims.SignalDue (x : Tile) (g : Sig) : Prop :=
  g.due ≤ x.cyc ∧ (g.cmd = 0 ∨ (∀ c ∈ x.tda.queue, g.cmd < c.id) ∧ ∀ r ∈ x.tda.runs, g.cmd < r.cmd.id)

/-- An engine stands at a word of its own (R42, R43, R47, R132, R135): it has neither arrived nor stopped, its last word's occupancy is
over, and the unit at its position, a GUARD with its word, is within the window. -/
def Sys2Proof.Claims.StandsAtWord (x : Tile) (e : Eng) : Prop :=
  let p := x.pos e
  let w := x.store.textAt p.pc
  p.arrived = false ∧ p.stopped = false ∧ p.busy ≤ x.cyc ∧ w ≠ 0xFFFFFFFF ∧ engOf w = e
  ∧ p.walk + x.unitLen e ≤ [x.pctl.walk, x.pvu.walk, x.ptda.walk, x.pxp.walk].foldl min x.pctl.walk
      + 8 * ((x.stop.wcfg.extractLsb' 0 5).toNat + 1)

/-- A text engine is blocked (R46, R47): it waits for a token, or a signal of it that is due has found a full FIFO; a TRAP or BRK that has
its tokens and whose guard is not false stalls on a full FIFO too (log 47). -/
def Sys2Proof.Claims.RingBlocked (x : Tile) (e : Eng) : Prop :=
  let w := x.unitHead .ctl
  let r := x.unitRing .ctl
  let g := x.store.textAt x.pctl.pc
  (∃ g rest, (x.pos e).sigs = g :: rest ∧ SignalDue x g)
  ∨ (StandsAtWord x e ∧ x.tokens e (x.unitRing e) = false)
  ∨ (e = .ctl ∧ StandsAtWord x e ∧ (x.pctl.took = true ∨ r.wp = false ∧ r.ws = false)
      ∧ w.toNat / 2 ^ 20 % 64 = 0x3B ∧ (w.toNat / 2 ^ 18 % 4 = 1 ∨ w.toNat / 2 ^ 18 % 4 = 2)
      ∧ (x.atGuard .ctl = true → x.pctl.took = true ∨ x.ctl.rP (g.extractLsb' 13 6) ≠ g.getLsbD 19)
      ∧ (r.ss = true ∧ 8 ≤ x.pvu.fp.length ∨ r.sp = true ∧ 8 ≤ x.pxp.fs.length))

/-- A sequencer is halted or blocked in SKWAIT (R32, R47). -/
def Sys2Proof.Claims.SequencerIdle (x : Tile) : Prop :=
  x.tsq.halted = true
    ∨ (∃ k n, decodeSeq (x.store.seqAt x.tsq.tpc) = .ok (.skwait k n) ∧ (x.sync.k.get 0 k.toNat).toNat < n.toNat)
    ∨ ∃ k a, decodeSeq (x.store.seqAt x.tsq.tpc) = .ok (.skwaitReg k a) ∧ (x.sync.k.get 0 k.toNat).toNat < (x.tsq.rG a).toNat % 65536

/-- R47's token deadlock: all four text engines blocked; no pending write, a quiet array, no signal awaiting completion, a sequencer halted
or blocked in SKWAIT. -/
def Sys2Proof.Claims.TokenDeadlock (x : Tile) : Prop :=
  (∀ e, e ≠ .tsq → RingBlocked x e) ∧ x.pend = [] ∧ ArrayQuiet x ∧ (∀ e, e ≠ .tsq → ∀ g ∈ (x.pos e).sigs, SignalDue x g)
  ∧ SequencerIdle x

/-- TOKEN_DEADLOCK (R47): precise at the CTL's blocked word, exactly when the deadlock holds. -/
def Sys2Proof.Claims.DeadlockRaised : Prop :=
  ∀ (s : State) (t : Nat),
    (TokenDeadlock (s.tile t) → exec (.tokenDeadlock t) s = .next (s.trapWord t .ctl 0x09 0))
    ∧ (¬TokenDeadlock (s.tile t) → exec (.tokenDeadlock t) s = .next s)

/-- RING_TOKEN_SIGNAL (R46, R68): engine by engine, each signal in order: what is due is placed where there is room, a signal that finds a
FIFO full keeps the token that found no room and holds those after it; a CTL signal carries what the CTL latch held when its word had
completed. -/
def Sys2Proof.Claims.RingSignals : Prop :=
  ∀ (s : State) (t : Nat), let x := s.tile t
    ∃ y, exec (.ringTokenSignal t) s = .next (s.setTile t y)
      ∧ y = { x with pctl := y.pctl, pvu := y.pvu, ptda := y.ptda, pxp := y.pxp }
      ∧ (∀ e, e ≠ .tsq → y.pos e = { x.pos e with sigs := (y.pos e).sigs, fp := (y.pos e).fp, fs := (y.pos e).fs })
      ∧ ∀ e, e ≠ .tsq →
        let loaded (g : Sig) : Sig :=
          if e = .ctl ∧ g.own ≤ x.cyc ∧ g.pay = none then { g with pay := some (x.ctl.alu.setWidth 32) } else g
        let gs := (x.pos e).sigs.map loaded
        let fifo (succ : Bool) := ringFifo x e succ
        ∀ d r, gs = d ++ r → (∀ g ∈ d, SignalDue x g) →
          let pays (p : Sig → Bool) : List Word := (d.filter p).map fun g => g.pay.getD 0
          let ps := fifo false ++ pays (·.sp)
          let ss := fifo true ++ pays (·.ss)
          ps.length ≤ max 8 (fifo false).length → ss.length ≤ max 8 (fifo true).length →
            (r = [] → (y.pos e).sigs = [] ∧ ringFifo y e false = ps ∧ ringFifo y e true = ss)
            ∧ (∀ g r', r = g :: r' → ¬SignalDue x g → (y.pos e).sigs = r ∧ ringFifo y e false = ps ∧ ringFifo y e true = ss)
            ∧ (∀ g r', r = g :: r' → SignalDue x g →
                let noP := decide (8 ≤ ps.length)
                let noS := decide (8 ≤ ss.length)
                (g.sp && noP || g.ss && noS) = true →
                  (y.pos e).sigs = { g with sp := g.sp && noP, ss := g.ss && noS } :: r'
                  ∧ ringFifo y e false = ps ++ (if g.sp && !noP then [g.pay.getD 0] else [])
                  ∧ ringFifo y e true = ss ++ (if g.ss && !noS then [g.pay.getD 0] else []))

/-- The steps inside a tile that no word names (R46-R48, R57, R68, R128, R170, R231, R252). -/
def Obligations.TileEvents : Prop :=
  Sys2Proof.Claims.TileSteps ∧ Sys2Proof.Claims.DeadlockRaised ∧ Sys2Proof.Claims.RingSignals

/-! ### The life of a copy, releases, granules (R38, R50, R117-R123, R131, R264, R374) -/

/-- A copy moves its bytes (R131, R266, R368, R371, R374): `t` is what follows, from the state in which it has started or in which its
flits are no longer held. An unavailable target ends it; a link that holds its flits holds it; a target whose owner turns it away ends
it; and a fault met during the move ends it, with every read, write and count made before the fault standing. -/
def Sys2Proof.Claims.Sent (s : State) (c : Copy) (t : State) : Prop :=
  ∃ n, s.ticks ≤ n ∧
    let c' := { c with st := .started, landAt := n }
    let r := { s with free := s.free + 1 }.setCopy c'
    let gone (pa : Nat) : State := r.failCopy c' ⟨c.tile, 0x11, BitVec.ofNat 64 pa, BitVec.ofNat 64 pa⟩
    (∀ pa, r.unavailable c' = some pa → t = gone pa)
    ∧ (r.unavailable c' = none → r.copyHeld c' = true → t = r.setCopy { c' with st := .held })
    ∧ (∀ pa, r.unavailable c' = none → r.copyHeld c' = false → r.refusedAt c' = some pa → t = gone pa)
    ∧ (r.unavailable c' = none → r.copyHeld c' = false → r.refusedAt c' = none →
        (∀ m, r.moveCopy c' = .ok (m, none) → t = m)
        ∧ ∀ m f, r.moveCopy c' = .ok (m, some f) ∨ r.moveCopy c' = .error (m, f) → t = m.failCopy c' f)

/-- The life of a copy (R38, R50, R119, R264, R266, R268, R374): it leaves its buffer at its time, starts when order, semaphore and
translations allow, moves its bytes, lands, signals and retires; until then nothing changes. -/
def Sys2Proof.Claims.CopyLife : Prop :=
  ∀ (s : State) (id : Nat) (c : Copy), s.copy id = some c →
    let miss : Prop := c.atsOk = false ∧ s.atsMisses c ≠ []
    let ready : Prop := c.sem.we = true → (s.tile c.tile).sync.sem.get 0#16 c.sem.wsem.toNat ≠ 0
    let landed (r : State) (n : Nat) : State :=
      let r' := { r with free := r.free + 1 }.setCopy { c with st := .landed, retireAt := n }
      if c.sem.se then r'.signalSem c.tile c.sem.ssem.toNat else r'
    (c.st = .buffered → c.due ≤ s.time → let c' := { c with st := .left, leftAt := s.ticks }
      ((s.setCopy c').unavailable c' = none → exec (.copyLeave id) s = .next (s.setCopy c'))
      ∧ ∀ pa, (s.setCopy c').unavailable c' = some pa →
          exec (.copyLeave id) s = .next ((s.setCopy c').failCopy c' ⟨c.tile, 0x11, BitVec.ofNat 64 pa, BitVec.ofNat 64 pa⟩))
    ∧ ((c.st ≠ .buffered ∨ s.time < c.due) → exec (.copyLeave id) s = .next s)
    ∧ (c.st = .left → c.ats = false → s.mayStart c = true → ¬miss → ready →
        ∃ t, exec (.copyStart id) s = .next t ∧ Sent (taken s c.tile c.sem) c t)
    ∧ (c.st = .left → c.ats = false → s.mayStart c = true → miss → exec (.copyStart id) s = .next (s.setCopy { c with ats := true }))
    ∧ ((c.st ≠ .left ∨ c.ats = true ∨ s.mayStart c = false ∨ (¬miss ∧ ¬ready)) → exec (.copyStart id) s = .next s)
    ∧ (c.st = .started → c.landAt ≤ s.ticks → (∀ fop, c.kind ≠ .flag fop) →
        ∃ n, s.ticks ≤ n ∧ ((∀ l ∈ c.wr, l.1 ≠ 0) → n = s.ticks) ∧ exec (.copyLanded id) s = .next (landed s n))
    ∧ (∀ fop r, c.st = .started → c.landAt ≤ s.ticks → c.kind = .flag fop → s.writeFlag c fop = .ok r →
        ∃ n, r.ticks ≤ n ∧ exec (.copyLanded id) s = .next (landed r n))
    ∧ (∀ fop r f, c.st = .started → c.landAt ≤ s.ticks → c.kind = .flag fop → s.writeFlag c fop = .error (r, f) →
        exec (.copyLanded id) s = .next (r.failCopy c f))
    ∧ ((c.st ≠ .started ∨ s.ticks < c.landAt) → (c.st = .held → s.copyHeld c = true) → exec (.copyLanded id) s = .next s)
    ∧ (c.st = .held → s.copyHeld c = false → ∃ t, exec (.copyLanded id) s = .next t ∧ Sent s c t)
    ∧ (c.st = .landed → c.retireAt ≤ s.ticks → exec (.copyRetired id) s = .next { s with copies := s.copies.filter fun y => y.id != id })
    ∧ ((c.st ≠ .landed ∨ s.ticks < c.retireAt) → exec (.copyRetired id) s = .next s)
    ∧ (c.st = .left → c.ats = true → exec (.atsTranslationComplete id true) s = .next
        ({ s with pkg := { s.pkg with ats := (s.atsMisses c ++ s.pkg.ats).take 1024 } }.setCopy { c with ats := false, atsOk := true }))
    ∧ (∀ x, c.st = .left → c.ats = true → (s.targets c).find? (fun y => decide (0x80000000000 ≤ y.1)) = some x →
        exec (.atsTranslationComplete id false) s = .next (s.failCopy c ⟨c.tile, 0x11, BitVec.ofNat 64 x.1, BitVec.ofNat 64 x.1⟩))
    ∧ (∀ pasid page, let k : BitVec 20 × Nat := (pasid, BitVec.toNat page)
        let used : Prop := ∃ o ∈ s.copies, k ∈ s.atsPages o ∧ (o.st = .held ∨ o.st = .started ∨ o.st = .landed)
        (¬used → exec (.atsInvalidation pasid page) s = .next { s with
            pkg := { s.pkg with ats := s.pkg.ats.filter (· != k) }
            copies := s.copies.map fun o => if k ∈ s.atsPages o then { o with atsOk := false } else o })
        ∧ (used → exec (.atsInvalidation pasid page) s = .next { s with pkg := { s.pkg with invals := s.pkg.invals ++ [k] } }))

/-- The live counters of a tile that name a source. -/
def Sys2Proof.Claims.countersOf (x : Tile) (src : Nat) : List Nat :=
  (List.range 16).filter fun k => let c := x.xp.active.get ⟨false, false, 0, 0⟩ k; c.live && c.src == src

/-- What ends an arrival (R37, R116, R266, R267): a line that another source has written, or that its own tile has read and another
writes, with the line and both sources in LOC; a byte that finds no count, with the bytes before it written and counted, and the
number of the lowest counter that names the source, or 16, as AUX (log 20). -/
def Sys2Proof.Claims.ArrivalFaults : Prop :=
  ∀ (s : State) (d t src a : Nat) (bs : List Byte), (s.die (t / 64)).inj = [] → bs.length ≤ 64 - a % 64 → a + bs.length ≤ 0x100000 →
    let x := s.tile t
    let line := x.frames.lines.get .none (a / 64)
    let hits (e : Nat) : Prop := line = .into e ∨ line = .out ∧ e = x.seat.lt
    let held := ((countersOf x src).map fun k => (x.xp.active.get ⟨false, false, 0, 0⟩ k).count).sum
    let n := min bs.length held
    (∀ e, hits e → e ≠ src → s.arriveLine d t src a bs = (s, some ⟨t, 0x0F, BitVec.ofNat 64 (a / 64 * 64),
        BitVec.ofNat 64 (a / 64 * 64 + e % 512 * 2 ^ 20 + src % 512 * 2 ^ 29)⟩))
    ∧ ((∀ e, hits e → e = src) →
        let k := BitVec.ofNat 64 ((countersOf x src).head?.getD 16)
        let (r, f) := s.arriveLine d t src a bs
        f = (if n < bs.length then some ⟨t, 0x0F, k, k⟩ else none)
        ∧ (r.tile t).store.scr.read a n = bs.take n
        ∧ (∀ i, i < a ∨ a + n ≤ i → (r.tile t).store.scr.read i 1 = x.store.scr.read i 1)
        ∧ ((countersOf x src).map fun k => ((r.tile t).xp.active.get ⟨false, false, 0, 0⟩ k).count).sum = held - n
        ∧ (∀ j ∈ countersOf x src, ∀ i ∈ countersOf x src, j < i → 0 < ((r.tile t).xp.active.get ⟨false, false, 0, 0⟩ j).count →
            (r.tile t).xp.active.get ⟨false, false, 0, 0⟩ i = x.xp.active.get ⟨false, false, 0, 0⟩ i)
        ∧ (∀ j, j ∉ countersOf x src → (r.tile t).xp.active.get ⟨false, false, 0, 0⟩ j = x.xp.active.get ⟨false, false, 0, 0⟩ j)
        ∧ (r.tile t).frames.lines.get .none (a / 64) = .into src)

/-- What ends a read or a decode of a copy (R116, R131, R261, R262, R266): a line of its own tile that another tile has written, an
uncorrectable word of memory, an index at or above EXTENT, a slot header that R248 rejects. -/
def Sys2Proof.Claims.SourceFaults : Prop :=
  ∀ (s : State) (c : Copy),
    (∀ (a : Int) (n line e : Nat), 0 < n → a.toNat + n ≤ 0x100000 → let x := s.tile c.tile
      a.toNat / 64 ≤ line → line ≤ (a.toNat + n - 1) / 64 → x.frames.lines.get .none line = .into e → e ≠ x.seat.lt →
      (∀ l o, a.toNat / 64 ≤ l → l < line → x.frames.lines.get .none l = .into o → o = x.seat.lt) →
      ∃ r, s.copyRead c (some c.tile) a n = .error (r, ⟨c.tile, 0x0F, BitVec.ofNat 64 (64 * line),
        BitVec.ofNat 64 (64 * line + e % 512 * 2 ^ 20 + x.seat.lt % 512 * 2 ^ 29)⟩) ∧ r.mem = s.mem)
    ∧ (∀ (a : Int) (n e : Nat) m, 0 < n → (a.toNat + n - 1) / 64 = a.toNat / 64 →
        s.touchHbm (physAt c.pages a.toNat) n = (m, some e) →
        s.copyRead c none a n = .error (m, ⟨c.tile, 0x12, BitVec.ofNat 64 e, BitVec.ofNat 64 e⟩))
    ∧ (∀ m bs, c.kind = .gath ∨ c.kind = .scat → s.copyReads c ((listSide (s.issuer c) c.kind c.rcd).flatMap State.sideRanges) = .ok (m, bs) →
        (∃ i, i < Record.nidx c.rcd ∧ (Record.dim c.rcd (Record.ndim c.rcd - 1)).ext ≤ recNum bs (4 * i) 4) →
        s.moveCopy c = .error (m, ⟨c.tile, 0x0F, BitVec.ofNat 64 (Record.list c.rcd), BitVec.ofNat 64 (Record.list c.rcd)⟩))
    ∧ (∀ m slot r rest, let h := slotHeader slot
        s.copyRead c r.1.1 r.1.2.1 r.1.2.2 = .ok (m, slot) →
        (h / 256 % 8 ≠ 0 ∨ (2 ^ 15 ≤ h ∧ h % 2 ^ 15 ≠ 0) ∨ (h < 2 ^ 15 ∧ capacity (Record.slot c.rcd) < h / 2 ^ 11 % 16)) →
        s.readBlocks c (r :: rest) = .error (m, ⟨c.tile, 0x10, BitVec.ofNat 64 h, BitVec.ofNat 64 h⟩))

/-- The events of a copy (R38, R50, R116, R119, R131, R261, R262, R264, R266-R268, R374): its life, and the faults that end it as it
leaves, as it starts and during its move. An XFLAG's flag is written as it lands; an invalidation waits for the copies that use the
page. The ticks a copy takes and the owners that turn it away are free values of the model (log 5), that its bytes move whole at its
start is the model's choice (log 21), and so are what a copy whose flits a link holds waits as (log 30), the entry that leaves a
full ATS cache (log 24), which operand is a fault's AUX (log 20), and how the targets of an indexed copy are known before its list is
read (log 66). -/
def Obligations.CopyEvents : Prop :=
  Sys2Proof.Claims.CopyLife ∧ Sys2Proof.Claims.ArrivalFaults ∧ Sys2Proof.Claims.SourceFaults

/-- HANDOVER_OFFER and WATERMARK_ADVANCE (R121, R123): with every covered copy performed at die scope the granule is OFFERED under
the giver's next release number, which covers the copies that have still to be performed at package scope, within 4,096 ticks; an offer
whose entry a link holds waits (log 30); the
watermark passes releases in order, each at once when nothing that it covers is left. -/
def Obligations.ReleaseEvents : Prop :=
  ∀ (s : State) (p g d : Nat) (e : RegionEnt),
    let t := (s.part p).phys e.owner
    let gd := t / 64
    let mine (c : Copy) : Bool := decide (c.st = .landed) && decide (c.tile = t) && decide (g ∈ c.gran)
    let ids := (s.copies.filter mine).map (·.id)
    let n := (s.die gd).rel + 1
    let free : Prop := ∀ a ∈ s.regionWords p (0x200000 * g), s.addrHeld (Config.dieSite gd) a = false
    (s.region p (0x200000 * g) = some e → e.state = 1 → free → (∀ c ∈ s.copies, c.tile = t → g ∈ c.gran → c.st = .landed) →
        ∃ r, exec (.handoverOffer p g) s = .next r ∧ (r.die gd).rel = n
          ∧ (ids = [] → (s.die gd).rels = [] → (r.die gd).rels = [] ∧ (r.die gd).wm = n)
          ∧ ((s.die gd).rels = [] → ids ≠ [] → (r.die gd).rels = [(n, ids)] ∧ (r.die gd).wm = (s.die gd).wm)
          ∧ r.copies = s.copies.map (fun c => if mine c then { c with retireAt := min c.retireAt (s.ticks + 4095) } else c)
          ∧ r.mem = (s.setRegion { e with state := 2, nrel := n }).mem ∧ r.tiles = s.tiles)
    ∧ (s.region p (0x200000 * g) = some e → (e.state ≠ 1 ∨ ¬free ∨ ∃ c ∈ s.copies, c.tile = t ∧ g ∈ c.gran ∧ c.st ≠ .landed) →
        exec (.handoverOffer p g) s = .next s)
    ∧ (∀ done wait, (s.die d).rels = done ++ wait → (∀ q ∈ done, ∀ id ∈ q.2, ∀ c ∈ s.copies, c.id ≠ id) →
        (∀ q, wait.head? = some q → ∃ id ∈ q.2, ∃ c ∈ s.copies, c.id = id) →
        exec (.watermarkAdvance d) s = .next (s.modDie d fun y => { y with
          wm := (done.getLast?.map (·.1)).getD (s.die d).wm, rels := wait }))

/-! ### Partitions (R27-R41, R300-R302, R338, R345, R346, R363) -/

/-- Every logical tile of a partition meets `P`. -/
abbrev Sys2Proof.Claims.allTiles (s : State) (p : Nat) (P : Nat → Prop) : Prop :=
  ∀ lt, lt < 64 * (s.part p).bind.length → P (64 * ((s.part p).bind.getD (lt / 64) 0) + lt % 64)

/-- A tile's engines have nothing in progress at a launch (R28). -/
abbrev Sys2Proof.Claims.stillAtLaunch (s : State) (t : Nat) : Prop :=
  (s.tile t).stop.frozen = false ∧ (s.tile t).pend = [] ∧ ArrayQuiet (s.tile t) ∧ (s.tile t).tda.ofa = [] ∧ (s.tile t).tda.ofb = []
    ∧ (s.tile t).sync.dcf = [] ∧ ∀ c ∈ s.copies, c.tile = t → c.st ≠ .armed ∧ c.st ≠ .buffered

/-- The entry of the phase table for a phase (R156): the last whose FIRST is not above it. -/
def Sys2Proof.Claims.entryFor (img : Image) (phase : Nat) : Nat × Nat :=
  (((img.phases.filter fun e => decide (e.1 ≤ phase)).getLast?).map (·.2)).getD (0, 0)

/-- A tile has arrived (R32): it is halted; or each text engine has executed its arrival word, whose ring signals find room (log 68), every
write has landed, and in a compute phase the array, the sequencer and the feeds are quiet. -/
def Sys2Proof.Claims.Arrived (x : Tile) : Prop :=
  x.stop.halted = true
    ∨ (x.pctl.arrived = true ∧ x.pvu.arrived = true ∧ x.ptda.arrived = true ∧ x.pxp.arrived = true ∧ x.pend = []
      ∧ (∀ e, e ≠ .tsq → (ringFifo x e false).length + ((x.pos e).sigs.filter (·.sp)).length ≤ 8
          ∧ (ringFifo x e true).length + ((x.pos e).sigs.filter (·.ss)).length ≤ 8)
      ∧ (x.seat.phase % 2 = 0 → ArrayQuiet x ∧ SequencerIdle x ∧ x.tda.ofa = [] ∧ x.tda.ofb = [] ∧ x.sync.dcf = []))

/-- The phase open on a partition is complete (R33): every die has opened it and every tile has arrived; in an exchange phase every
counter is satisfied and no copy of the partition is left. -/
def Sys2Proof.Claims.Complete (s : State) (p : Nat) : Prop :=
  (s.part p).opening = [] ∧ (allTiles s p fun t => Arrived (s.tile t))
    ∧ ((s.part p).phase % 2 ≠ 0 → (∀ c ∈ s.copies, c.part ≠ p)
        ∧ allTiles s p fun t => ∀ e ∈ (s.tile t).xp.active, e.2.live = true → e.2.count = 0)

/-- R34's Lb, of the effective latency and skew of the lead die and each die of the partition (R356). -/
def Sys2Proof.Claims.BoundaryLead (s : State) (q : Part) (n : Nat) : Prop :=
  let has (d : Nat) : Prop := d < 8 ∧ q.dies.getLsbD d = true
  let pair (l d : Nat) : Nat :=
    let ov := (s.pkg.overlayNow.get 0#32 (8 * l + d)).toNat
    if d = l then 8 else 8 + min (Config.minLat l d + ov % 65536) 65535 + min (Config.maxSkew l d + ov / 65536) 65535
  ∃ l, has l ∧ (∀ d, has d → l ≤ d) ∧ (∀ d, has d → pair l d ≤ n) ∧ ∃ d, has d ∧ n = pair l d

/-- A reconfiguration holds the opening of exchange phases (R369). -/
def Sys2Proof.Claims.Reconfiguring (s : State) : Prop :=
  ∃ e ∈ s.links, e.2.req = true ∧ (e.2.st = .draining ∨ e.2.st = .paused ∨ e.2.st = .training)

/-- The tags of a tile as its exchange phase 2j + 1 completes (R114): of one source, of several, or as they were. -/
def Sys2Proof.Claims.Tagged (x y : Tile) : Prop :=
  (x.frames.srcs.map (·.1)).Nodup →
    let step := 65536 * (x.seat.phase / 2 % 65536)
    y.frames.srcs = [] ∧ ∀ f, y.frames.tags.get 0#32 f = match x.frames.srcs.get .none f with
      | .one src => BitVec.ofNat 32 (step + 0x4000 + src)
      | .many => BitVec.ofNat 32 (step + 0x8000)
      | .none => x.frames.tags.get 0#32 f

/-- The controller of a partition (R27, R28, R32-R36, R39, R114, R356, R369): a launch opens at its tick with every tile still, or
slips; a complete phase enters BOUNDARY, with R34's origin and, after an exchange phase, R114's tags; a held origin is set once no
reconfiguration is left, by the Lb of the completion; the phase opens at its origin with its deadline; a deadline passed extends it;
the straggler limit aborts it, with the cause `straggler` where no tile is left straggling (log 56); a complete phase with every tile
halted is DONE. -/
def Obligations.PhaseEvents : Prop :=
  ∀ (s : State) (p : Nat),
    let q := s.part p
    let straggles (lt : Nat) : Prop :=
      let x := s.tile (q.phys lt)
      ¬(x.stop.halted = true ∨ (q.phys lt / 64 ∉ q.opening ∧ Arrived x))
    let halted : Prop := allTiles s p fun t => (s.tile t).stop.halted = true
    (¬Reconfiguring s → q.st = .boundary → q.next = none → q.phase % 2 = 0 → (s.releaseHeld.part p).next = some (s.time + q.lead))
    ∧ (q.since ≠ s.ticks →
    (∀ o, q.st = .armed → q.next = some o → o ≤ s.time → (allTiles s p fun t => stillAtLaunch s t) →
        exec (.launchStart p) s = .next (s.setPart p { q with
          st := .open_, since := s.ticks, origin := o, next := none
          opening := q.bind, deadline := o + (entryFor q.img q.phase).1, slimNow := q.slim.toNat }))
    ∧ (∀ o, q.st = .armed → q.next = some o → o ≤ s.time → (¬allTiles s p fun t => stillAtLaunch s t) →
        ∃ s', exec (.launchStart p) s = .next s' ∧ (s'.part p).st = .aborted ∧ (s'.part p).cause = some 0x15)
    ∧ (∀ o, q.st = .armed → q.next = some o → s.time < o → exec (.launchStart p) s = .next s)
    ∧ ((q.st = .open_ ∨ q.st = .extended) → Complete s p → (q.st = .extended ∨ ¬halted) →
        ∃ s', exec (.phaseComplete p) s = .next s' ∧ (s'.part p).st = .boundary ∧ (s'.part p).phase = q.phase
          ∧ (s'.part p).opening = q.bind ∧ (s'.part p).recOld = [] ∧ s'.mem = s.mem
          ∧ (∀ n, BoundaryLead s q n → (s'.part p).lead = n
              ∧ (s'.part p).next = some (s.time + n) ∨ Reconfiguring s ∧ q.phase % 2 = 0 ∧ (s'.part p).next = none ∧ (s'.part p).lead = n)
          ∧ (Reconfiguring s → q.phase % 2 = 0 → (s'.part p).next = none)
          ∧ (q.phase % 2 = 1 → (s.tilesOf p).Nodup → allTiles s p fun t => Tagged (s.tile t) (s'.tile t))
          ∧ (q.phase % 2 = 0 → s'.tiles = s.tiles))
    ∧ ((q.st ≠ .open_ ∧ q.st ≠ .extended) ∨ ¬Complete s p → exec (.phaseComplete p) s = .next s)
    ∧ (∀ o d, q.st = .boundary → q.next = some o → o ≤ s.time → d ∉ q.opening →
        ∃ s', exec (.phaseOpen p d) s = .next s' ∧ (s'.part p).phase = q.phase + 1 ∧ (s'.part p).origin = o
          ∧ (s'.part p).deadline = o + (entryFor q.img (q.phase + 1)).1 ∧ (s'.part p).slimNow = q.slim.toNat
          ∧ ((allTiles s p fun t => (s.tile t).stop.frozen = false) → (s'.part p).st = .open_)
          ∧ ((¬allTiles s p fun t => (s.tile t).stop.frozen = false) → (s'.part p).st = .held)
          ∧ s'.tiles = s.tiles ∧ s'.mem = s.mem)
    ∧ (q.st = .open_ → q.deadline ≤ s.time → ∃ l, exec (.deadlineReached p) s = .next (s.setPart p { q with
          st := .extended, since := s.ticks, straggling := l, extStart := q.deadline })
        ∧ ∀ lt, lt ∈ l ↔ lt < 64 * q.bind.length ∧ straggles lt)
    ∧ (q.st = .open_ → s.time < q.deadline → exec (.deadlineReached p) s = .next s)
    ∧ (q.st = .extended → q.deadline + q.slimNow ≤ s.time → ∃ s', exec (.stragglerLimit p) s = .next s' ∧ (s'.part p).st = .aborted
          ∧ ((∀ lt ∈ q.straggling, ¬straggles lt) → (s'.part p).cause = some 0x13)
          ∧ ∀ lt ∈ q.straggling, straggles lt → (s'.tile (q.phys lt)).stop.frozen = true)
    ∧ (q.st = .extended → s.time < q.deadline + q.slimNow → exec (.stragglerLimit p) s = .next s)
    ∧ (q.st = .open_ → Complete s p → halted →
        ∃ s', exec (.partitionDone p) s = .next s' ∧ (s'.part p).st = .done ∧ (s'.part p).preempt = []
          ∧ (allTiles s' p fun t => (s'.tile t).seat.run = false)
          ∧ (q.phase % 2 = 1 → (s.tilesOf p).Nodup → allTiles s p fun t => Tagged (s.tile t) (s'.tile t))))

/-- What the opening of phase `n` leaves on a tile (R34, R37, R41, R114, R217): engines released, line records, checked bits, plane
slots, counts and marks cleared, at an exchange phase the staged counters active; registers, memories and tags as they were. -/
def Sys2Proof.Claims.Opened (x y : Tile) (n : Nat) : Prop :=
  y.seat.phase = n ∧ y.pctl.arrived = false ∧ y.pvu.arrived = false ∧ y.ptda.arrived = false ∧ y.pxp.arrived = false
    ∧ y.frames = { x.frames with lines := [], checked := [] } ∧ y.tda.slots = [] ∧ y.xp.count = 0 ∧ y.xp.sealed = false
    ∧ (n % 2 = 1 → y.xp.active = x.xp.staged ∧ y.xp.staged = []) ∧ (∀ k, (y.ctl.rT k).buf = .empty)
    ∧ (∀ r, y.ctl.rS r = x.ctl.rS r) ∧ y.store = { x.store with ecc := x.store.ecc.filter fun m => m.sp != .slot } ∧ y.vu = x.vu
    ∧ y.stop.realign = false ∧ y.sync.semSat = []

/-- The origin that the dies of a partition wait for (R27, R34): at a boundary the next one, sent once the first tick has passed; after
the controller's own opening, the phase's. -/
def Sys2Proof.Claims.WaitsFor (s : State) (q : Part) (o : Nat) : Prop :=
  q.st = .boundary ∧ q.next = some o ∧ q.since + 2 ≤ s.ticks
    ∨ (q.st = .open_ ∨ q.st = .extended ∨ q.st = .held) ∧ q.origin = o

/-- Every tile of the die executed REALIGN in the exchange phase that closes, or is halted (R41). -/
def Sys2Proof.Claims.Realigning (s : State) (p d : Nat) : Prop :=
  ∀ t ∈ s.dieTiles p d, (s.tile t).seat.phase % 2 = 1 ∧ ((s.tile t).stop.realign = true ∨ (s.tile t).stop.halted = true)

/-- A die opens the next phase (R30, R34, R37, R38, R41, R114, R217, R363, R369): at its first tile cycle whose count, or where it realigns
whose package time, is at least the origin, every tile of it advances a phase and opens it. A die that realigns takes package time as its
count; a pending divisor applies unless a reconfiguration at the die holds it; as an exchange phase opens, the die's armed copies
enter their buffers, their times counted from the origin. Before that nothing of the die changes. -/
def Sys2Proof.Claims.NextOpens : Prop :=
  ∀ (s : State) (p d o : Nat),
    let q := s.part p
    let ts := s.dieTiles p d
    let due : Prop := (Realigning s p d → o ≤ s.time) ∧ (¬Realigning s p d → o ≤ (s.die d).cyc)
    let linkBusy : Prop := ∃ e ∈ s.links, e.1 < 12 ∧ ((linkSites e.1).1 = Config.dieSite d ∨ (linkSites e.1).2 = Config.dieSite d)
      ∧ (e.2.st = .draining ∨ e.2.st = .paused ∨ (e.2.st = .training ∧ e.2.req = true))
    WaitsFor s q o → d ∈ q.opening → (∀ t ∈ ts, (s.tile t).seat.run = true) → (s.tilesOf p).Nodup →
    (due → (s.die d).phaseLeft = 0 → ∃ s', exec (.phaseOpen p d) s = .next s' ∧ d ∉ (s'.part p).opening
      ∧ (∀ t ∈ ts, Opened (s.tile t) (s'.tile t) ((s.tile t).seat.phase + 1) ∧ (s'.tile t).seat.run = true)
      ∧ (∀ u, u ∉ ts → s'.tile u = s.tile u) ∧ s'.mem = s.mem
      ∧ (Realigning s p d → (s'.die d).cyc = s.time) ∧ (¬Realigning s p d → (s'.die d).cyc = (s.die d).cyc)
      ∧ (¬linkBusy → (s'.die d).cur = (s.die d).div ∧ (s'.die d).divAt = none)
      ∧ (linkBusy → (s'.die d).cur = (s.die d).cur ∧ (s'.die d).divAt = (s.die d).divAt)
      ∧ (ts ≠ [] → (∀ t ∈ ts, (s.tile t).seat.phase % 2 = 0) → s'.copies = s.copies.map fun c =>
          if c.part = p ∧ c.tile / 64 = d ∧ c.st = .armed then { c with st := .buffered, due := o + c.time } else c)
      ∧ ((∃ t ∈ ts, (s.tile t).seat.phase % 2 = 1) → s'.copies = s.copies)
      ∧ (q.st = .boundary → o ≤ s.time → (s'.part p).phase = q.phase + 1 ∧ (s'.part p).origin = o
          ∧ ((s'.part p).st = .open_ ∨ (s'.part p).st = .held)))
    ∧ (¬due ∨ (s.die d).phaseLeft ≠ 0 → ∃ s', exec (.phaseOpen p d) s = .next s' ∧ d ∈ (s'.part p).opening ∧ s'.tiles = s.tiles
      ∧ s'.dies = s.dies ∧ s'.copies = s.copies ∧ s'.mem = s.mem)

/-- The first opening of a launch on a die (R27, R34, R350): at its first tile cycle at or after tick S its engines start, in the
phase that the launch opens, 0 or the one of the contexts it resumed from; none stays behind an arrival word. -/
def Sys2Proof.Claims.LaunchOpens : Prop :=
  ∀ (s : State) (p d t : Nat),
    let q := s.part p
    (q.st = .open_ ∨ q.st = .extended ∨ q.st = .held) → d ∈ q.opening → t ∈ s.dieTiles p d → q.origin ≤ (s.die d).cyc →
    (s.die d).phaseLeft = 0 → (∃ u ∈ s.dieTiles p d, (s.tile u).seat.run = false) → (s.tilesOf p).Nodup →
    ∃ s', exec (.phaseOpen p d) s = .next s' ∧ d ∉ (s'.part p).opening ∧ Opened (s.tile t) (s'.tile t) (s.tile t).seat.phase
      ∧ (s'.tile t).seat.run = true ∧ s'.copies = s.copies ∧ s'.dies = s.dies
      ∧ (∀ u, u ∉ s.dieTiles p d → s'.tile u = s.tile u) ∧ s'.mem = s.mem

/-- A die opens a phase: the next one, compute or exchange, or the first of a launch (R27, R30, R34, R37, R38, R41, R114, R217, R350, R363,
R369). What tags a phase leaves is stated where it completes; an opening keeps them. -/
def Obligations.DieOpens : Prop := Sys2Proof.Claims.NextOpens ∧ Sys2Proof.Claims.LaunchOpens

/-- TIME_ZONE_SLIP, TCMD, pre-emption and the divisor outside a partition (R40, R301, R302, R345, R346, R363). A RESUME is
turned away where an ABORT of its partition lands in the same tick; a context that cannot be written ends the save with its cause. That
every context is written as the save ends is the model's choice (log 27); so are a save that a link holds and that is tried again
(log 30), the writing of the answers to the PREEMPT requests (logs 31 and 40), and the cause of a remote package's refusal (log 24). -/
def Obligations.PartitionCommands : Prop :=
  ∀ (s : State) (p d : Nat),
    let q := s.part p
    let f := s.fwc d
    let t := 64 * d + f.tsel.toNat
    let n : Int := ((s.die d).cyc : Int) - s.time
    (n.natAbs ≤ Config.tolerance d → exec (.timeZoneSlip d) s = .next s)
    ∧ (Config.tolerance d < n.natAbs → (s.parts.find? fun e => e.2.active && e.2.dies.getLsbD d) = some (p, q) →
        ∃ s', exec (.timeZoneSlip d) s = .next s' ∧ (s'.part p).st = .aborted ∧ ∀ u ∈ s.dieTiles p d, (s'.tile u).stop.frozen = true)
    ∧ (∀ m, f.blk = some (.tcmd 1 m) → m ≤ f.cyc → (s.tile t).seat.part = some p → q.st = .held → (s.tile t).stop.frozen = true →
        (∀ a, a < 8 → Turn.die a ∉ s.agenda) →
        (∀ r, (s.tile t).stop.report = some r → r.w0.getLsbD 20 = true) → (s.tile t).stop.report ≠ none →
        ∃ s', exec (.tcmdResume d) s = .next s' ∧ (s'.tile t).stop.frozen = false ∧ (s'.tile t).stop.report = none
          ∧ (s'.tile t).stop.tpend = false ∧ (s'.fwc d).blk = none
          ∧ ((∀ lt, lt < 64 * q.bind.length → q.phys lt ≠ t → (s.tile (q.phys lt)).stop.frozen = false) →
              (s'.part p).st = q.heldFrom ∧ (s'.part p).deadline = q.deadline + (s.time - q.heldAt))
          ∧ ((∃ lt, lt < 64 * q.bind.length ∧ q.phys lt ≠ t ∧ (s.tile (q.phys lt)).stop.frozen = true) → (s'.part p).st = .held))
    ∧ (∀ m, f.blk = some (.tcmd 1 m) → m ≤ f.cyc → (s.tile t).stop.frozen = false →
        exec (.tcmdResume d) s = .next (s.exception d 0x18 1 f.blkAt))
    ∧ (∀ m a m', f.blk = some (.tcmd 1 m) → m ≤ f.cyc → a < 8 → Turn.die a ∈ s.agenda → (s.die a).phaseLeft = 0 →
        s.pkg.dreset.getLsbD a = false → (s.fwc a).blk = some (.mtsr 0x0A 2 m') → m' ≤ (s.fwc a).cyc → q.st = .held →
        (s.tile t).seat.part = some p → (s.tile (64 * a + (s.fwc a).tsel.toNat)).seat.part = some p →
        exec (.tcmdResume d) s = .next (s.exception d 0x18 1 f.blkAt))
    ∧ (∀ m, f.blk = some (.tcmd 2 m) → m ≤ f.cyc → (s.tile t).seat.part = some p → q.st = .held →
        ∃ s', exec (.tcmdAbort d) s = .next s' ∧ (s'.part p).st = .aborted ∧ (s'.fwc d).blk = none
          ∧ ∀ c ∈ s'.copies, c.part = p → c.st ≠ .armed ∧ c.st ≠ .buffered)
    ∧ (∀ m, f.blk = some (.tcmd 2 m) → m ≤ f.cyc → (s.tile t).seat.part = some p → q.st ≠ .held →
        exec (.tcmdAbort d) s = .next (s.exception d 0x18 2 f.blkAt))
    ∧ (q.st = .boundary → q.phase % 2 = 1 → s.ticks = q.since + 1 → q.preempt ≠ [] →
        ∃ s' l, exec (.preemptSaveEntry p) s = .next s' ∧ l.map (·.1) = q.bind ∧ s'.mem = s.mem
          ∧ s'.part p = { q with st := .saving, since := s.ticks, next := none, opening := [], saveLeft := l }
          ∧ (allTiles s p fun u => (s'.tile u).sync.semSat = [] ∧ (s'.tile u).store = (s.tile u).store)
          ∧ allTiles s p fun u => ∀ e ∈ (s.tile u).sync.semSat, ∃ r le, (r, le) ∈ (s'.die (u / 64)).logNow
            ∧ le.e0.extractLsb' 56 8 = 0x22 ∧ le.e3 = BitVec.ofNat 64 e.1)
    ∧ ((q.st ≠ .boundary ∨ q.phase % 2 = 0 ∨ q.preempt = []) → exec (.preemptSaveEntry p) s = .next s)
    ∧ (q.st = .saving → q.since ≠ s.ticks → (∀ e ∈ q.saveLeft, e.2 ≤ s.ticks) → s.ctxOf q.launch.pasid = none →
        ∃ s', exec (.saveComplete p) s = .next s' ∧ (s'.part p).st = .aborted ∧ (s'.part p).cause = some 0x0E)
    ∧ (∀ c, q.st = .saving → q.since ≠ s.ticks → (∀ e ∈ q.saveLeft, e.2 ≤ s.ticks) → s.ctxOf q.launch.pasid = some c →
        (∀ m, s.saveTiles q c = .ok (m, ()) → ∃ s', exec (.saveComplete p) s = .next s'
          ∧ ((m.part p).bind = q.bind → (s'.part p).st = .idle ∧ allTiles s' p fun u => (s'.tile u).seat.run = false)
          ∧ (s'.part p).preempt = [] ∧ ∀ e ∈ (m.part p).preempt, (e, 0) ∈ s'.pkg.replies)
        ∧ (∀ m cause, s.saveTiles q c = .error (m, some cause) → ∃ s', exec (.saveComplete p) s = .next s' ∧ (s'.part p).st = .aborted
          ∧ (s'.part p).cause = some cause)
        ∧ (∀ m, s.saveTiles q c = .error (m, none) → exec (.saveComplete p) s = .next s))
    ∧ (∀ c lt, let u := q.phys lt
        let via := s.frontTranslate (u / 64) c (q.launch.save + 0x200000 * lt) true
        (∀ e, via = .error e → s.saveTile q c lt = .error e)
        ∧ ∀ r pa sc, via = .ok (r, pa, sc) →
          let n : Nat := if (r.tile u).isFrozen then 1929216 else 1728512
          (¬ContextAt r pa n → s.saveTile q c lt = .error (r, some 0x18))
          ∧ (ContextAt r pa n → (∀ e, r.frontReach (u / 64) c pa n = .error e → s.saveTile q c lt = .error e)
            ∧ ∀ v a, r.frontReach (u / 64) c pa n = .ok (v, a) →
                (a = if 0x80000000000 ≤ pa then pa + ((r.ctx c).pasid.toNat + 1) * 2 ^ 44 else pa)
                ∧ ((v.tile u).store.ecc = [] → (v.tile u).store.wiped = [] → s.saveTile q c lt = .ok (v.saveContext u a, ()))
                ∧ ∀ m, (v.readTile u).2 = some m → s.saveTile q c lt = .error ((v.readTile u).1, some 0x12)))
    ∧ (∀ m, (s.die d).divAt = some m → m ≤ s.ticks → s.dieActive d = false →
        exec (.divisorApply d) s = .next (s.setDie d { s.die d with cur := (s.die d).div, divAt := none }))

/-! ### Events of the firmware core (R129, R288, R294, R296, R304, R306, R327) -/

/-- Taking an exception (R294, R296): EPC, ECAUSE and EVAL, PIE := IE, IE := 0, EXC := 1, on at EVEC; inside an exception
it is a double fault: one error-log entry with the cause, the core restarts at ROM word 0 with the system registers of its die
at their reset values, the doorbell FIFO and EVCFG among them, the event counts as they were (R379), and after the installation of
R382 its patch region is locked exactly where a patch is installed (log 33).
That the handler's first word issues a cycle later is the model's choice (log 4). -/
def Obligations.ExceptionTaken : Prop :=
  ∀ (s : State) (d : Nat) (cause : BitVec 8) (aux : DWord) (at_ : Nat),
    let f := s.fwc d
    let r := s.exception d cause aux at_
    (f.exc = false → (r.fwc d).epc = BitVec.ofNat 15 at_ ∧ (r.fwc d).ecause = cause ∧ (r.fwc d).eval_ = aux ∧ (r.fwc d).pie = f.ie
      ∧ (r.fwc d).ie = false ∧ (r.fwc d).exc = true ∧ (r.fwc d).pc = f.evec.toNat ∧ (r.fwc d).evec = f.evec ∧ (r.fwc d).imask = f.imask
      ∧ (r.fwc d).sram = f.sram ∧ (∀ q, (r.fwc d).ctl.rS q = f.ctl.rS q) ∧ (r.fwc d).pend = f.pend
      ∧ r.tiles = s.tiles ∧ r.mem = s.mem ∧ (∀ e, e ≠ d → r.die e = s.die e))
    ∧ (f.exc = true → (r.fwc d).pc = 0 ∧ (r.fwc d).exc = false ∧ (r.fwc d).ie = false ∧ (r.fwc d).epc = 0 ∧ (r.fwc d).evec = 0
      ∧ (r.fwc d).lock = (r.fwc d).inst ∧ r.tiles = s.tiles ∧ r.mem = s.mem ∧ (s.hbm = [] → ∀ e, e ≠ d → r.die e = s.die e)
      ∧ (r.fwc d).imask = 0 ∧ (r.fwc d).ecause = 0 ∧ (r.fwc d).eval_ = 0 ∧ (r.fwc d).tsel = 0 ∧ (r.fwc d).apbase = 0
      ∧ (r.die d).div = 0 ∧ (r.die d).cur = 0 ∧ (r.die d).divAt = none ∧ (r.die d).drain = false ∧ (r.die d).calint = 0x01000000
      ∧ (∀ k, ((r.die d).inj.get State.inj0 k).armed = false) ∧ (r.die d).fired = 0 ∧ (r.die d).wdcmp = 0 ∧ (r.die d).twnext = 0
      ∧ r.pkg = s.pkg ∧ (r.die d).log = (s.die d).log ∧ (r.die d).dbq = [] ∧ (r.die d).ovf = false ∧ (r.die d).evsel = 0
      ∧ (s.hbm = [] → ((s.die d).evc.map (·.1)).Nodup → ∀ k, let c := (r.die d).evc.get ⟨false, 0, 0⟩ k
          c.en = false ∧ c.src = 0 ∧ c.count = ((s.die d).evc.get ⟨false, 0, 0⟩ k).count)
      ∧ ∃ k le rest, (r.die d).logNow = (s.die d).logNow ++ (k, le) :: rest ∧ le.e0.extractLsb' 56 8 = 0x24
        ∧ le.e0.extractLsb' 54 2 = 2 ∧ le.e1 = BitVec.ofNat 64 s.time ∧ le.e3 = cause.setWidth 64)

/-- FWC_INTERRUPT, EVENT_LATCH_SET, DBQ_READ and APERTURE_ACCESS_PERFORMED (R129, R288, R294, R306, R327). An aperture access
waits while a link of its route holds it (R368; which accesses are held is log 30); an uncorrectable codeword that it reads is an
exception at its word (R297, R375; that AUX is its physical address is log 20). -/
def Obligations.CoreEvents : Prop :=
  ∀ (s : State) (d : Nat) (sd : SReg),
    let f := s.fwc d
    let x := s.die d
    let irq : BitVec 8 := s.ipend d &&& f.imask
    let fin_ (g : Fwc) (l : List (Nat × Land)) : Fwc := { g with blk := none, busy := f.cyc + 1, pend := f.pend ++ l.map fun e => ⟨f.cyc + e.1, 0, .ctl, 0, e.2⟩ }
    (f.ie = true → f.exc = false → irq ≠ 0 → f.blk = none →
        exec (.fwcInterrupt d) s = .next (s.exception d 0x1F (irq.setWidth 64) (State.fwcHead f)))
    ∧ (f.ie = true → f.exc = false → irq ≠ 0 → f.blk = some .wfe → exec (.fwcInterrupt d) s = .next (s.exception d 0x1F (irq.setWidth 64) f.pc))
    ∧ ((f.ie = false ∨ f.exc = true ∨ irq = 0) → exec (.fwcInterrupt d) s = .next s)
    ∧ (∃ s', exec (.eventLatchSet d) s = .next s' ∧ (s'.fwc d).ipSeen = decide (irq ≠ 0)
        ∧ (let set := f.latch = true ∨ (∃ n ∈ x.sevs, n ≤ s.ticks) ∨ (irq ≠ 0 ∧ f.ipSeen = false)
           (f.blk = some .wfe → set → (s'.fwc d).latch = false ∧ (s'.fwc d).blk = none)
           ∧ (f.blk ≠ some .wfe → ((s'.fwc d).latch = true ↔ set) ∧ (s'.fwc d).blk = f.blk)
           ∧ (¬set → (s'.fwc d).latch = false ∧ (s'.fwc d).blk = f.blk))
        ∧ s'.tiles = s.tiles ∧ s'.mem = s.mem)
    ∧ (∃ s', exec (.dbqRead d sd) s = .next s' ∧ (s'.die d).dbq = x.dbq.drop 1 ∧ (s'.die d).ovf = false
        ∧ (∀ e, x.dbq.head? = some e → ∃ v : DWord, v.msb = true ∧ v.toNat % 2 ^ 28 = e.1.toNat * 256 + e.2.toNat
          ∧ (s'.fwc d).pend = f.pend ++ [⟨f.cyc + 1, 0, .ctl, 0, .pair sd v⟩, ⟨f.cyc + 1, 0, .ctl, 0, .alu v⟩]))
    ∧ (∀ pa z sg w rd n, f.blk = some (.apLoad pa z sg w rd n) → n ≤ s.ticks → s.addrHeld (Config.dieSite d) pa = false →
        (s.portOf pa = none → s.hbm = [] → exec (.apertureAccessPerformed d) s = .next ({ s with free := s.free + 1 }.modFwc d fun g =>
          fin_ g (loadLands 1 rd z sg (s.mem.num pa z))))
        ∧ (∀ r a, { s with free := s.free + 1 }.touchHbm pa z = (r, some a) →
          exec (.apertureAccessPerformed d) s = .next (r.exception d 0x12 (BitVec.ofNat 64 a) (r.fwc d).blkAt)))
    ∧ (∀ pa bs n, f.blk = some (.apStore pa bs n) → n ≤ s.ticks → s.addrHeld (Config.dieSite d) pa = false → s.portOf pa = none →
        ∃ s', exec (.apertureAccessPerformed d) s = .next s' ∧ s'.mem = s.mem.write pa bs ∧ (s'.fwc d).blk = none)
    ∧ (∀ op wide pa rd b c n, f.blk = some (.apAtomic op wide pa rd b c n) → n ≤ s.ticks → s.addrHeld (Config.dieSite d) pa = false →
        s.portOf pa = none → s.hbm = [] →
        let k := if wide then 8 else 4
        let old : DWord := BitVec.ofNat 64 (s.mem.num pa k)
        ∃ s', exec (.apertureAccessPerformed d) s = .next s' ∧ s'.mem = s.mem.write pa (leBytes k (atomNew op wide old b c).toNat)
          ∧ (s'.fwc d).blk = none
          ∧ (s'.fwc d).pend = f.pend ++ (if wide then [⟨f.cyc + 1, 0, .ctl, 0, .pair rd old⟩] else [⟨f.cyc + 1, 0, .ctl, 0, .sreg rd (old.setWidth 32)⟩])
            ++ [⟨f.cyc + 1, 0, .ctl, 0, .alu old⟩])
    ∧ (∀ pa n, ((∃ z sg w rd, f.blk = some (.apLoad pa z sg w rd n)) ∨ (∃ bs, f.blk = some (.apStore pa bs n))
          ∨ ∃ op wide rd b c, f.blk = some (.apAtomic op wide pa rd b c n)) →
        (s.ticks < n ∨ s.addrHeld (Config.dieSite d) pa = true) → exec (.apertureAccessPerformed d) s = .next s)

/-! ### Links, package time, the host attachment (R131, R353, R357, R358, R361, R366-R373) -/

/-- What an event of a link leaves alone: the other links, tiles, partitions, memory, package registers, time. -/
abbrev Sys2Proof.Claims.onlyLink (k : Nat) (s s' : State) : Prop :=
  (∀ j, j ≠ k → s'.link j = s.link j) ∧ s'.tiles = s.tiles ∧ s'.parts = s.parts ∧ s'.ctxs = s.ctxs ∧ s'.copies = s.copies
    ∧ s'.mem = s.mem ∧ s'.pkg = s.pkg ∧ s'.time = s.time

/-- Replays and lane errors (R366, R367): LRETRY counts, LEVT.RETRY at its threshold, the eighth consecutive replay of one
flit retrains an ACTIVE link; LERR counts up to 65,535, and at LTHR.LANE the lane fails. Whether a replay is of the flit
before is a free value (log 5). -/
def Sys2Proof.Claims.LinkErrors : Prop :=
  ∀ (s : State) (k : Nat) (dir : Bool), linkExists k = true →
    let l := s.link k
    let n := if dir then l.replays1 else l.replays0
    let count := (if dir then l.retry1 else l.retry0) + 1
    (∃ s', exec (.flitReplay k dir) s = .next s' ∧ onlyLink k s s'
        ∧ (s'.link k).retry0 = (if dir then l.retry0 else count) ∧ (s'.link k).retry1 = (if dir then count else l.retry1)
        ∧ ((s'.link k).levt.getLsbD 1 = true ↔ l.levt.getLsbD 1 = true ∨ count = l.thrRetry)
        ∧ (if n = 7 ∧ l.st = .active ∧ Config.sameFlit s.free = true then (s'.link k).st = .training ∧ (s'.link k).attempts = 1
            ∧ (s'.link k).levt.getLsbD 2 = true ∧ (s'.link k).thalf = l.chalf ∧ (s'.link k).tw32 = l.cw32
            ∧ (s'.link k).ts16 = l.cs16 ∧ (s'.link k).chalf = l.chalf ∧ (s'.link k).cw32 = l.cw32 ∧ (s'.link k).cs16 = l.cs16
          else (s'.link k).st = l.st ∧ (s'.link k).attempts = l.attempts)
        ∧ (s'.link k).map = l.map ∧ (s'.link k).lerr = l.lerr ∧ (s'.link k).lfail = l.lfail ∧ (s'.link k).sfail = l.sfail)
    ∧ (∀ m lane, m < 8 → lane < (if 16 ≤ k then 4 else 68) →
        let dm := (if dir then 8 else 0) + m
        let e := l.lerr.get 0#16 (68 * dm + lane)
        let e' : BitVec 16 := if e = 0xFFFF then e else e + 1
        ∃ s', exec (.laneError k dir m lane) s = .next s' ∧ onlyLink k s s'
          ∧ (∀ j, j ≠ 68 * dm + lane → (s'.link k).lerr.get 0#16 j = l.lerr.get 0#16 j)
          ∧ (s'.link k).lerr.get 0#16 (68 * dm + lane) = e'
          ∧ (s'.link k).st = l.st ∧ (s'.link k).retry0 = l.retry0 ∧ (s'.link k).retry1 = l.retry1 ∧ (s'.link k).map = l.map
          ∧ (e' = l.thrLane → e ≠ e' →
              (s'.link k).levt.getLsbD 0 = true
              ∧ (lane < 64 → ((s'.link k).lfail.get 0#64 dm).getLsbD lane = true)
              ∧ (64 ≤ lane → ((s'.link k).sfail.get 0#4 dm).getLsbD (lane - 64) = true))
          ∧ (e' ≠ l.thrLane → (s'.link k).lfail = l.lfail ∧ (s'.link k).sfail = l.sfail ∧ (s'.link k).levt = l.levt))

/-- The states of a link (R368, R369): DRAINING to PAUSED with no exchange phase open, PAUSED to TRAINING in the next tick,
a training attempt to ACTIVE with the widths applied to the training, to the next attempt, or after the third to FAILED. How long
an attempt takes, within R368's bounds, whether it succeeds, and when the last flit sent is acknowledged are free values (log 5);
that no copy under way has flits to acknowledge is the model's choice (log 30). -/
def Sys2Proof.Claims.LinkStates : Prop :=
  ∀ (s : State) (k : Nat),
    let l := s.link k
    let quiet : Prop := s.exchangeOpen = false ∧ ∀ c ∈ s.copies, c.st ≠ .started
    (∀ n, l.st = .draining → quiet → l.ackAt = some n → n ≤ s.ticks →
        ∃ s', exec (.linkDrained k) s = .next s' ∧ onlyLink k s s' ∧ (s'.link k).st = .paused ∧ (s'.link k).map = l.map)
    ∧ (∀ n, l.st = .draining → quiet → l.ackAt = some n → s.ticks < n →
        ∃ s', exec (.linkDrained k) s = .next s' ∧ onlyLink k s s' ∧ (s'.link k).st = .draining ∧ (s'.link k).ackAt = some n)
    ∧ (l.st = .draining → quiet → l.ackAt = none →
        ∃ s', exec (.linkDrained k) s = .next s' ∧ onlyLink k s s'
          ∧ ((s'.link k).st = .paused ∨ ((s'.link k).st = .draining ∧ ∃ n, s.ticks < n ∧ (s'.link k).ackAt = some n)))
    ∧ ((l.st ≠ .draining ∨ s.exchangeOpen = true ∨ ∃ c ∈ s.copies, c.st = .started) → exec (.linkDrained k) s = .next s)
    ∧ (l.st = .paused → l.attemptEnd < s.ticks →
        ∃ s', exec (.linkPauseEnd k) s = .next s' ∧ onlyLink k s s' ∧ (s'.link k).st = .training ∧ (s'.link k).attempts = 1
          ∧ s.ticks < (s'.link k).attemptEnd ∧ (s'.link k).attemptEnd ≤ s.ticks + (if l.mapOnly then 4800 else 24000)
          ∧ (s'.link k).map = l.map ∧ (s'.link k).req = l.req
          ∧ (s'.link k).thalf = l.half ∧ (s'.link k).tw32 = l.w32 ∧ (s'.link k).ts16 = l.s16)
    ∧ ((l.st ≠ .paused ∨ s.ticks ≤ l.attemptEnd) → exec (.linkPauseEnd k) s = .next s)
    ∧ (l.st = .training → l.attemptEnd ≤ s.ticks →
        ∃ s', exec (.trainingAttemptEnd k) s = .next s' ∧ (∀ j, j ≠ k → s'.link j = s.link j) ∧ s'.mem = s.mem
          ∧ (if Config.trainSucceeds s.free then
              (s'.link k).st = .active ∧ (s'.link k).levt.getLsbD 3 = true ∧ (s'.link k).req = false ∧ s'.tiles = s.tiles
              ∧ (s'.link k).chalf = l.thalf ∧ (s'.link k).cw32 = l.tw32 ∧ (s'.link k).cs16 = l.ts16
            else if l.attempts < 3 then (s'.link k).st = .training ∧ (s'.link k).attempts = l.attempts + 1 ∧ s'.tiles = s.tiles
            else (s'.link k).st = .failed ∧ (s'.link k).levt.getLsbD 4 = true))
    ∧ ((l.st ≠ .training ∨ s.ticks < l.attemptEnd) → exec (.trainingAttemptEnd k) s = .next s)

/-- Mesh links and ports: errors, replay, training (R366-R369). -/
def Obligations.Links : Prop := Sys2Proof.Claims.LinkErrors ∧ Sys2Proof.Claims.LinkStates

/-- Package time and the press (R353, R357, R358, R361): a pulse loads, or measures DEV against the nearest multiple of
2^PEXP and slews, and either ends a slew in progress; a slew step adds 0 or 2; TSYNC_OUT is high for 16 ticks; DUE is set when package time reaches LAST + INT. -/
def Obligations.PackageTime : Prop :=
  ∀ (s : State) (t : Nat),
    let p := s.pkg
    let u := 2 ^ p.syncExp.toNat
    let x := s.tile t
    (p.syncMode ≠ 1 → exec .tsyncPulse s = .next s)
    ∧ (p.syncMode = 1 → p.syncLoad = true → exec .tsyncPulse s = .next { s with pkg := { p with loadNow := true, slewLeft := 0 } })
    ∧ (∀ (m : Nat) (dev : Int), p.syncMode = 1 → p.syncLoad = false → m % u = 0 → dev = (s.time : Int) - m →
        -(u : Int) ≤ 2 * dev → 2 * dev < u →
        ∃ s', exec .tsyncPulse s = .next s' ∧ s'.pkg.syncDev = BitVec.ofInt 32 dev ∧ s'.time = s.time ∧ s'.tiles = s.tiles ∧ s'.mem = s.mem
          ∧ (dev.natAbs ≤ p.syncWin.toNat → s'.pkg.syncLock = true ∧ s'.pkg.syncErr = p.syncErr
              ∧ s'.pkg.slewLeft = dev.natAbs * 65536 ∧ (s'.pkg.slewUp = true ↔ dev < 0))
          ∧ (p.syncWin.toNat < dev.natAbs → s'.pkg.syncLock = false ∧ s'.pkg.syncErr = true ∧ s'.pkg.slewLeft = 0))
    ∧ (0 < p.slewLeft → p.slewLeft % 65536 = 1 → ∃ s', exec .packageTimeSlew s = .next s' ∧ s'.ticks = s.ticks + 1
        ∧ s'.time = (if p.slewUp then s.time + 2 else s.time) ∧ s'.pkg.slewLeft = p.slewLeft - 1 ∧ s'.tiles = s.tiles ∧ s'.mem = s.mem)
    ∧ ((p.slewLeft = 0 ∨ p.slewLeft % 65536 ≠ 1) → exec .packageTimeSlew s = .next s)
    ∧ exec .tsyncOutPulse s = .next { s with pkg := { p with tsyncOut := decide (p.syncMode = 2 ∧ s.time % u < 16) } }
    ∧ (p.prev < x.press.last + (s.die (t / 64)).calint.toNat → x.press.last + (s.die (t / 64)).calint.toNat ≤ s.time →
        x.press.due = false →
        ∃ s', exec (.calibrationDue t) s = .next s' ∧ (s'.tile t).press = { x.press with due := true }
          ∧ (s'.tile t).store = x.store ∧ (s'.tile t).ctl = x.ctl ∧ (∀ v, v ≠ t → s'.tile v = s.tile v) ∧ s'.mem = s.mem)
    ∧ ((s.time < x.press.last + (s.die (t / 64)).calint.toNat ∨ x.press.due = true) → exec (.calibrationDue t) s = .next s)

/-- Accesses from outside (R131, R328, R368, R371, R373): the doorbell is an aligned 8-byte write at offset 0 of BAR0 with zero
reserved bits, which the FIFO of each running die takes, QTBASE.EN set or not; BAR2 + x is physical x in HBM, as far as BAR2 reaches;
a read of BAR0 answers zeros; a port serves HBM where IN is 1; an access that a link of its route holds waits, and those behind it at the same place too; an uncore
goes down. That an access takes effect whole at once, that its bytes are the next of the package's answers, no bytes where it fails,
and that a read of an uncorrectable codeword fails, is the model's choice (log 23). -/
def Obligations.OutsideAccesses : Prop :=
  ∀ (s : State) (off : BitVec 16) (data : List Byte) (b : BitVec 40) (a : BitVec 44) (wr : Bool) (port site : Nat),
    let v : DWord := BitVec.ofNat 64 (ofLe data)
    let n := data.length
    let answered (r : State) (bs : List Byte) : State := { r with pkg := { r.pkg with answers := r.pkg.answers ++ [bs] } }
    let waits (i : Inbound) : State := { s with pkg := { s.pkg with inbound := s.pkg.inbound ++ [i] } }
    let first (p : Option Nat) : Prop := ∀ j ∈ s.pkg.inbound, j.port ≠ p
    let bar (w : Bool) : Inbound := ⟨none, w, b.toNat, data⟩
    let fromPort (w : Bool) : Inbound := ⟨some port, w, a.toNat, data⟩
    let open_ : Prop := port < 8 ∧ (s.link (16 + port)).portIn = true ∧ a.toNat + n ≤ 2 ^ 40
    (off = 0 → n = 8 → v.toNat < 2 ^ 28 →
        ∃ s', exec (.doorbell off data) s = .next s' ∧ s'.tiles = s.tiles ∧ s'.mem = s.mem ∧ s'.pkg = s.pkg
          ∧ ∀ d, d < 8 → (s.dstate d ≠ 0 → s'.die d = s.die d)
            ∧ (s.dstate d = 0 → (s.die d).dbq.length < 64 → (s'.die d).dbq = (s.die d).dbq ++ [(v.extractLsb' 8 20, v.setWidth 8)]
              ∧ (s'.die d).ovf = (s.die d).ovf)
            ∧ (s.dstate d = 0 → 64 ≤ (s.die d).dbq.length → (s'.die d).dbq = (s.die d).dbq ∧ (s'.die d).ovf = true))
    ∧ s.readBar0 n = answered s (List.replicate n 0)
    ∧ ((off ≠ 0 ∨ n ≠ 8 ∨ 2 ^ 28 ≤ v.toNat) → ∃ s', exec (.doorbell off data) s = .next s' ∧ s'.mem = s.mem
        ∧ ∀ d, (s'.die d).dbq = (s.die d).dbq ∧ (s'.die d).ovf = (s.die d).ovf)
    ∧ (b.toNat + n ≤ 2 ^ 40 → b.toNat + n ≤ 2 ^ s.pkg.bar2 → first none → (∀ w, s.inboundHeld (bar w) = false) →
        (s.hbm = [] → exec (.bar2Access true b data) s = .next { s with mem := s.mem.write b.toNat data }
          ∧ exec (.bar2Access false b data) s = .next (answered s (s.mem.read b.toNat n)))
        ∧ (∀ r w, s.touchHbm b.toNat n = (r, some w) → exec (.bar2Access false b data) s = .next (answered r [])))
    ∧ ((2 ^ 40 < b.toNat + n ∨ 2 ^ s.pkg.bar2 < b.toNat + n) → first none → s.inboundHeld (bar wr) = false →
        exec (.bar2Access wr b data) s = .next (answered s []))
    ∧ ((¬first none ∨ s.inboundHeld (bar wr) = true) → exec (.bar2Access wr b data) s = .next (waits (bar wr)))
    ∧ (open_ → first (some port) → (∀ w, s.inboundHeld (fromPort w) = false) →
        (s.hbm = [] → exec (.portInboundAccess port true a data) s = .next { s with mem := s.mem.write a.toNat data }
          ∧ exec (.portInboundAccess port false a data) s = .next (answered s (s.mem.read a.toNat n)))
        ∧ (∀ r w, s.touchHbm a.toNat n = (r, some w) → exec (.portInboundAccess port false a data) s = .next (answered r [])))
    ∧ (¬open_ → first (some port) → s.inboundHeld (fromPort wr) = false →
        exec (.portInboundAccess port wr a data) s = .next (answered s []))
    ∧ ((¬first (some port) ∨ s.inboundHeld (fromPort wr) = true) →
        exec (.portInboundAccess port wr a data) s = .next (waits (fromPort wr)))
    ∧ (site < 9 → ∃ s', exec (.uncoreDown site) s = .next s' ∧ site ∈ s'.pkg.down ∧ s'.mem = s.mem ∧ s'.links = s.links
        ∧ ((∀ c ∈ s.copies, c.st ≠ .started ∧ c.st ≠ .held ∧ c.st ≠ .landed) → s'.copies = s.copies ∧ s'.tiles = s.tiles ∧ s'.parts = s.parts))

/-! ### Bring-up, host queues, the lease, the mailbox (R328-R345, R383, R386, R387) -/

/-- BRING_UP step by step, and FUNCTION_LEVEL_RESET (R386, R387). A mesh link that fails ends it at step 4; a port that fails does not. A reset
before step 7, or after a failed bring-up, repeats nothing. Which die fails a step is a free value (log 5), and so is how
long the first press takes beyond its words (log 65). That MSI-X is enabled at step 9, and not before, is the model's choice (log 34),
and so is that step 8 is complete once a die holds the lease (log 42), and that the patch store kept by step 7 is the store at its
largest, 0x100000 to 0x10815F, whatever its LEN (log 33). -/
def Obligations.BringUpSteps : Prop :=
  ∀ (s : State),
    (s.pkg.boot = 0 → ∃ s', exec .bringUp s = .next s' ∧ s'.tiles = s.tiles ∧ s'.parts = s.parts
        ∧ ((∀ n d, n < 4 → d < 8 → Config.stepFails n d = false) → s'.pkg.boot = 4 ∧ s'.time = 0 ∧ s'.mem.num 8 4 = 0
          ∧ ∀ k, (k < 12 ∨ (16 ≤ k ∧ k < 24)) → (s'.link k).st = .training)
        ∧ (∀ n, 0 < n → n < 4 → (∃ d, d < 8 ∧ Config.stepFails n d = true) → (∀ m d, 0 < m → m < n → d < 8 → Config.stepFails m d = false) →
          s'.pkg.boot = 11 ∧ s'.mem.num 8 4 = 0x80000000 + n
          ∧ ∀ d, d < 8 → Config.stepFails n d = true → s'.pkg.dreset.getLsbD d = true))
    ∧ (s.pkg.boot = 4 → (∃ k, k < 12 ∧ (s.link k).st = .failed) →
        ∃ s', exec .bringUp s = .next s' ∧ s'.pkg.boot = 11 ∧ s'.mem.num 8 4 = 0x80000004)
    ∧ (s.pkg.boot = 4 → (∀ k, k < 12 → (s.link k).st ≠ .failed) → (∃ k, (k < 12 ∨ (16 ≤ k ∧ k < 24)) ∧ (s.link k).st = .training) →
        exec .bringUp s = .next s)
    ∧ (s.pkg.boot = 4 → (∀ k, k < 12 → (s.link k).st ≠ .failed) → (∀ k, (k < 12 ∨ (16 ≤ k ∧ k < 24)) → (s.link k).st ≠ .training) →
        ∃ s', exec .bringUp s = .next s' ∧ ((∀ n d, 4 < n → n < 7 → d < 8 → Config.stepFails n d = false) →
          s'.pkg.boot = 6 ∧ s'.mem = s.mem ∧ s'.tiles = s.tiles ∧ ∀ d, d < 8 → ∃ n, s.ticks + 38400 ≤ n ∧ (s'.die d).pressAt = some n))
    ∧ (s.pkg.boot = 6 → (∃ d, d < 8 ∧ (s.die d).pressAt ≠ none) → exec .bringUp s = .next s)
    ∧ (s.pkg.boot = 6 → (∀ d, d < 8 → (s.die d).pressAt = none) →
        exec .bringUp s = .next { s with pkg := { s.pkg with boot := 7 } })
    ∧ (∀ d n, (s.die d).pressAt = some n → n ≤ s.ticks → s.pkg.boot < 10 →
        ((s.endPress d).die d).pressAt = none ∧ ∀ k, k < 64 → ((s.endPress d).tile (64 * d + k)).press.last = 0
          ∧ ((s.endPress d).tile (64 * d + k)).press.rows = 0 ∧ ((s.endPress d).tile (64 * d + k)).press.due = false)
    ∧ (s.pkg.boot = 7 → ∃ s', exec .bringUp s = .next s' ∧ s'.pkg.boot = 8 ∧ s'.pkg.leasepa = 0
        ∧ (∀ d, d < 8 → s.pkg.dreset.getLsbD d = false → (s'.fwc d).pc = 0 ∧ (s'.fwc d).exc = false ∧ (s'.fwc d).evec = 0)
        ∧ (∀ a, a < 7 → Mem.get1 s'.mem a = 0) ∧ Mem.get1 s'.mem 7 = 0xFF
        ∧ (∀ a, 8 ≤ a → a < 0x100000 → Mem.get1 s'.mem a = 0) ∧ (∀ a, 0x108160 ≤ a → a < 0x1000000 → Mem.get1 s'.mem a = 0)
        ∧ (∀ a, 0x100000 ≤ a → a < 0x108160 → Mem.get1 s'.mem a = Mem.get1 s.mem a)
        ∧ (∀ a, 0x1000000 ≤ a → Mem.get1 s'.mem a = Mem.get1 s.mem a) ∧ s'.tiles = s.tiles ∧ s'.links = s.links ∧ s'.time = s.time)
    ∧ (s.pkg.boot = 8 → (∃ d, d < 8 ∧ (s.die d).fe.lease ≠ none) →
        ∃ s', exec .bringUp s = .next s' ∧ s'.pkg.boot = 10 ∧ s'.pkg.mbxpa.toNat * 4096 = 0x1000
          ∧ 0x800000 * s'.pkg.qtbase.toNat = 0x800000 ∧ s'.pkg.qen = true ∧ s'.pkg.msixOn = true ∧ s'.mem = s.mem.write 8 [1, 0, 0, 0]
          ∧ ∀ d, (s'.die d).dbq = [] ∧ (s'.die d).ovf = false)
    ∧ (s.pkg.boot = 8 → (∀ d, d < 8 → (s.die d).fe.lease = none) → exec .bringUp s = .next s)
    ∧ (∃ s', exec .functionLevelReset s = .next s' ∧ s'.pkg.qen = false ∧ s'.pkg.ats = [] ∧ s'.pkg.msixOn = false
        ∧ s'.pkg.boot = (if s.pkg.boot < 7 ∨ s.pkg.boot = 11 then s.pkg.boot else 7)
        ∧ (∀ d, (s'.die d).dbq = [] ∧ (s'.die d).ovf = false ∧ (s'.die d).log = (s.die d).log ∧ (s'.die d).evc = (s.die d).evc)
        ∧ s'.links = s.links ∧ s'.time = s.time ∧ s'.mem = s.mem
        ∧ ((s.parts.map (·.1)).Pairwise (· < ·) → ∀ p, (s.part p).v = true → (s.part p).st ≠ .idle → (s.part p).st ≠ .done →
            (s.part p).st ≠ .aborted → (s'.part p).st = .aborted ∧ (s'.part p).launch.owed = false))

/-- A commit (R331, R333): the whole new slot into the slot that is not active, then SEL with ACT inverted and COUNT + 1; the
active slot is never written. A queue stops by a commit of STATE 2 and the cause. -/
def Obligations.QueueCommits : Prop :=
  ∀ (s : State) (qcb : Nat) (r : List Byte), qcb % 1024 = 0 → qcb + 1024 ≤ 2 ^ 40 → r.length = 256 →
    let sel := s.physNum qcb 8
    let s' := s.commit qcb r
    s'.qslot qcb = r
    ∧ s'.physNum qcb 8 % 2 = 1 - sel % 2 ∧ s'.physNum qcb 8 / 2 = (sel / 2 + 1) % 2 ^ 63
    ∧ (∀ a, (a < qcb ∨ qcb + 8 ≤ a) → (a < qcb + 0x100 + 0x100 * (1 - sel % 2) ∨ qcb + 0x200 + 0x100 * (1 - sel % 2) ≤ a) →
        Mem.get1 s'.mem a = Mem.get1 s.mem a)
    ∧ s'.tiles = s.tiles ∧ s'.dies = s.dies ∧ s'.parts = s.parts ∧ s'.pkg = s.pkg
    ∧ (∀ q x cause, s.qrun q = some x → x.qcb = qcb →
        let z := s.stopQueue q cause
        QSlot.state (z.qslot qcb) = 2 ∧ recNum (z.qslot qcb) 0x10 4 = cause.toNat
          ∧ QSlot.head (z.qslot qcb) = QSlot.head (s.qslot qcb) ∧ QSlot.leader (z.qslot qcb) = QSlot.leader (s.qslot qcb)
          ∧ QSlot.ring (z.qslot qcb) = QSlot.ring (s.qslot qcb) ∧ z.tiles = s.tiles ∧ z.parts = s.parts)

/-- The condition of a WAIT on the masked word (R335). -/
def Sys2Proof.Claims.pktMet (op : BitVec 2) (m value : DWord) : Prop :=
  (op = 0 ∧ m = value) ∨ (op = 1 ∧ m ≠ value) ∨ (op = 2 ∧ value.toNat ≤ m.toNat)

/-- What a packet of a queue starts from: a front end that is not in reset leads the queue, no link holds its QCB, the queue is not
stopped, a live context holds its PASID. -/
abbrev Sys2Proof.Claims.PacketReady (s : State) (q : QueueId) (c qcb : Nat) : Prop :=
  (∃ x, s.qrun q = some x ∧ x.qcb = qcb) ∧ q.die < 8 ∧ s.pkg.dreset.getLsbD q.die = false
    ∧ s.addrHeld (Config.dieSite q.die) qcb = false
    ∧ QSlot.state (s.qslot qcb) ≠ 2 ∧ s.ctxOf q.pasid = some c

/-- What a packet of a queue does whose access through its context answers `r`: it goes on where the access is made, stops the
queue with the access's cause where it fails (R333), is made again where a link holds it (R368; log 24). -/
def Sys2Proof.Claims.Answered {α : Type} (i : Instr) (s : State) (q : QueueId) (r : State.Front α) (done : State → α → State) : Prop :=
  (∀ m a, r = .ok (m, a) → exec i s = .next (done m a))
  ∧ (∀ m cause, r = .error (m, some cause) → exec i s = .next (m.stopQueue q cause))
  ∧ (∀ m, r = .error (m, none) → exec i s = .next m)

/-- Where a QCB lies whose slots can be committed. -/
abbrev Sys2Proof.Claims.QcbAt (qcb : Nat) : Prop := qcb % 1024 = 0 ∧ qcb + 1024 ≤ 2 ^ 40

/-- The start of a packet (R336): STATE 1 and WDDL 50 ms on, in one commit that changes no other field; a packet already in progress has
had it. -/
def Sys2Proof.Claims.PacketStarts : Prop :=
  ∀ (s : State) (q : QueueId) (x : QRun), s.qrun q = some x →
    let r := s.qslot x.qcb
    let u := s.begin_ q
    (x.wait ≠ none → u = s)
    ∧ (x.wait = none → QcbAt x.qcb → let v := u.qslot x.qcb
        u.qrun q = some { x with wait := some s.time } ∧ QSlot.wddl v = (s.time + 30000000) % 2 ^ 64 ∧ QSlot.state v = 1
        ∧ (∀ i, i < 256 → i ≠ 9 → (i < 0x18 ∨ 0x20 ≤ i) → v[i]? = r[i]?) ∧ u.qtail x.qcb = s.qtail x.qcb
        ∧ u.tiles = s.tiles ∧ u.pkg = s.pkg)

/-- The end of a packet of `n` bytes that edits nothing else (R330, R333, R334, R336): one commit in which HEAD, or the top entry of the
stack, moves past it, an entry with nothing left is popped, WDDL is 0, and STATE is 0 exactly where the queue stands at depth 0 with
HEAD at TAIL; no packet is in progress. -/
def Sys2Proof.Claims.PacketEnds : Prop :=
  ∀ (s : State) (q : QueueId) (x : QRun) (n : Nat), s.qrun q = some x → QcbAt x.qcb → n % 16 = 0 →
    let r := s.qslot x.qcb
    let k := QSlot.depth r
    let u := s.finish q n id
    let v := u.qslot x.qcb
    QSlot.wddl v = 0 ∧ (u.qrun q).map (fun y => (y.wait, y.pkt)) = some (none, [])
    ∧ QSlot.ring v = QSlot.ring r ∧ QSlot.rsize v = QSlot.rsize r ∧ QSlot.leader v = QSlot.leader r ∧ u.qtail x.qcb = s.qtail x.qcb
    ∧ (k = 0 → QSlot.head v = (QSlot.head r + n / 16) % 2 ^ 32 ∧ QSlot.depth v = 0
        ∧ QSlot.state v = (if (QSlot.head r + n / 16) % 2 ^ 32 = s.qtail x.qcb then 0 else 1))
    ∧ (0 < k → k ≤ 4 → n < QSlot.entryLeft r k → QSlot.head v = QSlot.head r ∧ QSlot.depth v = k ∧ QSlot.state v = 1
        ∧ QSlot.entryVa v k = (QSlot.entryVa r k + n) % 2 ^ 64 ∧ QSlot.entryLeft v k = QSlot.entryLeft r k - n)
    ∧ (1 < k → k ≤ 4 → n = QSlot.entryLeft r k → QSlot.entryLeft r (k - 1) ≠ 0 →
        QSlot.head v = QSlot.head r ∧ QSlot.depth v = k - 1 ∧ QSlot.state v = 1)
    ∧ (k = 1 → n = QSlot.entryLeft r 1 → QSlot.head v = QSlot.head r ∧ QSlot.depth v = 0
        ∧ QSlot.state v = (if QSlot.head r = s.qtail x.qcb then 0 else 1)
        ∧ ∀ m, m < 4 → (QSlot.timer v m).busy = (if x.owner = some m then false else (QSlot.timer r m).busy))

/-- WRITE, WAIT, FENCE and SIGNAL (R332, R333, R335): the packet starts, acts, and one commit moves past it; a misaligned address stops the
queue with 0x01, a failed access with its cause, a queue without a live context with `translation fault`. -/
def Sys2Proof.Claims.PacketRuns : Prop :=
  ∀ (s : State) (q : QueueId) (c qcb : Nat) (sz msi : Bool) (vec : BitVec 12) (va value mask : DWord) (op : BitVec 2),
    PacketReady s q c qcb →
    let u := s.begin_ q
    let n := if sz then 8 else 4
    let v := value.toNat % 2 ^ (8 * n)
    let sent (m : State) : State :=
      if msi = true ∧ m.pkg.msixOn = true then { m with pkg := { m.pkg with msix := m.pkg.msix ++ [vec] } } else m
    let owes : Prop := (∃ e ∈ s.parts, e.2.launch.owed = true ∧ e.2.launch.pasid = q.pasid ∧ e.2.launch.queue = q.queue)
      ∨ ∃ x ∈ s.pkg.owed, x.pasid = q.pasid ∧ x.queue = q.queue
    let met (bs : List Byte) : Prop := pktMet op (BitVec.ofNat 64 (ofLe bs) &&& mask) (BitVec.ofNat 64 v)
    (va.toNat % n ≠ 0 → vec.toNat < 2048 → op ≠ 3 → exec (.write q sz va value) s = .next (u.stopQueue q 0x01)
        ∧ exec (.wait q op sz va value mask) s = .next (u.stopQueue q 0x01)
        ∧ exec (.signalStore q sz msi vec va value) s = .next (u.stopQueue q 0x01)
        ∧ exec (.signalMax q sz msi vec va value) s = .next (u.stopQueue q 0x01))
    ∧ (2048 ≤ vec.toNat → exec (.signalStore q sz msi vec va value) s = .next (u.stopQueue q 0x01)
        ∧ exec (.signalMax q sz msi vec va value) s = .next (u.stopQueue q 0x01))
    ∧ (op = 3 → exec (.wait q op sz va value mask) s = .next (u.stopQueue q 0x01))
    ∧ (va.toNat % n = 0 →
        Answered (.write q sz va value) s q (u.frontWrite q.die c va.toNat false (leBytes n v)) (fun m _ => m.finish q 32 id)
        ∧ (op ≠ 3 →
            (∀ m bs, u.frontRead q.die c va.toNat n = .ok (m, bs) →
              (met bs → exec (.wait q op sz va value mask) s = .next (m.finish q 32 id))
              ∧ (¬met bs → exec (.wait q op sz va value mask) s =
                  .next (m.modRun q fun x => { x with pkt := State.waitBytes op sz va value mask })))
            ∧ (∀ m cause, u.frontRead q.die c va.toNat n = .error (m, some cause) →
              exec (.wait q op sz va value mask) s = .next (m.stopQueue q cause))
            ∧ (∀ m, u.frontRead q.die c va.toNat n = .error (m, none) → exec (.wait q op sz va value mask) s = .next m))
        ∧ (vec.toNat < 2048 →
            Answered (.signalStore q sz msi vec va value) s q (u.frontWrite q.die c va.toNat true (leBytes n v))
              (fun m _ => (sent m).finish q 32 id)
            ∧ (∀ m bs, u.frontRead q.die c va.toNat n = .ok (m, bs) →
                Answered (.signalMax q sz msi vec va value) s q (m.frontWrite q.die c va.toNat true (leBytes n (max v (ofLe bs))))
                  (fun m _ => (sent m).finish q 32 id))
            ∧ (∀ m cause, u.frontRead q.die c va.toNat n = .error (m, some cause) →
                exec (.signalMax q sz msi vec va value) s = .next (m.stopQueue q cause))
            ∧ (∀ m, u.frontRead q.die c va.toNat n = .error (m, none) → exec (.signalMax q sz msi vec va value) s = .next m)))
    ∧ (¬owes → exec (.fence q) s = .next (u.finish q 16 id))
    ∧ (owes → exec (.fence q) s = .next (u.modRun q fun x => { x with pkt := [6] }))

/-- A packet without a live context of its PASID stops its queue (R333); one whose QCB a link holds, or whose queue is stopped, does not
run (log 30). -/
def Sys2Proof.Claims.PacketsUnrun : Prop :=
  ∀ (s : State) (q : QueueId) (x : QRun) (sz : Bool) (va value : DWord),
    s.qrun q = some x → q.die < 8 → s.pkg.dreset.getLsbD q.die = false →
    let held := s.addrHeld (Config.dieSite q.die) x.qcb
    (held = false → QSlot.state (s.qslot x.qcb) ≠ 2 → (∀ e ∈ (s.begin_ q).ctxs, e.2.v = true → e.2.pasid ≠ q.pasid) →
        exec (.write q sz va value) s = .next ((s.begin_ q).stopQueue q 0x0E)
        ∧ exec (.fence q) s = .next ((s.begin_ q).stopQueue q 0x0E))
    ∧ (held = true ∨ QSlot.state (s.qslot x.qcb) = 2 → exec (.write q sz va value) s = .next s ∧ exec (.fence q) s = .next s)

/-- The packets of a queue that access memory or wait (R330, R332-R336): how a packet starts, ends, runs, and does not run. -/
def Obligations.QueuePackets : Prop :=
  Sys2Proof.Claims.PacketStarts ∧ Sys2Proof.Claims.PacketEnds ∧ Sys2Proof.Claims.PacketRuns ∧ Sys2Proof.Claims.PacketsUnrun

/-- TIMER, its cancellation, INDIRECT and TIMETABLE (R332-R334, R337-R339): a timer's record is replaced, a buffer pushed, a launch
accepted, refused with `door refused` or a load fault, or found to be its own. That a buffer length that is no multiple of 16 stops
the queue with 0x01 as a misaligned address does (R333), and so a length, or a period of zero, that R332 does not allow, is the
model's choice (log 39), and so are which launch a TIMETABLE executed again finds as its own (log 37), that an image is read, checked
and loaded within one step (log 27), what a failed read of it answers (log 24), and that a launch whose reads a link holds is tried
again from its start (log 30). -/
def Obligations.QueueLaunches : Prop :=
  ∀ (s : State) (q : QueueId) (c qcb : Nat) (n : BitVec 2) (per : Bool) (period bytes32 : Word) (time ib bytes va : DWord)
    (part : BitVec 8) (res : Bool) (image len src save status : DWord),
    PacketReady s q c qcb →
    let u := s.begin_ q
    let k : State.Packet := ⟨q.pasid, q.queue, QSlot.head (u.qslot qcb), part.toNat, res, image.toNat, len.toNat, src.toNat, save.toNat, status.toNat⟩
    let l := (u.part part.toNat).launch
    let own : Prop := l.fresh = true ∧ l.pasid = q.pasid ∧ l.queue = q.queue ∧ l.head = k.head
    let answer4 (m : State) (w : DWord) : State :=
      m.storeStatus ⟨((m.part part.toNat).diesOf).headD q.die, q.pasid, q.queue, status.toNat, 0, w⟩
    let at_ := (u.part part.toNat).v = true ∧ (u.part part.toNat).st.atRest = true ∧ (u.part part.toNat).ctx.toNat = c
    (ib.toNat % 16 = 0 → bytes.toNat % 16 = 0 → 16 ≤ bytes.toNat → bytes.toNat ≤ 2 ^ 24 → (per = true → period ≠ 0) →
        exec (.timer q n per period time ib bytes) s = .next (u.finish q 32 fun r =>
          QSlot.setTimer r n.toNat ⟨true, per, (QSlot.timer r n.toNat).busy, period.toNat, time.toNat, ib.toNat, bytes.toNat,
            (QSlot.timer r n.toNat).miss, 0⟩))
    ∧ ((ib.toNat % 16 ≠ 0 ∨ bytes.toNat % 16 ≠ 0 ∨ bytes.toNat < 16 ∨ 2 ^ 24 < bytes.toNat ∨ (per = true ∧ period = 0)) →
        exec (.timer q n per period time ib bytes) s = .next (u.stopQueue q 0x01))
    ∧ exec (.timerCancel q n) s = .next (u.finish q 32 fun r =>
        QSlot.setTimer r n.toNat { QSlot.timer r n.toNat with armed := false, pend := 0 })
    ∧ (va.toNat % 16 = 0 → bytes32.toNat % 16 = 0 → QSlot.depth (u.qslot qcb) < 4 →
        exec (.indirect q bytes32 va) s = .next (u.finish q 16 fun r =>
          QSlot.setEntry (QSlot.setDepth r (QSlot.depth (u.qslot qcb) + 1)) (QSlot.depth (u.qslot qcb) + 1) va.toNat bytes32.toNat))
    ∧ (va.toNat % 16 = 0 → bytes32.toNat % 16 = 0 → QSlot.depth (u.qslot qcb) = 4 →
        exec (.indirect q bytes32 va) s = .next (u.stopQueue q 0x16))
    ∧ ((va.toNat % 16 ≠ 0 ∨ bytes32.toNat % 16 ≠ 0) → exec (.indirect q bytes32 va) s = .next (u.stopQueue q 0x01))
    ∧ (status.toNat % 8 = 0 → own → exec (.timetable q part res image len src save status) s = .next (u.finish q 48 id))
    ∧ (status.toNat % 8 = 0 → ¬own → ¬at_ → exec (.timetable q part res image len src save status) s =
        .next ((answer4 u 0x0418000000000000).finish q 48 id))
    ∧ (status.toNat % 8 = 0 → ¬own → at_ →
        (∀ m, u.readImage q.die c k = some (m, none) → exec (.timetable q part res image len src save status) s =
          .next ((answer4 m 0x0417000000000000).finish q 48 id))
        ∧ (∀ m img r cause, u.readImage q.die c k = some (m, some img) → m.acceptTimetable q.die c k img = .error (r, some cause) →
          exec (.timetable q part res image len src save status) s = .next ((answer4 r 0x0417000000000000).finish q 48 id))
        ∧ (∀ m img r, u.readImage q.die c k = some (m, some img) → m.acceptTimetable q.die c k img = .error (r, none) →
          exec (.timetable q part res image len src save status) s = .next u)
        ∧ (∀ r m img, u.readImage q.die c k = some (r, some img) → r.acceptTimetable q.die c k img = .ok (m, ()) →
          exec (.timetable q part res image len src save status) s = .next (m.finish q 48 id)
          ∧ (m.part part.toNat).st = .armed ∧ (res = false → (m.part part.toNat).phase = 0)
          ∧ (m.part part.toNat).launch = ⟨q.pasid, q.queue, k.head, k.save, k.status, true, true⟩
          ∧ ∃ o, (m.part part.toNat).next = some o ∧ r.time + 1024 ≤ o)
        ∧ (u.readImage q.die c k = none → exec (.timetable q part res image len src save status) s = .next u))
    ∧ (status.toNat % 8 ≠ 0 → exec (.timetable q part res image len src save status) s = .next (u.stopQueue q 0x01))

/-- What a front end does at its ticks (R328, R329, R335, R336, R340, R343): a WAIT in progress reads its word again at a slot
boundary, and completes or goes on; the watchdog stops a queue; the timers are visited at a slot boundary, queue by queue in the order of
PASID and queue number, in which a front end keeps the queues it leads; a doorbell is served by
the die that leads the queue, the lease holder gives a queue without a leader to the lowest running die; a drained or throttled
leader gives its queue away between packets, the lease holder the queue of a die in reset. A slot boundary is a multiple of 600 that
package time reaches or steps over since the tick before (log 41); a front end serves one doorbell in a tick (log 37); what a link holds
of these waits: a walk of the queue table is made again in the next tick, and the timers of a queue whose QCB is held are visited later
for each boundary that it missed (log 30). -/
def Obligations.QueueEvents : Prop :=
  ∀ (s : State) (q : QueueId) (d : Nat) (x : QRun),
    let boundary : Prop := s.time / 600 ≠ s.pkg.prev / 600
    let r := s.qslot x.qcb
    (s.qrun q = some x → x.wait ≠ none → QSlot.wddl r ≠ 0 → QSlot.wddl r ≤ s.time →
        exec (.queueWatchdog q) s = .next (s.stopQueue q 0x19))
    ∧ (s.qrun q = some x → (x.wait = none ∨ QSlot.wddl r = 0 ∨ s.time < QSlot.wddl r) → exec (.queueWatchdog q) s = .next s)
    ∧ (∀ op sz va value mask c, s.qrun q = some x → x.wait ≠ none → x.pkt = State.waitBytes op sz va value mask → boundary →
        PacketReady s q c x.qcb → op ≠ 3 → va.toNat % (if sz then 8 else 4) = 0 →
        let n := if sz then 8 else 4
        let met (bs : List Byte) : Prop :=
          pktMet op (BitVec.ofNat 64 (ofLe bs) &&& mask) (BitVec.ofNat 64 (value.toNat % 2 ^ (8 * n)))
        (∀ m bs, s.frontRead q.die c va.toNat n = .ok (m, bs) →
          (met bs → exec (.waitSlotCheck q) s = .next (m.finish q 32 id))
          ∧ (¬met bs → exec (.waitSlotCheck q) s = .next (m.modRun q fun y => { y with
              pkt := State.waitBytes op sz va value mask })))
        ∧ (∀ m cause, s.frontRead q.die c va.toNat n = .error (m, some cause) →
          exec (.waitSlotCheck q) s = .next (m.stopQueue q cause))
        ∧ (∀ m, s.frontRead q.die c va.toNat n = .error (m, none) → exec (.waitSlotCheck q) s = .next m))
    ∧ ((s.qrun q = none ∨ (s.qrun q = some x ∧ x.wait = none)) → exec (.waitSlotCheck q) s = .next s)
    ∧ (¬boundary → exec (.waitSlotCheck q) s = .next s)
    ∧ (boundary → d < 8 → s.pkg.dreset.getLsbD d = false → (∀ y ∈ (s.die d).fe.runs, y.q.die = d) → ((s.die d).fe.runs.map (·.q)).Nodup →
        let visit (b n : Nat) (v : List Byte) : List Byte := QSlot.setTimer v n (State.visitTimer b (QSlot.timer v n))
        let all (v : List Byte) (b : Nat) : List Byte := visit b 3 (visit b 2 (visit b 1 (visit b 0 v)))
        let held (y : QRun) : Bool := s.addrHeld (Config.dieSite d) y.qcb
        let seen (y : QRun) : List Nat := y.slots ++ [s.time / 600 * 600]
        let step (m : State) (y : QRun) : State :=
          let new := (seen y).foldl all (m.qslot y.qcb)
          if held y = true ∨ new = m.qslot y.qcb then m else m.commit y.qcb new
        ∃ s', exec (.timerSlotBoundary d) s = .next s' ∧ s'.mem = ((s.die d).fe.runs.foldl step s).mem ∧ s'.tiles = s.tiles
          ∧ s'.parts = s.parts ∧ s'.pkg = s.pkg ∧ (∀ e, e ≠ d → s'.die e = s.die e)
          ∧ (s'.die d).fe.runs = (s.die d).fe.runs.map fun y => { y with slots := if held y then seen y else [] })
    ∧ (∀ qcb, let key (y : QRun) : Nat := 256 * y.q.pasid.toNat + y.q.queue.toNat
        (s.die q.die).fe.runs.Pairwise (fun a b => key a ≤ key b) → ((s.startRun q qcb).die q.die).fe.runs.Pairwise fun a b => key a ≤ key b)
    ∧ (¬boundary → (∀ y ∈ (s.die d).fe.runs, y.slots = []) → exec (.timerSlotBoundary d) s = .next s)
    ∧ (∀ (b : Nat) (t : QSlot.Timer),
        let due := t.armed = true ∧ t.next ≤ b
        let after : Bool × Nat := if due then (if t.per then (true, (t.next + 600 * t.period) % 2 ^ 64) else (false, t.next)) else (t.armed, t.next)
        let v := State.visitTimer b t
        (v.per = t.per ∧ v.period = t.period ∧ v.ib = t.ib ∧ v.bytes = t.bytes)
        ∧ (t.busy = true → v.busy = true ∧ v.miss = t.miss ∧ v.pend = (if due then min (t.pend + 1) 65535 else t.pend) ∧ (v.armed, v.next) = after)
        ∧ (t.busy = false → (0 < t.pend ∨ due) → v.busy = true ∧ v.miss = t.pend ∧ v.pend = 0 ∧ (v.armed, v.next) = after)
        ∧ (t.busy = false → t.pend = 0 → ¬due → v = t))
    ∧ (∀ p qn rest m qcb, d < 8 → s.pkg.dreset.getLsbD d = false → s.pkg.qen = true → (s.die d).dbq = (p, qn) :: rest → (s.die d).ovf = false →
        (s.die d).fe.rescan = false → (s.die d).fe.serve = [] → s.qrun ⟨d, p, qn⟩ = none → s.queueHeld d p.toNat qn.toNat = false →
        s.walkQueue p.toNat qn.toNat = some (m, qcb) →
        ∃ s', exec (.doorbellService d) s = .next s' ∧ (s'.die d).dbq = rest ∧ s'.tiles = s.tiles ∧ s'.parts = s.parts
          ∧ (QSlot.leader (m.qslot qcb) = d → (s'.qrun ⟨d, p, qn⟩).map (·.qcb) = some qcb ∧ s'.mem = m.mem)
          ∧ (QSlot.leader (m.qslot qcb) ≠ d → (QSlot.leader (m.qslot qcb) ≠ 0xFF ∨ s.isLeader d = false) →
              (s'.die d).fe.runs = (s.die d).fe.runs ∧ s'.mem = m.mem)
          ∧ (∀ e, QSlot.leader (m.qslot qcb) = 0xFF → s.isLeader d = true → s.lowestRunning = some e →
              s'.mem = (m.commit qcb (QSlot.setLeader (m.qslot qcb) e)).mem
              ∧ (e ≠ d → ⟨e, p, qn⟩ ∈ (s'.die e).fe.serve ∧ (s'.die d).fe.runs = (s.die d).fe.runs)
              ∧ (e = d → (s'.qrun ⟨d, p, qn⟩).map (·.qcb) = some qcb)))
    ∧ (∀ p qn rest, d < 8 → s.pkg.dreset.getLsbD d = false → s.pkg.qen = true → (s.die d).dbq = (p, qn) :: rest → (s.die d).ovf = false →
        (s.die d).fe.rescan = false → (s.die d).fe.serve = [] → s.queueHeld d p.toNat qn.toNat = true →
        ∃ s', exec (.doorbellService d) s = .next s' ∧ (s'.die d).dbq = rest ∧ (s'.die d).fe.serve = [⟨d, p, qn⟩] ∧ s'.mem = s.mem
          ∧ s'.tiles = s.tiles ∧ s'.parts = s.parts)
    ∧ (d < 8 → s.pkg.dreset.getLsbD d = false → s.pkg.qen = false →
        exec (.doorbellService d) s = .next (s.modDie d fun y => { y with dbq := y.dbq.drop 1, ovf := false }))
    ∧ ((8 ≤ d ∨ s.pkg.dreset.getLsbD d = true) → exec (.doorbellService d) s = .next s)
    ∧ (s.queueHeld q.die q.pasid.toNat q.queue.toNat = true → exec (.queueLeaderMove q) s = .next s)
    ∧ (s.queueHeld q.die q.pasid.toNat q.queue.toNat = false → s.walkQueue q.pasid.toNat q.queue.toNat = none →
        exec (.queueLeaderMove q) s = .next (s.markTable q.pasid.toNat))
    ∧ (∀ m qcb, s.queueHeld q.die q.pasid.toNat q.queue.toNat = false → s.walkQueue q.pasid.toNat q.queue.toNat = some (m, qcb) →
        let l := QSlot.leader (m.qslot qcb)
        let given (e : Nat) : State := ((m.commit qcb (QSlot.setLeader (m.qslot qcb) e)).modRuns l fun rs =>
          rs.filter fun y => y.q != { q with die := l }).handOver q e
        let between : Prop := ∀ y, s.qrun { q with die := l } = some y → y.wait = none
        let held : Prop := ∃ a, a < 8 ∧ s.isLeader a = true
        (∀ e, l < 8 → (s.dstate l = 2 ∨ s.dstate l = 3) → between → s.lowestRunning = some e →
          exec (.queueLeaderMove q) s = .next (given e))
        ∧ (∀ e, l < 8 → s.dstate l = 1 → held → s.lowestRunning = some e → exec (.queueLeaderMove q) s = .next (given e))
        ∧ ((8 ≤ l ∨ s.dstate l = 0 ∨ ((s.dstate l = 2 ∨ s.dstate l = 3) ∧ ¬between) ∨ (s.dstate l = 1 ∧ ¬held) ∨ s.lowestRunning = none) →
          exec (.queueLeaderMove q) s = .next m))

/-- The lease (R341, R342): renewal by the holder, its end, the takeover in a die's slot 1 ms after E. An ACAS that a link holds is made
later, and a takeover not in this round (log 30); a lease word that ECC cannot correct fails the holder's ACAS and lets no die take over
(log 68). -/
def Obligations.LeaseEvents : Prop :=
  ∀ (s : State) (d : Nat), d < 8 → s.pkg.leasepa.toNat * 8 + 8 ≤ 2 ^ 40 → s.pkg.dreset.getLsbD d = false →
    let a := s.pkg.leasepa.toNat * 8
    let held := s.addrHeld (Config.dieSite d) a
    let w : DWord := BitVec.ofNat 64 (s.mem.num a 8)
    let new : DWord := BitVec.ofNat 64 (d * 2 ^ 56 + (s.time + 6000000) / 16 % 2 ^ 52)
    let running : Prop := (s.die d).drain = false ∧ (s.die d).cur = 0
    (∀ old, (s.die d).fe.lease = some old → held = false → s.hbm = [] → running → w = old →
        ∃ s', exec (.leaseRenew d) s = .next s' ∧ s'.mem = s.mem.write a (leBytes 8 new.toNat) ∧ (s'.die d).fe.lease = some new
          ∧ (s'.die d).fe.acting = true ∧ (∀ e, e ≠ d → s'.die e = s.die e) ∧ s'.tiles = s.tiles ∧ s'.parts = s.parts)
    ∧ (∀ old, (s.die d).fe.lease = some old → held = false → s.hbm = [] → running → w ≠ old →
        ∃ s', exec (.leaseRenew d) s = .next s' ∧ s'.mem = s.mem ∧ (s'.die d).fe.lease = none ∧ (s'.die d).fe.acting = false)
    ∧ (∀ old, (s.die d).fe.lease = some old → held = false → s.hbm = [] → ¬running → w = old →
        ∃ s', exec (.leaseRenew d) s = .next s' ∧ s'.mem = s.mem.write a [0, 0, 0, 0, 0, 0, 0, 0xFF] ∧ (s'.die d).fe.lease = none
          ∧ (s'.die d).fe.acting = false ∧ ∀ e, e < 8 → ∃ n, s.ticks ≤ n ∧ (s'.die e).sevs = (s.die e).sevs ++ [n])
    ∧ (∀ old r m, (s.die d).fe.lease = some old → held = false → running → s.touchHbm a 8 = (r, some m) →
        ∃ s', exec (.leaseRenew d) s = .next s' ∧ s'.mem = s.mem ∧ (s'.die d).fe.lease = none ∧ (s'.die d).fe.acting = false)
    ∧ (held = true → exec (.leaseRenew d) s = .next s ∧ exec (.leaseTakeover d) s = .next s)
    ∧ (∀ r m, running → (s.die d).fe.lease = none → held = false → s.touchHbm a 8 = (r, some m) →
        ∃ s', exec (.leaseTakeover d) s = .next s' ∧ s'.mem = s.mem ∧ (s'.die d).fe.lease = none)
    ∧ ((s.die d).fe.lease = none → exec (.leaseRenew d) s = .next s)
    ∧ (∀ v, (s.die d).fe.lease = some v → 16 * (v.toNat % 2 ^ 52) ≤ s.time →
        ∃ s', exec (.leaseExpiry d) s = .next s' ∧ (s'.die d).fe.acting = false ∧ (s'.die d).fe.lease = some v ∧ s'.mem = s.mem
          ∧ s'.isLeader d = false)
    ∧ (∀ v, (s.die d).fe.lease = some v → s.time < 16 * (v.toNat % 2 ^ 52) → exec (.leaseExpiry d) s = .next s)
    ∧ (running → (s.die d).fe.lease = none → held = false → s.hbm = [] → s.pkg.prev + 1 = s.time → s.time % 60000 = 6000 * d →
        16 * (w.toNat % 2 ^ 52) + 600000 ≤ s.time →
        ∃ s', exec (.leaseTakeover d) s = .next s' ∧ s'.mem = s.mem.write a (leBytes 8 new.toNat) ∧ (s'.die d).fe.lease = some new
          ∧ (s'.die d).fe.acting = true ∧ (∀ e, e ≠ d → s'.die e = s.die e) ∧ s'.tiles = s.tiles)
    ∧ (s.hbm = [] → (s.time < 16 * (w.toNat % 2 ^ 52) + 600000 ∨ (s.pkg.prev + 1 = s.time ∧ s.time % 60000 ≠ 6000 * d)) →
        exec (.leaseTakeover d) s = .next s)

/-- The code of a mailbox request (R344, R383). -/
def Sys2Proof.Claims.mailboxCode : Instr → Option (Nat × Nat × Nat)
  | .create d e => some (d, e, 1)
  | .destroy d e => some (d, e, 2)
  | .map d e => some (d, e, 3)
  | .context d e => some (d, e, 4)
  | .inval d e => some (d, e, 5)
  | .preempt d e => some (d, e, 6)
  | .qreset d e => some (d, e, 7)
  | .attest d e => some (d, e, 8)
  | _ => none

/-- The leader finds a request in an entry: SEQ differs from ACK, REQ is its code, no answer is outstanding, no link holds the mailbox, and
no codeword of memory has an inverted bit. -/
abbrev Sys2Proof.Claims.Asked (s : State) (d e code : Nat) : Prop :=
  s.isLeader d = true ∧ e < 16 ∧ s.physNum (s.mbxAt e) 4 ≠ s.physNum (s.mbxAt e + 8) 4 ∧ s.physNum (s.mbxAt e + 4) 1 = code
    ∧ (∀ p ∈ s.parts, e ∉ p.2.preempt) ∧ (∀ r ∈ s.pkg.replies, r.1 ≠ e) ∧ (∀ l, (s.die d).fe.inval ≠ some (e, l))
    ∧ s.addrHeld (Config.dieSite d) (s.mbxAt 0) = false ∧ s.hbm = []

/-- One granule of MAP (R324): its entry is written in the leaf that its directory entry names, or in the lowest leaf of the pool that no
directory entry names, which the directory then names; a malformed entry, or no leaf left, refuses it. -/
def Sys2Proof.Claims.MapGranule : Prop :=
  ∀ (s : State) (q : Part) (va ent : Nat), va % 0x200000 = 0 → va < 2 ^ 52 → s.hbm = [] →
    let base := 0x200000 * q.rgn.toNat
    let dir := base + 8 * (va / 2 ^ 36)
    let d := s.physNum dir 8
    let at_ (k : Nat) : Nat := base + 0x80000 + 0x40000 * k + 8 * (va / 2 ^ 21 % 2 ^ 15)
    let bad (e : Nat) : Prop := 3 < e / 2 ^ 59 % 8 ∨ 64 * q.diesOf.length ≤ e / 2 ^ 50 % 512
    let named (k : Nat) : Prop := ∃ i, i < 65536 ∧ s.physNum (base + 8 * i) 8 = 2 ^ 63 + k
    let wellFormed : Prop := ∀ i, i < 65536 → let e := s.physNum (base + 8 * i) 8
      e / 2 ^ 12 % 2 ^ 51 = 0 ∧ (2 ^ 63 ≤ e → e % 2 ^ 12 < q.nleaf.toNat)
    (d / 2 ^ 12 % 2 ^ 51 ≠ 0 ∨ (2 ^ 63 ≤ d ∧ q.nleaf.toNat ≤ d % 2 ^ 12) → State.mapGranule s q va ent = none)
    ∧ (∀ k, d = 2 ^ 63 + k → k < q.nleaf.toNat → k < 2 ^ 12 →
        (bad (s.physNum (at_ k) 8) → State.mapGranule s q va ent = none)
        ∧ (¬bad (s.physNum (at_ k) 8) → State.mapGranule s q va ent = some (s.physWrite (at_ k) (leBytes 8 ent))))
    ∧ (base + 0x80000 + 0x40000 * q.nleaf.toNat ≤ 2 ^ 40 → wellFormed → d < 2 ^ 12 →
        (∀ k, k < q.nleaf.toNat → ¬named k → (∀ j, j < k → named j) → ¬bad (s.physNum (at_ k) 8) →
          State.mapGranule s q va ent = some ((s.physWrite dir (leBytes 8 (2 ^ 63 + k))).physWrite (at_ k) (leBytes 8 ent)))
        ∧ ((∀ k, k < q.nleaf.toNat → named k) → State.mapGranule s q va ent = none))

/-- The mailbox (R344, R345, R383): only the leader serves it, an entry whose SEQ equals ACK waits, an answer writes RES and
then ACK := SEQ; CREATE and DESTROY write the configuration registers, CONTEXT writes CTXE, MAP the entries of COUNT granules, all or none,
INVAL removes the translations of a slot or of one page, PREEMPT waits for its boundary, QRESET commits an empty queue, ATTEST writes the
report. MAILBOX_SCAN does what the entry that asks calls for. That arguments outside their fields are refused with 0x18, a partition
number of 8 or more among them, and that CONTEXT leaves its slot in CTXSEL, is the model's choice (log 40); so is a request that a link
holds and that stays asked (log 30), an entry that ECC cannot correct and that is not served, and ROOT as a byte address (log 68). -/
def Sys2Proof.Claims.MailboxRule : Prop :=
  ∀ (s : State) (d e : Nat),
    let arg (off n : Nat) : Nat := s.physNum (s.mbxAt e + 16 + off) n
    let p := arg 0 1
    let scan : Prop := (s.die d).fe.scan = false ∧ s.addrHeld (Config.dieSite d) (s.mbxAt 0) = false
    let answers (i : Instr) (r : Option State) : Prop :=
      exec i s = .next (match r with | some m => m.answer e 0 | none => s.answer e 0x18)
    (∀ i c, mailboxCode i = some (d, e, c) →
        (s.isLeader d = false ∨ s.physNum (s.mbxAt e) 4 = s.physNum (s.mbxAt e + 8) 4 ∨ s.physNum (s.mbxAt e + 4) 1 ≠ c) → exec i s = .next s)
    ∧ (∀ i c, mailboxCode i = some (d, e, c) → s.addrHeld (Config.dieSite d) (s.mbxAt 0) = true → exec i s = .next s)
    ∧ (∀ i c, mailboxCode i = some (d, e, c) → (s.touchHbm (s.mbxAt e) 256).2 ≠ none → exec i s = .next s)
    ∧ (s.mbxAt e + 256 ≤ 2 ^ 40 → ∀ res, (s.answer e res).mem =
        (s.mem.write (s.mbxAt e + 12) (leBytes 4 res)).write (s.mbxAt e + 8) (leBytes 4 (s.mem.num (s.mbxAt e) 4)))
    ∧ (Asked s d e 1 → p < 8 → arg 8 8 % 0x200000 = 0 → arg 24 8 % 0x200000 = 0 → arg 8 8 < 2 ^ 44 → arg 24 8 < 2 ^ 44 → arg 16 2 ≤ 4096 →
        arg 4 4 < 2 ^ 24 → answers (.create d e) (s.configure d p [
          (0x46, BitVec.ofNat 64 (arg 8 8 + arg 16 2)), (0x47, BitVec.ofNat 64 (arg 24 8)),
          (0x45, BitVec.ofNat 64 (2 ^ 63 + arg 1 1 * 2 ^ 48 + arg 4 4 * 2 ^ 24 + arg 2 1)) ]))
    ∧ (Asked s d e 1 → (8 ≤ p ∨ arg 8 8 % 0x200000 ≠ 0 ∨ arg 24 8 % 0x200000 ≠ 0 ∨ 2 ^ 44 ≤ arg 8 8 ∨ 2 ^ 44 ≤ arg 24 8 ∨ 4096 < arg 16 2
        ∨ 2 ^ 24 ≤ arg 4 4) → answers (.create d e) none)
    ∧ (Asked s d e 2 → p < 8 → answers (.destroy d e) (s.configure d p [(0x45, 0#8 ++ (s.part p).ctx ++ (s.part p).slim ++ 0#16 ++ (s.part p).dies)]))
    ∧ (Asked s d e 2 → 8 ≤ p → answers (.destroy d e) none)
    ∧ (Asked s d e 3 → p < 8 → (s.part p).active = false → (arg 2 2 = 0xFFFF ∨ arg 2 2 < 64 * (s.part p).diesOf.length) →
        let va := 0x200000 * (arg 8 8 / 0x200000)
        let pool := 0x200000 * (s.part p).rgn.toNat
        let held (a : Nat) : Bool := s.addrHeld (Config.dieSite d) a
        va + 0x200000 * arg 4 4 ≤ 2 ^ 52 →
        let ent : Nat := 2 ^ 63 + (if arg 1 1 ≠ 0 then 2 ^ 62 else 0) + (if arg 1 1 ≠ 0 ∨ arg 2 2 = 0xFFFF then 3 * 2 ^ 59 else 0)
          + (if arg 2 2 = 0xFFFF then 0 else 2 ^ 50 * arg 2 2)
        (held pool = false → held (pool + 0x80000 + 0x40000 * (s.part p).nleaf.toNat - 1) = false → answers (.map d e)
          ((List.range (arg 4 4)).foldl (fun r i => r.bind fun m => State.mapGranule m (s.part p) (va + 0x200000 * i) ent) (some s)))
        ∧ (held pool = true → exec (.map d e) s = .next s))
    ∧ (Asked s d e 3 → (8 ≤ p ∨ (s.part p).active = true ∨ (arg 2 2 ≠ 0xFFFF ∧ 64 * (s.part p).diesOf.length ≤ arg 2 2)
        ∨ 2 ^ 52 < 0x200000 * (arg 8 8 / 0x200000) + 0x200000 * arg 4 4) → answers (.map d e) none)
    ∧ (Asked s d e 4 → arg 4 4 < 2 ^ 20 → arg 8 8 % 0x10000 = 0 → arg 8 8 < 2 ^ 44 → answers (.context d e)
        ({ s with pkg := { s.pkg with ctxsel := BitVec.ofNat 8 p } }.writeCtx p
          (BitVec.ofNat 64 ((if arg 1 1 ≠ 0 then 2 ^ 63 else 0) + arg 4 4 * 2 ^ 36 + arg 8 8 / 0x10000))))
    ∧ (Asked s d e 4 → (2 ^ 20 ≤ arg 4 4 ∨ arg 8 8 % 0x10000 ≠ 0 ∨ 2 ^ 44 ≤ arg 8 8) → answers (.context d e) none)
    ∧ (Asked s d e 5 → arg 1 1 = 0 → 2 ^ 52 ≤ arg 8 8 → answers (.inval d e) none)
    ∧ (Asked s d e 5 → arg 1 1 = 0 → arg 8 8 < 2 ^ 52 → s.copies = [] →
        let hit (x : TluEnt) : Prop := x.ctx = p ∧ x.va ≤ arg 8 8 ∧ arg 8 8 < x.va + x.size
        ∃ s', exec (.inval d e) s = .next s' ∧ (∀ k x, x ∈ (s'.die k).tlu → ¬hit x) ∧ (∀ k x, x ∈ (s.die k).tlu → ¬hit x → x ∈ (s'.die k).tlu)
          ∧ s'.mem = (s.answer e 0).mem)
    ∧ (∀ k x c, Asked s d e 5 → arg 1 1 ≠ 0 → x ∈ (s.die k).tlu → x.ctx = p → c ∈ s.copies → (∃ y ∈ c.pages, y.2.2.2.2 = x.id) →
        ∃ s' l, exec (.inval d e) s = .next s' ∧ (s'.die d).fe.inval = some (e, l) ∧ x.id ∈ l ∧ s'.mem = s.mem)
    ∧ (Asked s d e 5 → arg 1 1 ≠ 0 → s.copies = [] → ∃ s', exec (.inval d e) s = .next s' ∧ (∀ k x, x ∈ (s'.die k).tlu → x.ctx ≠ p)
        ∧ (∀ k x, x ∈ (s.die k).tlu → x.ctx ≠ p → x ∈ (s'.die k).tlu) ∧ s'.mem = (s.answer e 0).mem)
    ∧ (Asked s d e 6 → p < 8 → (s.part p).v = true → (s.part p).launch.save ≠ 0 →
        ((s.part p).st = .armed ∨ (s.part p).st = .open_ ∨ (s.part p).st = .extended ∨ (s.part p).st = .held ∨ (s.part p).st = .boundary) →
        exec (.preempt d e) s = .next (s.setPart p { s.part p with preempt := (s.part p).preempt ++ [e] }))
    ∧ (Asked s d e 6 → (8 ≤ p ∨ (s.part p).launch.save = 0 ∨ (s.part p).v = false ∨ (s.part p).st ∈ [PState.idle, .done, .aborted, .saving]) →
        answers (.preempt d e) none)
    ∧ (Asked s d e 7 → 2 ^ 20 ≤ arg 4 4 → answers (.qreset d e) none)
    ∧ (Asked s d e 7 → arg 4 4 < 2 ^ 20 → s.queueHeld d (arg 4 4) p = true → exec (.qreset d e) s = .next s)
    ∧ (Asked s d e 7 → arg 4 4 < 2 ^ 20 → s.queueHeld d (arg 4 4) p = false → s.walkQueue (arg 4 4) p = none →
        exec (.qreset d e) s = .next ((s.markTable (arg 4 4)).answer e 0x18))
    ∧ (∀ m qcb, Asked s d e 7 → arg 4 4 < 2 ^ 20 → s.queueHeld d (arg 4 4) p = false → s.walkQueue (arg 4 4) p = some (m, qcb) → qcb + 1024 ≤ 2 ^ 40 → qcb % 1024 = 0 →
        (s.mbxAt e + 256 ≤ qcb ∨ qcb + 1024 ≤ s.mbxAt e) → s.mbxAt e + 256 ≤ 2 ^ 40 → ∃ s', exec (.qreset d e) s = .next s'
          ∧ QSlot.state (s'.qslot qcb) = 0 ∧ QSlot.depth (s'.qslot qcb) = 0 ∧ QSlot.head (s'.qslot qcb) = m.qtail qcb
          ∧ QSlot.wddl (s'.qslot qcb) = 0 ∧ recNum (s'.qslot qcb) 0x10 4 = 0
          ∧ (∀ n, n < 4 → QSlot.timer (s'.qslot qcb) n = QSlot.timer (m.qslot qcb) n))
    ∧ (Asked s d e 8 → arg 48 8 % 8 = 0 → arg 48 8 + 0x2E8 ≤ 2 ^ 40 → s.storeRefused (arg 48 8) 0x2E8 = false →
        s.addrHeld (Config.dieSite d) (arg 48 8) = true → exec (.attest d e) s = .next s)
    ∧ (Asked s d e 8 → arg 48 8 % 8 = 0 → arg 48 8 + 0x2E8 ≤ 2 ^ 40 → s.storeRefused (arg 48 8) 0x2E8 = false →
        (∀ a ∈ [arg 48 8, arg 48 8 + 0x2E7], s.addrHeld (Config.dieSite d) a = false) →
        let body := s.reportBody d (s.physRead (s.mbxAt e + 16) 48)
        answers (.attest d e) (some (s.physWrite (arg 48 8) (body ++ State.pairBytes (Config.signReport body)))))
    ∧ (Asked s d e 8 → (arg 48 8 % 8 ≠ 0 ∨ 2 ^ 40 < arg 48 8 + 0x2E8 ∨ s.storeRefused (arg 48 8) 0x2E8 = true) → answers (.attest d e) none)
    ∧ ((s.isLeader d = false ∨ s.pkg.boot ≠ 10) → exec (.mailboxScan d) s = .next s)
    ∧ (s.isLeader d = true → (s.die d).fe.inval = none → scan → (∀ k, k < 16 → s.physNum (s.mbxAt k) 4 = s.physNum (s.mbxAt k + 8) 4) →
        exec (.mailboxScan d) s = .next s)
    ∧ (e = 15 → s.pkg.boot = 10 → (s.die d).fe.inval = none → scan → (∀ k, k < 15 → s.physNum (s.mbxAt k) 4 = s.physNum (s.mbxAt k + 8) 4) →
        (∀ i c, mailboxCode i = some (d, 15, c) → s.isLeader d = true → s.physNum (s.mbxAt 15 + 4) 1 = c →
          exec (.mailboxScan d) s = exec i s)
        ∧ (∀ c, Asked s d e c → (c = 0 ∨ 8 < c) → exec (.mailboxScan d) s = .next (s.answer 15 0x18))
        ∧ (Asked s d e 2 → p < 8 → exec (.mailboxScan d) s = .next
            (match s.configure d p [(0x45, 0#8 ++ (s.part p).ctx ++ (s.part p).slim ++ 0#16 ++ (s.part p).dies)] with
              | some m => m.answer 15 0
              | none => s.answer 15 0x18))
        ∧ (Asked s d e 6 → (8 ≤ p ∨ (s.part p).launch.save = 0) → exec (.mailboxScan d) s = .next (s.answer 15 0x18))
        ∧ (Asked s d e 6 → p < 8 → (s.part p).v = true → (s.part p).launch.save ≠ 0 → (s.part p).st = .open_ →
            exec (.mailboxScan d) s = .next (s.setPart p { s.part p with preempt := (s.part p).preempt ++ [15] })))

/-- The mailbox and one granule of MAP (R324, R344, R345, R383). -/
def Obligations.MailboxRequests : Prop := Sys2Proof.Claims.MailboxRule ∧ Sys2Proof.Claims.MapGranule

/-! ### The machine as a whole -/

/-- The values the rules give for reset (R43, R357, R362, R364, R367, R327, R385): the windows and decision FIFOs at their
widest, the calibration interval, the power cap, the link thresholds, links DOWN, the synchronisation window, nothing live. That
package time is 0 before bring-up starts it at 0 (R353, R387) is the model's choice (log 3). -/
def Obligations.ResetValues : Prop :=
  (∀ t, ((State.reset.tile t).stop.wcfg.toNat % 2 ^ 5 = 31 ∧ (State.reset.tile t).stop.wcfg.toNat / 2 ^ 11 % 2 ^ 5 = 31
      ∧ (State.reset.tile t).stop.frozen = false))
  ∧ (∀ d, (State.reset.die d).calint = 0x01000000 ∧ (State.reset.die d).div = 0 ∧ (State.reset.die d).cur = 0
      ∧ (State.reset.die d).drain = false ∧ (State.reset.die d).lsel = 0 ∧ (State.reset.die d).dpsel = 0)
  ∧ (∀ k, (State.reset.link k).st = .down ∧ (State.reset.link k).thrRetry = 4096 ∧ (State.reset.link k).thrLane = 256
      ∧ (State.reset.link k).retry0 = 0 ∧ (State.reset.link k).levt = 0 ∧ (State.reset.link k).portEn = false)
  ∧ (∀ p, (State.reset.part p).v = false ∧ (State.reset.part p).st = .idle) ∧ (∀ c, (State.reset.ctx c).v = false)
  ∧ State.reset.pkg.pwrcap = 112 ∧ State.reset.pkg.syncWin = 64 ∧ State.reset.pkg.syncExp = 20 ∧ State.reset.pkg.syncMode = 0
  ∧ State.reset.pkg.qen = false ∧ State.reset.pkg.qtbase = 0 ∧ State.reset.pkg.leasepa = 0 ∧ State.reset.pkg.mbxpa = 0
  ∧ State.reset.pkg.dreset = 0 ∧ State.reset.time = 0

/-- At reset the machine's invariant holds: every memory has its canonical form. That memory then reads zero is the model's choice (log 2). -/
def Obligations.ResetMemory : Prop :=
  State.reset.ok ∧ State.reset.memoryOk ∧ (∀ t, Store.ok (State.reset.tile t).store) ∧ ∀ a, Mem.get1 State.reset.mem a = 0

/-- Words written out bit by bit decode to what they stand for (R132, R133, R135-R139, R242, R253). -/
def Sys2Proof.Claims.DecodeWords : Prop :=
  decodeText (0b00#2 ++ 0b1000#4 ++ 0b000001#6 ++ 0b000011#6 ++ 0b000001#6 ++ 0b000010#6 ++ 0b00#2) 0 0
    = .ok (.add ⟨true, false, false, false⟩ 3 1 2)
  ∧ decodeText (0b00#2 ++ 0b0001#4 ++ 0b001000#6 ++ 0b000111#6 ++ 0b000000#6 ++ 0b11111111#8) 0 0
    = .ok (.addi ⟨false, false, false, true⟩ 7 0 0xFF)
  ∧ decodeText (0b00#2 ++ 0b0000#4 ++ 0b010010#6 ++ 0b000101#6 ++ 0x048D#14) (0b00#2 ++ 0b0000#4 ++ 0#8 ++ 0x05678#18) 0
    = .ok (.li Ring.none 5 0x12345678)
  ∧ decodeText (0b00#2 ++ 0b0000#4 ++ 0b111100#6 ++ 0b1#1 ++ 0b000101#6 ++ 0#13) 0 0 = .ok (.guard true 5)
  ∧ decodeText (0b00#2 ++ 0b0000#4 ++ 0b111101#6 ++ 0b000000#6 ++ 0b000100#6 ++ 0x20#8) 0 0 = .ok (.mfsr 4 0x20)
  ∧ decodeText (0b01#2 ++ 0b0000#4 ++ 0b000000#6 ++ 0b00001010#8 ++ 0b01000011#8 ++ 0b0001#4)
      (0b01#2 ++ 0b0000#4 ++ 0b11000100#8 ++ 0#8 ++ 0b000#3 ++ 0b1#1 ++ 0b0#1 ++ 0b00000#5) 0
    = .ok (.vadd Ring.none .s32 (.main 1 2) (.ofile 3) (.const 4) ⟨.rn, true, false⟩)
  ∧ decodeText (0b10#2 ++ 0b0000#4 ++ 0b000000#6 ++ 0b00000001#8 ++ 0b01#2 ++ 0b111111#6 ++ 0b0100#4)
      (0b10#2 ++ 0b0000#4 ++ 0b1#1 ++ 0b0011#4 ++ 0b0#1 ++ 0b0000#4 ++ 0b1#1 ++ 0#15) 0
    = .ok (.tmac Ring.none 0 1 .m32 63 .s8 true ⟨true, 3, false, 0⟩)
  ∧ decodeText (0b11#2 ++ 0b0000#4 ++ 0b000000#6 ++ 0b0101#4 ++ 0b1#1 ++ 0b0#1 ++ 0b00#2 ++ 0x123#12)
      (0b11#2 ++ 0b0000#4 ++ 0b0#1 ++ 0b0000#4 ++ 0b1#1 ++ 0b0010#4 ++ 0x0007#16) (0b11#2 ++ 0b0000#4 ++ 0x45#8 ++ 0b00#2 ++ 0x0009#16)
    = .ok (.xcopy Ring.none ⟨5, true, false, 0x12345, ⟨false, 0, true, 2⟩, 7, 9⟩)
  ∧ decodeSeq (0b000100#6 ++ 0b100#3 ++ 0b10#2 ++ 0b1#1 ++ 0b001#3 ++ 0b000#3 ++ 0b011#3 ++ 0b0010#4 ++ 0#7)
    = .ok (.sfeeda .m64 ⟨.s8, true, 1, 0, 3, 2⟩)
  ∧ decodeSeq 0x3C000000 = .ok .shalt ∧ decodeText 0xFFFFFFFF 0 0 = .ok .endOfText ∧ decodeSeq 0xFFFFFFFF = .ok .endOfText

/-- What no map assigns decodes to no instruction (R133, R134, R143-R145, R147): opcodes above the maps, extension words
with another tag or with ring bits, reserved bits of a head. -/
def Sys2Proof.Claims.UnassignedRefused : Prop :=
  ∀ (w e1 e2 : Word), w ≠ 0xFFFFFFFF →
    let op := w.toNat / 2 ^ 20 % 64
    let tag := w.toNat / 2 ^ 30
    (tag = 0 → 0x3D < op → ∃ r, decodeText w e1 e2 = .error r)
    ∧ (tag = 1 → (op = 0x1F ∨ 0x33 < op) → ∃ r, decodeText w e1 e2 = .error r)
    ∧ (tag = 2 → 0x0E < op → ∃ r, decodeText w e1 e2 = .error r)
    ∧ (tag = 3 → 8 < op → ∃ r, decodeText w e1 e2 = .error r)
    ∧ (2 ≤ headLength w → (e1.toNat / 2 ^ 30 ≠ tag ∨ e1.toNat / 2 ^ 26 % 16 ≠ 0) → ∃ r, decodeText w e1 e2 = .error r)
    ∧ (3 ≤ headLength w → (e2.toNat / 2 ^ 30 ≠ tag ∨ e2.toNat / 2 ^ 26 % 16 ≠ 0) → ∃ r, decodeText w e1 e2 = .error r)
    ∧ (tag = 0 → (op = 0x3C ∨ op = 0x3D) → w.toNat / 2 ^ 26 % 16 ≠ 0 → ∃ r, decodeText w e1 e2 = .error r)
    ∧ ((w.toNat / 2 ^ 26 = 0 ∨ 16 ≤ w.toNat / 2 ^ 26) → ∃ r, decodeSeq w = .error r)

/-- Words written out bit by bit, and words no map assigns (R132-R147, R242, R253). -/
def Obligations.WordsRead : Prop := Sys2Proof.Claims.DecodeWords ∧ Sys2Proof.Claims.UnassignedRefused

/-- The words of the sequencer (R242, R243). -/
def Sys2Proof.Claims.seqInstr : Instr → Bool
  | .sloop _ _ | .sloopReg _ _ | .send _ | .sagenBase _ _ | .sagenStep _ _ _ | .sfeeda _ _ | .sfeedb _ | .sdecode _ _ _ _
  | .sencode _ _ _ _ | .sperm _ _ | .spermOff _ | .sksig _ _ | .sksigReg _ _ | .skwait _ _ | .skwaitReg _ _ | .smov _ _
  | .smovHi _ _ | .smovReg _ _ | .sadd _ _ _ | .saddReg _ _ _ | .sqpop _ | .sqpopAg _ | .sqpush _ | .shalt => true
  | _ => false

/-- Decode of encode: every well-formed instruction that has words, with every operand at every value its encoding admits,
is what its words decode to (R132-R147, R242, R253). -/
def Obligations.EncodeDecode : Prop :=
  ∀ i : Instr, i.wf = true →
    (seqInstr i = true → ∃ w, encode i = .one w ∧ decodeSeq w = .ok i)
    ∧ (seqInstr i = false → encode i ≠ .none → (encode i).decodeText = .ok i)

/-- Encode of decode: an instruction is read from no words but its own, and is well formed; every bit of its words is accounted
for (R12, R132-R147). -/
def Obligations.DecodeEncode : Prop :=
  ∀ (w e1 e2 : Word) (i : Instr),
    (decodeText w e1 e2 = .ok i → i.wf = true ∧ (encode i).toList = [w, e1, e2].take (headLength w))
    ∧ (decodeSeq w = .ok i → i.wf = true ∧ (encode i).toList = [w])

/-- A step runs the decoded instruction (R42, R78-R80, R133, R134, R241, R287): when an engine's turn to issue stands next,
the step is `exec` of the instruction at its position, in the state with that turn taken; a word that reaches the end of the
text is the end of text; words that decode to nothing are an illegal instruction; a frozen tile issues nothing (R75); an
outside event is `exec` of the event. -/
def Obligations.StepRunsDecoded : Prop :=
  ∀ (s : State) (rest : List Turn),
    (∀ t e, s.agenda = .issue (.eng t e) :: rest → (s.tile t).stop.frozen = false → e ≠ .tsq →
      let m := (s.tile t).store
      let a := ((s.tile t).pos e).pc
      let w := m.textAt a
      let r : State := { s with agenda := rest, cur := .eng t e }
      (∀ i, w ≠ 0xFFFFFFFF → a + headLength w ≤ m.textLen → decodeText w (m.textAt (a + 1)) (m.textAt (a + 2)) = .ok i →
          step s = exec i r)
      ∧ (∀ x, w ≠ 0xFFFFFFFF → a + headLength w ≤ m.textLen → decodeText w (m.textAt (a + 1)) (m.textAt (a + 2)) = .error x →
          step s = exec .illegalInstruction r)
      ∧ ((w = 0xFFFFFFFF ∨ m.textLen < a + headLength w) → step s = exec .endOfText r))
    ∧ (∀ t, s.agenda = .issue (.eng t .tsq) :: rest → (s.tile t).stop.frozen = false →
      let w := (s.tile t).store.seqAt (s.tile t).tsq.tpc
      let r : State := { s with agenda := rest, cur := .eng t .tsq }
      (∀ i, decodeSeq w = .ok i → step s = exec i r) ∧ (∀ x, decodeSeq w = .error x → step s = exec .illegalInstruction r))
    ∧ (∀ t e, s.agenda = .issue (.eng t e) :: rest → (s.tile t).stop.frozen = true → step s = .next { s with agenda := rest })
    ∧ (∀ d i, s.agenda = .issue (.fwc d) :: rest →
      let f := s.fwc d
      let w := State.fwcText f f.pc
      w ≠ 0xFFFFFFFF → w.toNat / 2 ^ 30 = 0 → f.pc + headLength w ≤ f.codeEnd →
      decodeText w (State.fwcText f (f.pc + 1)) 0 = .ok i → step s = exec i { s with agenda := rest, cur := .fwc d })
    ∧ (∀ i, s.agenda = .ev i :: rest → step s = exec i { s with agenda := rest, cur := .pkg })

/-- Every step keeps the canonical form of physical memory, in every state that has it. -/
def Obligations.StepKeepsMemory : Prop :=
  ∀ s s' : State, s.memoryOk → step s = .next s' → s'.memoryOk

/-- Every step keeps the invariant of the machine, in every state that has it: physical memory, the memories of every tile and
firmware core in their canonical form, s0 and p0 empty, the reserved bits of WCFG and of the views zero, the pointers of the error
logs in their 9 bits (R11, R43, R53, R54, R60, R376). -/
def Obligations.StepKeepsInvariant : Prop :=
  ∀ s s' : State, s.ok → step s = .next s' → s'.ok

/-- What the issue of a word leaves alone (R42, R46, R53, R73): every register, memory and unit, every other engine,
every other tile and everything outside; what it changes: the position, the tokens its ring bits took, what is to land and to
be signalled. The same for a firmware core and for the sequencer. -/
def Obligations.IssueFrame : Prop :=
  ∀ (s : State) (t d : Nat) (e : Eng) (h : Ring) (len : Nat) (f : Eff),
    let x := s.tile t
    let y := (s.issued t e h len f).tile t
    let z := s.fwcIssue d len f
    let q := s.seqIssued t x f
    (e ≠ .tsq → OnlyTile t s (s.issued t e h len f) ∧ SameRegisters x y ∧ SameUnits x y ∧ OtherEngines e x y ∧ y.cyc = x.cyc
      ∧ (y.pos e).pc = (f.next.map (·.1)).getD ((x.pos e).pc + len) ∧ (y.pos e).walk = (x.pos e).walk + len
      ∧ (y.pos e).busy = x.cyc + (f.next.map (·.2)).getD f.occ
      ∧ (y.pos e).fp = (if h.wp then (x.pos e).fp.drop 1 else (x.pos e).fp) ∧ (y.pos e).fs = (if h.ws then (x.pos e).fs.drop 1 else (x.pos e).fs)
      ∧ (h.sp = false → h.ss = false → (y.pos e).sigs = (x.pos e).sigs)
      ∧ y.pend = x.pend ++ f.lands.map (fun l => ⟨x.cyc + l.1, (x.pos e).walk, e, f.cmd, l.2⟩)
      ∧ y.sync.k = x.sync.k ∧ y.sync.sem = x.sync.sem ∧ y.sync.fqs = x.sync.fqs ∧ y.sync.fqr = x.sync.fqr ∧ y.sync.fqa = x.sync.fqa
      ∧ (f.next = none → y.sync = x.sync) ∧ y.stop.wcfg = x.stop.wcfg ∧ y.stop.frozen = x.stop.frozen ∧ y.stop.report = x.stop.report)
    ∧ (z.tiles = s.tiles ∧ z.mem = s.mem ∧ z.parts = s.parts ∧ z.links = s.links ∧ z.pkg = s.pkg ∧ z.copies = s.copies
      ∧ (∀ u, u ≠ d → z.die u = s.die u) ∧ (∀ r, (z.fwc d).ctl.rS r = (s.fwc d).ctl.rS r) ∧ (∀ p, (z.fwc d).ctl.rP p = (s.fwc d).ctl.rP p)
      ∧ (∀ k, (z.fwc d).ctl.rT k = (s.fwc d).ctl.rT k) ∧ (z.fwc d).sram = (s.fwc d).sram ∧ (z.fwc d).ie = (s.fwc d).ie ∧ (z.fwc d).pie = (s.fwc d).pie
      ∧ (z.fwc d).exc = (s.fwc d).exc ∧ (z.fwc d).epc = (s.fwc d).epc ∧ (z.fwc d).ecause = (s.fwc d).ecause ∧ (z.fwc d).eval_ = (s.fwc d).eval_
      ∧ (z.fwc d).evec = (s.fwc d).evec ∧ (z.fwc d).imask = (s.fwc d).imask ∧ (z.fwc d).tsel = (s.fwc d).tsel
      ∧ (z.fwc d).pc = (f.next.map (·.1)).getD ((s.fwc d).pc + len))
    ∧ (OnlyTile t s q ∧ SameRegisters x (q.tile t) ∧ (∀ e', e' ≠ .tsq → (q.tile t).pos e' = x.pos e') ∧ (q.tile t).sync = x.sync
      ∧ (q.tile t).tda = x.tda ∧ (q.tile t).xp = x.xp ∧ (q.tile t).frames = x.frames ∧ (q.tile t).stop = x.stop
      ∧ (∀ r, (q.tile t).tsq.g.get 0#32 r = x.tsq.g.get 0#32 r) ∧ (q.tile t).tsq.ag = x.tsq.ag ∧ (q.tile t).tsq.nl = x.tsq.nl)

/-- The words that R29 lists for one kind of phase and whose legality is tested first: engine, ring bits, and 0 for a compute phase or 1 for
an exchange phase. -/
def Sys2Proof.Claims.phaseRule : Instr → Option (Eng × Ring × Nat)
  | .ldb h _ _ _ | .ldbz h _ _ _ | .ldh h _ _ _ | .ldhz h _ _ _ | .ldw h _ _ _ | .ldd h _ _ _ | .stb h _ _ _ | .sth h _ _ _
  | .stw h _ _ _ | .std h _ _ _ | .aadd h _ _ _ | .amin h _ _ _ | .amax h _ _ _ | .axchg h _ _ _ | .acas h _ _ _
  | .acasD h _ _ _ | .ksig h _ _ | .ksigReg h _ _ | .kwait h _ _ | .kwaitReg h _ _ | .push h _ | .pop h _ _ => some (.ctl, h, 0)
  | .realign h => some (.ctl, h, 1)
  | .vadd h _ _ _ _ _ | .vsub h _ _ _ _ _ | .vmul h _ _ _ _ _ | .vfma h _ _ _ _ _ _ | .vfms h _ _ _ _ _ _ | .vmin h _ _ _ _ _
  | .vmax h _ _ _ _ _ | .vabs h _ _ _ _ _ | .vneg h _ _ _ _ _ | .vand h _ _ _ _ _ | .vor h _ _ _ _ _ | .vxor h _ _ _ _ _
  | .vnot h _ _ _ _ | .vshl h _ _ _ _ _ _ | .vshr h _ _ _ _ _ | .vsar h _ _ _ _ _ | .vcmp h _ _ _ _ _ _ | .vsel h _ _ _ _ _ _
  | .vmov h _ _ _ _ | .vbcs h _ _ _ _ _ | .vcvt h _ _ _ _ _ _ _ | .vqmx h _ _ _ _ _ | .vdqmx h _ _ _ _ _ _
  | .vjoin6 h _ _ _ _ _ | .vsplit6P4 h _ _ _ _ | .vsplit6P2 h _ _ _ _ | .vrcpa h _ _ _ | .vrsqa h _ _ _ | .vrcpr h _ _ _ _
  | .vrsqr h _ _ _ _ | .vexp2 h _ _ _ | .vlog2 h _ _ _ | .vrotr h _ _ _ _ _ | .vrotc h _ _ _ _ _ | .vbcr h _ _ _ _ _
  | .vbcc h _ _ _ _ _ | .vredr h _ _ _ _ _ | .vredc h _ _ _ _ _ | .vscanr h _ _ _ _ _ _ | .vscanc h _ _ _ _ _ _
  | .vperm h _ _ _ _ _ | .vtrn h _ _ _ _ | .mpush h _ _ _ | .minv h | .mpop h | .mqry h _ | .vld h _ _ _ _ _ _
  | .vst h _ _ _ _ _ _ | .vldd h _ _ _ _ | .vflg h _ | .vflgClr h _ | .vseedSeed h _ | .vseedHnd h _ | .vseedIdx h _
  | .vseedAdv h _ => some (.vu, h, 0)
  | .xarm h _ => some (.xp, h, 0)
  | _ => none

/-- The array's words: ring bits, and for a direct word its semaphores and the kind of phase that R29 lists for it; queue commands are
compute words (R218, R222). -/
def Sys2Proof.Claims.arrayRule : Instr → Option (Ring × Option (SemF × Nat))
  | .tmac h _ _ _ _ _ _ _ | .tmacx h _ _ _ _ _ _ _ | .tldb h _ _ _ _ _ | .tzero h _ _ _ _ _ _ | .raceMin h _ _ _ _ _ _
  | .raceMax h _ _ _ _ _ _ | .raceArgmin h _ _ _ _ _ _ | .raceArgmax h _ _ _ _ _ _ | .raceSort h _ _ _ _ _ _
  | .raceTopk h _ _ _ _ _ _ => some (h, none)
  | .tflag h _ _ _ sem | .tdrain h sem => some (h, some (sem, 0))
  | .tcal h _ sem | .tmarg h _ _ sem => some (h, some (sem, 1))
  | _ => none

/-- The sequencer's words. -/
def Sys2Proof.Claims.sequencerRule : Instr → Bool
  | .sloop _ _ | .sloopReg _ _ | .send _ | .sagenBase _ _ | .sagenStep _ _ _ | .sfeeda _ _ | .sfeedb _ | .sdecode _ _ _ _
  | .sencode _ _ _ _ | .sperm _ _ | .spermOff _ | .sksig _ _ | .sksigReg _ _ | .skwait _ _ | .skwaitReg _ _ | .smov _ _
  | .smovHi _ _ | .smovReg _ _ | .sadd _ _ _ | .saddReg _ _ _ | .sqpop _ | .sqpopAg _ | .sqpush _ | .shalt => true
  | _ => false

/-- Before a word acts (R29, R46, R75, R135, R218, R222): without the tokens of its ring bits it waits, in the wrong kind of phase it is
`phase-illegal` in the cycle in which it would issue: a queue command of the array once the queue has room, a direct word once the array is
quiet and its semaphore wait is met; that KSIG, KWAIT, PUSH and POP are tested before their own waits is the model's choice (log 64). A
sequencer issues nothing in an exchange phase. Every other word runs in both kinds of phase, as its own statements say. Behind a GUARD that
turned out false a word issues with its ring bits and no effect. -/
def Obligations.IssueChecks : Prop :=
  ∀ (i : Instr) (s : State) (t : Nat),
    (∀ h len f, ctlResult i = some (h, len, f) → s.cur = .eng t .ctl →
      ((s.tile t).tokens .ctl h = false → exec i s = .next (s.unguard t))
      ∧ ((s.tile t).tokens .ctl h = true → (s.tile t).guardFalse .ctl = true → exec i s = .next (s.issued t .ctl h len Eff.nil)))
    ∧ (∀ e h par, phaseRule i = some (e, h, par) → s.cur = .eng t e →
      ((s.tile t).tokens e h = false → exec i s = .next (s.unguard t))
      ∧ ((s.tile t).tokens e h = true → (s.tile t).seat.phase % 2 ≠ par →
          exec i s = .next (s.trapWord t e 0x02 (BitVec.ofNat 64 ((s.tile t).seat.phase % 2)))))
    ∧ (∀ h, arrayRule i = some (h, none) → s.cur = .eng t .tda → let d := (s.tile t).tda
      ((s.tile t).tokens .tda h = false ∨ 16 ≤ d.queue.length + d.runs.length → exec i s = .next (s.unguard t))
      ∧ ((s.tile t).tokens .tda h = true → d.queue.length + d.runs.length < 16 → (s.tile t).seat.phase % 2 = 1 →
          exec i s = .next (s.trapWord t .tda 0x02 1)))
    ∧ (∀ h sem par, arrayRule i = some (h, some (sem, par)) → s.cur = .eng t .tda → let x := s.tile t
      (x.tokens .tda h = false ∨ ¬ArrayQuiet x → exec i s = .next (s.unguard t))
      ∧ (x.tokens .tda h = true → ArrayQuiet x → ¬waitMet x sem →
          exec i s = .next (if par = 1 ∧ x.seat.phase % 2 = 1 then heldTile s t else s.unguard t))
      ∧ (x.tokens .tda h = true → ArrayQuiet x → waitMet x sem → x.seat.phase % 2 ≠ par →
          exec i s = .next (s.trapWord t .tda 0x02 (BitVec.ofNat 64 (x.seat.phase % 2)))))
    ∧ (sequencerRule i = true → s.cur = .eng t .tsq → (s.tile t).seat.phase % 2 = 1 → exec i s = .next s)
    ∧ (∀ d h, s.cur = .fwc d → phaseRule i = some (.ctl, h, 0) → h ≠ Ring.none →
        exec i s = .next (s.exception d 0x01 ((State.fwcText (s.fwc d) (s.fwc d).pc).setWidth 64) (State.fwcHead (s.fwc d))))
    ∧ (∀ x : Ctl, x.rS 0 = 0 ∧ x.rP 0 = true ∧ x.rD 0 = 0)

/-- A precise trap of a word (R75, R293, R300, R376): the tile freezes with a report that names cause, engine, word, package
time, phase and AUX; no register, memory, token or unit of it changes; an OPEN or EXTENDED partition that took no transition in this tick is HELD, another stays as it is; one entry of
class fault arises, and enters the log when the tick ends unless 256 are unread. That TPEND and the entry arise in the cycle of the
freeze is the model's choice (log 48), and so is that a transition of the tick puts HELD off to the next (log 56) and that entries
enter the log as the tick ends, in R376's order (log 61). -/
def Obligations.TrapTaken : Prop :=
  ∀ (s : State) (t : Nat) (e : Eng) (cause : BitVec 8) (aux : DWord), (s.tile t).stop.frozen = false → (s.tile t).ctl.guard = none →
    let x := s.tile t
    let s' := s.trapWord t e cause aux
    let y := s'.tile t
    y.stop.frozen = true ∧ y.stop.tpend = true
    ∧ (∃ r, y.stop.report = some r ∧ r.w0.extractLsb' 56 8 = cause ∧ r.w0.extractLsb' 48 8 = 0
        ∧ r.w0.extractLsb' 32 1 = 0 ∧ r.w0.extractLsb' 21 3 = e.code
        ∧ r.w0.extractLsb' 0 15 = BitVec.ofNat 15 (match e with | .tsq => x.tsq.tpc | e => (x.pos e).pc)
        ∧ r.w1 = BitVec.ofNat 64 s.time ∧ r.w2 = BitVec.ofNat 64 x.seat.phase ∧ r.w3 = aux)
    ∧ SameRegisters x y ∧ SameUnits x y ∧ (∀ e', y.pos e' = x.pos e') ∧ y.pend = x.pend ∧ y.sync = x.sync ∧ y.cyc = x.cyc
    ∧ (∀ u, u ≠ t → s'.tile u = s.tile u) ∧ s'.mem = s.mem ∧ s'.copies = s.copies ∧ s'.links = s.links ∧ s'.pkg = s.pkg
    ∧ (∀ p, x.seat.part = some p → (s.part p).since ≠ s.ticks → (s.part p).st = .open_ →
        (s'.part p).st = .held ∧ (s'.part p).heldAt = s.time ∧ (s'.part p).heldFrom = .open_)
    ∧ (∀ p, x.seat.part = some p → (s.part p).since ≠ s.ticks → (s.part p).st = .extended →
        (s'.part p).st = .held ∧ (s'.part p).heldFrom = .extended)
    ∧ (∀ p, (x.seat.part ≠ some p ∨ (s.part p).since = s.ticks ∨ ((s.part p).st ≠ .open_ ∧ (s.part p).st ≠ .extended)) →
        s'.part p = s.part p)
    ∧ (∃ le, (s'.die (t / 64)).logNow = (s.die (t / 64)).logNow ++ [(t % 64, le)] ∧ le.e0.extractLsb' 56 8 = cause
        ∧ le.e0.extractLsb' 54 2 = 1 ∧ le.e1 = BitVec.ofNat 64 s.time ∧ le.e2 = BitVec.ofNat 64 x.seat.phase)
    ∧ (∀ (z : Die) r le, z.logNow = [(r, le)] → (z.logWr + 512 - z.logRd) % 512 < 256 →
        z.writeLog.logWr = (z.logWr + 1) % 512 ∧ z.writeLog.log.get State.log0 (z.logWr % 256) = le
          ∧ z.writeLog.lost = z.lost ∧ z.writeLog.logNow = [])
    ∧ (∀ (z : Die) r le, z.logNow = [(r, le)] → 256 ≤ (z.logWr + 512 - z.logRd) % 512 →
        z.writeLog.logWr = z.logWr ∧ z.writeLog.log = z.log ∧ z.writeLog.lost = min 65535 (z.lost + 1))
end

