-- ==== Sys2Proof/Laws/Front.lean ====
section
/-! SUPPORT. What the accesses of a front end do in a package none of whose links is out of DOWN and whose HBM holds no error. -/

namespace Sys2Proof.Machine.State

theorem touchHbm_clean {s : State} (h : s.hbm = []) (pa n : Nat) : s.touchHbm pa n = (s, none) := by simp [touchHbm, h]

theorem touchWords_clean {s : State} (h : s.hbm = []) (as : List Nat) : s.touchWords as = (s, none) := by
  unfold touchWords
  induction as with
  | nil => rfl
  | cons a r ih => simpa only [List.foldl_cons, touchHbm_clean h] using ih

theorem linkHolds_down {s : State} (h : s.links = []) (k : Nat) : s.linkHolds k = false := by
  have : s.link k = link0 := by rw [link, h]; rfl
  rw [linkHolds, this]; rfl

theorem addrHeld_down {s : State} (h : s.links = []) (site pa : Nat) : s.addrHeld site pa = false := by
  rw [addrHeld, Bool.or_eq_false_iff]
  exact ⟨by simp [linkHolds_down h], by split <;> simp [linkHolds_down h]⟩

theorem areaHeld_down {s : State} (h : s.links = []) (d pa n : Nat) : s.areaHeld d pa n = false := by
  simp [areaHeld, addrHeld_down h]

/-- A port window that is closed serves nothing: with every link DOWN no address lies in one. -/
theorem portOf_down {s : State} (h : s.links = []) (pa : Nat) : s.portOf pa = none := by
  have : ∀ k, s.link k = link0 := fun k => by rw [link, h]; rfl
  simp only [portOf, this]
  split <;> rfl

theorem remoteRefuses_down {s : State} (h : s.links = []) (pa : Nat) : s.remoteRefuses pa = false := by
  simp [remoteRefuses, portOf_down h]

/-- A count in a die changes no walk. -/
theorem walkFrom_bump (s : State) (d : Nat) (src : BitVec 8) (n va : Nat) :
    ∀ k l t, (s.bumpDie d src n).walkFrom va k l t = s.walkFrom va k l t := by
  intro k
  induction k with
  | zero => intros; rfl
  | succ k ih => intro l t; unfold walkFrom; simp only [ih]; rfl

theorem walk_bump (s : State) (d : Nat) (src : BitVec 8) (n c va : Nat) : (s.bumpDie d src n).walk c va = s.walk c va := by
  unfold walk; simp only [walkFrom_bump]; rfl

theorem bumpDie_links (s : State) (d : Nat) (src : BitVec 8) (n : Nat) : (s.bumpDie d src n).links = s.links := rfl
theorem bumpDie_hbm (s : State) (d : Nat) (src : BitVec 8) (n : Nat) : (s.bumpDie d src n).hbm = s.hbm := rfl

/-- The state in which a walk made at die `d` counts. -/
abbrev walked (s : State) (d : Nat) : State := s.bumpDie d 0x24 1

/-- The state in which a walk has set A, and D for a write, in its leaf entry (R316). -/
def leafTouched (s : State) (l : Leaf) (wr : Bool) : State :=
  let new := l.bits % 256 ||| 0x20 ||| (if wr then 0x40 else 0)
  if new = l.bits % 256 then s else s.physWrite l.at_ [BitVec.ofNat 8 new]

theorem frontTranslate_leaf {s : State} {va : Nat} {wr : Bool} {l : Leaf} (d c : Nat) (hl : s.links = []) (hb : s.hbm = []) (hv : va < 2 ^ 52)
    (hw : s.walk c va = some l) (hp : bit l.bits (if wr then 3 else 2) = true) :
    s.frontTranslate d c va wr = .ok ((s.walked d).leafTouched l wr, l.pa + va % l.size, bit l.bits 4) := by
  have hb' : (s.walked d).hbm = [] := hb
  simp only [frontTranslate, touchWords_clean hb', walk_bump, hw, hp, leafTouched, if_neg (Nat.not_le.2 hv)]
  simp [addrHeld_down hl]

theorem frontTranslate_none {s : State} {va : Nat} (d c : Nat) (wr : Bool) (hl : s.links = []) (hb : s.hbm = []) (hw : s.walk c va = none) :
    s.frontTranslate d c va wr = .error (if 2 ^ 52 ≤ va then s else s.walked d, some Cause.translation) := by
  have hb' : (s.walked d).hbm = [] := hb
  simp only [frontTranslate, touchWords_clean hb', walk_bump, hw, refuseFront]
  split <;> simp [addrHeld_down hl]

theorem frontReach_hbm {s : State} {pa : Nat} (d c n : Nat) (hl : s.links = []) (hp : pa < hostBase) : s.frontReach d c pa n = .ok (s, pa) := by
  simp [frontReach, areaHeld_down hl, remoteRefuses_down hl, hp]

theorem physWrite_links (s : State) (pa : Nat) (bs : List Byte) : (s.physWrite pa bs).links = s.links := by
  unfold physWrite
  split <;> rfl

theorem physWrite_hbm {s : State} (pa : Nat) (bs : List Byte) (h : s.hbm = []) : (s.physWrite pa bs).hbm = [] := by
  unfold physWrite
  split
  · exact h
  · simp [h]

theorem leafTouched_links (s : State) (l : Leaf) (wr : Bool) : (s.leafTouched l wr).links = s.links := by
  unfold leafTouched
  generalize l.bits % 256 ||| 0x20 ||| (if wr then 0x40 else 0) = k
  dsimp only
  split
  · rfl
  · exact physWrite_links _ _ _

theorem leafTouched_hbm {s : State} (l : Leaf) (wr : Bool) (h : s.hbm = []) : (s.leafTouched l wr).hbm = [] := by
  unfold leafTouched
  generalize l.bits % 256 ||| 0x20 ||| (if wr then 0x40 else 0) = k
  dsimp only
  split
  · exact h
  · exact physWrite_hbm _ _ h

theorem frontWrite_leaf {s : State} {va : Nat} {sc : Bool} {l : Leaf} (d c : Nat) (bs : List Byte) (hl : s.links = []) (hb : s.hbm = [])
    (hv : va < 2 ^ 52) (hw : s.walk c va = some l) (hp : bit l.bits 3 = true) (hs : sc = true → bit l.bits 4 = true)
    (ha : l.pa + va % l.size < hostBase) :
    s.frontWrite d c va sc bs = .ok (((s.walked d).leafTouched l true).physWrite (l.pa + va % l.size) bs, ()) := by
  have hs' : (sc && !bit l.bits 4) = false := by cases sc <;> simp_all
  simp only [frontWrite, frontTranslate_leaf (wr := true) d c hl hb hv hw hp, hs', Bool.false_eq_true, if_false,
    frontReach_hbm d c bs.length ((leafTouched_links (s.walked d) l true).trans hl) ha]
  rfl

theorem frontPiece_leaf {s : State} {va n : Nat} {l : Leaf} (d c : Nat) (hl : s.links = []) (hb : s.hbm = [])
    (hv : va < 2 ^ 52) (hw : s.walk c va = some l) (hp : bit l.bits 2 = true) (ha : l.pa + va % l.size < hostBase) :
    s.frontPiece d c va n =
      .ok ((s.walked d).leafTouched l false, ((s.walked d).leafTouched l false).physRead (l.pa + va % l.size) n) := by
  have hb' : (s.walked d).hbm = [] := hb
  simp only [frontPiece, frontTranslate_leaf (wr := false) d c hl hb hv hw hp,
    frontReach_hbm d c n ((leafTouched_links (s.walked d) l false).trans hl) ha, touchHbm_clean (leafTouched_hbm l false hb')]

/-- A read that stays within 64 KiB is one piece. -/
theorem frontRead_piece {s : State} {va n : Nat} (d c : Nat) (hn : 0 < n) (hp : va % 0x10000 + n ≤ 0x10000) :
    s.frontRead d c va n = s.frontPiece d c va n := by
  have k : cut64 va n = [(va, n)] := by
    rw [cut64, if_neg (by omega), show (va + n - 1) / 0x10000 + 1 - va / 0x10000 = 1 from by omega]
    simp only [List.range_one, List.map_cons, List.map_nil, List.cons.injEq, Prod.mk.injEq, and_true]
    omega
  rw [frontRead, k]
  simp only [List.foldl_cons, List.foldl_nil, List.nil_append]
  cases s.frontPiece d c va n <;> rfl

end Sys2Proof.Machine.State
end

