-- ==== Sys2Proof/Laws/Integer.lean ====
section
/-! SUPPORT. The CTL's integer operations as arithmetic on numbers (R161-R164, R166). -/

namespace Sys2Proof.Machine

/-- Shift amounts are bits 5:0 (R161). -/
theorem shAmt_eq (b : Word) : shAmt b = b.toNat % 64 := by simp [shAmt, BitVec.extractLsb'_toNat]
/-- SHL (R161). -/
theorem shl_eq (a : Word) (n : Nat) : shlW a n = BitVec.ofNat 32 (a.toNat * 2 ^ n) := by
  apply BitVec.eq_of_toNat_eq; simp [shlW, Nat.shiftLeft_eq]
/-- SHR (R161). -/
theorem shr_eq (a : Word) (n : Nat) : shrW a n = BitVec.ofNat 32 (a.toNat / 2 ^ n) := by
  apply BitVec.eq_of_toNat_eq; simp [shrW, Nat.shiftRight_eq_div_pow]
  rw [Nat.mod_eq_of_lt]; exact lt_of_le_of_lt (Nat.div_le_self _ _) a.isLt
/-- SAR (R161). -/
theorem sar_eq (a : Word) (n : Nat) : sarW a n = BitVec.ofInt 32 (a.toInt / 2 ^ n) := by
  simp [sarW, BitVec.sshiftRight, Int.shiftRight_eq_div_pow]
/-- MUL (R162). -/
theorem mul_eq (a b : Word) : a * b = BitVec.ofInt 32 (a.toInt * b.toInt) := by
  apply BitVec.eq_of_toInt_eq; simp
/-- MULH (R162). -/
theorem mulh_ok (a b : Word) : mulHiS a b = BitVec.ofInt 32 (a.toInt * b.toInt / 2 ^ 32) := by
  have h1 : a.signExtend 64 * b.signExtend 64 = BitVec.ofInt 64 (a.toInt * b.toInt) := by
    rw [BitVec.ofInt_mul]; simp [BitVec.signExtend]
  apply BitVec.eq_of_toInt_eq
  unfold mulHiS
  rw [h1]
  apply congrArg
  apply BitVec.eq_of_toNat_eq
  simp only [BitVec.extractLsb'_toNat, BitVec.toNat_ofInt, Nat.shiftRight_eq_div_pow]
  generalize a.toInt * b.toInt = x
  omega
/-- MULHZ (R162). -/
theorem mulhz_ok (a b : Word) : mulHiZ a b = BitVec.ofNat 32 (a.toNat * b.toNat / 2 ^ 32) := by
  apply BitVec.eq_of_toNat_eq
  unfold mulHiZ
  simp only [BitVec.extractLsb'_toNat, BitVec.toNat_mul, BitVec.toNat_setWidth, Nat.shiftRight_eq_div_pow, BitVec.toNat_ofNat]
  have := Nat.mul_lt_mul'' a.isLt b.isLt
  have ha := a.isLt; have hb := b.isLt
  rw [Nat.mod_eq_of_lt (a := a.toNat) (by omega), Nat.mod_eq_of_lt (a := b.toNat) (by omega), Nat.mod_eq_of_lt (a := a.toNat * b.toNat) (by omega)]
/-- ADDA (R161). -/
theorem adda_ok (a b : Word) (k : Nat) : a + b <<< k = a + b * BitVec.ofNat 32 (2 ^ k) := by
  congr 1
  apply BitVec.eq_of_toNat_eq
  simp [Nat.shiftLeft_eq]
/-- CLZ (R163). -/
theorem clz_ok (n : Nat) (a : Word) : n ≤ 32 → clzN n a = n - (a.toNat % 2 ^ n).size := by
  intro hn
  induction n with
  | zero => simp [clzN]
  | succ n ih =>
    unfold clzN
    have hm : a.toNat % 2 ^ (n+1) = a.toNat % 2^n + 2^n * (a.toNat / 2^n % 2) := by
      rw [pow_succ, Nat.mod_mul]
    have hb : a.getLsbD n = decide (a.toNat / 2^n % 2 = 1) := by
      rw [BitVec.getLsbD, Nat.testBit_eq_decide_div_mod_eq]
    rw [hb, hm]
    have hlt := Nat.mod_lt a.toNat (show 0 < 2^n by positivity)
    rcases Nat.mod_two_eq_zero_or_one (a.toNat / 2^n) with h | h
    · simp only [h, ih (by omega)]; simp
      have : (a.toNat % 2^n).size ≤ n := Nat.size_le.mpr hlt
      omega
    · simp only [h]; simp
      have : n < (a.toNat % 2^n + 2^n).size := Nat.lt_size.mpr (by omega)
      omega
/-- POPC (R163). -/
theorem pop_ok (n : Nat) (a : Word) : popN n a = ((List.range n).filter fun i => a.getLsbD i).length := by
  induction n with
  | zero => rfl
  | succ n ih =>
    rw [popN, List.range_succ, List.filter_append, List.length_append, ih]
    by_cases h : a.getLsbD n <;> simp [h]; omega
/-- The position of a bit field (R163). -/
theorem bf_pos (b : Word) : bfPos b = b.toNat % 32 := by simp [bfPos, BitVec.extractLsb'_toNat]
/-- The effective width of a bit field (R163). -/
theorem bf_width (b : Word) : bfWidth b = min (b.toNat / 256 % 32 + 1) (32 - b.toNat % 32) := by
  simp [bfWidth, bf_pos, BitVec.extractLsb'_toNat, Nat.shiftRight_eq_div_pow]
/-- BFX (R163). -/
theorem bfx_ok (a b : Word) : bfxW a b = BitVec.ofNat 32 (a.toNat / 2 ^ (b.toNat % 32) % 2 ^ (min (b.toNat / 256 % 32 + 1) (32 - b.toNat % 32))) := by
  unfold bfxW
  rw [bf_pos, bf_width]
  generalize hp : b.toNat % 32 = p
  generalize hw : min (b.toNat / 256 % 32 + 1) (32 - p) = w
  have : w ≤ 32 := by omega
  apply BitVec.eq_of_toNat_eq
  simp only [onesW, BitVec.toNat_and, BitVec.toNat_ushiftRight, BitVec.toNat_ofNat, Nat.shiftRight_eq_div_pow]
  have h2 : 2 ^ w ≤ 2 ^ 32 := Nat.pow_le_pow_right (by omega) this
  have h3 : 0 < 2 ^ w := by positivity
  rw [Nat.mod_eq_of_lt (a := 2^w - 1) (by omega), Nat.and_two_pow_sub_one_eq_mod, Nat.mod_eq_of_lt (b := 2^32)]
  have := Nat.mod_lt (a.toNat / 2^p) h3
  omega
/-- SEL (R164). -/
theorem sel_ok (p neg : Bool) (a b : Word) : (if p != neg then a else b) = if p = !neg then a else b := by
  cases p <;> cases neg <;> rfl

theorem here15 (n : Nat) (off : BitVec 16) : BitVec.ofNat 15 n + off.setWidth 15 = BitVec.ofInt 15 ((n : Int) + off.toInt) := by
  rw [BitVec.ofInt_add, BitVec.ofInt_natCast]; congr 1
  apply BitVec.eq_of_toNat_eq
  simp [BitVec.toNat_ofInt, BitVec.toInt]
  split <;> omega
theorem preps15 (a : Word) : a.extractLsb' 0 15 = BitVec.ofNat 15 a.toNat := by
  apply BitVec.eq_of_toNat_eq; simp [BitVec.extractLsb'_toNat]
theorem preps16 (a : Word) : a.extractLsb' 0 16 = BitVec.ofNat 16 a.toNat := by
  apply BitVec.eq_of_toNat_eq; simp [BitVec.extractLsb'_toNat]

end Sys2Proof.Machine
end

