-- ==== Sys2Proof/Laws/Maps.lean ====
section
/-! SUPPORT. Sparse maps and byte memories: what a read after a write gives, and that every write keeps the canonical form. -/

namespace Sys2Proof.Machine

/-! ### Reads after writes -/

@[simp] theorem Map.get_nil {α : Type} (d : α) (k : Nat) : Map.get ([] : Map α) d k = d := rfl

@[simp] theorem Map.get_cons {α : Type} (d : α) (k j : Nat) (v : α) (r : Map α) :
    Map.get ((j, v) :: r) d k = if j = k then v else Map.get r d k := rfl

/-- A read is the first entry at the key, or the default. -/
theorem Map.get_find {α : Type} (d : α) (k : Nat) (m : Map α) :
    m.get d k = (m.find? (·.1 == k)).elim d (·.2) := by
  fun_induction Map.get m d k <;> simp_all

/-- Entries at other keys say nothing of a key. -/
theorem Map.find_none {α : Type} (k : Nat) (m : Map α) (h : ∀ e ∈ m, e.1 ≠ k) : m.find? (·.1 == k) = none :=
  List.find?_eq_none.2 fun e he => by simpa using h e he

theorem Map.get_append {α : Type} (d : α) (k : Nat) (a b : Map α) (h : ∀ e ∈ a, e.1 ≠ k) :
    Map.get (a ++ b) d k = Map.get b d k := by
  simp only [Map.get_find, List.find?_append, Map.find_none k a h, Option.none_or]

theorem Map.get_absent {α : Type} (d : α) (k : Nat) (m : Map α) (h : ∀ e ∈ m, e.1 ≠ k) : Map.get m d k = d := by
  simp only [Map.get_find, Map.find_none k m h, Option.elim_none]

theorem Map.get_filter {α : Type} (d : α) (k : Nat) (m : Map α) (q : Nat × α → Bool) (hq : ∀ v, q (k, v) = true) :
    Map.get (m.filter q) d k = Map.get m d k := by
  have same : ∀ e : Nat × α, decide (q e = true ∧ (e.1 == k) = true) = (e.1 == k) := fun ⟨n, v⟩ => by
    rcases eq_or_ne n k with rfl | hn
    · simp only [hq, beq_self_eq_true, and_self, decide_true]
    · simp only [beq_eq_false_iff_ne.2 hn, Bool.false_eq_true, and_false, decide_false]
  simp only [Map.get_find, List.find?_filter, same]

theorem Map.get_append_left {α : Type} (d : α) (k : Nat) (a b : Map α) (h : ∀ e ∈ b, e.1 ≠ k) :
    Map.get (a ++ b) d k = Map.get a d k := by
  simp only [Map.get_find, List.find?_append, Map.find_none k b h, Option.or_none]

/-- A listed key reads as written. -/
@[simp] theorem Map.get_put_same {α : Type} (m : Map α) (d : α) (k : Nat) (v : α) : (m.put k v).get d k = v := by
  unfold Map.put
  rw [List.append_assoc, Map.get_append]
  · simp
  · intro e he; simp at he; omega

/-- Another key reads as before. -/
theorem Map.get_put_ne {α : Type} (m : Map α) (d : α) (k j : Nat) (v : α) (h : j ≠ k) :
    (m.put k v).get d j = m.get d j := by
  unfold Map.put
  rcases Nat.lt_or_gt_of_ne h with hlt | hgt
  · rw [List.append_assoc, Map.get_append_left]
    · exact Map.get_filter d j m _ (by simp [hlt])
    · intro e he; simp at he; rcases he with rfl | ⟨-, he⟩ <;> simp <;> omega
  · rw [Map.get_append]
    · exact Map.get_filter d j m _ (by simp [hgt])
    · intro e he; simp at he; rcases he with ⟨-, he⟩ | rfl <;> simp <;> omega

@[simp] theorem Map.get_set_same {α : Type} [DecidableEq α] (m : Map α) (d : α) (k : Nat) (v : α) :
    (m.set d k v).get d k = v := by
  unfold Map.set
  rw [List.append_assoc, Map.get_append]
  · by_cases hv : v = d
    · simp only [hv, if_true, List.nil_append]
      exact Map.get_absent d k _ (by intro e he; simp at he; omega)
    · simp [hv]
  · intro e he; simp at he; omega

theorem Map.get_set_ne {α : Type} [DecidableEq α] (m : Map α) (d : α) (k j : Nat) (v : α) (h : j ≠ k) :
    (m.set d k v).get d j = m.get d j := by
  unfold Map.set
  rcases Nat.lt_or_gt_of_ne h with hlt | hgt
  · rw [List.append_assoc, Map.get_append_left]
    · exact Map.get_filter d j m _ (by simp [hlt])
    · intro e he
      by_cases hv : v = d <;> simp [hv] at he
      · omega
      · rcases he with rfl | ⟨-, he⟩ <;> simp <;> omega
  · rw [Map.get_append]
    · exact Map.get_filter d j m _ (by simp [hgt])
    · intro e he
      by_cases hv : v = d <;> simp [hv] at he
      · omega
      · rcases he with ⟨-, he⟩ | rfl <;> simp <;> omega

/-! ### The canonical form -/

/-- The canonical form in terms of its entries: keys rise, from `lo`, and no entry is the default. -/
theorem Map.wfFrom_iff {α : Type} [DecidableEq α] (d : α) (lo : Nat) (m : Map α) :
    Map.wfFrom d lo m = true ↔
      (m.map (·.1)).Pairwise (· < ·) ∧ ∀ e ∈ m, lo ≤ e.1 ∧ e.2 ≠ d := by
  induction m generalizing lo with
  | nil => simp [Map.wfFrom]
  | cons e r ih =>
    obtain ⟨k, v⟩ := e
    simp only [Map.wfFrom, Bool.and_eq_true, decide_eq_true_eq, ih, List.map_cons, List.pairwise_cons, List.mem_map,
      List.mem_cons, forall_exists_index, and_imp, forall_eq_or_imp, ne_eq]
    refine ⟨fun ⟨first, sorted, rest⟩ => ?_, fun ⟨⟨above, sorted⟩, first, rest⟩ => ?_⟩
    · have gap := fun x hx => (rest x hx).1
      exact ⟨⟨fun _ x hx hk => hk ▸ gap x hx, sorted⟩, first, fun x hx => ⟨Nat.le_of_lt (Nat.lt_of_le_of_lt first.1 (gap x hx)), (rest x hx).2⟩⟩
    · exact ⟨first, sorted, fun x hx => ⟨above _ x hx rfl, (rest x hx).2⟩⟩

/-- Pieces in canonical form whose keys follow one another join to a canonical form. -/
theorem Map.wfFrom_append {α : Type} [DecidableEq α] (d : α) (lo : Nat) (a b : Map α)
    (ha : Map.wfFrom d lo a = true) (hb : Map.wfFrom d lo b = true) (hab : ∀ x ∈ a, ∀ y ∈ b, x.1 < y.1) :
    Map.wfFrom d lo (a ++ b) = true := by
  rw [Map.wfFrom_iff] at *
  refine ⟨?_, ?_⟩
  · rw [List.map_append, List.pairwise_append]
    refine ⟨ha.1, hb.1, ?_⟩
    simp only [List.mem_map, forall_exists_index, and_imp]
    rintro _ x hx rfl _ y hy rfl
    exact hab x hx y hy
  · intro e he
    rcases List.mem_append.mp he with h | h
    · exact ha.2 e h
    · exact hb.2 e h

theorem Map.wfFrom_filter {α : Type} [DecidableEq α] (d : α) (lo : Nat) (m : Map α) (q : Nat × α → Bool)
    (h : Map.wfFrom d lo m = true) : Map.wfFrom d lo (m.filter q) = true := by
  rw [Map.wfFrom_iff] at *
  refine ⟨?_, fun e he => h.2 e (List.mem_of_mem_filter he)⟩
  exact h.1.sublist (List.filter_sublist.map _)

/-- A write keeps the canonical form. -/
theorem Map.wfFrom_set {α : Type} [DecidableEq α] (d : α) (m : Map α) (k : Nat) (v : α)
    (h : Map.wfFrom d 0 m = true) : Map.wfFrom d 0 (m.set d k v) = true := by
  unfold Map.set
  refine Map.wfFrom_append d 0 _ _ (Map.wfFrom_append d 0 _ _ (Map.wfFrom_filter d 0 m _ h) ?_ ?_)
    (Map.wfFrom_filter d 0 m _ h) ?_
  · split <;> simp_all [Map.wfFrom]
  · intro x below y new
    have at_k : y = (k, v) := by by_contra other; split at new <;> simp_all
    simpa [at_k] using (List.mem_filter.1 below).2
  · intro x upTo y above
    have past : k < y.1 := by simpa using (List.mem_filter.1 above).2
    refine Nat.lt_of_le_of_lt ?_ past
    rcases List.mem_append.1 upTo with below | new
    · exact Nat.le_of_lt (by simpa using (List.mem_filter.1 below).2)
    · split at new <;> simp_all

/-! ### Byte memories -/

/-- The byte a cell list made of bytes holds. -/
theorem cells_wf (a : Nat) (bs : List Byte) :
    Map.wfFrom (0#8) 0 (cells a bs) = true ∧ ∀ e ∈ cells a bs, a ≤ e.1 ∧ e.1 < a + bs.length := by
  induction bs generalizing a with
  | nil => simp [cells, Map.wfFrom]
  | cons b r ih =>
    obtain ⟨hw, hb⟩ := ih (a + 1)
    by_cases hz : b = 0#8
    · simp only [cells, hz, if_true, List.length_cons]
      exact ⟨hw, fun e he => by have := hb e he; omega⟩
    · simp only [cells, hz, if_false, List.length_cons]
      refine ⟨?_, ?_⟩
      · rw [Map.wfFrom_iff] at hw ⊢
        refine ⟨?_, ?_⟩
        · simp only [List.map_cons, List.pairwise_cons, List.mem_map, forall_exists_index, and_imp]
          exact ⟨by rintro _ e he rfl; have := hb e he; omega, hw.1⟩
        · intro e he
          rcases List.mem_cons.mp he with rfl | he
          · exact ⟨by simp, hz⟩
          · exact hw.2 e he
      · intro e he
        rcases List.mem_cons.mp he with rfl | he
        · simp
        · have := hb e he; omega

/-- The byte `cells` gives at an address of its run. -/
theorem cells_get (a : Nat) (bs : List Byte) (k : Nat) :
    Map.get (cells a bs) 0#8 k = if a ≤ k then bs.getD (k - a) 0#8 else 0#8 := by
  induction bs generalizing a with
  | nil => simp [cells]
  | cons b r ih =>
    have step : Map.get (cells a (b :: r)) 0#8 k = if a = k then b else Map.get (cells (a + 1) r) 0#8 k := by
      rw [cells]
      split
      · rename_i zero
        rcases eq_or_ne a k with rfl | away
        · rw [ih, if_neg (Nat.not_succ_le_self a), if_pos rfl, zero]
        · rw [if_neg away]
      · exact Map.get_cons ..
    rw [step, ih]
    rcases Nat.lt_trichotomy a k with lt | rfl | gt
    · obtain ⟨j, rfl⟩ := Nat.exists_eq_add_of_lt lt
      simp [Nat.add_assoc, show a + 1 ≤ a + (j + 1) by omega, show a + (j + 1) - (a + 1) = j by omega]
    · simp
    · simp [show ¬ a ≤ k by omega, show ¬ a + 1 ≤ k by omega, show a ≠ k by omega]

/-- Writing bytes keeps the canonical form. -/
theorem Mem.wf_write (m : Mem) (a : Nat) (bs : List Byte) (h : Memory.wf m = true) : Memory.wf (Mem.write m a bs) = true := by
  unfold Memory.wf Mem.write at *
  obtain ⟨hw, hb⟩ := cells_wf a bs
  refine Map.wfFrom_append _ 0 _ _ (Map.wfFrom_append _ 0 _ _ (Map.wfFrom_filter _ 0 m _ h) hw ?_)
    (Map.wfFrom_filter _ 0 m _ h) ?_
  · intro x hx y hy
    simp at hx
    have := hb y hy; omega
  · intro x hx y hy
    simp only [List.mem_append, List.mem_filter, decide_eq_true_eq] at hx hy
    rcases hx with ⟨-, hx⟩ | hx
    · omega
    · have := hb x hx; omega

theorem Mem.wf_writeRuns (m : Mem) (rs : List (Nat × List Byte)) (h : Memory.wf m = true) :
    Memory.wf (Mem.writeRuns m rs) = true := by
  unfold Mem.writeRuns
  induction rs generalizing m with
  | nil => exact h
  | cons r rest ih => exact ih _ (Mem.wf_write m r.1 r.2 h)

/-- A byte inside a written run reads as written; every other byte reads as before. -/
theorem Mem.get1_write (m : Mem) (a : Nat) (bs : List Byte) (k : Nat) :
    Mem.get1 (Mem.write m a bs) k = if a ≤ k ∧ k < a + bs.length then bs.getD (k - a) 0#8 else Mem.get1 m k := by
  unfold Mem.get1 Mem.write
  obtain ⟨-, hb⟩ := cells_wf a bs
  by_cases h1 : k < a
  · rw [if_neg (by omega), List.append_assoc, Map.get_append_left]
    · exact Map.get_filter _ k m _ (by simp [h1])
    · intro e he
      simp only [List.mem_append, List.mem_filter, decide_eq_true_eq] at he
      rcases he with he | ⟨-, he⟩
      · have := hb e he; omega
      · omega
  · rw [List.append_assoc, Map.get_append _ _ _ _ (by intro e he; simp at he; omega)]
    by_cases h2 : k < a + bs.length
    · rw [if_pos (by omega), Map.get_append_left _ _ _ _ (by intro e he; simp at he; omega), cells_get,
        if_pos (by omega)]
    · rw [if_neg (by omega), Map.get_append _ _ _ _ (by intro e he; have := hb e he; omega)]
      exact Map.get_filter _ k m _ (by simp; omega)

/-- A read of one byte is the byte. -/
theorem Mem.read_one (m : Mem) (a : Nat) : Mem.read m a 1 = [Mem.get1 m a] := by
  unfold Mem.read Mem.get1
  simp only [List.range_one, List.map_cons, List.map_nil, Nat.add_zero]
  rw [Map.get_filter _ a m _ (by simp)]

/-- A read takes the bytes one by one. -/
theorem Mem.read_eq (m : Mem) (a n : Nat) : Mem.read m a n = (List.range n).map fun i => Mem.get1 m (a + i) := by
  unfold Mem.read Mem.get1
  refine List.map_congr_left fun i hi => ?_
  rw [Map.get_filter _ (a + i) m _ (by simp at hi; simp; omega)]

theorem Mem.wf_nil : Memory.wf [] = true := rfl

end Sys2Proof.Machine
end

