-- ==== Sys2Proof/Laws/State.lean ====
section
/-! SUPPORT. One lemma per field per update of the state: what an update leaves, and what it writes reads as written. -/

namespace Sys2Proof.Machine.State

variable (s : State)

/-! ### `setTile` -/

@[simp] theorem setTile_time (t : Nat) (x : Tile) : (s.setTile t x).time = s.time := rfl
@[simp] theorem setTile_ticks (t : Nat) (x : Tile) : (s.setTile t x).ticks = s.ticks := rfl
@[simp] theorem setTile_dies (t : Nat) (x : Tile) : (s.setTile t x).dies = s.dies := rfl
@[simp] theorem setTile_parts (t : Nat) (x : Tile) : (s.setTile t x).parts = s.parts := rfl
@[simp] theorem setTile_ctxs (t : Nat) (x : Tile) : (s.setTile t x).ctxs = s.ctxs := rfl
@[simp] theorem setTile_links (t : Nat) (x : Tile) : (s.setTile t x).links = s.links := rfl
@[simp] theorem setTile_copies (t : Nat) (x : Tile) : (s.setTile t x).copies = s.copies := rfl
@[simp] theorem setTile_nextId (t : Nat) (x : Tile) : (s.setTile t x).nextId = s.nextId := rfl
@[simp] theorem setTile_mem (t : Nat) (x : Tile) : (s.setTile t x).mem = s.mem := rfl
@[simp] theorem setTile_hbm (t : Nat) (x : Tile) : (s.setTile t x).hbm = s.hbm := rfl
@[simp] theorem setTile_pkg (t : Nat) (x : Tile) : (s.setTile t x).pkg = s.pkg := rfl
@[simp] theorem setTile_free (t : Nat) (x : Tile) : (s.setTile t x).free = s.free := rfl
@[simp] theorem setTile_cur (t : Nat) (x : Tile) : (s.setTile t x).cur = s.cur := rfl
@[simp] theorem setTile_agenda (t : Nat) (x : Tile) : (s.setTile t x).agenda = s.agenda := rfl
@[simp] theorem setTile_inputs (t : Nat) (x : Tile) : (s.setTile t x).inputs = s.inputs := rfl

/-! ### `setDie` -/

@[simp] theorem setDie_time (d : Nat) (x : Die) : (s.setDie d x).time = s.time := rfl
@[simp] theorem setDie_ticks (d : Nat) (x : Die) : (s.setDie d x).ticks = s.ticks := rfl
@[simp] theorem setDie_tiles (d : Nat) (x : Die) : (s.setDie d x).tiles = s.tiles := rfl
@[simp] theorem setDie_parts (d : Nat) (x : Die) : (s.setDie d x).parts = s.parts := rfl
@[simp] theorem setDie_ctxs (d : Nat) (x : Die) : (s.setDie d x).ctxs = s.ctxs := rfl
@[simp] theorem setDie_links (d : Nat) (x : Die) : (s.setDie d x).links = s.links := rfl
@[simp] theorem setDie_copies (d : Nat) (x : Die) : (s.setDie d x).copies = s.copies := rfl
@[simp] theorem setDie_nextId (d : Nat) (x : Die) : (s.setDie d x).nextId = s.nextId := rfl
@[simp] theorem setDie_mem (d : Nat) (x : Die) : (s.setDie d x).mem = s.mem := rfl
@[simp] theorem setDie_hbm (d : Nat) (x : Die) : (s.setDie d x).hbm = s.hbm := rfl
@[simp] theorem setDie_pkg (d : Nat) (x : Die) : (s.setDie d x).pkg = s.pkg := rfl
@[simp] theorem setDie_free (d : Nat) (x : Die) : (s.setDie d x).free = s.free := rfl
@[simp] theorem setDie_cur (d : Nat) (x : Die) : (s.setDie d x).cur = s.cur := rfl
@[simp] theorem setDie_agenda (d : Nat) (x : Die) : (s.setDie d x).agenda = s.agenda := rfl
@[simp] theorem setDie_inputs (d : Nat) (x : Die) : (s.setDie d x).inputs = s.inputs := rfl

/-! ### `setPart` -/

@[simp] theorem setPart_time (p : Nat) (x : Part) : (s.setPart p x).time = s.time := rfl
@[simp] theorem setPart_ticks (p : Nat) (x : Part) : (s.setPart p x).ticks = s.ticks := rfl
@[simp] theorem setPart_tiles (p : Nat) (x : Part) : (s.setPart p x).tiles = s.tiles := rfl
@[simp] theorem setPart_dies (p : Nat) (x : Part) : (s.setPart p x).dies = s.dies := rfl
@[simp] theorem setPart_ctxs (p : Nat) (x : Part) : (s.setPart p x).ctxs = s.ctxs := rfl
@[simp] theorem setPart_links (p : Nat) (x : Part) : (s.setPart p x).links = s.links := rfl
@[simp] theorem setPart_copies (p : Nat) (x : Part) : (s.setPart p x).copies = s.copies := rfl
@[simp] theorem setPart_nextId (p : Nat) (x : Part) : (s.setPart p x).nextId = s.nextId := rfl
@[simp] theorem setPart_mem (p : Nat) (x : Part) : (s.setPart p x).mem = s.mem := rfl
@[simp] theorem setPart_hbm (p : Nat) (x : Part) : (s.setPart p x).hbm = s.hbm := rfl
@[simp] theorem setPart_pkg (p : Nat) (x : Part) : (s.setPart p x).pkg = s.pkg := rfl
@[simp] theorem setPart_free (p : Nat) (x : Part) : (s.setPart p x).free = s.free := rfl
@[simp] theorem setPart_cur (p : Nat) (x : Part) : (s.setPart p x).cur = s.cur := rfl
@[simp] theorem setPart_agenda (p : Nat) (x : Part) : (s.setPart p x).agenda = s.agenda := rfl
@[simp] theorem setPart_inputs (p : Nat) (x : Part) : (s.setPart p x).inputs = s.inputs := rfl

/-! ### `modTile` -/

@[simp] theorem modTile_time (t : Nat) (f : Tile → Tile) : (s.modTile t f).time = s.time := rfl
@[simp] theorem modTile_ticks (t : Nat) (f : Tile → Tile) : (s.modTile t f).ticks = s.ticks := rfl
@[simp] theorem modTile_dies (t : Nat) (f : Tile → Tile) : (s.modTile t f).dies = s.dies := rfl
@[simp] theorem modTile_parts (t : Nat) (f : Tile → Tile) : (s.modTile t f).parts = s.parts := rfl
@[simp] theorem modTile_ctxs (t : Nat) (f : Tile → Tile) : (s.modTile t f).ctxs = s.ctxs := rfl
@[simp] theorem modTile_links (t : Nat) (f : Tile → Tile) : (s.modTile t f).links = s.links := rfl
@[simp] theorem modTile_copies (t : Nat) (f : Tile → Tile) : (s.modTile t f).copies = s.copies := rfl
@[simp] theorem modTile_nextId (t : Nat) (f : Tile → Tile) : (s.modTile t f).nextId = s.nextId := rfl
@[simp] theorem modTile_mem (t : Nat) (f : Tile → Tile) : (s.modTile t f).mem = s.mem := rfl
@[simp] theorem modTile_hbm (t : Nat) (f : Tile → Tile) : (s.modTile t f).hbm = s.hbm := rfl
@[simp] theorem modTile_pkg (t : Nat) (f : Tile → Tile) : (s.modTile t f).pkg = s.pkg := rfl
@[simp] theorem modTile_free (t : Nat) (f : Tile → Tile) : (s.modTile t f).free = s.free := rfl
@[simp] theorem modTile_cur (t : Nat) (f : Tile → Tile) : (s.modTile t f).cur = s.cur := rfl
@[simp] theorem modTile_agenda (t : Nat) (f : Tile → Tile) : (s.modTile t f).agenda = s.agenda := rfl
@[simp] theorem modTile_inputs (t : Nat) (f : Tile → Tile) : (s.modTile t f).inputs = s.inputs := rfl

/-! ### `modDie` -/

@[simp] theorem modDie_time (d : Nat) (f : Die → Die) : (s.modDie d f).time = s.time := rfl
@[simp] theorem modDie_ticks (d : Nat) (f : Die → Die) : (s.modDie d f).ticks = s.ticks := rfl
@[simp] theorem modDie_tiles (d : Nat) (f : Die → Die) : (s.modDie d f).tiles = s.tiles := rfl
@[simp] theorem modDie_parts (d : Nat) (f : Die → Die) : (s.modDie d f).parts = s.parts := rfl
@[simp] theorem modDie_ctxs (d : Nat) (f : Die → Die) : (s.modDie d f).ctxs = s.ctxs := rfl
@[simp] theorem modDie_links (d : Nat) (f : Die → Die) : (s.modDie d f).links = s.links := rfl
@[simp] theorem modDie_copies (d : Nat) (f : Die → Die) : (s.modDie d f).copies = s.copies := rfl
@[simp] theorem modDie_nextId (d : Nat) (f : Die → Die) : (s.modDie d f).nextId = s.nextId := rfl
@[simp] theorem modDie_mem (d : Nat) (f : Die → Die) : (s.modDie d f).mem = s.mem := rfl
@[simp] theorem modDie_hbm (d : Nat) (f : Die → Die) : (s.modDie d f).hbm = s.hbm := rfl
@[simp] theorem modDie_pkg (d : Nat) (f : Die → Die) : (s.modDie d f).pkg = s.pkg := rfl
@[simp] theorem modDie_free (d : Nat) (f : Die → Die) : (s.modDie d f).free = s.free := rfl
@[simp] theorem modDie_cur (d : Nat) (f : Die → Die) : (s.modDie d f).cur = s.cur := rfl
@[simp] theorem modDie_agenda (d : Nat) (f : Die → Die) : (s.modDie d f).agenda = s.agenda := rfl
@[simp] theorem modDie_inputs (d : Nat) (f : Die → Die) : (s.modDie d f).inputs = s.inputs := rfl

/-! ### `modFwc` -/

@[simp] theorem modFwc_time (d : Nat) (f : Fwc → Fwc) : (s.modFwc d f).time = s.time := rfl
@[simp] theorem modFwc_ticks (d : Nat) (f : Fwc → Fwc) : (s.modFwc d f).ticks = s.ticks := rfl
@[simp] theorem modFwc_tiles (d : Nat) (f : Fwc → Fwc) : (s.modFwc d f).tiles = s.tiles := rfl
@[simp] theorem modFwc_parts (d : Nat) (f : Fwc → Fwc) : (s.modFwc d f).parts = s.parts := rfl
@[simp] theorem modFwc_ctxs (d : Nat) (f : Fwc → Fwc) : (s.modFwc d f).ctxs = s.ctxs := rfl
@[simp] theorem modFwc_links (d : Nat) (f : Fwc → Fwc) : (s.modFwc d f).links = s.links := rfl
@[simp] theorem modFwc_copies (d : Nat) (f : Fwc → Fwc) : (s.modFwc d f).copies = s.copies := rfl
@[simp] theorem modFwc_nextId (d : Nat) (f : Fwc → Fwc) : (s.modFwc d f).nextId = s.nextId := rfl
@[simp] theorem modFwc_mem (d : Nat) (f : Fwc → Fwc) : (s.modFwc d f).mem = s.mem := rfl
@[simp] theorem modFwc_hbm (d : Nat) (f : Fwc → Fwc) : (s.modFwc d f).hbm = s.hbm := rfl
@[simp] theorem modFwc_pkg (d : Nat) (f : Fwc → Fwc) : (s.modFwc d f).pkg = s.pkg := rfl
@[simp] theorem modFwc_free (d : Nat) (f : Fwc → Fwc) : (s.modFwc d f).free = s.free := rfl
@[simp] theorem modFwc_cur (d : Nat) (f : Fwc → Fwc) : (s.modFwc d f).cur = s.cur := rfl
@[simp] theorem modFwc_agenda (d : Nat) (f : Fwc → Fwc) : (s.modFwc d f).agenda = s.agenda := rfl
@[simp] theorem modFwc_inputs (d : Nat) (f : Fwc → Fwc) : (s.modFwc d f).inputs = s.inputs := rfl

/-! ### `modPart` -/

@[simp] theorem modPart_time (p : Nat) (f : Part → Part) : (s.modPart p f).time = s.time := rfl
@[simp] theorem modPart_ticks (p : Nat) (f : Part → Part) : (s.modPart p f).ticks = s.ticks := rfl
@[simp] theorem modPart_tiles (p : Nat) (f : Part → Part) : (s.modPart p f).tiles = s.tiles := rfl
@[simp] theorem modPart_dies (p : Nat) (f : Part → Part) : (s.modPart p f).dies = s.dies := rfl
@[simp] theorem modPart_ctxs (p : Nat) (f : Part → Part) : (s.modPart p f).ctxs = s.ctxs := rfl
@[simp] theorem modPart_links (p : Nat) (f : Part → Part) : (s.modPart p f).links = s.links := rfl
@[simp] theorem modPart_copies (p : Nat) (f : Part → Part) : (s.modPart p f).copies = s.copies := rfl
@[simp] theorem modPart_nextId (p : Nat) (f : Part → Part) : (s.modPart p f).nextId = s.nextId := rfl
@[simp] theorem modPart_mem (p : Nat) (f : Part → Part) : (s.modPart p f).mem = s.mem := rfl
@[simp] theorem modPart_hbm (p : Nat) (f : Part → Part) : (s.modPart p f).hbm = s.hbm := rfl
@[simp] theorem modPart_pkg (p : Nat) (f : Part → Part) : (s.modPart p f).pkg = s.pkg := rfl
@[simp] theorem modPart_free (p : Nat) (f : Part → Part) : (s.modPart p f).free = s.free := rfl
@[simp] theorem modPart_cur (p : Nat) (f : Part → Part) : (s.modPart p f).cur = s.cur := rfl
@[simp] theorem modPart_agenda (p : Nat) (f : Part → Part) : (s.modPart p f).agenda = s.agenda := rfl
@[simp] theorem modPart_inputs (p : Nat) (f : Part → Part) : (s.modPart p f).inputs = s.inputs := rfl

/-! ### `modLink` -/

@[simp] theorem modLink_time (k : Nat) (f : Link → Link) : (s.modLink k f).time = s.time := rfl
@[simp] theorem modLink_ticks (k : Nat) (f : Link → Link) : (s.modLink k f).ticks = s.ticks := rfl
@[simp] theorem modLink_tiles (k : Nat) (f : Link → Link) : (s.modLink k f).tiles = s.tiles := rfl
@[simp] theorem modLink_dies (k : Nat) (f : Link → Link) : (s.modLink k f).dies = s.dies := rfl
@[simp] theorem modLink_parts (k : Nat) (f : Link → Link) : (s.modLink k f).parts = s.parts := rfl
@[simp] theorem modLink_ctxs (k : Nat) (f : Link → Link) : (s.modLink k f).ctxs = s.ctxs := rfl
@[simp] theorem modLink_copies (k : Nat) (f : Link → Link) : (s.modLink k f).copies = s.copies := rfl
@[simp] theorem modLink_nextId (k : Nat) (f : Link → Link) : (s.modLink k f).nextId = s.nextId := rfl
@[simp] theorem modLink_mem (k : Nat) (f : Link → Link) : (s.modLink k f).mem = s.mem := rfl
@[simp] theorem modLink_hbm (k : Nat) (f : Link → Link) : (s.modLink k f).hbm = s.hbm := rfl
@[simp] theorem modLink_pkg (k : Nat) (f : Link → Link) : (s.modLink k f).pkg = s.pkg := rfl
@[simp] theorem modLink_free (k : Nat) (f : Link → Link) : (s.modLink k f).free = s.free := rfl
@[simp] theorem modLink_cur (k : Nat) (f : Link → Link) : (s.modLink k f).cur = s.cur := rfl
@[simp] theorem modLink_agenda (k : Nat) (f : Link → Link) : (s.modLink k f).agenda = s.agenda := rfl
@[simp] theorem modLink_inputs (k : Nat) (f : Link → Link) : (s.modLink k f).inputs = s.inputs := rfl

/-! ### `draw` -/

@[simp] theorem draw_time : (s.draw).time = s.time := rfl
@[simp] theorem draw_ticks : (s.draw).ticks = s.ticks := rfl
@[simp] theorem draw_tiles : (s.draw).tiles = s.tiles := rfl
@[simp] theorem draw_dies : (s.draw).dies = s.dies := rfl
@[simp] theorem draw_parts : (s.draw).parts = s.parts := rfl
@[simp] theorem draw_ctxs : (s.draw).ctxs = s.ctxs := rfl
@[simp] theorem draw_links : (s.draw).links = s.links := rfl
@[simp] theorem draw_copies : (s.draw).copies = s.copies := rfl
@[simp] theorem draw_nextId : (s.draw).nextId = s.nextId := rfl
@[simp] theorem draw_mem : (s.draw).mem = s.mem := rfl
@[simp] theorem draw_hbm : (s.draw).hbm = s.hbm := rfl
@[simp] theorem draw_pkg : (s.draw).pkg = s.pkg := rfl
@[simp] theorem draw_cur : (s.draw).cur = s.cur := rfl
@[simp] theorem draw_agenda : (s.draw).agenda = s.agenda := rfl
@[simp] theorem draw_inputs : (s.draw).inputs = s.inputs := rfl

/-! ### `first` -/

@[simp] theorem first_time (ts : List Turn) : (s.first ts).time = s.time := rfl
@[simp] theorem first_ticks (ts : List Turn) : (s.first ts).ticks = s.ticks := rfl
@[simp] theorem first_tiles (ts : List Turn) : (s.first ts).tiles = s.tiles := rfl
@[simp] theorem first_dies (ts : List Turn) : (s.first ts).dies = s.dies := rfl
@[simp] theorem first_parts (ts : List Turn) : (s.first ts).parts = s.parts := rfl
@[simp] theorem first_ctxs (ts : List Turn) : (s.first ts).ctxs = s.ctxs := rfl
@[simp] theorem first_links (ts : List Turn) : (s.first ts).links = s.links := rfl
@[simp] theorem first_copies (ts : List Turn) : (s.first ts).copies = s.copies := rfl
@[simp] theorem first_nextId (ts : List Turn) : (s.first ts).nextId = s.nextId := rfl
@[simp] theorem first_mem (ts : List Turn) : (s.first ts).mem = s.mem := rfl
@[simp] theorem first_hbm (ts : List Turn) : (s.first ts).hbm = s.hbm := rfl
@[simp] theorem first_pkg (ts : List Turn) : (s.first ts).pkg = s.pkg := rfl
@[simp] theorem first_free (ts : List Turn) : (s.first ts).free = s.free := rfl
@[simp] theorem first_cur (ts : List Turn) : (s.first ts).cur = s.cur := rfl
@[simp] theorem first_inputs (ts : List Turn) : (s.first ts).inputs = s.inputs := rfl

/-! ### Readers an update does not touch -/

@[simp] theorem setTile_die_frame (t : Nat) (x : Tile) (j : Nat) : (s.setTile t x).die j = s.die j := rfl
@[simp] theorem setTile_fwc_frame (t : Nat) (x : Tile) (j : Nat) : (s.setTile t x).fwc j = s.fwc j := rfl
@[simp] theorem setTile_part_frame (t : Nat) (x : Tile) (j : Nat) : (s.setTile t x).part j = s.part j := rfl
@[simp] theorem setTile_ctx_frame (t : Nat) (x : Tile) (j : Nat) : (s.setTile t x).ctx j = s.ctx j := rfl
@[simp] theorem setTile_link_frame (t : Nat) (x : Tile) (j : Nat) : (s.setTile t x).link j = s.link j := rfl
@[simp] theorem setDie_tile_frame (d : Nat) (x : Die) (j : Nat) : (s.setDie d x).tile j = s.tile j := rfl
@[simp] theorem setDie_part_frame (d : Nat) (x : Die) (j : Nat) : (s.setDie d x).part j = s.part j := rfl
@[simp] theorem setDie_ctx_frame (d : Nat) (x : Die) (j : Nat) : (s.setDie d x).ctx j = s.ctx j := rfl
@[simp] theorem setDie_link_frame (d : Nat) (x : Die) (j : Nat) : (s.setDie d x).link j = s.link j := rfl
@[simp] theorem setPart_tile_frame (p : Nat) (x : Part) (j : Nat) : (s.setPart p x).tile j = s.tile j := rfl
@[simp] theorem setPart_die_frame (p : Nat) (x : Part) (j : Nat) : (s.setPart p x).die j = s.die j := rfl
@[simp] theorem setPart_fwc_frame (p : Nat) (x : Part) (j : Nat) : (s.setPart p x).fwc j = s.fwc j := rfl
@[simp] theorem setPart_ctx_frame (p : Nat) (x : Part) (j : Nat) : (s.setPart p x).ctx j = s.ctx j := rfl
@[simp] theorem setPart_link_frame (p : Nat) (x : Part) (j : Nat) : (s.setPart p x).link j = s.link j := rfl
@[simp] theorem modTile_die_frame (t : Nat) (f : Tile → Tile) (j : Nat) : (s.modTile t f).die j = s.die j := rfl
@[simp] theorem modTile_fwc_frame (t : Nat) (f : Tile → Tile) (j : Nat) : (s.modTile t f).fwc j = s.fwc j := rfl
@[simp] theorem modTile_part_frame (t : Nat) (f : Tile → Tile) (j : Nat) : (s.modTile t f).part j = s.part j := rfl
@[simp] theorem modTile_ctx_frame (t : Nat) (f : Tile → Tile) (j : Nat) : (s.modTile t f).ctx j = s.ctx j := rfl
@[simp] theorem modTile_link_frame (t : Nat) (f : Tile → Tile) (j : Nat) : (s.modTile t f).link j = s.link j := rfl
@[simp] theorem modDie_tile_frame (d : Nat) (f : Die → Die) (j : Nat) : (s.modDie d f).tile j = s.tile j := rfl
@[simp] theorem modDie_part_frame (d : Nat) (f : Die → Die) (j : Nat) : (s.modDie d f).part j = s.part j := rfl
@[simp] theorem modDie_ctx_frame (d : Nat) (f : Die → Die) (j : Nat) : (s.modDie d f).ctx j = s.ctx j := rfl
@[simp] theorem modDie_link_frame (d : Nat) (f : Die → Die) (j : Nat) : (s.modDie d f).link j = s.link j := rfl
@[simp] theorem modFwc_tile_frame (d : Nat) (f : Fwc → Fwc) (j : Nat) : (s.modFwc d f).tile j = s.tile j := rfl
@[simp] theorem modFwc_part_frame (d : Nat) (f : Fwc → Fwc) (j : Nat) : (s.modFwc d f).part j = s.part j := rfl
@[simp] theorem modFwc_ctx_frame (d : Nat) (f : Fwc → Fwc) (j : Nat) : (s.modFwc d f).ctx j = s.ctx j := rfl
@[simp] theorem modFwc_link_frame (d : Nat) (f : Fwc → Fwc) (j : Nat) : (s.modFwc d f).link j = s.link j := rfl
@[simp] theorem modPart_tile_frame (p : Nat) (f : Part → Part) (j : Nat) : (s.modPart p f).tile j = s.tile j := rfl
@[simp] theorem modPart_die_frame (p : Nat) (f : Part → Part) (j : Nat) : (s.modPart p f).die j = s.die j := rfl
@[simp] theorem modPart_fwc_frame (p : Nat) (f : Part → Part) (j : Nat) : (s.modPart p f).fwc j = s.fwc j := rfl
@[simp] theorem modPart_ctx_frame (p : Nat) (f : Part → Part) (j : Nat) : (s.modPart p f).ctx j = s.ctx j := rfl
@[simp] theorem modPart_link_frame (p : Nat) (f : Part → Part) (j : Nat) : (s.modPart p f).link j = s.link j := rfl
@[simp] theorem modLink_tile_frame (k : Nat) (f : Link → Link) (j : Nat) : (s.modLink k f).tile j = s.tile j := rfl
@[simp] theorem modLink_die_frame (k : Nat) (f : Link → Link) (j : Nat) : (s.modLink k f).die j = s.die j := rfl
@[simp] theorem modLink_fwc_frame (k : Nat) (f : Link → Link) (j : Nat) : (s.modLink k f).fwc j = s.fwc j := rfl
@[simp] theorem modLink_part_frame (k : Nat) (f : Link → Link) (j : Nat) : (s.modLink k f).part j = s.part j := rfl
@[simp] theorem modLink_ctx_frame (k : Nat) (f : Link → Link) (j : Nat) : (s.modLink k f).ctx j = s.ctx j := rfl
@[simp] theorem draw_tile_frame (j : Nat) : (s.draw).tile j = s.tile j := rfl
@[simp] theorem draw_die_frame (j : Nat) : (s.draw).die j = s.die j := rfl
@[simp] theorem draw_fwc_frame (j : Nat) : (s.draw).fwc j = s.fwc j := rfl
@[simp] theorem draw_part_frame (j : Nat) : (s.draw).part j = s.part j := rfl
@[simp] theorem draw_ctx_frame (j : Nat) : (s.draw).ctx j = s.ctx j := rfl
@[simp] theorem draw_link_frame (j : Nat) : (s.draw).link j = s.link j := rfl
@[simp] theorem first_tile_frame (ts : List Turn) (j : Nat) : (s.first ts).tile j = s.tile j := rfl
@[simp] theorem first_die_frame (ts : List Turn) (j : Nat) : (s.first ts).die j = s.die j := rfl
@[simp] theorem first_fwc_frame (ts : List Turn) (j : Nat) : (s.first ts).fwc j = s.fwc j := rfl
@[simp] theorem first_part_frame (ts : List Turn) (j : Nat) : (s.first ts).part j = s.part j := rfl
@[simp] theorem first_ctx_frame (ts : List Turn) (j : Nat) : (s.first ts).ctx j = s.ctx j := rfl
@[simp] theorem first_link_frame (ts : List Turn) (j : Nat) : (s.first ts).link j = s.link j := rfl

/-! ### A part that is written reads as written, every other one as before -/

@[simp] theorem tile_setTile (t : Nat) (x : Tile) : (s.setTile t x).tile t = x := Map.get_put_same _ _ _ _
theorem tile_setTile_ne (t u : Nat) (x : Tile) (h : u ≠ t) : (s.setTile t x).tile u = s.tile u := Map.get_put_ne _ _ _ _ _ h
@[simp] theorem tile_modTile (t : Nat) (f : Tile → Tile) : (s.modTile t f).tile t = f (s.tile t) := tile_setTile s t _
theorem tile_modTile_ne (t u : Nat) (f : Tile → Tile) (h : u ≠ t) : (s.modTile t f).tile u = s.tile u :=
  tile_setTile_ne s t u _ h
@[simp] theorem die_setDie (d : Nat) (x : Die) : (s.setDie d x).die d = x := Map.get_put_same _ _ _ _
theorem die_setDie_ne (d e : Nat) (x : Die) (h : e ≠ d) : (s.setDie d x).die e = s.die e := Map.get_put_ne _ _ _ _ _ h
@[simp] theorem die_modDie (d : Nat) (f : Die → Die) : (s.modDie d f).die d = f (s.die d) := die_setDie s d _
theorem die_modDie_ne (d e : Nat) (f : Die → Die) (h : e ≠ d) : (s.modDie d f).die e = s.die e := die_setDie_ne s d e _ h
@[simp] theorem fwc_modFwc (d : Nat) (f : Fwc → Fwc) : (s.modFwc d f).fwc d = f (s.fwc d) := by
  simp [fwc, modFwc]
theorem fwc_modFwc_ne (d e : Nat) (f : Fwc → Fwc) (h : e ≠ d) : (s.modFwc d f).fwc e = s.fwc e := by
  simp [fwc, modFwc, die_modDie_ne s d e _ h]
@[simp] theorem die_modFwc (d : Nat) (f : Fwc → Fwc) : (s.modFwc d f).die d = { s.die d with fwc := f (s.fwc d) } := by
  simp [fwc, modFwc]
@[simp] theorem part_setPart (p : Nat) (x : Part) : (s.setPart p x).part p = x := Map.get_put_same _ _ _ _
theorem part_setPart_ne (p q : Nat) (x : Part) (h : q ≠ p) : (s.setPart p x).part q = s.part q :=
  Map.get_put_ne _ _ _ _ _ h
@[simp] theorem part_modPart (p : Nat) (f : Part → Part) : (s.modPart p f).part p = f (s.part p) := part_setPart s p _
theorem part_modPart_ne (p q : Nat) (f : Part → Part) (h : q ≠ p) : (s.modPart p f).part q = s.part q :=
  part_setPart_ne s p q _ h
@[simp] theorem link_modLink (k : Nat) (f : Link → Link) : (s.modLink k f).link k = f (s.link k) := Map.get_put_same _ _ _ _
theorem link_modLink_ne (k j : Nat) (f : Link → Link) (h : j ≠ k) : (s.modLink k f).link j = s.link j :=
  Map.get_put_ne _ _ _ _ _ h

end Sys2Proof.Machine.State
end

