-- ==== Sys2Proof/Laws/Memory.lean ====
section
/-! SUPPORT. Every operation that writes physical memory keeps its canonical form. -/

namespace Sys2Proof.Machine

/-- A memory put into its canonical form has it. -/
theorem Mem.wf_canon (m : Mem) : Memory.wf m.canon = true := by
  unfold Mem.canon
  split
  · assumption
  · clear * -
    induction m with
    | nil => rfl
    | cons e r ih => exact Mem.wf_write _ _ _ ih

/-- A block of bytes placed in a memory keeps the canonical form. -/
theorem Mem.wf_blit (m : Mem) (a n : Nat) (b : Mem) (h : Memory.wf m = true) : Memory.wf (Mem.blit m a n b) = true := by
  unfold Mem.blit Memory.wf at *
  have hc : Map.wfFrom 0#8 0 (b.canon.filter fun e => decide (e.1 < n)) = true := Map.wfFrom_filter _ 0 _ _ (Mem.wf_canon b)
  have hs : Map.wfFrom 0#8 0 (Mem.shift (b.canon.filter fun e => decide (e.1 < n)) a) = true := by
    rw [Map.wfFrom_iff] at hc ⊢
    refine ⟨?_, fun e he => ?_⟩
    · simp only [Mem.shift, List.map_map, Function.comp_def, List.pairwise_map] at hc ⊢
      exact hc.1.imp fun h => by omega
    · obtain ⟨x, hx, rfl⟩ := List.mem_map.1 he
      exact ⟨Nat.zero_le _, (hc.2 x hx).2⟩
  refine Map.wfFrom_append _ 0 _ _ (Map.wfFrom_append _ 0 _ _ (Map.wfFrom_filter _ 0 m _ h) hs ?_) (Map.wfFrom_filter _ 0 m _ h) ?_
  · intro x hx y hy
    obtain ⟨z, hz, rfl⟩ := List.mem_map.1 hy
    have := (List.mem_filter.1 hx).2
    simp at this ⊢; omega
  · intro x hx y hy
    have h2 := (List.mem_filter.1 hy).2
    simp at h2
    rcases List.mem_append.1 hx with h1 | h1
    · have := (List.mem_filter.1 h1).2
      simp at this; omega
    · obtain ⟨z, hz, rfl⟩ := List.mem_map.1 h1
      have := (List.mem_filter.1 hz).2
      simp at this ⊢; omega

/-- A read of HBM changes no byte of physical memory (R375). -/
theorem State.touchHbm_mem (s : State) (pa n : Nat) : (s.touchHbm pa n).1.mem = s.mem := by
  unfold State.touchHbm
  dsimp only
  split
  · rfl
  · split
    · rfl
    · generalize hs : ({ s with hbm := s.hbm.filter fun m => !overlaps (32 * m.1) 32 pa n } : State) = u
      have hm : u.mem = s.mem := by rw [← hs]
      show (List.foldl _ u _).mem = s.mem
      generalize s.hbm.filter (fun m => overlaps (32 * m.1) 32 pa n) = ms
      clear hs
      induction ms generalizing u with
      | nil => exact hm
      | cons m r ih => exact ih _ hm

namespace State

theorem physWrite_ok (s : State) (a : Nat) (bs : List Byte) (h : s.memoryOk) : (s.physWrite a bs).memoryOk := by
  unfold State.physWrite
  split
  · exact h
  · exact Mem.wf_write _ _ _ h

theorem saveContext_ok (s : State) (t a : Nat) (h : s.memoryOk) : (s.saveContext t a).memoryOk := by
  unfold State.saveContext
  dsimp only
  by_cases hp : (s.portOf a).isSome = true <;> simp only [hp] <;> split <;> first | exact h | exact Mem.wf_blit _ _ _ _ h

theorem installPatch_mem (s : State) (d : Nat) : (s.installPatch d).mem = s.mem := by
  have hm := s.touchHbm_mem 0x100000 (patchSpan s.mem)
  unfold State.installPatch
  dsimp only
  split
  · rename_i u _ hu; rw [hu] at hm; exact hm
  · rename_i u hu
    rw [hu] at hm
    split
    · exact hm
    · split <;> exact hm

theorem restartFwc_mem (s : State) (d : Nat) : (s.restartFwc d).mem = s.mem := installPatch_mem _ _

theorem startCores_ok (s : State) (h : s.memoryOk) : s.startCores.memoryOk :=
  Map.wfFrom_filter _ 0 _ _ (List.foldlRecOn (motive := fun u : State => u.memoryOk) _ _ h fun u hu d _ => by
    split
    · rwa [State.memoryOk, restartFwc_mem]
    · exact hu)

end State

theorem State.touchWords_mem (s : State) (as : List Nat) : (s.touchWords as).1.mem = s.mem := by
  unfold State.touchWords
  have key : ∀ (l : List Nat) (q : State × Option Nat),
      (l.foldl (fun (q : State × Option Nat) a => match q.2 with | some _ => q | none => q.1.touchHbm a 8) q).1.mem = q.1.mem := by
    intro l
    induction l with
    | nil => exact fun q => rfl
    | cons a r ih =>
      intro q
      rw [List.foldl_cons, ih]
      split
      · rfl
      · exact State.touchHbm_mem _ _ _
  exact key as (s, none)

/-- A translation of a front end keeps the form. -/
theorem State.frontTranslate_ok (s : State) (d c va : Nat) (wr : Bool) (r : State × Nat × Bool) (h : s.memoryOk)
    (hr : s.frontTranslate d c va wr = .ok r) : r.1.memoryOk := by
  unfold State.frontTranslate State.refuseFront at hr
  split at hr
  · simp at hr
  split at hr
  · simp at hr
  have hm := (s.bumpDie d 0x24 1).touchWords_mem (s.walkWords c va)
  split at hr
  · simp at hr
  · rename_i u hu
    rw [hu] at hm
    have h : u.memoryOk := by unfold State.memoryOk at *; rw [show u.mem = s.mem from hm]; exact h
    split at hr
    · simp at hr
    · rename_i l _
      by_cases hb : bit l.bits (if wr then 3 else 2) = true
      · rw [hb] at hr
        simp only [Bool.not_true, Bool.false_eq_true, if_false, Except.ok.injEq] at hr
        rw [← hr]
        show Memory.wf (ite _ _ _ : State).mem = true
        by_cases hn : (l.bits % 256 ||| 0x20 ||| (if wr then 0x40 else 0)) = l.bits % 256
        · rw [if_pos hn]; exact h
        · rw [if_neg hn]; exact State.physWrite_ok _ _ _ h
      · simp [hb] at hr

/-- An access of a front end that is let through changes no byte of memory. -/
theorem State.frontReach_mem (s : State) (d c pa n : Nat) (r : State × Nat) (hr : s.frontReach d c pa n = .ok r) :
    r.1.mem = s.mem := by
  unfold State.frontReach State.refuseFront at hr
  split at hr
  · exact absurd hr (by simp)
  split at hr
  · exact absurd hr (by simp)
  split at hr
  · rw [← Except.ok.inj hr]
  split at hr
  · exact absurd hr (by simp)
  · dsimp only at hr
    rw [← Except.ok.inj hr]
    exact s.draw_mem

/-- A store through a front end's context keeps the form. -/
theorem State.frontWrite_ok (s : State) (r : State × Unit) (d c va : Nat) (sc : Bool) (bs : List Byte) (h : s.memoryOk)
    (hr : s.frontWrite d c va sc bs = .ok r) : r.1.memoryOk := by
  unfold State.frontWrite State.refuseFront at hr
  split at hr
  · simp at hr
  · rename_i u pa sc' hq
    split at hr
    · simp at hr
    · generalize hk : State.frontReach _ _ _ _ _ = k at hr
      match k with
      | .error e => simp [Except.map] at hr
      | .ok q =>
        simp only [Except.map, Except.ok.injEq] at hr
        rw [← hr]
        have hm := State.frontReach_mem _ _ _ _ _ _ hk
        have hu : u.memoryOk := State.frontTranslate_ok _ _ _ _ _ _ h hq
        refine State.physWrite_ok _ _ _ ?_
        unfold State.memoryOk at *
        rw [hm]; exact hu

end Sys2Proof.Machine
end

