-- ==== Sys2Proof/Laws/PerInstr.lean ====
section
/-! SUPPORT. What every instruction's words look like: as many words as the head's opcode fixes, extension words that repeat
the tag and carry no ring bits (R132, R133); a sequencer instruction is one word of its own layout (R147). -/

namespace Sys2Proof.Laws.Enc

/-- The words of a text instruction have the length their head fixes, and extension words are well formed (R133). -/
def Shaped : Words → Prop
  | .none => True
  | .one w => headLength w = 1
  | .two w e => headLength w = 2 ∧ extOk w e = true
  | .three w e1 e2 => headLength w = 3 ∧ extOk w e1 = true ∧ extOk w e2 = true

/-- An instruction is one sequencer word, or its text words are shaped as R133 says. -/
def Statement (i : Instr) : Prop := (∃ op f, encode i = seqW op f) ∨ Shaped (encode i)

theorem opOf_headW (tag : BitVec 2) (h : Ring) (op : BitVec 6) (f : BitVec 20) : opOf (headW tag h op f) = op.toNat := by
  unfold opOf fld headW
  congr 1
  apply BitVec.eq_of_getLsbD_eq
  intro k hk
  simp only [BitVec.getLsbD_extractLsb', BitVec.getLsbD_append, hk, decide_true, Bool.true_and]
  rw [if_neg (by omega), if_pos (by omega)]
  congr 1
  omega

theorem tagOf_headW (tag : BitVec 2) (h : Ring) (op : BitVec 6) (f : BitVec 20) : tagOf (headW tag h op f) = tag := by
  unfold tagOf fld headW
  apply BitVec.eq_of_getLsbD_eq
  intro k hk
  simp only [BitVec.getLsbD_extractLsb', BitVec.getLsbD_append, hk, decide_true, Bool.true_and]
  rw [if_neg (by omega), if_neg (by omega), if_neg (by omega)]
  congr 1
  omega

/-- Ring bits and fields do not change the length. -/
theorem headLength_headW (tag : BitVec 2) (h : Ring) (op : BitVec 6) (f : BitVec 20) :
    headLength (headW tag h op f) = headLength (headW tag Ring.none op 0) := by
  unfold headLength
  simp only [opOf_headW, tagOf_headW]

theorem extOk_extW (tag : BitVec 2) (h : Ring) (op : BitVec 6) (f : BitVec 20) (p : BitVec 26) :
    extOk (headW tag h op f) (extW tag p) = true := by
  have h1 : tagOf (extW tag p) = tag := by
    unfold tagOf fld extW
    apply BitVec.eq_of_getLsbD_eq
    intro k hk
    simp only [BitVec.getLsbD_extractLsb', BitVec.getLsbD_append, hk, decide_true, Bool.true_and]
    rw [if_neg (by omega), if_neg (by omega)]
    congr 1
    omega
  have h2 : fld (extW tag p) 26 4 = 0#4 := by
    unfold fld extW
    apply BitVec.eq_of_getLsbD_eq
    intro k hk
    simp only [BitVec.getLsbD_extractLsb', BitVec.getLsbD_append, hk, decide_true, Bool.true_and]
    rw [if_neg (by omega), if_pos (by omega)]
    simp
  simp [extOk, h1, h2, tagOf_headW]

theorem one (tag : BitVec 2) (h : Ring) (op : BitVec 6) (f : BitVec 20) (hn : headLength (headW tag Ring.none op 0) = 1) :
    Shaped (.one (headW tag h op f)) := (headLength_headW tag h op f).trans hn

theorem two (tag : BitVec 2) (h : Ring) (op : BitVec 6) (f : BitVec 20) (p : BitVec 26)
    (hn : headLength (headW tag Ring.none op 0) = 2) : Shaped (.two (headW tag h op f) (extW tag p)) :=
  ⟨(headLength_headW tag h op f).trans hn, extOk_extW tag h op f p⟩

theorem three (tag : BitVec 2) (h : Ring) (op : BitVec 6) (f : BitVec 20) (p q : BitVec 26)
    (hn : headLength (headW tag Ring.none op 0) = 3) : Shaped (.three (headW tag h op f) (extW tag p) (extW tag q)) :=
  ⟨(headLength_headW tag h op f).trans hn, extOk_extW tag h op f p, extOk_extW tag h op f q⟩

/-! ### One lemma per constructor -/

end Sys2Proof.Laws.Enc

theorem Sys2Proof.Laws.Enc.nop : ∀ a0 a1, Sys2Proof.Laws.Enc.Statement (.nop a0 a1) :=
  fun _ _ => Or.inr (Sys2Proof.Laws.Enc.one _ _ _ _ (by decide))
theorem Sys2Proof.Laws.Enc.add : ∀ a0 a1 a2 a3, Sys2Proof.Laws.Enc.Statement (.add a0 a1 a2 a3) :=
  fun _ _ _ _ => Or.inr (Sys2Proof.Laws.Enc.one _ _ _ _ (by decide))
theorem Sys2Proof.Laws.Enc.sub : ∀ a0 a1 a2 a3, Sys2Proof.Laws.Enc.Statement (.sub a0 a1 a2 a3) :=
  fun _ _ _ _ => Or.inr (Sys2Proof.Laws.Enc.one _ _ _ _ (by decide))
theorem Sys2Proof.Laws.Enc.min : ∀ a0 a1 a2 a3, Sys2Proof.Laws.Enc.Statement (.min a0 a1 a2 a3) :=
  fun _ _ _ _ => Or.inr (Sys2Proof.Laws.Enc.one _ _ _ _ (by decide))
theorem Sys2Proof.Laws.Enc.max : ∀ a0 a1 a2 a3, Sys2Proof.Laws.Enc.Statement (.max a0 a1 a2 a3) :=
  fun _ _ _ _ => Or.inr (Sys2Proof.Laws.Enc.one _ _ _ _ (by decide))
theorem Sys2Proof.Laws.Enc.minz : ∀ a0 a1 a2 a3, Sys2Proof.Laws.Enc.Statement (.minz a0 a1 a2 a3) :=
  fun _ _ _ _ => Or.inr (Sys2Proof.Laws.Enc.one _ _ _ _ (by decide))
theorem Sys2Proof.Laws.Enc.maxz : ∀ a0 a1 a2 a3, Sys2Proof.Laws.Enc.Statement (.maxz a0 a1 a2 a3) :=
  fun _ _ _ _ => Or.inr (Sys2Proof.Laws.Enc.one _ _ _ _ (by decide))
theorem Sys2Proof.Laws.Enc.adda : ∀ a0 a1 a2 a3 a4, Sys2Proof.Laws.Enc.Statement (.adda a0 a1 a2 a3 a4) :=
  fun _ _ _ _ _ => Or.inr (Sys2Proof.Laws.Enc.one _ _ _ _ (by decide))
theorem Sys2Proof.Laws.Enc.mul : ∀ a0 a1 a2 a3, Sys2Proof.Laws.Enc.Statement (.mul a0 a1 a2 a3) :=
  fun _ _ _ _ => Or.inr (Sys2Proof.Laws.Enc.one _ _ _ _ (by decide))
theorem Sys2Proof.Laws.Enc.mulh : ∀ a0 a1 a2 a3, Sys2Proof.Laws.Enc.Statement (.mulh a0 a1 a2 a3) :=
  fun _ _ _ _ => Or.inr (Sys2Proof.Laws.Enc.one _ _ _ _ (by decide))
theorem Sys2Proof.Laws.Enc.mulhz : ∀ a0 a1 a2 a3, Sys2Proof.Laws.Enc.Statement (.mulhz a0 a1 a2 a3) :=
  fun _ _ _ _ => Or.inr (Sys2Proof.Laws.Enc.one _ _ _ _ (by decide))
theorem Sys2Proof.Laws.Enc.divs : ∀ a0 a1 a2 a3, Sys2Proof.Laws.Enc.Statement (.divs a0 a1 a2 a3) :=
  fun _ _ _ _ => Or.inr (Sys2Proof.Laws.Enc.one _ _ _ _ (by decide))
theorem Sys2Proof.Laws.Enc.divz : ∀ a0 a1 a2 a3, Sys2Proof.Laws.Enc.Statement (.divz a0 a1 a2 a3) :=
  fun _ _ _ _ => Or.inr (Sys2Proof.Laws.Enc.one _ _ _ _ (by decide))
theorem Sys2Proof.Laws.Enc.and : ∀ a0 a1 a2 a3, Sys2Proof.Laws.Enc.Statement (.and a0 a1 a2 a3) :=
  fun _ _ _ _ => Or.inr (Sys2Proof.Laws.Enc.one _ _ _ _ (by decide))
theorem Sys2Proof.Laws.Enc.or : ∀ a0 a1 a2 a3, Sys2Proof.Laws.Enc.Statement (.or a0 a1 a2 a3) :=
  fun _ _ _ _ => Or.inr (Sys2Proof.Laws.Enc.one _ _ _ _ (by decide))
theorem Sys2Proof.Laws.Enc.xor : ∀ a0 a1 a2 a3, Sys2Proof.Laws.Enc.Statement (.xor a0 a1 a2 a3) :=
  fun _ _ _ _ => Or.inr (Sys2Proof.Laws.Enc.one _ _ _ _ (by decide))
theorem Sys2Proof.Laws.Enc.shl : ∀ a0 a1 a2 a3, Sys2Proof.Laws.Enc.Statement (.shl a0 a1 a2 a3) :=
  fun _ _ _ _ => Or.inr (Sys2Proof.Laws.Enc.one _ _ _ _ (by decide))
theorem Sys2Proof.Laws.Enc.shr : ∀ a0 a1 a2 a3, Sys2Proof.Laws.Enc.Statement (.shr a0 a1 a2 a3) :=
  fun _ _ _ _ => Or.inr (Sys2Proof.Laws.Enc.one _ _ _ _ (by decide))
theorem Sys2Proof.Laws.Enc.sar : ∀ a0 a1 a2 a3, Sys2Proof.Laws.Enc.Statement (.sar a0 a1 a2 a3) :=
  fun _ _ _ _ => Or.inr (Sys2Proof.Laws.Enc.one _ _ _ _ (by decide))
theorem Sys2Proof.Laws.Enc.addi : ∀ a0 a1 a2 a3, Sys2Proof.Laws.Enc.Statement (.addi a0 a1 a2 a3) :=
  fun _ _ _ _ => Or.inr (Sys2Proof.Laws.Enc.one _ _ _ _ (by decide))
theorem Sys2Proof.Laws.Enc.andi : ∀ a0 a1 a2 a3, Sys2Proof.Laws.Enc.Statement (.andi a0 a1 a2 a3) :=
  fun _ _ _ _ => Or.inr (Sys2Proof.Laws.Enc.one _ _ _ _ (by decide))
theorem Sys2Proof.Laws.Enc.ori : ∀ a0 a1 a2 a3, Sys2Proof.Laws.Enc.Statement (.ori a0 a1 a2 a3) :=
  fun _ _ _ _ => Or.inr (Sys2Proof.Laws.Enc.one _ _ _ _ (by decide))
theorem Sys2Proof.Laws.Enc.xori : ∀ a0 a1 a2 a3, Sys2Proof.Laws.Enc.Statement (.xori a0 a1 a2 a3) :=
  fun _ _ _ _ => Or.inr (Sys2Proof.Laws.Enc.one _ _ _ _ (by decide))
theorem Sys2Proof.Laws.Enc.shli : ∀ a0 a1 a2 a3, Sys2Proof.Laws.Enc.Statement (.shli a0 a1 a2 a3) :=
  fun _ _ _ _ => Or.inr (Sys2Proof.Laws.Enc.one _ _ _ _ (by decide))
theorem Sys2Proof.Laws.Enc.shri : ∀ a0 a1 a2 a3, Sys2Proof.Laws.Enc.Statement (.shri a0 a1 a2 a3) :=
  fun _ _ _ _ => Or.inr (Sys2Proof.Laws.Enc.one _ _ _ _ (by decide))
theorem Sys2Proof.Laws.Enc.sari : ∀ a0 a1 a2 a3, Sys2Proof.Laws.Enc.Statement (.sari a0 a1 a2 a3) :=
  fun _ _ _ _ => Or.inr (Sys2Proof.Laws.Enc.one _ _ _ _ (by decide))
theorem Sys2Proof.Laws.Enc.clz : ∀ a0 a1 a2, Sys2Proof.Laws.Enc.Statement (.clz a0 a1 a2) :=
  fun _ _ _ => Or.inr (Sys2Proof.Laws.Enc.one _ _ _ _ (by decide))
theorem Sys2Proof.Laws.Enc.popc : ∀ a0 a1 a2, Sys2Proof.Laws.Enc.Statement (.popc a0 a1 a2) :=
  fun _ _ _ => Or.inr (Sys2Proof.Laws.Enc.one _ _ _ _ (by decide))
theorem Sys2Proof.Laws.Enc.mov : ∀ a0 a1 a2, Sys2Proof.Laws.Enc.Statement (.mov a0 a1 a2) :=
  fun _ _ _ => Or.inr (Sys2Proof.Laws.Enc.one _ _ _ _ (by decide))
theorem Sys2Proof.Laws.Enc.bfx : ∀ a0 a1 a2 a3, Sys2Proof.Laws.Enc.Statement (.bfx a0 a1 a2 a3) :=
  fun _ _ _ _ => Or.inr (Sys2Proof.Laws.Enc.one _ _ _ _ (by decide))
theorem Sys2Proof.Laws.Enc.bfi : ∀ a0 a1 a2 a3, Sys2Proof.Laws.Enc.Statement (.bfi a0 a1 a2 a3) :=
  fun _ _ _ _ => Or.inr (Sys2Proof.Laws.Enc.one _ _ _ _ (by decide))
theorem Sys2Proof.Laws.Enc.sel : ∀ a0 a1 a2 a3 a4 a5, Sys2Proof.Laws.Enc.Statement (.sel a0 a1 a2 a3 a4 a5) :=
  fun _ _ _ _ _ _ => Or.inr (Sys2Proof.Laws.Enc.two _ _ _ _ _ (by decide))
theorem Sys2Proof.Laws.Enc.li : ∀ a0 a1 a2, Sys2Proof.Laws.Enc.Statement (.li a0 a1 a2) :=
  fun _ _ _ => Or.inr (Sys2Proof.Laws.Enc.two _ _ _ _ _ (by decide))
theorem Sys2Proof.Laws.Enc.lih : ∀ a0 a1 a2, Sys2Proof.Laws.Enc.Statement (.lih a0 a1 a2) :=
  fun _ _ _ => Or.inr (Sys2Proof.Laws.Enc.two _ _ _ _ _ (by decide))
theorem Sys2Proof.Laws.Enc.movl : ∀ a0 a1, Sys2Proof.Laws.Enc.Statement (.movl a0 a1) :=
  fun _ _ => Or.inr (Sys2Proof.Laws.Enc.one _ _ _ _ (by decide))
theorem Sys2Proof.Laws.Enc.movlHi : ∀ a0 a1, Sys2Proof.Laws.Enc.Statement (.movlHi a0 a1) :=
  fun _ _ => Or.inr (Sys2Proof.Laws.Enc.one _ _ _ _ (by decide))
theorem Sys2Proof.Laws.Enc.movlD : ∀ a0 a1, Sys2Proof.Laws.Enc.Statement (.movlD a0 a1) :=
  fun _ _ => Or.inr (Sys2Proof.Laws.Enc.one _ _ _ _ (by decide))
theorem Sys2Proof.Laws.Enc.movlLnk : ∀ a0 a1, Sys2Proof.Laws.Enc.Statement (.movlLnk a0 a1) :=
  fun _ _ => Or.inr (Sys2Proof.Laws.Enc.one _ _ _ _ (by decide))
theorem Sys2Proof.Laws.Enc.cmpEq : ∀ a0 a1 a2 a3, Sys2Proof.Laws.Enc.Statement (.cmpEq a0 a1 a2 a3) :=
  fun _ _ _ _ => Or.inr (Sys2Proof.Laws.Enc.one _ _ _ _ (by decide))
theorem Sys2Proof.Laws.Enc.cmpNe : ∀ a0 a1 a2 a3, Sys2Proof.Laws.Enc.Statement (.cmpNe a0 a1 a2 a3) :=
  fun _ _ _ _ => Or.inr (Sys2Proof.Laws.Enc.one _ _ _ _ (by decide))
theorem Sys2Proof.Laws.Enc.cmpLt : ∀ a0 a1 a2 a3, Sys2Proof.Laws.Enc.Statement (.cmpLt a0 a1 a2 a3) :=
  fun _ _ _ _ => Or.inr (Sys2Proof.Laws.Enc.one _ _ _ _ (by decide))
theorem Sys2Proof.Laws.Enc.cmpGe : ∀ a0 a1 a2 a3, Sys2Proof.Laws.Enc.Statement (.cmpGe a0 a1 a2 a3) :=
  fun _ _ _ _ => Or.inr (Sys2Proof.Laws.Enc.one _ _ _ _ (by decide))
theorem Sys2Proof.Laws.Enc.cmpLtz : ∀ a0 a1 a2 a3, Sys2Proof.Laws.Enc.Statement (.cmpLtz a0 a1 a2 a3) :=
  fun _ _ _ _ => Or.inr (Sys2Proof.Laws.Enc.one _ _ _ _ (by decide))
theorem Sys2Proof.Laws.Enc.cmpGez : ∀ a0 a1 a2 a3, Sys2Proof.Laws.Enc.Statement (.cmpGez a0 a1 a2 a3) :=
  fun _ _ _ _ => Or.inr (Sys2Proof.Laws.Enc.one _ _ _ _ (by decide))
theorem Sys2Proof.Laws.Enc.cmpiEq : ∀ a0 a1 a2 a3, Sys2Proof.Laws.Enc.Statement (.cmpiEq a0 a1 a2 a3) :=
  fun _ _ _ _ => Or.inr (Sys2Proof.Laws.Enc.one _ _ _ _ (by decide))
theorem Sys2Proof.Laws.Enc.cmpiNe : ∀ a0 a1 a2 a3, Sys2Proof.Laws.Enc.Statement (.cmpiNe a0 a1 a2 a3) :=
  fun _ _ _ _ => Or.inr (Sys2Proof.Laws.Enc.one _ _ _ _ (by decide))
theorem Sys2Proof.Laws.Enc.cmpiLt : ∀ a0 a1 a2 a3, Sys2Proof.Laws.Enc.Statement (.cmpiLt a0 a1 a2 a3) :=
  fun _ _ _ _ => Or.inr (Sys2Proof.Laws.Enc.one _ _ _ _ (by decide))
theorem Sys2Proof.Laws.Enc.cmpiGe : ∀ a0 a1 a2 a3, Sys2Proof.Laws.Enc.Statement (.cmpiGe a0 a1 a2 a3) :=
  fun _ _ _ _ => Or.inr (Sys2Proof.Laws.Enc.one _ _ _ _ (by decide))
theorem Sys2Proof.Laws.Enc.cmpiLtz : ∀ a0 a1 a2 a3, Sys2Proof.Laws.Enc.Statement (.cmpiLtz a0 a1 a2 a3) :=
  fun _ _ _ _ => Or.inr (Sys2Proof.Laws.Enc.one _ _ _ _ (by decide))
theorem Sys2Proof.Laws.Enc.cmpiGez : ∀ a0 a1 a2 a3, Sys2Proof.Laws.Enc.Statement (.cmpiGez a0 a1 a2 a3) :=
  fun _ _ _ _ => Or.inr (Sys2Proof.Laws.Enc.one _ _ _ _ (by decide))
theorem Sys2Proof.Laws.Enc.pand : ∀ a0 a1 a2 a3, Sys2Proof.Laws.Enc.Statement (.pand a0 a1 a2 a3) :=
  fun _ _ _ _ => Or.inr (Sys2Proof.Laws.Enc.one _ _ _ _ (by decide))
theorem Sys2Proof.Laws.Enc.por : ∀ a0 a1 a2 a3, Sys2Proof.Laws.Enc.Statement (.por a0 a1 a2 a3) :=
  fun _ _ _ _ => Or.inr (Sys2Proof.Laws.Enc.one _ _ _ _ (by decide))
theorem Sys2Proof.Laws.Enc.pxor : ∀ a0 a1 a2 a3, Sys2Proof.Laws.Enc.Statement (.pxor a0 a1 a2 a3) :=
  fun _ _ _ _ => Or.inr (Sys2Proof.Laws.Enc.one _ _ _ _ (by decide))
theorem Sys2Proof.Laws.Enc.prep : ∀ a0 a1 a2, Sys2Proof.Laws.Enc.Statement (.prep a0 a1 a2) :=
  fun _ _ _ => Or.inr (Sys2Proof.Laws.Enc.one _ _ _ _ (by decide))
theorem Sys2Proof.Laws.Enc.preps : ∀ a0 a1 a2, Sys2Proof.Laws.Enc.Statement (.preps a0 a1 a2) :=
  fun _ _ _ => Or.inr (Sys2Proof.Laws.Enc.one _ _ _ _ (by decide))
theorem Sys2Proof.Laws.Enc.xfer : ∀ a0 a1 a2, Sys2Proof.Laws.Enc.Statement (.xfer a0 a1 a2) :=
  fun _ _ _ => Or.inr (Sys2Proof.Laws.Enc.one _ _ _ _ (by decide))
theorem Sys2Proof.Laws.Enc.xfern : ∀ a0 a1 a2, Sys2Proof.Laws.Enc.Statement (.xfern a0 a1 a2) :=
  fun _ _ _ => Or.inr (Sys2Proof.Laws.Enc.one _ _ _ _ (by decide))
theorem Sys2Proof.Laws.Enc.call : ∀ a0 a1, Sys2Proof.Laws.Enc.Statement (.call a0 a1) :=
  fun _ _ => Or.inr (Sys2Proof.Laws.Enc.one _ _ _ _ (by decide))
theorem Sys2Proof.Laws.Enc.cinv : ∀ a0 a1, Sys2Proof.Laws.Enc.Statement (.cinv a0 a1) :=
  fun _ _ => Or.inr (Sys2Proof.Laws.Enc.one _ _ _ _ (by decide))
theorem Sys2Proof.Laws.Enc.cinva : ∀ a0, Sys2Proof.Laws.Enc.Statement (.cinva a0) :=
  fun _ => Or.inr (Sys2Proof.Laws.Enc.one _ _ _ _ (by decide))
theorem Sys2Proof.Laws.Enc.lpset : ∀ a0 a1 a2, Sys2Proof.Laws.Enc.Statement (.lpset a0 a1 a2) :=
  fun _ _ _ => Or.inr (Sys2Proof.Laws.Enc.one _ _ _ _ (by decide))
theorem Sys2Proof.Laws.Enc.lpsetReg : ∀ a0 a1 a2, Sys2Proof.Laws.Enc.Statement (.lpsetReg a0 a1 a2) :=
  fun _ _ _ => Or.inr (Sys2Proof.Laws.Enc.one _ _ _ _ (by decide))
theorem Sys2Proof.Laws.Enc.lpend : ∀ a0 a1, Sys2Proof.Laws.Enc.Statement (.lpend a0 a1) :=
  fun _ _ => Or.inr (Sys2Proof.Laws.Enc.one _ _ _ _ (by decide))
theorem Sys2Proof.Laws.Enc.lpidx : ∀ a0 a1 a2, Sys2Proof.Laws.Enc.Statement (.lpidx a0 a1 a2) :=
  fun _ _ _ => Or.inr (Sys2Proof.Laws.Enc.one _ _ _ _ (by decide))
theorem Sys2Proof.Laws.Enc.ldb : ∀ a0 a1 a2 a3, Sys2Proof.Laws.Enc.Statement (.ldb a0 a1 a2 a3) :=
  fun _ _ _ _ => Or.inr (Sys2Proof.Laws.Enc.one _ _ _ _ (by decide))
theorem Sys2Proof.Laws.Enc.ldbz : ∀ a0 a1 a2 a3, Sys2Proof.Laws.Enc.Statement (.ldbz a0 a1 a2 a3) :=
  fun _ _ _ _ => Or.inr (Sys2Proof.Laws.Enc.one _ _ _ _ (by decide))
theorem Sys2Proof.Laws.Enc.ldh : ∀ a0 a1 a2 a3, Sys2Proof.Laws.Enc.Statement (.ldh a0 a1 a2 a3) :=
  fun _ _ _ _ => Or.inr (Sys2Proof.Laws.Enc.one _ _ _ _ (by decide))
theorem Sys2Proof.Laws.Enc.ldhz : ∀ a0 a1 a2 a3, Sys2Proof.Laws.Enc.Statement (.ldhz a0 a1 a2 a3) :=
  fun _ _ _ _ => Or.inr (Sys2Proof.Laws.Enc.one _ _ _ _ (by decide))
theorem Sys2Proof.Laws.Enc.ldw : ∀ a0 a1 a2 a3, Sys2Proof.Laws.Enc.Statement (.ldw a0 a1 a2 a3) :=
  fun _ _ _ _ => Or.inr (Sys2Proof.Laws.Enc.one _ _ _ _ (by decide))
theorem Sys2Proof.Laws.Enc.ldd : ∀ a0 a1 a2 a3, Sys2Proof.Laws.Enc.Statement (.ldd a0 a1 a2 a3) :=
  fun _ _ _ _ => Or.inr (Sys2Proof.Laws.Enc.one _ _ _ _ (by decide))
theorem Sys2Proof.Laws.Enc.stb : ∀ a0 a1 a2 a3, Sys2Proof.Laws.Enc.Statement (.stb a0 a1 a2 a3) :=
  fun _ _ _ _ => Or.inr (Sys2Proof.Laws.Enc.one _ _ _ _ (by decide))
theorem Sys2Proof.Laws.Enc.sth : ∀ a0 a1 a2 a3, Sys2Proof.Laws.Enc.Statement (.sth a0 a1 a2 a3) :=
  fun _ _ _ _ => Or.inr (Sys2Proof.Laws.Enc.one _ _ _ _ (by decide))
theorem Sys2Proof.Laws.Enc.stw : ∀ a0 a1 a2 a3, Sys2Proof.Laws.Enc.Statement (.stw a0 a1 a2 a3) :=
  fun _ _ _ _ => Or.inr (Sys2Proof.Laws.Enc.one _ _ _ _ (by decide))
theorem Sys2Proof.Laws.Enc.std : ∀ a0 a1 a2 a3, Sys2Proof.Laws.Enc.Statement (.std a0 a1 a2 a3) :=
  fun _ _ _ _ => Or.inr (Sys2Proof.Laws.Enc.one _ _ _ _ (by decide))
theorem Sys2Proof.Laws.Enc.aadd : ∀ a0 a1 a2 a3, Sys2Proof.Laws.Enc.Statement (.aadd a0 a1 a2 a3) :=
  fun _ _ _ _ => Or.inr (Sys2Proof.Laws.Enc.one _ _ _ _ (by decide))
theorem Sys2Proof.Laws.Enc.amin : ∀ a0 a1 a2 a3, Sys2Proof.Laws.Enc.Statement (.amin a0 a1 a2 a3) :=
  fun _ _ _ _ => Or.inr (Sys2Proof.Laws.Enc.one _ _ _ _ (by decide))
theorem Sys2Proof.Laws.Enc.amax : ∀ a0 a1 a2 a3, Sys2Proof.Laws.Enc.Statement (.amax a0 a1 a2 a3) :=
  fun _ _ _ _ => Or.inr (Sys2Proof.Laws.Enc.one _ _ _ _ (by decide))
theorem Sys2Proof.Laws.Enc.axchg : ∀ a0 a1 a2 a3, Sys2Proof.Laws.Enc.Statement (.axchg a0 a1 a2 a3) :=
  fun _ _ _ _ => Or.inr (Sys2Proof.Laws.Enc.one _ _ _ _ (by decide))
theorem Sys2Proof.Laws.Enc.acas : ∀ a0 a1 a2 a3, Sys2Proof.Laws.Enc.Statement (.acas a0 a1 a2 a3) :=
  fun _ _ _ _ => Or.inr (Sys2Proof.Laws.Enc.one _ _ _ _ (by decide))
theorem Sys2Proof.Laws.Enc.acasD : ∀ a0 a1 a2 a3, Sys2Proof.Laws.Enc.Statement (.acasD a0 a1 a2 a3) :=
  fun _ _ _ _ => Or.inr (Sys2Proof.Laws.Enc.one _ _ _ _ (by decide))
theorem Sys2Proof.Laws.Enc.ksig : ∀ a0 a1 a2, Sys2Proof.Laws.Enc.Statement (.ksig a0 a1 a2) :=
  fun _ _ _ => Or.inr (Sys2Proof.Laws.Enc.one _ _ _ _ (by decide))
theorem Sys2Proof.Laws.Enc.ksigReg : ∀ a0 a1 a2, Sys2Proof.Laws.Enc.Statement (.ksigReg a0 a1 a2) :=
  fun _ _ _ => Or.inr (Sys2Proof.Laws.Enc.one _ _ _ _ (by decide))
theorem Sys2Proof.Laws.Enc.kwait : ∀ a0 a1 a2, Sys2Proof.Laws.Enc.Statement (.kwait a0 a1 a2) :=
  fun _ _ _ => Or.inr (Sys2Proof.Laws.Enc.one _ _ _ _ (by decide))
theorem Sys2Proof.Laws.Enc.kwaitReg : ∀ a0 a1 a2, Sys2Proof.Laws.Enc.Statement (.kwaitReg a0 a1 a2) :=
  fun _ _ _ => Or.inr (Sys2Proof.Laws.Enc.one _ _ _ _ (by decide))
theorem Sys2Proof.Laws.Enc.semsig : ∀ a0 a1, Sys2Proof.Laws.Enc.Statement (.semsig a0 a1) :=
  fun _ _ => Or.inr (Sys2Proof.Laws.Enc.one _ _ _ _ (by decide))
theorem Sys2Proof.Laws.Enc.semwait : ∀ a0 a1, Sys2Proof.Laws.Enc.Statement (.semwait a0 a1) :=
  fun _ _ => Or.inr (Sys2Proof.Laws.Enc.one _ _ _ _ (by decide))
theorem Sys2Proof.Laws.Enc.push : ∀ a0 a1, Sys2Proof.Laws.Enc.Statement (.push a0 a1) :=
  fun _ _ => Or.inr (Sys2Proof.Laws.Enc.one _ _ _ _ (by decide))
theorem Sys2Proof.Laws.Enc.pop : ∀ a0 a1 a2, Sys2Proof.Laws.Enc.Statement (.pop a0 a1 a2) :=
  fun _ _ _ => Or.inr (Sys2Proof.Laws.Enc.one _ _ _ _ (by decide))
theorem Sys2Proof.Laws.Enc.arrive : ∀ a0, Sys2Proof.Laws.Enc.Statement (.arrive a0) :=
  fun _ => Or.inr (Sys2Proof.Laws.Enc.one _ _ _ _ (by decide))
theorem Sys2Proof.Laws.Enc.mfph : ∀ a0 a1, Sys2Proof.Laws.Enc.Statement (.mfph a0 a1) :=
  fun _ _ => Or.inr (Sys2Proof.Laws.Enc.one _ _ _ _ (by decide))
theorem Sys2Proof.Laws.Enc.mftime : ∀ a0 a1, Sys2Proof.Laws.Enc.Statement (.mftime a0 a1) :=
  fun _ _ => Or.inr (Sys2Proof.Laws.Enc.one _ _ _ _ (by decide))
theorem Sys2Proof.Laws.Enc.mfcyc : ∀ a0 a1, Sys2Proof.Laws.Enc.Statement (.mfcyc a0 a1) :=
  fun _ _ => Or.inr (Sys2Proof.Laws.Enc.one _ _ _ _ (by decide))
theorem Sys2Proof.Laws.Enc.realign : ∀ a0, Sys2Proof.Laws.Enc.Statement (.realign a0) :=
  fun _ => Or.inr (Sys2Proof.Laws.Enc.one _ _ _ _ (by decide))
theorem Sys2Proof.Laws.Enc.hand : ∀ a0 a1 a2, Sys2Proof.Laws.Enc.Statement (.hand a0 a1 a2) :=
  fun _ _ _ => Or.inr (Sys2Proof.Laws.Enc.one _ _ _ _ (by decide))
theorem Sys2Proof.Laws.Enc.take : ∀ a0 a1, Sys2Proof.Laws.Enc.Statement (.take a0 a1) :=
  fun _ _ => Or.inr (Sys2Proof.Laws.Enc.one _ _ _ _ (by decide))
theorem Sys2Proof.Laws.Enc.fenceTile : ∀ a0, Sys2Proof.Laws.Enc.Statement (.fenceTile a0) :=
  fun _ => Or.inr (Sys2Proof.Laws.Enc.one _ _ _ _ (by decide))
theorem Sys2Proof.Laws.Enc.fenceDie : ∀ a0, Sys2Proof.Laws.Enc.Statement (.fenceDie a0) :=
  fun _ => Or.inr (Sys2Proof.Laws.Enc.one _ _ _ _ (by decide))
theorem Sys2Proof.Laws.Enc.fencePackage : ∀ a0, Sys2Proof.Laws.Enc.Statement (.fencePackage a0) :=
  fun _ => Or.inr (Sys2Proof.Laws.Enc.one _ _ _ _ (by decide))
theorem Sys2Proof.Laws.Enc.fenceSystem : ∀ a0, Sys2Proof.Laws.Enc.Statement (.fenceSystem a0) :=
  fun _ => Or.inr (Sys2Proof.Laws.Enc.one _ _ _ _ (by decide))
theorem Sys2Proof.Laws.Enc.promote : ∀ a0 a1, Sys2Proof.Laws.Enc.Statement (.promote a0 a1) :=
  fun _ _ => Or.inr (Sys2Proof.Laws.Enc.one _ _ _ _ (by decide))
theorem Sys2Proof.Laws.Enc.halt : ∀ a0, Sys2Proof.Laws.Enc.Statement (.halt a0) :=
  fun _ => Or.inr (Sys2Proof.Laws.Enc.one _ _ _ _ (by decide))
theorem Sys2Proof.Laws.Enc.trap : ∀ a0 a1, Sys2Proof.Laws.Enc.Statement (.trap a0 a1) :=
  fun _ _ => Or.inr (Sys2Proof.Laws.Enc.one _ _ _ _ (by decide))
theorem Sys2Proof.Laws.Enc.brk : ∀ a0, Sys2Proof.Laws.Enc.Statement (.brk a0) :=
  fun _ => Or.inr (Sys2Proof.Laws.Enc.one _ _ _ _ (by decide))
theorem Sys2Proof.Laws.Enc.guard : ∀ a0 a1, Sys2Proof.Laws.Enc.Statement (.guard a0 a1) :=
  fun _ _ => Or.inr (Sys2Proof.Laws.Enc.one _ _ _ _ (by decide))
theorem Sys2Proof.Laws.Enc.mfsr : ∀ a0 a1, Sys2Proof.Laws.Enc.Statement (.mfsr a0 a1) :=
  fun _ _ => Or.inr (Sys2Proof.Laws.Enc.one _ _ _ _ (by decide))
theorem Sys2Proof.Laws.Enc.mtsr : ∀ a0 a1, Sys2Proof.Laws.Enc.Statement (.mtsr a0 a1) :=
  fun _ _ => Or.inr (Sys2Proof.Laws.Enc.one _ _ _ _ (by decide))
theorem Sys2Proof.Laws.Enc.eret : Sys2Proof.Laws.Enc.Statement (.eret) :=
  Or.inr (Sys2Proof.Laws.Enc.one _ _ _ _ (by decide))
theorem Sys2Proof.Laws.Enc.tlbi : ∀ a0 a1, Sys2Proof.Laws.Enc.Statement (.tlbi a0 a1) :=
  fun _ _ => Or.inr (Sys2Proof.Laws.Enc.one _ _ _ _ (by decide))
theorem Sys2Proof.Laws.Enc.tlbia : ∀ a0, Sys2Proof.Laws.Enc.Statement (.tlbia a0) :=
  fun _ => Or.inr (Sys2Proof.Laws.Enc.one _ _ _ _ (by decide))
theorem Sys2Proof.Laws.Enc.wfe : Sys2Proof.Laws.Enc.Statement (.wfe) :=
  Or.inr (Sys2Proof.Laws.Enc.one _ _ _ _ (by decide))
theorem Sys2Proof.Laws.Enc.sev : ∀ a0, Sys2Proof.Laws.Enc.Statement (.sev a0) :=
  fun _ => Or.inr (Sys2Proof.Laws.Enc.one _ _ _ _ (by decide))
theorem Sys2Proof.Laws.Enc.csave : ∀ a0 a1, Sys2Proof.Laws.Enc.Statement (.csave a0 a1) :=
  fun _ _ => Or.inr (Sys2Proof.Laws.Enc.one _ _ _ _ (by decide))
theorem Sys2Proof.Laws.Enc.crest : ∀ a0 a1, Sys2Proof.Laws.Enc.Statement (.crest a0 a1) :=
  fun _ _ => Or.inr (Sys2Proof.Laws.Enc.one _ _ _ _ (by decide))
theorem Sys2Proof.Laws.Enc.ttrimRd : ∀ a0 a1, Sys2Proof.Laws.Enc.Statement (.ttrimRd a0 a1) :=
  fun _ _ => Or.inr (Sys2Proof.Laws.Enc.one _ _ _ _ (by decide))
theorem Sys2Proof.Laws.Enc.ttrimWr : ∀ a0 a1, Sys2Proof.Laws.Enc.Statement (.ttrimWr a0 a1) :=
  fun _ _ => Or.inr (Sys2Proof.Laws.Enc.one _ _ _ _ (by decide))
theorem Sys2Proof.Laws.Enc.finj : ∀ a0 a1, Sys2Proof.Laws.Enc.Statement (.finj a0 a1) :=
  fun _ _ => Or.inr (Sys2Proof.Laws.Enc.one _ _ _ _ (by decide))
theorem Sys2Proof.Laws.Enc.vadd : ∀ a0 a1 a2 a3 a4 a5, Sys2Proof.Laws.Enc.Statement (.vadd a0 a1 a2 a3 a4 a5) :=
  fun _ _ _ _ _ _ => Or.inr (Sys2Proof.Laws.Enc.two _ _ _ _ _ (by decide))
theorem Sys2Proof.Laws.Enc.vsub : ∀ a0 a1 a2 a3 a4 a5, Sys2Proof.Laws.Enc.Statement (.vsub a0 a1 a2 a3 a4 a5) :=
  fun _ _ _ _ _ _ => Or.inr (Sys2Proof.Laws.Enc.two _ _ _ _ _ (by decide))
theorem Sys2Proof.Laws.Enc.vmul : ∀ a0 a1 a2 a3 a4 a5, Sys2Proof.Laws.Enc.Statement (.vmul a0 a1 a2 a3 a4 a5) :=
  fun _ _ _ _ _ _ => Or.inr (Sys2Proof.Laws.Enc.two _ _ _ _ _ (by decide))
theorem Sys2Proof.Laws.Enc.vfma : ∀ a0 a1 a2 a3 a4 a5 a6, Sys2Proof.Laws.Enc.Statement (.vfma a0 a1 a2 a3 a4 a5 a6) :=
  fun _ _ _ _ _ _ _ => Or.inr (Sys2Proof.Laws.Enc.two _ _ _ _ _ (by decide))
theorem Sys2Proof.Laws.Enc.vfms : ∀ a0 a1 a2 a3 a4 a5 a6, Sys2Proof.Laws.Enc.Statement (.vfms a0 a1 a2 a3 a4 a5 a6) :=
  fun _ _ _ _ _ _ _ => Or.inr (Sys2Proof.Laws.Enc.two _ _ _ _ _ (by decide))
theorem Sys2Proof.Laws.Enc.vmin : ∀ a0 a1 a2 a3 a4 a5, Sys2Proof.Laws.Enc.Statement (.vmin a0 a1 a2 a3 a4 a5) :=
  fun _ _ _ _ _ _ => Or.inr (Sys2Proof.Laws.Enc.two _ _ _ _ _ (by decide))
theorem Sys2Proof.Laws.Enc.vmax : ∀ a0 a1 a2 a3 a4 a5, Sys2Proof.Laws.Enc.Statement (.vmax a0 a1 a2 a3 a4 a5) :=
  fun _ _ _ _ _ _ => Or.inr (Sys2Proof.Laws.Enc.two _ _ _ _ _ (by decide))
theorem Sys2Proof.Laws.Enc.vabs : ∀ a0 a1 a2 a3 a4 a5, Sys2Proof.Laws.Enc.Statement (.vabs a0 a1 a2 a3 a4 a5) :=
  fun _ _ _ _ _ _ => Or.inr (Sys2Proof.Laws.Enc.two _ _ _ _ _ (by decide))
theorem Sys2Proof.Laws.Enc.vneg : ∀ a0 a1 a2 a3 a4 a5, Sys2Proof.Laws.Enc.Statement (.vneg a0 a1 a2 a3 a4 a5) :=
  fun _ _ _ _ _ _ => Or.inr (Sys2Proof.Laws.Enc.two _ _ _ _ _ (by decide))
theorem Sys2Proof.Laws.Enc.vand : ∀ a0 a1 a2 a3 a4 a5, Sys2Proof.Laws.Enc.Statement (.vand a0 a1 a2 a3 a4 a5) :=
  fun _ _ _ _ _ _ => Or.inr (Sys2Proof.Laws.Enc.two _ _ _ _ _ (by decide))
theorem Sys2Proof.Laws.Enc.vor : ∀ a0 a1 a2 a3 a4 a5, Sys2Proof.Laws.Enc.Statement (.vor a0 a1 a2 a3 a4 a5) :=
  fun _ _ _ _ _ _ => Or.inr (Sys2Proof.Laws.Enc.two _ _ _ _ _ (by decide))
theorem Sys2Proof.Laws.Enc.vxor : ∀ a0 a1 a2 a3 a4 a5, Sys2Proof.Laws.Enc.Statement (.vxor a0 a1 a2 a3 a4 a5) :=
  fun _ _ _ _ _ _ => Or.inr (Sys2Proof.Laws.Enc.two _ _ _ _ _ (by decide))
theorem Sys2Proof.Laws.Enc.vnot : ∀ a0 a1 a2 a3 a4, Sys2Proof.Laws.Enc.Statement (.vnot a0 a1 a2 a3 a4) :=
  fun _ _ _ _ _ => Or.inr (Sys2Proof.Laws.Enc.two _ _ _ _ _ (by decide))
theorem Sys2Proof.Laws.Enc.vshl : ∀ a0 a1 a2 a3 a4 a5 a6, Sys2Proof.Laws.Enc.Statement (.vshl a0 a1 a2 a3 a4 a5 a6) :=
  fun _ _ _ _ _ _ _ => Or.inr (Sys2Proof.Laws.Enc.two _ _ _ _ _ (by decide))
theorem Sys2Proof.Laws.Enc.vshr : ∀ a0 a1 a2 a3 a4 a5, Sys2Proof.Laws.Enc.Statement (.vshr a0 a1 a2 a3 a4 a5) :=
  fun _ _ _ _ _ _ => Or.inr (Sys2Proof.Laws.Enc.two _ _ _ _ _ (by decide))
theorem Sys2Proof.Laws.Enc.vsar : ∀ a0 a1 a2 a3 a4 a5, Sys2Proof.Laws.Enc.Statement (.vsar a0 a1 a2 a3 a4 a5) :=
  fun _ _ _ _ _ _ => Or.inr (Sys2Proof.Laws.Enc.two _ _ _ _ _ (by decide))
theorem Sys2Proof.Laws.Enc.vcmp : ∀ a0 a1 a2 a3 a4 a5 a6, Sys2Proof.Laws.Enc.Statement (.vcmp a0 a1 a2 a3 a4 a5 a6) :=
  fun _ _ _ _ _ _ _ => Or.inr (Sys2Proof.Laws.Enc.two _ _ _ _ _ (by decide))
theorem Sys2Proof.Laws.Enc.vsel : ∀ a0 a1 a2 a3 a4 a5 a6, Sys2Proof.Laws.Enc.Statement (.vsel a0 a1 a2 a3 a4 a5 a6) :=
  fun _ _ _ _ _ _ _ => Or.inr (Sys2Proof.Laws.Enc.two _ _ _ _ _ (by decide))
theorem Sys2Proof.Laws.Enc.vmov : ∀ a0 a1 a2 a3 a4, Sys2Proof.Laws.Enc.Statement (.vmov a0 a1 a2 a3 a4) :=
  fun _ _ _ _ _ => Or.inr (Sys2Proof.Laws.Enc.two _ _ _ _ _ (by decide))
theorem Sys2Proof.Laws.Enc.vbcs : ∀ a0 a1 a2 a3 a4 a5, Sys2Proof.Laws.Enc.Statement (.vbcs a0 a1 a2 a3 a4 a5) :=
  fun _ _ _ _ _ _ => Or.inr (Sys2Proof.Laws.Enc.two _ _ _ _ _ (by decide))
theorem Sys2Proof.Laws.Enc.vcvt : ∀ a0 a1 a2 a3 a4 a5 a6 a7, Sys2Proof.Laws.Enc.Statement (.vcvt a0 a1 a2 a3 a4 a5 a6 a7) :=
  fun _ _ _ _ _ _ _ _ => Or.inr (Sys2Proof.Laws.Enc.two _ _ _ _ _ (by decide))
theorem Sys2Proof.Laws.Enc.vqmx : ∀ a0 a1 a2 a3 a4 a5, Sys2Proof.Laws.Enc.Statement (.vqmx a0 a1 a2 a3 a4 a5) :=
  fun _ _ _ _ _ _ => Or.inr (Sys2Proof.Laws.Enc.two _ _ _ _ _ (by decide))
theorem Sys2Proof.Laws.Enc.vdqmx : ∀ a0 a1 a2 a3 a4 a5 a6, Sys2Proof.Laws.Enc.Statement (.vdqmx a0 a1 a2 a3 a4 a5 a6) :=
  fun _ _ _ _ _ _ _ => Or.inr (Sys2Proof.Laws.Enc.two _ _ _ _ _ (by decide))
theorem Sys2Proof.Laws.Enc.vjoin6 : ∀ a0 a1 a2 a3 a4 a5, Sys2Proof.Laws.Enc.Statement (.vjoin6 a0 a1 a2 a3 a4 a5) :=
  fun _ _ _ _ _ _ => Or.inr (Sys2Proof.Laws.Enc.two _ _ _ _ _ (by decide))
theorem Sys2Proof.Laws.Enc.vsplit6P4 : ∀ a0 a1 a2 a3 a4, Sys2Proof.Laws.Enc.Statement (.vsplit6P4 a0 a1 a2 a3 a4) :=
  fun _ _ _ _ _ => Or.inr (Sys2Proof.Laws.Enc.two _ _ _ _ _ (by decide))
theorem Sys2Proof.Laws.Enc.vsplit6P2 : ∀ a0 a1 a2 a3 a4, Sys2Proof.Laws.Enc.Statement (.vsplit6P2 a0 a1 a2 a3 a4) :=
  fun _ _ _ _ _ => Or.inr (Sys2Proof.Laws.Enc.two _ _ _ _ _ (by decide))
theorem Sys2Proof.Laws.Enc.vrcpa : ∀ a0 a1 a2 a3, Sys2Proof.Laws.Enc.Statement (.vrcpa a0 a1 a2 a3) :=
  fun _ _ _ _ => Or.inr (Sys2Proof.Laws.Enc.two _ _ _ _ _ (by decide))
theorem Sys2Proof.Laws.Enc.vrsqa : ∀ a0 a1 a2 a3, Sys2Proof.Laws.Enc.Statement (.vrsqa a0 a1 a2 a3) :=
  fun _ _ _ _ => Or.inr (Sys2Proof.Laws.Enc.two _ _ _ _ _ (by decide))
theorem Sys2Proof.Laws.Enc.vrcpr : ∀ a0 a1 a2 a3 a4, Sys2Proof.Laws.Enc.Statement (.vrcpr a0 a1 a2 a3 a4) :=
  fun _ _ _ _ _ => Or.inr (Sys2Proof.Laws.Enc.two _ _ _ _ _ (by decide))
theorem Sys2Proof.Laws.Enc.vrsqr : ∀ a0 a1 a2 a3 a4, Sys2Proof.Laws.Enc.Statement (.vrsqr a0 a1 a2 a3 a4) :=
  fun _ _ _ _ _ => Or.inr (Sys2Proof.Laws.Enc.two _ _ _ _ _ (by decide))
theorem Sys2Proof.Laws.Enc.vexp2 : ∀ a0 a1 a2 a3, Sys2Proof.Laws.Enc.Statement (.vexp2 a0 a1 a2 a3) :=
  fun _ _ _ _ => Or.inr (Sys2Proof.Laws.Enc.two _ _ _ _ _ (by decide))
theorem Sys2Proof.Laws.Enc.vlog2 : ∀ a0 a1 a2 a3, Sys2Proof.Laws.Enc.Statement (.vlog2 a0 a1 a2 a3) :=
  fun _ _ _ _ => Or.inr (Sys2Proof.Laws.Enc.two _ _ _ _ _ (by decide))
theorem Sys2Proof.Laws.Enc.vrotr : ∀ a0 a1 a2 a3 a4 a5, Sys2Proof.Laws.Enc.Statement (.vrotr a0 a1 a2 a3 a4 a5) :=
  fun _ _ _ _ _ _ => Or.inr (Sys2Proof.Laws.Enc.two _ _ _ _ _ (by decide))
theorem Sys2Proof.Laws.Enc.vrotc : ∀ a0 a1 a2 a3 a4 a5, Sys2Proof.Laws.Enc.Statement (.vrotc a0 a1 a2 a3 a4 a5) :=
  fun _ _ _ _ _ _ => Or.inr (Sys2Proof.Laws.Enc.two _ _ _ _ _ (by decide))
theorem Sys2Proof.Laws.Enc.vbcr : ∀ a0 a1 a2 a3 a4 a5, Sys2Proof.Laws.Enc.Statement (.vbcr a0 a1 a2 a3 a4 a5) :=
  fun _ _ _ _ _ _ => Or.inr (Sys2Proof.Laws.Enc.two _ _ _ _ _ (by decide))
theorem Sys2Proof.Laws.Enc.vbcc : ∀ a0 a1 a2 a3 a4 a5, Sys2Proof.Laws.Enc.Statement (.vbcc a0 a1 a2 a3 a4 a5) :=
  fun _ _ _ _ _ _ => Or.inr (Sys2Proof.Laws.Enc.two _ _ _ _ _ (by decide))
theorem Sys2Proof.Laws.Enc.vredr : ∀ a0 a1 a2 a3 a4 a5, Sys2Proof.Laws.Enc.Statement (.vredr a0 a1 a2 a3 a4 a5) :=
  fun _ _ _ _ _ _ => Or.inr (Sys2Proof.Laws.Enc.two _ _ _ _ _ (by decide))
theorem Sys2Proof.Laws.Enc.vredc : ∀ a0 a1 a2 a3 a4 a5, Sys2Proof.Laws.Enc.Statement (.vredc a0 a1 a2 a3 a4 a5) :=
  fun _ _ _ _ _ _ => Or.inr (Sys2Proof.Laws.Enc.two _ _ _ _ _ (by decide))
theorem Sys2Proof.Laws.Enc.vscanr : ∀ a0 a1 a2 a3 a4 a5 a6, Sys2Proof.Laws.Enc.Statement (.vscanr a0 a1 a2 a3 a4 a5 a6) :=
  fun _ _ _ _ _ _ _ => Or.inr (Sys2Proof.Laws.Enc.two _ _ _ _ _ (by decide))
theorem Sys2Proof.Laws.Enc.vscanc : ∀ a0 a1 a2 a3 a4 a5 a6, Sys2Proof.Laws.Enc.Statement (.vscanc a0 a1 a2 a3 a4 a5 a6) :=
  fun _ _ _ _ _ _ _ => Or.inr (Sys2Proof.Laws.Enc.two _ _ _ _ _ (by decide))
theorem Sys2Proof.Laws.Enc.vperm : ∀ a0 a1 a2 a3 a4 a5, Sys2Proof.Laws.Enc.Statement (.vperm a0 a1 a2 a3 a4 a5) :=
  fun _ _ _ _ _ _ => Or.inr (Sys2Proof.Laws.Enc.two _ _ _ _ _ (by decide))
theorem Sys2Proof.Laws.Enc.vtrn : ∀ a0 a1 a2 a3 a4, Sys2Proof.Laws.Enc.Statement (.vtrn a0 a1 a2 a3 a4) :=
  fun _ _ _ _ _ => Or.inr (Sys2Proof.Laws.Enc.two _ _ _ _ _ (by decide))
theorem Sys2Proof.Laws.Enc.mpush : ∀ a0 a1 a2 a3, Sys2Proof.Laws.Enc.Statement (.mpush a0 a1 a2 a3) :=
  fun _ _ _ _ => Or.inr (Sys2Proof.Laws.Enc.two _ _ _ _ _ (by decide))
theorem Sys2Proof.Laws.Enc.minv : ∀ a0, Sys2Proof.Laws.Enc.Statement (.minv a0) :=
  fun _ => Or.inr (Sys2Proof.Laws.Enc.one _ _ _ _ (by decide))
theorem Sys2Proof.Laws.Enc.mpop : ∀ a0, Sys2Proof.Laws.Enc.Statement (.mpop a0) :=
  fun _ => Or.inr (Sys2Proof.Laws.Enc.one _ _ _ _ (by decide))
theorem Sys2Proof.Laws.Enc.mqry : ∀ a0 a1, Sys2Proof.Laws.Enc.Statement (.mqry a0 a1) :=
  fun _ _ => Or.inr (Sys2Proof.Laws.Enc.one _ _ _ _ (by decide))
theorem Sys2Proof.Laws.Enc.vld : ∀ a0 a1 a2 a3 a4 a5 a6, Sys2Proof.Laws.Enc.Statement (.vld a0 a1 a2 a3 a4 a5 a6) :=
  fun _ _ _ _ _ _ _ => Or.inr (Sys2Proof.Laws.Enc.two _ _ _ _ _ (by decide))
theorem Sys2Proof.Laws.Enc.vst : ∀ a0 a1 a2 a3 a4 a5 a6, Sys2Proof.Laws.Enc.Statement (.vst a0 a1 a2 a3 a4 a5 a6) :=
  fun _ _ _ _ _ _ _ => Or.inr (Sys2Proof.Laws.Enc.two _ _ _ _ _ (by decide))
theorem Sys2Proof.Laws.Enc.vldd : ∀ a0 a1 a2 a3 a4, Sys2Proof.Laws.Enc.Statement (.vldd a0 a1 a2 a3 a4) :=
  fun _ _ _ _ _ => Or.inr (Sys2Proof.Laws.Enc.two _ _ _ _ _ (by decide))
theorem Sys2Proof.Laws.Enc.varrive : ∀ a0, Sys2Proof.Laws.Enc.Statement (.varrive a0) :=
  fun _ => Or.inr (Sys2Proof.Laws.Enc.one _ _ _ _ (by decide))
theorem Sys2Proof.Laws.Enc.vflg : ∀ a0 a1, Sys2Proof.Laws.Enc.Statement (.vflg a0 a1) :=
  fun _ _ => Or.inr (Sys2Proof.Laws.Enc.two _ _ _ _ _ (by decide))
theorem Sys2Proof.Laws.Enc.vflgClr : ∀ a0 a1, Sys2Proof.Laws.Enc.Statement (.vflgClr a0 a1) :=
  fun _ _ => Or.inr (Sys2Proof.Laws.Enc.two _ _ _ _ _ (by decide))
theorem Sys2Proof.Laws.Enc.vseedSeed : ∀ a0 a1, Sys2Proof.Laws.Enc.Statement (.vseedSeed a0 a1) :=
  fun _ _ => Or.inr (Sys2Proof.Laws.Enc.two _ _ _ _ _ (by decide))
theorem Sys2Proof.Laws.Enc.vseedHnd : ∀ a0 a1, Sys2Proof.Laws.Enc.Statement (.vseedHnd a0 a1) :=
  fun _ _ => Or.inr (Sys2Proof.Laws.Enc.two _ _ _ _ _ (by decide))
theorem Sys2Proof.Laws.Enc.vseedIdx : ∀ a0 a1, Sys2Proof.Laws.Enc.Statement (.vseedIdx a0 a1) :=
  fun _ _ => Or.inr (Sys2Proof.Laws.Enc.two _ _ _ _ _ (by decide))
theorem Sys2Proof.Laws.Enc.vseedAdv : ∀ a0 a1, Sys2Proof.Laws.Enc.Statement (.vseedAdv a0 a1) :=
  fun _ _ => Or.inr (Sys2Proof.Laws.Enc.two _ _ _ _ _ (by decide))
theorem Sys2Proof.Laws.Enc.tmac : ∀ a0 a1 a2 a3 a4 a5 a6 a7, Sys2Proof.Laws.Enc.Statement (.tmac a0 a1 a2 a3 a4 a5 a6 a7) :=
  fun _ _ _ _ _ _ _ _ => Or.inr (Sys2Proof.Laws.Enc.two _ _ _ _ _ (by decide))
theorem Sys2Proof.Laws.Enc.tmacx : ∀ a0 a1 a2 a3 a4 a5 a6 a7, Sys2Proof.Laws.Enc.Statement (.tmacx a0 a1 a2 a3 a4 a5 a6 a7) :=
  fun _ _ _ _ _ _ _ _ => Or.inr (Sys2Proof.Laws.Enc.two _ _ _ _ _ (by decide))
theorem Sys2Proof.Laws.Enc.tldb : ∀ a0 a1 a2 a3 a4 a5, Sys2Proof.Laws.Enc.Statement (.tldb a0 a1 a2 a3 a4 a5) :=
  fun _ _ _ _ _ _ => Or.inr (Sys2Proof.Laws.Enc.two _ _ _ _ _ (by decide))
theorem Sys2Proof.Laws.Enc.tzero : ∀ a0 a1 a2 a3 a4 a5 a6, Sys2Proof.Laws.Enc.Statement (.tzero a0 a1 a2 a3 a4 a5 a6) :=
  fun _ _ _ _ _ _ _ => Or.inr (Sys2Proof.Laws.Enc.two _ _ _ _ _ (by decide))
theorem Sys2Proof.Laws.Enc.tflag : ∀ a0 a1 a2 a3 a4, Sys2Proof.Laws.Enc.Statement (.tflag a0 a1 a2 a3 a4) :=
  fun _ _ _ _ _ => Or.inr (Sys2Proof.Laws.Enc.two _ _ _ _ _ (by decide))
theorem Sys2Proof.Laws.Enc.tdrain : ∀ a0 a1, Sys2Proof.Laws.Enc.Statement (.tdrain a0 a1) :=
  fun _ _ => Or.inr (Sys2Proof.Laws.Enc.two _ _ _ _ _ (by decide))
theorem Sys2Proof.Laws.Enc.tcal : ∀ a0 a1 a2, Sys2Proof.Laws.Enc.Statement (.tcal a0 a1 a2) :=
  fun _ _ _ => Or.inr (Sys2Proof.Laws.Enc.two _ _ _ _ _ (by decide))
theorem Sys2Proof.Laws.Enc.tmarg : ∀ a0 a1 a2 a3, Sys2Proof.Laws.Enc.Statement (.tmarg a0 a1 a2 a3) :=
  fun _ _ _ _ => Or.inr (Sys2Proof.Laws.Enc.two _ _ _ _ _ (by decide))
theorem Sys2Proof.Laws.Enc.raceMin : ∀ a0 a1 a2 a3 a4 a5 a6, Sys2Proof.Laws.Enc.Statement (.raceMin a0 a1 a2 a3 a4 a5 a6) :=
  fun _ _ _ _ _ _ _ => Or.inr (Sys2Proof.Laws.Enc.two _ _ _ _ _ (by decide))
theorem Sys2Proof.Laws.Enc.raceMax : ∀ a0 a1 a2 a3 a4 a5 a6, Sys2Proof.Laws.Enc.Statement (.raceMax a0 a1 a2 a3 a4 a5 a6) :=
  fun _ _ _ _ _ _ _ => Or.inr (Sys2Proof.Laws.Enc.two _ _ _ _ _ (by decide))
theorem Sys2Proof.Laws.Enc.raceArgmin : ∀ a0 a1 a2 a3 a4 a5 a6, Sys2Proof.Laws.Enc.Statement (.raceArgmin a0 a1 a2 a3 a4 a5 a6) :=
  fun _ _ _ _ _ _ _ => Or.inr (Sys2Proof.Laws.Enc.two _ _ _ _ _ (by decide))
theorem Sys2Proof.Laws.Enc.raceArgmax : ∀ a0 a1 a2 a3 a4 a5 a6, Sys2Proof.Laws.Enc.Statement (.raceArgmax a0 a1 a2 a3 a4 a5 a6) :=
  fun _ _ _ _ _ _ _ => Or.inr (Sys2Proof.Laws.Enc.two _ _ _ _ _ (by decide))
theorem Sys2Proof.Laws.Enc.raceSort : ∀ a0 a1 a2 a3 a4 a5 a6, Sys2Proof.Laws.Enc.Statement (.raceSort a0 a1 a2 a3 a4 a5 a6) :=
  fun _ _ _ _ _ _ _ => Or.inr (Sys2Proof.Laws.Enc.two _ _ _ _ _ (by decide))
theorem Sys2Proof.Laws.Enc.raceTopk : ∀ a0 a1 a2 a3 a4 a5 a6, Sys2Proof.Laws.Enc.Statement (.raceTopk a0 a1 a2 a3 a4 a5 a6) :=
  fun _ _ _ _ _ _ _ => Or.inr (Sys2Proof.Laws.Enc.two _ _ _ _ _ (by decide))
theorem Sys2Proof.Laws.Enc.tarrive : ∀ a0, Sys2Proof.Laws.Enc.Statement (.tarrive a0) :=
  fun _ => Or.inr (Sys2Proof.Laws.Enc.one _ _ _ _ (by decide))
theorem Sys2Proof.Laws.Enc.xcopy : ∀ a0 a1, Sys2Proof.Laws.Enc.Statement (.xcopy a0 a1) :=
  fun _ _ => Or.inr (Sys2Proof.Laws.Enc.three _ _ _ _ _ _ (by decide))
theorem Sys2Proof.Laws.Enc.xgath : ∀ a0 a1, Sys2Proof.Laws.Enc.Statement (.xgath a0 a1) :=
  fun _ _ => Or.inr (Sys2Proof.Laws.Enc.three _ _ _ _ _ _ (by decide))
theorem Sys2Proof.Laws.Enc.xscat : ∀ a0 a1, Sys2Proof.Laws.Enc.Statement (.xscat a0 a1) :=
  fun _ _ => Or.inr (Sys2Proof.Laws.Enc.three _ _ _ _ _ _ (by decide))
theorem Sys2Proof.Laws.Enc.xcnt : ∀ a0 a1 a2 a3 a4, Sys2Proof.Laws.Enc.Statement (.xcnt a0 a1 a2 a3 a4) :=
  fun _ _ _ _ _ => Or.inr (Sys2Proof.Laws.Enc.two _ _ _ _ _ (by decide))
theorem Sys2Proof.Laws.Enc.xflag : ∀ a0 a1, Sys2Proof.Laws.Enc.Statement (.xflag a0 a1) :=
  fun _ _ => Or.inr (Sys2Proof.Laws.Enc.three _ _ _ _ _ _ (by decide))
theorem Sys2Proof.Laws.Enc.xrdef : ∀ a0 a1 a2 a3 a4 a5, Sys2Proof.Laws.Enc.Statement (.xrdef a0 a1 a2 a3 a4 a5) :=
  fun _ _ _ _ _ _ => Or.inr (Sys2Proof.Laws.Enc.three _ _ _ _ _ _ (by decide))
theorem Sys2Proof.Laws.Enc.xrgen : ∀ a0 a1 a2, Sys2Proof.Laws.Enc.Statement (.xrgen a0 a1 a2) :=
  fun _ _ _ => Or.inr (Sys2Proof.Laws.Enc.two _ _ _ _ _ (by decide))
theorem Sys2Proof.Laws.Enc.xarm : ∀ a0 a1, Sys2Proof.Laws.Enc.Statement (.xarm a0 a1) :=
  fun _ _ => Or.inr (Sys2Proof.Laws.Enc.one _ _ _ _ (by decide))
theorem Sys2Proof.Laws.Enc.xarrive : ∀ a0, Sys2Proof.Laws.Enc.Statement (.xarrive a0) :=
  fun _ => Or.inr (Sys2Proof.Laws.Enc.one _ _ _ _ (by decide))
theorem Sys2Proof.Laws.Enc.endOfText : Sys2Proof.Laws.Enc.Statement (.endOfText) :=
  Or.inr (show headLength eotWord = 1 by decide)
theorem Sys2Proof.Laws.Enc.sloop : ∀ a0 a1, Sys2Proof.Laws.Enc.Statement (.sloop a0 a1) :=
  fun _ _ => Or.inl ⟨_, _, rfl⟩
theorem Sys2Proof.Laws.Enc.sloopReg : ∀ a0 a1, Sys2Proof.Laws.Enc.Statement (.sloopReg a0 a1) :=
  fun _ _ => Or.inl ⟨_, _, rfl⟩
theorem Sys2Proof.Laws.Enc.send : ∀ a0, Sys2Proof.Laws.Enc.Statement (.send a0) :=
  fun _ => Or.inl ⟨_, _, rfl⟩
theorem Sys2Proof.Laws.Enc.sagenBase : ∀ a0 a1, Sys2Proof.Laws.Enc.Statement (.sagenBase a0 a1) :=
  fun _ _ => Or.inl ⟨_, _, rfl⟩
theorem Sys2Proof.Laws.Enc.sagenStep : ∀ a0 a1 a2, Sys2Proof.Laws.Enc.Statement (.sagenStep a0 a1 a2) :=
  fun _ _ _ => Or.inl ⟨_, _, rfl⟩
theorem Sys2Proof.Laws.Enc.sfeeda : ∀ a0 a1, Sys2Proof.Laws.Enc.Statement (.sfeeda a0 a1) :=
  fun _ _ => Or.inl ⟨_, _, rfl⟩
theorem Sys2Proof.Laws.Enc.sfeedb : ∀ a0, Sys2Proof.Laws.Enc.Statement (.sfeedb a0) :=
  fun _ => Or.inl ⟨_, _, rfl⟩
theorem Sys2Proof.Laws.Enc.sdecode : ∀ a0 a1 a2 a3, Sys2Proof.Laws.Enc.Statement (.sdecode a0 a1 a2 a3) :=
  fun _ _ _ _ => Or.inl ⟨_, _, rfl⟩
theorem Sys2Proof.Laws.Enc.sencode : ∀ a0 a1 a2 a3, Sys2Proof.Laws.Enc.Statement (.sencode a0 a1 a2 a3) :=
  fun _ _ _ _ => Or.inl ⟨_, _, rfl⟩
theorem Sys2Proof.Laws.Enc.sperm : ∀ a0 a1, Sys2Proof.Laws.Enc.Statement (.sperm a0 a1) :=
  fun _ _ => Or.inl ⟨_, _, rfl⟩
theorem Sys2Proof.Laws.Enc.spermOff : ∀ a0, Sys2Proof.Laws.Enc.Statement (.spermOff a0) :=
  fun _ => Or.inl ⟨_, _, rfl⟩
theorem Sys2Proof.Laws.Enc.sksig : ∀ a0 a1, Sys2Proof.Laws.Enc.Statement (.sksig a0 a1) :=
  fun _ _ => Or.inl ⟨_, _, rfl⟩
theorem Sys2Proof.Laws.Enc.sksigReg : ∀ a0 a1, Sys2Proof.Laws.Enc.Statement (.sksigReg a0 a1) :=
  fun _ _ => Or.inl ⟨_, _, rfl⟩
theorem Sys2Proof.Laws.Enc.skwait : ∀ a0 a1, Sys2Proof.Laws.Enc.Statement (.skwait a0 a1) :=
  fun _ _ => Or.inl ⟨_, _, rfl⟩
theorem Sys2Proof.Laws.Enc.skwaitReg : ∀ a0 a1, Sys2Proof.Laws.Enc.Statement (.skwaitReg a0 a1) :=
  fun _ _ => Or.inl ⟨_, _, rfl⟩
theorem Sys2Proof.Laws.Enc.smov : ∀ a0 a1, Sys2Proof.Laws.Enc.Statement (.smov a0 a1) :=
  fun _ _ => Or.inl ⟨_, _, rfl⟩
theorem Sys2Proof.Laws.Enc.smovHi : ∀ a0 a1, Sys2Proof.Laws.Enc.Statement (.smovHi a0 a1) :=
  fun _ _ => Or.inl ⟨_, _, rfl⟩
theorem Sys2Proof.Laws.Enc.smovReg : ∀ a0 a1, Sys2Proof.Laws.Enc.Statement (.smovReg a0 a1) :=
  fun _ _ => Or.inl ⟨_, _, rfl⟩
theorem Sys2Proof.Laws.Enc.sadd : ∀ a0 a1 a2, Sys2Proof.Laws.Enc.Statement (.sadd a0 a1 a2) :=
  fun _ _ _ => Or.inl ⟨_, _, rfl⟩
theorem Sys2Proof.Laws.Enc.saddReg : ∀ a0 a1 a2, Sys2Proof.Laws.Enc.Statement (.saddReg a0 a1 a2) :=
  fun _ _ _ => Or.inl ⟨_, _, rfl⟩
theorem Sys2Proof.Laws.Enc.sqpop : ∀ a0, Sys2Proof.Laws.Enc.Statement (.sqpop a0) :=
  fun _ => Or.inl ⟨_, _, rfl⟩
theorem Sys2Proof.Laws.Enc.sqpopAg : ∀ a0, Sys2Proof.Laws.Enc.Statement (.sqpopAg a0) :=
  fun _ => Or.inl ⟨_, _, rfl⟩
theorem Sys2Proof.Laws.Enc.sqpush : ∀ a0, Sys2Proof.Laws.Enc.Statement (.sqpush a0) :=
  fun _ => Or.inl ⟨_, _, rfl⟩
theorem Sys2Proof.Laws.Enc.shalt : Sys2Proof.Laws.Enc.Statement (.shalt) :=
  Or.inl ⟨_, _, rfl⟩
theorem Sys2Proof.Laws.Enc.resultLanding : ∀ a0, Sys2Proof.Laws.Enc.Statement (.resultLanding a0) :=
  fun _ => Or.inr trivial
theorem Sys2Proof.Laws.Enc.prefetchBufferFilled : ∀ a0, Sys2Proof.Laws.Enc.Statement (.prefetchBufferFilled a0) :=
  fun _ => Or.inr trivial
theorem Sys2Proof.Laws.Enc.ringTokenSignal : ∀ a0, Sys2Proof.Laws.Enc.Statement (.ringTokenSignal a0) :=
  fun _ => Or.inr trivial
theorem Sys2Proof.Laws.Enc.tokenDeadlock : ∀ a0, Sys2Proof.Laws.Enc.Statement (.tokenDeadlock a0) :=
  fun _ => Or.inr trivial
theorem Sys2Proof.Laws.Enc.fifoElementPoppable : ∀ a0, Sys2Proof.Laws.Enc.Statement (.fifoElementPoppable a0) :=
  fun _ => Or.inr trivial
theorem Sys2Proof.Laws.Enc.tileHalted : ∀ a0, Sys2Proof.Laws.Enc.Statement (.tileHalted a0) :=
  fun _ => Or.inr trivial
theorem Sys2Proof.Laws.Enc.tdaCommandStart : ∀ a0, Sys2Proof.Laws.Enc.Statement (.tdaCommandStart a0) :=
  fun _ => Or.inr trivial
theorem Sys2Proof.Laws.Enc.tdaCommandRetire : ∀ a0, Sys2Proof.Laws.Enc.Statement (.tdaCommandRetire a0) :=
  fun _ => Or.inr trivial
theorem Sys2Proof.Laws.Enc.tldbPlaneLatch : ∀ a0, Sys2Proof.Laws.Enc.Statement (.tldbPlaneLatch a0) :=
  fun _ => Or.inr trivial
theorem Sys2Proof.Laws.Enc.translationComplete : ∀ a0, Sys2Proof.Laws.Enc.Statement (.translationComplete a0) :=
  fun _ => Or.inr trivial
theorem Sys2Proof.Laws.Enc.copyLeave : ∀ a0, Sys2Proof.Laws.Enc.Statement (.copyLeave a0) :=
  fun _ => Or.inr trivial
theorem Sys2Proof.Laws.Enc.copyStart : ∀ a0, Sys2Proof.Laws.Enc.Statement (.copyStart a0) :=
  fun _ => Or.inr trivial
theorem Sys2Proof.Laws.Enc.copyLanded : ∀ a0, Sys2Proof.Laws.Enc.Statement (.copyLanded a0) :=
  fun _ => Or.inr trivial
theorem Sys2Proof.Laws.Enc.copyRetired : ∀ a0, Sys2Proof.Laws.Enc.Statement (.copyRetired a0) :=
  fun _ => Or.inr trivial
theorem Sys2Proof.Laws.Enc.handoverOffer : ∀ a0 a1, Sys2Proof.Laws.Enc.Statement (.handoverOffer a0 a1) :=
  fun _ _ => Or.inr trivial
theorem Sys2Proof.Laws.Enc.watermarkAdvance : ∀ a0, Sys2Proof.Laws.Enc.Statement (.watermarkAdvance a0) :=
  fun _ => Or.inr trivial
theorem Sys2Proof.Laws.Enc.launchStart : ∀ a0, Sys2Proof.Laws.Enc.Statement (.launchStart a0) :=
  fun _ => Or.inr trivial
theorem Sys2Proof.Laws.Enc.phaseComplete : ∀ a0, Sys2Proof.Laws.Enc.Statement (.phaseComplete a0) :=
  fun _ => Or.inr trivial
theorem Sys2Proof.Laws.Enc.phaseOpen : ∀ a0 a1, Sys2Proof.Laws.Enc.Statement (.phaseOpen a0 a1) :=
  fun _ _ => Or.inr trivial
theorem Sys2Proof.Laws.Enc.deadlineReached : ∀ a0, Sys2Proof.Laws.Enc.Statement (.deadlineReached a0) :=
  fun _ => Or.inr trivial
theorem Sys2Proof.Laws.Enc.stragglerLimit : ∀ a0, Sys2Proof.Laws.Enc.Statement (.stragglerLimit a0) :=
  fun _ => Or.inr trivial
theorem Sys2Proof.Laws.Enc.timeZoneSlip : ∀ a0, Sys2Proof.Laws.Enc.Statement (.timeZoneSlip a0) :=
  fun _ => Or.inr trivial
theorem Sys2Proof.Laws.Enc.partitionDone : ∀ a0, Sys2Proof.Laws.Enc.Statement (.partitionDone a0) :=
  fun _ => Or.inr trivial
theorem Sys2Proof.Laws.Enc.preemptSaveEntry : ∀ a0, Sys2Proof.Laws.Enc.Statement (.preemptSaveEntry a0) :=
  fun _ => Or.inr trivial
theorem Sys2Proof.Laws.Enc.saveComplete : ∀ a0, Sys2Proof.Laws.Enc.Statement (.saveComplete a0) :=
  fun _ => Or.inr trivial
theorem Sys2Proof.Laws.Enc.tcmdResume : ∀ a0, Sys2Proof.Laws.Enc.Statement (.tcmdResume a0) :=
  fun _ => Or.inr trivial
theorem Sys2Proof.Laws.Enc.tcmdAbort : ∀ a0, Sys2Proof.Laws.Enc.Statement (.tcmdAbort a0) :=
  fun _ => Or.inr trivial
theorem Sys2Proof.Laws.Enc.fwcInterrupt : ∀ a0, Sys2Proof.Laws.Enc.Statement (.fwcInterrupt a0) :=
  fun _ => Or.inr trivial
theorem Sys2Proof.Laws.Enc.dbgctlWrite : ∀ a0 a1, Sys2Proof.Laws.Enc.Statement (.dbgctlWrite a0 a1) :=
  fun _ _ => Or.inr trivial
theorem Sys2Proof.Laws.Enc.mmapxWrite : ∀ a0 a1, Sys2Proof.Laws.Enc.Statement (.mmapxWrite a0 a1) :=
  fun _ _ => Or.inr trivial
theorem Sys2Proof.Laws.Enc.ctxeWrite : ∀ a0 a1, Sys2Proof.Laws.Enc.Statement (.ctxeWrite a0 a1) :=
  fun _ _ => Or.inr trivial
theorem Sys2Proof.Laws.Enc.partitionConfigWrite : ∀ a0 a1 a2, Sys2Proof.Laws.Enc.Statement (.partitionConfigWrite a0 a1 a2) :=
  fun _ _ _ => Or.inr trivial
theorem Sys2Proof.Laws.Enc.dbqRead : ∀ a0 a1, Sys2Proof.Laws.Enc.Statement (.dbqRead a0 a1) :=
  fun _ _ => Or.inr trivial
theorem Sys2Proof.Laws.Enc.dptOverlayWrite : ∀ a0 a1, Sys2Proof.Laws.Enc.Statement (.dptOverlayWrite a0 a1) :=
  fun _ _ => Or.inr trivial
theorem Sys2Proof.Laws.Enc.synccfgWrite : ∀ a0 a1, Sys2Proof.Laws.Enc.Statement (.synccfgWrite a0 a1) :=
  fun _ _ => Or.inr trivial
theorem Sys2Proof.Laws.Enc.pwrcapWrite : ∀ a0 a1, Sys2Proof.Laws.Enc.Statement (.pwrcapWrite a0 a1) :=
  fun _ _ => Or.inr trivial
theorem Sys2Proof.Laws.Enc.dctlDrain : ∀ a0 a1, Sys2Proof.Laws.Enc.Statement (.dctlDrain a0 a1) :=
  fun _ _ => Or.inr trivial
theorem Sys2Proof.Laws.Enc.divisorApply : ∀ a0, Sys2Proof.Laws.Enc.Statement (.divisorApply a0) :=
  fun _ => Or.inr trivial
theorem Sys2Proof.Laws.Enc.lctlReq : ∀ a0 a1, Sys2Proof.Laws.Enc.Statement (.lctlReq a0 a1) :=
  fun _ _ => Or.inr trivial
theorem Sys2Proof.Laws.Enc.elctlConsume : ∀ a0 a1, Sys2Proof.Laws.Enc.Statement (.elctlConsume a0 a1) :=
  fun _ _ => Or.inr trivial
theorem Sys2Proof.Laws.Enc.elctlClearLost : ∀ a0, Sys2Proof.Laws.Enc.Statement (.elctlClearLost a0) :=
  fun _ => Or.inr trivial
theorem Sys2Proof.Laws.Enc.dresetWrite : ∀ a0 a1, Sys2Proof.Laws.Enc.Statement (.dresetWrite a0 a1) :=
  fun _ _ => Or.inr trivial
theorem Sys2Proof.Laws.Enc.calibrationDue : ∀ a0, Sys2Proof.Laws.Enc.Statement (.calibrationDue a0) :=
  fun _ => Or.inr trivial
theorem Sys2Proof.Laws.Enc.tsyncPulse : Sys2Proof.Laws.Enc.Statement (.tsyncPulse) :=
  Or.inr trivial
theorem Sys2Proof.Laws.Enc.packageTimeSlew : Sys2Proof.Laws.Enc.Statement (.packageTimeSlew) :=
  Or.inr trivial
theorem Sys2Proof.Laws.Enc.tsyncOutPulse : Sys2Proof.Laws.Enc.Statement (.tsyncOutPulse) :=
  Or.inr trivial
theorem Sys2Proof.Laws.Enc.doorbell : ∀ a0 a1, Sys2Proof.Laws.Enc.Statement (.doorbell a0 a1) :=
  fun _ _ => Or.inr trivial
theorem Sys2Proof.Laws.Enc.doorbellService : ∀ a0, Sys2Proof.Laws.Enc.Statement (.doorbellService a0) :=
  fun _ => Or.inr trivial
theorem Sys2Proof.Laws.Enc.timetable : ∀ a0 a1 a2 a3 a4 a5 a6 a7, Sys2Proof.Laws.Enc.Statement (.timetable a0 a1 a2 a3 a4 a5 a6 a7) :=
  fun _ _ _ _ _ _ _ _ => Or.inr trivial
theorem Sys2Proof.Laws.Enc.write : ∀ a0 a1 a2 a3, Sys2Proof.Laws.Enc.Statement (.write a0 a1 a2 a3) :=
  fun _ _ _ _ => Or.inr trivial
theorem Sys2Proof.Laws.Enc.wait : ∀ a0 a1 a2 a3 a4 a5, Sys2Proof.Laws.Enc.Statement (.wait a0 a1 a2 a3 a4 a5) :=
  fun _ _ _ _ _ _ => Or.inr trivial
theorem Sys2Proof.Laws.Enc.waitSlotCheck : ∀ a0, Sys2Proof.Laws.Enc.Statement (.waitSlotCheck a0) :=
  fun _ => Or.inr trivial
theorem Sys2Proof.Laws.Enc.timer : ∀ a0 a1 a2 a3 a4 a5 a6, Sys2Proof.Laws.Enc.Statement (.timer a0 a1 a2 a3 a4 a5 a6) :=
  fun _ _ _ _ _ _ _ => Or.inr trivial
theorem Sys2Proof.Laws.Enc.timerCancel : ∀ a0 a1, Sys2Proof.Laws.Enc.Statement (.timerCancel a0 a1) :=
  fun _ _ => Or.inr trivial
theorem Sys2Proof.Laws.Enc.indirect : ∀ a0 a1 a2, Sys2Proof.Laws.Enc.Statement (.indirect a0 a1 a2) :=
  fun _ _ _ => Or.inr trivial
theorem Sys2Proof.Laws.Enc.fence : ∀ a0, Sys2Proof.Laws.Enc.Statement (.fence a0) :=
  fun _ => Or.inr trivial
theorem Sys2Proof.Laws.Enc.signalStore : ∀ a0 a1 a2 a3 a4 a5, Sys2Proof.Laws.Enc.Statement (.signalStore a0 a1 a2 a3 a4 a5) :=
  fun _ _ _ _ _ _ => Or.inr trivial
theorem Sys2Proof.Laws.Enc.signalMax : ∀ a0 a1 a2 a3 a4 a5, Sys2Proof.Laws.Enc.Statement (.signalMax a0 a1 a2 a3 a4 a5) :=
  fun _ _ _ _ _ _ => Or.inr trivial
theorem Sys2Proof.Laws.Enc.queueWatchdog : ∀ a0, Sys2Proof.Laws.Enc.Statement (.queueWatchdog a0) :=
  fun _ => Or.inr trivial
theorem Sys2Proof.Laws.Enc.timerSlotBoundary : ∀ a0, Sys2Proof.Laws.Enc.Statement (.timerSlotBoundary a0) :=
  fun _ => Or.inr trivial
theorem Sys2Proof.Laws.Enc.leaseRenew : ∀ a0, Sys2Proof.Laws.Enc.Statement (.leaseRenew a0) :=
  fun _ => Or.inr trivial
theorem Sys2Proof.Laws.Enc.leaseExpiry : ∀ a0, Sys2Proof.Laws.Enc.Statement (.leaseExpiry a0) :=
  fun _ => Or.inr trivial
theorem Sys2Proof.Laws.Enc.leaseTakeover : ∀ a0, Sys2Proof.Laws.Enc.Statement (.leaseTakeover a0) :=
  fun _ => Or.inr trivial
theorem Sys2Proof.Laws.Enc.queueLeaderMove : ∀ a0, Sys2Proof.Laws.Enc.Statement (.queueLeaderMove a0) :=
  fun _ => Or.inr trivial
theorem Sys2Proof.Laws.Enc.mailboxScan : ∀ a0, Sys2Proof.Laws.Enc.Statement (.mailboxScan a0) :=
  fun _ => Or.inr trivial
theorem Sys2Proof.Laws.Enc.create : ∀ a0 a1, Sys2Proof.Laws.Enc.Statement (.create a0 a1) :=
  fun _ _ => Or.inr trivial
theorem Sys2Proof.Laws.Enc.destroy : ∀ a0 a1, Sys2Proof.Laws.Enc.Statement (.destroy a0 a1) :=
  fun _ _ => Or.inr trivial
theorem Sys2Proof.Laws.Enc.map : ∀ a0 a1, Sys2Proof.Laws.Enc.Statement (.map a0 a1) :=
  fun _ _ => Or.inr trivial
theorem Sys2Proof.Laws.Enc.context : ∀ a0 a1, Sys2Proof.Laws.Enc.Statement (.context a0 a1) :=
  fun _ _ => Or.inr trivial
theorem Sys2Proof.Laws.Enc.inval : ∀ a0 a1, Sys2Proof.Laws.Enc.Statement (.inval a0 a1) :=
  fun _ _ => Or.inr trivial
theorem Sys2Proof.Laws.Enc.preempt : ∀ a0 a1, Sys2Proof.Laws.Enc.Statement (.preempt a0 a1) :=
  fun _ _ => Or.inr trivial
theorem Sys2Proof.Laws.Enc.qreset : ∀ a0 a1, Sys2Proof.Laws.Enc.Statement (.qreset a0 a1) :=
  fun _ _ => Or.inr trivial
theorem Sys2Proof.Laws.Enc.attest : ∀ a0 a1, Sys2Proof.Laws.Enc.Statement (.attest a0 a1) :=
  fun _ _ => Or.inr trivial
theorem Sys2Proof.Laws.Enc.flitReplay : ∀ a0 a1, Sys2Proof.Laws.Enc.Statement (.flitReplay a0 a1) :=
  fun _ _ => Or.inr trivial
theorem Sys2Proof.Laws.Enc.laneError : ∀ a0 a1 a2 a3, Sys2Proof.Laws.Enc.Statement (.laneError a0 a1 a2 a3) :=
  fun _ _ _ _ => Or.inr trivial
theorem Sys2Proof.Laws.Enc.linkDrained : ∀ a0, Sys2Proof.Laws.Enc.Statement (.linkDrained a0) :=
  fun _ => Or.inr trivial
theorem Sys2Proof.Laws.Enc.linkPauseEnd : ∀ a0, Sys2Proof.Laws.Enc.Statement (.linkPauseEnd a0) :=
  fun _ => Or.inr trivial
theorem Sys2Proof.Laws.Enc.trainingAttemptEnd : ∀ a0, Sys2Proof.Laws.Enc.Statement (.trainingAttemptEnd a0) :=
  fun _ => Or.inr trivial
theorem Sys2Proof.Laws.Enc.portInboundAccess : ∀ a0 a1 a2 a3, Sys2Proof.Laws.Enc.Statement (.portInboundAccess a0 a1 a2 a3) :=
  fun _ _ _ _ => Or.inr trivial
theorem Sys2Proof.Laws.Enc.bar2Access : ∀ a0 a1 a2, Sys2Proof.Laws.Enc.Statement (.bar2Access a0 a1 a2) :=
  fun _ _ _ => Or.inr trivial
theorem Sys2Proof.Laws.Enc.atsTranslationComplete : ∀ a0 a1, Sys2Proof.Laws.Enc.Statement (.atsTranslationComplete a0 a1) :=
  fun _ _ => Or.inr trivial
theorem Sys2Proof.Laws.Enc.atsInvalidation : ∀ a0 a1, Sys2Proof.Laws.Enc.Statement (.atsInvalidation a0 a1) :=
  fun _ _ => Or.inr trivial
theorem Sys2Proof.Laws.Enc.functionLevelReset : Sys2Proof.Laws.Enc.Statement (.functionLevelReset) :=
  Or.inr trivial
theorem Sys2Proof.Laws.Enc.bringUp : Sys2Proof.Laws.Enc.Statement (.bringUp) :=
  Or.inr trivial
theorem Sys2Proof.Laws.Enc.illegalInstruction : Sys2Proof.Laws.Enc.Statement (.illegalInstruction) :=
  Or.inr trivial
theorem Sys2Proof.Laws.Enc.uncoreDown : ∀ a0, Sys2Proof.Laws.Enc.Statement (.uncoreDown a0) :=
  fun _ => Or.inr trivial
theorem Sys2Proof.Laws.Enc.apertureAccessPerformed : ∀ a0, Sys2Proof.Laws.Enc.Statement (.apertureAccessPerformed a0) :=
  fun _ => Or.inr trivial
theorem Sys2Proof.Laws.Enc.eventLatchSet : ∀ a0, Sys2Proof.Laws.Enc.Statement (.eventLatchSet a0) :=
  fun _ => Or.inr trivial
end

