-- ==== Sys2Proof/Laws/Tiles.lean ====
section
/-! SUPPORT. What a landing keeps: the canonical form of a tile's memories, and the registers that are hard-wired (R53, R54, R73). -/

namespace Sys2Proof.Machine

/-- Putting a canonical memory into a space keeps the tile's memories canonical. -/
theorem Store.ok_set (m : Store) (sp : Space) (x : Mem) (h : m.ok) (hx : Memory.wf x = true) : (m.set sp x).ok := by
  cases sp <;> simp_all [Store.set, Store.ok]

theorem Store.ok_get (m : Store) (sp : Space) (h : m.ok) : Memory.wf (m.get sp) = true := by
  obtain ⟨hr, hs, ho, hl⟩ := h
  cases sp <;> first | assumption | rfl

theorem Store.ok_writeRuns (m : Store) (sp : Space) (runs : List (Nat × List Byte)) (h : m.ok) : (m.writeRuns sp runs).ok :=
  m.ok_set sp _ h (Mem.wf_writeRuns _ _ (m.ok_get sp h))

theorem Store.ok_mergeRuns (m : Store) (sp : Space) (runs : List (Nat × List (Byte × Byte))) (h : m.ok) :
    (m.mergeRuns sp runs).ok :=
  m.ok_set sp _ h (List.foldlRecOn (motive := fun x : Mem => Memory.wf x = true) runs (fun x r => Mem.merge x r.1 r.2)
    (m.ok_get sp h) fun _ hx _ _ => Mem.wf_write _ _ _ hx)

/-- A register landing leaves s0 and p0 empty. -/
theorem Ctl.zeroOk_land (c : Ctl) (l : Land) (h : c.zeroOk) : (c.land l).zeroOk := by
  have away (r : BitVec 6) (hr : r ≠ 0#6) : (0 : Nat) ≠ r.toNat := fun e => hr (BitVec.eq_of_toNat_eq e.symm)
  cases l with
  | sreg r v =>
    simp only [Ctl.land, Ctl.wS]
    split
    · exact h
    · exact ⟨(Map.get_set_ne _ _ _ _ _ (away r ‹_›)).trans h.1, h.2⟩
  | pair r v =>
    simp only [Ctl.land, Ctl.wD]
    split
    · exact h
    · exact ⟨(Map.get_set_ne _ _ _ _ _ (Nat.succ_ne_zero _).symm).trans ((Map.get_set_ne _ _ _ _ _ (away r ‹_›)).trans h.1), h.2⟩
  | pred p b =>
    simp only [Ctl.land, Ctl.wP]
    split
    · exact h
    · exact ⟨h.1, (Map.get_set_ne _ _ _ _ _ (away p ‹_›)).trans h.2⟩
  | _ => exact h

/-- The old value of an atomic lands as a register does. -/
theorem Ctl.zeroOk_atomOld (c : Ctl) (wide : Bool) (rd : SReg) (old : DWord) (h : c.zeroOk) : (c.atomOld wide rd old).zeroOk := by
  cases wide
  · exact Ctl.zeroOk_land c (.sreg rd (old.setWidth 32)) h
  · exact Ctl.zeroOk_land c (.pair rd old) h

/-- A landing keeps a tile's invariant. -/
theorem Tile.ok_land (x : Tile) (l : Land) (h : x.ok) : (x.land l).ok := by
  obtain ⟨hm, hz, hw, hv⟩ := h
  have hc := Ctl.zeroOk_land x.ctl l hz
  cases l with
  | bytes sp runs => exact ⟨Store.ok_writeRuns _ _ _ hm, hz, hw, hv⟩
  | part sp runs => exact ⟨Store.ok_mergeRuns _ _ _ hm, hz, hw, hv⟩
  | atomic op wide a rd b c =>
    exact ⟨Store.ok_writeRuns _ _ _ hm, Ctl.zeroOk_atomOld _ _ _ _ hz, hw, hv⟩
  | mask m => exact ⟨hm, hz, hw, hv⟩
  | vstat f => exact ⟨hm, hz, hw, hv⟩
  | seed v => exact ⟨hm, hz, hw, hv⟩
  | hnd v => exact ⟨hm, hz, hw, hv⟩
  | idx v => exact ⟨hm, hz, hw, hv⟩
  | adv v => exact ⟨hm, hz, hw, hv⟩
  | _ => exact ⟨hm, hc, hw, hv⟩

end Sys2Proof.Machine
end

