-- ==== Sys2Proof/Laws/Words.lean ====
section
/-! SUPPORT. What the shared operations of words do: the issue of a text word, its traps, what an issue leaves alone. -/

namespace Sys2Proof.Machine

/-! ### A text word whose turn has come -/

/-- Everything a text word can do once it is ready. -/
theorem textWord_ready (s : State) (t : Nat) (e : Eng) (w : Form) (act : State → Act) (h : Ready s t e w.h w.leg) :
    s.textWord t e w act = match act s with
      | .go s' f => s'.issued t e w.h w.len f
      | .wait => s.unguard t
      | .hold s' => (s'.unguard t).modTile t fun y => { y with stop := { y.stop with held := .party } }
      | .trap c a => s.trapWord t e c a
      | .fail s' c a => s'.trapWord t e c a
      | .lost s' a => (s'.trapWord t e Cause.translation a).noResume t := by
  obtain ⟨-, ht, hl, hg⟩ := h
  simp only [State.textWord, ht, hl, hg]
  rfl

/-- A word whose tokens are not there does not issue (R46). -/
theorem textWord_waits (s : State) (t : Nat) (e : Eng) (w : Form) (act : State → Act)
    (h : (s.tile t).tokens e w.h = false) : s.textWord t e w act = s.unguard t := by
  simp [State.textWord, h]

/-- A CTL word on a tile. -/
theorem ctlWord_ready (s : State) (t : Nat) (w : Form) (act : State → Act) (h : Ready s t .ctl w.h w.leg) :
    ctlWord w act s = .next (match act s with
      | .go s' f => s'.issued t .ctl w.h w.len f
      | .wait => s.unguard t
      | .hold s' => (s'.unguard t).modTile t fun y => { y with stop := { y.stop with held := .party } }
      | .trap c a => s.trapWord t .ctl c a
      | .fail s' c a => s'.trapWord t .ctl c a
      | .lost s' a => (s'.trapWord t .ctl Cause.translation a).noResume t) := by
  simp only [ctlWord, h.1]
  rw [textWord_ready s t .ctl w act h]

/-- A CTL word on a firmware core. -/
theorem ctlWord_fwc (s : State) (d : Nat) (w : Form) (act : State → Act) (h : FwcReady s d) (hr : w.h = Ring.none)
    (ht : w.tileOnly = false) :
    ctlWord w act s = .next (match act s with
      | .go s' e => s'.fwcIssue d w.len e
      | .wait => s.fwcUnguard d
      | .hold _ => s.fwcUnguard d
      | .trap c a => s.exception d c a (State.fwcHead (s.fwc d))
      | .fail s' c a => s'.exception d c a (State.fwcHead (s.fwc d))
      | .lost s' a => s'.exception d Cause.translation a (State.fwcHead (s.fwc d))) := by
  obtain ⟨hc, hg⟩ := h
  simp only [ctlWord, hc, State.fwcWord, hr, ht, hg]
  rfl

/-- A word of the VU, TDA or XP. -/
theorem engWord_ready (s : State) (t : Nat) (e : Eng) (w : Form) (act : Nat → State → Act) (h : Ready s t e w.h w.leg) :
    engWord e w act s = .next (match act t s with
      | .go s' f => s'.issued t e w.h w.len f
      | .wait => s.unguard t
      | .hold s' => (s'.unguard t).modTile t fun y => { y with stop := { y.stop with held := .party } }
      | .trap c a => s.trapWord t e c a
      | .fail s' c a => s'.trapWord t e c a
      | .lost s' a => (s'.trapWord t e Cause.translation a).noResume t) := by
  simp only [engWord, h.1, if_true]
  rw [textWord_ready s t e w (act t) h]

/-- The CTL that reads is the one whose turn it is. -/
theorem State.ctl_tile (s : State) (t : Nat) (e : Eng) (h : s.cur = .eng t e) : s.ctl = (s.tile t).ctl := by
  simp [State.ctl, h]
theorem State.ctl_fwc (s : State) (d : Nat) (h : s.cur = .fwc d) : s.ctl = (s.fwc d).ctl := by
  simp [State.ctl, h]

/-- A CTL word whose whole effect is what lands. -/
theorem ctlPure_ready (s : State) (t : Nat) (w : Form) (f : Ctl → List (Nat × Land)) (h : Ready s t .ctl w.h w.leg) :
    ctlPure w f s = .next (s.issued t .ctl w.h w.len (Eff.of (f (s.tile t).ctl))) := by
  rw [ctlPure, ctlWord_ready s t w _ h]
  simp only [State.ctl_tile s t .ctl h.1]

theorem ctlPure_fwc (s : State) (d : Nat) (w : Form) (f : Ctl → List (Nat × Land)) (h : FwcReady s d)
    (hr : w.h = Ring.none) (ht : w.tileOnly = false) :
    ctlPure w f s = .next (s.fwcIssue d w.len (Eff.of (f (s.fwc d).ctl))) := by
  rw [ctlPure, ctlWord_fwc s d w _ h hr ht]
  simp only [State.ctl_fwc s d h.1]

end Sys2Proof.Machine
end

