-- ==== Sys2Proof/Tests/Slice0.lean ====
section
/-! SUPPORT. Tests: what the well-formedness checks refuse, words written out from the encodings, single steps against values
worked from the rules by hand, and for every statement with hypotheses a state and operands that meet them. -/

open Sys2Proof Sys2Proof.Machine Sys2Proof.Claims

-- One proof after the other: each of them waits for the kernel, and a thread apiece would run out of memory.
set_option Elab.async false

namespace Sys2Proof.Tests

/-! ### Ill-formed instructions, one for each check -/

abbrev r0 : Ring := Ring.none
abbrev sem0 : SemF := ⟨false, 0, false, 0⟩
abbrev m0 : VMod := ⟨.rn, false, false⟩
abbrev o0 : Opnd := .main 0 0

theorem test_wf_pairs_are_even :
    Instr.wf (.ldd r0 3 1 0) = false ∧ Instr.wf (.mfph r0 5) = false ∧ Instr.wf (.acasD r0 2 1 3) = false
    ∧ Instr.wf (.hand r0 1 2) = false ∧ Instr.wf (.take r0 1) = false ∧ Instr.wf (.mfsr 1 0) = false
    ∧ Instr.wf (.lih r0 7 0) = false ∧ Instr.wf (.csave 1 0) = false := by decide
theorem test_wf_counts : Instr.wf (.ksig r0 1 0) = false ∧ Instr.wf (.kwait r0 1 0) = false ∧ Instr.wf (.sloop 0 0) = false
    ∧ Instr.wf (.sksig 0 0) = false ∧ Instr.wf (.skwait 0 0) = false ∧ Instr.wf (.sdecode .t64 0 0 0) = false := by decide
theorem test_wf_pop_fifo : Instr.wf (.pop r0 1 0) = false ∧ Instr.wf (.pop r0 1 3) = false := by decide
theorem test_wf_types :
    Instr.wf (.vadd r0 .pl4 o0 o0 o0 m0) = false ∧ Instr.wf (.vmul r0 .x48 o0 o0 o0 m0) = false
    ∧ Instr.wf (.vand r0 .pl2 o0 o0 o0 false) = false ∧ Instr.wf (.vshl r0 .f32 o0 o0 o0 false false) = false
    ∧ Instr.wf (.vshr r0 .x48 o0 o0 o0 false) = false ∧ Instr.wf (.vtrn r0 .x48 o0 o0 false) = false
    ∧ Instr.wf (.vcmp r0 .s32 .uo o0 o0 o0 false) = false ∧ Instr.wf (.vabs r0 .f32 o0 o0 true false) = false
    ∧ Instr.wf (.vcvt r0 .x48 .s16x2 o0 o0 0 .rn false) = false ∧ Instr.wf (.tmacx r0 0 0 .m16 0 .e2m1 false sem0) = false
    ∧ Instr.wf (.tldb r0 0 0 true .e2m3 sem0) = false := by decide
theorem test_wf_operands :
    Instr.wf (.vadd r0 .f32 (.const 1) o0 o0 m0) = false ∧ Instr.wf (.vadd r0 .f32 (.latch .fma) o0 o0 m0) = false
    ∧ Instr.wf (.vadd r0 .f32 o0 (.const 0x1F) o0 m0) = false ∧ Instr.wf (.vadd r0 .f32 o0 .ring o0 m0) = false
    ∧ Instr.wf (.vqmx r0 .s8x4 (.latch .alu) o0 0 .rn) = false ∧ Instr.wf (.tflag r0 (.latch .alu) false false sem0) = false
    ∧ Instr.wf (.raceMin r0 (.latch .acc) (.latch .acc) 0 .z32 false sem0) = false := by decide
theorem test_wf_modes :
    Instr.wf (.vadd r0 .s32 o0 o0 o0 ⟨.rz, false, false⟩) = false ∧ Instr.wf (.vredr r0 .f32 .max o0 o0 ⟨.rz, false, false⟩) = false
    ∧ Instr.wf (.vscanc r0 .s32 .min true o0 o0 ⟨.rn, true, false⟩) = false ∧ Instr.wf (.vcvt r0 .s32 .f32 o0 o0 0 .sr false) = false
    := by decide
theorem test_wf_parts :
    Instr.wf (.vcvt r0 .f32 .f16x2 o0 o0 2 .rn false) = false ∧ Instr.wf (.vqmx r0 .e4m3x4 o0 o0 4 .rn) = false
    ∧ Instr.wf (.vdqmx r0 .s4x8 o0 o0 o0 8 .rn) = false ∧ Instr.wf (.vjoin6 r0 .s6 o0 o0 o0 8) = false
    ∧ Instr.wf (.vsplit6P4 r0 .s6 o0 o0 2) = false ∧ Instr.wf (.vsplit6P2 r0 .s6 o0 o0 4) = false := by decide
theorem test_wf_array_fields :
    Instr.wf (.tldb r0 8 8 false .s8 sem0) = false ∧ Instr.wf (.tzero r0 0 0 .m16 0 false ⟨false, 1, false, 0⟩) = false
    ∧ Instr.wf (.tdrain r0 ⟨false, 0, false, 2⟩) = false ∧ Instr.wf (.sfeeda .m16 ⟨.s8, true, 0, 1, 0, 0⟩) = false
    ∧ Instr.wf (.sfeedb ⟨.s8, false, 0, 0, 1, 0⟩) = false := by decide
theorem test_wf_copy_fields :
    Instr.wf (.xcopy r0 ⟨12, false, false, 0, sem0, 0, 0⟩) = false ∧ Instr.wf (.xgath r0 ⟨0, false, true, 0, sem0, 0, 0⟩) = false
    ∧ Instr.wf (.xflag r0 ⟨0, false, 3, 0, sem0, 0, 0⟩) = false ∧ Instr.wf (.xflag r0 ⟨0, false, 2, 0, sem0, 0, 0⟩) = false
    ∧ Instr.wf (.xcnt r0 0 true 1 0) = false ∧ Instr.wf (.xcnt r0 0 false 0 0x100001) = false
    ∧ Instr.wf (.xrdef r0 0 0 0 0 true) = false := by decide
theorem test_wf_limits_admitted :
    Instr.wf (.ldd r0 62 1 0) = true ∧ Instr.wf (.xcnt r0 15 false 511 0x100000) = true ∧ Instr.wf (.tldb r0 8 7 false .s8 sem0) = true
    ∧ Instr.wf (.xcopy ⟨false, true, false, false⟩ ⟨11, true, true, 0xFFFFF, sem0, 0, 0⟩) = true := by decide

/-! ### Words written out from the encodings (R132, R136-R147, R160, R215, R242, R253, R303) -/

/-- The assembled fragment of the manual (06, after R147), address by address. -/
theorem test_decode_fragment :
    decodeText 0x03C06000 0 0 = .ok (.guard false 3)
    ∧ decodeText 0x048145FC 0 0 = .ok (.addi ⟨false, false, false, true⟩ 5 5 0xFC)
    ∧ decodeText 0x6000A080 0x410C0000 0 = .ok (.vadd ⟨true, false, false, false⟩ .f32 (.main 1 2) (.main 1 0) (.ofile 3) m0)
    ∧ decodeText 0x800103F4 0x82750000 0 = .ok (.tmac r0 2 0 .m16 63 .s8 false ⟨true, 3, true, 5⟩)
    ∧ decodeText 0xC0800000 0 0 = .ok (.xarrive r0) := by decide +kernel
theorem test_decode_compare :
    decodeText (0b00#2 ++ 0b0000#4 ++ 0b010111#6 ++ 0b000101#6 ++ 0b001001#6 ++ 0b111101#6 ++ 0b10#2) 0 0
      = .ok (.cmpiLt r0 5 9 0x3D) := by decide +kernel
theorem test_decode_load :
    decodeText (0b00#2 ++ 0b0000#4 ++ 0b100111#6 ++ 0b000111#6 ++ 0b000010#6 ++ 0xFE#8) 0 0 = .ok (.ldw r0 7 2 0xFE) := by decide +kernel
theorem test_decode_transfer :
    decodeText (0b00#2 ++ 0b0010#4 ++ 0b011100#6 ++ 0b011#3 ++ 0b000#3 ++ 0b000110#6 ++ 0#8) 0 0
      = .ok (.xfer ⟨false, false, true, false⟩ 3 6) := by decide +kernel
theorem test_decode_token :
    decodeText (0b00#2 ++ 0b0000#4 ++ 0b110000#6 ++ 0b101#3 ++ 0b1#1 ++ 0x1234#16) 0 0 = .ok (.kwait r0 5 0x1234)
    ∧ decodeText (0b00#2 ++ 0b0000#4 ++ 0b101111#6 ++ 0b010#3 ++ 0b0#1 ++ 0b00#2 ++ 0b000011#6 ++ 0#8) 0 0 = .ok (.ksigReg r0 2 3)
    := by decide +kernel
theorem test_decode_handover :
    decodeText (0b00#2 ++ 0b0000#4 ++ 0b110111#6 ++ 0#6 ++ 0b000100#6 ++ 0b001001#6 ++ 0b00#2) 0 0 = .ok (.hand r0 4 9)
    ∧ decodeText (0b00#2 ++ 0b0000#4 ++ 0b111011#6 ++ 0b01#2 ++ 0#10 ++ 0x2A#8) 0 0 = .ok (.trap r0 0x2A) := by decide +kernel
theorem test_decode_system :
    decodeText (0b00#2 ++ 0b0000#4 ++ 0b111101#6 ++ 0b000111#6 ++ 0b000100#6 ++ 0b000101#6 ++ 0b00#2) 0 0 = .ok (.csave 4 5)
    ∧ decodeText (0b00#2 ++ 0b0000#4 ++ 0b111101#6 ++ 0b001010#6 ++ 0b000011#6 ++ 0b000101#6 ++ 0b00#2) 0 0 = .ok (.ttrimWr 3 5)
    := by decide +kernel
theorem test_decode_vector :
    decodeText (0b01#2 ++ 0b0000#4 ++ 0b101111#6 ++ 0#8 ++ 0b00010001#8 ++ 0b0001#4)
      (0b01#2 ++ 0b0000#4 ++ 0b11000100#8 ++ 0b11000001#8 ++ 0b000#3 ++ 0b0#1 ++ 0b1#1 ++ 0b01111#5) 0
      = .ok (.vst r0 .s32 (.main 2 1) (.const 4) (.const 1) 15 true)
    ∧ decodeText (0b01#2 ++ 0b0000#4 ++ 0b010100#6 ++ 0b00000001#8 ++ 0b01000010#8 ++ 0b0000#4)
      (0b01#2 ++ 0b0000#4 ++ 0b11000001#8 ++ 0#8 ++ 0b001#3 ++ 0b0#1 ++ 0b0#1 ++ 0b00011#5) 0
      = .ok (.vcvt r0 .f32 .f16x2 (.main 0 1) (.ofile 2) 1 .rz false)
    ∧ decodeText (0b01#2 ++ 0b0001#4 ++ 0b101101#6 ++ 0b000111#6 ++ 0#14) 0 0 = .ok (.mqry ⟨false, false, false, true⟩ 7) := by decide +kernel
theorem test_decode_array :
    decodeText (0b10#2 ++ 0b0000#4 ++ 0b000010#6 ++ 0b0011#4 ++ 0b0010#4 ++ 0#7 ++ 0b1#1 ++ 0b0100#4)
      (0b10#2 ++ 0b0000#4 ++ 0b0#1 ++ 0b0000#4 ++ 0b1#1 ++ 0b0110#4 ++ 0#16) 0
      = .ok (.tldb r0 3 2 true .s8 ⟨false, 0, true, 6⟩)
    ∧ decodeText (0b10#2 ++ 0b0000#4 ++ 0b001101#6 ++ 0b00001000#8 ++ 0b01000001#8 ++ 0b0011#4)
      (0b10#2 ++ 0b0000#4 ++ 0#10 ++ 0b0#1 ++ 0b100#3 ++ 0b0#1 ++ 0b000111#6 ++ 0#5) 0
      = .ok (.raceTopk r0 (.main 1 0) (.ofile 1) 3 .f32 7 sem0) := by decide +kernel
theorem test_decode_exchange :
    decodeText (0b11#2 ++ 0b0000#4 ++ 0b000011#6 ++ 0b1010#4 ++ 0b0#1 ++ 0b100000001#9 ++ 0#6)
      (0b11#2 ++ 0b0000#4 ++ 0#5 ++ 0x100000#21) 0 = .ok (.xcnt r0 10 false 257 0x100000)
    ∧ decodeText (0b11#2 ++ 0b0100#4 ++ 0b000101#6 ++ 0x1234#16 ++ 0b1#1 ++ 0#3)
      (0b11#2 ++ 0b0000#4 ++ 0x5678#16 ++ 0xAB#8 ++ 0#2) (0b11#2 ++ 0b0000#4 ++ 0x9ABC#16 ++ 0xCD#8 ++ 0#2)
      = .ok (.xrdef ⟨false, true, false, false⟩ 0x1234 0xABCD 0x5678 0x9ABC true) := by decide +kernel
theorem test_decode_sequencer :
    decodeSeq (0b000001#6 ++ 0b10#2 ++ 0b0#1 ++ 0#3 ++ 0b0101#4 ++ 0#16) = .ok (.sloopReg 2 5)
    ∧ decodeSeq (0b001100#6 ++ 0b0011#4 ++ 0b0100#4 ++ 0b1#1 ++ 0b0#1 ++ 0xFFF0#16) = .ok (.sadd 3 4 0xFFF0)
    ∧ decodeSeq (0b001101#6 ++ 0b1#1 ++ 0b0#1 ++ 0b110#3 ++ 0#21) = .ok (.sqpopAg 6)
    ∧ decodeSeq (0b000111#6 ++ 0b01#2 ++ 0b000#3 ++ 0b001#3 ++ 0b010#3 ++ 0b011#3 ++ 0#12) = .ok (.sencode .t64 1 2 3) := by decide +kernel
theorem test_decode_reserved :
    (decodeText 0x43F00000 0x40000000 0).toOption = none ∧ (decodeText 0x00F00003 0 0).toOption = none
    ∧ (decodeSeq 0).toOption = none ∧ (decodeSeq 0x40000000).toOption = none := by decide +kernel

/-! ### Small states -/

/-- Tile 0 alone; engine `e` has its turn. -/
def onTile (e : Eng) (x : Tile) : State := { State.reset with cur := .eng 0 e, tiles := [(0, x)] }
/-- The firmware core of die 0; it has its turn. -/
def onCore (f : Fwc) : State := { State.reset with cur := .fwc 0, dies := [(0, { State.die0 with fwc := f })] }
abbrev t0 : Tile := State.tile0
abbrev f0 : Fwc := State.fwc0
/-- A tile whose CTL has these scalars. -/
abbrev withS (s : Map Word) : Tile := { t0 with ctl := { State.ctl0 with s := s } }
/-- A firmware core with these scalars. -/
abbrev coreS (s : Map Word) : Fwc := { f0 with ctl := { State.ctl0 with s := s } }
/-- A tile in phase `n`. -/
abbrev inPhase (n : Nat) : Tile := { t0 with seat := { State.seat0 with phase := n } }
/-- A store of the CTL that has still to land. -/
abbrev aStore : Pend := ⟨2, 0, .ctl, 0, .bytes .scr []⟩
/-- A tile whose decision FIFO holds one entry and is full. -/
abbrev noRoom : Tile :=
  { t0 with stop := { State.stop0 with wcfg := 0 }, sync := { State.sync0 with decs := [⟨0, 0, 0⟩] } }

/-! ### One step against values worked by hand from the rules -/

/-- What a tile has pending after a word. -/
def left (o : Out) : List Pend :=
  match o with
  | .next s => (s.tile 0).pend
  | _ => []

/-- BFX (R163): bits 15:8 of b are the width less 1, bits 4:0 the position. -/
theorem test_bfx : left (exec (.bfx r0 3 1 2) (onTile .ctl (withS [(1, 0x12345678), (2, 0x0704)])))
    = [⟨1, 0, .ctl, 0, .sreg 3 0x67⟩, ⟨1, 0, .ctl, 0, .alu 0x67⟩] := by decide +kernel
/-- MULH of -2^31 and -1 (R162): the high word of 2^31. -/
theorem test_mulh : left (exec (.mulh r0 3 1 2) (onTile .ctl (withS [(1, 0x80000000), (2, 0xFFFFFFFF)])))
    = [⟨3, 0, .ctl, 0, .sreg 3 0⟩, ⟨3, 0, .ctl, 0, .alu 0⟩] := by decide +kernel
/-- DIVS by zero (R162): all ones; the remainder is the dividend. -/
theorem test_divide_by_zero : left (exec (.divs r0 3 1 2) (onTile .ctl (withS [(1, 7)])))
    = [⟨18, 0, .ctl, 0, .sreg 3 0xFFFFFFFF⟩, ⟨18, 0, .ctl, 0, .alu 0x7FFFFFFFF⟩] := by decide +kernel
/-- SAR by 40 fills with the sign (R161). -/
theorem test_sar_beyond : left (exec (.sar r0 3 1 2) (onTile .ctl (withS [(1, 0x80000000), (2, 40)])))
    = [⟨1, 0, .ctl, 0, .sreg 3 0xFFFFFFFF⟩, ⟨1, 0, .ctl, 0, .alu 0xFFFFFFFF⟩] := by decide +kernel
/-- LDB sign-extends; the latch takes the 32-bit result zero-extended (R70, R174). -/
theorem test_ldb : left (exec (.ldb r0 3 1 0xFF) (onTile .ctl
      { withS [(1, 0x11)] with store := { State.store0 with scr := [(0x10, 0x80)] } }))
    = [⟨4, 0, .ctl, 0, .sreg 3 0xFFFFFF80⟩, ⟨4, 0, .ctl, 0, .alu 0xFFFFFF80⟩] := by decide +kernel
/-- A store lands after 2 cycles, little-endian (R174). -/
theorem test_stw : left (exec (.stw r0 3 1 0) (onTile .ctl (withS [(1, 0x20), (3, 0x04030201)])))
    = [⟨2, 0, .ctl, 0, .bytes .scr [(0x20, [1, 2, 3, 4])]⟩] := by decide +kernel
/-- s0 is never written and the latch still is (R53, R70). -/
theorem test_s0 : (Ctl.land State.ctl0 (.sreg 0 5)).rS 0 = 0 ∧ (Ctl.land State.ctl0 (.alu 5)).alu = 5 := by decide +kernel

/-! ### States and operands that meet the hypotheses of the statements -/

/-- A route between two sites crosses mesh links. -/
theorem mesh_route : ∀ a < 9, ∀ b < 9, ∀ k ∈ routeLinks (routeSites a b), k < 12 := by decide
/-- With no mesh link held an access to HBM is not. -/
theorem mesh_free {s : State} {pa : Nat} (d : Nat) (hd : d < 8) (ha : pa < 2 ^ 40) (hm : ∀ k < 12, s.linkHolds k = false) :
    s.addrHeld (Config.dieSite d) pa = false := by
  have p : s.portOf pa = none := by
    rw [State.portOf, if_neg]
    simp [show State.hbmTop = 2 ^ 40 from rfl]
    omega
  have f : s.siteOf pa < 9 := by
    have : ∀ n < 8, nodeSite n < 9 := by decide
    simp only [State.siteOf, p, State.hostBase, if_neg (show ¬0x80000000000 ≤ pa by omega)]
    exact this _ (by simp only [Machine.bits]; exact Nat.mod_lt _ (by decide))
  have n : Config.dieSite d < 9 := by
    unfold Config.dieSite
    split <;> omega
  simp only [State.addrHeld, p, Bool.or_false, List.any_eq_false, List.mem_append]
  rintro k (h | h)
  · simp [hm k (mesh_route _ n _ f k h)]
  · simp [hm k (mesh_route _ f _ n k h)]
/-- With every mesh link training an access from another site to the last memory node is held. -/
theorem mesh_far : ∀ a < 8, ∃ k ∈ routeLinks (routeSites a 8), k < 12 := by decide
def allTraining : Map Link := (List.range 12).map fun k => (k, { State.link0 with st := .training })
theorem mesh_holds {s : State} {pa : Nat} (d : Nat) (hd : d < 7) (hs : s.siteOf pa = 8) (hm : ∀ k < 12, s.linkHolds k = true) :
    s.addrHeld (Config.dieSite d) pa = true := by
  have n : Config.dieSite d < 8 := by unfold Config.dieSite; split <;> omega
  obtain ⟨k, hk, h12⟩ := mesh_far _ n
  rw [State.addrHeld, hs, Bool.or_eq_true, List.any_eq_true]
  exact .inl ⟨k, List.mem_append_left _ hk, hm k h12⟩
/-- A port link that trains holds what goes through its window. -/
theorem port_holds {s : State} {pa p : Nat} (site : Nat) (hp : s.portOf pa = some p) (h : s.linkHolds (16 + p) = true) :
    s.addrHeld site pa = true := by
  simp [State.addrHeld, hp, h]

theorem witness_ComputeWords :
    Ready (onTile .ctl t0) 0 .ctl r0 .cx ∧ FwcReady (onCore f0) 0 ∧ (ctlResult (.add r0 1 2 3)).isSome = true
    ∧ Ready (onTile .ctl (withS [(3, 7)])) 0 .ctl r0 .cx ∧ (withS [(3, 7)]).ctl.rS 3 ≠ 0 ∧ t0.ctl.divFree ≤ t0.cyc ∧ t0.ctl.rS 3 = 0
    ∧ Ready (onTile .ctl { t0 with ctl := { State.ctl0 with divFree := 1 } }) 0 .ctl r0 .cx := by decide +kernel

theorem witness_TransferWords :
    (let x := { t0 with ctl := { State.ctl0 with t := [(7, ⟨9, true, .filled⟩)] } }
     Ready (onTile .ctl x) 0 .ctl r0 .cx ∧ DecisionRoom x ∧ (x.ctl.rT 7).prpd = true ∧ x.ctl.rP 0 = true ∧ x.ctl.rP 1 = false)
    ∧ (DecisionRoom t0 ∧ (t0.ctl.rT 7).prpd = false)
    ∧ (Ready (onTile .ctl noRoom) 0 .ctl r0 .cx ∧ ¬DecisionRoom noRoom)
    ∧ FwcReady (onCore { f0 with ctl := { State.ctl0 with t := [(0, ⟨9, true, .empty⟩)] } }) 0 ∧ FwcReady (onCore f0) 0 := by
  decide +kernel

theorem witness_TargetWords : Ready (onTile .ctl t0) 0 .ctl r0 .cx ∧ FwcReady (onCore f0) 0 := by decide +kernel

/-- The last pass of a level (count 1) and one before it (count 2), a spatial level, a full decision FIFO. -/
theorem witness_Loops :
    (let x (n : BitVec 16) (sp : Bool) : Tile := { t0 with ctl := { State.ctl0 with lv := [(2, ⟨n, 0, 5, sp⟩)] } }
     Ready (onTile .ctl (x 1 false)) 0 .ctl r0 .cx ∧ Ready (onTile .ctl (x 2 false)) 0 .ctl r0 .cx
     ∧ ((x 1 false).ctl.rL 2).count.toNat ≤ ((x 1 false).ctl.rL 2).index.toNat + 1
     ∧ ((x 2 false).ctl.rL 2).index.toNat + 1 < ((x 2 false).ctl.rL 2).count.toNat
     ∧ Ready (onTile .ctl (x 1 true)) 0 .ctl r0 .cx ∧ ((x 1 true).ctl.rL 2).spatial = true ∧ DecisionRoom (x 1 true))
    ∧ Ready (onTile .ctl noRoom) 0 .ctl r0 .cx ∧ ¬DecisionRoom noRoom
    ∧ (let f (n : BitVec 16) (sp : Bool) : Fwc := { f0 with ctl := { State.ctl0 with lv := [(2, ⟨n, 0, 5, sp⟩)] } }
       FwcReady (onCore (f 1 false)) 0 ∧ ((f 1 false).ctl.rL 2).count.toNat ≤ ((f 1 false).ctl.rL 2).index.toNat + 1
       ∧ FwcReady (onCore (f 2 false)) 0 ∧ ((f 2 false).ctl.rL 2).index.toNat + 1 < ((f 2 false).ctl.rL 2).count.toNat
       ∧ FwcReady (onCore (f 1 true)) 0 ∧ ((f 1 true).ctl.rL 2).spatial = true ∧ ((f 1 false).ctl.rL 2).spatial = false) := by decide +kernel

/-- A partition in whose phase 0 frame 1 is expected to carry the tag 5. -/
def tagged (tag : Word) : State :=
  { onTile .ctl { t0 with
      seat := { State.seat0 with part := some 0 }
      frames := { State.frames0 with tags := [(1, tag)] } } with
    parts := [(0, { State.part0 with img := { State.image0 with frames := [(0, 1, 5)] } })] }

/-- The last word of local space and the first address past it; a frame with the right tag and with a wrong one. -/
theorem witness_LoadWords :
    (let s := onTile .ctl (withS [(1, 0xFFFFC), (2, 0xFFFFD)])
     Ready s 0 .ctl r0 .c ∧ effAddr (s.tile 0).ctl 1 0 4 = 0xFFFFC ∧ (s.readLocal 0 .ctl 0xFFFFC 4).toOption.isSome = true
     ∧ 0x100000 < effAddr (s.tile 0).ctl 2 0 4 + 4)
    ∧ (let s := tagged 5
       Ready s 0 .ctl r0 .c ∧ (s.die (dieOf 0)).inj = [] ∧ (s.tile 0).store.ecc = [] ∧ (s.tile 0).store.wiped = []
       ∧ ∀ f ∈ State.framesOf 0xFFC 8, s.frameTag 0 f = none ∨ s.frameTag 0 f = some ((s.tile 0).frames.tags.get 0#32 f))
    ∧ (let s := tagged 6
       State.framesOf 0x1000 4 = [1] ∧ (s.tile 0).frames.checked.get false 1 = false ∧ s.frameTag 0 1 = some 5
       ∧ (5 : Word) ≠ (s.tile 0).frames.tags.get 0#32 1)
    ∧ 8 ∈ [1, 2, 4, 8] := by decide +kernel
theorem witness_loadOf : loadOf (.ldd r0 2 1 0) = some (r0, 2, 1, 0, 8, false) ∧ loadOf (.ldb r0 2 1 0) = some (r0, 2, 1, 0, 1, true) :=
  ⟨rfl, rfl⟩

theorem witness_StoreWords :
    (let s := onTile .ctl (withS [(1, 0xFFFF8), (2, 0xFFFF9)])
     Ready s 0 .ctl r0 .c ∧ effAddr (s.tile 0).ctl 1 0 8 + 8 ≤ 0x100000 ∧ 0x100000 < effAddr (s.tile 0).ctl 2 0 8 + 8
     ∧ (s.readLocal 0 .ctl 0xFFFF8 8).toOption.isSome = true)
    ∧ (let s := onTile .ctl (withS [(1, 0xFFFFF), (2, 0x100000)])
       0x100000 < ((s.tile 0).ctl.rS 2).toNat / 8 * 8 + 8 ∧ (s.readLocal 0 .ctl (((s.tile 0).ctl.rS 1).toNat / 8 * 8) 8).toOption.isSome = true)
    ∧ (2 : SReg) ≠ 0 ∧ (62 : SReg).toNat % 2 = 0 := by decide +kernel
theorem witness_storeOf : storeOf (.std r0 2 1 0) = some (r0, 2, 1, 0, 8)
    ∧ atomicOf (.acasD r0 2 1 4) = some (r0, .cas, true, 2, 1, 4) := ⟨rfl, rfl⟩

/-- The last word of the data region, the first of the patch region and a pair across both; ROM; the aperture; holes. A word that
ECC can correct and one that it cannot, in SRAM and in ROM. -/
theorem witness_FirmwareRegions :
    InSram 0x37FFC 4 ∧ ¬InPatch 0x37FFC 4 ∧ InSram 0x38000 8 ∧ InPatch 0x38000 8 ∧ ¬InSram 0x37FFC 8 ∧ ¬InSram 0x3FFFC 8 ∧ InRom 0x40017FF8 8
    ∧ ¬InRom 0x40017FFC 8 ∧ InAperture 0x80000000 8 ∧ InAperture 0xFFFFFFF8 8 ∧ ¬InAperture 0x7FFFFFFC 8
    ∧ (¬InSram 0x3FFFFFFC 4 ∧ ¬InRom 0x3FFFFFFC 4 ∧ ¬InAperture 0x3FFFFFFC 4) := by
  refine ⟨?_, ?_, ?_, ?_, ?_, ?_, ?_, ?_, ?_, ?_, ?_, ?_, ?_, ?_⟩ <;> simp only [InSram, InPatch, InRom, InAperture] <;> decide
theorem witness_FirmwareMemory :
    (let f := coreS [(1, 0x37FFC), (2, 0x38000), (3, 0x40000000), (4, 0x80000000)]
     FwcReady (onCore f) 0 ∧ effAddr f.ctl 1 0 4 = 0x37FFC ∧ effAddr f.ctl 2 0 4 = 0x38000 ∧ f.lock = false ∧ effAddr f.ctl 3 0 4 = 0x40000000
     ∧ effAddr f.ctl 4 0 4 = 0x80000000 ∧ (onCore f).physOk (f.apbase.toNat + 0) 4 = true ∧ (onCore f).storeRefused (f.apbase.toNat + 0) 4 = false
     ∧ ((onCore f).touchSram 0 (0x37FFC / 4) ((0x37FFC + 3) / 4)).2 = none ∧ ((onCore f).touchFwc 0 .rom 0 0).2 = none)
    ∧ FwcReady (onCore { coreS [(2, 0x38000)] with lock := true }) 0
    ∧ (let f : Fwc := { f0 with apbase := 0x10000000000, ecc := [⟨.sram, 0, 1⟩, ⟨.sram, 1, 3⟩, ⟨.rom, 2, 3⟩] }
       FwcReady (onCore f) 0 ∧ (onCore f).physOk f.apbase.toNat 4 = false ∧ ((onCore f).touchSram 0 0 0).2 = none
       ∧ ((onCore f).touchSram 0 0 1).2 = some 4 ∧ ((onCore f).touchFwc 0 .rom 2 2).2 = some 8) := by
  and_intros <;> decide +kernel

/-- Tokens at their limits: 65,534 + 1 fits, 65,535 + 1 does not; a wait for all there is, and for one more; a count of 0. -/
theorem witness_CountedWords :
    (let x (v : BitVec 16) (p : List Pend) : Tile := { t0 with sync := { State.sync0 with k := [(3, v)], sem := [(3, v)] }, pend := p }
     Ready (onTile .ctl (x 65534 [])) 0 .ctl r0 .c ∧ Ready (onTile .ctl (x 65535 [])) 0 .ctl r0 .c
     ∧ Ready (onTile .ctl (x 0 [aStore])) 0 .ctl r0 .c
     ∧ tokenWord (x 0 []).ctl (.ksig r0 3 1) = some (r0, 3, 1, true) ∧ tokenWord (x 0 []).ctl (.kwait r0 3 65535) = some (r0, 3, 65535, false)
     ∧ tokenWord (x 0 []).ctl (.ksigReg r0 3 1) = some (r0, 3, 0, true))
    ∧ Ready (onTile .ctl (inPhase 1)) 0 .ctl r0 .cx ∧ (inPhase 1).sync.sem.get 0#16 3 = 0 := by decide +kernel
theorem witness_storePending : storePending { t0 with pend := [aStore] } ∧ ¬storePending t0 :=
  ⟨⟨aStore, List.mem_singleton.2 rfl, rfl, .inl ⟨[], rfl⟩⟩, fun ⟨_, h, _⟩ => by cases h⟩

/-- FIFOs with 15 and with 16 elements; a head that is poppable, one that is not, none. -/
theorem witness_FifoWords :
    (let e : Fel := ⟨7, 0, true⟩
     let x (q r : List Fel) : Tile := { t0 with sync := { State.sync0 with fqs := q, fqr := r, fqa := r } }
     Ready (onTile .ctl (x (List.replicate 15 e) [e])) 0 .ctl r0 .c ∧ (x (List.replicate 15 e) [e]).sync.fqs.length < 16
     ∧ Ready (onTile .ctl (x (List.replicate 16 e) [])) 0 .ctl r0 .c ∧ 16 ≤ (x (List.replicate 16 e) []).sync.fqs.length
     ∧ Ready (onTile .ctl (x [] [⟨7, 5, false⟩])) 0 .ctl r0 .c) := by decide +kernel

/-- A granule of tile 0's partition of two dies, with this entry in the region table. -/
def granule (st owner taker nrel : Nat) (rb : Word) : State :=
  { onTile .ctl { withS [(3, rb)] with seat := { State.seat0 with part := some 0 } } with
    parts := [(0, { State.part0 with v := true, bind := [0, 1], rgn := 1, nleaf := 1 })]
    dies := [(1, { State.die0 with wm := 3 })]
    mem := Mem.write [(0x200007, 0x80)] 0x280000 (leBytes 8 (RegionEnt.bits ⟨0, false, st, owner, taker, nrel⟩)) }

/-- Owned by the tile and by the last logical tile; released and offered, to the tile and to another; the watermark at the
release's number and one below it; a taker that exists (127) and one that does not (128). -/
theorem witness_OwnershipWords :
    Ready (granule 0 0 0 0 127) 0 .ctl r0 .cx ∧ Ready (granule 2 127 0 4 128) 0 .ctl r0 .cx
    ∧ ((granule 0 0 0 0 127).tile 0).ctl.rS 3 = 127 ∧ ((granule 0 0 0 0 128).tile 0).ctl.rS 3 = 128
    ∧ (granule 0 0 0 0 127).region 0 0 = some ⟨0x280000, false, 0, 0, 0, 0⟩
    ∧ (granule 0 127 0 0 0).region 0 0 = some ⟨0x280000, false, 0, 127, 0, 0⟩
    ∧ (granule 1 127 0 0 0).region 0 0 = some ⟨0x280000, false, 1, 127, 0, 0⟩
    ∧ (granule 1 127 5 0 0).region 0 0 = some ⟨0x280000, false, 1, 127, 5, 0⟩
    ∧ (granule 2 127 0 3 0).region 0 0 = some ⟨0x280000, false, 2, 127, 0, 3⟩
    ∧ (granule 2 127 0 4 0).region 0 0 = some ⟨0x280000, false, 2, 127, 0, 4⟩
    ∧ (granule 2 63 0 4 0).region 0 0 = some ⟨0x280000, false, 2, 63, 0, 4⟩
    ∧ ((granule 0 0 0 0 0).part 0).tiles = 128 ∧ ((granule 0 0 0 0 0).part 0).phys 127 / 64 = 1 ∧ ((granule 0 0 0 0 0).die 1).wm = 3
    ∧ ((granule 0 0 0 0 0).tile 0).seat.part = some 0 ∧ (granule 3 0 0 0 0).region 0 0 = some ⟨0x280000, false, 3, 0, 0, 0⟩
    ∧ (granule 0 0 0 0 0).hbm = [] ∧ ((granule 0 0 0 0 0).tile 0).ctl.rD 0 = 0 := by decide +kernel
theorem witness_granuleFree (st owner taker nrel : Nat) (rb : Word) (va : Nat) :
    ∀ a ∈ (granule st owner taker nrel rb).regionWords 0 va, (granule st owner taker nrel rb).addrHeld (Config.dieSite (0 / 64)) a = false :=
  fun _ _ => State.addrHeld_down rfl _ _
/-- The first address past virtual space, the last 4 GiB of it, which no entry covers; a table behind a port that trains; an entry
whose codeword is lost. -/
theorem witness_GranuleUnread :
    Ready (granule 0 0 0 0 0x100000) 0 .ctl r0 .cx ∧ (((granule 0 0 0 0 0x100000).tile 0).ctl.rD 2).toNat = 2 ^ 52
    ∧ (((granule 0 0 0 0 0xFFFFF).tile 0).ctl.rD 2).toNat = 2 ^ 52 - 2 ^ 32 ∧ (granule 0 0 0 0 0xFFFFF).region 0 (2 ^ 52 - 2 ^ 32) = none
    ∧ (let s : State := { granule 0 0 0 0 0 with
         parts := [(0, { State.part0 with v := true, bind := [0], rgn := 0x80000, nleaf := 1 })]
         links := [(16, { State.link0 with st := .training, portEn := true })] }
       Ready s 0 .ctl r0 .cx ∧ (s.tile 0).seat.part = some 0 ∧ (s.regionWords 0 0).head? = some 0x10000000000
       ∧ s.portOf 0x10000000000 = some 0 ∧ s.linkHolds (16 + 0) = true)
    ∧ (let s : State := { granule 0 0 0 0 0 with hbm := [(0x200000 / 32, true)] }
       Ready s 0 .ctl r0 .cx ∧ (s.regionWords 0 0).head? = some 0x200000 ∧ (0x200000 / 32, true) ∈ s.hbm) := by decide +kernel

/-- A copy of tile 0, in this state. -/
abbrev copyIn (st : CopySt) : Copy :=
  { id := 1, tile := 0, lt := 0, part := 0, eng := 2, head := 0, kind := .copy, ord := false, sem := sem0, off := 0, pay := 0, pasid := 0, rcd := []
    time := 0, due := 0, phase := 1, st := st, leftAt := 0, landAt := 0, retireAt := 0, pages := [], rd := [], wr := [], gran := []
    ats := false, atsOk := false, issued := 0 }

theorem witness_ControlWords :
    Ready (onTile .ctl (inPhase 1)) 0 .ctl r0 .cx ∧ (inPhase 1).seat.phase % 2 = 1
    ∧ Ready (onTile .ctl { t0 with pend := [aStore] }) 0 .ctl r0 .cx
    ∧ (let s : State := { onTile .ctl { t0 with seat := { State.seat0 with part := some 0 } } with
        parts := [(0, { State.part0 with bind := [1] })], dies := [(1, { State.die0 with rel := 4, wm := 3 })] }
       Ready s 0 .ctl r0 .cx ∧ (s.part 0).bind[0]? = some 1 ∧ (s.part 0).bind[1]? = none ∧ (s.die 1).wm < (s.die 1).rel)
    ∧ (let s : State := { onTile .ctl { t0 with seat := { State.seat0 with part := some 0 } } with
        parts := [(0, { State.part0 with bind := [1] })], dies := [(1, { State.die0 with rel := 3, wm := 3 })] }
       Ready s 0 .ctl r0 .cx ∧ (s.die 1).rel ≤ (s.die 1).wm) := by decide +kernel
theorem witness_copyPending :
    let s : State := { onTile .ctl t0 with copies := [copyIn .buffered] }
    let r : State := { onTile .ctl t0 with copies := [copyIn .landed] }
    Ready s 0 .ctl r0 .cx ∧ copyPending s 0 false ∧ ¬copyPending r 0 false ∧ copyPending r 0 true ∧ ¬copyPending (onTile .ctl t0) 0 true :=
  ⟨by decide +kernel, ⟨copyIn .buffered, List.mem_singleton.2 rfl, rfl, by decide, by decide, by decide⟩,
    by rintro ⟨c, h, -, -, -, k⟩; rw [List.mem_singleton.1 h] at k; exact absurd (k rfl) (by decide),
    ⟨copyIn .landed, List.mem_singleton.2 rfl, rfl, by decide, by decide, fun _ => rfl⟩, by rintro ⟨_, h, _⟩; cases h⟩

/-- No token, a full FIFO, neither, a false guard, tokens already taken; a word that may be guarded (ADD) and one that may not
(XFER); the end of the text after a GUARD. -/
theorem witness_GuardsAndTraps :
    t0.tokens .ctl ⟨true, false, false, false⟩ = false
    ∧ 8 ≤ ({ t0 with pvu := { State.pos0 with fp := List.replicate 8 0 } } : Tile).pvu.fp.length
    ∧ t0.tokens .ctl r0 = true ∧ t0.guardFalse .ctl = false ∧ t0.stop.frozen = false ∧ t0.ctl.guard = none ∧ t0.pctl.sigs = [] ∧ t0.pctl.done ≤ t0.cyc
    ∧ ({ t0 with ctl := { State.ctl0 with guard := some ⟨0, false⟩ } } : Tile).guardFalse .ctl = true
    ∧ ({ t0 with pctl := { State.pos0 with took := true } } : Tile).tokens .ctl ⟨true, true, false, true⟩ = true
    ∧ (let x (w : Word) : Tile := { t0 with store := { State.store0 with text := [(1, w)], textLen := 2 } }
       (x 0x00100000).store.textAt 1 = 0x00100000 ∧ (0x00100000 : Word).toNat / 2 ^ 20 % 2 ^ 6 = 1
       ∧ (x 0x01C00000).store.textAt 1 = 0x01C00000 ∧ (0x01C00000 : Word).toNat / 2 ^ 20 % 2 ^ 6 = 0x1C ∧ t0.store.textAt 1 = 0xFFFFFFFF
       ∧ State.fwcText f0 24576 = 0xFFFFFFFF) := by decide +kernel
theorem witness_Unguardable : Unguardable 0x01C00000 ∧ ¬Unguardable 0x00100000 ∧ Unguardable 0x40000000 ∧ Unguardable 0x03B00000
    ∧ ¬Unguardable 0x03B40000 := by
  refine ⟨?_, ?_, ?_, ?_, ?_⟩ <;> (unfold Unguardable; decide)
/-- Releases whose first covers nothing, and one that waits; the watermark passes the first. -/
theorem witness_WatermarkOrder : State.advance (fun id => id == 9) 3 [(4, []), (5, [9]), (6, [])] = (4, [(5, [9]), (6, [])]) := by decide

/-- The core of die 0 in a partition whose controller stands so. -/
def coreIn (st : PState) (f : Fwc) : State :=
  { onCore f with parts := [(0, { State.part0 with v := true, dies := 1, bind := [0], st := st })] }

theorem witness_SystemWords :
    FwcReady (onCore f0) 0 ∧ FwcReady (onCore { f0 with exc := true }) 0 ∧ FwcReady (onCore { f0 with latch := true }) 0
    ∧ (0x00 : BitVec 8) ≠ 0x52
    ∧ (let f := coreS [(3, 0x00100000), (4, 0xFFFFF000), (5, 0xFFF)]
       FwcReady (onCore f) 0 ∧ f.ctl.rD 2 = 0x00100000_00000000 ∧ 2 ^ 52 ≤ (f.ctl.rD 2).toNat ∧ (f.ctl.rD 4).toNat < 2 ^ 52
       ∧ (f.ctl.rD 4).toNat = 2 ^ 44 - 4096)
    ∧ FwcReady (coreIn .idle f0) 0 ∧ FwcReady (coreIn .open_ f0) 0 := by decide +kernel
/-- The first page, the last one, in which a context does not fit, an address off the pages; without a partition, at rest with no
tile frozen, OPEN; frozen in a compute phase; frozen in an exchange phase with every XP past its words; what a link holds. -/
theorem witness_DoorWords :
    ContextAt (onCore f0) 0x1000 1929216 ∧ ¬ContextAt (onCore f0) (2 ^ 44 - 4096) 1728512 ∧ ¬ContextAt (onCore f0) 0x1001 1728512
    ∧ Savable (onCore f0) 0 ∧ ¬Savable (coreIn .idle f0) 0 ∧ Restorable (onCore f0) 63 ∧ Restorable (coreIn .idle f0) 0
    ∧ ¬Restorable (coreIn .open_ f0) 0
    ∧ (let x : Tile := { t0 with stop := { State.stop0 with frozen := true } }
       Savable { coreIn .held f0 with tiles := [(0, x)] } 0)
    ∧ (let x : Tile := { inPhase 1 with stop := { State.stop0 with frozen := true } }
       let y : Tile := { t0 with pxp := { State.pos0 with arrived := true } }
       Savable { coreIn .held f0 with tiles := (0, x) :: (List.range 63).map fun k => (k + 1, y) } 0)
    ∧ (∀ pa, (onCore f0).addrHeld (Config.dieSite 0) pa = false)
    ∧ (let s : State := { onCore f0 with links := [(16, { State.link0 with st := .training, portEn := true })] }
       s.addrHeld (Config.dieSite 0) (0x10000000000 + 0x192004) = true ∧ ContextAt s 0x10000000000 1728512)
    ∧ ((onCore f0).physNum (0x1000 + 0x192004) 4).testBit 0 = false
    ∧ (({ onCore f0 with mem := Mem.write [] (0x1000 + 0x192004) [1] } : State).physNum (0x1000 + 0x192004) 4).testBit 0 = true := by
  have rest (p) (h : (coreIn .idle f0).partOfDie 0 = some p) : p = 0 := by
    have : (coreIn .idle f0).partOfDie 0 = some 0 := by decide +kernel
    rw [this] at h; exact (Option.some.inj h).symm
  refine ⟨by unfold ContextAt; decide +kernel, by unfold ContextAt; decide +kernel, by unfold ContextAt; decide +kernel,
    .inl (by decide +kernel), ?_, fun p h => ?_, fun p h => ?_, fun h => ?_, ?_, ?_, fun _ => State.addrHeld_down rfl _ _, ⟨?_, ?_⟩,
    by decide +kernel, by decide +kernel⟩
  · rintro (h | ⟨p, h, k⟩)
    · exact absurd h (by decide +kernel)
    · rw [rest p h] at k
      revert k
      decide +kernel
  · exact absurd h (by rw [show (onCore f0).partOfDie (63 / 64) = none by decide +kernel]; simp)
  · rw [rest p h]; decide +kernel
  · exact absurd (h 0 (by decide +kernel)) (by decide +kernel)
  · exact .inr ⟨0, by decide +kernel, .inl (by decide +kernel)⟩
  · exact .inr ⟨0, by decide +kernel, .inr (.inl (by decide +kernel))⟩
  · exact port_holds _ (by decide +kernel : _ = some 0) (by decide +kernel)
  · unfold ContextAt; decide +kernel
/-- Descriptors at the edges of their fields: an HBM target without a word, the last word of a register space and the first past
it, a kind and a space that do not exist. -/
theorem witness_GoodInjection :
    GoodInjection 0 ∧ ¬GoodInjection 0x100000 ∧ GoodInjection 0x602000000000003F ∧ ¬GoodInjection 0x6000000000000040
    ∧ GoodInjection 0x0000000000001FFF ∧ ¬GoodInjection 0x1800000000000000 ∧ ¬GoodInjection 0x0500000000000000
    ∧ ¬GoodInjection 0x00A0000000000000 := by
  refine ⟨?_, ?_, ?_, ?_, ?_, ?_, ?_, ?_⟩ <;> (unfold GoodInjection; decide +kernel)
theorem witness_assigned : assigned 0x00 ∧ assigned 0x06 ∧ assigned 0x89 ∧ ¬assigned 0x07 ∧ ¬assigned 0x8A ∧ ¬assigned 0xFF := by
  refine ⟨?_, ?_, ?_, ?_, ?_, ?_⟩ <;> (unfold assigned; decide)
/-- A tile whose word is of no opcode (3F of tag 0). -/
abbrev tBad : Tile := { t0 with store := { State.store0 with text := [(0, 0x03F00000)], textLen := 1 } }
theorem witness_WordsNobodyRuns :
    Ready (onTile .ctl tBad) 0 .ctl (Ring.ofWord (onTile .ctl tBad).word) .cx
    ∧ Ready (onTile .vu tBad) 0 .vu (Ring.ofWord (onTile .vu tBad).word) .cx
    ∧ Ready (onTile .tda tBad) 0 .tda (Ring.ofWord (onTile .tda tBad).word) .cx
    ∧ Ready (onTile .xp tBad) 0 .xp (Ring.ofWord (onTile .xp tBad).word) .cx
    ∧ (onTile .tsq tBad).cur = .eng 0 .tsq ∧ (onCore f0).cur = .fwc 0 ∧ Ready (onTile .ctl t0) 0 .ctl r0 .cx
    ∧ tBad.tokens .ctl (Ring.ofWord 0x23F00000) = false ∧ (0x83C00000 : Word).toNat / 2 ^ 20 % 2 ^ 6 = 0x3C
    ∧ (0x80300000 : Word).toNat / 2 ^ 20 % 2 ^ 6 = 3 := by decide +kernel
/-- 15 entries of the command queue taken, and all 16. -/
theorem witness_queueFull : ∀ c : TCmd, let x (n : Nat) : Tile := { t0 with tda := { State.tda0 with queue := List.replicate n c } }
    (x 15).tda.queue.length + (x 15).tda.runs.length < 16 ∧ 16 ≤ (x 16).tda.queue.length + (x 16).tda.runs.length := by
  intro c x
  exact ⟨by simp [x, State.tda0], by simp [x]⟩

theorem witness_RegisterReads :
    (∃ d : Nat, d < 8) ∧ t0.stop.report = none
    ∧ ({ t0 with stop := { State.stop0 with report := some ⟨1, 2, 3, 4⟩ } } : Tile).stop.report = some ⟨1, 2, 3, 4⟩
    ∧ State.die0.logRd < 512 ∧ State.die0.logWr < 512 ∧ State.die0.lost < 65536
    ∧ (0x33 : BitVec 7).toNat / 16 % 8 = (0x33 : BitVec 7).toNat % 8 ∧ (0x70 : BitVec 7).toNat / 16 % 8 ≠ (0x70 : BitVec 7).toNat % 8 :=
  ⟨⟨7, by decide⟩, by decide +kernel⟩
/-- LSEL's link numbers at the edges: the last mesh link, the first unassigned, the ports, the last number. -/
theorem witness_LinkReads : (∀ k ∈ [12, 15, 24, 31], 12 ≤ k ∧ k < 16 ∨ 24 ≤ k) ∧ (∀ k ∈ [0, 11, 16, 23], k < 12 ∨ 16 ≤ k ∧ k < 24)
    ∧ (31 : Nat) < 32 ∧ 3 < 4 ∧ 67 < 68 ∧ ¬(127 : Nat) < 68 := by decide

/-- Registers at the edge of what their doors take: a pair of a die and itself, a cap equal to the commitments and one below, a
log 256 entries long and 257, a free context and a live one. -/
theorem witness_RegisterWrites :
    (let x : Die := { State.die0 with dpsel := 0x01, logWr := 256 }
     x.dpsel.extractLsb' 4 3 ≠ x.dpsel.setWidth 3 ∧ (x.logWr + 512 - 0) % 512 ≤ 256
     ∧ 256 < (({ x with logWr := 257 } : Die).logWr + 512 - 0) % 512 ∧ x.logRd < 512)
    ∧ (let s := { coreIn .open_ f0 with parts := [(0, { State.part0 with v := true, st := .open_, dies := 1, commit := 7 })] }
       s.commitments = 7 ∧ s.dieActive 0 = true ∧ s.dieActive 1 = false)
    ∧ (let s := { onCore f0 with ctxs := [(0, ⟨true, 5, 0⟩)] }
       (s.ctx 0).v = true ∧ (s.ctx 1).v = false ∧ s.dies.all (fun e => e.2.tlu.isEmpty) = true
       ∧ State.hbmTop < 0x10000 * 0xFFFFFFF + 0x10000 ∧ 0x10000 * 0xFFFFFF + 0x10000 = State.hbmTop)
    ∧ (let s := { onCore f0 with ctxs := [(1, ⟨true, 5, 0⟩)] }
       let v : DWord := 0x8001000000000080
       let q1 : Part := { State.part0 with v := true, ctx := 1, dies := 0x80 }
       State.diesOk (v.setWidth 8) = true ∧ (s.ctx 1).v = true ∧ (s.part 0).v = false ∧ s.tablesOk 0 q1 = true
       ∧ State.diesOk 3 = true ∧ State.diesOk 7 = false ∧ (s.ctx 2).v = false
       ∧ (∃ e ∈ ({ s with parts := [(0, q1)] } : State).parts, e.1 ≠ 7 ∧ e.2.v = true ∧ e.2.ctx = 1)
       ∧ (4096 : DWord).toNat % 8192 ≤ 4096 ∧ 4096 < (4097 : DWord).toNat % 8192 ∧ s.tableOk 0 0 0x1000000 = true
       ∧ s.tableOk 0 0 (0x80000 + 0x40000 * 4096) = true ∧ (v.setWidth 8).getLsbD 0 = false ∧ s.dieActive 7 = false)
    ∧ linkExists 11 = true ∧ linkExists 23 = true ∧ linkExists 12 = false ∧ linkExists 24 = false
    ∧ Link.reqRefused { State.link0 with st := .active } false false false = false
    ∧ Link.reqRefused { State.link0 with st := .active } false true false = true := by decide +kernel
theorem witness_someActive : someActive (coreIn .open_ f0) ∧ ¬someActive (onCore f0) :=
  ⟨⟨(0, { State.part0 with v := true, dies := 1, bind := [0], st := .open_ }), List.mem_singleton.2 rfl, rfl, rfl⟩,
    fun ⟨_, h, _⟩ => by cases h⟩
/-- `free` in ConfigurationWrites: no die wrote this tick; the die that wrote in it; another did. -/
theorem witness_cfgAt : State.pkg0.cfgAt = none ∧ (∀ n e, some (0, 0) = some (n, e) → n = 0 → e = 0)
    ∧ ¬(∀ n e, some (0, 1) = some (n, e) → n = 0 → e = 0) :=
  ⟨rfl, fun n e h _ => by cases h; rfl, fun h => by cases h 0 1 rfl rfl⟩

/-! ### The vector unit -/

/-- A tile whose view 1 is an accumulator view of pitch 64 bytes and of this extent, in units of 256 bytes. -/
abbrev accTile (etype extent : Nat) : Tile :=
  { t0 with vw := [(1, BitVec.ofNat 64 (etype * 2 ^ 56 + 2 * 2 ^ 54 + extent * 2 ^ 30 + 1 * 2 ^ 18))] }
/-- Debug mode, and a word at 0x40 of register space not yet written. -/
abbrev debugTile : Tile :=
  { t0 with stop := { State.stop0 with pbm := true }, pend := [⟨2, 0, .vu, 0, .bytes .reg [(0x40, [1])]⟩] }

/-- Fifteen rows of pitch 64 and a row of 256: 1,216 bytes fit in an extent of 1,280 and not in one of 1,024. -/
theorem witness_VectorWords :
    (vuRow (.vadd r0 .s32 (.main 1 0) o0 (.const 4) m0)).isSome = true
    ∧ Ready (onTile .vu (accTile 0 5)) 0 .vu r0 .c ∧ Clean (onTile .vu (accTile 0 5)) 0 [.main 1 0, o0, .const 4]
    ∧ Ready (onTile .vu (accTile 0 4)) 0 .vu r0 .c ∧ shapeBad (accTile 0 4) [.main 1 0, o0, .const 4] = true
    ∧ Ready (onTile .vu debugTile) 0 .vu r0 .c ∧ shapeBad debugTile [o0, o0, .const 4] = false
    ∧ debugHit debugTile [(.ofile 1, 4096), (.main 0 0, 64)] = none ∧ debugHit debugTile [(.main 0 0, 65)] = some 16
    ∧ debugHit { debugTile with pend := [⟨2, 0, .vu, 0, .bytes .reg [(0x3C, [1])]⟩] } [(.main 0 0, 64)] = some 15 := by
  decide +kernel

/-- One inverted bit, which the code of a 32-bit word corrects, and two, which it does not; the words around them. -/
theorem witness_CodedReads :
    let x : Tile := { t0 with store := { State.store0 with ecc := [⟨.scr, 3, 1⟩, ⟨.scr, 5, 3⟩, ⟨.reg, 16, 3⟩] } }
    let s := onTile .vu x
    let hit (a b : Nat) (m : EccMark) : Bool := m.sp == .scr && decide (a ≤ m.word) && decide (m.word ≤ b)
    (s.die (0 / 64)).inj = [] ∧ (∃ m ∈ x.store.ecc, hit 3 5 m = true ∧ m.lost = true) ∧ (∀ m ∈ x.store.ecc, hit 0 4 m = true → m.lost = false)
    ∧ x.store.wiped = [] ∧ (s.touchOpnds 0 .vu [(.main 0 0, 4096)]).2 = some 64 ∧ Ready s 0 .vu r0 .c ∧ shapeBad x [.main 0 0] = false
    ∧ debugHit x [(.main 0 0, 4096)] = none := by decide +kernel

theorem witness_IntegerElements :
    intForm .s4x8 = some (4, 4, true) ∧ 15 < 2 ^ 4 ∧ intForm .z32 = some (32, 32, false) ∧ 0xFFFFFFFF < 2 ^ 32
    ∧ intForm .x48 = some (48, 64, true) ∧ 0xFFFFFFFFFFFFFFFF < 2 ^ 64 ∧ intForm .z8x4 = some (8, 8, false)
    ∧ 8191 < count .s4x8 ∧ 1023 < count .s32 ∧ (15 : Nat) < 2 ^ stepOf .s4x8 := by decide +kernel
/-- The largest finite code, the infinity and the next one, a NaN, of a format with infinities; the top of one without; both zeros; a
mode that keeps exact values; the types of each kind; the first and the last line, sub-element and part. -/
theorem witness_FloatElements :
    floatType .f32 = some .f32 ∧ floatType .e4m3x4 = some .e4m3 ∧ floatType .e2m1 = some .e2m1 ∧ floatType .s32 = none
    ∧ IsFinite .f32 0x7F7FFFFF ∧ IsInfinite .f32 0x7F800000 ∧ ¬IsFinite .f32 0x7F800000 ∧ IsNaN .f32 0x7F800001 ∧ IsNaN .f32 0xFFFFFFFF
    ∧ 0xFFFFFFFF < 2 ^ FFmt.f32.par.width ∧ IsFinite .e4m3 0x7E ∧ IsNaN .e4m3 0x7F ∧ (∀ c, c < 16 → IsFinite .e2m1 c)
    ∧ signBit .f32 0x80000000 = true ∧ signBit .f32 0x7FFFFFFF = false ∧ KeepsExact .rne
    ∧ (Arith.add = .add ∧ false = false) ∧ (Arith.sub = .sub ∧ true = true)
    ∧ 255 < 2 ^ stepOf .e8m0 ∧ (0xFF800000 : Nat) < 2 ^ 32 := by decide +kernel
theorem witness_zeros : codeValue .f32 0 = 0 ∧ codeValue .f32 0x80000000 = 0 ∧ codeValue .f32 0x3F800000 = 1 ∧ codeValue .f32 1 ≠ 0 := by
  decide +kernel
theorem witness_LanePlaces :
    15 < 16 ∧ 63 < 64 ∧ 16 * 3 < rowLen .f32 ∧ 16 * 7 < rowLen .f16x2 ∧ EType.f32 ≠ .x48 ∧ rowLen .f32 = 64 ∧ 127 < rowLen .f16x2 ∧ 7 < 8
    ∧ 4095 < 4096 ∧ 8191 < 8192 ∧ count .s4x8 = 8192 ∧ (floatType .bf16x2).isSome = true ∧ (intForm .x48).isSome = true ∧ EType.bf16x2 ≠ .e2m1
    ∧ 64 * 7 < rowLen (blockForm .s4x8).1 ∧ 64 * 3 < rowLen (blockForm .e2m3).1 ∧ 1 < 2 := by decide +kernel
theorem witness_VectorArrival : Ready (onTile .vu (inPhase 1)) 0 .vu r0 .cx ∧ Ready (onTile .vu t0) 0 .vu r0 .cx := by decide +kernel
theorem witness_maskedElement : ∀ k : Nat, (((fun _ => (15, 0)) : Nat → Nat × VFlags) k).1 < 2 ^ stepOf .s4x8 :=
  fun _ => by show (15 : Nat) < _; decide

/-- The last row that lies in local space and the first that does not, as first and as second row; a decoder block that is
ready and one that is ready a cycle later. -/
theorem witness_VectorMemoryWords :
    (let x (a : Word) : Tile := { t0 with pvu := { State.pos0 with fp := [a] } }
     Ready (onTile .vu (x 0xFFF00)) 0 .vu r0 .c ∧ Clean (onTile .vu (x 0xFFF00)) 0 [o0, .ring, .ring]
     ∧ (x 0xFFF00).opnd .ring 4 % 2 ^ 32 = 0xFFF00 ∧ (x 0xFFF01).opnd .ring 4 % 2 ^ 32 + 256 = 0x100001
     ∧ (x 0x80000).opnd .ring 4 % 2 ^ 32 = 0x80000 ∧ 0x100000 < 0x80000 + 1 * 0x80000 + 256 ∧ 0x80000 + 256 ≤ 0x100000
     ∧ ((onTile .vu (x 0xFFF00)).readRanges 0 .vu [(0xFFF00, 256)]).toOption.isSome = true)
    ∧ (let x (due : Nat) : Tile := { t0 with sync := { State.sync0 with dcf := [⟨[], due⟩] } }
       Ready (onTile .vu (x 0)) 0 .vu r0 .c ∧ Ready (onTile .vu (x 1)) 0 .vu r0 .c ∧ Clean (onTile .vu (x 0)) 0 [o0]
       ∧ (∀ e ∈ (x 0).sync.dcf.take 1, e.due ≤ (x 0).cyc) ∧ (∃ e ∈ (x 1).sync.dcf.take 1, (x 1).cyc < e.due)
       ∧ (x 0).sync.dcf.length < 2) := by decide +kernel

theorem witness_VectorStateWords :
    (let x (n : Nat) : Tile := { t0 with vu := { State.vu0 with masks := List.replicate n 0 } }
     Ready (onTile .vu (x 15)) 0 .vu r0 .c ∧ Clean (onTile .vu (x 15)) 0 [o0, .ofile 3] ∧ (x 15).vu.masks.length < 16
     ∧ shapeBad (x 16) [o0] = false ∧ 16 ≤ (x 16).vu.masks.length ∧ (x 1).vu.masks ≠ [] ∧ (x 0).vu.masks = []
     ∧ Ready (onTile .vu (x 16)) 0 .vu r0 .c ∧ Ready (onTile .vu (x 0)) 0 .vu r0 .c) := by decide +kernel
theorem witness_vqmxOperand : (∀ l, Opnd.ofile 3 ≠ .latch l) ∧ (∀ k, Opnd.ofile 3 ≠ .const k) ∧ Opnd.ofile 3 ≠ .ring :=
  ⟨fun _ => nofun, fun _ => nofun, nofun⟩

/-! ### The array -/

/-- A command of the queue. -/
abbrev aCmd (op : TOp) : TCmd := ⟨1, 0, 0, 0, op, sem0⟩
/-- A tile whose queue holds this many commands. -/
abbrev queued (n : Nat) (x : Tile) : Tile :=
  { x with tda := { x.tda with queue := List.replicate n (aCmd (.ldb 0 1 false .s8)) } }
/-- A tile whose slot 0 was last loaded with this kind of plane. -/
abbrev viewed (wide : Bool) (x : Tile) : Tile := { x with tda := { x.tda with view := [(0, some ⟨.s8, wide⟩)] } }

/-- 15 and 16 commands; 16 rows of 16 f32 columns end at byte 1,024 of the view, at 1,028 with checksums; a view of 768
bytes, one of x48 elements, a plane loaded as another kind. -/
theorem witness_ArrayCommands :
    (QueueRoom (queued 15 t0) ∧ ¬QueueRoom (queued 16 t0) ∧ Ready (onTile .tda (queued 16 t0)) 0 .tda r0 .c)
    ∧ (let x := viewed false (accTile 0 4)
       Ready (onTile .tda x) 0 .tda r0 .c ∧ QueueRoom x ∧ (x.view 1).shape = 2 ∧ (x.view 1).etype = 0
       ∧ (accTile 0 3).view 1 = { (x.view 1) with extent := 768 } ∧ ((accTile 0xE 4).view 1).etype = 0xE ∧ (t0.view 1).shape ≠ 2
       ∧ ((accTile 1 4).view 1).etype ≠ 0 ∧ ((accTile 1 4).view 1).etype ≠ 0xE ∧ MSize.rows .m16 = 16)
    ∧ (raceOf (.raceMin r0 (.ofile 0) (.ofile 1) 15 .z32 true sem0)).isSome = true
    ∧ Clean (onTile .tda t0) 0 [.ofile 0, .ofile 1] ∧ Ready (onTile .tda t0) 0 .tda r0 .c ∧ QueueRoom t0
    ∧ shapeBad (accTile 0 4) [.main 1 0, .ofile 1] = true := by decide +kernel
theorem witness_accFits : accFits ((accTile 0 4).view 1) 0 4 16 16 false ∧ ¬accFits ((accTile 0 4).view 1) 0 4 16 16 true
    ∧ ¬accFits ((accTile 0 3).view 1) 0 4 16 16 false := by
  refine ⟨?_, ?_, ?_⟩ <;> (unfold accFits; decide +kernel)
theorem witness_views : (∀ k, 64 * k < 16 → (viewed false t0).tda.view.get none k = some ⟨.s8, false⟩)
    ∧ ¬(∀ k, 64 * k < 16 → (viewed false t0).tda.view.get none k = some ⟨.s8, true⟩) :=
  ⟨fun k h => by have : k = 0 := by omega
                 subst this; rfl, fun h => by cases h 0 (by decide)⟩

theorem witness_RaceOrder : (List.replicate 64 0).length = 64 ∧ (∀ v ∈ List.replicate 64 0xFFFFFFFF, v < 2 ^ 32) ∧ 1 ≤ 64 ∧ 64 ≤ 64 ∧ 1 ≤ 1 := by
  decide +kernel

/-- A quiet array and a busy one, a margin, a wait that is met and one that is not. -/
theorem witness_ArrayDirectWords :
    Ready (onTile .tda t0) 0 .tda r0 .c ∧ ArrayQuiet t0 ∧ waitMet t0 sem0 ∧ shapeBad t0 [o0] = false ∧ t0.tda.mmap = 0
    ∧ (let x : Tile := { t0 with tda := { State.tda0 with mmap := 1 } }
       Ready (onTile .tda x) 0 .tda r0 .c ∧ ArrayQuiet x ∧ waitMet x sem0 ∧ x.tda.mmap ≠ 0)
    ∧ Ready (onTile .tda (inPhase 1)) 0 .tda r0 .x ∧ ArrayQuiet (inPhase 1) ∧ waitMet (inPhase 1) sem0
    ∧ Ready (onTile .tda (queued 1 (inPhase 1))) 0 .tda r0 .x ∧ ¬ArrayQuiet (queued 1 (inPhase 1))
    ∧ Ready (onTile .tda (queued 1 t0)) 0 .tda r0 .c ∧ ¬ArrayQuiet (queued 1 t0) ∧ Ready (onTile .tda t0) 0 .tda r0 .cx
    ∧ waitMet { t0 with sync := { State.sync0 with sem := [(2, 1)] } } ⟨true, 2, false, 0⟩ := by decide +kernel

/-- A run of a command. -/
abbrev aRun (op : TOp) : TRun := ⟨aCmd op, 0, 10, 0, 0, [], false, false, 0⟩
/-- A tile at cycle 10 whose array runs this command. -/
abbrev running (r : TRun) : Tile := { t0 with cyc := 10, tda := { State.tda0 with runs := [r], ofb := [⟨[], 64, 10⟩] } }
/-- A tile at cycle 10 whose queue holds this command, with an entry ready in each operand FIFO. -/
abbrev heading (op : TOp) : Tile :=
  { t0 with cyc := 10, tda := { State.tda0 with queue := [aCmd op], ofa := [⟨[], 16, 10⟩], ofb := [⟨[], 64, 10⟩] } }
theorem witness_startable (op : TOp) : startable (heading op) (aCmd op) [] :=
  ⟨rfl, (nofun : sem0.we = true → _), (by decide : 0 < 10), (by decide : t0.tda.lastStart < 10), (by decide : t0.tda.occEnd ≤ 10)⟩
theorem witness_soundArray (op : TOp) : soundArray (onTile .tda (heading op)) 0 ∧ (∀ r ∈ (heading op).tda.runs, TOp.isLdb r.cmd.op = false)
    ∧ (heading op).tda.seen = [] ∧ (heading op).tda.justAt ≠ (heading op).cyc :=
  ⟨⟨rfl, rfl, rfl, rfl⟩, (by decide : ∀ r ∈ t0.tda.runs, TOp.isLdb r.cmd.op = false), rfl, (by decide : t0.tda.justAt ≠ 10)⟩
theorem witness_ArrayEvents :
    (let x : Tile := { queued 1 t0 with cyc := 1 }
     (x.tda.queue.head?.map (·.pushed)) = some 0 ∧ 0 < x.cyc ∧ x.tda.lastStart < x.cyc ∧ x.tda.occEnd ≤ x.cyc ∧ t0.tda.queue = [])
    ∧ (aCmd (.zero 0 64 4 16 16 false)).op = .zero 0 64 4 16 16 false ∧ t0.cyc ≤ (aCmd (.zero 0 64 4 16 16 false)).pushed
    ∧ (heading (.mac false 0 64 16 16 .s8 false)).tda.ofa = [⟨[], 16, 10⟩] ∧ (heading (.ldb 0 1 false .s8)).tda.ofb = [⟨[], 64, 10⟩]
    ∧ (t0.sync.sem.get 0#16 0 = 0 ∧ ({ aCmd (.race [] [] 8) with sem := ⟨true, 0, false, 0⟩ } : TCmd).sem.we = true)
    ∧ (List.range 64).length + (([] : List TRun).map fun r => r.push.length).sum + t0.sync.fqa.length ≤ 64
    ∧ (running (aRun (.ldb 0 1 false .s8))).tda.runs = [aRun (.ldb 0 1 false .s8)]
    ∧ (aRun (.ldb 0 1 false .s8)).latched < 1 ∧ (aRun (.ldb 0 1 false .s8)).lastLatch + 8 ≤ 10
    ∧ (running (aRun (.ldb 0 1 false .s8))).tda.ofb = [⟨[], 64, 10⟩]
    ∧ (running (aRun (.race [] [] 8))).tda.runs = [aRun (.race [] [] 8)] ∧ (aRun (.race [] [] 8)).retire ≤ 10
    ∧ (running (aRun (.race [] [] 8))).tda.direct = none ∧ (aRun (.race [] [] 8)).cmd.sem.se = false
    ∧ ({ State.tda0 with direct := some ⟨0, .flag, ⟨false, 0, false, 0⟩⟩ } : Tda).runs = [] := by decide +kernel
/-- An entry of 16 int8 rows with scales and a plane of 64, and one byte less; a command pushed in this cycle, one whose semaphore
is zero; a TLDB with all its planes and one that waits for the next; a direct word before its end and at it. -/
theorem witness_CommandEnds :
    16 * rowBytes .s8 + 16 * blockTerms .s8 ≤ (List.replicate 1056 (0 : Byte)).length
    ∧ 64 * rowBytes .s8 + 64 * blockTerms .s8 ≤ (List.replicate 4224 (0 : Byte)).length
    ∧ ¬16 * rowBytes .s8 + 16 * blockTerms .s8 ≤ (List.replicate 1055 (0 : Byte)).length
    ∧ (let x := queued 1 t0; (x.tda.queue.head?.map fun c => decide (x.cyc ≤ c.pushed)) = some true)
    ∧ ¬waitMet t0 ⟨true, 0, false, 0⟩
    ∧ (let x := running (aRun (.ldb 0 1 false .s8)); headWhole x.tda.ofb x.cyc = true)
    ∧ (let r : TRun := { aRun (.ldb 0 1 false .s8) with latched := 1 }; 1 ≤ r.latched ∧ r.retire ≤ 10)
    ∧ (let x (n : Nat) : Tile := { t0 with cyc := 300, tda := { State.tda0 with direct := some ⟨n, .cal 63, ⟨false, 0, true, 1⟩⟩ } }
       (x 300).tda.direct = some ⟨300, .cal 63, ⟨false, 0, true, 1⟩⟩ ∧ (x 300).cyc < 301 ∧ 300 ≤ (x 300).cyc ∧ ∀ r ∈ (x 300).tda.runs, (x 300).cyc < r.retire)
    ∧ 255 < 256 := by decide +kernel
theorem witness_notLdb : ∀ a b c d, (aRun (.race [] [] 8)).cmd.op ≠ .ldb a b c d := fun _ _ _ _ => nofun

theorem witness_ArrayProducts :
    (-(2 ^ 47) : Int) ≤ -(2 ^ 47) ∧ (-(2 ^ 47) : Int) < 2 ^ 47 ∧ (2 ^ 47 - 1 : Int) < 2 ^ 47 ∧ 0x7F800001 < 2 ^ 32
    ∧ 0x7F800001 % 2 ^ 31 > 0x7F800000 ∧ 0xFF800000 % 2 ^ 31 = 0x7F800000 ∧ 0x80000000 % 2 ^ 31 = 0 ∧ 0xFF800000 < 2 ^ 32
    ∧ (∀ x ∈ ([] : List Dy), x.v = 0) := ⟨by decide, by decide, by decide, by decide, by decide, by decide, by decide, by decide, nofun⟩

/-! ### The exchange port -/

/-- A record that copies one word from the tile's own scratchpad at 0x100 to `dst`, with this writer and generation. -/
def aRec (dst writer gen : Nat) : List Byte :=
  leBytes 8 (2 ^ 62 + 2 ^ 61 + 0x100) ++ leBytes 8 dst ++ leBytes 16 0 ++ [2, 1, 0, 0] ++ leBytes 8 0 ++ leBytes 2 writer ++ leBytes 2 gen
    ++ leBytes 16 0 ++ leBytes 4 1 ++ List.replicate 188 0
/-- Tile 0 of a partition of one die, with this record in slot 1 of its table, a page of virtual space in the die's TLU and an
SC granule. -/
def portS (x : Tile) (r : List Byte) : State :=
  { onTile .xp { x with seat := { x.seat with part := some 0 } } with
    parts := [(0, { State.part0 with v := true, bind := [0], rgn := 1, nleaf := 1, rcd := 2 })]
    dies := [(0, { State.die0 with tlu := [⟨1, 0, 0, 0x10000, 0x2000000, true, true, true⟩] })]
    mem := Mem.write (Mem.write [(0x200007, 0x80)] 0x280000 (leBytes 8 (2 ^ 63 + 2 ^ 62))) 0x400100 r }
/-- The record to the scratchpad of tile 1. -/
abbrev toTile1 : List Byte := aRec (2 ^ 62 + 2 ^ 52 + 0x200) 0 1

/-- A live handle and dead ones (0, another generation), the tile as writer and another; a source in the partition and the
first one outside; a count that agrees and one that does not; compute and exchange phase. -/
theorem witness_ExchangeWords :
    (let s := portS t0 toTile1
     Ready s 0 .xp r0 .cx ∧ Ready s 0 .xp r0 .c ∧ (s.tile 0).seat.part = some 0 ∧ (s.part 0).tiles = 64
     ∧ s.record 0 1 0 = toTile1 ∧ (s.tile 0).xp.count = 0)
    ∧ liveHandle toTile1 1 ∧ ¬liveHandle toTile1 2 ∧ ¬liveHandle toTile1 0 ∧ Record.writer toTile1 = 0
    ∧ liveHandle (aRec 0 63 1) 1 ∧ Record.writer (aRec 0 63 1) = 63 ∧ Record.valid toTile1 64 = true
    ∧ ((Record.sdesc toTile1).addr : Int) = 0x100 ∧ (Record.valid (recPut toTile1 0x2C 4 (recNum toTile1 0x2C 4)) 64 = true)
    ∧ Ready (portS (inPhase 1) toTile1) 0 .xp r0 .cx ∧ (portS t0 toTile1).hbm = [] := by decide +kernel
theorem witness_recordsFree (x : Tile) (r : List Byte) (ks : List Nat) (rs : List (Nat × Nat)) :
    RecordsFree (portS x r) 0 0 ks ∧ RegionsFree (portS x r) 0 0 rs :=
  ⟨fun _ _ => State.addrHeld_down rfl _ _, fun _ _ _ _ => State.addrHeld_down rfl _ _⟩
/-- The record table behind a port that trains; a record whose second codeword is lost. -/
theorem witness_RecordsUnread :
    (let s : State := { portS t0 toTile1 with
       parts := [(0, { State.part0 with v := true, bind := [0], rgn := 1, nleaf := 1, rcd := 0x80000 })]
       links := [(16, { State.link0 with st := .training, portEn := true })] }
     Ready s 0 .xp r0 .cx ∧ (s.tile 0).seat.part = some 0 ∧ ¬RecordsFree s 0 0 [1])
    ∧ (let s : State := { portS t0 toTile1 with hbm := [(0x400120 / 32, true)] }
       Ready s 0 .xp r0 .cx ∧ [1].head? = some 1 ∧ (0x400120 / 32, true) ∈ s.hbm ∧ s.recordAt 0 1 ≤ 32 * (0x400120 / 32)
       ∧ 32 * (0x400120 / 32) < s.recordAt 0 1 + 256) := by
  refine ⟨⟨by decide +kernel, rfl, fun h => ?_⟩, by decide +kernel⟩
  have := h 1 (.head _)
  rw [port_holds _ (by decide +kernel : _ = some 0) (by decide +kernel)] at this
  exact absurd this (by decide)

theorem of_toOption {ε α : Type} {e : Except ε α} {a : α} (h : e.toOption = some a) : e = .ok a := by
  cases e <;> simp_all [Except.toOption]
/-- A copy word of this slot and generation; one of XFLAG's. -/
abbrev aCopy (hg : BitVec 16) : CopyF := ⟨0, false, false, 5, sem0, 1, hg⟩
abbrev aFlag (hg : BitVec 16) : FlagF := ⟨0, false, 0, 5, sem0, 1, hg⟩
/-- The footprint of the record's copy: both sides in scratchpads, so that no page needs translation. -/
abbrev aFoot : Sides := ⟨[⟨some 0, [(0x100, 4)]⟩], [⟨some 1, [(0x200, 4)]⟩]⟩
theorem witness_copyChecked : copyChecked (portS t0 toTile1) 0 0 (aCopy 1) .copy aFoot :=
  ⟨rfl, (witness_recordsFree _ _ _ []).1, (witness_recordsFree _ _ [] _).2, by decide +kernel, by decide +kernel, .inl rfl, by decide +kernel,
    fun _ h _ k => by cases List.mem_singleton.1 h; cases k; rfl, by decide +kernel, by decide +kernel, by decide +kernel⟩
theorem witness_translated (s : State) (t p : Nat) : pagesOf (virtualRuns aFoot.rd) (virtualRuns aFoot.wr) = [] ∧ translated s t p [] :=
  ⟨by decide, rfl, s, [], rfl, .inl rfl⟩
/-- An engine with three commands of the tile and with four; a sealed phase. -/
theorem witness_engineTakes :
    (let s (n : Nat) (x : Tile) : State := { portS x toTile1 with copies := List.replicate n (copyIn .buffered) }
     engineTakes (s 3 t0) 0 2 ∧ ¬engineTakes (s 4 (inPhase 1)) 0 2 ∧ engineTakes (s 4 t0) 0 3
     ∧ ¬engineTakes (s 0 { t0 with xp := { State.xp0 with sealed := true } }) 0 2) := by
  refine ⟨?_, ?_, ?_, ?_⟩ <;> (unfold engineTakes; decide +kernel)
/-- What stops a copy word, in the order of the rules: a dead handle; a record of a tile outside the partition, not valid; a record
that ECC cannot correct; a footprint out of the partition, a source in another scratchpad, ranges past local space, of another
owner, past virtual space. -/
theorem witness_CopyWordStops :
    ¬liveHandle toTile1 2 ∧ Record.valid (aRec 0 64 1) 64 = false ∧ liveHandle (aRec 0 64 1) 1
    ∧ (let s := { portS t0 toTile1 with hbm := [(0x400100 / 32, true)] }
       (s.touchHbm (s.recordAt 0 1) 256).2 = some 0x400100)
    ∧ (footprint ⟨0, 0, 0, (portS t0 toTile1).part 0⟩ .copy (aRec (2 ^ 62 + 64 * 2 ^ 52 + 0x200) 0 1)).toOption = none
    ∧ scratchOut [⟨some 0, [(0xFFFFC, 4)]⟩] = none ∧ scratchOut [⟨some 0, [(0xFFFFD, 4)]⟩] = some 0x100000
    ∧ ownedBy (granule 0 1 0 0 0) 0 0 [(0, 4)] = some 0 ∧ ownedBy (granule 0 0 0 0 0) 0 0 [(0, 4)] = none
    ∧ virtualOut [⟨none, [((2 ^ 52 - 4 : Nat), 4)]⟩] = none ∧ virtualOut [⟨none, [((2 ^ 52 - 3 : Nat), 4)]⟩] ≠ none := by
  and_intros <;> decide +kernel
/-- A page that no leaf maps, and a table behind a port whose link trains. -/
theorem witness_notPlaced :
    ((portS t0 toTile1).translateAll 0 0 [⟨0x10000, true, false⟩] [⟨0x10000, true, false⟩]).toOption.isNone = true
    ∧ (let s : State := { portS t0 toTile1 with
         ctxs := [(0, ⟨true, 5, 0x1000000⟩)], links := [(16, { State.link0 with st := .training, portEn := true })] }
       (s.walkWords 0 0x10000).head? = some 0x10000000000 ∧ s.portOf 0x10000000000 = some 0 ∧ s.linkHolds (16 + 0) = true) := by decide +kernel
/-- A flag on an SC page that the TLU holds. -/
theorem witness_flagCopy :
    let r := aRec 0x200 0 1
    let s := portS t0 r
    let side : Side := ⟨none, [(0x200, 4)]⟩
    Ready s 0 .xp r0 .cx ∧ pagesOf (virtualRuns [side]) (virtualRuns [side]) = [⟨0x200, true, true⟩]
    ∧ flagChecked s 0 0 (aFlag 1) side ∧ translated s 0 0 [⟨0x200, true, true⟩] := by
  refine ⟨by decide +kernel, by decide +kernel, ⟨rfl, (witness_recordsFree _ _ _ []).1, (witness_recordsFree _ _ [] _).2,
    by decide +kernel, by decide +kernel, by decide +kernel, by decide +kernel, by decide +kernel, ?_, by decide +kernel⟩, by decide +kernel, ?_⟩
  · intro k hk
    rw [show granulesOf (virtualRuns [(⟨none, [(0x200, 4)]⟩ : Side)]) = [0] from by decide +kernel] at hk
    rw [List.mem_singleton.1 hk]
    exact ⟨⟨0x280000, true, 0, 0, 0, 0⟩, by decide +kernel, rfl⟩
  · have k : ((portS t0 (aRec 0x200 0 1)).translateAll 0 0 [⟨0x200, true, true⟩] [⟨0x200, true, true⟩]).toOption.map (·.1.nextId)
        = some (portS t0 (aRec 0x200 0 1)).nextId := by decide +kernel
    obtain ⟨a, ha, hb⟩ := Option.map_eq_some_iff.1 k
    exact ⟨a.1, a.2, of_toOption ha, .inl hb⟩

/-! ### The sequencer -/

/-- Last and one before the last pass of a level; FIFOs empty, with a head that is not yet poppable, with one that is, with 15
and with 16 elements; tokens at the limits. -/
theorem witness_SequencerWords :
    (seqSets State.tsq0 (.smov 3 7)).isSome = true ∧ (seqSets State.tsq0 .shalt).isSome = true
    ∧ SeqReady (onTile .tsq t0) 0 ∧ (inPhase 1).seat.phase % 2 = 1
    ∧ (let n (c : BitVec 16) : Tile := { t0 with tsq := { State.tsq0 with nl := [(1, ⟨c, 0, 5⟩)] } }
       SeqReady (onTile .tsq (n 2)) 0 ∧ ((n 2).tsq.rN 1).index.toNat + 1 < ((n 2).tsq.rN 1).count.toNat
       ∧ ((n 1).tsq.rN 1).count.toNat ≤ ((n 1).tsq.rN 1).index.toNat + 1)
    ∧ (let x (q r : List Fel) (p : List Pend) (v : BitVec 16) : Tile :=
         { t0 with sync := { State.sync0 with fqs := q, fqr := r, k := [(0, v)] }, pend := p }
       SeqReady (onTile .tsq (x [⟨7, 0, true⟩] [] [] 65534)) 0 ∧ (x [] (List.replicate 15 ⟨7, 0, true⟩) [] 0).sync.fqr.length < 16
       ∧ 16 ≤ (x [] (List.replicate 16 ⟨7, 0, true⟩) [] 0).sync.fqr.length ∧ (x [] [] [] 0).sync.fqs = []
       ∧ (x [⟨7, 5, false⟩] [] [] 0).sync.fqs = [⟨7, 5, false⟩]
       ∧ seqToken State.tsq0 (.sksig 0 1) = some (0, 1, true) ∧ seqToken State.tsq0 (.skwaitReg 0 1) = some (0, 0, false)
       ∧ ((x [] [] [] 65534).sync.k.get 0#16 0).toNat + 1 ≤ 65535 ∧ 65535 < ((x [] [] [] 65535).sync.k.get 0#16 0).toNat + 1
       ∧ (∀ q ∈ (x [] [] [] 0).pend, q.eng ≠ .tsq)) := by decide +kernel
theorem witness_encodePending : encodePending { t0 with pend := [⟨8, 0, .tsq, 0, .bytes .scr []⟩] } :=
  ⟨_, List.mem_singleton.2 rfl, rfl, [], rfl⟩

/-- 64 rows of int8 are 64 beats: 192 before them fill the FIFO, 193 do not fit; the last slot of local space and the first past
it; a raw block, and a class above DMAX. -/
theorem witness_SequencerFeeds :
    (let x (b : Nat) : Tile := { t0 with tda := { State.tda0 with ofa := [⟨[], b, 0⟩], ofb := [⟨[], b, 0⟩] } }
     SeqReady (onTile .tsq (x 192)) 0 ∧ ((x 192).tda.ofa.map (·.beats)).sum + 64 ≤ 256 ∧ 256 < ((x 193).tda.ofb.map (·.beats)).sum + 64
     ∧ ((onTile .tsq (x 0)).readRanges 0 .tsq (feedRanges State.tsq0 16 ⟨.s8, false, 0, 0, 0, 0⟩)).toOption.isSome = true)
    ∧ (let q (a : Word) : Tsq := { State.tsq0 with ag := [(2, ⟨a, 0, 0, 0, 0⟩)] }
       agAddr (q 0xFFFC0) 2 + 64 ≤ 0x100000 ∧ 0x100000 < agAddr (q 0xFFFC1) 2 + 64
       ∧ ((onTile .tsq t0).readLocal 0 .tsq 0xFFFC0 64).toOption.isSome = true)
    ∧ t0.sync.dcf.length < 16 ∧ 16 ≤ (List.replicate 16 (⟨[], 0⟩ : Dblk)).length
    ∧ ((onTile .tsq t0).readRanges 0 .tsq [(0, 64)]).toOption.isSome = true
    ∧ ((onTile .tsq t0).readLocal 0 .tsq 0 256).toOption.isSome = true := by decide +kernel
theorem witness_CodecLossless : (List.replicate 256 (0 : Byte)).length = 256 ∧ (List.replicate 256 (0xFF : Byte)).length = 256 := by
  decide +kernel

/-! ### Steps inside a tile -/

theorem witness_ResultsLand :
    (62 : SReg).toNat % 2 = 0 ∧ ({ State.vu0 with masks := [5] } : Vu).masks = 5 :: []
    ∧ (let x (c : Nat) : Tile := { t0 with cyc := c, pend := [⟨2, 0, .ctl, 0, .sreg 3 7⟩] }
       (∀ p ∈ (x 1).pend, (x 1).cyc < p.due) ∧ (x 2).pend.filter (fun p => decide (p.due ≤ (x 2).cyc)) = [⟨2, 0, .ctl, 0, .sreg 3 7⟩]
       ∧ ((onTile .ctl (x 2)).die 0).inj = []) := by decide +kernel
/-- A run whose bytes end at 0x104: 0x103 lies in it, 0xFF and 0x104 outside. -/
theorem witness_landingFrame : (∀ q ∈ [((0x100 : Nat), [(1 : Byte), 2, 3, 4])], 0x104 < q.1 ∨ q.1 + q.2.length ≤ 0x104)
    ∧ (∀ q ∈ [((0x100 : Nat), [(1 : Byte), 2, 3, 4])], 0xFF < q.1 ∨ q.1 + q.2.length ≤ 0xFF)
    ∧ ¬(∀ q ∈ [((0x100 : Nat), [(1 : Byte), 2, 3, 4])], 0x103 < q.1 ∨ q.1 + q.2.length ≤ 0x103)
    ∧ (∀ sp runs, Land.mask .inv ≠ .bytes sp runs) ∧ (∀ sp runs, Land.mask .inv ≠ .part sp runs)
    ∧ ∀ op w a rd b c, Land.mask .inv ≠ .atomic op w a rd b c :=
  ⟨by decide, by decide, by decide, fun _ _ => nofun, fun _ _ => nofun, fun _ _ _ _ _ _ => nofun⟩

/-- A tile whose engines have all stopped at a HALT, with this margin. -/
abbrev stopping (mmap : BitVec 64) (vu : Bool) : Tile :=
  let e (b : Bool) : Pos := { State.pos0 with stopped := b }
  { t0 with pctl := e true, pvu := e vu, ptda := e true, pxp := e true, stop := { State.stop0 with haltAt := some 9 }
            tda := { State.tda0 with mmap := mmap } }
/-- A tile whose engines all wait for a token that nothing will send. -/
abbrev locked : Tile :=
  let e (a : Nat) : Pos := { State.pos0 with pc := a }
  { t0 with pctl := e 0, pvu := e 1, ptda := e 3, pxp := e 5, tsq := { State.tsq0 with halted := true }
            store := { State.store0 with text := [(0, 0x20100000), (1, 0x60000000), (3, 0xA0000000), (5, 0xE0000000)], textLen := 8 } }
theorem witness_TileEvents :
    (stopping 0 true).stop.haltAt = some 9 ∧ ArrayQuiet (stopping 0 true) ∧ (stopping 0 true).pend = [] ∧ (stopping 1 true).tda.mmap ≠ 0
    ∧ ((stopping 0 false).pos .vu).stopped = false ∧ ((stopping 0 true).pos .ctl).stopped = true ∧ ((stopping 0 true).pos .vu).stopped = true
    ∧ ((stopping 0 true).pos .tda).stopped = true ∧ ((stopping 0 true).pos .xp).stopped = true ∧ t0.stop.haltAt = none
    ∧ locked.deadlocked = true ∧ t0.deadlocked = false
    ∧ (let g : Sig := ⟨0, 0, 0, 0, false, true, none⟩
       let x : Tile := { t0 with pctl := { State.pos0 with sigs := [g] } }
       x.pctl.sigs = [g] ∧ x.pvu.sigs = [] ∧ g.due ≤ x.cyc ∧ g.own ≤ x.cyc ∧ x.pvu.fp.length < 8)
    ∧ (let x (n : Nat) : State := onTile .xp { t0 with stop := { State.stop0 with xlatDue := some n } }
       ((x 0).tile 0).stop.xlatDue = some 0 ∧ 0 ≤ (x 0).ticks ∧ (x 1).ticks < 1) := by decide +kernel
/-- R47's conditions of that tile, and a tile whose VU stands at no word of its own. -/
theorem witness_TokenDeadlock : TokenDeadlock locked ∧ ¬TokenDeadlock t0 := by
  have at_ : ∀ e, e ≠ .tsq → StandsAtWord locked e ∧ locked.tokens e (locked.unitRing e) = false := by
    intro e he
    cases e <;> first | exact absurd rfl he | (unfold StandsAtWord; decide +kernel)
  refine ⟨⟨fun e he => .inr (.inl (at_ e he)), rfl, by decide +kernel, fun e _ g hg => ?_, .inl rfl⟩, fun h => ?_⟩
  · cases e <;> cases hg
  · rcases h.1 .vu nofun with ⟨g, r, k, -⟩ | ⟨k, -⟩ | ⟨k, -⟩
    · cases k
    · exact absurd k (by unfold StandsAtWord; decide +kernel)
    · cases k
/-- A CTL signal to both sides that finds room, one that finds the successor's FIFO full, one that is not due, one that waits for a
command. -/
theorem witness_RingSignals :
    let g (n cmd : Nat) : Sig := ⟨0, 0, n, cmd, true, true, none⟩
    let x (n : Nat) : Tile := { t0 with pvu := { State.pos0 with fp := List.replicate n 0 } }
    SignalDue (x 7) (g 0 0) ∧ (ringFifo (x 7) .ctl true ++ [0]).length ≤ max 8 (ringFifo (x 7) .ctl true).length
    ∧ 8 ≤ (ringFifo (x 8) .ctl true).length ∧ ¬SignalDue (x 7) (g 1 0) ∧ SignalDue (x 7) (g 0 9)
    ∧ ¬SignalDue { x 7 with tda := { State.tda0 with queue := [aCmd (.race [] [] 8)] } } (g 0 1) := by decide +kernel

/-! ### Copies, releases, phases -/

/-- A machine with one copy of tile 0, at a tick; tile 1 expects its four bytes. -/
def copyS (n : Nat) (c : Copy) : State :=
  { portS t0 toTile1 with
    time := n, ticks := n, copies := [{ c with rcd := toTile1 }]
    tiles := [(0, { t0 with seat := { State.seat0 with part := some 0 } }),
      (1, { t0 with xp := { State.xp0 with active := [(0, ⟨true, false, 0, 4⟩)] } })] }
/-- With every uncore up and no link failed every route stands. -/
theorem routes_stand {s : State} (hd : s.pkg.down = []) (hl : ∀ n, ((s.link n).st == LState.failed) = false) (a b : Nat) : s.routeBad a b = false := by
  simp [State.routeBad, hd, hl]
theorem nothing_unavailable {s : State} (hd : s.pkg.down = []) (hl : ∀ n, ((s.link n).st == LState.failed) = false) (c : Copy) :
    s.unavailable c = none := by
  rw [State.unavailable, Option.map_eq_none_iff, List.find?_eq_none]
  intro x _
  simp only [routes_stand hd hl, State.addrBad, Bool.false_or, Bool.and_eq_true, not_and, Bool.not_eq_true]
  intro _
  split <;> simp [hl]
/-- With no link out of service no copy is held. -/
theorem no_copy_held {s : State} (hl : ∀ n, s.linkHolds n = false) (c : Copy) : s.copyHeld c = false := by
  have k : ∀ site pa, s.addrHeld site pa = false := fun site pa => by
    rw [State.addrHeld, Bool.or_eq_false_iff]
    exact ⟨by simp [hl], by split <;> simp [hl]⟩
  simp [State.copyHeld, k, hl]
theorem links_down {s : State} (h : s.links = []) (n : Nat) : ((s.link n).st == LState.failed) = false := by
  rw [show s.link n = State.link0 from by simp [State.link, h]]; rfl
/-- A machine whose port 0 trains, and a flag write through it. -/
def linkHeld : State := { copyS 5 (copyIn .held) with links := [(16, { State.link0 with st := .training, portEn := true })] }
def heldC : Copy := { copyIn .held with kind := .flag 0, rcd := toTile1, pages := [(0, 0x10000, State.hbmTop, true, 0)] }
theorem witness_held : linkHeld.copyHeld heldC = true ∧ (copyS 5 heldC).copyHeld heldC = false ∧ (∀ n, heldC.landAt ≤ n) := by
  have h : linkHeld.targets heldC = [(State.hbmTop + 0x200, 0)] := by decide +kernel
  refine ⟨?_, no_copy_held (State.linkHolds_down rfl) _, fun n => by simp [heldC]⟩
  rw [State.copyHeld, h]
  simp [State.hbmTop, port_holds (s := linkHeld) (pa := 0x10000000200) _ (by decide +kernel : _ = some 0) (by decide +kernel)]
/-- A port that has failed makes what goes through its window unavailable. -/
theorem port_bad {s : State} {pa p : Nat} (site : Nat) (hp : s.portOf pa = some p) (h : (s.link (16 + p)).st = .failed) :
    s.addrBad site pa = true := by
  simp [State.addrBad, hp, h]
theorem witness_unavailable :
    ({ copyS 5 heldC with links := [(16, { State.link0 with st := .failed, portEn := true })] } : State).unavailable heldC = some (State.hbmTop + 0x200) := by
  generalize hs : ({ copyS 5 heldC with links := [(16, { State.link0 with st := .failed, portEn := true })] } : State) = s
  have h : s.targets heldC = [(State.hbmTop + 0x200, 0)] := by rw [← hs]; decide +kernel
  have k := port_bad (s := s) (pa := State.hbmTop + 0x200) (Config.dieSite (dieOf heldC.tile)) (by rw [← hs]; decide +kernel : _ = some 0)
    (by rw [← hs]; decide +kernel)
  simp only [State.unavailable, h, List.find?, k, show (State.hbmTop + 0x200 != 0) = true from rfl, Bool.and_self, Bool.or_true, Option.map_some]
/-- A port link in service whose base lies past the remote package's HBM: the copy is sent, and turned away. -/
theorem witness_refused :
    let s : State := { copyS 5 heldC with links := [(16, { State.link0 with st := .active, portEn := true, rbase := 2 })] }
    s.unavailable heldC = none ∧ s.copyHeld heldC = false ∧ s.refusedAt heldC = some (State.hbmTop + 0x200) := by
  intro s
  have l : ∀ n, (s.link n).st = .active ∨ (s.link n).st = .down := fun n => by
    by_cases h : n = 16
    · subst h; exact .inl (by decide +kernel)
    · exact .inr (by simp [s, State.link, Map.get, Ne.symm h]; rfl)
  have tg : s.targets heldC = [(State.hbmTop + 0x200, 0)] := by decide +kernel
  have po : s.portOf (State.hbmTop + 0x200) = some 0 := by decide +kernel
  refine ⟨nothing_unavailable (by decide +kernel) (fun n => ?_) _, no_copy_held (fun n => ?_) _, ?_⟩
  · rcases l n with h | h <;> rw [h] <;> rfl
  · rw [State.linkHolds]; rcases l n with h | h <;> rw [h] <;> rfl
  · have r : s.remoteRefuses (State.hbmTop + 0x200) = true := by
      rw [State.remoteRefuses, po]
      simp only [Bool.or_eq_true]
      exact .inl (by decide +kernel)
    simp only [State.refusedAt, tg, List.find?, r, show ¬State.hostBase ≤ State.hbmTop + 0x200 by decide, if_false, Option.map_some]
/-- The last word of local space in a line that nobody has written, a line that another source has; a counter with the bytes, one
with fewer, none. -/
theorem witness_ArrivalFaults :
    ((onTile .ctl t0).die (0 / 64)).inj = [] ∧ [(1 : Byte), 2, 3, 4].length ≤ 64 - 0xFFFFC % 64 ∧ 0xFFFFC + [(1 : Byte), 2, 3, 4].length ≤ 0x100000
    ∧ t0.frames.lines.get .none (0xFFFFC / 64) = .none
    ∧ (let x : Tile := { t0 with frames := { State.frames0 with lines := [(0x3FFF, .into 5)] } }
       x.frames.lines.get .none (0xFFFFC / 64) = .into 5 ∧ (5 : Nat) ≠ 1)
    ∧ (let x (n : Nat) : Tile := { t0 with xp := { State.xp0 with active := [(3, ⟨true, false, 1, n⟩)] } }
       countersOf (x 4) 1 = [3] ∧ countersOf (x 3) 1 = [3] ∧ countersOf (x 4) 2 = []) := by decide +kernel
/-- Bytes at 0x100 of tile 0's scratchpad, read by a copy of it. -/
abbrev scrS (bs : List Byte) : State := onTile .xp { t0 with store := { State.store0 with scr := Mem.write [] 0x100 bs } }
/-- A line that another tile has written; a lost codeword of a page; an index at EXTENT; a slot with reserved header bits. -/
theorem witness_SourceFaults :
    (let x : Tile := { t0 with frames := { State.frames0 with lines := [(4, .into 5)] } }
     x.frames.lines.get .none 4 = .into 5 ∧ (5 : Nat) ≠ x.seat.lt ∧ 0x100 / 64 ≤ 4 ∧ 4 ≤ (0x100 + 4 - 1) / 64
     ∧ ∀ l, 0x100 / 64 ≤ l → l < 4 → False)
    ∧ (let c : Copy := { copyIn .started with pages := [(0, 0x10000, 0x800000, true, 1)] }
       let s : State := { onTile .xp t0 with hbm := [(0x800200 / 32, true)] }
       (s.touchHbm (physAt c.pages 0x200) 4).2 = some 0x800200 ∧ (0x200 + 4 - 1) / 64 = 0x200 / 64)
    ∧ (let r := recPut (recPut (aRec 0x200 0 1) 0x24 4 0x100) 0x28 4 1
       let c : Copy := { copyIn .started with kind := .gath, rcd := r }
       let s := scrS [1, 0, 0, 0]
       Record.nidx r = 1 ∧ Record.dim r 0 = Record.dim r (Record.ndim r - 1) ∧ (Record.dim r (Record.ndim r - 1)).ext ≤ 1
       ∧ (s.copyReads c ((listSide (s.issuer c) c.kind r).flatMap State.sideRanges)).toOption.map (fun q => recNum q.2 0 4) = some 1)
    ∧ (((scrS [0, 7]).copyRead (copyIn .started) (some 0) 0x100 64).toOption.map fun q => slotHeader q.2 / 256 % 8) = some 7
    ∧ (((scrS [1, 0x80]).copyRead (copyIn .started) (some 0) 0x100 64).toOption.map fun q => slotHeader q.2) = some 0x8001 := by
  refine ⟨⟨by decide +kernel, by decide, by decide, by decide, by omega⟩, ?_⟩
  decide +kernel
/-- A page of the host window. -/
abbrev hostC : Copy := { copyIn .left with kind := .flag 0, rcd := toTile1, pages := [(0, 0x10000, 0x80000000000, true, 0)] }
theorem witness_CopyEvents :
    (copyS 5 { copyIn .buffered with due := 5 }).copy 1 = some { copyIn .buffered with due := 5, rcd := toTile1 }
    ∧ (copyS 4 { copyIn .buffered with due := 5 }).time < 5
    ∧ (let c : Copy := { copyIn .buffered with rcd := toTile1, st := .left, leftAt := 5 }
       ((copyS 5 (copyIn .buffered)).setCopy c).pkg.down = [] ∧ ((copyS 5 (copyIn .buffered)).setCopy c).links = [] ∧ (copyS 5 c).copy 1 = some c ∧ (copyS 5 c).mayStart c = true
       ∧ (copyS 5 c).atsMisses c = [] ∧ c.ats = false ∧ (copyS 5 c).refusedAt c = none
       ∧ ((copyS 5 c).moveCopy c).toOption.map (·.2) = some none)
    ∧ (let c : Copy := { copyIn .started with landAt := 5, sem := ⟨false, 0, true, 3⟩, rcd := toTile1 }
       (copyS 5 c).copy 1 = some c ∧ c.landAt ≤ (copyS 5 c).ticks ∧ (copyS 4 c).ticks < c.landAt ∧ (∀ l ∈ c.wr, l.1 ≠ 0))
    ∧ (let c : Copy := { copyIn .started with landAt := 5, kind := .flag 0, rcd := aRec 0x200 0 1, pages := [(0, 0x10000, 0x800000, true, 1)] }
       ((copyS 5 c).writeFlag c 0).toOption.isSome = true)
    ∧ (let c : Copy := { copyIn .landed with retireAt := 5, rcd := toTile1 }
       (copyS 5 c).copy 1 = some c ∧ c.retireAt ≤ (copyS 5 c).ticks ∧ (copyS 4 c).ticks < c.retireAt)
    ∧ (copyS 5 { copyIn .left with ats := true }).copy 1 = some { copyIn .left with ats := true, rcd := toTile1 }
    ∧ (copyS 5 hostC).atsMisses hostC = [(0, 0)] ∧ ((copyS 5 hostC).targets hostC).find? (fun y => decide (0x80000000000 ≤ y.1)) = some (0x80000000200, 4)
    ∧ (∀ o ∈ (copyS 5 hostC).copies, o.st ≠ .held ∧ o.st ≠ .started ∧ o.st ≠ .landed) ∧ (0, 0) ∈ (copyS 5 hostC).atsPages hostC := by
  and_intros <;> decide +kernel

theorem witness_releaseFree (st owner taker nrel : Nat) (rb : Word) :
    ∀ a ∈ (granule st owner taker nrel rb).regionWords 0 (0x200000 * 0), (granule st owner taker nrel rb).addrHeld (Config.dieSite 0) a = false :=
  fun _ _ => State.addrHeld_down rfl _ _
theorem witness_ReleaseEvents :
    (granule 1 0 5 0 0).region 0 0 = some ⟨0x280000, false, 1, 0, 5, 0⟩ ∧ (granule 1 0 5 0 0).copies = []
    ∧ (granule 0 0 0 0 0).region 0 0 = some ⟨0x280000, false, 0, 0, 0, 0⟩ ∧ ((granule 1 0 5 0 0).die 0).rels = []
    ∧ (∀ c ∈ [{ copyIn .landed with gran := [0] }], c.st = .landed)
    ∧ (let s : State := { onTile .ctl t0 with copies := [copyIn .landed], dies := [(0, { State.die0 with rels := [(1, []), (2, [7]), (3, [1, 7])] })] }
       (s.die 0).rels = [(1, []), (2, [7])] ++ [(3, [1, 7])] ∧ (∀ q ∈ [((1 : Nat), ([] : List Nat)), (2, [7])], ∀ id ∈ q.2, ∀ c ∈ s.copies, c.id ≠ id)
       ∧ (∃ id ∈ [1, 7], ∃ c ∈ s.copies, c.id = id)) := by decide +kernel

/-- A partition of die 0 at a tick, all its tiles as at reset but tile 0. -/
def partS (n : Nat) (q : Part) (x : Tile) : State :=
  { onTile .ctl { x with seat := { x.seat with part := some 0 } } with
    time := n, ticks := n, parts := [(0, { q with v := true, dies := 1, bind := [0] })] }
/-- All engines of a tile have arrived and its sequencer has halted. -/
abbrev allArrived : Tile :=
  let e : Pos := { State.pos0 with arrived := true }
  { t0 with pctl := e, pvu := e, ptda := e, pxp := e, tsq := { State.tsq0 with halted := true } }
/-- The same partition with every tile in this state. -/
def partAll (n : Nat) (q : Part) (x : Tile) : State := { partS n q x with tiles := (List.range 64).map fun t => (t, x) }

/-- Controllers before a launch, in an open phase, at a boundary, extended. -/
abbrev pArmed : Part := { State.part0 with st := .armed, next := some 1024 }
abbrev pOpen : Part := { State.part0 with st := .open_, deadline := 50 }
abbrev pBound : Part := { State.part0 with st := .boundary, next := some 60, since := 50, opening := [0] }
abbrev pExt : Part := { State.part0 with st := .extended, deadline := 50, slimNow := 10, straggling := [0] }
/-- The partition's state as the machine holds it. -/
theorem witness_partS : (partS 1024 pArmed t0).part 0 = { pArmed with v := true, dies := 1, bind := [0] }
    ∧ pArmed.since ≠ (partS 1024 pArmed t0).ticks ∧ 1024 ≤ (partS 1024 pArmed t0).time ∧ (partS 1023 pArmed t0).time < 1024
    ∧ pOpen.deadline ≤ (partS 50 pOpen t0).time ∧ (partS 49 pOpen t0).time < pOpen.deadline ∧ 60 ≤ (partS 60 pBound t0).time
    ∧ 1 ∉ pBound.opening ∧ pExt.deadline + pExt.slimNow ≤ (partS 60 pExt t0).time ∧ (partS 59 pExt t0).time < pExt.deadline + pExt.slimNow
    ∧ State.arrived ((partS 60 pExt t0).tile 0) = false := by decide +kernel
/-- A tile whose engines have arrived, one that is halted, one that a full FIFO keeps from placing its arrival's signal. -/
theorem witness_Arrived : Arrived allArrived ∧ Arrived { t0 with stop := { State.stop0 with halted := true } } ∧ ¬Arrived t0
    ∧ ¬Arrived { allArrived with
        pctl := { State.pos0 with arrived := true, sigs := [⟨0, 0, 0, 0, false, true, none⟩] }
        pvu := { State.pos0 with arrived := true, fp := List.replicate 8 0 } } := by
  refine ⟨.inr ⟨rfl, rfl, rfl, rfl, rfl, fun e _ => by cases e <;> decide, fun _ => ⟨by decide +kernel, .inl rfl, rfl, rfl, rfl⟩⟩, .inl rfl, ?_, ?_⟩
  · rintro (h | ⟨h, -⟩) <;> exact absurd h (by decide)
  · rintro (h | ⟨-, -, -, -, -, h, -⟩)
    · exact absurd h (by decide)
    · exact absurd (h .ctl nofun).2 (by decide)
/-- A phase of arrived tiles in a compute and in an exchange phase, one of halted tiles; one that a die has still to open; one with a
counter left. -/
theorem witness_Complete :
    Complete (partAll 50 pOpen allArrived) 0 ∧ Complete (partAll 50 { pOpen with phase := 1 } allArrived) 0
    ∧ Complete (partAll 50 pOpen { t0 with stop := { State.stop0 with halted := true } }) 0
    ∧ ¬Complete (partAll 50 { pOpen with opening := [0] } allArrived) 0
    ∧ ¬Complete (partAll 50 { pOpen with phase := 1 } { allArrived with xp := { State.xp0 with active := [(0, ⟨true, false, 0, 4⟩)] } }) 0 := by
  have all (q : Part) (x : Tile) (h : Arrived x) : allTiles (partAll 50 q x) 0 fun t => Arrived ((partAll 50 q x).tile t) := by
    intro lt hl
    have k : (partAll 50 q x).tile (64 * (((partAll 50 q x).part 0).bind.getD (lt / 64) 0) + lt % 64) = x := by
      have h64 : lt < 64 := hl
      rw [show ((partAll 50 q x).part 0).bind = [0] from rfl, show lt / 64 = 0 by omega, show lt % 64 = lt by omega]
      simp only [List.getD_cons_zero, Nat.mul_zero, Nat.zero_add]
      have m : ∀ n k : Nat, k < n → Map.get ((List.range n).map fun t => (t, x)) State.tile0 k = x := fun n => by
        induction n with
        | zero => intro k hk; omega
        | succ n ih =>
          intro k hk
          rw [List.range_succ, List.map_append]
          by_cases hn : k < n
          · rw [Map.get_append_left _ _ _ _ (by simp; omega), ih k hn]
          · rw [Map.get_append _ _ _ _ (by simp; omega), show k = n by omega]
            simp
      exact m 64 lt h64
    rw [k]; exact h
  refine ⟨⟨rfl, all _ _ witness_Arrived.1, fun h => absurd rfl h⟩, ⟨rfl, all _ _ witness_Arrived.1, fun _ => ⟨nofun, by decide +kernel⟩⟩,
    ⟨rfl, all _ _ witness_Arrived.2.1, fun h => absurd rfl h⟩, fun h => absurd h.1 (by decide), fun h => ?_⟩
  exact absurd ((h.2.2 (by decide)).2 0 (by decide) (0, ⟨true, false, 0, 4⟩) (by decide +kernel) rfl) (by decide)
/-- The lead of a partition of one die; a reconfiguration and none; an origin that was held; frames of one source. -/
theorem witness_BoundaryLead : BoundaryLead (partS 50 pOpen t0) ((partS 50 pOpen t0).part 0) 8 := by
  refine ⟨0, by decide +kernel, fun _ _ => Nat.zero_le _, fun d hd => ?_, 0, by decide +kernel, rfl⟩
  have : d = 0 := by
    have : ∀ d < 8, ((partS 50 pOpen t0).part 0).dies.getLsbD d = true → d = 0 := by decide +kernel
    exact this d hd.1 hd.2
  subst this
  exact Nat.le_refl _
theorem witness_Reconfiguring :
    Reconfiguring { partAll 50 pOpen allArrived with links := [(0, { State.link0 with st := .draining, req := true })] }
    ∧ ¬Reconfiguring (partS 60 { pBound with next := none, lead := 8 } t0)
    ∧ ((partS 60 { pBound with next := none, lead := 8 } t0).part 0).next = none ∧ pBound.phase % 2 = 0
    ∧ (({ State.frames0 with srcs := [(0, .one 3), (1, .many)] } : Frames).srcs.map (·.1)).Nodup ∧ ((partS 50 pOpen t0).tilesOf 0).Nodup :=
  ⟨⟨_, .head _, rfl, .inl rfl⟩, fun ⟨_, h, _⟩ => absurd h List.not_mem_nil, by decide +kernel, by decide, by decide, by decide +kernel⟩
/-- Every tile still, and tile 0 with a write to land; every tile halted, and none; a tile frozen. -/
theorem witness_PhaseEvents :
    (allTiles (partS 1024 pArmed t0) 0 fun t => stillAtLaunch (partS 1024 pArmed t0) t)
    ∧ (¬allTiles (partS 1024 pArmed { t0 with pend := [aStore] }) 0 fun t => stillAtLaunch (partS 1024 pArmed { t0 with pend := [aStore] }) t)
    ∧ (¬allTiles (partAll 50 pOpen allArrived) 0 fun t => ((partAll 50 pOpen allArrived).tile t).stop.halted = true)
    ∧ (allTiles (partAll 50 pOpen { t0 with stop := { State.stop0 with halted := true } }) 0 fun t =>
        ((partAll 50 pOpen { t0 with stop := { State.stop0 with halted := true } }).tile t).stop.halted = true)
    ∧ (allTiles (partS 60 pBound t0) 0 fun t => ((partS 60 pBound t0).tile t).stop.frozen = false)
    ∧ (¬allTiles (partS 60 pBound { t0 with stop := { State.stop0 with frozen := true } }) 0 fun t =>
        ((partS 60 pBound { t0 with stop := { State.stop0 with frozen := true } }).tile t).stop.frozen = false) := by
  and_intros <;> decide +kernel

/-- A partition whose tiles all run in this phase, its die at this cycle. -/
def runAll (time cyc n : Nat) (q : Part) (realign : Bool) : State :=
  { partAll time q { t0 with seat := { State.seat0 with run := true, phase := n }, stop := { State.stop0 with realign := realign } } with
    dies := [(0, { State.die0 with cyc := cyc })] }
/-- A die ahead of package time, at its origin, and one cycle before it; one that realigns; before the controller's own opening, and
after it; what holds a divisor. -/
theorem witness_DieOpens :
    (let s := runAll 59 60 0 pBound false
     WaitsFor s (s.part 0) 60 ∧ 0 ∈ (s.part 0).opening ∧ (∀ t ∈ s.dieTiles 0 0, (s.tile t).seat.run = true) ∧ (s.tilesOf 0).Nodup
     ∧ ¬Realigning s 0 0 ∧ 60 ≤ (s.die 0).cyc ∧ (s.die 0).phaseLeft = 0 ∧ s.dieTiles 0 0 ≠ []
     ∧ ∀ t ∈ s.dieTiles 0 0, (s.tile t).seat.phase % 2 = 0)
    ∧ (let s := runAll 60 59 0 { pOpen with opening := [0], origin := 60, phase := 1 } false
       WaitsFor s (s.part 0) 60 ∧ (s.die 0).cyc < 60)
    ∧ (let s := runAll 60 40 1 { pBound with phase := 1 } true
       WaitsFor s (s.part 0) 60 ∧ Realigning s 0 0 ∧ 60 ≤ s.time ∧ (s.part 0).st = .boundary ∧ ∃ t ∈ s.dieTiles 0 0, (s.tile t).seat.phase % 2 = 1)
    ∧ (∃ e ∈ ([(0, { State.link0 with st := .paused })] : Map Link), e.1 < 12 ∧ e.2.st = .paused) := by
  refine ⟨⟨.inl (by decide +kernel), by decide +kernel, by decide +kernel, by decide +kernel, ?_, by decide +kernel, by decide +kernel,
    by decide +kernel, by decide +kernel⟩, ⟨.inr (by decide +kernel), by decide +kernel⟩,
    ⟨.inl (by decide +kernel), ?_, by decide +kernel, by decide +kernel, by decide +kernel⟩, ⟨_, .head _, by decide, rfl⟩⟩
  · unfold Realigning; decide +kernel
  · unfold Realigning; decide +kernel
/-- The first opening of a launch, at its tick. -/
theorem witness_launchOpens :
    let s : State := { partS 60 { pOpen with opening := [0], origin := 60 } t0 with dies := [(0, { State.die0 with cyc := 60 })] }
    (s.part 0).st = .open_ ∧ 0 ∈ (s.part 0).opening ∧ 0 ∈ s.dieTiles 0 0 ∧ 63 ∈ s.dieTiles 0 0 ∧ (s.part 0).origin ≤ (s.die 0).cyc
    ∧ (s.die 0).phaseLeft = 0 ∧ (∃ u ∈ s.dieTiles 0 0, (s.tile u).seat.run = false) ∧ (s.tilesOf 0).Nodup := by decide +kernel

/-- A machine whose tile 0, in partition 0, is frozen with a report that may be resumed; the core of die 0 is in the landing cycle
of this command. -/
def heldS (st : PState) (cmd : DWord) (frozen1 : Bool) : State :=
  { partS 50 { State.part0 with st := st, heldAt := 40 } { t0 with stop := { State.stop0 with
      frozen := true, report := some ⟨0x100000, 0, 0, 0⟩, tpend := true } } with
    dies := [(0, { State.die0 with cyc := 50, fwc := { f0 with blk := some (.tcmd cmd 0) } })]
    tiles := [(0, { t0 with seat := { State.seat0 with part := some 0 }, stop := { State.stop0 with
        frozen := true, report := some ⟨0x100000, 0, 0, 0⟩, tpend := true } }),
      (63, { t0 with stop := { State.stop0 with frozen := frozen1 } })] }
/-- A partition at the boundary after an exchange phase, asked to save. -/
abbrev pPre : Part := { State.part0 with st := .boundary, phase := 1, since := 49, preempt := [3] }
/-- A partition that has saved what it had to save. -/
abbrev pSaving : Part := { State.part0 with st := .saving, phase := 1, since := 49, saveLeft := [(0, 50)] }

theorem witness_PartitionCommands :
    (heldS .held 1 false).part 0 = { State.part0 with st := .held, heldAt := 40, v := true, dies := 1, bind := [0] }
    ∧ ((heldS .held 1 false).fwc 0).blk = some (.tcmd 1 0) ∧ ((heldS .held 1 false).tile 0).seat.part = some 0
    ∧ ((heldS .held 1 false).tile 0).stop.frozen = true ∧ ((heldS .held 1 false).tile 0).stop.report = some ⟨0x100000, 0, 0, 0⟩
    ∧ (0x100000 : DWord).getLsbD 20 = true
    ∧ (∀ lt, lt < 64 * 1 → State.part0.phys lt ≠ 0 → ((heldS .held 1 false).tile lt).stop.frozen = false)
    ∧ ((heldS .held 1 true).tile 63).stop.frozen = true
    ∧ ((onCore { f0 with blk := some (.tcmd 1 0) }).tile 0).stop.frozen = false
    ∧ (∀ a, a < 8 → Turn.die a ∉ (heldS .held 1 false).agenda)
    ∧ (let s : State := { heldS .held 1 false with
         agenda := [.die 1]
         dies := [(0, { State.die0 with cyc := 50, fwc := { f0 with blk := some (.tcmd 1 0) } }),
           (1, { State.die0 with cyc := 50, fwc := { f0 with cyc := 50, blk := some (.mtsr 0x0A 2 50) } })]
         tiles := [(0, { t0 with seat := { State.seat0 with part := some 0 } }), (64, { t0 with seat := { State.seat0 with part := some 0 } })] }
       Turn.die 1 ∈ s.agenda ∧ (s.die 1).phaseLeft = 0 ∧ s.pkg.dreset.getLsbD 1 = false ∧ (s.fwc 1).blk = some (.mtsr 0x0A 2 50)
       ∧ 50 ≤ (s.fwc 1).cyc ∧ (s.part 0).st = .held ∧ (s.tile 64).seat.part = some 0 ∧ (s.fwc 0).blk = some (.tcmd 1 0)
       ∧ (s.fwc 1).tsel.toNat = 0)
    ∧ ((heldS .held 2 false).fwc 0).blk = some (.tcmd 2 0) ∧ ((heldS .open_ 2 false).part 0).st ≠ .held
    ∧ pPre.phase % 2 = 1 ∧ (partS 50 pPre t0).ticks = pPre.since + 1 ∧ pPre.preempt ≠ []
    ∧ pSaving.since ≠ (partS 50 pSaving t0).ticks ∧ (∀ e ∈ pSaving.saveLeft, e.2 ≤ (partS 50 pSaving t0).ticks)
    ∧ (partS 50 pSaving t0).ctxOf pSaving.launch.pasid = none
    ∧ (let s : State := { onTile .ctl t0 with ticks := 9, dies := [(0, { State.die0 with div := 2, divAt := some 9 })] }
       (s.die 0).divAt = some 9 ∧ 9 ≤ s.ticks ∧ s.dieActive 0 = false) := by
  and_intros <;> decide +kernel
/-- At the tolerance of the die and one tick past it, whatever the tolerance is. -/
theorem witness_timeZone :
    let s (k : Nat) : State := { partS 50 pOpen t0 with time := 0, dies := [(0, { State.die0 with cyc := Config.tolerance 0 + k })] }
    (((s 0).die 0).cyc - (s 0).time : Int).natAbs ≤ Config.tolerance 0
    ∧ Config.tolerance 0 < (((s 1).die 0).cyc - (s 1).time : Int).natAbs ∧ ((s 1).part 0).since ≠ (s 1).ticks
    ∧ ((s 1).parts.find? fun e => e.2.active && e.2.dies.getLsbD 0) = some (0, (s 1).part 0) := by
  refine ⟨?_, ?_, by decide, rfl⟩
  · show ((Config.tolerance 0 + 0 : Nat) - (0 : Nat) : Int).natAbs ≤ _; omega
  · show _ < ((Config.tolerance 0 + 1 : Nat) - (0 : Nat) : Int).natAbs; omega

/-! ### Firmware cores, links, package time -/

theorem witness_ExceptionTaken : f0.exc = false ∧ ({ f0 with exc := true } : Fwc).exc = true := by decide

/-- A core with this state of interrupts, whose die has the doorbell 5.7 in its FIFO. -/
abbrev rungCore (ie exc : Bool) (imask : BitVec 8) (b : Option Blk) : State :=
  { State.reset with cur := .fwc 0, ticks := 9
                     dies := [(0, { State.die0 with dbq := [(5, 7)], fwc := { f0 with ie := ie, exc := exc, imask := imask, blk := b } })] }
theorem witness_CoreEvents :
    (rungCore true false 0x40 none).ipend 0 &&& ((rungCore true false 0x40 none).fwc 0).imask ≠ 0
    ∧ ((rungCore true false 0x40 none).fwc 0).ie = true ∧ ((rungCore true false 0x40 none).fwc 0).exc = false
    ∧ ((rungCore true false 0x40 (some .wfe)).fwc 0).blk = some .wfe
    ∧ (rungCore true false 0x20 none).ipend 0 &&& ((rungCore true false 0x20 none).fwc 0).imask = 0
    ∧ ((rungCore false true 0x40 none).fwc 0).exc = true ∧ ((rungCore true false 0x40 none).die 0).dbq.head? = some (5, 7)
    ∧ ((rungCore true false 0 (some (.apLoad 0x100 4 false false 3 9))).fwc 0).blk = some (.apLoad 0x100 4 false false 3 9)
    ∧ 9 ≤ (rungCore true false 0 none).ticks ∧ (rungCore true false 0 none).ticks < 10
    ∧ (rungCore true false 0 none).portOf 0x100 = none
    ∧ (∀ site pa, (rungCore true false 0 none).addrHeld site pa = false)
    ∧ (∀ site, linkHeld.addrHeld site 0x10000000200 = true)
    ∧ ((rungCore true false 0 (some (.apStore 0x100 [1] 9))).fwc 0).blk = some (.apStore 0x100 [1] 9) := by
  and_intros
  all_goals first
    | decide +kernel
    | exact fun _ _ => State.addrHeld_down rfl _ _
    | exact fun site => port_holds site (by decide +kernel : _ = some 0) (by decide +kernel)
/-- An aperture atomic that is due, in an HBM without errors; a load that meets an uncorrectable codeword. -/
theorem witness_apertureReads :
    let s : State := rungCore true false 0 (some (.apAtomic .add true 0x100 4 1 0 9))
    let z : State := { rungCore true false 0 (some (.apLoad 0x100 4 false false 3 9)) with hbm := [(8, true)] }
    s.hbm = [] ∧ s.portOf 0x100 = none ∧ (s.fwc 0).blk = some (.apAtomic .add true 0x100 4 1 0 9) ∧ 9 ≤ s.ticks
    ∧ (∀ site pa, s.addrHeld site pa = false) ∧ (∀ site pa, z.addrHeld site pa = false)
    ∧ ({ z with free := z.free + 1 } : State).touchHbm 0x100 4 = ({ z with free := z.free + 1 }, some 0x100) :=
  ⟨rfl, by decide +kernel, rfl, by decide, fun _ _ => State.addrHeld_down rfl _ _, fun _ _ => State.addrHeld_down rfl _ _, rfl⟩

/-- A machine with this link 11. -/
def linkS (l : Link) : State := { State.reset with ticks := 9, links := [(11, l)] }
theorem witness_Links :
    linkExists 0 = true ∧ linkExists 11 = true ∧ linkExists 16 = true ∧ linkExists 23 = true ∧ linkExists 12 = false ∧ linkExists 15 = false
    ∧ linkExists 24 = false ∧ 67 < 68 ∧ 7 < 8
    ∧ (linkS { State.link0 with st := .draining }).exchangeOpen = false ∧ (linkS { State.link0 with st := .draining }).copies = []
    ∧ ((linkS { State.link0 with st := .draining }).link 11).st = .draining
    ∧ (∀ n ∈ [9, 10], ((linkS { State.link0 with st := .draining, ackAt := some n }).link 11).ackAt = some n)
    ∧ ((linkS { State.link0 with st := .draining }).link 11).ackAt = none ∧ 9 ≤ (linkS State.link0).ticks ∧ (linkS State.link0).ticks < 10
    ∧ (partS 9 { pOpen with phase := 1 } t0).exchangeOpen = true
    ∧ ((linkS { State.link0 with st := .paused, attemptEnd := 8 }).link 11).attemptEnd < (linkS State.link0).ticks
    ∧ (linkS State.link0).ticks ≤ ((linkS { State.link0 with st := .paused, attemptEnd := 9 }).link 11).attemptEnd
    ∧ ((linkS { State.link0 with st := .training, attemptEnd := 9 }).link 11).attemptEnd ≤ (linkS State.link0).ticks
    ∧ (linkS State.link0).ticks < ((linkS { State.link0 with st := .training, attemptEnd := 10 }).link 11).attemptEnd := by decide +kernel

/-- A pulse 64 ticks after a multiple of 2^20, at the edge of the window, and 65 ticks after; half a period before the next; the
last tick of a slew step; a calibration that falls due in this tick. -/
theorem witness_PackageTime :
    ((2 ^ 20 : Nat) + 64) % 2 ^ 20 = 64 ∧ (2 ^ 20 : Nat) % 2 ^ 20 = 0 ∧ (64 : Int) = ((2 ^ 20 + 64 : Nat) : Int) - (2 ^ 20 : Nat)
    ∧ -(2 ^ 20 : Int) ≤ 2 * 64 ∧ 2 * (64 : Int) < 2 ^ 20 ∧ (64 : Int).natAbs ≤ State.pkg0.syncWin.toNat ∧ State.pkg0.syncWin.toNat < (65 : Int).natAbs
    ∧ -(2 ^ 20 : Int) ≤ 2 * -(2 ^ 19) ∧ State.pkg0.syncMode ≠ 1
    ∧ ({ State.pkg0 with syncMode := 1, syncLoad := true } : Pkg).syncLoad = true
    ∧ (0 < 65536 + 1 ∧ (65536 + 1) % 65536 = 1 ∧ 65536 % 65536 ≠ 1)
    ∧ (let s : State := { onTile .ctl t0 with time := 0x01000000, pkg := { State.pkg0 with prev := 0x00FFFFFF } }
       s.pkg.prev < (s.tile 0).press.last + (s.die 0).calint.toNat ∧ (s.tile 0).press.last + (s.die 0).calint.toNat ≤ s.time
       ∧ (s.tile 0).press.due = false ∧ (onTile .ctl t0).time < (t0).press.last + (State.die0).calint.toNat) := by decide +kernel

/-- The doorbell of PASID 5, queue 7; a full FIFO and one with room; a die in reset; the last bytes of HBM and one byte too many. -/
theorem witness_OutsideAccesses :
    (leBytes 8 0x507).length = 8 ∧ (BitVec.ofNat 64 (ofLe (leBytes 8 0x507))).toNat < 2 ^ 28 ∧ 2 ^ 28 ≤ (BitVec.ofNat 64 (ofLe (leBytes 8 (2 ^ 28)))).toNat
    ∧ ({ State.pkg0 with qen := true } : Pkg).qen = true ∧ State.reset.dstate 7 = 0
    ∧ ({ State.reset with pkg := { State.pkg0 with dreset := 0x80 } } : State).dstate 7 ≠ 0
    ∧ (List.replicate 63 ((5 : BitVec 20), (7 : BitVec 8))).length < 64 ∧ 64 ≤ (List.replicate 64 ((5 : BitVec 20), (7 : BitVec 8))).length
    ∧ (0xFFFFFFFFF8 : BitVec 40).toNat + 8 ≤ 2 ^ 40 ∧ 2 ^ 40 < (0xFFFFFFFFF9 : BitVec 40).toNat + 8
    ∧ (let s : State := { State.reset with links := [(23, { State.link0 with portIn := true })] }
       (s.link (16 + 7)).portIn = true ∧ (s.link (16 + 6)).portIn = false ∧ (0xFFFFFFFFF8 : BitVec 44).toNat + 8 ≤ 2 ^ 40 ∧ 8 < 9)
    ∧ (let s (n : Nat) : State := { State.reset with pkg := { State.pkg0 with bar2 := n } }
       (0xFFFFFFF8 : BitVec 40).toNat + 8 ≤ 2 ^ (s 32).pkg.bar2 ∧ 2 ^ (s 31).pkg.bar2 < (0xFFFFFFF8 : BitVec 40).toNat + 8) := by
  decide +kernel
/-- Accesses that no link holds, and one that meets an uncorrectable codeword; one behind another at its port; one at a port that
trains. -/
theorem witness_inbound :
    (∀ i, i ∈ State.reset.pkg.inbound → False) ∧ State.reset.hbm = []
    ∧ (let s : State := { State.reset with hbm := [(8, true)] }; s.touchHbm 0x100 8 = (s, some 0x100))
    ∧ (∀ i, State.reset.inboundHeld i = false)
    ∧ (∃ i ∈ ({ State.pkg0 with inbound := [⟨some 7, true, 0, []⟩] } : Pkg).inbound, i.port = some 7)
    ∧ (∀ w a, ({ State.reset with links := [(23, { State.link0 with st := .training, portIn := true })] } : State).inboundHeld ⟨some 7, w, a, []⟩ = true) := by
  refine ⟨nofun, rfl, rfl, fun i => ?_, ⟨_, .head _, rfl⟩, fun w a => ?_⟩
  · rw [State.inboundHeld]
    split <;> simp only [State.addrHeld_down (s := State.reset) rfl, State.linkHolds_down (s := State.reset) rfl, Bool.or_false]
  · rw [State.inboundHeld, Bool.or_eq_true]
    exact .inl (by decide +kernel)

/-! ### Bring-up and queues -/

/-- A machine at this point of the bring-up, its links as in the list. -/
def bootS (n : Nat) (ls : Map Link) : State := { State.reset with pkg := { State.pkg0 with boot := n }, links := ls }
theorem witness_BringUpSteps :
    State.reset.pkg.boot = 0 ∧ (∃ k, k < 12 ∧ ((bootS 4 [(11, { State.link0 with st := .failed })]).link k).st = .failed)
    ∧ (∀ k, k < 12 → ((bootS 4 [(23, { State.link0 with st := .training })]).link k).st ≠ .failed)
    ∧ (∀ k, k < 12 → ((bootS 4 [(23, { State.link0 with st := .failed })]).link k).st ≠ .failed)
    ∧ (∀ k, k < 24 → ((bootS 4 [(23, { State.link0 with st := .failed })]).link k).st ≠ .training) ∧ (bootS 11 []).pkg.boot = 11
    ∧ (∃ k, k < 24 ∧ (k < 12 ∨ (16 ≤ k ∧ k < 24)) ∧ ((bootS 4 [(23, { State.link0 with st := .training })]).link k).st = .training)
    ∧ (∀ k, k < 24 → ((bootS 4 []).link k).st ≠ .failed ∧ ((bootS 4 []).link k).st ≠ .training)
    ∧ (let s : State := { bootS 6 [] with ticks := 9, dies := [(7, { State.die0 with pressAt := some 9 })] }
       (∃ d, d < 8 ∧ (s.die d).pressAt ≠ none) ∧ (s.die 7).pressAt = some 9 ∧ 9 ≤ s.ticks ∧ s.pkg.boot < 10)
    ∧ (∀ d, d < 8 → ((bootS 6 []).die d).pressAt = none) ∧ (bootS 7 []).pkg.boot = 7 ∧ (∀ d, d < 8 → (bootS 8 []).pkg.boot = 8 ∧ ((bootS 8 []).die d).fe.lease = none)
    ∧ (let s : State := { bootS 8 [] with dies := [(7, { State.die0 with fe := { State.fe0 with lease := some 0 } })] }
       ∃ d, d < 8 ∧ (s.die d).fe.lease ≠ none)
    ∧ (let q : Part := { State.part0 with v := true, st := .open_ }
       ([(0, q), (7, q)].map (·.1)).Pairwise (· < ·) ∧ q.st ≠ .idle ∧ q.st ≠ .done ∧ q.st ≠ .aborted) := by decide +kernel

/-- A slot of a queue with a ring at 0x1000 of 4 KiB: state, leader, depth, head, watchdog deadline. -/
def aSlot (st leader depth head wddl : Nat) : List Byte :=
  leBytes 8 0x1000 ++ leBytes 4 (12 + st * 2 ^ 8 + leader * 2 ^ 16 + depth * 2 ^ 24) ++ leBytes 4 head ++ leBytes 8 0 ++ leBytes 8 wddl
    ++ List.replicate 224 0
abbrev q57 : QueueId := ⟨0, 5, 7⟩
/-- Queue 5.7 with this slot, in the queue table at 0x800000; the front end of die 0 runs it; PASID 5 lives in context 3, whose
first GiB is a page at 0x40000000 and whose second is an SC page at 0x80000000. -/
def queueS (time : Nat) (r : List Byte) (wait : Option Nat) (pkt : List Byte) (dies : Map Die) (parts : Map Part) : State :=
  { State.reset with
    time := time, parts := parts, ctxs := [(3, ⟨true, 5, 0x100⟩)]
    pkg := { State.pkg0 with qen := true, qtbase := 1, prev := time - 1, msixOn := true }
    dies := if dies.isEmpty then [(0, { State.die0 with fe := { State.fe0 with runs := [⟨q57, 0x3000000, wait, pkt, none, []⟩] } })] else dies
    mem := Mem.write (Mem.write (Mem.write (Mem.write (Mem.write (Mem.write [] 0x800028 (leBytes 8 0x2000003)) 0x1000000 (leBytes 8 0x1010001))
      0x1010000 (leBytes 8 0x4000000F)) 0x1010008 (leBytes 8 0x8000001F)) 0x2000038 (leBytes 8 0x3000003)) 0x3000100 r }
abbrev idleQ : State := queueS 1000 (aSlot 1 0 0 0 0) none [] [] []

theorem witness_QueueCommits :
    0x3000000 % 1024 = 0 ∧ (2 ^ 40 - 1024) % 1024 = 0 ∧ (2 ^ 40 - 1024) + 1024 ≤ 2 ^ 40 ∧ (aSlot 1 0 0 0 0).length = 256
    ∧ (idleQ.qrun q57).map (·.qcb) = some 0x3000000 := by decide +kernel

/-- The leaves of context 3: the page at 0x40000000, and the SC page. -/
abbrev aLeaf : Leaf := ⟨0x1010000, 0x40000000, 0x40000000, 0x4000000F⟩
abbrev scLeaf : Leaf := ⟨0x1010008, 0x80000000, 0x40000000, 0x8000001F⟩
/-- Writes and reads of the front end of die 0: on a plain page and on an SC page; outside every page; an SC word on a plain page; one
whose walk meets a port that trains. -/
theorem witness_frontAccesses :
    let u := idleQ.begin_ q57
    (∃ m, u.frontWrite 0 3 8 false (leBytes 8 7) = .ok (m, ())) ∧ (∃ m, u.frontWrite 0 3 0x40000008 true (leBytes 8 7) = .ok (m, ()))
    ∧ (∃ m, u.frontWrite 0 3 0x80000000 false (leBytes 8 7) = .error (m, some 0x0E)) ∧ (∃ m, u.frontWrite 0 3 8 true (leBytes 8 7) = .error (m, some 0x0E))
    ∧ (∃ m, u.frontRead 0 3 8 8 = .ok (m, [0, 0, 0, 0, 0, 0, 0, 0])) ∧ (∃ m, u.frontRead 0 3 0x80000000 8 = .error (m, some 0x0E)) := by
  intro u
  have hl : u.links = [] := by decide +kernel
  have hb : u.hbm = [] := by decide +kernel
  have w8 : u.walk 3 8 = some aLeaf := by decide +kernel
  have ws : u.walk 3 0x40000008 = some scLeaf := by decide +kernel
  have wn : u.walk 3 0x80000000 = none := by decide +kernel
  refine ⟨⟨_, State.frontWrite_leaf 0 3 _ hl hb (by decide) w8 (by decide) nofun (by decide)⟩,
    ⟨_, State.frontWrite_leaf 0 3 _ hl hb (by decide) ws (by decide) (fun _ => by decide) (by decide)⟩, ⟨u.walked 0, ?_⟩, ⟨(u.walked 0).leafTouched aLeaf true, ?_⟩,
    ⟨(u.walked 0).leafTouched aLeaf false, ?_⟩, ⟨u.walked 0, ?_⟩⟩
  · rw [State.frontWrite, State.frontTranslate_none 0 3 true hl hb wn]; rfl
  · rw [State.frontWrite, State.frontTranslate_leaf (wr := true) 0 3 hl hb (by decide) w8 (by decide)]; rfl
  · rw [State.frontRead_piece 0 3 (by decide) (by decide), State.frontPiece_leaf 0 3 hl hb (by decide) w8 (by decide) (by decide)]
    have : ((u.walked 0).leafTouched aLeaf false).physRead (0x40000000 + 8 % 0x40000000) 8 = [0, 0, 0, 0, 0, 0, 0, 0] := by decide +kernel
    rw [this]
  · rw [State.frontRead_piece 0 3 (by decide) (by decide), State.frontPiece, State.frontTranslate_none 0 3 false hl hb wn]; rfl
theorem witness_frontHeld :
    let s : State := { idleQ with ctxs := [(3, ⟨true, 5, 0x1000000⟩)], links := [(16, { State.link0 with st := .training, portEn := true })] }
    s.frontTranslate 0 3 8 true = .error (s, none) := by
  intro s
  have k : s.addrHeld (Config.dieSite 0) 0x10000000000 = true := port_holds _ (by decide +kernel : _ = some 0) (by decide +kernel)
  have m : 0x10000000000 ∈ s.walkWords 3 8 := List.mem_of_mem_head? (by decide +kernel : _ = some 0x10000000000)
  rw [State.frontTranslate, if_neg (by decide), if_pos (List.any_eq_true.2 ⟨_, m, k⟩)]

/-- Aligned and misaligned addresses; the vectors at their limit; a TIMETABLE of the queue that still owes its STATUS, in its
partition and in the package, and none. -/
theorem witness_QueuePackets :
    PacketReady idleQ q57 3 0x3000000
    ∧ (8 : DWord).toNat % 8 = 0 ∧ (4 : DWord).toNat % 8 ≠ 0 ∧ (4 : DWord).toNat % 4 = 0 ∧ (2047 : BitVec 12).toNat < 2048
    ∧ (∀ e ∈ idleQ.parts, e.2.launch.owed = true → e.2.launch.pasid = q57.pasid → e.2.launch.queue ≠ q57.queue) ∧ idleQ.pkg.owed = []
    ∧ (∃ e ∈ (queueS 1000 (aSlot 1 0 0 0 0) none [] [] [(0, { State.part0 with launch := ⟨5, 7, 0, 0, 0, true, false⟩ })]).parts,
        e.2.launch.owed = true ∧ e.2.launch.pasid = q57.pasid ∧ e.2.launch.queue = q57.queue) := by
  refine ⟨⟨⟨⟨q57, 0x3000000, none, [], none, []⟩, by decide +kernel⟩, by decide, by decide +kernel, State.addrHeld_down rfl _ _, ?_⟩, ?_⟩ <;>
    decide +kernel
/-- A queue of one packet at depth 0, at depth 1 with 32 bytes left, at depth 2 over 16 bytes; one already in progress. -/
theorem witness_PacketEnds :
    QcbAt 0x3000000 ∧ QcbAt (2 ^ 40 - 1024) ∧ (idleQ.qrun q57).map (·.wait) = some none ∧ QSlot.depth (idleQ.qslot 0x3000000) = 0 ∧ 32 % 16 = 0
    ∧ (let s := queueS 1000 (QSlot.setEntry (aSlot 1 0 1 0 0) 1 0x1000 32) none [] [] []
       (s.qrun q57).map (·.owner) = some none ∧ QSlot.depth (s.qslot 0x3000000) = 1 ∧ QSlot.entryLeft (s.qslot 0x3000000) 1 = 32 ∧ 16 < 32)
    ∧ (let s := queueS 1000 (QSlot.setEntry (QSlot.setEntry (aSlot 1 0 2 0 0) 1 0x1000 16) 2 0x2000 32) none [] [] []
       QSlot.depth (s.qslot 0x3000000) = 2 ∧ QSlot.entryLeft (s.qslot 0x3000000) 2 = 32 ∧ QSlot.entryLeft (s.qslot 0x3000000) 1 ≠ 0)
    ∧ ((queueS 1000 (aSlot 1 0 0 0 0) (some 900) [] [] []).qrun q57).map (·.wait) = some (some 900) := by decide +kernel
/-- No live context of PASID 5; a stopped queue; a QCB behind a port that trains. -/
theorem witness_PacketsUnrun :
    (let s : State := { idleQ with ctxs := [(3, ⟨true, 6, 0x100⟩)] }
     (s.qrun q57).map (·.qcb) = some 0x3000000 ∧ s.pkg.dreset.getLsbD 0 = false ∧ QSlot.state (s.qslot 0x3000000) ≠ 2
     ∧ ∀ e ∈ (s.begin_ q57).ctxs, e.2.v = true → e.2.pasid ≠ q57.pasid)
    ∧ QSlot.state ((queueS 1000 (aSlot 2 0 0 0 0) none [] [] []).qslot 0x3000000) = 2
    ∧ (let s : State := { idleQ with
         links := [(16, { State.link0 with st := .training, portEn := true })]
         dies := [(0, { State.die0 with fe := { State.fe0 with runs := [⟨q57, 0x10000000000, none, [], none, []⟩] } })] }
       (s.qrun q57).map (·.qcb) = some 0x10000000000 ∧ s.addrHeld (Config.dieSite 0) 0x10000000000 = true) := by
  refine ⟨by decide +kernel, by decide +kernel, by decide +kernel, port_holds _ (by decide +kernel : _ = some 0) (by decide +kernel)⟩
theorem witness_pktMet : pktMet 0 5 5 ∧ ¬pktMet 1 5 5 ∧ pktMet 2 5 5 ∧ ¬pktMet 2 5 6 ∧ ¬pktMet 0 5 6 := by
  refine ⟨?_, ?_, ?_, ?_, ?_⟩ <;> (unfold pktMet; decide)

/-- An image for one die: every tile has an empty text and the same views, one phase of 4,096 ticks; its directory stands last. -/
def anImage : List Byte :=
  let d (type tile off len : Nat) : List Byte := leBytes 2 type ++ leBytes 2 tile ++ leBytes 4 0 ++ leBytes 4 off ++ leBytes 4 len
  leBytes 4 0x4F4B4C50 ++ leBytes 2 1 ++ leBytes 2 1 ++ leBytes 4 132 ++ leBytes 4 240 ++ leBytes 8 2352 ++ List.replicate 40 0
    ++ (List.range 8).flatMap (fun _ => leBytes 8 (16 * 2 ^ 30 + 4 * 2 ^ 18)) ++ List.replicate 16 0
    ++ (List.range 8).flatMap (fun _ => [0, 0] ++ leBytes 2 1 ++ leBytes 2 1 ++ [0, 0])
    ++ leBytes 8 0 ++ leBytes 4 4096 ++ leBytes 4 0 ++ List.replicate 16 0
    ++ (List.range 64).flatMap (fun t => d 1 t 128 4) ++ (List.range 64).flatMap (fun t => d 4 t 64 72)
    ++ d 5 0xFFFF 144 64 ++ d 7 0xFFFF 0 0 ++ d 8 0xFFFF 0 0 ++ d 9 0xFFFF 208 16
theorem noPort (s : State) (a : Nat) (h : a < 2 ^ 40) : s.portOf a = none := by
  have : ¬(2 ^ 40 ≤ a) := by omega
  rw [State.portOf, if_neg]
  simp [show State.hbmTop = 2 ^ 40 from rfl]
  omega
theorem num_eq (s : State) (a n : Nat) (h : a < 2 ^ 40) : s.physNum a n = ofLe ((List.range n).map fun i => Mem.get1 s.mem (a + i)) := by
  rw [State.physNum, State.physRead, noPort s a h]
  exact congrArg ofLe (Mem.read_eq _ _ _)

/-- The first GiB of context 3 is a page at 0x40000000 that holds these bytes, and partition 0 is at rest. -/
structure Placed (u : State) (bs : List Byte) : Prop where
  ctx : u.ctx 3 = ⟨true, 5, 0x100⟩
  parts : u.parts = [(0, { State.part0 with v := true, ctx := 3, dies := 1 })]
  links : u.links = []
  hbm : u.hbm = []
  cap : u.pkg.pwrcap = 112
  root : u.physNum 0x1000000 8 = 0x1010001
  leaf : u.physNum 0x1010000 8 = 0x4000000F
  pool : ∀ e ∈ u.mem, 0x80000 ≤ e.1
  bytes : ∀ i, i < bs.length → Mem.get1 u.mem (0x40000000 + i) = bs.getD i 0

theorem Placed.count {u bs} (h : Placed u bs) : Placed (u.walked 0) bs :=
  { ctx := h.ctx, parts := h.parts, links := h.links, hbm := h.hbm, cap := h.cap, root := h.root, leaf := h.leaf, pool := h.pool, bytes := h.bytes }

theorem Placed.walk {u bs} (h : Placed u bs) : u.walk 3 0 = some ⟨0x1010000, 0x40000000, 0x40000000, 0x4000000F⟩ := by
  have m : ∀ a n, u.mapped a n = ({ State.reset with parts := [(0, { State.part0 with v := true, ctx := 3, dies := 1 })] } : State).mapped a n :=
    fun a n => by simp only [State.mapped, State.physOk, State.inProtected, State.portOf, State.link, h.parts, h.links, State.reset]; rfl
  rw [State.walk, h.ctx]
  simp only [if_true, show 0x10000 * (0x100 : BitVec 28).toNat = 0x1000000 from rfl]
  rw [State.walkFrom]
  simp only [show 0x1000000 + 8 * walkIndex 0 0 = 0x1000000 from rfl, h.root, m]
  rw [if_neg (by decide +kernel), if_neg (by decide +kernel), if_neg (by decide +kernel)]
  simp only [show Machine.bits 0x1010001 43 8 * 256 = 0x1010000 from by decide +kernel]
  rw [State.walkFrom]
  simp only [show 0x1010000 + 8 * walkIndex 0 1 = 0x1010000 from rfl, h.leaf, m]
  rw [if_neg (by decide +kernel), if_pos (by decide +kernel), if_neg (by decide +kernel)]
  rfl

theorem pool_write (m : Mem) (a : Nat) (bs : List Byte) (h : ∀ e ∈ m, 0x80000 ≤ e.1) (ha : 0x80000 ≤ a) : ∀ e ∈ Mem.write m a bs, 0x80000 ≤ e.1 := by
  intro e he
  simp only [Mem.write, List.mem_append, List.mem_filter] at he
  rcases he with (he | he) | he
  · exact h e he.1
  · exact Nat.le_trans ha ((cells_wf a bs).2 e he).1
  · exact h e he.1

/-- What is left after a read through that page: A of its leaf is set. -/
theorem Placed.touched {u bs} (h : Placed u bs) : u.leafTouched aLeaf false = { u with mem := Mem.write u.mem 0x1010000 [0x2F] } := by
  have e : u.physWrite 0x1010000 [0x2F] = { u with mem := Mem.write u.mem 0x1010000 [0x2F] } := by
    simp only [State.physWrite, State.portOf_down h.links, h.hbm]
    cases u; simp_all
  rw [← e]; rfl

theorem Placed.read {u bs} (h : Placed u bs) (hn : 0 < bs.length) (hl : bs.length ≤ 0x10000) :
    u.frontRead 0 3 0 bs.length = .ok ({ u.walked 0 with mem := Mem.write u.mem 0x1010000 [0x2F] }, bs) := by
  have r : ({ u.walked 0 with mem := Mem.write u.mem 0x1010000 [0x2F] } : State).physRead (0x40000000 + 0 % 0x40000000) bs.length = bs := by
    rw [State.physRead, State.portOf_down (s := { u.walked 0 with mem := Mem.write u.mem 0x1010000 [0x2F] }) h.links]
    rw [Mem.read_eq]
    refine List.ext_getElem (by simp) fun i hi _ => ?_
    simp only [List.length_map, List.length_range] at hi
    simp only [List.getElem_map, List.getElem_range, Mem.get1_write]
    rw [if_neg (by simp; omega), h.bytes i hi, List.getD_eq_getElem?_getD, List.getElem?_eq_getElem hi]
    rfl
  rw [State.frontRead_piece 0 3 hn (by omega), State.frontPiece_leaf 0 3 h.links h.hbm (by decide) h.walk (by decide) (by decide), h.count.touched]
  exact congrArg (fun b => Except.ok (_, b)) r

/-- A launch, not a restore, fails at no tile. -/
theorem launch_places (s : State) (p d c : Nat) (bind : List Nat) (l : Loaded) : ∃ r, s.launchTiles p d c bind l false 0 = .ok r := by
  obtain ⟨r, h⟩ : ∃ r, (l.tiles.zipIdx).foldl (fun r e => State.frontThen r fun s ph =>
      s.launchOne p d c { State.part0 with bind := bind } l false 0 ph e.2 e.1) (.ok (s, 0)) = .ok r :=
    List.foldlRecOn (motive := fun r : State.Front Nat => ∃ x, r = .ok x) _ _ ⟨_, rfl⟩ fun r hr _ _ => by
      obtain ⟨x, rfl⟩ := hr
      exact ⟨_, rfl⟩
  exact ⟨r, by rw [State.launchTiles, h]⟩

/-- The region table of a partition without an entry stands. -/
theorem regions_pass {s : State} (q : Part) (n : Nat) (hl : s.links = []) (hb : s.hbm = []) (h : s.regionsOk q n = true) :
    s.checkRegions q n = .ok (s, ()) := by
  have k : ∀ f : State × Option Nat → Nat × Nat → State × Option Nat, (∀ a, f (s, none) a = (s, none)) →
      ∀ as : List (Nat × Nat), as.foldl f (s, none) = (s, none) := fun f hf as => by
    induction as with
    | nil => rfl
    | cons a as ih => rw [List.foldl_cons, hf, ih]
  rw [State.checkRegions, State.areaHeld_down hl, if_neg Bool.false_ne_true, k]
  · simp only [h, if_true]
  · exact fun a => State.touchHbm_clean hb _ _

/-- An image of one die, without die hops, is accepted by a partition of one die whose region table lists nothing. -/
theorem accepts {s : State} {bs : List Byte} {l : Loaded} (head : Nat) (hq : s.parts = [(0, { State.part0 with v := true, ctx := 3, dies := 1 })])
    (links : s.links = []) (hbm : s.hbm = [])
    (cap : s.pkg.pwrcap = 112) (pool : ∀ e ∈ s.mem, 0x80000 ≤ e.1) (hp : parseImage bs = some l)
    (hd : l.img.dies = 1) (hh : l.hops = []) (hc : l.img.phases = [(0, 4096, 0)]) :
    ∃ m, s.acceptTimetable 0 3 ⟨5, 7, head, 0, false, 0, bs.length, 0, 0, 0⟩ bs = .ok (m, ()) := by
  have q : s.part 0 = { State.part0 with v := true, ctx := 3, dies := 1 } := by rw [State.part, hq]; rfl
  have ws : s.listedWords 0 65536 = [] := by
    rw [State.listedWords, List.filter_eq_nil_iff.2 fun e he => by have := pool e he; simp; omega]
    rfl
  have rg : s.regionsOk { State.part0 with v := true, ctx := 3, dies := 1 } 64 = true := by
    have b : State.poolBase { State.part0 with v := true, ctx := 3, dies := 1 } = 0 := rfl
    rw [State.regionsOk, State.dirOk, State.leavesOf, b, ws]; rfl
  have cm : s.commitments = 0 := by rw [State.commitments, hq]; rfl
  have bd : bindFrom [] 1 [] ({ State.part0 with v := true, ctx := 3, dies := 1 } : Part).diesOf = some [0] := by decide
  obtain ⟨⟨m, ph⟩, ha⟩ := launch_places s 0 0 3 [0] l
  have pass := regions_pass { State.part0 with v := true, ctx := 3, dies := 1 } 64 links hbm rg
  have co : State.commitOf l = 1 := by simp [State.commitOf, hd, hc, maxOf]
  simp only [State.acceptTimetable, hp, q, hd, hh, State.frontThen]
  simp only [show ({ State.part0 with v := true, ctx := 3, dies := 1 } : Part).diesOf.length = 1 by decide, if_true, bd, pass, cm, cap, co,
    State.areaHeld_down links, Bool.and_false, Bool.false_eq_true, if_false, ha]
  rw [if_neg (by decide)]
  exact ⟨_, rfl⟩

/-- The queue's state with these bytes at 0x40000000, and partition 0 at rest. -/
def loadQ (bs : List Byte) : State :=
  { idleQ with
    parts := [(0, { State.part0 with v := true, ctx := 3, dies := 1 })], mem := Mem.write idleQ.mem 0x40000000 bs }
theorem loadQ_read (bs : List Byte) (a n : Nat) (h : a + n ≤ 0x40000000) : (loadQ bs).physRead a n = idleQ.physRead a n := by
  have p : ∀ s : State, s.physRead a n = (List.range n).map fun i => Mem.get1 s.mem (a + i) := fun s => by
    rw [State.physRead, noPort s a (by omega)]
    exact Mem.read_eq _ _ _
  rw [p, p]
  refine List.map_congr_left fun i hi => ?_
  have := List.mem_range.1 hi
  rw [loadQ, Mem.get1_write, if_neg (by omega)]
theorem recPut_length (r : List Byte) (off n v : Nat) (h : off + n ≤ r.length) : (recPut r off n v).length = r.length := by
  simp [recPut, leBytes]; omega
/-- What a packet's start leaves: a slot and SEL written in its queue's control block, the front end at work. -/
def begun (bs : List Byte) (a : Nat) (r w : List Byte) (d : Map Die) : State :=
  { loadQ bs with mem := ((loadQ bs).mem.write a r).write 0x3000000 w, dies := d }
theorem loadQ_begin (bs : List Byte) : ∃ a r w d, 0x3000100 ≤ a ∧ a ≤ 0x3000200 ∧ r.length = 256 ∧ w.length = 8
    ∧ (loadQ bs).begin_ q57 = begun bs a r w d := by
  have l : ((loadQ bs).qslot 0x3000000).length = 256 := by
    rw [State.qslot, State.physNum, loadQ_read bs 0x3000000 8 (by decide), loadQ_read _ _ _ (by decide +kernel)]
    decide +kernel
  have c (v : List Byte) : ∃ a w, 0x3000100 ≤ a ∧ a ≤ 0x3000200 ∧ w.length = 8 ∧
      (loadQ bs).commit 0x3000000 v = begun bs a v w (loadQ bs).dies := by
    refine ⟨0x3000100 + 0x100 * (1 - (loadQ bs).physNum 0x3000000 8 % 2),
      leBytes 8 (((loadQ bs).physNum 0x3000000 8 / 2 + 1) * 2 + (1 - (loadQ bs).physNum 0x3000000 8 % 2)), by omega, by omega,
      by simp [leBytes], ?_⟩
    rw [State.commit, State.physWrite, State.physWrite, noPort _ _ (by decide), noPort _ _ (by omega)]
    rfl
  obtain ⟨a, w, lo, hi, hw, he⟩ := c (QSlot.setWddl (QSlot.setState ((loadQ bs).qslot 0x3000000) 1) ((loadQ bs).time + 30000000))
  refine ⟨a, QSlot.setWddl (QSlot.setState ((loadQ bs).qslot 0x3000000) 1) ((loadQ bs).time + 30000000), w, ((loadQ bs).modRun q57 fun r => { r with wait := some (loadQ bs).time }).dies, lo, hi, ?_, hw, ?_⟩
  rotate_left
  · rw [State.begin_, show (loadQ bs).qrun q57 = some ⟨q57, 0x3000000, none, [], none, []⟩ from rfl]
    simp only [he]
    rfl
  · rw [QSlot.setWddl, recPut_length, QSlot.setState, recPut_length, l] <;> simp [QSlot.setState, recPut_length, l]
/-- A packet's start touches neither the tables nor the page that holds the image. -/
theorem begun_placed {bs : List Byte} {a : Nat} {r w : List Byte} (d : Map Die) (lo : 0x3000100 ≤ a) (hi : a ≤ 0x3000200)
    (hr : r.length = 256) (hw : w.length = 8) : Placed (begun bs a r w d) bs := by
  have num (k : Nat) (hk : k + 8 ≤ 0x3000000) : (begun bs a r w d).physNum k 8 = idleQ.physNum k 8 := by
    refine Eq.trans ?_ (congrArg ofLe (loadQ_read bs k 8 (by omega)))
    rw [num_eq _ _ _ (by omega), ← State.physNum, num_eq _ _ _ (by omega)]
    refine congrArg ofLe (List.map_congr_left fun i h => ?_)
    have := List.mem_range.1 h
    simp only [begun, Mem.get1_write]
    rw [if_neg (by omega), if_neg (by omega)]
  have p0 : ∀ e ∈ idleQ.mem, 0x80000 ≤ e.1 := by decide +kernel
  exact {
    ctx := rfl, parts := rfl, links := rfl, hbm := rfl, cap := rfl
    root := (num _ (by decide)).trans (by decide +kernel)
    leaf := (num _ (by decide)).trans (by decide +kernel)
    pool := pool_write _ _ _ (pool_write _ _ _ (pool_write _ _ _ p0 (by decide)) (by omega)) (by decide)
    bytes := fun i h => by
      simp only [begun, Mem.get1_write, loadQ]
      rw [if_neg (by omega), if_neg (by omega), if_pos (by omega), Nat.add_sub_cancel_left]
      rfl }
theorem loadQ_placed (bs : List Byte) : Placed ((loadQ bs).begin_ q57) bs := by
  obtain ⟨a, r, w, d, lo, hi, hr, hw, e⟩ := loadQ_begin bs
  exact e ▸ begun_placed d lo hi hr hw

theorem loadQ_ready (bs : List Byte) : PacketReady (loadQ bs) q57 3 0x3000000 := by
  have l : (loadQ bs).qslot 0x3000000 = idleQ.qslot 0x3000000 := by
    rw [State.qslot, State.qslot, State.physNum, State.physNum, loadQ_read bs 0x3000000 8 (by decide)]
    exact loadQ_read _ _ _ (by have := Nat.mod_lt (ofLe (idleQ.physRead 0x3000000 8)) (show 0 < 2 by decide); omega)
  refine ⟨⟨⟨q57, 0x3000000, none, [], none, []⟩, rfl, rfl⟩, by decide, (by decide : State.pkg0.dreset.getLsbD 0 = false),
    State.addrHeld_down rfl _ _, ?_, rfl⟩
  rw [l]
  decide +kernel

/-- An image at virtual address 0 is read, and a launch of it accepted. -/
theorem Placed.launch {u : State} {bs : List Byte} (hp : Placed u bs) (head : Nat) (n : bs.length = 2352) {l : Loaded}
    (hl : parseImage bs = some l) (hd : l.img.dies = 1) (hh : l.hops = []) (hc : l.img.phases = [(0, 4096, 0)]) :
    ∃ s m, u.readImage 0 3 ⟨5, 7, head, 0, false, 0, bs.length, 0, 0, 0⟩ = some (s, some bs)
      ∧ s.acceptTimetable 0 3 ⟨5, 7, head, 0, false, 0, bs.length, 0, 0, 0⟩ bs = .ok (m, ()) := by
  obtain ⟨m, hm⟩ := accepts (s := { u.walked 0 with mem := Mem.write u.mem 0x1010000 [0x2F] }) head hp.parts hp.links hp.hbm hp.cap
    (pool_write _ _ _ hp.pool (by decide)) hl hd hh hc
  refine ⟨_, m, ?_, hm⟩
  rw [State.readImage, if_neg (by simp [n])]
  simp only [hp.read (by omega) (by omega)]

/-- A launch that the loader takes; one it does not; a partition that does not exist; a TIMETABLE of the queue's own that stands
committed; a buffer at depth 3 and at depth 4; a timer at its limits. -/
theorem witness_launchAccepted :
    ∃ s m, ((loadQ anImage).begin_ q57).readImage 0 3 ⟨5, 7, QSlot.head (((loadQ anImage).begin_ q57).qslot 0x3000000), 0, false, 0, 2352, 0, 0, 0⟩
        = some (s, some anImage)
      ∧ s.acceptTimetable 0 3 ⟨5, 7, QSlot.head (((loadQ anImage).begin_ q57).qslot 0x3000000), 0, false, 0, 2352, 0, 0, 0⟩ anImage
        = .ok (m, ()) := by
  have hp := loadQ_placed anImage
  have n : anImage.length = 2352 := by decide +kernel
  have pi : (parseImage anImage).map (fun l => (l.img.dies, l.hops, l.img.phases)) = some (1, [], [(0, 4096, 0)]) := by decide +kernel
  obtain ⟨l, hl, k⟩ := Option.map_eq_some_iff.1 pi
  simp only [Prod.mk.injEq] at k
  exact n ▸ hp.launch _ n hl k.1 k.2.1 k.2.2
theorem witness_QueueLaunches :
    PacketReady (loadQ anImage) q57 3 0x3000000
    ∧ (((loadQ anImage).begin_ q57).part 0).st.atRest = true ∧ (((loadQ anImage).begin_ q57).part 0).ctx.toNat = 3
    ∧ (((loadQ anImage).begin_ q57).part 0).launch.fresh = false ∧ (((loadQ anImage).begin_ q57).part 1).v = false
    ∧ (idleQ.begin_ q57).acceptTimetable 0 3 ⟨5, 7, 0, 0, false, 0, 16, 0, 0, 0⟩ (List.replicate 16 0)
        = .error (idleQ.begin_ q57, some 0x17)
    ∧ (idleQ.begin_ q57).readImage 0 3 ⟨5, 7, 0, 0, false, 2 ^ 52, 16, 0, 0, 0⟩ = some (idleQ.begin_ q57, none)
    ∧ ((queueS 1000 (aSlot 1 0 0 0 0) none [] [] [(0, { State.part0 with launch := ⟨5, 7, 0, 0, 0, true, true⟩ })]).begin_ q57).part 0
        = { State.part0 with launch := ⟨5, 7, 0, 0, 0, true, true⟩ }
    ∧ QSlot.depth (((queueS 1000 (aSlot 1 0 3 0 0) none [] [] []).begin_ q57).qslot 0x3000000) = 3
    ∧ QSlot.depth (((queueS 1000 (aSlot 1 0 4 0 0) none [] [] []).begin_ q57).qslot 0x3000000) = 4
    ∧ (0xFFFFFFFFFFFFFFF0 : DWord).toNat % 16 = 0 ∧ (2 ^ 24 : DWord).toNat % 16 = 0 ∧ 16 ≤ (2 ^ 24 : DWord).toNat ∧ (2 ^ 24 : DWord).toNat ≤ 2 ^ 24
    ∧ (8 : DWord).toNat % 16 ≠ 0 ∧ (8 : DWord).toNat % 8 = 0 ∧ (4 : DWord).toNat % 8 ≠ 0 := by
  have q : ∀ p, ((loadQ anImage).begin_ q57).part p = Map.get [(0, { State.part0 with v := true, ctx := 3, dies := 1 })] State.part0 p :=
    fun p => by rw [State.part, (loadQ_placed anImage).parts]
  refine ⟨loadQ_ready _, ?_, ?_, ?_, ?_, by decide +kernel, rfl, by decide +kernel, by decide +kernel, by decide +kernel, by decide⟩ <;>
    (rw [q]; decide +kernel)

/-! ### A partition that saves every tile -/

/-- Context 3 maps its first GiB to 0x40000000 through an entry with A and D set. -/
structure Saves (u : State) : Prop where
  ctx : u.ctx 3 = ⟨true, 5, 0x100⟩
  parts : u.parts = [(0, { pSaving with launch := ⟨5, 7, 0, 0x200000, 0, false, false⟩, v := true, dies := 1, bind := [0] })]
  links : u.links = []
  hbm : u.hbm = []
  tiles : u.tiles = []
  root : u.physNum 0x1000000 8 = 0x1010001
  leaf : u.physNum 0x1010000 8 = 0x4000006F
abbrev fullLeaf : Leaf := ⟨0x1010000, 0x40000000, 0x40000000, 0x4000006F⟩

theorem Saves.walk {u : State} (h : Saves u) (lt : Nat) (hl : lt < 64) : u.walk 3 (0x200000 + 0x200000 * lt) = some fullLeaf := by
  have m : ∀ a n, u.mapped a n = ({ State.reset with parts := u.parts } : State).mapped a n :=
    fun a n => by simp only [State.mapped, State.physOk, State.inProtected, State.portOf, State.link, h.links, State.reset]; rfl
  have i : ∀ k < 64, walkIndex (0x200000 + 0x200000 * k) 0 = 0 ∧ walkIndex (0x200000 + 0x200000 * k) 1 = 0 := by decide +kernel
  rw [State.walk, h.ctx]
  simp only [if_true, show 0x10000 * (0x100 : BitVec 28).toNat = 0x1000000 from rfl]
  rw [State.walkFrom]
  simp only [(i lt hl).1, Nat.mul_zero, Nat.add_zero, h.root, m, h.parts]
  rw [if_neg (by decide +kernel), if_neg (by decide +kernel), if_neg (by decide +kernel)]
  simp only [show Machine.bits 0x1010001 43 8 * 256 = 0x1010000 from by decide +kernel]
  rw [State.walkFrom]
  simp only [(i lt hl).2, Nat.mul_zero, Nat.add_zero, h.leaf, m, h.parts]
  rw [if_neg (by decide +kernel), if_pos (by decide +kernel), if_neg (by decide +kernel)]
  rfl

/-- A context placed above the tables leaves them as they are. -/
theorem Saves.save {u : State} (h : Saves u) (t a : Nat) (ha : 0x1010008 ≤ a) : Saves (u.saveContext t a) := by
  have g (n : Nat) (b : Mem) (k : Nat) (hk : k < a) : Mem.get1 (u.mem.blit a n b) k = Mem.get1 u.mem k := by
    unfold Mem.get1 Mem.blit
    rw [List.append_assoc, Map.get_append_left]
    · exact Map.get_filter _ k _ _ (by simp [hk])
    · intro e he
      simp only [Mem.shift, List.mem_append, List.mem_filter, List.mem_map, decide_eq_true_eq] at he
      rcases he with ⟨e', ⟨-, -⟩, rfl⟩ | ⟨-, he⟩
      · simp; omega
      · omega
  obtain ⟨n, b, v, f, e⟩ : ∃ n b v f, u.saveContext t a
      = { u with mem := u.mem.blit a n b, hbm := [], pkg := v, free := f } := by
    rw [State.saveContext, State.portOf_down h.links]
    simp only [Option.isSome_none, Bool.false_eq_true, if_false, h.hbm, List.filter_nil]
    split
    · exact ⟨_, _, _, _, rfl⟩
    · exact ⟨_, _, u.pkg, u.free, rfl⟩
  have num (k : Nat) (hk : k + 8 ≤ a) (hb : k + 8 < 2 ^ 40) : (u.saveContext t a).physNum k 8 = u.physNum k 8 := by
    rw [num_eq _ _ _ (by omega), num_eq _ _ _ (by omega), e]
    refine congrArg ofLe (List.map_congr_left fun i hi => ?_)
    have := List.mem_range.1 hi
    exact g _ _ _ (by omega)
  exact {
    ctx := by rw [e]; exact h.ctx
    parts := by rw [e]; exact h.parts
    links := by rw [e]; exact h.links
    hbm := by rw [e]
    tiles := by rw [e]; exact h.tiles
    root := (num _ (by omega) (by decide)).trans h.root
    leaf := (num _ (by omega) (by decide)).trans h.leaf }

/-- A tile without an error in its memories is read for its context as it stands. -/
theorem readTile_clean {u : State} {t : Nat} (h : (u.tile t).store.ecc = []) (w : (u.tile t).store.wiped = []) : u.readTile t = (u, none) := by
  have k : ∀ sp a b, u.correct t (6, 0) sp a b = (u, none) := fun sp a b => by
    simp [State.correct, h, w]
  rw [State.readTile]
  induction savedSpaces (u.tile t).isFrozen with
  | nil => rfl
  | cons sp r ih => rw [List.foldl_cons]; simp only [k]; exact ih

/-- The partition, and the machine that holds it. -/
abbrev pSaved : Part := { pSaving with launch := ⟨5, 7, 0, 0x200000, 0, false, false⟩, v := true, dies := 1, bind := [0] }
theorem Saves.count {u : State} (h : Saves u) (d : Nat) : Saves (u.walked d) :=
  { ctx := h.ctx, parts := h.parts, links := h.links, hbm := h.hbm, tiles := h.tiles, root := h.root, leaf := h.leaf }
theorem Saves.tile {u : State} (h : Saves u) (lt : Nat) (hl : lt < 64) : ∃ m, Saves m ∧ u.saveTile pSaved 3 lt = .ok (m, ()) := by
  have pa : 0x40000000 + (0x200000 + 0x200000 * lt) % 0x40000000 = 0x40200000 + 0x200000 * lt := by omega
  have ok (f : Bool) (v : State) : v.ctxAddrOk (BitVec.ofNat 64 (0x40200000 + 0x200000 * lt)) (ctxSize f) = true := by
    have sz : ctxSize f ≤ 0x200000 := by cases f <;> decide
    have nat : (BitVec.ofNat 64 (0x40200000 + 0x200000 * lt)).toNat = 0x40200000 + 0x200000 * lt := by
      rw [BitVec.toNat_ofNat]; omega
    simp only [State.ctxAddrOk, nat, State.physOk, State.hbmTop, State.physTop]
    simp
    omega
  let d := dieOf (pSaved.phys lt)
  have z : ∀ t, u.tile t = State.tile0 := fun t => by rw [State.tile, h.tiles]; rfl
  refine ⟨_, (h.count d).save (pSaved.phys lt) (0x40200000 + 0x200000 * lt) (by omega), ?_⟩
  rw [State.saveTile, State.frontTranslate_leaf (wr := true) _ 3 h.links h.hbm (by show 0x200000 + 0x200000 * lt < _; omega) (h.walk lt hl) (by decide)]
  simp only [show (u.walked (dieOf (pSaved.phys lt))).leafTouched fullLeaf true = u.walked d from rfl, pa]
  rw [ok, if_neg (by decide), State.frontReach_hbm (s := u.walked d) _ _ _ h.links (by simp only [State.hostBase]; omega)]
  simp only [readTile_clean (u := u.walked d) (t := pSaved.phys lt) (congrArg (·.store.ecc) (z _)) (congrArg (·.store.wiped) (z _))]

def saveS : State :=
  { State.reset with
    time := 50, ticks := 50, parts := [(0, pSaved)], ctxs := [(3, ⟨true, 5, 0x100⟩)]
    mem := Mem.write (Mem.write [] 0x1000000 (leBytes 8 0x1010001)) 0x1010000 (leBytes 8 0x4000006F) }
theorem witness_saveComplete :
    saveS.part 0 = pSaved ∧ pSaved.st = .saving ∧ pSaved.since ≠ saveS.ticks ∧ (∀ e ∈ pSaved.saveLeft, e.2 ≤ saveS.ticks)
    ∧ saveS.ctxOf pSaved.launch.pasid = some 3 ∧ ∃ m, saveS.saveTiles pSaved 3 = .ok (m, ()) := by
  have z : Saves saveS := { ctx := by decide +kernel, parts := rfl, links := rfl, hbm := rfl, tiles := rfl, root := by decide +kernel, leaf := by decide +kernel }
  obtain ⟨m, -, hm⟩ := List.foldlRecOn (motive := fun r : State.Front Unit => ∃ m, Saves m ∧ r = .ok (m, ())) (upto pSaved.tiles)
    (fun r lt => match r with
      | .error e => .error e
      | .ok (s, _) => s.saveTile pSaved 3 lt) ⟨saveS, z, rfl⟩ (by
        rintro _ ⟨u, hu, rfl⟩ lt hl
        exact hu.tile lt (List.mem_range.1 hl))
  exact ⟨by decide +kernel, rfl, by decide +kernel, by decide +kernel, by decide +kernel, m, hm⟩

/-- The first context that cannot be written ends the save of a partition. -/
theorem saveTiles_error {s : State} {q : Part} {c : Nat} {e} (h : s.saveTile q c 0 = .error e) (n : 0 < q.tiles) : s.saveTiles q c = .error e := by
  obtain ⟨k, hk⟩ := Nat.exists_eq_add_of_lt n
  have stay : ∀ l : List Nat, l.foldl (fun (r : State.Front Unit) lt => match r with
      | .error e => .error e
      | .ok (s, _) => s.saveTile q c lt) (.error e) = .error e := fun l => by induction l <;> simp_all
  rw [State.saveTiles, show upto q.tiles = 0 :: (List.range k).map (· + 1) by rw [hk, upto, Nat.zero_add, List.range_succ_eq_map]]
  simp only [List.foldl_cons, h]
  exact stay _
/-- A context whose page is not mapped, one whose walk a link holds, one at an address that CSAVE refuses, a tile with a lost word. -/
theorem witness_saveFails :
    (∃ q : Part, saveS.saveTiles q 3 = .error (saveS.walked 0, some 0x0E))
    ∧ (∃ q : Part, ∃ s : State, s.ctx 3 = ⟨true, 5, 0x1000000⟩ ∧ s.saveTiles q 3 = .error (s, none))
    ∧ (∃ q : Part, saveS.frontTranslate 0 3 q.launch.save true = .ok (saveS.walked 0, 0x40200100, false)
        ∧ ¬ContextAt (saveS.walked 0) 0x40200100 1728512)
    ∧ ((onTile .ctl { t0 with store := { State.store0 with ecc := [⟨.scr, 3, 3⟩] } }).readTile 0).2 = some 12 := by
  have z : Saves saveS := { ctx := by decide +kernel, parts := rfl, links := rfl, hbm := rfl, tiles := rfl, root := by decide +kernel, leaf := by decide +kernel }
  let far (n : Nat) : Part := { pSaved with launch := ⟨5, 7, 0, n, 0, false, false⟩ }
  let s : State := { idleQ with ctxs := [(3, ⟨true, 5, 0x1000000⟩)], links := [(16, { State.link0 with st := .training, portEn := true })] }
  refine ⟨⟨far 0x80000000, saveTiles_error ?_ (by decide)⟩, ⟨far 8, s, by decide +kernel, saveTiles_error ?_ (by decide)⟩,
    ⟨far 0x200100, ?_, by unfold ContextAt; decide +kernel⟩, by decide +kernel⟩
  · rw [State.saveTile, show dieOf ((far 0x80000000).phys 0) = 0 by decide +kernel,
      State.frontTranslate_none 0 3 true z.links z.hbm (by decide +kernel : saveS.walk 3 ((far 0x80000000).launch.save + 0x200000 * 0) = none),
      if_neg (by decide : ¬2 ^ 52 ≤ (far 0x80000000).launch.save + 0x200000 * 0)]
    rfl
  · rw [State.saveTile, show dieOf ((far 8).phys 0) = 0 by decide +kernel, show (far 8).launch.save + 0x200000 * 0 = 8 by decide +kernel, witness_frontHeld]
  · rw [State.frontTranslate_leaf (wr := true) 0 3 z.links z.hbm (by decide) (by decide +kernel : saveS.walk 3 (far 0x200100).launch.save = some fullLeaf)
      (by decide), show (saveS.walked 0).leafTouched fullLeaf true = saveS.walked 0 from rfl,
      show fullLeaf.pa + (far 0x200100).launch.save % fullLeaf.size = 0x40200100 by decide, show bit fullLeaf.bits 4 = false by decide]

/-! ### Front ends, the lease, the mailbox -/

/-- A WAIT in progress at a slot boundary and 599 ticks after it; a deadline that has come and one that has not; the doorbell of a
queue this die leads, and of one die 3 leads; a drained leader. -/
theorem witness_QueueEvents :
    (let w := State.waitBytes 0 true 8 7 0xFF
     let s := queueS 1200 (aSlot 1 0 0 0 1200) (some 1000) w [] []
     s.qrun q57 = some ⟨q57, 0x3000000, some 1000, w, none, []⟩ ∧ QSlot.wddl (s.qslot 0x3000000) = 1200 ∧ QSlot.wddl (s.qslot 0x3000000) ≤ s.time
     ∧ s.time / 600 ≠ s.pkg.prev / 600 ∧ s.pkg.dreset.getLsbD 0 = false ∧ (s.die 0).fe.runs = [⟨q57, 0x3000000, some 1000, w, none, []⟩]
     ∧ (queueS 1199 [] none [] [] []).time / 600 = (queueS 1199 [] none [] [] []).pkg.prev / 600 ∧ (queueS 1199 [] none [] [] []).time < 1200)
    ∧ (let d : Die := { State.die0 with dbq := [(5, 7)] }
       let s (l : Nat) := queueS 1000 (aSlot 0 l 0 0 0) none [] [(0, d)] []
       ((s 0).walkQueue 5 7).map (fun m => (m.2, QSlot.leader (m.1.qslot m.2))) = some (0x3000000, 0)
       ∧ ((s 3).walkQueue 5 7).map (fun m => (m.2, QSlot.leader (m.1.qslot m.2))) = some (0x3000000, 3)
       ∧ (s 0).qrun q57 = none ∧ ((s 0).die 0).dbq = (5, 7) :: [] ∧ ((s 0).die 0).ovf = false ∧ ((s 0).die 0).fe.rescan = false
       ∧ ((s 0).die 0).fe.serve = [] ∧ (s 0).pkg.qen = true ∧ (s 3).isLeader 0 = false ∧ (s 0).lowestRunning = some 0 ∧ (s 0).dstate 0 = 0)
    ∧ (let s := queueS 1000 (aSlot 0 1 0 0 0) none [] [(1, { State.die0 with drain := true })] []
       (s.walkQueue 5 7).map (fun m => QSlot.leader (m.1.qslot m.2)) = some 1 ∧ s.dstate 1 = 2 ∧ s.lowestRunning = some 0
       ∧ s.qrun { q57 with die := 1 } = none)
    ∧ State.reset.pkg.qen = false := by decide +kernel

/-- A WAIT of queue 5.7 on the word at this virtual address, at a slot boundary. -/
abbrev waitS (va : DWord) : State := queueS 1200 (aSlot 1 0 0 0 2000) (some 1000) (State.waitBytes 0 true va 7 0xFF) [] []
/-- Its word is read, and the condition on it is met or not; its page is not mapped; a link holds the walk. -/
theorem witness_waitSlotCheck :
    (∀ va, (waitS va).qrun q57 = some ⟨q57, 0x3000000, some 1000, State.waitBytes 0 true va 7 0xFF, none, []⟩)
    ∧ PacketReady (waitS 8) q57 3 0x3000000 ∧ PacketReady (waitS 0x80000000) q57 3 0x3000000 ∧ (1200 : Nat) / 600 ≠ 1199 / 600
    ∧ (∃ m, (waitS 8).frontRead 0 3 8 8 = .ok (m, [0, 0, 0, 0, 0, 0, 0, 0]))
    ∧ pktMet 1 (BitVec.ofNat 64 (ofLe [0, 0, 0, 0, 0, 0, 0, 0]) &&& 0xFF) 7 ∧ ¬pktMet 0 (BitVec.ofNat 64 (ofLe [0, 0, 0, 0, 0, 0, 0, 0]) &&& 0xFF) 7
    ∧ (waitS 0x80000000).frontRead 0 3 0x80000000 8 = .error ((waitS 0x80000000).walked 0, some 0x0E)
    ∧ (let s : State := { waitS 8 with ctxs := [(3, ⟨true, 5, 0x1000000⟩)], links := [(16, { State.link0 with st := .training, portEn := true })] }
       PacketReady s q57 3 0x3000000 ∧ s.frontRead 0 3 8 8 = .error (s, none)) := by
  refine ⟨fun _ => rfl, ⟨⟨_, rfl, rfl⟩, by decide, by decide, State.addrHeld_down rfl _ _, by decide +kernel, by decide +kernel⟩,
    ⟨⟨_, rfl, rfl⟩, by decide, by decide, State.addrHeld_down rfl _ _, by decide +kernel, by decide +kernel⟩, by decide,
    ⟨((waitS 8).walked 0).leafTouched aLeaf false, ?_⟩, .inr (.inl ⟨rfl, by decide⟩), by unfold pktMet; decide, ?_,
    ⟨⟨_, rfl, rfl⟩, by decide, by decide, mesh_free _ (by decide) (by decide) (by decide +kernel), by decide +kernel, by decide +kernel⟩, ?_⟩
  · rw [State.frontRead_piece 0 3 (by decide) (by decide),
      State.frontPiece_leaf 0 3 rfl rfl (by decide) (by decide +kernel : (waitS 8).walk 3 8 = some aLeaf) (by decide) (by decide)]
    have : (((waitS 8).walked 0).leafTouched aLeaf false).physRead (0x40000000 + 8 % 0x40000000) 8 = [0, 0, 0, 0, 0, 0, 0, 0] := by decide +kernel
    rw [this]
  · rw [State.frontRead_piece 0 3 (by decide) (by decide), State.frontPiece,
      State.frontTranslate_none 0 3 false rfl rfl (by decide +kernel : (waitS 0x80000000).walk 3 0x80000000 = none)]
    rfl
  · have k : ∀ s : State, (∀ wr, s.frontTranslate 0 3 8 wr = .error (s, none)) → s.frontRead 0 3 8 8 = .error (s, none) := fun s h => by
      rw [State.frontRead_piece 0 3 (by decide) (by decide), State.frontPiece, h]
    refine k _ fun wr => ?_
    have k : State.addrHeld { waitS 8 with ctxs := [(3, ⟨true, 5, 0x1000000⟩)], links := [(16, { State.link0 with st := .training, portEn := true })] }
      (Config.dieSite 0) 0x10000000000 = true := port_holds _ (by decide +kernel : _ = some 0) (by decide +kernel)
    rw [State.frontTranslate, if_neg (by decide), if_pos (List.any_eq_true.2 ⟨_, List.mem_of_mem_head? (by decide +kernel : _ = some 0x10000000000), k⟩)]

/-- Two queues of die 0 in order, at a slot boundary, the second with a boundary that it missed while its QCB was held; neither held. -/
theorem witness_timerVisits :
    let z : QRun := ⟨⟨0, 5, 8⟩, 0x3000400, none, [], none, [600]⟩
    let s : State := { queueS 1200 (aSlot 1 0 0 0 0) none [] [] [] with
      dies := [(0, { State.die0 with fe := { State.fe0 with runs := [⟨q57, 0x3000000, none, [], none, []⟩, z] } })] }
    s.time / 600 ≠ s.pkg.prev / 600 ∧ s.pkg.dreset.getLsbD 0 = false ∧ (∀ y ∈ (s.die 0).fe.runs, y.q.die = 0)
    ∧ ((s.die 0).fe.runs.map (·.q)).Nodup
    ∧ ((s.die 0).fe.runs.map fun y => 256 * y.q.pasid.toNat + y.q.queue.toNat).Pairwise (· ≤ ·)
    ∧ (∀ y ∈ (idleQ.die 0).fe.runs, y.slots = []) := by decide +kernel
/-- No link holds a walk of the queue table; one does where the table lies behind a port that trains. -/
theorem queueHeld_down {s : State} (h : s.links = []) (d p q : Nat) : s.queueHeld d p q = false := by
  simp only [State.queueHeld, State.addrHeld_down h, Bool.false_or]
  split
  · rfl
  · split <;> rfl
theorem witness_queueHeld :
    idleQ.queueHeld 0 5 7 = false
    ∧ (let s : State := { idleQ with
         pkg := { State.pkg0 with qen := true, qtbase := 0x20000 }, links := [(16, { State.link0 with st := .training, portEn := true })] }
       s.queueHeld 0 5 7 = true) := by
  refine ⟨queueHeld_down rfl _ _ _, ?_⟩
  simp only [State.queueHeld, Bool.or_eq_true]
  exact .inl (port_holds _ (by decide +kernel : _ = some 0) (by decide +kernel))

/-- A queue served while QTBASE.EN is clear; the leader of a queue held in reset, and the lease holder that gives the queue away. -/
theorem witness_queueMoves :
    (queueS 1000 (aSlot 0 1 0 0 0) none [] [(0, { State.die0 with dbq := [(5, 7)] })] []).pkg.dreset.getLsbD 0 = false
    ∧ (let s : State := { queueS 1000 (aSlot 0 1 0 0 0) none [] [(0, { State.die0 with fe := { State.fe0 with lease := some 0x1000, acting := true } })] [] with
         pkg := { State.pkg0 with qen := true, qtbase := 1, dreset := 2 } }
       (s.walkQueue 5 7).map (fun m => QSlot.leader (m.1.qslot m.2)) = some 1 ∧ s.dstate 1 = 1 ∧ s.isLeader 0 = true ∧ s.lowestRunning = some 0) := by
  decide +kernel

/-- A die that holds the lease this word says, at a package time; the lease word in memory. -/
def leaseS (time : Nat) (held : Option DWord) (word : Nat) (drain : Bool) : State :=
  { State.reset with
    time := time, pkg := { State.pkg0 with prev := time - 1 }, mem := Mem.write [] 0 (leBytes 8 word)
    dies := [(1, { State.die0 with drain := drain, fe := { State.fe0 with lease := held, acting := true } })] }
/-- Held and as written; taken by another; drained; at its end and a tick before; the takeover slot of die 1, exactly 1 ms after
E, and a tick of another slot. -/
theorem witness_LeaseEvents :
    (leaseS 1600 none 0 false).pkg.leasepa.toNat * 8 + 8 ≤ 2 ^ 40 ∧ (leaseS 1600 none 0 false).pkg.dreset.getLsbD 1 = false
    ∧ ((leaseS 1600 (some 0x01000000000003E8) 0x01000000000003E8 false).die 1).fe.lease = some 0x01000000000003E8
    ∧ BitVec.ofNat 64 ((leaseS 1600 (some 0x01000000000003E8) 0x01000000000003E8 false).mem.num 0 8) = 0x01000000000003E8
    ∧ BitVec.ofNat 64 ((leaseS 1600 (some 0x01000000000003E8) 0x0200000000001000 false).mem.num 0 8) ≠ 0x01000000000003E8
    ∧ ((leaseS 1600 none 0 false).die 1).drain = false ∧ ((leaseS 1600 none 0 false).die 1).cur = 0 ∧ ((leaseS 1600 none 0 true).die 1).drain = true
    ∧ 16 * ((0x01000000000003E8 : DWord).toNat % 2 ^ 52) ≤ (leaseS 16000 none 0 false).time
    ∧ (leaseS 15999 none 0 false).time < 16 * ((0x01000000000003E8 : DWord).toNat % 2 ^ 52)
    ∧ (leaseS 606000 none 375 false).pkg.prev + 1 = (leaseS 606000 none 375 false).time ∧ (606000 : Nat) % 60000 = 6000 * 1
    ∧ 16 * ((BitVec.ofNat 64 ((leaseS 606000 none 375 false).mem.num 0 8)).toNat % 2 ^ 52) + 600000 ≤ (leaseS 606000 none 375 false).time
    ∧ (leaseS 605999 none 375 false).time < 16 * 375 + 600000 ∧ (606001 : Nat) % 60000 ≠ 6000 * 1 := by decide +kernel

/-- No link holds the lease word and its codeword is sound; it is lost; it lies behind links that train. -/
theorem witness_leaseReads :
    (∀ site a, (leaseS 1600 none 0 false).addrHeld site a = false) ∧ (leaseS 1600 none 0 false).hbm = []
    ∧ (({ leaseS 1600 none 0 false with hbm := [(0, true)] } : State).touchHbm 0 8).2 = some 0
    ∧ (let s : State := { leaseS 1600 none 0 false with pkg := { State.pkg0 with leasepa := 0x1C00000000 }, links := allTraining }
       s.pkg.leasepa.toNat * 8 = 0xE000000000 ∧ s.addrHeld (Config.dieSite 1) 0xE000000000 = true) :=
  ⟨fun _ _ => State.addrHeld_down rfl _ _, rfl, by decide +kernel, by decide +kernel,
    mesh_holds _ (by decide) (by decide +kernel) (by decide +kernel)⟩

/-- A leader whose mailbox at 0x1000 holds a request in this entry. -/
def mbxS (e code : Nat) (args : List Byte) (q : Part) (m : Mem) : State :=
  { State.reset with
    time := 1000, parts := [(0, q)], pkg := { State.pkg0 with boot := 10, mbxpa := 1, qtbase := 1, prev := 999 }
    dies := [(0, { State.die0 with fe := { State.fe0 with lease := some 0x1000, acting := true } })]
    mem := Mem.write m (0x1000 + 256 * e) (leBytes 4 1 ++ leBytes 4 code ++ leBytes 8 0 ++ args) }
theorem witness_MailboxRequests :
    Asked (mbxS 15 1 ([7, 3] ++ leBytes 2 1 ++ leBytes 4 0xFFFFFF ++ leBytes 8 0x200000 ++ leBytes 8 4096 ++ leBytes 8 0x400000) State.part0 []) 0 15 1
    ∧ Asked (mbxS 15 2 [7] State.part0 []) 0 15 2 ∧ Asked (mbxS 0 3 ([0, 0] ++ leBytes 2 63 ++ leBytes 4 1 ++ leBytes 8 0) State.part0 []) 0 0 3
    ∧ Asked (mbxS 0 4 ([255, 1, 0, 0] ++ leBytes 4 0xFFFFF ++ leBytes 8 0x10000) State.part0 []) 0 0 4
    ∧ Asked (mbxS 0 5 [3, 1] State.part0 []) 0 0 5
    ∧ Asked (mbxS 0 6 [0] { pOpen with v := true, launch := ⟨5, 7, 0, 0x200000, 0, true, false⟩ } []) 0 0 6
    ∧ Asked (mbxS 0 8 (leBytes 8 0) State.part0 []) 0 0 8
    ∧ (let s := mbxS 0 7 ([7, 0, 0, 0] ++ leBytes 4 5) State.part0 (Mem.write (Mem.write [] 0x800028 (leBytes 8 0x2000003)) 0x2000038 (leBytes 8 0x3000003))
       Asked s 0 0 7 ∧ (s.walkQueue 5 7).map (·.2) = some 0x3000000 ∧ s.walkQueue 5 8 = none)
    ∧ (mbxS 0 6 [0] pOpen []).isLeader 0 = true ∧ (mbxS 0 6 [0] pOpen []).isLeader 1 = false ∧ (mbxS 0 6 [0] pOpen []).pkg.boot = 10
    ∧ ((mbxS 0 6 [0] pOpen []).die 0).fe.inval = none ∧ mailboxCode (.attest 0 15) = some (0, 15, 8)
    ∧ (∀ k, k < 15 → (mbxS 15 2 [7] State.part0 []).physNum ((mbxS 15 2 [7] State.part0 []).mbxAt k) 4
        = (mbxS 15 2 [7] State.part0 []).physNum ((mbxS 15 2 [7] State.part0 []).mbxAt k + 8) 4)
    ∧ (mbxS 15 2 [7] State.part0 []).physNum ((mbxS 15 2 [7] State.part0 []).mbxAt 15 + 4) 1 = 2
    ∧ (mbxS 0 8 (leBytes 8 0) State.part0 []).mbxAt 15 + 256 ≤ 2 ^ 40 ∧ State.part0.active = false
    ∧ (mbxS 0 8 (leBytes 48 0 ++ leBytes 8 (2 ^ 40 - 0x2E8)) State.part0 []).physNum (0x1010 + 48) 8 + 0x2E8 = 2 ^ 40
    ∧ (2 ^ 40 - 0x2E8) % 8 = 0 ∧ (mbxS 0 8 (leBytes 48 0 ++ leBytes 8 (2 ^ 40 - 0x2E8)) State.part0 []).storeRefused (2 ^ 40 - 0x2E8) 0x2E8 = false := by
  and_intros <;> first | decide +kernel | exact State.addrHeld_down rfl _ _ | nofun
/-- What MAILBOX_SCAN is asked for in entry 15: codes that name no command, DESTROY, and PREEMPT of a partition that saves and of one
that does not. -/
theorem witness_mailboxScan :
    Asked (mbxS 15 0 [] State.part0 []) 0 15 0 ∧ Asked (mbxS 15 9 [] State.part0 []) 0 15 9 ∧ Asked (mbxS 15 2 [7] State.part0 []) 0 15 2
    ∧ (let s := mbxS 15 6 [0] { pOpen with v := true, launch := ⟨5, 7, 0, 0x200000, 0, true, false⟩ } []
       Asked s 0 15 6 ∧ (s.part 0).v = true ∧ (s.part 0).launch.save ≠ 0 ∧ (s.part 0).st = .open_
       ∧ ∀ k, k < 15 → s.physNum (s.mbxAt k) 4 = s.physNum (s.mbxAt k + 8) 4)
    ∧ (let s := mbxS 15 6 [8] State.part0 []; Asked s 0 15 6 ∧ (s.part 0).launch.save = 0) := by
  and_intros <;> first | decide +kernel | exact State.addrHeld_down rfl _ _ | nofun

/-- The other forms of requests: MAP of SC granules, without an owner, of none; CONTEXT and INVAL of one page at their limits; INVAL of an
entry that a copy uses; DESTROY of partition 8; PREEMPT of one that is idle; a lost entry; a mailbox behind links that
train. -/
theorem witness_requestForms :
    Asked (mbxS 0 3 ([0, 1] ++ leBytes 2 0 ++ leBytes 4 2 ++ leBytes 8 0x200000) State.part0 []) 0 0 3
    ∧ Asked (mbxS 0 3 ([0, 0] ++ leBytes 2 0xFFFF ++ leBytes 4 0 ++ leBytes 8 (2 ^ 52)) State.part0 []) 0 0 3
    ∧ Asked (mbxS 0 4 ([255, 1, 0, 0] ++ leBytes 4 0x100000 ++ leBytes 8 (2 ^ 44 - 0x10000)) State.part0 []) 0 0 4
    ∧ Asked (mbxS 0 5 ([3, 0] ++ leBytes 6 0 ++ leBytes 8 (2 ^ 52 - 1)) State.part0 []) 0 0 5
    ∧ Asked (mbxS 0 5 ([3, 0] ++ leBytes 6 0 ++ leBytes 8 (2 ^ 52)) State.part0 []) 0 0 5
    ∧ Asked (mbxS 0 2 [8] State.part0 []) 0 0 2 ∧ Asked (mbxS 0 6 [0] { State.part0 with v := true } []) 0 0 6
    ∧ (let s : State := mbxS 0 5 [3, 1] State.part0 []
       let x : TluEnt := ⟨9, 3, 0, 0x10000, 0x2000000, true, true, true⟩
       let u : State := { s with
         dies := [(0, { s.die 0 with tlu := [x] })], copies := [{ copyIn .left with pages := [(0, 0x10000, 0x2000000, true, 9)] }] }
       x ∈ (u.die 0).tlu ∧ x.ctx = u.physNum (u.mbxAt 0 + 16) 1 ∧ ∃ c ∈ u.copies, ∃ y ∈ c.pages, y.2.2.2.2 = x.id)
    ∧ (({ mbxS 0 5 [3, 1] State.part0 [] with hbm := [(0x1000 / 32, true)] } : State).touchHbm 0x1000 256).2 ≠ none
    ∧ ((mbxS 0 6 [0] pOpen []).die 0).fe.scan = false
    ∧ (let s : State := { mbxS 0 5 [3, 1] State.part0 [] with
         pkg := { State.pkg0 with boot := 10, mbxpa := 0xE000000 }, links := allTraining }
       s.addrHeld (Config.dieSite 0) (s.mbxAt 0) = true) := by
  and_intros
  all_goals first
    | decide +kernel
    | exact State.addrHeld_down rfl _ _
    | exact mesh_holds _ (by decide) (by decide +kernel) (by decide +kernel)
    | exact fun _ => nofun
/-- A directory entry that names a leaf, one that names none while leaf 0 is free, a full pool, reserved bits, a leaf entry of a state that
does not exist. -/
theorem witness_MapGranule :
    (let s := granule 0 0 0 0 0
     let q := s.part 0
     s.physNum (0x200000 * q.rgn.toNat) 8 = 2 ^ 63 ∧ q.nleaf.toNat = 1 ∧ s.hbm = [] ∧ s.physNum (0x200000 * q.rgn.toNat + 8 * 65535) 8 = 0
     ∧ (∃ i, i < 65536 ∧ s.physNum (0x200000 * q.rgn.toNat + 8 * i) 8 = 2 ^ 63 + 0) ∧ 0x200000 % 0x200000 = 0 ∧ 2 ^ 52 - 0x200000 < 2 ^ 52
     ∧ ¬(3 < s.physNum 0x280000 8 / 2 ^ 59 % 8 ∨ 64 * q.diesOf.length ≤ s.physNum 0x280000 8 / 2 ^ 50 % 512 ∧ q.diesOf ≠ []))
    ∧ (let s : State := { granule 4 0 0 0 0 with mem := Mem.write (granule 4 0 0 0 0).mem 0x200001 [0x10] }
       3 < s.physNum 0x280000 8 / 2 ^ 59 % 8 ∧ s.physNum 0x200000 8 / 2 ^ 12 % 2 ^ 51 ≠ 0) := by
  refine ⟨⟨by decide +kernel, by decide +kernel, rfl, by decide +kernel, ⟨0, by decide, by decide +kernel⟩, by decide, by decide,
    by decide +kernel⟩, by decide +kernel⟩

/-! ### The machine as a whole -/

/-- Opcodes one above the maps, and one that is a gap; an extension word of another tag and one with ring bits. -/
theorem witness_WordsRead :
    (0x03E00000 : Word).toNat / 2 ^ 20 % 64 = 0x3E ∧ (0x03E00000 : Word).toNat / 2 ^ 30 = 0 ∧ (0x41F00000 : Word).toNat / 2 ^ 20 % 64 = 0x1F
    ∧ (0x41F00000 : Word).toNat / 2 ^ 30 = 1 ∧ 2 ≤ headLength 0x40000000 ∧ (0 : Word).toNat / 2 ^ 30 ≠ 1 ∧ (0x44000000 : Word).toNat / 2 ^ 26 % 16 ≠ 0
    ∧ 3 ≤ headLength 0xC0000000 ∧ (0x03FFFFFF : Word).toNat / 2 ^ 26 = 0 ∧ 16 ≤ (0x40000000 : Word).toNat / 2 ^ 26 ∧ (0x07C00000 : Word).toNat / 2 ^ 26 % 16 ≠ 0
    ∧ (0x07C00000 : Word).toNat / 2 ^ 20 % 64 = 0x3C ∧ (0x03E00000 : Word) ≠ 0xFFFFFFFF := by decide +kernel
theorem witness_EncodeDecode :
    Instr.wf (.add r0 3 1 2) = true ∧ seqInstr .shalt = true ∧ Instr.wf .shalt = true ∧ seqInstr (.add r0 3 1 2) = false
    ∧ encode (.add r0 3 1 2) ≠ .none := by decide +kernel
theorem witness_DecodeEncode : decodeText 0x00100000 0 0 = .ok (.add r0 0 0 0) ∧ decodeSeq 0x3C000000 = .ok .shalt := by decide +kernel

/-- The turns of an engine at a word, at the end of the text, at an illegal word; of the sequencer; of a frozen tile; of a core; an
outside event. -/
def turnS (e : Eng) (w : Word) (n : Nat) (frozen : Bool) : State :=
  { onTile e { t0 with stop := { State.stop0 with frozen := frozen }
                       store := { State.store0 with text := [(0, w)], textLen := n, seq := [(0, w)], seqLen := n } } with
    agenda := [.issue (.eng 0 e)] }
theorem witness_StepRunsDecoded :
    (turnS .ctl 0x00100000 1 false).agenda = .issue (.eng 0 .ctl) :: [] ∧ ((turnS .ctl 0x00100000 1 false).tile 0).stop.frozen = false
    ∧ ((turnS .ctl 0x00100000 1 false).tile 0).store.textAt 0 = 0x00100000 ∧ 0 + headLength 0x00100000 ≤ ((turnS .ctl 0x00100000 1 false).tile 0).store.textLen
    ∧ decodeText 0x00100000 0 0 = .ok (.add r0 0 0 0) ∧ (decodeText 0x03F00000 0 0).toOption = none
    ∧ ((turnS .ctl 0x00100000 0 false).tile 0).store.textLen < 0 + headLength 0x00100000
    ∧ ((turnS .tsq 0x3C000000 1 false).tile 0).store.seqAt 0 = 0x3C000000 ∧ decodeSeq 0x3C000000 = .ok .shalt ∧ (decodeSeq 0).toOption = none
    ∧ ((turnS .ctl 0 1 true).tile 0).stop.frozen = true
    ∧ (let f : Fwc := { f0 with pc := 24576, inst := true, patchLen := 1, sram := Mem.write [] 0x38000 (leBytes 4 0xFFEFFFFF) }
       let s : State := { onCore f with agenda := [.issue (.fwc 0)] }
       State.fwcText (s.fwc 0) (s.fwc 0).pc = 0x00100000 ∧ (s.fwc 0).pc + headLength 0x00100000 ≤ (s.fwc 0).codeEnd
       ∧ s.agenda = .issue (.fwc 0) :: [])
    ∧ ({ State.reset with agenda := [.ev .functionLevelReset] } : State).agenda = .ev .functionLevelReset :: [] := by decide +kernel

theorem witness_StepKeepsInvariant : State.reset.ok ∧ ∃ s', step State.reset = .next s' :=
  ⟨⟨by decide, fun _ => ⟨⟨rfl, rfl, rfl, rfl⟩, ⟨rfl, rfl⟩, (by decide : (0xF81F#32 &&& 0xFFFF07E0#32 : Word) = 0#32), fun _ => (by decide : (0#64 &&& 0xF00000000003F800#64 : DWord) = 0#64)⟩, fun _ => ⟨rfl, ⟨rfl, rfl⟩, Nat.zero_lt_succ _, Nat.zero_lt_succ _⟩⟩, _, rfl⟩
theorem witness_StepKeepsMemory : State.reset.memoryOk ∧ ∃ s', step State.reset = .next s' := ⟨by decide, _, rfl⟩

theorem witness_IssueFrame : Eng.ctl ≠ .tsq ∧ r0.sp = false ∧ r0.ss = false ∧ (Eff.of []).next = none := by decide

theorem witness_IssueChecks :
    (onTile .ctl t0).cur = .eng 0 .ctl ∧ t0.tokens .ctl ⟨true, false, false, false⟩ = false ∧ t0.tokens .ctl r0 = true
    ∧ ({ t0 with ctl := { State.ctl0 with guard := some ⟨0, false⟩ }, pctl := { State.pos0 with pc := 1 } } : Tile).guardFalse .ctl = true
    ∧ phaseRule (.realign r0) = some (.ctl, r0, 1) ∧ phaseRule (.xarm r0 0) = some (.xp, r0, 0) ∧ t0.seat.phase % 2 ≠ 1
    ∧ arrayRule (.tmac r0 2 0 .m16 15 .s8 false sem0) = some (r0, none) ∧ arrayRule (.tcal r0 63 sem0) = some (r0, some (sem0, 1))
    ∧ arrayRule (.tdrain r0 sem0) = some (r0, some (sem0, 0)) ∧ sequencerRule .shalt = true ∧ (onTile .tsq (inPhase 1)).cur = .eng 0 .tsq
    ∧ 16 ≤ (queued 16 t0).tda.queue.length + (queued 16 t0).tda.runs.length ∧ ¬waitMet t0 ⟨true, 0, false, 0⟩
    ∧ (inPhase 1).seat.phase % 2 ≠ 0 ∧ (⟨true, false, false, false⟩ : Ring) ≠ Ring.none ∧ (onCore f0).cur = .fwc 0 := by decide +kernel

/-- A tile that is not frozen, in an OPEN and in an EXTENDED partition; a log with room for one entry more, and a full one. -/
theorem witness_TrapTaken :
    t0.stop.frozen = false ∧ t0.ctl.guard = none ∧ ((partS 50 pOpen t0).tile 0).seat.part = some 0 ∧ ((partS 50 pOpen t0).part 0).st = .open_
    ∧ ((partS 50 pExt t0).part 0).st = .extended
    ∧ ((partS 50 pArmed t0).part 0).st = .armed ∧ ((partS 0 pOpen t0).part 0).since = (partS 0 pOpen t0).ticks ∧ (onTile .ctl t0).part 0 = State.part0
    ∧ ((partS 50 pOpen t0).part 0).since ≠ (partS 50 pOpen t0).ticks ∧ ((partS 50 pExt t0).part 0).since ≠ (partS 50 pExt t0).ticks
    ∧ (let z : Die := { State.die0 with logNow := [(5, State.log0)], logWr := 511, logRd := 256 }
       z.logNow = [(5, State.log0)] ∧ (z.logWr + 512 - z.logRd) % 512 = 255 ∧ 256 ≤ (0 + 512 - z.logRd) % 512) := by decide +kernel

/-- Entries of one tick enter the log in R376's order: tile slot 5, copy engine 3, the firmware core. -/
theorem test_log_order :
    logRank 0x02 0 5 0 < logRank 0x0F 5 63 3 ∧ logRank 0x0F 5 63 3 < logRank 0x25 6 0 4 ∧ logRank 0x25 6 0 4 < logRank 0x24 6 0 0
    ∧ (let e (v : DWord) : LogEnt := ⟨v, 0, 0, 0⟩
       let z := ({ State.die0 with logNow := [(77, e 3), (5, e 1), (67, e 2)] } : Die).writeLog
       z.logWr = 3 ∧ z.log = [(0, e 1), (1, e 2), (2, e 3)]) := by decide +kernel

end Sys2Proof.Tests
end

section
/-! PROOF. Encode of decode (O54): the fields of a word, the field codes, and one theorem for each map of 06 to 10 (R132-R147). -/

namespace Sys2Proof.Proofs

/-! ### The fields of a word -/

/-- Two fields side by side are one field. -/
theorem fld_append (w : Word) (lo m n : Nat) : fld w (lo + n) m ++ fld w lo n = fld w lo (m + n) := by
  apply BitVec.eq_of_getLsbD_eq
  intro k hk
  simp only [fld, BitVec.getLsbD_append, BitVec.getLsbD_extractLsb', hk]
  split
  · simp [*]
  · rw [decide_eq_true (show k - n < m by omega), show lo + n + (k - n) = lo + k by omega]; simp

theorem eq_fld_of_parts {m n : Nat} {x : BitVec m} {y : BitVec n} {w : Word} {lo : Nat}
    (hx : x = fld w (lo + n) m) (hy : y = fld w lo n) : x ++ y = fld w lo (m + n) := by
  rw [hx, hy, fld_append]

theorem fld_whole (w : Word) : fld w 0 32 = w := by
  apply BitVec.eq_of_getLsbD_eq; intro k hk; simp [fld, hk]

theorem ofBool_bitAt (w : Word) (i : Nat) : BitVec.ofBool (bitAt w i) = fld w i 1 := by
  apply BitVec.eq_of_getLsbD_eq; intro k hk
  have : k = 0 := by omega
  subst this
  simp [fld, bitAt]

theorem toBits_ofWord (w : Word) : (Ring.ofWord w).toBits = fld w 26 4 := by
  simp only [Ring.toBits, Ring.ofWord, ofBool_bitAt]
  exact eq_fld_of_parts (eq_fld_of_parts (eq_fld_of_parts rfl rfl) rfl) rfl

theorem headW_eq {w : Word} {tag : BitVec 2} {h : Ring} {op : BitVec 6} {f : BitVec 20} (ht : tagOf w = tag) (hh : Ring.ofWord w = h)
    (ho : opOf w = op.toNat) (hf : f = fld w 0 20) : headW tag h op f = w := by
  subst ht hh hf
  conv_rhs => rw [← fld_whole w]
  have : op = fld w 20 6 := by apply BitVec.eq_of_toNat_eq; exact ho.symm
  unfold headW
  exact eq_fld_of_parts (eq_fld_of_parts (eq_fld_of_parts rfl (toBits_ofWord w)) this) rfl

theorem extW_eq {w e : Word} {tag : BitVec 2} {f : BitVec 26} (ht : tagOf w = tag) (he : extOk w e = true)
    (hf : f = fld e 0 26) : extW tag f = e := by
  simp only [extOk, Bool.and_eq_true, beq_iff_eq] at he
  subst ht hf
  conv_rhs => rw [← fld_whole e]
  unfold extW
  exact eq_fld_of_parts (eq_fld_of_parts he.1.symm he.2.symm) rfl

/-- The words `ws` are the first ones of `w`, `e1`, `e2`, as many as the head `w` fixes (R133). -/
def Spells (w e1 e2 : Word) (ws : Words) : Prop := ws.toList = [w, e1, e2].take (headLength w)

section
variable {w e1 e2 : Word} {tag : BitVec 2} {h : Ring} {op : BitVec 6} {f : BitVec 20} {p q : BitVec 26}

/-! Words of one format are the words at hand when their fields are. -/

theorem headLength_of_headW (n : Nat) (hw : headW tag h op f = w) (hl : headLength (headW tag Ring.none op 0) = n) : headLength w = n := by
  rw [← hw, Laws.Enc.headLength_headW, hl]

theorem spells_one (ht : tagOf w = tag) (hh : Ring.ofWord w = h) (ho : opOf w = op.toNat)
    (hl : headLength (headW tag Ring.none op 0) = 1) (hf : f = fld w 0 20) : Spells w e1 e2 (.one (headW tag h op f)) := by
  have hw := headW_eq ht hh ho hf
  rw [Spells, headLength_of_headW 1 hw hl, hw]
  rfl

theorem spells_two (ht : tagOf w = tag) (hh : Ring.ofWord w = h) (ho : opOf w = op.toNat)
    (hl : headLength (headW tag Ring.none op 0) = 2) (hf : f = fld w 0 20) (he : 2 ≤ headLength w → extOk w e1 = true)
    (hp : p = fld e1 0 26) : Spells w e1 e2 (.two (headW tag h op f) (extW tag p)) := by
  have hw := headW_eq ht hh ho hf
  have hn := headLength_of_headW 2 hw hl
  rw [Spells, hn, hw, extW_eq ht (he (by omega)) hp]
  rfl

theorem spells_three (ht : tagOf w = tag) (hh : Ring.ofWord w = h) (ho : opOf w = op.toNat)
    (hl : headLength (headW tag Ring.none op 0) = 3) (hf : f = fld w 0 20) (he1 : 2 ≤ headLength w → extOk w e1 = true)
    (he2 : 3 ≤ headLength w → extOk w e2 = true) (hp : p = fld e1 0 26) (hq : q = fld e2 0 26) :
    Spells w e1 e2 (.three (headW tag h op f) (extW tag p) (extW tag q)) := by
  have hw := headW_eq ht hh ho hf
  have hn := headLength_of_headW 3 hw hl
  rw [Spells, hn, hw, extW_eq ht (he1 (by omega)) hp, extW_eq ht (he2 (by omega)) hq]
  rfl
end

end Sys2Proof.Proofs

namespace Sys2Proof

/-! ### Field codes: what is read is what is written -/

theorem Rnd.ofBits?_eq_some (b : BitVec 3) (r : Rnd) : Rnd.ofBits? b = some r ↔ r.toBits = b := by
  cases r <;> revert b <;> decide

theorem VCond.ofBits?_eq_some (b : BitVec 5) (c : VCond) : VCond.ofBits? b = some c ↔ c.toBits = b := by
  cases c <;> revert b <;> decide

theorem RedOp.ofBits?_eq_some (b : BitVec 5) (o : RedOp) : RedOp.ofBits? b = some o ↔ o.toBits = b := by
  cases o <;> revert b <;> decide

theorem ScanOp.ofBits?_eq_some (b : BitVec 2) (o : ScanOp) : ScanOp.ofBits? b = some o ↔ o.toBits = b := by
  cases o <;> revert b <;> decide

theorem BlkFmt.ofBits?_eq_some (b : BitVec 4) (six : Bool) (f : BlkFmt) : BlkFmt.ofBits? b six = some f ↔ f.toBits = b ∧ f.isSix = six := by
  cases f <;> revert b six <;> decide

theorem SixFmt.ofBits?_eq_some (b : BitVec 4) (f : SixFmt) : SixFmt.ofBits? b = some f ↔ f.toBits = b := by
  cases f <;> revert b <;> decide

theorem TFmt.ofNat?_eq_some (b : BitVec 3) (f : TFmt) : TFmt.ofNat? b.toNat = some f ↔ f.toBits = b := by
  cases f <;> revert b <;> decide

theorem TFmt.ofNat?_fld (w : Word) (lo : Nat) (f : TFmt) :
    TFmt.ofNat? (fld w lo 4).toNat = some f ↔ fld w (lo + 3) 1 = 0#1 ∧ f.toBits = fld w lo 3 := by
  rw [← Proofs.fld_append w lo 1 3]
  generalize fld w (lo + 3) 1 = a
  generalize fld w lo 3 = b
  revert a b
  cases f <;> decide

theorem MSize.ofBits?_eq_some (b : BitVec 2) (m : MSize) : MSize.ofBits? b = some m ↔ m.toBits = b := by
  cases m <;> revert b <;> decide

theorem KeyType.ofBits?_eq_some (b : BitVec 3) (k : KeyType) : KeyType.ofBits? b = some k ↔ k.toBits = b := by
  cases k <;> revert b <;> decide

theorem SlotSize.ofBits?_eq_some (b : BitVec 2) (t : SlotSize) : SlotSize.ofBits? b = some t ↔ t.toBits = b := by
  cases t <;> revert b <;> decide

theorem EType.toBits_ofBits : ∀ b : BitVec 4, (EType.ofBits b).toBits = b := by decide

theorem EType.ofBits_eq_f32 : ∀ b : BitVec 4, EType.ofBits b = .f32 ↔ b = 0#4 := by decide

theorem Opnd.ofBits?_toBits (d : Opnd) : Opnd.ofBits? d.toBits = some d := by
  cases d with
  | main v i => revert v i; decide
  | ofile e => revert e; decide
  | latch l => cases l <;> rfl
  | const c => revert c; decide
  | ring => rfl

theorem Opnd.ofBits?_eq_some (b : BitVec 8) (d : Opnd) : Opnd.ofBits? b = some d ↔ d.toBits = b := by
  have back : ∀ b : BitVec 8, ∀ d ∈ Opnd.ofBits? b, d.toBits = b := by decide +kernel
  exact ⟨back b d, fun h => h ▸ Opnd.ofBits?_toBits d⟩

theorem partOf_eq_some (d : Opnd) (n : BitVec 4) : partOf d = some n ↔ partBits n = d.toBits := by
  cases d with
  | const c => revert c n; decide +kernel
  | main v i => revert v i n; decide +kernel
  | ofile e => revert e n; decide +kernel
  | latch l => cases l <;> revert n <;> decide
  | ring => revert n; decide

end Sys2Proof

namespace Sys2Proof.Proofs

/-! ### Parts of fields -/

theorem getLsbD_fld (w : Word) (lo n i : Nat) (hi : i < n) : (fld w lo n).getLsbD i = bitAt w (lo + i) := by
  simp [fld, bitAt, hi]

theorem extractLsb'_fld (w : Word) (lo n a k : Nat) (hk : a + k ≤ n) : (fld w lo n).extractLsb' a k = fld w (lo + a) k := by
  apply BitVec.eq_of_getLsbD_eq
  intro j hj
  simp [fld, hj, show a + j < n by omega, Nat.add_assoc]

theorem extractLsb'_append_high {m n : Nat} (x : BitVec m) (y : BitVec n) : (x ++ y).extractLsb' n m = x := by
  apply BitVec.eq_of_getLsbD_eq
  intro k hk
  simp [BitVec.getLsbD_append, hk]

theorem extractLsb'_append_low {m n : Nat} (x : BitVec m) (y : BitVec n) : (x ++ y).extractLsb' 0 n = y := by
  apply BitVec.eq_of_getLsbD_eq
  intro k hk
  simp [BitVec.getLsbD_append, hk]

theorem toNat_fld (w : Word) (lo n : Nat) : (fld w lo n).toNat = w.toNat / 2 ^ lo % 2 ^ n := by
  simp [fld, BitVec.extractLsb'_toNat, Nat.shiftRight_eq_div_pow]

theorem bitAt_eq_true (w : Word) (i : Nat) : bitAt w i = true ↔ fld w i 1 = 1#1 := by
  rw [← ofBool_bitAt]; cases bitAt w i <;> decide

theorem bitAt_eq_false (w : Word) (i : Nat) : bitAt w i = false ↔ fld w i 1 = 0#1 := by
  rw [← ofBool_bitAt]; cases bitAt w i <;> decide

theorem bitAt_iff (w : Word) (i : Nat) : bitAt w i = true ↔ w.toNat / 2 ^ i % 2 = 1 := by
  rw [bitAt_eq_true, ← BitVec.toNat_inj, toNat_fld]; rfl

/-! ### What a map reads -/

/-- Whatever the decoder reads satisfies `P`. -/
def Reads (P : Instr → Prop) (o : Option Instr) : Prop := ∀ i, o = some i → P i

@[simp] theorem reads_none (P : Instr → Prop) : Reads P none ↔ True := by simp [Reads]
@[simp] theorem reads_some (P : Instr → Prop) (i : Instr) : Reads P (some i) ↔ P i := by simp [Reads]
@[simp] theorem reads_guardZ (P : Instr → Prop) (b : Bool) (i : Instr) : Reads P (guardZ b i) ↔ (b = true → P i) := by
  unfold guardZ; split <;> simp [*]
@[simp] theorem reads_bind {α : Type} (P : Instr → Prop) (o : Option α) (f : α → Option Instr) :
    Reads P (o.bind f) ↔ ∀ a, o = some a → Reads P (f a) := by
  cases o <;> simp
theorem reads_ite (P : Instr → Prop) (c : Prop) [Decidable c] (a b : Option Instr) :
    Reads P (if c then a else b) ↔ (c → Reads P a) ∧ (¬ c → Reads P b) := by
  split <;> simp [*]

section
variable {w e1 e2 : Word}

/-! ### The maps -/

/-- The format of a two-word VU instruction (R137). -/
theorem spells_vuW {h : Ring} {op : BitVec 6} {d a : BitVec 8} {ty : BitVec 4} {b c : BitVec 8} {rnd : BitVec 3} {sat mk : Bool}
    {fn : BitVec 5} (ht : tagOf w = 1) (he : 2 ≤ headLength w → extOk w e1 = true) (hh : Ring.ofWord w = h) (ho : opOf w = op.toNat)
    (hl : headLength (headW 1 Ring.none op 0) = 2) (hd : d = fld w 12 8) (ha : a = fld w 4 8) (hty : ty = fld w 0 4)
    (hb : b = fld e1 18 8) (hc : c = fld e1 10 8) (hr : rnd = fld e1 7 3) (hs : BitVec.ofBool sat = fld e1 6 1)
    (hm : BitVec.ofBool mk = fld e1 5 1) (hf : fn = fld e1 0 5) : Spells w e1 e2 (vuW h op d a ty b c rnd sat mk fn) :=
  spells_two ht hh ho hl (eq_fld_of_parts (eq_fld_of_parts hd ha) hty) he
    (eq_fld_of_parts (eq_fld_of_parts (eq_fld_of_parts (eq_fld_of_parts (eq_fld_of_parts hb hc) hr) hs) hm) hf)

/-- The VU's two-word instructions (R187): each arm's fields, those it uses and those it requires to be zero, make up both words. -/
theorem reads_vu2 (d a b c : Opnd) (r : Rnd) (ht : tagOf w = 1) (he : 2 ≤ headLength w → extOk w e1 = true)
    (hd : d.toBits = fld w 12 8) (ha : a.toBits = fld w 4 8) (hb : b.toBits = fld e1 18 8) (hc : c.toBits = fld e1 10 8)
    (hr : r.toBits = fld e1 7 3) : Reads (fun i => Spells w e1 e2 (encode i)) (decodeVu2 w e1 d a b c r) := by
  unfold decodeVu2
  dsimp only
  split
  all_goals simp (disch := decide) only [reads_bind, reads_none, reads_guardZ, reads_ite, Bool.and_eq_true, beq_iff_eq, and_imp,
    Bool.not_eq_true', getLsbD_fld, extractLsb'_fld, bitAt_eq_false, VCond.ofBits?_eq_some, RedOp.ofBits?_eq_some, ScanOp.ofBits?_eq_some,
    BlkFmt.ofBits?_eq_some, SixFmt.ofBits?_eq_some, EType.ofBits_eq_f32, partOf_eq_some, Nat.reduceAdd, implies_true, and_true]
  case h_47 => -- VSEED, by FN
    intros
    split
    all_goals simp only [reads_none, reads_some]
    all_goals refine spells_vuW ht he rfl ‹_› (by decide) ?_ ?_ ?_ ?_ ?_ ?_ ?_ ?_ (BitVec.eq_of_toNat_eq (Eq.symm ‹_›))
    all_goals simp [*]
  all_goals intros
  all_goals repeat' apply And.intro
  all_goals intros
  all_goals refine spells_vuW ht he rfl ‹_› (by decide) ?_ ?_ ?_ ?_ ?_ ?_ ?_ ?_ ?_
  all_goals simp [*, ofBool_bitAt, EType.toBits_ofBits]
  all_goals repeat' apply eq_fld_of_parts
  all_goals simp [*]

/-- The VU map (R143). -/
theorem reads_vu (ht : tagOf w = 1) (he : 2 ≤ headLength w → extOk w e1 = true) :
    Reads (fun i => Spells w e1 e2 (encode i)) (decodeVu w e1) := by
  unfold decodeVu
  dsimp only
  split
  case h_5 => -- two words
    simp only [reads_bind, Opnd.ofBits?_eq_some, Rnd.ofBits?_eq_some]
    exact fun d hd a ha b hb c hc r hr => reads_vu2 d a b c r ht he hd ha hb hc hr
  all_goals simp only [reads_guardZ, beq_iff_eq]
  all_goals intros
  all_goals refine spells_one ht rfl ‹_› (by decide) ?_
  case h_3 => exact eq_fld_of_parts rfl (Eq.symm ‹_›)
  all_goals exact Eq.symm ‹_›

theorem SemF.toBits_ofWord (w : Word) : (SemF.ofWord w).toBits = fld w 16 10 := by
  simp only [SemF.toBits, SemF.ofWord, ofBool_bitAt]
  exact eq_fld_of_parts (eq_fld_of_parts (eq_fld_of_parts rfl rfl) rfl) rfl

/-- The format of a two-word TDA instruction (R139, R215). -/
theorem spells_tdaW {h : Ring} {op : BitVec 6} {f : BitVec 20} {s : SemF} {x : BitVec 16} (ht : tagOf w = 2)
    (he : 2 ≤ headLength w → extOk w e1 = true) (hh : Ring.ofWord w = h) (ho : opOf w = op.toNat)
    (hl : headLength (headW 2 Ring.none op 0) = 2) (hf : f = fld w 0 20)
    (hs : SemF.ofWord e1 = s) (hx : x = fld e1 0 16) : Spells w e1 e2 (tdaW h op f s x) :=
  spells_two ht hh ho hl hf he (eq_fld_of_parts (hs ▸ SemF.toBits_ofWord e1) hx)

/-- The races share their fields (R232). -/
theorem spells_raceW {h : Ring} {op : BitVec 6} {d a : Opnd} {rows : BitVec 4} {kt : KeyType} {q dir : Bool} {km1 : BitVec 6} {s : SemF}
    (ht : tagOf w = 2) (he : 2 ≤ headLength w → extOk w e1 = true)
    (hh : Ring.ofWord w = h) (ho : opOf w = op.toNat) (hl : headLength (headW 2 Ring.none op 0) = 2) (hd : d.toBits = fld w 12 8)
    (ha : a.toBits = fld w 4 8) (hr : rows = fld w 0 4) (hs : SemF.ofWord e1 = s) (hk : kt.toBits = fld e1 12 3)
    (hq : BitVec.ofBool q = fld e1 15 1) (hdir : BitVec.ofBool dir = fld e1 11 1) (hkm : km1 = fld e1 5 6) (hz : fld e1 0 5 = 0#5) :
    Spells w e1 e2 (raceW h op d a rows kt q dir km1 s) :=
  spells_tdaW ht he hh ho hl (eq_fld_of_parts (eq_fld_of_parts hd ha) hr) hs
    (eq_fld_of_parts (eq_fld_of_parts (eq_fld_of_parts (eq_fld_of_parts hq hk) hdir) hkm) hz.symm)

/-- The TDA map (R144). -/
theorem reads_tda (ht : tagOf w = 2) (he : 2 ≤ headLength w → extOk w e1 = true) :
    Reads (fun i => Spells w e1 e2 (encode i)) (decodeTda w e1) := by
  unfold decodeTda
  dsimp only
  split
  case h_10 => -- the races
    simp only [reads_ite, reads_bind, reads_none, Opnd.ofBits?_eq_some, KeyType.ofBits?_eq_some]
    refine ⟨fun _ => trivial, fun hop d hd a ha k hk => ?_⟩
    simp only [Bool.or_eq_true, decide_eq_true_eq, not_or, not_lt] at hop
    split
    case' h_6 n8 n9 n10 n11 n12 => have hop : opOf w = 0x0D := by grind
    all_goals simp only [reads_guardZ, Bool.and_eq_true, beq_iff_eq, and_imp, Bool.not_eq_true', bitAt_eq_false]
    all_goals intros
    all_goals refine spells_raceW ht he rfl ‹_› (by decide) hd ha rfl rfl hk ?_ ?_ ?_ ‹_›
    all_goals simp [*, ofBool_bitAt]
  all_goals simp (disch := decide) only [reads_bind, reads_guardZ, Bool.and_eq_true, beq_iff_eq, and_imp,
    Opnd.ofBits?_eq_some, MSize.ofBits?_eq_some, TFmt.ofNat?_fld, Nat.zero_add]
  all_goals intros
  case h_9 => exact spells_one ht rfl ‹_› (by decide) (Eq.symm ‹_›)
  all_goals refine spells_tdaW ht he rfl ‹_› (by decide) ?_ rfl ?_
  all_goals repeat' apply eq_fld_of_parts
  all_goals simp [*, ofBool_bitAt]
/-- The CTL map (R141). A part of a field that must be zero is zero, so the bits of a word are compared as numbers. -/
theorem reads_ctl (ht : tagOf w = 0) (he : 2 ≤ headLength w → extOk w e1 = true) :
    Reads (fun i => Spells w e1 e2 (encode i)) (decodeCtl w e1) := by
  unfold decodeCtl
  dsimp only
  split
  case h_18 => -- SEL
    simp only [reads_guardZ, Bool.and_eq_true, beq_iff_eq]
    exact fun ⟨h2, h19⟩ => spells_two ht rfl ‹_› (by decide) (eq_fld_of_parts (eq_fld_of_parts (eq_fld_of_parts rfl rfl) rfl) h2.symm) he
      (eq_fld_of_parts (eq_fld_of_parts h19.symm (ofBool_bitAt e1 6)) rfl)
  case h_19 | h_20 => -- LI and LIH
    simp only [reads_guardZ, beq_iff_eq]
    exact fun h8 => spells_two ht rfl ‹_› (by decide) (eq_fld_of_parts rfl (extractLsb'_append_high _ _)) he
      (eq_fld_of_parts h8.symm (extractLsb'_append_low _ _))
  case h_61 => -- GUARD
    simp only [reads_guardZ, Bool.and_eq_true, beq_iff_eq]
    exact fun ⟨h13, hr⟩ => spells_one ht hr ‹_› (by decide) (eq_fld_of_parts (eq_fld_of_parts (ofBool_bitAt w 19) rfl) h13.symm)
  case h_62 => -- SYS
    simp only [reads_ite, reads_none, implies_true, and_true, beq_iff_eq]
    intro hr
    split
    all_goals simp only [reads_none, reads_some, reads_guardZ, Bool.and_eq_true, beq_iff_eq]
    all_goals intros
    all_goals refine spells_one ht hr ‹_› (by decide) ?_
    all_goals clear hr
    all_goals repeat' apply eq_fld_of_parts
    all_goals simp only [← BitVec.toNat_inj, toNat_fld, BitVec.toNat_ofNat, BitVec.ofNat_eq_ofNat,
      Nat.zero_add, Nat.reduceAdd, Nat.reducePow, Nat.reduceMod] at *
    all_goals omega
  all_goals repeat' split
  all_goals simp only [reads_none, reads_some, reads_guardZ, Bool.and_eq_true, beq_iff_eq, and_imp]
  all_goals intros
  all_goals refine spells_one ht rfl ‹_› (by decide) ?_
  all_goals repeat' apply eq_fld_of_parts
  all_goals simp only [← BitVec.toNat_inj, toNat_fld, bitAt_iff, BitVec.toNat_ofNat, BitVec.ofNat_eq_ofNat,
      Nat.zero_add, Nat.reduceAdd, Nat.reducePow, Nat.reduceMod, imp_false] at *
  all_goals omega

/-- The copy words share their fields (R253). -/
theorem spells_copyW {h : Ring} {op : BitVec 6} {c : CopyF} (ht : tagOf w = 3)
    (he1 : 2 ≤ headLength w → extOk w e1 = true) (he2 : 3 ≤ headLength w → extOk w e2 = true)
    (hh : Ring.ofWord w = h) (ho : opOf w = op.toNat) (hl : headLength (headW 3 Ring.none op 0) = 3)
    (hc : ⟨fld w 16 4, bitAt w 15, bitAt w 14, fld w 0 12 ++ fld e2 18 8, SemF.ofWord e1, fld e1 0 16, fld e2 0 16⟩ = c)
    (hz : fld w 12 2 = 0#2) (hz2 : fld e2 16 2 = 0#2) : Spells w e1 e2 (copyW h op c) := by
  subst hc
  exact spells_three ht hh ho hl
    (eq_fld_of_parts (eq_fld_of_parts (eq_fld_of_parts (eq_fld_of_parts rfl (ofBool_bitAt w 15)) (ofBool_bitAt w 14)) hz.symm)
      (extractLsb'_append_high _ _)) he1 he2
    (eq_fld_of_parts (SemF.toBits_ofWord e1) rfl)
    (eq_fld_of_parts (eq_fld_of_parts (extractLsb'_append_low _ _) hz2.symm) rfl)

/-- The XP map (R145). -/
theorem reads_xp (ht : tagOf w = 3) (he1 : 2 ≤ headLength w → extOk w e1 = true) (he2 : 3 ≤ headLength w → extOk w e2 = true) :
    Reads (fun i => Spells w e1 e2 (encode i)) (decodeXp w e1 e2) := by
  unfold decodeXp
  dsimp only
  split
  case h_10 => exact (reads_none _).2 trivial
  all_goals simp only [reads_guardZ, Bool.and_eq_true, beq_iff_eq]
  case h_1 | h_2 | h_3 => exact fun ⟨hz, hz2⟩ => spells_copyW ht he1 he2 rfl ‹_› (by decide) rfl hz hz2
  case h_4 => -- XCNT
    exact fun ⟨h6, h5⟩ => spells_two ht rfl ‹_› (by decide)
      (eq_fld_of_parts (eq_fld_of_parts (eq_fld_of_parts rfl (ofBool_bitAt w 15)) rfl) h6.symm) he1 (eq_fld_of_parts h5.symm rfl)
  case h_5 => -- XFLAG
    exact fun ⟨h1, h2⟩ => spells_three ht rfl ‹_› (by decide)
      (eq_fld_of_parts (eq_fld_of_parts (eq_fld_of_parts (eq_fld_of_parts rfl (ofBool_bitAt w 15)) rfl) h1.symm) (extractLsb'_append_high _ _))
      he1 he2 (eq_fld_of_parts (SemF.toBits_ofWord e1) rfl)
      (eq_fld_of_parts (eq_fld_of_parts (extractLsb'_append_low _ _) h2.symm) rfl)
  case h_6 => -- XRDEF
    exact fun ⟨⟨h3, h2⟩, h2'⟩ => spells_three ht rfl ‹_› (by decide)
      (eq_fld_of_parts (eq_fld_of_parts rfl (ofBool_bitAt w 3)) h3.symm) he1 he2
      (eq_fld_of_parts (eq_fld_of_parts rfl (extractLsb'_append_high _ _)) h2.symm)
      (eq_fld_of_parts (eq_fld_of_parts rfl (extractLsb'_append_low _ _)) h2'.symm)
  case h_7 => -- XRGEN
    exact fun ⟨h4, h10⟩ => spells_two ht rfl ‹_› (by decide) (eq_fld_of_parts h4.symm rfl) he1 (eq_fld_of_parts h10.symm rfl)
  case h_8 => exact fun h8 => spells_one ht rfl ‹_› (by decide) (eq_fld_of_parts h8.symm rfl)
  case h_9 => exact fun h20 => spells_one ht rfl ‹_› (by decide) h20.symm
/-- The format of a sequencer word (R147). -/
theorem toList_seqW {op : BitVec 6} {f : BitVec 26} (ho : (fld w 26 6).toNat = op.toNat) (hf : f = fld w 0 26) :
    (seqW op f).toList = [w] := by
  have : op ++ f = fld w 0 32 := eq_fld_of_parts (BitVec.eq_of_toNat_eq ho.symm) hf
  rw [seqW, this, fld_whole]
  rfl

theorem FeedF.ofWord?_eq_some (f : FeedF) : FeedF.ofWord? w = some f ↔
    f.fmt.toBits = fld w 23 3 ∧ (⟨f.fmt, bitAt w 20, fld w 17 3, fld w 14 3, fld w 11 3, fld w 7 4⟩ : FeedF) = f := by
  simp only [FeedF.ofWord?, Option.map_eq_some_iff, TFmt.ofNat?_eq_some]
  exact ⟨fun ⟨a, ha, hf⟩ => hf ▸ ⟨ha, rfl⟩, fun ⟨ha, hf⟩ => ⟨_, ha, hf⟩⟩

theorem feedBits_eq {m : BitVec 2} {f : FeedF} (hm : m = fld w 21 2) (hf : FeedF.ofWord? w = some f) (hz : fld w 0 7 = 0#7) :
    feedBits m f = fld w 0 26 := by
  obtain ⟨hb, hf⟩ := (FeedF.ofWord?_eq_some f).1 hf
  rw [← hf]
  exact eq_fld_of_parts (eq_fld_of_parts (eq_fld_of_parts (eq_fld_of_parts (eq_fld_of_parts (eq_fld_of_parts (eq_fld_of_parts hb hm)
    (ofBool_bitAt w 20)) rfl) rfl) rfl) rfl) hz.symm

/-- The sequencer's map (R147, R242). -/
theorem reads_seq : Reads (fun i => (encode i).toList = [w]) (decodeSeqFields w) := by
  unfold decodeSeqFields
  dsimp only
  split
  case h_4 => -- SFEEDA
    simp only [reads_bind, reads_guardZ, beq_iff_eq, MSize.ofBits?_eq_some]
    exact fun m hm f hf hz => toList_seqW ‹_› (feedBits_eq hm hf hz)
  case h_5 => -- SFEEDB
    simp only [reads_bind, reads_guardZ, beq_iff_eq, Bool.and_eq_true]
    exact fun f hf ⟨hm, hz⟩ => toList_seqW ‹_› (feedBits_eq hm.symm hf hz)
  all_goals repeat' split
  all_goals simp only [reads_none, reads_guardZ, reads_bind, Bool.and_eq_true, beq_iff_eq, and_imp, SlotSize.ofBits?_eq_some]
  all_goals intros
  all_goals refine toList_seqW ‹_› ?_
  all_goals repeat' apply eq_fld_of_parts
  all_goals simp only [← BitVec.toNat_inj, toNat_fld, ofBool_bitAt, bitAt_iff, BitVec.toNat_ofNat, BitVec.ofNat_eq_ofNat,
      Nat.zero_add, Nat.reduceAdd, Nat.reducePow, Nat.reduceMod] at *
  all_goals omega

theorem finish_eq_ok (o : Option Instr) (i : Instr) : finish o = .ok i ↔ o = some i ∧ i.wf = true := by
  cases o with
  | none => simp [finish]
  | some j => by_cases hj : j.wf = true <;> simp only [finish, hj] <;> grind

/-- What an engine's map reads is well formed and has the words it was read from. -/
theorem wf_and_toList_of_finish {o : Option Instr} {i : Instr} (h : finish o = .ok i)
    (hr : Reads (fun i => Spells w e1 e2 (encode i)) o) : i.wf = true ∧ (encode i).toList = [w, e1, e2].take (headLength w) := by
  obtain ⟨ho, hw⟩ := (finish_eq_ok o i).1 h
  exact ⟨hw, hr i ho⟩

theorem decodeText_ok {i : Instr} (h : decodeText w e1 e2 = .ok i) :
    i.wf = true ∧ (encode i).toList = [w, e1, e2].take (headLength w) := by
  unfold decodeText at h
  split at h
  case isTrue heot =>
    cases h
    rw [eq_of_beq heot]
    exact ⟨rfl, rfl⟩
  case isFalse =>
    dsimp only at h
    split at h
    case isTrue => cases h
    case isFalse hx =>
      have he1 : 2 ≤ headLength w → extOk w e1 = true := by grind
      have he2 : 3 ≤ headLength w → extOk w e2 = true := by grind
      have hm : ∀ {b : Bool} {o : Option Instr}, (if b = true then finish o else .error .unassignedOpcode) = .ok i → finish o = .ok i := by
        grind
      split at h
      case h_1 ht => exact wf_and_toList_of_finish (hm h) (reads_ctl (BitVec.eq_of_toNat_eq ht) he1)
      case h_2 ht => exact wf_and_toList_of_finish (hm h) (reads_vu (BitVec.eq_of_toNat_eq ht) he1)
      case h_3 ht => exact wf_and_toList_of_finish (hm h) (reads_tda (BitVec.eq_of_toNat_eq ht) he1)
      case h_4 h0 h1 h2 =>
        have ht : (tagOf w).toNat = 3 := by have := (tagOf w).isLt; grind
        exact wf_and_toList_of_finish (hm h) (reads_xp (BitVec.eq_of_toNat_eq ht) he1 he2)

theorem decodeSeq_ok {i : Instr} (h : decodeSeq w = .ok i) : i.wf = true ∧ (encode i).toList = [w] := by
  unfold decodeSeq at h
  split at h
  case isTrue heot =>
    cases h
    rw [eq_of_beq heot]
    exact ⟨rfl, rfl⟩
  case isFalse =>
    dsimp only at h
    split at h
    case isTrue => cases h
    case isFalse =>
      obtain ⟨ho, hw⟩ := (finish_eq_ok _ i).1 h
      exact ⟨hw, reads_seq i ho⟩

end

/-- Settles O54, map by map: every field of the words is a field of the instruction or is required to be zero. -/
theorem decodeEncode : Obligations.DecodeEncode := fun _ _ _ _ => ⟨decodeText_ok, decodeSeq_ok⟩

end Sys2Proof.Proofs
end

section
/-! PROOF. The invariant of the machine (O60), part by part, and what traps and the issue of a word keep of it (Machine/Ops.lean). The parts are
structures, and each function of the model has one lemma: it keeps the invariant, because the functions that it calls do. -/

namespace Sys2Proof.Machine

/-! ### The invariant, part by part -/

/-- `Ctl.zeroOk` as a structure, which no tactic takes apart unasked; so are the others. -/
structure CtlInv (c : Ctl) : Prop where
  ok : c.zeroOk

structure StoreInv (m : Store) : Prop where
  ok : m.ok

structure TileInv (x : Tile) : Prop where
  store : StoreInv x.store
  ctl : CtlInv x.ctl
  wcfg : x.stop.wcfg &&& 0xFFFF07E0#32 = 0#32
  views : ∀ k, x.vw.get 0#64 k &&& 0xF00000000003F800#64 = 0#64

structure FwcInv (f : Fwc) : Prop where
  sram : Memory.wf f.sram = true
  ctl : CtlInv f.ctl

structure DieInv (x : Die) : Prop where
  fwc : FwcInv x.fwc
  wr : x.logWr < 512
  rd : x.logRd < 512

structure Inv (s : State) : Prop where
  mem : s.memoryOk
  tile : ∀ t, TileInv (s.tile t)
  die : ∀ d, DieInv (s.die d)

theorem tileInv_iff (x : Tile) : TileInv x ↔ x.ok :=
  ⟨fun h => ⟨h.store.ok, h.ctl.ok, h.wcfg, h.views⟩, fun ⟨hm, hc, hw, hv⟩ => ⟨⟨hm⟩, ⟨hc⟩, hw, hv⟩⟩

theorem dieInv_iff (x : Die) : DieInv x ↔ x.ok :=
  ⟨fun h => ⟨h.fwc.sram, h.fwc.ctl.ok, h.wr, h.rd⟩, fun ⟨hm, hc, hw, hr⟩ => ⟨⟨hm, ⟨hc⟩⟩, hw, hr⟩⟩

theorem inv_iff (s : State) : Inv s ↔ s.ok :=
  ⟨fun h => ⟨h.mem, fun t => (tileInv_iff _).1 (h.tile t), fun d => (dieInv_iff _).1 (h.die d)⟩,
    fun ⟨hm, ht, hd⟩ => ⟨hm, fun t => (tileInv_iff _).2 (ht t), fun d => (dieInv_iff _).2 (hd d)⟩⟩

/-! What a part's invariant does not look at may change. -/

variable {s s' : State} {x y : Tile} {c c' : Ctl} {m m' : Store} {f g : Fwc} {u v : Die}

theorem CtlInv.congr (h : CtlInv c) (hs : c'.s = c.s) (hp : c'.p = c.p) : CtlInv c' := by
  refine ⟨?_⟩
  rw [Ctl.zeroOk, hs, hp]
  exact h.ok

theorem StoreInv.congr (h : StoreInv m) (hr : m'.reg = m.reg) (hs : m'.scr = m.scr) (ho : m'.ofl = m.ofl) (hl : m'.lat = m.lat) : StoreInv m' := by
  refine ⟨?_⟩
  rw [Store.ok, hr, hs, ho, hl]
  exact h.ok

theorem TileInv.congr (h : TileInv x) (hm : StoreInv y.store) (hc : CtlInv y.ctl) (hw : y.stop.wcfg = x.stop.wcfg) (hv : y.vw = x.vw) : TileInv y :=
  ⟨hm, hc, hw ▸ h.wcfg, hv ▸ h.views⟩

theorem DieInv.congr (h : DieInv u) (hf : FwcInv v.fwc) (hw : v.logWr = u.logWr) (hr : v.logRd = u.logRd) : DieInv v :=
  ⟨hf, hw ▸ h.wr, hr ▸ h.rd⟩

theorem Inv.congr (h : Inv s) (hm : s'.mem = s.mem) (ht : s'.tiles = s.tiles) (hd : s'.dies = s.dies) : Inv s' := by
  refine ⟨?_, fun t => ?_, fun d => ?_⟩
  · rw [State.memoryOk, hm]
    exact h.mem
  · rw [State.tile, ht]
    exact h.tile t
  · rw [State.die, hd]
    exact h.die d

/-! ### Updates of the state -/

theorem Inv.setTile (h : Inv s) (t : Nat) (x : Tile) (hx : TileInv x) : Inv (s.setTile t x) := by
  refine ⟨h.mem, fun u => ?_, h.die⟩
  rcases eq_or_ne u t with rfl | hu
  · rwa [State.tile_setTile]
  · rw [State.tile_setTile_ne _ _ _ _ hu]
    exact h.tile u

theorem Inv.modTile (h : Inv s) (t : Nat) (f : Tile → Tile) (hf : TileInv (f (s.tile t))) : Inv (s.modTile t f) := h.setTile t _ hf

theorem Inv.setDie (h : Inv s) (d : Nat) (x : Die) (hx : DieInv x) : Inv (s.setDie d x) := by
  refine ⟨h.mem, h.tile, fun e => ?_⟩
  rcases eq_or_ne e d with rfl | he
  · rwa [State.die_setDie]
  · rw [State.die_setDie_ne _ _ _ _ he]
    exact h.die e

theorem Inv.modDie (h : Inv s) (d : Nat) (f : Die → Die) (hf : DieInv (f (s.die d))) : Inv (s.modDie d f) := h.setDie d _ hf

theorem Inv.fwc (h : Inv s) (d : Nat) : FwcInv (s.fwc d) := (h.die d).fwc

theorem Inv.modFwc (h : Inv s) (d : Nat) (f : Fwc → Fwc) (hf : FwcInv (f (s.fwc d))) : Inv (s.modFwc d f) :=
  h.modDie d _ ((h.die d).congr hf rfl rfl)

/-! An update that keeps the invariant of every part keeps it of its own. -/

theorem Inv.modTile_keeps (h : Inv s) (t : Nat) (f : Tile → Tile) (hf : ∀ x, TileInv x → TileInv (f x)) : Inv (s.modTile t f) :=
  h.modTile t f (hf _ (h.tile t))
theorem Inv.modDie_keeps (h : Inv s) (d : Nat) (f : Die → Die) (hf : ∀ x, DieInv x → DieInv (f x)) : Inv (s.modDie d f) :=
  h.modDie d f (hf _ (h.die d))
theorem Inv.modFwc_keeps (h : Inv s) (d : Nat) (f : Fwc → Fwc) (hf : ∀ x, FwcInv x → FwcInv (f x)) : Inv (s.modFwc d f) :=
  h.modFwc d f (hf _ (h.fwc d))

theorem Inv.setPart (h : Inv s) (p : Nat) (q : Part) : Inv (s.setPart p q) := h.congr rfl rfl rfl
theorem Inv.modPart (h : Inv s) (p : Nat) (f : Part → Part) : Inv (s.modPart p f) := h.congr rfl rfl rfl
theorem Inv.modLink (h : Inv s) (k : Nat) (f : Link → Link) : Inv (s.modLink k f) := h.congr rfl rfl rfl
theorem Inv.draw (h : Inv s) : Inv s.draw := h.congr rfl rfl rfl
theorem Inv.first (h : Inv s) (ts : List Turn) : Inv (s.first ts) := h.congr rfl rfl rfl
theorem Inv.physWrite (h : Inv s) (a : Nat) (bs : List Byte) : Inv (s.physWrite a bs) := by
  have hm := s.physWrite_ok a bs h.mem
  unfold State.physWrite at *
  split
  · exact h
  · exact ⟨by grind, h.tile, h.die⟩

theorem Inv.foldl {α : Type} (h : Inv s) (l : List α) (f : State → α → State) (hf : ∀ s a, Inv s → Inv (f s a)) : Inv (l.foldl f s) :=
  List.foldlRecOn (motive := Inv) l f h fun s hs a _ => hf s a hs

/-! ### Registers, landings and memories of a part -/

theorem CtlInv.land (h : CtlInv c) (l : Land) : CtlInv (c.land l) := ⟨c.zeroOk_land l h.ok⟩
theorem TileInv.land (h : TileInv x) (l : Land) : TileInv (x.land l) := (tileInv_iff _).2 (x.ok_land l ((tileInv_iff x).1 h))

theorem FwcInv.write (h : FwcInv f) (a : Nat) (bs : List Byte) : FwcInv (f.write a bs) := ⟨Mem.wf_write _ _ _ h.sram, h.ctl⟩
theorem FwcInv.emptied (h : FwcInv f) : FwcInv f.emptied := ⟨Map.wfFrom_filter _ 0 _ _ h.sram, h.ctl⟩

theorem FwcInv.noPatch (h : FwcInv f) : FwcInv (State.noPatch f) := ⟨h.emptied.sram, h.ctl⟩

theorem FwcInv.land (h : FwcInv f) (l : Land) : FwcInv (f.land l) := by
  have hc := h.ctl.land l
  cases l with
  | bytes sp runs =>
    have hr : FwcInv (runs.foldl (fun f r => f.write r.1 r.2) f) :=
      List.foldlRecOn (motive := FwcInv) runs _ h fun g hg r _ => hg.write r.1 r.2
    exact ⟨hr.sram, hr.ctl⟩
  | atomic op wide a rd b k => exact ⟨Mem.wf_write _ _ _ h.sram, ⟨Ctl.zeroOk_atomOld _ _ _ _ h.ctl.ok⟩⟩
  | _ => exact ⟨h.sram, hc⟩

theorem wf_flipBits {k : Mem} (h : Memory.wf k = true) (w : Nat) (b : Word) : Memory.wf (flipBits k w b) = true := Mem.wf_write _ _ _ h

theorem DieInv.writeEntry (h : DieInv u) (e : LogEnt) : DieInv (u.writeEntry e) := by
  unfold Die.writeEntry
  split
  · exact h.congr h.fwc rfl rfl
  · exact ⟨h.fwc, Nat.mod_lt _ (by decide), h.rd⟩

theorem DieInv.writeLog (h : DieInv u) : DieInv u.writeLog :=
  List.foldlRecOn (motive := DieInv) _ _ (h.congr h.fwc rfl rfl) fun _ hv e _ => hv.writeEntry e.2

/-! ### Traps, exceptions and the issue of a word (Machine/Ops.lean) -/

theorem Inv.bumpDie (h : Inv s) (d : Nat) (src : BitVec 8) (n : Nat) : Inv (s.bumpDie d src n) := by
  unfold State.bumpDie
  grind [Inv.modDie, Inv.die, DieInv]

theorem Inv.log (h : Inv s) (d : Nat) (code : BitVec 8) (cls : BitVec 2) (eng : BitVec 3) (slot unit addr phase : Nat)
    (loc : DWord) : Inv (s.log d code cls eng slot unit addr phase loc) := by
  unfold State.log
  grind [Inv.modDie, Inv.die, DieInv]

theorem Inv.noResume (h : Inv s) (t : Nat) : Inv (s.noResume t) := by
  unfold State.noResume
  grind [Inv.modTile, Inv.tile, TileInv]

theorem Inv.holdPart (h : Inv s) (p : Nat) : Inv (s.holdPart p) := h.modPart _ _

theorem Inv.freezeAt (h : Inv s) (t : Nat) (i : TrapInfo) (unit : Nat) (loc : DWord) : Inv (s.freezeAt t i unit loc) := by
  unfold State.freezeAt
  grind [Inv.log, Inv.noResume, Inv.holdPart, Inv.modTile, Inv.tile, TileInv]

theorem Inv.freeze (h : Inv s) (t : Nat) (i : TrapInfo) (unit : Nat) : Inv (s.freeze t i unit) := h.freezeAt _ _ _ _

theorem Inv.unguard (h : Inv s) (t : Nat) : Inv (s.unguard t) := by
  unfold State.unguard
  grind [Inv.modTile, Inv.tile, TileInv, CtlInv]

theorem Inv.trapWord (h : Inv s) (t : Nat) (e : Eng) (cause : BitVec 8) (aux : DWord) : Inv (s.trapWord t e cause aux) :=
  (h.unguard t).freeze _ _ _

theorem Inv.trapAsync (h : Inv s) (t : Nat) (cause : BitVec 8) (aux : DWord) (addr2 : Nat) (unit : Option Nat) :
    Inv (s.trapAsync t cause aux addr2 unit) := h.freeze _ _ _

theorem Inv.trapCopy (h : Inv s) (t : Nat) (cause : BitVec 8) (aux loc : DWord) (head eng : Nat) :
    Inv (s.trapCopy t cause aux loc head eng) := h.freezeAt _ _ _ _

theorem Inv.logCorrected (h : Inv s) (d : Nat) (who : BitVec 3 × Nat) (slot phase : Nat) (loc : DWord) :
    Inv (s.logCorrected d who slot phase loc) := h.log _ _ _ _ _ _ _ _ _

theorem Inv.touchHbm (h : Inv s) (pa n : Nat) : Inv (s.touchHbm pa n).1 := by
  unfold State.touchHbm
  grind [Inv.foldl, Inv.logCorrected, Inv.congr]

theorem Inv.installPatch (h : Inv s) (d : Nat) : Inv (s.installPatch d) := by
  unfold State.installPatch
  grind [Inv.touchHbm, Inv.modFwc, Inv.log, Inv.fwc, FwcInv.noPatch, FwcInv.emptied, FwcInv.write, FwcInv]

theorem Inv.restartFwc (h : Inv s) (d : Nat) : Inv (s.restartFwc d) := by
  unfold State.restartFwc
  grind [Inv.installPatch, Inv.modDie, Inv.die, DieInv, FwcInv, CtlInv]

theorem Inv.clearEvents (h : Inv s) (d : Nat) : Inv (s.clearEvents d) := by
  unfold State.clearEvents
  grind [Inv.modDie, Inv.die, DieInv]

theorem Inv.exception (h : Inv s) (d : Nat) (cause : BitVec 8) (aux : DWord) (resume : Nat) : Inv (s.exception d cause aux resume) := by
  unfold State.exception
  grind [Inv.log, Inv.restartFwc, Inv.clearEvents, Inv.modFwc, Inv.fwc, FwcInv, CtlInv]

theorem Inv.returnFrom (h : Inv s) (d : Nat) : Inv (s.returnFrom d) := by
  unfold State.returnFrom
  grind [Inv.modFwc, Inv.fwc, FwcInv]

/-- The states an action leaves have the invariant. -/
def ActInv : Act → Prop
  | .go s _ | .hold s | .fail s _ _ | .lost s _ => Inv s
  | .wait | .trap _ _ => True

/-- The state an outcome leaves has the invariant. -/
def OutInv : Out → Prop
  | .next s => Inv s
  | .fault _ | .refused _ => True

theorem TileInv.setPos (h : TileInv x) (e : Eng) (p : Pos) : TileInv (x.setPos e p) := by
  cases e <;> exact h.congr h.store h.ctl rfl rfl

theorem TileInv.issue (h : TileInv x) (e : Eng) (r : Ring) (len : Nat) (k : Eff) : TileInv (x.issue e r len k) := by
  unfold Tile.issue
  cases e <;> grind [TileInv, CtlInv, Tile.setPos]

theorem Inv.textWord (h : Inv s) (t : Nat) (e : Eng) (w : Form) (act : State → Act) (ha : ActInv (act s)) : Inv (s.textWord t e w act) := by
  unfold State.textWord
  grind [Inv.unguard, Inv.trapWord, Inv.modTile, Inv.tile, TileInv.issue, Inv.noResume, ActInv, TileInv]

theorem Inv.fwcIssue (h : Inv s) (d len : Nat) (e : Eff) : Inv (s.fwcIssue d len e) := by
  unfold State.fwcIssue
  grind [Inv.modFwc, Inv.fwc, FwcInv, CtlInv]

theorem Inv.fwcUnguard (h : Inv s) (d : Nat) : Inv (s.fwcUnguard d) := by
  unfold State.fwcUnguard
  grind [Inv.modFwc, Inv.fwc, FwcInv, CtlInv]

theorem Inv.fwcWord (h : Inv s) (d : Nat) (w : Form) (act : State → Act) (ha : ActInv (act s)) : Inv (s.fwcWord d w act) := by
  unfold State.fwcWord
  grind [Inv.exception, Inv.fwcIssue, Inv.fwcUnguard, ActInv]

theorem Inv.ctlWord (h : Inv s) (w : Form) (act : State → Act) (ha : ActInv (act s)) : OutInv (ctlWord w act s) := by
  unfold Machine.ctlWord
  grind [Inv.textWord, Inv.fwcWord, OutInv]

theorem Inv.engWord (h : Inv s) (e : Eng) (w : Form) (act : Nat → State → Act) (ha : ∀ t, ActInv (act t s)) : OutInv (engWord e w act s) := by
  unfold Machine.engWord
  grind [Inv.textWord, OutInv]

theorem Inv.modCtl (h : Inv s) (k : Ctl → Ctl) (hk : ∀ c, CtlInv c → CtlInv (k c)) : Inv (s.modCtl k) := by
  unfold State.modCtl
  grind [Inv.modTile, Inv.tile, Inv.modFwc, Inv.fwc, TileInv, FwcInv]

theorem Inv.ctlPure (h : Inv s) (w : Form) (k : Ctl → List (Nat × Land)) : OutInv (ctlPure w k s) := h.ctlWord _ _ h

end Sys2Proof.Machine
end

section
/-! PROOF. Accesses and landings keep the invariant (Machine/Access.lean). -/

namespace Sys2Proof.Machine

variable {s s' : State} {x y : Tile} {c c' : Ctl} {m m' : Store} {f g : Fwc} {u v : Die}

/-! ### Accesses and landings (Machine/Access.lean) -/

theorem StoreInv.flipStored (h : StoreInv m) (w : Nat) (b : Word) :
    StoreInv { m with scr := flipBits m.scr w b } ∧ StoreInv { m with reg := flipBits m.reg w b } := by
  obtain ⟨hr, hs, ho, hl⟩ := h.ok
  exact ⟨⟨hr, wf_flipBits hs w b, ho, hl⟩, ⟨wf_flipBits hr w b, hs, ho, hl⟩⟩

theorem Inv.flipStored (h : Inv s) (d t : Nat) (sp : EccSpace) (w : Nat) (b : Word) : Inv (s.flipStored d t sp w b) := by
  obtain ⟨hscr, hreg⟩ := (h.tile t).store.flipStored w b
  have hsram := wf_flipBits (h.fwc d).sram w b
  cases sp <;> grind [State.flipStored, Inv.modTile, Inv.tile, Inv.modFwc, Inv.fwc, TileInv, StoreInv, FwcInv]

theorem Inv.setMarks (h : Inv s) (d t : Nat) (sp : EccSpace) (ms : List EccMark) : Inv (s.setMarks d t sp ms) := by
  unfold State.setMarks
  grind [Inv.modTile, Inv.tile, Inv.modFwc, Inv.fwc, TileInv, StoreInv, FwcInv]

theorem Inv.fire (h : Inv s) (d k : Nat) (i : Inj) : Inv (s.fire d k i) := by
  unfold State.fire
  refine Inv.modDie_keeps ?_ _ _ fun u hu => hu.congr hu.fwc rfl rfl
  split
  · exact (h.flipStored _ _ _ _ _).setMarks _ _ _ _
  · exact h.setMarks _ _ _ _

theorem Inv.fireRead (h : Inv s) (d slot : Nat) (sp : EccSpace) (w0 w1 : Nat) : Inv (s.fireRead d slot sp w0 w1) := by
  refine h.foldl _ _ fun s k hs => ?_
  dsimp only
  split
  · exact hs.fire _ _ _
  · exact hs

theorem Inv.correct (h : Inv s) (t : Nat) (who : BitVec 3 × Nat) (sp : EccSpace) (w0 w1 : Nat) : Inv (s.correct t who sp w0 w1).1 := by
  unfold State.correct
  grind [Inv.foldl, Inv.logCorrected, Inv.modTile, Inv.tile, TileInv, StoreInv]

theorem Inv.touch (h : Inv s) (t : Nat) (who : BitVec 3 × Nat) (sp : EccSpace) (w0 w1 : Nat) : Inv (s.touch t who sp w0 w1).1 :=
  (h.fireRead _ _ _ _ _).correct _ _ _ _ _

theorem Inv.touchFwc (h : Inv s) (d : Nat) (sp : EccSpace) (w0 w1 : Nat) : Inv (s.touchFwc d sp w0 w1).1 := by
  unfold State.touchFwc
  have hs := h.fireRead d 0 sp w0 w1
  generalize s.fireRead d 0 sp w0 w1 = r at hs
  dsimp only
  split
  · exact hs
  · refine Inv.foldl ?_ _ _ fun s m hs => hs.logCorrected _ _ _ _ _
    exact hs.modFwc_keeps _ _ fun f hf => ⟨hf.sram, hf.ctl⟩

theorem Inv.touchSram (h : Inv s) (d w0 w1 : Nat) : Inv (s.touchSram d w0 w1).1 := h.touchFwc _ _ _ _

theorem Inv.markChecked (h : Inv s) (t k : Nat) : Inv (s.markChecked t k) := by
  unfold State.markChecked
  grind [Inv.modTile, Inv.tile, TileInv]

/-- A fold that keeps a state beside something else. -/
theorem Inv.foldl_fst {α β : Type} (h : Inv s) (l : List α) (b : β) (k : State × β → α → State × β) (hk : ∀ q a, Inv q.1 → Inv (k q a).1) :
    Inv (l.foldl k (s, b)).1 :=
  List.foldlRecOn (motive := fun q => Inv q.1) l k h fun q hq a _ => hk q a hq

theorem Inv.firstReads (h : Inv s) (t : Nat) (frames : List Nat) : Inv (s.firstReads t frames).1 := by
  refine h.foldl_fst _ _ _ fun q a hq => ?_
  grind [Inv.markChecked]

theorem Inv.firstRead (h : Inv s) (t a n : Nat) : Inv (s.firstRead t a n).1 := h.firstReads _ _

/-- What a read leaves: the state after it, or what stops the word. -/
def ReadInv {α : Type} : Except Act (State × α) → Prop
  | .ok r => Inv r.1
  | .error a => ActInv a

theorem Inv.readLocal (h : Inv s) (t : Nat) (e : Eng) (a n : Nat) : ReadInv (s.readLocal t e a n) := by
  unfold State.readLocal
  grind [Inv.firstRead, Inv.touch, ReadInv, ActInv]

theorem Inv.rangeChecks (h : Inv s) (t : Nat) (rs : List (Nat × Nat)) (r : State) (hr : s.rangeChecks t rs = .ok r) : Inv r := by
  unfold State.rangeChecks at hr
  grind [Inv.firstReads]

theorem Inv.takeRanges (h : Inv s) (t : Nat) (e : Eng) (rs : List (Nat × Nat)) : ReadInv (s.takeRanges t e rs) := by
  unfold State.takeRanges
  grind [Inv.foldl_fst, Inv.touch, ReadInv, ActInv]

theorem Inv.readRanges (h : Inv s) (t : Nat) (e : Eng) (rs : List (Nat × Nat)) : ReadInv (s.readRanges t e rs) := by
  unfold State.readRanges
  grind [Inv.rangeChecks, Inv.takeRanges, ReadInv, ActInv]

theorem TileInv.landPend (h : TileInv x) (p : Pend) : TileInv (x.landPend p) := by
  unfold Tile.landPend
  grind [TileInv.land, TileInv]

theorem Inv.fireWrites (h : Inv s) (t : Nat) (ps : List Pend) : Inv (s.fireWrites t ps) := by
  refine h.foldl _ _ fun s k hs => ?_
  dsimp only
  repeat' split
  all_goals simp only [hs, Inv.fire]

theorem TileInv.foldl {α : Type} (h : TileInv x) (l : List α) (k : Tile → α → Tile) (hk : ∀ x a, TileInv x → TileInv (k x a)) :
    TileInv (l.foldl k x) :=
  List.foldlRecOn (motive := TileInv) l k h fun x hx a _ => hk x a hx

theorem FwcInv.foldl {α : Type} (h : FwcInv f) (l : List α) (k : Fwc → α → Fwc) (hk : ∀ f a, FwcInv f → FwcInv (k f a)) :
    FwcInv (l.foldl k f) :=
  List.foldlRecOn (motive := FwcInv) l k h fun x hx a _ => hk x a hx

theorem Inv.landDue (h : Inv s) (t : Nat) : Inv (s.landDue t) := by
  unfold State.landDue
  grind [Inv.setTile, Inv.fireWrites, Inv.tile, TileInv.foldl, TileInv.landPend, TileInv, StoreInv]

theorem Inv.fireSram (h : Inv s) (d : Nat) (ps : List Pend) : Inv (s.fireSram d ps) := by
  refine h.foldl _ _ fun s k hs => ?_
  dsimp only
  repeat' split
  all_goals simp only [hs, Inv.fire]

theorem Inv.landFwc (h : Inv s) (d : Nat) : Inv (s.landFwc d) := by
  unfold State.landFwc
  grind [Inv.modFwc, Inv.fireSram, Inv.fwc, FwcInv.foldl, FwcInv.land, FwcInv]

end Sys2Proof.Machine
end

section
/-! PROOF. Operands and regions keep the invariant (Machine/Operands.lean, Machine/Region.lean). -/

namespace Sys2Proof.Machine

variable {s s' : State} {x y : Tile} {c c' : Ctl} {m m' : Store} {f g : Fwc} {u v : Die}

/-! ### Operands and regions (Machine/Operands.lean, Machine/Region.lean) -/

theorem Inv.touchRuns (h : Inv s) (t : Nat) (e : Eng) (sp : EccSpace) (rs : List (Nat × Nat)) : Inv (s.touchRuns t e sp rs).1 := by
  refine h.foldl_fst _ _ _ fun q a hq => ?_
  grind [Inv.touch]

theorem Inv.touchOpnds (h : Inv s) (t : Nat) (e : Eng) (srcs : List (Opnd × Nat)) : Inv (s.touchOpnds t e srcs).1 := by
  refine h.foldl_fst _ _ _ fun q a hq => ?_
  grind [Inv.touchRuns]

theorem Inv.sources (h : Inv s) (t : Nat) (e : Eng) (named : List Opnd) (pre : Option Act) (srcs : List (Opnd × Nat))
    (hp : ∀ a, pre = some a → ActInv a) : ReadInv (s.sources t e named pre srcs) := by
  unfold State.sources
  grind [Inv.touchOpnds, ReadInv, ActInv]

theorem Inv.setRegion (h : Inv s) (e : RegionEnt) : Inv (s.setRegion e) := h.physWrite _ _

theorem Inv.raiseWatermark (h : Inv s) (d : Nat) : Inv (s.raiseWatermark d) :=
  h.modDie_keeps _ _ fun _ hu => hu.congr hu.fwc rfl rfl

theorem Inv.release (h : Inv s) (d : Nat) (cover : Copy → Bool) : Inv (s.release d cover) := by
  unfold State.release
  have hs := fun k => h.modDie_keeps d k
  grind [Inv.raiseWatermark, Inv.congr, DieInv]

theorem Inv.offer (h : Inv s) (p g : Nat) : Inv (s.offer p g) := by
  unfold State.offer
  grind [Inv.release, Inv.setRegion]

theorem Inv.touchWords (h : Inv s) (as : List Nat) : Inv (s.touchWords as).1 := by
  refine h.foldl_fst _ _ _ fun q a hq => ?_
  grind [Inv.touchHbm]

end Sys2Proof.Machine
end

section
/-! PROOF. The control unit's words beside arithmetic, and the sequencer's, keep the invariant (Machine/Tokens.lean, Machine/Seq.lean). -/

namespace Sys2Proof.Machine

variable {s s' : State} {x y : Tile} {c c' : Ctl} {m m' : Store} {f g : Fwc} {u v : Die}

/-! ### Tokens, queues, fences, traps and guards (Machine/Tokens.lean) -/

/-- An action on the tile of the word keeps the invariant if it does on every tile. -/
theorem ActInv.onTile (k : Nat → Tile → Act) (hk : ∀ t, ActInv (k t (s.tile t))) : ActInv (onTile s k) := by
  unfold Machine.onTile
  grind [ActInv]

theorem Inv.tileWord (h : Inv s) (w : Form) (k : State → Nat → Tile → Act) (hk : ∀ t, ActInv (k s t (s.tile t))) :
    OutInv (Machine.ctlWord w (fun s => Machine.onTile s (k s)) s) := h.ctlWord _ _ (ActInv.onTile _ hk)

theorem Inv.addToken (h : Inv s) (t : Nat) (k : BitVec 3) (n : Nat) : Inv (s.addToken t k n) :=
  h.modTile_keeps _ _ fun _ hx => ⟨hx.store, hx.ctl, hx.wcfg, hx.views⟩

theorem Inv.subToken (h : Inv s) (t : Nat) (k : BitVec 3) (n : Nat) : Inv (s.subToken t k n) :=
  h.modTile_keeps _ _ fun _ hx => ⟨hx.store, hx.ctl, hx.wcfg, hx.views⟩

theorem Inv.signalSem (h : Inv s) (t i : Nat) : Inv (s.signalSem t i) := by
  unfold State.signalSem
  grind [Inv.modTile, Inv.tile, TileInv]

theorem Inv.takeSem (h : Inv s) (t i : Nat) : Inv (s.takeSem t i) :=
  h.modTile_keeps _ _ fun _ hx => ⟨hx.store, hx.ctl, hx.wcfg, hx.views⟩

theorem Inv.tokenSignal (h : Inv s) (r : Ring) (k : BitVec 3) (n : Ctl → BitVec 16) : OutInv (tokenSignal r k n s) := by
  refine h.tileWord _ _ fun t => ?_
  grind [Inv.addToken, ActInv]

theorem Inv.tokenWait (h : Inv s) (r : Ring) (k : BitVec 3) (n : Ctl → BitVec 16) : OutInv (tokenWait r k n s) := by
  refine h.tileWord _ _ fun t => ?_
  grind [Inv.subToken, ActInv]

theorem Inv.execSemsig (h : Inv s) (r : Ring) (i : BitVec 4) : OutInv (execSemsig r i s) := by
  refine h.tileWord _ _ fun t => ?_
  grind [Inv.signalSem, ActInv]

theorem Inv.execSemwait (h : Inv s) (r : Ring) (i : BitVec 4) : OutInv (execSemwait r i s) := by
  refine h.tileWord _ _ fun t => ?_
  grind [Inv.takeSem, ActInv]

theorem Inv.execPush (h : Inv s) (r : Ring) (ra : SReg) : OutInv (execPush r ra s) := by
  refine h.tileWord _ _ fun t => ?_
  grind [Inv.modTile, Inv.tile, TileInv, ActInv]

theorem Inv.execPop (h : Inv s) (r : Ring) (rd : SReg) (i : BitVec 3) : OutInv (execPop r rd i s) := by
  refine h.tileWord _ _ fun t => ?_
  grind [Inv.modTile, Inv.tile, TileInv, ActInv]

theorem Inv.arrive (h : Inv s) (t : Nat) (e : Eng) : Inv (s.arrive t e) := h.modTile_keeps _ _ fun _ hx => hx.setPos _ _

theorem Inv.execArrive (h : Inv s) (r : Ring) : OutInv (execArrive r s) := h.tileWord _ _ fun t => h.arrive t .ctl

theorem Inv.execMfph (h : Inv s) (r : Ring) (rd : SReg) : OutInv (execMfph r rd s) := h.tileWord _ _ fun _ => h

theorem Inv.execRealign (h : Inv s) (r : Ring) : OutInv (execRealign r s) :=
  h.tileWord _ _ fun _ => h.modTile_keeps _ _ fun _ hx => ⟨hx.store, hx.ctl, hx.wcfg, hx.views⟩

theorem Inv.handEntry (h : Inv s) (x : Tile) (va : DWord) (k : State → Nat → RegionEnt → Act)
    (hk : ∀ s p e, Inv s → ActInv (k s p e)) : ActInv (handEntry s x va k) := by
  unfold Machine.handEntry
  grind [Inv.touchWords, ActInv]

theorem Inv.uncover (h : Inv s) (t g : Nat) : Inv (s.uncover t g) := h.congr rfl rfl rfl

theorem Inv.execHand (h : Inv s) (r : Ring) (ra rb : SReg) : OutInv (execHand r ra rb s) := by
  refine h.tileWord _ _ fun t => h.handEntry _ _ _ fun s p e hs => ?_
  grind [Inv.setRegion, Inv.uncover, ActInv]

theorem Inv.execTake (h : Inv s) (r : Ring) (ra : SReg) : OutInv (execTake r ra s) := by
  refine h.tileWord _ _ fun t => h.handEntry _ _ _ fun s p e hs => ?_
  grind [Inv.setRegion, ActInv]

theorem Inv.fence (h : Inv s) (r : Ring) (pkg rel : Bool) : OutInv (fence r pkg rel s) := by
  refine h.ctlWord _ _ ?_
  grind [Inv.release, ActInv]

theorem Inv.execFenceTile (h : Inv s) (r : Ring) : OutInv (execFenceTile r s) := by
  refine h.ctlWord _ _ ?_
  grind [ActInv]

theorem ActInv.illegal (s : State) : ActInv s.illegal := trivial

theorem Inv.execPromote (h : Inv s) (r : Ring) (d : BitVec 3) : OutInv (execPromote r d s) := by
  refine h.tileWord _ _ fun t => ?_
  grind [Inv.modTile, Inv.tile, TileInv, ActInv, ActInv.illegal]

theorem Inv.execHalt (h : Inv s) (r : Ring) : OutInv (execHalt r s) :=
  h.tileWord _ _ fun _ => h.modTile_keeps _ _ fun _ hx => ⟨hx.store, hx.ctl, hx.wcfg, hx.views⟩

theorem TileInv.placeCtl (h : TileInv x) (r : Ring) (v : Word) : TileInv (x.placeCtl r v) := by
  unfold Tile.placeCtl
  grind [TileInv]

theorem TileInv.takeTrap (h : TileInv x) (r : Ring) : TileInv (x.takeTrap r) := ⟨h.store, h.ctl, h.wcfg, h.views⟩

theorem Inv.softTrap (h : Inv s) (r : Ring) (cause code : BitVec 8) : OutInv (softTrap r cause code s) := by
  unfold Machine.softTrap
  grind [Inv.textWord, Inv.unguard, Inv.modTile, Inv.tile, TileInv.takeTrap, TileInv.issue, TileInv.placeCtl, Inv.freeze,
    Inv.fwcWord, Inv.exception, ActInv, OutInv]

theorem Inv.execGuard (h : Inv s) (neg : Bool) (p : PReg) : OutInv (execGuard neg p s) := by
  unfold Machine.execGuard
  grind [Inv.trapWord, Inv.exception, Inv.modTile, Inv.tile, Inv.modFwc, Inv.fwc, Inv.first, TileInv, FwcInv, CtlInv, OutInv]

theorem Inv.execEndOfText (h : Inv s) : OutInv (execEndOfText s) := by
  unfold Machine.execEndOfText
  grind [Inv.trapWord, Inv.exception, OutInv]

theorem Inv.execIllegalInstruction (h : Inv s) : OutInv (execIllegalInstruction s) := by
  unfold Machine.execIllegalInstruction
  grind [Inv.trapWord, Inv.unguard, Inv.exception, OutInv]

/-! ### The sequencer (Machine/Seq.lean) -/

theorem Inv.seqRun (h : Inv s) (t : Nat) (act : State → Act) (ha : ActInv (act s)) : Inv (s.seqRun t act) := by
  unfold State.seqRun
  grind [Inv.modTile, Inv.tile, TileInv, Inv.trapWord, Inv.noResume, ActInv]

theorem Inv.seqWord (h : Inv s) (act : Nat → Tile → State → Act) (ha : ∀ t, ActInv (act t (s.tile t) s)) : OutInv (seqWord act s) := by
  unfold Machine.seqWord
  grind [Inv.seqRun, OutInv]

theorem Inv.seqSet (h : Inv s) (t : Nat) (k : Tsq → Tsq) : ActInv (seqSet s t k) :=
  h.modTile_keeps _ _ fun _ hx => ⟨hx.store, hx.ctl, hx.wcfg, hx.views⟩

/-- A word that sets the sequencer's registers alone. -/
theorem Inv.seqSetWord (h : Inv s) (k : Nat → Tile → Tsq → Tsq) : OutInv (Machine.seqWord (fun t x s => Machine.seqSet s t (k t x)) s) :=
  h.seqWord _ fun t => h.seqSet t _

theorem Inv.execSend (h : Inv s) (nl : BitVec 2) : OutInv (execSend nl s) := by
  refine h.seqWord _ fun t => ?_
  grind [Inv.modTile, Inv.tile, TileInv, ActInv]

theorem Inv.seqPop (h : Inv s) (k : Tsq → Word → Tsq) : OutInv (seqPop k s) := by
  refine h.seqWord _ fun t => ?_
  grind [Inv.modTile, Inv.tile, TileInv, ActInv]

theorem Inv.execSqpush (h : Inv s) (ga : BitVec 4) : OutInv (execSqpush ga s) := by
  refine h.seqWord _ fun t => ?_
  grind [Inv.modTile, Inv.tile, TileInv, ActInv]

theorem Inv.seqSignal (h : Inv s) (k : BitVec 3) (n : Tsq → BitVec 16) : OutInv (seqSignal k n s) := by
  refine h.seqWord _ fun t => ?_
  grind [Inv.addToken, ActInv]

theorem Inv.seqWait (h : Inv s) (k : BitVec 3) (n : Tsq → BitVec 16) : OutInv (seqWait k n s) := by
  refine h.seqWord _ fun t => ?_
  grind [Inv.subToken, ActInv]

theorem Inv.feed (h : Inv s) (rows : Nat) (i : FeedF) (map : Tsq → FeedMap) (get : Tda → List FifoEnt)
    (put : Tda → List FifoEnt → Tda) : OutInv (feed rows i map get put s) := by
  refine h.seqWord _ fun t => ?_
  grind [Inv.readRanges, ReadInv, Inv.modTile, Inv.tile, TileInv, ActInv]

theorem Inv.execSperm (h : Inv s) (i : Bool) (ag : BitVec 3) : OutInv (execSperm i ag s) := by
  refine h.seqWord _ fun t => ?_
  grind [Inv.readLocal, Inv.seqSet, ReadInv, ActInv]

theorem Inv.execSencode (h : Inv s) (tgt : SlotSize) (agr agd age : BitVec 3) : OutInv (execSencode tgt agr agd age s) := by
  refine h.seqWord _ fun t => ?_
  grind [Inv.readLocal, ReadInv, ActInv]

theorem TileInv.bump (h : TileInv x) (i : BitVec 8) (n : Nat) : TileInv (x.bump i n) := by
  unfold Tile.bump
  grind [TileInv]

theorem Inv.execSdecode (h : Inv s) (tgt : SlotSize) (dmax ags age : BitVec 3) : OutInv (execSdecode tgt dmax ags age s) := by
  refine h.seqWord _ fun t => ?_
  grind [Inv.fireRead, Inv.rangeChecks, Inv.takeRanges, ReadInv, Inv.modTile, Inv.tile, TileInv.bump, TileInv, ActInv]

end Sys2Proof.Machine
end

section
/-! PROOF. The array, loads and stores keep the invariant (Machine/Array.lean, Machine/Memory.lean). -/

namespace Sys2Proof.Machine

variable {s s' : State} {x y : Tile} {c c' : Ctl} {m m' : Store} {f g : Fwc} {u v : Die}

/-! ### The array (Machine/Array.lean) -/

theorem ActInv.phaseTrap (x : Tile) : ActInv (phaseTrap x) := trivial
theorem ActInv.marginTrap (x : Tile) : ActInv (marginTrap x) := trivial
theorem ReadInv.illegalShape {α : Type} : ReadInv (illegalShape : Except Act (State × α)) := trivial

theorem Inv.tdaQueue (h : Inv s) (r : Ring) (sem : SemF) (mk : Nat → Tile → State → Except Act (State × TOp))
    (hk : ∀ t, ReadInv (mk t (s.tile t) s)) : OutInv (tdaQueue r sem mk s) := by
  refine h.engWord _ _ _ fun t => ?_
  have hk := hk t
  grind [Inv.modTile, Inv.tile, TileInv, ReadInv, ActInv, ActInv.phaseTrap]

theorem Inv.pushMac (h : Inv s) (r : Ring) (v i : BitVec 3) (msz : MSize) (nsz : BitVec 6) (k : TFmt) (cs wide : Bool) (sem : SemF) :
    OutInv (pushMac r v i msz nsz k cs wide sem s) := by
  refine h.tdaQueue _ _ _ fun t => ?_
  grind [ReadInv, ReadInv.illegalShape]

theorem Inv.execTldb (h : Inv s) (r : Ring) (slot cnt : BitVec 4) (i : Bool) (k : TFmt) (sem : SemF) : OutInv (execTldb r slot cnt i k sem s) := by
  refine h.tdaQueue _ _ _ fun t => ?_
  grind [Inv.modTile, Inv.tile, TileInv, ReadInv]

theorem Inv.execTzero (h : Inv s) (r : Ring) (v i : BitVec 3) (k : MSize) (nsz : BitVec 6) (cs : Bool) (sem : SemF) :
    OutInv (execTzero r v i k nsz cs sem s) := by
  refine h.tdaQueue _ _ _ fun t => ?_
  grind [ReadInv, ReadInv.illegalShape]

theorem Inv.pushRace (h : Inv s) (r : Ring) (d a : Opnd) (rows : BitVec 4) (kt : KeyType) (q : Bool) (op : RaceOp) (sem : SemF) :
    OutInv (pushRace r d a rows kt q op sem s) := by
  refine h.tdaQueue _ _ _ fun t => ?_
  have hs := h.sources t .tda [d, a] none [(a, 256 * (rows.toNat + 1))] fun _ hn => nomatch hn
  dsimp only
  split
  all_goals next he => rw [he] at hs; exact hs

theorem Inv.tdaDirect (h : Inv s) (r : Ring) (leg : Legal) (sem : SemF) (act : Nat → Tile → State → Act)
    (ha : ∀ t x s, Inv s → ActInv (act t x s)) : OutInv (tdaDirect r leg sem act s) := by
  refine h.engWord _ _ _ fun t => ?_
  grind [Inv.takeSem, ActInv, ActInv.phaseTrap]

theorem Inv.direct (h : Inv s) (t lat : Nat) (w : TWork) (sem : SemF) (lands : List (Nat × Land)) : ActInv (direct s t lat w sem lands) :=
  h.modTile_keeps _ _ fun _ hx => ⟨hx.store, hx.ctl, hx.wcfg, hx.views⟩

theorem Inv.execTflag (h : Inv s) (r : Ring) (d : Opnd) (mg clr : Bool) (sem : SemF) : OutInv (execTflag r d mg clr sem s) := by
  refine h.tdaDirect _ _ _ _ fun t x s hs => ?_
  grind [Inv.direct, Inv.modTile, Inv.tile, TileInv, ActInv, ActInv.marginTrap]

theorem Inv.execTdrain (h : Inv s) (r : Ring) (sem : SemF) : OutInv (execTdrain r sem s) := by
  refine h.tdaDirect _ _ _ _ fun t x s hs => ?_
  grind [Inv.signalSem, ActInv, ActInv.marginTrap]

theorem Inv.execTcal (h : Inv s) (r : Ring) (crow : BitVec 6) (sem : SemF) : OutInv (execTcal r crow sem s) :=
  h.tdaDirect _ _ _ _ fun _ _ _ hs => hs.direct _ _ _ _ _

theorem Inv.execTmarg (h : Inv s) (r : Ring) (d : Opnd) (crow : BitVec 6) (sem : SemF) : OutInv (execTmarg r d crow sem s) := by
  refine h.tdaDirect _ _ _ _ fun t x s hs => ?_
  grind [Inv.direct, Inv.draw, ActInv]

theorem Inv.execTarrive (h : Inv s) (r : Ring) : OutInv (execTarrive r s) := by
  refine h.engWord _ _ _ fun t => ?_
  grind [Inv.arrive, ActInv]

theorem Inv.begin (h : Inv s) (t : Nat) (k : TCmd) (r : TRun) (occ : Nat) (lands : List Land) : Inv (s.begin t k r occ lands) := by
  unfold State.begin
  grind [Inv.takeSem, Inv.modTile, Inv.tile, TileInv]

theorem Inv.fireMargin (h : Inv s) (t : Nat) (cover : BitVec 64) : Inv (s.fireMargin t cover).1 := by
  refine h.foldl_fst _ _ _ fun q k hq => ?_
  grind [Inv.modDie, Inv.die, DieInv]

theorem Inv.tdaRead (k : TCmd) (r : State × Option Nat) (act : State → ArrayStep) (hr : Inv r.1) (ha : ∀ s, Inv s → Inv (act s).1) :
    Inv (State.tdaRead k r act).1 := by
  unfold State.tdaRead
  grind

theorem Inv.touchPlanes (h : Inv s) (t : Nat) (planes : List (List Byte)) : Inv (s.touchPlanes t planes).1 := by
  refine h.foldl_fst _ _ _ fun q k hq => ?_
  grind [Inv.touch]

theorem Inv.macReads (h : Inv s) (t : Nat) (k : TCmd) (runs : List (Nat × Nat)) (planes : List (List Byte)) (act : State → ArrayStep)
    (ha : ∀ s, Inv s → Inv (act s).1) : Inv (s.macReads t k runs planes act).1 := by
  unfold State.macReads
  dsimp only
  split
  · exact h
  · exact Inv.tdaRead _ _ _ (h.touchRuns _ _ _ _) fun s hs => Inv.tdaRead _ _ _ (hs.touch _ _ _ _ _) fun s hs =>
      Inv.tdaRead _ _ _ (hs.touchPlanes _ _) ha

theorem TileInv.popOfa (h : TileInv x) : TileInv x.popOfa := by
  unfold Tile.popOfa
  grind [TileInv, StoreInv]

theorem Inv.startMac (h : Inv s) (t : Nat) (k : TCmd) (wide : Bool) (base pitch a n : Nat) (fmt : TFmt) (cs : Bool) :
    Inv (s.startMac t k wide base pitch a n fmt cs).1 := by
  refine h.macReads _ _ _ _ _ fun s hs => ?_
  have hf := hs.fireMargin t (coverOf a n)
  generalize s.fireMargin t (coverOf a n) = q at hf
  refine Inv.begin ?_ _ _ _ _ _
  refine Inv.modTile_keeps ?_ _ _ fun _ hx => hx.popOfa
  exact hf.congr rfl rfl rfl

theorem TileInv.latchPlane (h : TileInv x) (k : Nat) (fmt : TFmt) (wide : Bool) : TileInv (x.latchPlane k fmt wide) := by
  unfold Tile.latchPlane
  grind [TileInv, StoreInv]

theorem Inv.touchOfb (h : Inv s) (t : Nat) : Inv (s.touchOfb t).1 := h.touch _ _ _ _ _

theorem Inv.startCmd (h : Inv s) (t : Nat) (k : TCmd) : Inv (s.startCmd t k).1 := by
  unfold State.startCmd
  dsimp only
  split
  · exact h.startMac _ _ _ _ _ _ _ _ _
  · refine Inv.tdaRead _ _ _ (h.touchOfb t) fun s hs => ?_
    exact (hs.begin _ _ _ _ _).modTile_keeps _ _ fun _ hx => hx.latchPlane _ _ _
  · exact h.begin _ _ _ _ _
  · exact h.begin _ _ _ _ _

theorem Inv.startHead (h : Inv s) (t : Nat) : Inv (s.startHead t).1 := by
  unfold State.startHead
  grind [Inv.startCmd]

theorem Inv.arrayStep (t : Nat) (r : ArrayStep) (hr : Inv r.1) : Inv (State.arrayStep t r) := by
  unfold State.arrayStep State.arrayFreeze
  grind [Inv.freeze]

theorem Inv.execTdaCommandStart (h : Inv s) (t : Nat) : OutInv (execTdaCommandStart t s) := Inv.arrayStep _ _ (h.startHead t)

theorem Inv.latchNext (h : Inv s) (t : Nat) : Inv (s.latchNext t).1 := by
  unfold State.latchNext
  dsimp only
  split
  · exact h
  · refine Inv.tdaRead _ _ _ (h.touchOfb t) fun s hs => ?_
    grind [Inv.modTile, Inv.tile, TileInv.latchPlane, TileInv]

theorem Inv.execTldbPlaneLatch (h : Inv s) (t : Nat) : OutInv (execTldbPlaneLatch t s) := Inv.arrayStep _ _ (h.latchNext t)

theorem Inv.retire (h : Inv s) (t : Nat) (r : TRun) : Inv (s.retire t r) := by
  unfold State.retire
  grind [Inv.modTile, Inv.tile, TileInv.bump, TileInv, Inv.signalSem]

theorem Inv.setTrim (h : Inv s) (t i : Nat) (v : BitVec 16) : Inv (s.setTrim t i v) :=
  h.modTile_keeps _ _ fun _ hx => ⟨hx.store, hx.ctl, hx.wcfg, hx.views⟩

theorem Inv.trimRow (h : Inv s) (t row : Nat) : Inv (s.trimRow t row) := h.draw.foldl _ _ fun _ _ hs => hs.setTrim _ _ _

theorem Inv.pressTile (h : Inv s) (k last t : Nat) : Inv (s.pressTile k last t) := by
  unfold State.pressTile
  grind [Inv.modTile, Inv.tile, TileInv]

theorem Inv.startPress (h : Inv s) (d : Nat) : Inv (s.startPress d) :=
  h.draw.modDie_keeps _ _ fun _ hu => hu.congr hu.fwc rfl rfl

theorem Inv.endPress (h : Inv s) (d : Nat) : Inv (s.endPress d) := by
  unfold State.endPress
  split
  · exact h
  · split
    · exact h
    · refine Inv.modDie_keeps (Inv.draw (h.foldl _ _ fun s i hs => hs.pressTile _ _ _)) _ _ fun _ hu => hu.congr hu.fwc rfl rfl

theorem Inv.finishDirect (h : Inv s) (t : Nat) (d : TDirect) : Inv (s.finishDirect t d) := by
  unfold State.finishDirect
  grind [Inv.trimRow, Inv.modTile, Inv.tile, TileInv, Inv.signalSem]

theorem Inv.execTdaCommandRetire (h : Inv s) (t : Nat) : OutInv (execTdaCommandRetire t s) := by
  have hs := fun l => h.foldl l (fun s r => s.retire t r) fun s r hs => hs.retire t r
  unfold Machine.execTdaCommandRetire
  grind [Inv.finishDirect, OutInv]

/-! ### Loads, stores and atomics (Machine/Memory.lean) -/

theorem Inv.block (h : Inv s) (d : Nat) (b : Blk) : ActInv (s.block d b) :=
  h.modFwc_keeps _ _ fun _ hf => ⟨hf.sram, hf.ctl⟩

theorem ActInv.violation (a : Nat) : ActInv (violation a) := trivial

theorem Inv.romError (h : Inv s) (d w : Nat) : ActInv (s.romError d w) :=
  h.modFwc_keeps _ _ fun _ hf => ⟨hf.sram, hf.ctl⟩

theorem Inv.fwcLoad (h : Inv s) (d : Nat) (rd : SReg) (z : Nat) (signed : Bool) (a : Nat) : ActInv (fwcLoad s d rd z signed a) := by
  unfold Machine.fwcLoad
  grind [Inv.block, Inv.draw, Inv.touchFwc, Inv.touchSram, Inv.romError, ActInv, ActInv.violation]

theorem Inv.tileLoad (h : Inv s) (t : Nat) (rd : SReg) (z : Nat) (signed : Bool) (a : Nat) : ActInv (tileLoad s t rd z signed a) := by
  unfold Machine.tileLoad
  grind [Inv.readLocal, ReadInv, ActInv]

theorem Inv.load (h : Inv s) (r : Ring) (rd base : SReg) (off : BitVec 8) (z : Nat) (signed : Bool) : OutInv (load r rd base off z signed s) := by
  refine h.ctlWord _ _ ?_
  grind [Inv.fwcLoad, Inv.tileLoad, ActInv]

theorem Inv.fwcStore (h : Inv s) (d a : Nat) (bs : List Byte) : ActInv (fwcStore s d a bs) := by
  unfold Machine.fwcStore
  grind [Inv.block, Inv.draw, ActInv, ActInv.violation]

theorem Inv.store (h : Inv s) (r : Ring) (rs base : SReg) (off : BitVec 8) (z : Nat) : OutInv (store r rs base off z s) := by
  refine h.ctlWord _ _ ?_
  grind [Inv.fwcStore, ActInv, ActInv.violation]

theorem Inv.fwcAtomic (h : Inv s) (d : Nat) (op : AtomOp) (wide : Bool) (a : Nat) (rd : SReg) (b e : DWord) :
    ActInv (fwcAtomic s d op wide a rd b e) := by
  unfold Machine.fwcAtomic
  grind [Inv.block, Inv.draw, Inv.touchSram, ActInv, ActInv.violation]

theorem Inv.atomic (h : Inv s) (r : Ring) (op : AtomOp) (wide : Bool) (rd ra rb : SReg) : OutInv (atomic r op wide rd ra rb s) := by
  refine h.ctlWord _ _ ?_
  grind [Inv.fwcAtomic, Inv.readLocal, ReadInv, ActInv]

theorem Inv.apRead (h : Inv s) (d pa n : Nat) (use : State → Nat → State) (hu : ∀ s v, Inv s → Inv (use s v)) : Inv (s.apRead d pa n use) := by
  unfold State.apRead
  grind [Inv.touchHbm, Inv.exception]

theorem Inv.execApertureAccessPerformed (h : Inv s) (d : Nat) : OutInv (execApertureAccessPerformed d s) := by
  have hland : ∀ s ls, Inv s → Inv (s.modFwc d fun f =>
      { f with blk := none, busy := f.cyc + 1, pend := f.pend ++ pends f.cyc 0 .ctl 0 ls }) := fun s ls hs =>
    hs.modFwc_keeps _ _ fun _ hf => ⟨hf.sram, hf.ctl⟩
  unfold Machine.execApertureAccessPerformed
  dsimp only
  split
  · split
    · exact h
    · exact h.draw.apRead _ _ _ _ fun s v hs => hland _ _ hs
  · split
    · exact h
    · exact hland _ _ (h.physWrite _ _)
  · split
    · exact h
    · exact h.apRead _ _ _ _ fun s v hs => hland _ _ (hs.physWrite _ _)
  · exact h

end Sys2Proof.Machine
end

section
/-! PROOF. Translation, records and copies keep the invariant (Machine/Translate.lean, Records, Exchange, Copies). -/

namespace Sys2Proof.Machine

variable {s s' : State} {x y : Tile} {c c' : Ctl} {m m' : Store} {f g : Fwc} {u v : Die}

/-! ### Translation and records (Machine/Translate.lean, Machine/Records.lean) -/

theorem Inv.walkPage (h : Inv s) (d p : Nat) (a : Page) : Inv (s.walkPage d p a).1 := by
  unfold State.walkPage
  grind [Inv.physWrite, Inv.congr, Inv.modDie, Inv.die, DieInv]

/-- The state a translation leaves, whether or not it has an end. -/
def XlatInv {α : Type} : Except (State × BitVec 8 × Nat) (State × α) → Prop
  | .ok r => Inv r.1
  | .error e => Inv e.1

theorem Inv.translate (h : Inv s) (d p : Nat) (a : Page) : XlatInv (s.translate d p a) := by
  unfold State.translate
  grind [Inv.bumpDie, Inv.touchWords, Inv.walkPage, XlatInv]

theorem Inv.translateAll (d p : Nat) (all l : List Page) : ∀ {s : State}, Inv s → XlatInv (s.translateAll d p all l) := by
  induction l with
  | nil => exact fun h => h
  | cons a l ih =>
    intro s h
    have ht := h.translate d p a
    unfold State.translateAll
    grind [XlatInv]

theorem Inv.endTranslation (h : Inv s) (t : Nat) : Inv (s.endTranslation t) := by
  unfold State.endTranslation
  grind [Inv.modTile, Inv.tile, TileInv]

theorem Inv.setRecord (h : Inv s) (p slot : Nat) (r : List Byte) : Inv (s.setRecord p slot r) := (h.modPart _ _).physWrite _ _

theorem Inv.readSlots (h : Inv s) (t p : Nat) (slots : List Nat) (k : State → Act) (hk : ∀ s, Inv s → ActInv (k s)) :
    ActInv (s.readSlots t p slots k) := by
  have hs := h.foldl_fst slots none (fun q i =>
    match q.2 with
    | some _ => q
    | none => q.1.touchHbm (q.1.recordAt p i) 256) fun q i hq => by grind [Inv.touchHbm]
  unfold State.readSlots
  grind [ActInv]

theorem Inv.redefine (h : Inv s) (x : Tile) (o : Int) (ofs : Bool) (ths thg nhs nhg : BitVec 16) :
    ActInv (redefine s x o ofs ths thg nhs nhg) := by
  unfold Machine.redefine
  grind [Inv.setRecord, ActInv]

theorem Inv.execXrdef (h : Inv s) (r : Ring) (ths thg nhs nhg : BitVec 16) (ofs : Bool) : OutInv (execXrdef r ths thg nhs nhg ofs s) :=
  h.engWord _ _ _ fun t => h.readSlots t _ _ _ fun _ hs => hs.redefine _ _ _ _ _ _ _

theorem Inv.execXrgen (h : Inv s) (r : Ring) (a b : BitVec 16) : OutInv (execXrgen r a b s) := by
  refine h.engWord _ _ _ fun t => h.readSlots _ _ _ _ fun s hs => ?_
  grind [Inv.setRecord, ActInv]

/-! ### The words of the exchange (Machine/Exchange.lean) -/

theorem Inv.placeCopy (h : Inv s) (t : Nat) (w : CopyWord) (r : List Byte) (rd wr : List Side) (pages : List Page) :
    ActInv (placeCopy s t w r rd wr pages) := by
  have hx := Inv.translateAll (dieOf t) (s.tile t).partNo pages pages h
  unfold Machine.placeCopy
  dsimp only
  split
  · exact h
  · split
    · next he => rw [he] at hx; exact hx
    · next s' xs he =>
      rw [he] at hx
      have hs : Inv s' := hx
      split
      · split
        · exact h
        · exact h.draw.modTile_keeps _ _ fun _ hx => ⟨hx.store, hx.ctl, hx.wcfg, hx.views⟩
      · split
        · trivial
        · split
          · exact h
          · refine Inv.modTile_keeps (s := { s'.draw with copies := _, nextId := _ }) ?_ _ _ fun _ hx => ?_
            · exact hs.congr rfl rfl rfl
            · exact ⟨hx.store, hx.ctl, hx.wcfg, hx.views⟩

theorem Inv.readRegions (h : Inv s) (t p : Nat) (rs : List (Nat × Nat)) (k : State → Act) (hk : ∀ s, Inv s → ActInv (k s)) :
    ActInv (s.readRegions t p rs k) := by
  unfold State.readRegions
  grind [Inv.touchWords, ActInv]

theorem Inv.copyWord (h : Inv s) (t : Nat) (w : CopyWord) (a b : BitVec 16) : ActInv (copyWord s t w a b) := by
  have hk := h.readRegions t
  unfold Machine.copyWord
  grind [Inv.placeCopy, ActInv, ActInv.violation]

theorem Inv.flagWord (h : Inv s) (t : Nat) (w : CopyWord) (a b : BitVec 16) : ActInv (flagWord s t w a b) := by
  have hk := h.readRegions t
  unfold Machine.flagWord
  grind [Inv.placeCopy, ActInv, ActInv.violation]

theorem Inv.copyForm (h : Inv s) (k : CopyKind) (r : Ring) (w : CopyF) : OutInv (copyForm k r w s) :=
  h.engWord _ _ _ fun t => h.readSlots t _ _ _ fun _ hs => hs.copyWord _ _ _ _

theorem Inv.execXflag (h : Inv s) (r : Ring) (w : FlagF) : OutInv (execXflag r w s) :=
  h.engWord _ _ _ fun t => h.readSlots t _ _ _ fun _ hs => hs.flagWord _ _ _ _

theorem Inv.execXcnt (h : Inv s) (r : Ring) (cnt : BitVec 4) (self : Bool) (src : BitVec 9) (bytes : BitVec 21) :
    OutInv (execXcnt r cnt self src bytes s) := by
  refine h.engWord _ _ _ fun t => ?_
  grind [Inv.modTile, Inv.tile, TileInv, ActInv, ActInv.illegal]

theorem Inv.execXarm (h : Inv s) (r : Ring) (n : BitVec 12) : OutInv (execXarm r n s) := by
  refine h.engWord _ _ _ fun t => ?_
  grind [Inv.modTile, Inv.tile, TileInv, ActInv]

theorem Inv.execXarrive (h : Inv s) (r : Ring) : OutInv (execXarrive r s) := h.engWord _ _ _ fun t => h.arrive t .xp

/-! ### The copies under way (Machine/Copies.lean) -/

theorem Inv.setCopy (h : Inv s) (k : Copy) : Inv (s.setCopy k) := h.congr rfl rfl rfl
theorem Inv.dropCopy (h : Inv s) (id : Nat) : Inv (s.dropCopy id) := h.congr rfl rfl rfl
theorem Inv.failCopy (h : Inv s) (k : Copy) (e : CopyFault) : Inv (s.failCopy k e) := (h.dropCopy _).trapCopy _ _ _ _ _ _

theorem TileInv.lineRead (h : TileInv x) (line : Nat) (hy : x.lineRead line = .ok y) : TileInv y := by
  unfold Tile.lineRead at hy
  grind [TileInv]

theorem TileInv.lineWrite (h : TileInv x) (line src : Nat) (hy : x.lineWrite line src = .ok y) : TileInv y := by
  unfold Tile.lineWrite at hy
  grind [TileInv]

theorem TileInv.linesRead (l : List Nat) : ∀ {x : Tile}, TileInv x → TileInv (x.linesRead l).1 := by
  induction l with
  | nil => exact fun h => h
  | cons a l ih =>
    intro x h
    unfold Tile.linesRead
    grind [TileInv.lineRead]

theorem TileInv.countBytes (h : TileInv x) (src n : Nat) : TileInv (x.countBytes src n).1 := by
  refine List.foldlRecOn (motive := fun q : Tile × Nat => TileInv q.1) _ _ h fun q hq k _ => ?_
  grind [TileInv]

theorem StoreInv.writeScr (h : StoreInv m) (runs : List (Nat × List Byte)) : StoreInv (m.writeRuns .scr runs) := ⟨Store.ok_writeRuns _ _ _ h.ok⟩

theorem Inv.arriveLine (h : Inv s) (d t src a : Nat) (bs : List Byte) : Inv (s.arriveLine d t src a bs).1 := by
  have hl := fun y => (h.tile t).lineWrite (y := y) (a / 64) src
  unfold State.arriveLine
  grind [TileInv.countBytes, StoreInv.writeScr, TileInv, Inv.setTile, Inv.fireWrites, Inv.bumpDie]

theorem Inv.arriveBytes (h : Inv s) (d t src a : Nat) (bs : List Byte) : Inv (s.arriveBytes d t src a bs).1 := by
  refine h.foldl_fst _ _ _ fun q k hq => ?_
  grind [Inv.arriveLine]

/-- The state a copy's access leaves, failed or not. -/
def MoveInv {α : Type} : State.Moved α → Prop
  | .ok r => Inv r.1
  | .error e => Inv e.1

theorem Inv.virtRead (h : Inv s) (k : Copy) (va n : Nat) : MoveInv (s.virtRead k va n) := by
  refine List.foldlRecOn (motive := MoveInv) _ _ h fun r hr p _ => ?_
  grind [Inv.touchHbm, MoveInv]

theorem Inv.copyRead (h : Inv s) (k : Copy) (scr : Option Nat) (a : Int) (n : Nat) : MoveInv (s.copyRead k scr a n) := by
  unfold State.copyRead
  grind [Inv.virtRead, TileInv.linesRead, Inv.tile, Inv.setTile, Inv.touch, MoveInv]

theorem Inv.copyReads (k : Copy) (l : List (Option Nat × Int × Nat)) : ∀ {s : State}, Inv s → MoveInv (s.copyReads k l) := by
  induction l with
  | nil => exact fun h => h
  | cons r l ih =>
    intro s h
    have hr := h.copyRead k r.1 r.2.1 r.2.2
    unfold State.copyReads
    grind [MoveInv]

theorem Inv.readBlocks (k : Copy) (l : List ((Option Nat × Int × Nat) × (Option Nat × Int × Nat))) :
    ∀ {s : State}, Inv s → MoveInv (s.readBlocks k l) := by
  induction l with
  | nil => exact fun h => h
  | cons r l ih =>
    intro s h
    have hr := h.copyRead k r.1.1 r.1.2.1 r.1.2.2
    unfold State.readBlocks
    grind [Inv.copyRead, MoveInv]

theorem Inv.copyMoves (h : Inv s) (k : Copy) : MoveInv (s.copyMoves k) := by
  have hr := fun l => Inv.copyReads (s := s) k l h
  unfold State.copyMoves
  grind [Inv.copyReads, Inv.readBlocks, MoveInv]

theorem Inv.virtWrite (h : Inv s) (k : Copy) (va : Nat) (bs : List Byte) : Inv (s.virtWrite k va bs) :=
  (h.foldl_fst _ _ _ fun _ _ hq => hq.physWrite _ _).bumpDie _ _ _

theorem Inv.copyWrite (h : Inv s) (k : Copy) (w : Option Nat × Int × List Byte) : Inv (s.copyWrite k w).1 := by
  unfold State.copyWrite
  grind [Inv.arriveBytes, Inv.virtWrite]

theorem Inv.copyWrites (h : Inv s) (k : Copy) (ws : List (Option Nat × Int × List Byte)) : Inv (s.copyWrites k ws).1 := by
  refine h.foldl_fst _ _ _ fun q a hq => ?_
  grind [Inv.copyWrite]

/-- The state a flag's write leaves, failed or not. -/
def FlagInv : Except (State × CopyFault) State → Prop
  | .ok s => Inv s
  | .error e => Inv e.1

theorem Inv.writeFlag (h : Inv s) (k : Copy) (fop : BitVec 2) : FlagInv (s.writeFlag k fop) := by
  unfold State.writeFlag
  grind [Inv.virtRead, Inv.virtWrite, MoveInv, FlagInv]

theorem Inv.failTarget (h : Inv s) (k : Copy) (pa : Nat) : Inv (s.failTarget k pa) := h.failCopy _ _

theorem Inv.failUnavailable (h : Inv s) (k : Copy) (hs : s.failUnavailable k = some s') : Inv s' := by
  obtain ⟨pa, _, rfl⟩ := Option.map_eq_some_iff.1 hs
  exact h.failTarget k pa

theorem Inv.failed (h : Inv s) (k : Copy) : Inv ((s.failUnavailable k).getD s) := by
  cases hs : s.failUnavailable k with
  | none => exact h
  | some s' => exact h.failUnavailable k hs

theorem Inv.failStarted (h : Inv s) : Inv s.failStarted := by
  refine h.foldl _ _ fun s k hs => ?_
  grind [Inv.failed]

theorem Inv.execCopyLeave (h : Inv s) (id : Nat) : OutInv (execCopyLeave id s) := by
  unfold Machine.execCopyLeave
  grind [Inv.setCopy, Inv.failed, OutInv]

theorem Inv.moveCopy (h : Inv s) (k : Copy) : MoveInv (s.moveCopy k) := by
  unfold State.moveCopy
  grind [Inv.copyMoves, Inv.copyWrites, MoveInv]

theorem Inv.sendCopy (h : Inv s) (k : Copy) : Inv (s.sendCopy k) := by
  unfold State.sendCopy
  grind [Inv.draw, Inv.setCopy, Inv.failUnavailable, Inv.failTarget, Inv.moveCopy, Inv.failCopy, MoveInv]

theorem Inv.beginCopy (h : Inv s) (k : Copy) : Inv (s.beginCopy k) := by
  unfold State.beginCopy
  grind [Inv.takeSem, Inv.sendCopy]

theorem Inv.execCopyStart (h : Inv s) (id : Nat) : OutInv (execCopyStart id s) := by
  unfold Machine.execCopyStart
  grind [Inv.setCopy, Inv.beginCopy, OutInv]

theorem Inv.landCopy (h : Inv s) (k : Copy) : Inv (s.landCopy k) := by
  unfold State.landCopy
  grind [Inv.draw, Inv.setCopy, Inv.signalSem]

theorem Inv.execCopyLanded (h : Inv s) (id : Nat) : OutInv (execCopyLanded id s) := by
  unfold Machine.execCopyLanded
  grind [Inv.sendCopy, Inv.writeFlag, Inv.failCopy, Inv.landCopy, FlagInv, OutInv]

theorem Inv.execCopyRetired (h : Inv s) (id : Nat) : OutInv (execCopyRetired id s) := by
  unfold Machine.execCopyRetired
  grind [Inv.dropCopy, OutInv]

theorem Inv.execAtsTranslationComplete (h : Inv s) (id : Nat) (ok : Bool) : OutInv (execAtsTranslationComplete id ok s) := by
  unfold Machine.execAtsTranslationComplete
  grind [Inv.setCopy, Inv.failTarget, Inv.congr, OutInv]

theorem Inv.dropCached (h : Inv s) (k : BitVec 20 × Nat) : Inv (s.dropCached k) := by
  unfold State.dropCached
  grind [Inv.congr]

theorem Inv.retryInvals (h : Inv s) : Inv s.retryInvals :=
  List.foldlRecOn (motive := Inv) _ _ (h.congr rfl rfl rfl) fun _ hs k _ => hs.dropCached k

theorem Inv.makeOffer (h : Inv s) (p a : Nat) : Inv (s.makeOffer p a) := by
  unfold State.makeOffer
  grind [Inv.offer]

end Sys2Proof.Machine
end

section
/-! PROOF. System registers, a tile's steps and a restored context keep the invariant: a context gives no reserved bit of WCFG or of a view
(Machine/SysRegs.lean, TileSteps, Context; R11, R43, R155). -/

namespace Sys2Proof.Machine

variable {s s' : State} {x y z : Tile} {c c' : Ctl} {m m' : Store} {f g : Fwc} {u v : Die}

/-! ### System registers (Machine/SysRegs.lean) -/

theorem Inv.linkWrite (h : Inv s) (sel : BitVec 16) (sr : BitVec 8) (w : DWord) (hs : s.linkWrite sel sr w = some s') : Inv s' := by
  unfold State.linkWrite at hs
  grind [Inv.modLink]

theorem Inv.writeCtx (h : Inv s) (slot : Nat) (w : DWord) (hs : s.writeCtx slot w = some s') : Inv s' := by
  unfold State.writeCtx at hs
  grind [Inv.congr]

theorem Inv.writePcfg (h : Inv s) (p : Nat) (w : DWord) (hs : s.writePcfg p w = some s') : Inv s' := by
  unfold State.writePcfg at hs
  grind [Inv.setPart]

theorem Inv.writePrgn (h : Inv s) (p : Nat) (w : DWord) (hs : s.writePrgn p w = some s') : Inv s' := by
  unfold State.writePrgn at hs
  grind [Inv.setPart]

theorem Inv.writePrec (h : Inv s) (p : Nat) (w : DWord) (hs : s.writePrec p w = some s') : Inv s' := by
  simp only [State.writePrec, Option.ite_none_left_eq_some, Option.some.injEq] at hs
  obtain ⟨-, rfl⟩ := hs
  exact h.setPart _ _

theorem Inv.writeConfig (h : Inv s) (d : Nat) (sr : BitVec 8) (w : DWord) (hs : s.writeConfig d sr w = some s') : Inv s' := by
  obtain ⟨-, hs⟩ := Option.ite_none_left_eq_some.1 hs
  obtain ⟨r, hr, rfl⟩ := Option.map_eq_some_iff.1 hs
  have hi : Inv r := by
    split at hr
    · exact h.writePcfg _ _ hr
    · exact h.writePrgn _ _ hr
    · exact h.writePrec _ _ hr
  exact hi.congr rfl rfl rfl

theorem Inv.writeDreset (h : Inv s) (d : Nat) (w : DWord) (hs : s.writeDreset d w = some s') : Inv s' := by
  obtain ⟨-, hs⟩ := Option.ite_none_left_eq_some.1 hs
  obtain rfl := Option.some.inj hs
  refine Inv.foldl ?_ _ _ fun s e hs => ?_
  · exact h.congr rfl rfl rfl
  · split
    · exact ((hs.restartFwc e).clearEvents e).startPress e
    · split
      · exact hs.modDie_keeps _ _ fun _ hu => hu.congr hu.fwc rfl rfl
      · exact hs

theorem Inv.writeFreq (h : Inv s) (d : Nat) (w : DWord) : Inv (s.writeFreq d w) :=
  Inv.draw (h.modDie_keeps _ _ fun _ hu => hu.congr hu.fwc rfl rfl)

theorem Inv.modEvc (h : Inv s) (d : Nat) (k : Evc → Evc) : Inv (s.modEvc d k) := by
  unfold State.modEvc
  grind [Inv.modTile, Inv.tile, TileInv, Inv.modDie, Inv.die, DieInv]

theorem Inv.writeEvcnt (h : Inv s) (d : Nat) (w : DWord) : Inv (s.writeEvcnt d w) := by
  unfold State.writeEvcnt
  grind [Inv.modEvc, Inv.modDie, Inv.die, DieInv]

theorem Inv.writeDbgctl (h : Inv s) (d : Nat) (w : DWord) : Inv (s.writeDbgctl d w) :=
  h.modTile_keeps _ _ fun _ hx => ⟨hx.store, hx.ctl, hx.wcfg, hx.views⟩

theorem Inv.writeMmapx (h : Inv s) (d : Nat) (w : DWord) : Inv (s.writeMmapx d w) :=
  h.modTile_keeps _ _ fun _ hx => ⟨hx.store, hx.ctl, hx.wcfg, hx.views⟩

theorem Inv.writeOverlay (h : Inv s) (d : Nat) (w : DWord) : Inv (s.writeOverlay d w) := by
  unfold State.writeOverlay
  grind [Inv.congr]

theorem Inv.writeSync (h : Inv s) (w : DWord) (hs : s.writeSync w = some s') : Inv s' := by
  unfold State.writeSync at hs
  grind [Inv.congr]

theorem Inv.writePwrcap (h : Inv s) (w : DWord) (hs : s.writePwrcap w = some s') : Inv s' := by
  unfold State.writePwrcap at hs
  grind [Inv.congr]

theorem Inv.writeDctl (h : Inv s) (d : Nat) (w : DWord) (hs : s.writeDctl d w = some s') : Inv s' := by
  unfold State.writeDctl at hs
  grind [Inv.modDie, Inv.die, DieInv]

theorem Inv.writeElctl (h : Inv s) (d : Nat) (w : DWord) (hs : s.writeElctl d w = some s') : Inv s' := by
  have hr : (w.setWidth 9).toNat < 512 := (w.setWidth 9).isLt
  unfold State.writeElctl at hs
  grind [Inv.modDie, Inv.die, DieInv]

theorem Inv.sysWrite (h : Inv s) (d : Nat) (sr : BitVec 8) (w : DWord) (hs : s.sysWrite d sr w = some s') : Inv s' := by
  unfold State.sysWrite at hs
  split at hs
  all_goals grind [Inv.modFwc, Inv.fwc, Inv.modDie, Inv.die, Inv.modTile, Inv.tile, Inv.congr, FwcInv, DieInv, TileInv,
    Inv.writeDbgctl, Inv.writeMmapx, Inv.writeCtx, Inv.writeConfig, Inv.writeOverlay, Inv.writeFreq, Inv.writePwrcap, Inv.writeSync,
    Inv.writeDctl, Inv.linkWrite, Inv.writeElctl, Inv.modEvc, Inv.writeEvcnt, Inv.writeDreset]

theorem Inv.readDbq (h : Inv s) (d : Nat) : Inv (s.readDbq d).1 := by
  unfold State.readDbq
  grind [Inv.modDie, Inv.die, DieInv]

/-! ### The steps of a tile (Machine/TileSteps.lean) -/

theorem Inv.execPrefetchBufferFilled (h : Inv s) (t : Nat) : OutInv (execPrefetchBufferFilled t s) :=
  h.modTile_keeps t _ fun _ hx => ⟨hx.store, hx.ctl.congr rfl rfl, hx.wcfg, hx.views⟩

theorem TileInv.place (h : TileInv x) (e : Eng) (succ : Bool) (w : Word) : TileInv (x.place e succ w) := by
  unfold Tile.place
  grind [TileInv]

theorem TileInv.placeSig (h : TileInv x) (e : Eng) (k : Sig) : TileInv (x.placeSig e k).1 := by
  unfold Tile.placeSig
  grind [TileInv.place]

theorem TileInv.placeSigs (e : Eng) (n : Nat) : ∀ {x : Tile}, TileInv x → TileInv (x.placeSigs e n) := by
  induction n with
  | zero => exact fun h => h
  | succ n ih =>
    intro x h
    unfold Tile.placeSigs
    grind [TileInv.placeSig, TileInv.setPos]

theorem TileInv.payDue (h : TileInv x) : TileInv x.payDue := ⟨h.store, h.ctl, h.wcfg, h.views⟩

theorem Inv.execRingTokenSignal (h : Inv s) (t : Nat) : OutInv (execRingTokenSignal t s) :=
  h.modTile_keeps t _ fun _ hx => hx.payDue.foldl _ _ fun _ _ hx => TileInv.placeSigs _ _ hx

theorem Inv.execTokenDeadlock (h : Inv s) (t : Nat) : OutInv (execTokenDeadlock t s) := by
  unfold Machine.execTokenDeadlock
  grind [Inv.trapWord, OutInv]

theorem Inv.execFifoElementPoppable (h : Inv s) (t : Nat) : OutInv (execFifoElementPoppable t s) :=
  h.modTile_keeps t _ fun _ hx => ⟨hx.store, hx.ctl, hx.wcfg, hx.views⟩

theorem Inv.execTileHalted (h : Inv s) (t : Nat) : OutInv (execTileHalted t s) := by
  unfold Machine.execTileHalted
  grind [Inv.freeze, Inv.modTile, Inv.tile, TileInv, OutInv]

/-! ### Contexts (Machine/Context.lean) -/

/-- A range of a memory moved to address 0 keeps the canonical form. -/
theorem Mem.wf_slice {k : Mem} (h : Memory.wf k = true) (a n : Nat) : Memory.wf (Mem.slice k a n) = true := by
  have hf := Map.wfFrom_filter 0#8 0 k (fun e => decide (a ≤ e.1) && decide (e.1 < a + n)) h
  have ha : ∀ e ∈ k.filter (fun e => decide (a ≤ e.1) && decide (e.1 < a + n)), a ≤ e.1 := fun e he => by
    simp only [List.mem_filter, Bool.and_eq_true, decide_eq_true_eq] at he
    exact he.2.1
  unfold Mem.slice Memory.wf
  generalize k.filter _ = l at hf ha
  rw [Map.wfFrom_iff] at hf ⊢
  refine ⟨?_, fun e he => ?_⟩
  · simp only [List.pairwise_map] at hf ⊢
    exact hf.1.imp_of_mem fun hx hy hl => by
      have := ha _ hx
      omega
  · obtain ⟨i, hi, rfl⟩ := List.mem_map.1 he
    exact ⟨Nat.zero_le _, (hf.2 i hi).2⟩

/-- What holds of the default and of every entry that a control block gives holds of an entry of the map read from it. -/
theorem cbMap_get {α : Type} [DecidableEq α] {P : α → Prop} (d : α) (n : Nat) (k : Nat → α) (i : Nat) (hd : P d) (hk : P (k i)) :
    P ((cbMap d n k).get d i) := by
  rw [Map.get_find]
  cases hf : (cbMap d n k).find? (·.1 == i) with
  | none => exact hd
  | some e =>
    have hm := List.mem_of_find?_eq_some hf
    have hi := List.find?_some hf
    obtain ⟨j, -, hj⟩ := List.mem_filterMap.1 hm
    grind

theorem restoreRegs_s0 (x : Tile) (k : Mem) : (restoreRegs x k).ctl.s.get 0#32 0 = 0#32 := by
  unfold restoreRegs
  exact cbMap_get (P := fun v => v = 0#32) _ _ _ _ rfl (if_pos rfl)

theorem restoreRegs_p0 (x : Tile) (k : Mem) : (restoreRegs x k).ctl.p.get false 0 = false := by
  unfold restoreRegs
  exact cbMap_get (P := fun v => v = false) _ _ _ _ rfl rfl

theorem restoreRegs_views (x : Tile) (k : Mem) (i : Nat) : (restoreRegs x k).vw.get 0#64 i &&& 0xF00000000003F800#64 = 0#64 := by
  unfold restoreRegs
  refine cbMap_get (P := fun v => v &&& 0xF00000000003F800#64 = 0#64) _ _ _ _ (by decide) ?_
  rw [BitVec.and_assoc]
  exact BitVec.and_zero

theorem TileInv.restorePos (h : TileInv x) (k : Mem) : TileInv (restorePos x k) := ⟨h.store, h.ctl, h.wcfg, h.views⟩

theorem TileInv.restoreRegs (h : TileInv x) (k : Mem) : TileInv (restoreRegs x k) :=
  ⟨h.store, ⟨restoreRegs_s0 x k, restoreRegs_p0 x k⟩, h.wcfg, restoreRegs_views x k⟩

theorem TileInv.restoreTile (h : TileInv x) {k : Mem} (hk : Memory.wf k = true) : TileInv (restoreTile x k) := by
  have hm : StoreInv { x.store with
      reg := Mem.slice k 0 0x80000, scr := Mem.slice k 0x80000 0x100000, ofl := Mem.slice k 0x180000 0x8000
      lat := Mem.slice k 0x188000 0x6000
      ecc := x.store.ecc.filter fun e => e.sp == .text || e.sp == .seq } :=
    ⟨Mem.wf_slice hk _ _, Mem.wf_slice hk _ _, Mem.wf_slice hk _ _, Mem.wf_slice hk _ _⟩
  have hr := TileInv.restorePos (TileInv.restoreRegs (x := { x with store := _, cyc := 0, pend := [] })
    ⟨hm, h.ctl, h.wcfg, h.views⟩ k) k
  refine ⟨hr.store, hr.ctl, ?_, hr.views⟩
  show (BitVec.ofNat 32 (cb k 0x60 4) &&& wcfgBits) &&& _ = _
  rw [BitVec.and_assoc]
  exact BitVec.and_zero

theorem TileInv.thawLaid (h : TileInv x) (y : Tile) (k : Mem) : TileInv (thawLaid x y k) := ⟨h.store, h.ctl, h.wcfg, h.views⟩

theorem TileInv.thaw (h : TileInv x) (y : Tile) (k : Mem) : TileInv (thaw x y k) := ⟨h.store, h.ctl.congr rfl rfl, h.wcfg, h.views⟩

theorem TileInv.restoreContext (h : TileInv x) (s : State) {k : Mem} (hk : Memory.wf k = true) : TileInv (s.restoreContext x k) := by
  have hr := h.restoreTile hk
  unfold State.restoreContext
  grind [TileInv.thaw, TileInv.thawLaid, TileInv]

end Sys2Proof.Machine
end

section
/-! PROOF. The firmware core's words and the transfers keep the invariant (Machine/System.lean, Transfer). -/

namespace Sys2Proof.Machine

variable {s s' : State} {x y z : Tile} {c c' : Ctl} {m m' : Store} {f g : Fwc} {u v : Die}

/-! ### The words of the firmware core (Machine/System.lean) -/

theorem Inv.sysWord (h : Inv s) (act : Nat → State → Act) (ha : ∀ d, ActInv (act d s)) : OutInv (sysWord act s) := by
  refine h.ctlWord _ _ ?_
  split
  · exact ha _
  · exact ActInv.illegal s

theorem ActInv.refuse (w : DWord) : ActInv (refuse w) := trivial

theorem Inv.execMfsr (h : Inv s) (sd : SReg) (sr : BitVec 8) : OutInv (execMfsr sd sr s) := by
  refine h.sysWord _ fun d => ?_
  have hr := h.readDbq d
  unfold takeDoorbell
  grind [ActInv, ActInv.illegal]

theorem Inv.execDbqRead (h : Inv s) (d : Nat) (sd : SReg) : OutInv (execDbqRead d sd s) :=
  (h.readDbq d).modFwc_keeps d _ fun _ hf => ⟨hf.sram, hf.ctl⟩

theorem Inv.execMtsr (h : Inv s) (sa : SReg) (sr : BitVec 8) : OutInv (execMtsr sa sr s) := by
  refine h.sysWord _ fun d => ?_
  grind [Inv.block, ActInv.illegal]

theorem Inv.execEret (h : Inv s) : OutInv (execEret s) := by
  refine h.sysWord _ fun d => ?_
  grind [Inv.returnFrom, ActInv.illegal, ActInv]

theorem DieInv.fresh : DieInv State.die0 := ⟨⟨rfl, ⟨rfl, rfl⟩⟩, by decide, by decide⟩

/-- What an update of every listed entry keeps holds of every entry, if it holds of the default. -/
theorem get_mapped {α : Type} {P : α → Prop} {d : α} (k : α → α) (i : Nat) (hd : P d) (hk : ∀ v, P v → P (k v)) :
    ∀ m : Map α, P (m.get d i) → P (Map.get (m.map fun e => (e.1, k e.2)) d i)
  | [], _ => hd
  | (j, v) :: r, h => by
    have ih := get_mapped k i hd hk r
    simp only [List.map_cons, Map.get_cons] at h ⊢
    by_cases hi : j = i
    · simp only [hi, if_true] at h ⊢
      exact hk _ h
    · simp only [hi, if_false] at h ⊢
      exact ih h

/-- An update of every listed die that a fresh die does not feel. -/
theorem Inv.mapDies (h : Inv s) (k : Die → Die) (hk : ∀ u, DieInv u → DieInv (k u)) :
    Inv { s with dies := s.dies.map fun e => (e.1, k e.2) } := by
  exact ⟨h.mem, h.tile, fun d => get_mapped k d DieInv.fresh hk _ (h.die d)⟩

theorem Inv.invalidate (h : Inv s) (d : Nat) (hit : TluEnt → Bool) : ActInv (invalidate s d hit) := by
  refine Inv.block (s := { s with dies := s.dies.map fun e => (e.1, { e.2 with tlu := e.2.tlu.filter fun x => !hit x }) }) ?_ _ _
  exact h.mapDies (fun u => { u with tlu := u.tlu.filter fun x => !hit x }) fun u hu => ⟨hu.fwc, hu.wr, hu.rd⟩

theorem Inv.execTlbi (h : Inv s) (sa sb : SReg) : OutInv (execTlbi sa sb s) := by
  refine h.sysWord _ fun d => ?_
  dsimp only
  split
  · trivial
  · exact h.invalidate _ _

theorem Inv.execTlbia (h : Inv s) (sb : SReg) : OutInv (execTlbia sb s) := h.sysWord _ fun _ => h.invalidate _ _

theorem Inv.execWfe (h : Inv s) : OutInv (execWfe s) := by
  refine h.sysWord _ fun d => ?_
  grind [Inv.modFwc, Inv.fwc, FwcInv, Inv.block, ActInv]

theorem Inv.sendEvents (h : Inv s) (ds : BitVec 8) : Inv (s.sendEvents ds) := by
  refine h.foldl _ _ fun s e hs => ?_
  grind [Inv.draw, Inv.modDie, Inv.die, DieInv]

theorem Inv.execSev (h : Inv s) (sb : SReg) : OutInv (execSev sb s) := h.sysWord _ fun _ => h.sendEvents _

theorem Inv.setLatch (h : Inv s) (d : Nat) : Inv (s.setLatch d) := by
  unfold State.setLatch
  grind [Inv.modDie, Inv.die, DieInv, FwcInv]

theorem Inv.interrupt (h : Inv s) (d : Nat) : Inv (s.interrupt d) := by
  unfold State.interrupt
  grind [Inv.exception]

theorem Inv.readTile (h : Inv s) (t : Nat) : Inv (s.readTile t).1 := by
  refine h.foldl_fst _ _ _ fun q sp hq => ?_
  grind [Inv.correct]

/-- A save writes physical memory and the list of saves alone. -/
theorem saveContext_parts (s : State) (t pa : Nat) : (s.saveContext t pa).tiles = s.tiles ∧ (s.saveContext t pa).dies = s.dies := by
  unfold State.saveContext
  dsimp only
  by_cases hp : (s.portOf pa).isSome = true <;> simp only [hp] <;> split <;> exact ⟨rfl, rfl⟩

theorem Inv.saveContext (h : Inv s) (t pa : Nat) : Inv (s.saveContext t pa) := by
  obtain ⟨ht, hd⟩ := saveContext_parts s t pa
  refine ⟨s.saveContext_ok t pa h.mem, fun u => ?_, fun u => ?_⟩
  · rw [State.tile, ht]
    exact h.tile u
  · rw [State.die, hd]
    exact h.die u

theorem Inv.wf_physBlock (h : Inv s) (pa n : Nat) : Memory.wf (s.physBlock pa n) = true := by
  unfold State.physBlock
  split
  · exact (cells_wf _ _).1
  · exact Mem.wf_slice h.mem _ _

theorem Inv.loadContext (h : Inv s) (t pa : Nat) : Inv (s.loadContext t pa) :=
  h.draw.setTile _ _ ((h.tile t).restoreContext _ (h.wf_physBlock _ _))

theorem Inv.execCsave (h : Inv s) (sa sb : SReg) : OutInv (execCsave sa sb s) := by
  refine h.sysWord _ fun d => ?_
  grind [Inv.block, ActInv.refuse]

theorem Inv.execCrest (h : Inv s) (sa sb : SReg) : OutInv (execCrest sa sb s) := by
  refine h.sysWord _ fun d => ?_
  grind [Inv.block, ActInv.refuse, ActInv]

theorem Inv.execTtrimRd (h : Inv s) (sd sb : SReg) : OutInv (execTtrimRd sd sb s) := h.sysWord _ fun _ => h.block _ _
theorem Inv.execTtrimWr (h : Inv s) (sa sb : SReg) : OutInv (execTtrimWr sa sb s) := h.sysWord _ fun _ => h.block _ _

theorem Inv.execFinj (h : Inv s) (sa sb : SReg) : OutInv (execFinj sa sb s) := by
  refine h.sysWord _ fun d => ?_
  grind [Inv.block, ActInv.refuse]

theorem Inv.discardCopies (h : Inv s) (p : Nat) : Inv (s.discardCopies p) := h.congr rfl rfl rfl

theorem Inv.modTiles (h : Inv s) (p : Nat) (k : Tile → Tile) (hk : ∀ x, TileInv x → TileInv (k x)) : Inv (s.modTiles p k) :=
  h.foldl _ _ fun _ _ hs => hs.modTile_keeps _ _ hk

/-- The tiles of a partition stop running, or start. -/
theorem Inv.setRun (h : Inv s) (p : Nat) (b : Bool) : Inv (s.modTiles p fun x => { x with seat := { x.seat with run := b } }) :=
  h.modTiles _ _ fun _ hx => ⟨hx.store, hx.ctl, hx.wcfg, hx.views⟩

theorem Inv.logExtension (h : Inv s) (q : Part) : Inv (s.logExtension q) := by
  unfold State.logExtension
  grind [Inv.log]

theorem Inv.abortPart (h : Inv s) (p : Nat) : Inv (s.abortPart p) := by
  unfold State.abortPart
  exact (((h.logExtension _).discardCopies p).setRun p false).modPart _ _

theorem Inv.resumeTile (h : Inv s) (t : Nat) : Inv (s.resumeTile t) := by
  unfold State.resumeTile
  grind [Inv.modTile, Inv.tile, TileInv, Inv.modPart]

theorem Inv.unblock (h : Inv s) (d : Nat) : Inv (s.unblock d) := h.modFwc_keeps _ _ fun _ hf => ⟨hf.sram, hf.ctl⟩

theorem Inv.refuseBlk (h : Inv s) (d : Nat) (w : DWord) : Inv (s.refuseBlk d w) := h.exception _ _ _ _

theorem Inv.landTcmd (h : Inv s) (d : Nat) (w : DWord) : Inv (s.landTcmd d w) := by
  unfold State.landTcmd
  grind [Inv.refuseBlk, Inv.modFwc, Inv.fwc, FwcInv]

theorem Inv.landWrite (h : Inv s) (d : Nat) (sr : BitVec 8) (w : DWord) : Inv (s.landWrite d sr w) := by
  unfold State.landWrite
  grind [Inv.sysWrite, Inv.unblock, Inv.refuseBlk]

theorem Inv.execPartitionConfigWrite (h : Inv s) (d : Nat) (sr : BitVec 8) (w : DWord) : OutInv (execPartitionConfigWrite d sr w s) := by
  unfold Machine.execPartitionConfigWrite
  grind [Inv.landWrite, OutInv]

theorem Inv.landFwcWord (h : Inv s) (d : Nat) (l : List (Nat × Land)) : Inv (s.modFwc d fun f => l.foldl (fun f l => f.land l.2) f) :=
  h.modFwc_keeps _ _ fun _ hf => hf.foldl _ _ fun _ _ hf => hf.land _

theorem Inv.endBlock (h : Inv s) (d : Nat) : Inv (s.endBlock d) := by
  unfold State.endBlock
  dsimp only
  split
  · grind [Inv.unblock]
  · grind [Inv.readTile, Inv.exception, Inv.saveContext, Inv.unblock]
  · grind [Inv.touchHbm, Inv.exception, Inv.loadContext, Inv.unblock]
  · split
    · exact h
    · exact (h.landFwcWord _ _).unblock d
  · grind [Inv.setTrim, Inv.unblock]
  · grind [Inv.modDie, Inv.die, DieInv, Inv.unblock, Inv.fire]
  · exact h

theorem Inv.took (h : Inv s) (o : Out) (ho : OutInv o) : Inv (took o s) := by
  unfold Machine.took
  grind [OutInv]

theorem Inv.endOther (h : Inv s) (d : Nat) : Inv (s.endOther d) := by
  unfold State.endOther
  grind [Inv.landWrite, Inv.took, Inv.execApertureAccessPerformed, Inv.endBlock]

theorem Inv.fwcInterrupt (h : Inv s) (d : Nat) : Inv (s.fwcInterrupt d) := by
  unfold State.fwcInterrupt
  grind [Inv.interrupt]

theorem Inv.execTcmdResume (h : Inv s) (d : Nat) : OutInv (execTcmdResume d s) := by
  unfold Machine.execTcmdResume
  grind [Inv.resumeTile, Inv.unblock, Inv.refuseBlk, OutInv]

/-! ### Transfers and loops (Machine/Transfer.lean) -/

theorem Inv.countRefetch (h : Inv s) (t : Target) : Inv (s.countRefetch t) := by
  unfold State.countRefetch
  grind [Inv.modTile, Inv.tile, TileInv.bump]

theorem Inv.goTo (h : Inv s) (next delay : Nat) (lands : List (Nat × Land)) : ActInv (goTo s next delay lands) := h

theorem Inv.goThrough (h : Inv s) (t : TReg) (lands : List (Nat × Land)) : ActInv (goThrough s t lands) := by
  unfold Machine.goThrough
  grind [Inv.goTo, Inv.countRefetch, ActInv]

theorem Inv.transfer (h : Inv s) (r : Ring) (t : TReg) (p : PReg) (sense : Bool) : OutInv (transfer r t p sense s) := by
  refine h.ctlWord _ _ ?_
  grind [Inv.goTo, Inv.goThrough, ActInv]

theorem Inv.execCall (h : Inv s) (r : Ring) (t : TReg) : OutInv (execCall r t s) := by
  refine h.ctlWord _ _ ?_
  grind [Inv.goThrough, ActInv]

theorem Inv.execCinv (h : Inv s) (r : Ring) (t : TReg) : OutInv (execCinv r t s) :=
  h.ctlWord _ _ (h.modCtl _ fun _ hc => hc.congr rfl rfl)

theorem Inv.execCinva (h : Inv s) (r : Ring) : OutInv (execCinva r s) :=
  h.ctlWord _ _ (h.modCtl _ fun _ hc => hc.congr rfl rfl)

theorem Inv.setLoop (h : Inv s) (k : BitVec 3) (n : BitVec 16) : ActInv (setLoop s k n) := by
  unfold Machine.setLoop
  grind [ActInv, ActInv.illegal]

theorem Inv.execLpend (h : Inv s) (r : Ring) (lv : BitVec 3) : OutInv (execLpend r lv s) := by
  refine h.ctlWord _ _ ?_
  grind [Inv.goTo, ActInv, ActInv.illegal]

end Sys2Proof.Machine
end

section
/-! PROOF. Front-end accesses, the partition and phase controllers, links and package time keep the invariant (Machine/Partition.lean, Links). -/

namespace Sys2Proof.Machine

variable {s s' : State} {x y z : Tile} {c c' : Ctl} {m m' : Store} {f g : Fwc} {u v : Die}

theorem Inv.ite {p : Prop} [Decidable p] (h : Inv s) (h' : Inv s') : Inv (if p then s else s') := by
  split
  · exact h
  · exact h'

/-! ### Accesses through a front-end's context (Machine/Partition.lean) -/

/-- The state an access through a context slot leaves, done or not. -/
def FrontInv {α : Type} : State.Front α → Prop
  | .ok r => Inv r.1
  | .error e => Inv e.1

theorem FrontInv.frontThen {α β : Type} (r : State.Front α) (k : State → α → State.Front β) (hr : FrontInv r)
    (hk : ∀ s a, Inv s → FrontInv (k s a)) : FrontInv (State.frontThen r k) := by
  unfold State.frontThen
  grind [FrontInv]

theorem Inv.refuseFront {α : Type} (h : Inv s) (cause : BitVec 8) : FrontInv (s.refuseFront cause : State.Front α) := h

theorem Inv.frontTranslate (h : Inv s) (d c va : Nat) (wr : Bool) : FrontInv (s.frontTranslate d c va wr) := by
  unfold State.frontTranslate
  grind [Inv.refuseFront, Inv.bumpDie, Inv.touchWords, Inv.physWrite, FrontInv]

theorem Inv.frontReach (h : Inv s) (d c pa n : Nat) : FrontInv (s.frontReach d c pa n) := by
  unfold State.frontReach
  grind [Inv.refuseFront, Inv.draw, Inv.congr, FrontInv]

theorem Inv.frontPiece (h : Inv s) (d c va n : Nat) : FrontInv (s.frontPiece d c va n) := by
  unfold State.frontPiece
  grind [Inv.refuseFront, Inv.frontTranslate, Inv.frontReach, Inv.touchHbm, FrontInv]

/-- The answer of an access may change; the state does not. -/
theorem FrontInv.map {α β : Type} (r : State.Front α) (k : State × α → State × β) (hr : FrontInv r) (hk : ∀ q, Inv q.1 → Inv (k q).1) :
    FrontInv (r.map k) := by
  cases r with
  | error e => exact hr
  | ok q => exact hk q hr

theorem Inv.frontRead (h : Inv s) (d c va n : Nat) : FrontInv (s.frontRead d c va n) := by
  refine List.foldlRecOn (motive := FrontInv) _ _ h fun r hr p _ => ?_
  split
  · exact hr
  · exact FrontInv.map _ _ (Inv.frontPiece hr _ _ _ _) fun _ hq => hq

theorem Inv.frontWrite (h : Inv s) (d c va : Nat) (sc : Bool) (bs : List Byte) : FrontInv (s.frontWrite d c va sc bs) := by
  have ht := h.frontTranslate d c va true
  unfold State.frontWrite
  split
  · next he => rw [he] at ht; exact ht
  · next he =>
    rw [he] at ht
    split
    · exact Inv.refuseFront ht _
    · exact FrontInv.map _ _ (Inv.frontReach ht _ _ _ _) fun _ hq => hq.physWrite _ _

theorem Inv.storeStatus (h : Inv s) (k : Status) : Inv (s.storeStatus k) := by
  unfold State.storeStatus
  grind [Inv.frontWrite, Inv.log, Inv.congr, FrontInv]

theorem Inv.retryStatus (h : Inv s) : Inv s.retryStatus :=
  List.foldlRecOn (motive := Inv) _ _ (h.congr rfl rfl rfl) fun _ hs k _ => hs.storeStatus k

theorem Inv.writeStatus (h : Inv s) (p : Nat) (w : DWord) : Inv (s.writeStatus p w) := by
  unfold State.writeStatus
  grind [Inv.modPart, Inv.storeStatus]

theorem Inv.answer (h : Inv s) (e res : Nat) : Inv (s.answer e res) := (h.physWrite _ _).physWrite _ _

theorem Inv.endPreempt (h : Inv s) (p res : Nat) : Inv (s.endPreempt p res) := h.congr rfl rfl rfl

theorem Inv.writeReplies (h : Inv s) : Inv s.writeReplies :=
  List.foldlRecOn (motive := Inv) _ _ (h.congr rfl rfl rfl) fun _ hs k _ => hs.answer k.1 k.2

/-! ### The partition and phase controllers (Machine/Partition.lean) -/

theorem Inv.abort (h : Inv s) (p : Nat) : Inv (s.abort p) := by
  unfold State.abort
  exact (Inv.writeStatus ((h.abortPart p).modPart _ _) _ _).endPreempt _ _

theorem TileInv.newTags (h : TileInv x) : TileInv (State.newTags x) := ⟨h.store, h.ctl, h.wcfg, h.views⟩

theorem Inv.newTags (h : Inv s) (l : List Nat) : Inv (l.foldl (fun s t => s.modTile t State.newTags) s) :=
  h.foldl _ _ fun _ _ hs => hs.modTile_keeps _ _ fun _ hx => hx.newTags

theorem Inv.toBoundary (h : Inv s) (p : Nat) : Inv (s.toBoundary p) := by
  unfold State.toBoundary
  grind [Inv.logExtension, Inv.newTags, Inv.modPart]

theorem Inv.lateHold (h : Inv s) (p : Nat) : Inv (s.lateHold p) := by
  unfold State.lateHold
  grind [Inv.holdPart]

theorem Inv.phaseComplete (h : Inv s) (p : Nat) : Inv (s.phaseComplete p) := by
  unfold State.phaseComplete
  grind [Inv.toBoundary]

theorem Inv.partitionDone (h : Inv s) (p : Nat) : Inv (s.partitionDone p) := by
  unfold State.partitionDone
  refine Inv.ite h (Inv.endPreempt (Inv.writeStatus (Inv.modPart (Inv.setRun ?_ p false) _ _) _ _) _ _)
  exact Inv.ite (h.newTags _) h

theorem TileInv.enterPhase (h : TileInv x) (phase : Nat) : TileInv (State.enterPhase x phase) :=
  ⟨h.store.congr rfl rfl rfl rfl, h.ctl.congr rfl rfl, h.wcfg, h.views⟩

theorem TileInv.openTile (h : TileInv x) : TileInv (State.openTile x) := h.enterPhase _

theorem TileInv.startTile (h : TileInv x) : TileInv (State.startTile x) :=
  TileInv.enterPhase (x := { x with seat := { x.seat with run := true } }) ⟨h.store, h.ctl, h.wcfg, h.views⟩ _

theorem Inv.logSaturated (h : Inv s) (t : Nat) : Inv (s.logSaturated t) := by
  have hs := h.foldl (s.tile t).sync.semSat (fun s' e =>
    s'.log (dieOf t) 0x22 2 7 (slotOf t) 0 0 (s'.tile t).seat.phase (BitVec.ofNat 64 e.1)) fun s e hs => hs.log _ _ _ _ _ _ _ _ _
  unfold State.logSaturated
  grind [Inv.modTile, Inv.tile, TileInv]

theorem Inv.applyDivisor (h : Inv s) (d : Nat) : Inv (s.applyDivisor d) := by
  unfold State.applyDivisor
  grind [Inv.modDie, Inv.die, DieInv]

theorem Inv.enterBuffers (h : Inv s) (p d origin : Nat) : Inv (s.enterBuffers p d origin) := h.congr rfl rfl rfl

/-- The tiles of a die enter a phase. -/
theorem Inv.openTiles (h : Inv s) (l : List Nat) : Inv (l.foldl (fun s t => (s.logSaturated t).modTile t State.openTile) s) :=
  h.foldl _ _ fun _ _ hs => (hs.logSaturated _).modTile_keeps _ _ fun _ hx => hx.openTile

theorem Inv.startTiles (h : Inv s) (l : List Nat) : Inv (l.foldl (fun s t => s.modTile t State.startTile) s) :=
  h.foldl _ _ fun _ _ hs => hs.modTile_keeps _ _ fun _ hx => hx.startTile

theorem Inv.dieOpen (h : Inv s) (p d : Nat) : Inv (s.dieOpen p d) := by
  unfold State.dieOpen
  grind [Inv.modPart, Inv.startTiles, Inv.modDie, Inv.die, DieInv, Inv.openTiles, Inv.applyDivisor, Inv.enterBuffers]

theorem Inv.controllerOpen (h : Inv s) (p : Nat) : Inv (s.controllerOpen p) := by
  unfold State.controllerOpen
  grind [Inv.modPart]

theorem Inv.releaseHeld (h : Inv s) : Inv s.releaseHeld := by
  unfold State.releaseHeld
  grind [Inv.congr]

theorem Inv.launchStart (h : Inv s) (p : Nat) : Inv (s.launchStart p) := by
  unfold State.launchStart
  grind [Inv.modPart, Inv.abort]

theorem Inv.deadlineReached (h : Inv s) (p : Nat) : Inv (s.deadlineReached p) := by
  unfold State.deadlineReached
  grind [Inv.modPart]

theorem Inv.stragglerLimit (h : Inv s) (p : Nat) : Inv (s.stragglerLimit p) := by
  have hl := fun l => h.foldl l (fun s' t => s'.trapAsync t Cause.straggler (BitVec.ofNat 64 (s'.time - (s.part p).extStart)) 0 none)
    fun s _ hs => hs.trapAsync _ _ _ _ _
  unfold State.stragglerLimit
  grind [Inv.modPart, Inv.abort]

theorem Inv.timeZoneSlip (h : Inv s) (d : Nat) : Inv (s.timeZoneSlip d) := by
  have hl := fun l => h.foldl l (fun s' t => s'.trapAsync t Cause.slip (BitVec.ofInt 64 (s.drift d)) 0 none)
    fun s _ hs => hs.trapAsync _ _ _ _ _
  unfold State.timeZoneSlip
  grind [Inv.abort]

theorem Inv.saveEntry (h : Inv s) (p : Nat) : Inv (s.saveEntry p) := by
  have hl := fun l => h.foldl l State.logSaturated fun s _ hs => hs.logSaturated _
  unfold State.saveEntry
  grind [Inv.modPart]

theorem Inv.saveTile (h : Inv s) (q : Part) (c lt : Nat) : FrontInv (s.saveTile q c lt) := by
  unfold State.saveTile
  grind [Inv.refuseFront, Inv.frontTranslate, Inv.frontReach, Inv.readTile, Inv.saveContext, FrontInv]

theorem Inv.saveTiles (h : Inv s) (q : Part) (c : Nat) : FrontInv (s.saveTiles q c) := by
  refine List.foldlRecOn (motive := FrontInv) _ _ h fun r hr p _ => ?_
  split
  · exact hr
  · exact Inv.saveTile hr _ _ _

theorem Inv.saveComplete (h : Inv s) (p : Nat) : Inv (s.saveComplete p) := by
  unfold State.saveComplete
  refine Inv.ite h ?_
  split
  · exact (h.modPart _ _).abort p
  · next k _ =>
    have hs := h.saveTiles (s.part p) k
    split
    · next he => rw [he] at hs; exact (Inv.modPart hs _ _).abort p
    · exact h
    · next he =>
      rw [he] at hs
      exact Inv.endPreempt (Inv.writeStatus (Inv.modPart (Inv.setRun hs p false) _ _) _ _) _ _

theorem Inv.execTcmdAbort (h : Inv s) (d : Nat) : OutInv (execTcmdAbort d s) := by
  unfold Machine.execTcmdAbort
  grind [Inv.abort, Inv.unblock, Inv.refuseBlk, OutInv]

theorem Inv.execDivisorApply (h : Inv s) (d : Nat) : OutInv (execDivisorApply d s) := by
  unfold Machine.execDivisorApply
  grind [Inv.modDie, Inv.die, DieInv, OutInv]

/-! ### Links, the ports and package time (Machine/Links.lean) -/

theorem Inv.startAttempt (h : Inv s) (k n : Nat) : Inv (s.startAttempt k n) := (h.modLink _ _).draw

theorem Inv.replayFlit (h : Inv s) (k : Nat) (dir : Bool) : Inv (s.replayFlit k dir) := by
  unfold State.replayFlit
  refine Inv.ite h (Inv.ite (Inv.startAttempt (Inv.modLink ?_ _ _) _ _) ?_) <;> exact (h.draw.modLink _ _).bumpDie _ _ _

theorem Inv.errLane (h : Inv s) (k : Nat) (dir : Bool) (a lane : Nat) : Inv (s.errLane k dir a lane) := by
  unfold State.errLane
  exact Inv.ite h (Inv.ite ((h.modLink _ _).log _ _ _ _ _ _ _ _ _) (h.modLink _ _))

theorem Inv.drainLink (h : Inv s) (k : Nat) : Inv (s.drainLink k) := by
  unfold State.drainLink
  grind [Inv.draw, Inv.modLink]

theorem Inv.endPause (h : Inv s) (k : Nat) : Inv (s.endPause k) := by
  unfold State.endPause
  grind [Inv.startAttempt, Inv.modLink]

theorem Inv.endAttempt (h : Inv s) (k : Nat) : Inv (s.endAttempt k) := by
  unfold State.endAttempt
  grind [Inv.draw, Inv.modLink, Inv.releaseHeld, Inv.startAttempt, Inv.failStarted]

theorem Inv.failUncore (h : Inv s) (site : Nat) : Inv (s.failUncore site) := by
  unfold State.failUncore
  grind [Inv.failStarted, Inv.congr]

theorem Inv.answerOut (h : Inv s) (bs : List Byte) : Inv (s.answerOut bs) := h.congr rfl rfl rfl

theorem Inv.hbmAccess (h : Inv s) (wr : Bool) (a : Nat) (data : List Byte) : Inv (s.hbmAccess wr a data) := by
  unfold State.hbmAccess
  grind [Inv.physWrite, Inv.touchHbm, Inv.answerOut]

theorem Inv.serveInbound (h : Inv s) (i : Inbound) : Inv (s.serveInbound i) := by
  unfold State.serveInbound State.portAccess State.bar2
  grind [Inv.answerOut, Inv.hbmAccess]

theorem Inv.resizeBar2 (h : Inv s) : Inv s.resizeBar2 := h.congr rfl rfl rfl

theorem Inv.takeInbound (h : Inv s) (i : Inbound) : Inv (s.takeInbound i) := by
  unfold State.takeInbound
  grind [Inv.serveInbound, Inv.congr]

theorem Inv.retryInbound (h : Inv s) : Inv s.retryInbound :=
  List.foldlRecOn (motive := Inv) _ _ (h.congr rfl rfl rfl) fun _ hs i _ => hs.takeInbound i

theorem Inv.nextService (h : Inv s) (d : Nat) (k : Svc) (n : Nat) : Inv (s.nextService d k n) :=
  h.draw.modDie_keeps _ _ fun _ hu => hu.congr hu.fwc rfl rfl

theorem Inv.endService (h : Inv s) (d : Nat) : Inv (s.endService d) := h.modDie_keeps _ _ fun _ hu => hu.congr hu.fwc rfl rfl

theorem Inv.setLsel (h : Inv s) (d k : Nat) : Inv (s.setLsel d k) := h.modDie_keeps _ _ fun _ hu => hu.congr hu.fwc rfl rfl

theorem Inv.serviceMap (h : Inv s) (d : Nat) (k : Svc) : Inv (s.serviceMap d k) := by
  unfold State.serviceMap
  grind [Inv.endService, Inv.modLink, Inv.setLsel, Inv.nextService]

theorem Inv.serviceOverlay (h : Inv s) (d : Nat) (k : Svc) : Inv (s.serviceOverlay d k) := by
  unfold State.serviceOverlay
  grind [Inv.congr, Inv.modDie, Inv.die, DieInv, Inv.nextService]

theorem Inv.serviceLimit (h : Inv s) (d : Nat) (k : Svc) : Inv (s.serviceLimit d k) := by
  refine Inv.nextService (h.foldl _ _ fun s p hs => ?_) _ _ _
  dsimp only
  have hp : Inv { s with pkg := { s.pkg with psel := BitVec.ofNat 3 p } } := hs.congr rfl rfl rfl
  generalize ({ s with pkg := { s.pkg with psel := BitVec.ofNat 3 p } } : State) = r at hp
  split
  · generalize hw : r.writeConfig d 0x45 _ = o
    cases o with
    | none => exact hp
    | some s' => exact hp.writeConfig _ _ _ hw
  · exact hp

theorem Inv.serviceRequest (h : Inv s) (d : Nat) (k : Svc) : Inv (s.serviceRequest d k) := by
  unfold State.serviceRequest
  grind [Inv.modLink, Inv.setLsel, Inv.linkWrite, Inv.nextService, Inv.endService]

theorem Inv.serviceWait (h : Inv s) (d : Nat) (k : Svc) : Inv (s.serviceWait d k) := by
  unfold State.serviceWait
  grind [Inv.modLink, Inv.endService]

theorem Inv.linkService (h : Inv s) (d : Nat) : Inv (s.linkService d) := by
  unfold State.linkService
  grind [Inv.serviceWait, Inv.serviceMap, Inv.serviceOverlay, Inv.serviceLimit, Inv.serviceRequest, Inv.nextService]

theorem Inv.tsync (h : Inv s) : Inv s.tsync := by
  unfold State.tsync
  grind [Inv.log, Inv.congr]

theorem Inv.timeTo (h : Inv s) (t : Nat) : Inv (s.timeTo t) := h.congr rfl rfl rfl

theorem Inv.slew (h : Inv s) : Inv s.slew := h.timeTo _

theorem Inv.nextTick (h : Inv s) : Inv s.nextTick := by
  unfold State.nextTick
  grind [Inv.timeTo, Inv.slew]

theorem Inv.tsyncOutput (h : Inv s) : Inv s.tsyncOutput := h.congr rfl rfl rfl

theorem Inv.calibrate (h : Inv s) (t : Nat) : Inv (s.calibrate t) := by
  unfold State.calibrate
  grind [Inv.modTile, Inv.tile, TileInv, Inv.log]

theorem Inv.execPackageTimeSlew (h : Inv s) : OutInv (execPackageTimeSlew s) := by
  unfold Machine.execPackageTimeSlew
  grind [Inv.slew, OutInv]

end Sys2Proof.Machine
end

section
/-! PROOF. The loader keeps the invariant: an image gives no reserved bit of WCFG or of a view (Machine/Loader.lean; R11, R43, R155). -/

namespace Sys2Proof.Machine

variable {s s' : State} {x y z : Tile} {c c' : Ctl} {m m' : Store} {f g : Fwc} {u v : Die}

/-! ### What an image may give a tile (Machine/Loader.lean) -/

/-- The reserved bits of the views and of WCFG that an image gives a tile are zero. -/
structure ImageOk (i : TileImage) : Prop where
  views : ∀ w ∈ i.views, w &&& 0xF00000000003F800#64 = 0#64
  wcfg : i.wcfg &&& 0xFFFF07E0#32 = 0#32

/-- The reserved bits of a view are its bits 63:60 and 17:11. -/
theorem reserved_of_viewOk (w : DWord) (h : viewOk w = true) : w &&& 0xF00000000003F800#64 = 0#64 := by
  simp only [viewOk, Bool.and_eq_true, beq_iff_eq] at h
  obtain ⟨⟨⟨⟨⟨⟨⟨⟨hhi, hlo⟩, -⟩, -⟩, -⟩, -⟩, -⟩, -⟩, -⟩ := h
  refine BitVec.eq_of_getLsbD_eq fun i hi => ?_
  have hbit : ∀ j < 64, (0xF00000000003F800#64).getLsbD j = true → 60 ≤ j ∨ 11 ≤ j ∧ j < 18 := by decide
  rw [BitVec.getLsbD_and, BitVec.getLsbD_zero]
  by_cases hm : (0xF00000000003F800#64).getLsbD i = true
  · rw [hm, Bool.and_true]
    rcases hbit i hi hm with h60 | ⟨h11, h18⟩
    · have := congrArg (·.getLsbD (i - 60)) hhi
      simpa [BitVec.getLsbD_extractLsb', show i - 60 < 4 by omega, show 60 + (i - 60) = i by omega] using this
    · have := congrArg (·.getLsbD (i - 11)) hlo
      simpa [BitVec.getLsbD_extractLsb', show i - 11 < 7 by omega, show 11 + (i - 11) = i by omega] using this
  · rw [Bool.not_eq_true] at hm
    rw [hm, Bool.and_false]

theorem viewsOf_ok (b : List Byte) (r : List DWord × Word) (h : viewsOf b = some r) :
    (∀ w ∈ r.1, w &&& 0xF00000000003F800#64 = 0#64) ∧ r.2 &&& 0xFFFF07E0#32 = 0#32 := by
  simp only [viewsOf, Option.ite_none_left_eq_some, Option.some.injEq, Bool.or_eq_true, not_or, Bool.not_eq_true'] at h
  obtain ⟨⟨-, hv⟩, rfl⟩ := h
  rw [Bool.not_eq_false, List.all_eq_true] at hv
  refine ⟨fun w hw => reserved_of_viewOk w (hv w hw), ?_⟩
  rw [BitVec.and_assoc]
  exact BitVec.and_zero

theorem tileImage_ok (b : List Byte) (ds : List Sect) (lt : Nat) (i : TileImage) (h : tileImage b ds lt = some i) : ImageOk i := by
  simp only [tileImage, Option.bind_eq_bind, Option.bind_eq_some_iff] at h
  obtain ⟨text, -, r, ⟨_, -, hr⟩, h⟩ := h
  obtain ⟨hv, hw⟩ := viewsOf_ok _ r hr
  have hi : i.views = r.1 ∧ i.wcfg = r.2 := by
    split at h <;> obtain ⟨_, -, h⟩ := Option.bind_eq_some_iff.1 h <;>
      split at h <;> obtain ⟨_, -, h⟩ := Option.bind_eq_some_iff.1 h <;>
      obtain rfl := Option.some.inj h <;> exact ⟨rfl, rfl⟩
  exact ⟨hi.1 ▸ hv, hi.2 ▸ hw⟩

theorem forall_of_mapM {α β : Type} {P : β → Prop} (k : α → Option β) (hk : ∀ a b, k a = some b → P b) :
    ∀ (l : List α) (r : List β), l.mapM k = some r → ∀ b ∈ r, P b
  | [], r, h => by
    obtain rfl := Option.some.inj h
    exact fun b hb => absurd hb List.not_mem_nil
  | a :: l, r, h => by
    simp only [List.mapM_cons, Option.bind_eq_bind, Option.bind_eq_some_iff] at h
    obtain ⟨b, hb, rs, hrs, hr⟩ := h
    obtain rfl := Option.some.inj hr
    exact List.forall_mem_cons.2 ⟨hk a b hb, forall_of_mapM k hk l rs hrs⟩

theorem parseImage_ok (b : List Byte) (l : Loaded) (h : parseImage b = some l) : ∀ i ∈ l.tiles, ImageOk i := by
  simp only [parseImage] at h
  split at h
  · contradiction
  split at h
  · contradiction
  simp only [Option.bind_eq_bind, Option.bind_eq_some_iff] at h
  obtain ⟨tiles, ht, loops, -, sched, -, h⟩ := h
  split at h
  · contradiction
  simp only [Option.bind_eq_some_iff] at h
  obtain ⟨frames, -, phases, -, records, -, hops, -, hl⟩ := h
  obtain rfl := Option.some.inj hl
  exact forall_of_mapM _ (fun lt i hi => tileImage_ok _ _ lt i hi) _ _ ht

/-! ### Loading and acceptance (Machine/Loader.lean) -/

/-- What holds of the default and of every listed entry holds of every entry. -/
theorem get_of_forall {α : Type} {P : α → Prop} {d : α} (i : Nat) (hd : P d) :
    ∀ m : Map α, (∀ e ∈ m, P e.2) → P (m.get d i)
  | [], _ => hd
  | (j, w) :: r, h => by
    rw [Map.get_cons]
    split
    · exact h (j, w) List.mem_cons_self
    · exact get_of_forall i hd r fun e he => h e (List.mem_cons_of_mem _ he)

theorem ImageOk.launchTile {i : TileImage} (h : ImageOk i) (x : Tile) (p lt dies : Nat) (loops : List (Nat × Nat × Nat)) :
    TileInv (launchTile x p lt dies loops i) := by
  refine ⟨⟨rfl, Mem.wf_writeRuns [] _ rfl, rfl, rfl⟩, ⟨rfl, rfl⟩, h.wcfg, fun k => ?_⟩
  refine get_of_forall (P := fun w => w &&& 0xF00000000003F800#64 = 0#64) k (by decide) _ fun e he => ?_
  obtain ⟨q, hq, rfl⟩ := List.mem_map.1 he
  have hz := (List.mem_filter.1 hq).1
  exact h.views _ (List.fst_mem_of_mem_zipIdx hz)

theorem Inv.loadFault {α : Type} (h : Inv s) : FrontInv (s.loadFault : State.Front α) := h

theorem FrontInv.ite {α : Type} {p : Prop} [Decidable p] {r r' : State.Front α} (h : FrontInv r) (h' : FrontInv r') :
    FrontInv (if p then r else r') := by
  split
  · exact h
  · exact h'

theorem Inv.checkRegions (h : Inv s) (q : Part) (tiles : Nat) : FrontInv (s.checkRegions q tiles) := by
  unfold State.checkRegions
  refine FrontInv.ite h ?_
  generalize hr : List.foldl _ _ _ = r
  have hi : Inv r.1 := by
    rw [← hr]
    refine h.foldl_fst _ _ _ fun q a hq => ?_
    grind [Inv.touchHbm]
  split
  · exact hi
  · exact FrontInv.ite hi hi

theorem Inv.regionsReset (h : Inv s) (q : Part) : Inv (s.regionsReset q) := by
  refine h.foldl _ _ fun s k hs => hs.foldl _ _ fun s e hs => ?_
  exact Inv.ite (hs.physWrite _ _) hs

theorem Inv.leafArea (h : Inv s) (d c va : Nat) (wr : Bool) : FrontInv (s.leafArea d c va wr) := by
  unfold State.leafArea
  grind [Inv.loadFault, Inv.bumpDie, Inv.touchWords, FrontInv]

theorem Inv.leafAreas (h : Inv s) (d c va tiles : Nat) (wr : Bool) : FrontInv (s.leafAreas d c va tiles wr) :=
  List.foldlRecOn (motive := FrontInv) _ _ h fun _ hr _ _ => FrontInv.frontThen _ _ hr fun _ _ hs => hs.leafArea _ _ _ _

/-- What reading a saved context leaves: the state, and a memory in its canonical form. -/
def ContextInv : State.Front Mem → Prop
  | .ok r => Inv r.1 ∧ Memory.wf r.2 = true
  | .error e => Inv e.1

theorem Inv.readContext (h : Inv s) (d c va : Nat) : ContextInv (s.readContext d c va) := by
  have ht := h.frontTranslate d c va false
  unfold State.readContext
  split
  · next he => rw [he] at ht; exact ht
  · next s pa _ he =>
    rw [he] at ht
    have hs : Inv s := ht
    split
    · exact hs
    · have hf := hs.frontReach d c pa ctxLen
      split
      · next he => rw [he] at hf; exact hf
      · next s a he =>
        rw [he] at hf
        have hh := Inv.touchHbm hf a ctxLen
        split
        · next he => rw [he] at hh; exact hh
        · next he => rw [he] at hh; exact ⟨hh.draw, hh.wf_physBlock _ _⟩

theorem Inv.launchOne (h : Inv s) (p d c : Nat) (q : Part) (l : Loaded) (res : Bool) (src ph lt : Nat) (i : TileImage) (hi : ImageOk i) :
    FrontInv (s.launchOne p d c q l res src ph lt i) := by
  have hx := hi.launchTile (s.tile (q.phys lt)) p lt l.img.dies l.loops
  have hc := h.readContext d c (src + 0x200000 * lt)
  unfold State.launchOne
  dsimp only
  split
  · exact h.setTile _ _ hx
  · split
    · next he => rw [he] at hc; exact hc
    · next he =>
      rw [he] at hc
      split
      · exact hc.1
      · exact hc.1.setTile _ _ (hx.restoreContext _ hc.2)

/-- The tiles of another state that has the invariant. -/
theorem Inv.withTiles (h : Inv s) (h' : Inv s') : Inv { s' with tiles := s.tiles } := ⟨h'.mem, h.tile, h'.die⟩

theorem Inv.launchTiles (h : Inv s) (p d c : Nat) (bind : List Nat) (l : Loaded) (res : Bool) (src : Nat) (hl : ∀ i ∈ l.tiles, ImageOk i) :
    FrontInv (s.launchTiles p d c bind l res src) := by
  have hr : FrontInv ((l.tiles.zipIdx).foldl (fun r e => State.frontThen r fun s ph =>
      s.launchOne p d c { State.part0 with bind := bind } l res src ph e.2 e.1) (.ok (s, 0))) :=
    List.foldlRecOn (motive := FrontInv) _ _ h fun r hr e he => FrontInv.frontThen _ _ hr fun s ph hs =>
      hs.launchOne _ _ _ _ _ _ _ _ _ _ (hl _ (List.fst_mem_of_mem_zipIdx he))
  unfold State.launchTiles
  split
  · next he => rw [he] at hr; exact hr
  · next he => rw [he] at hr; exact h.withTiles hr

theorem Inv.arm (h : Inv s) (k : State.Packet) (bind : List Nat) (l : Loaded) (phase : Nat) : Inv (s.arm k bind l phase) := by
  unfold State.arm
  refine Inv.modPart (Inv.foldl (Inv.ite (h.regionsReset _) (Inv.foldl (h.regionsReset _) _ _ ?_)) _ _ ?_) _ _
  · exact fun s e hs => hs.physWrite _ _
  · exact fun s d hs => hs.modDie_keeps _ _ fun _ hu => hu.congr hu.fwc rfl rfl

theorem Inv.acceptTimetable (h : Inv s) (d c : Nat) (k : State.Packet) (image : List Byte) : FrontInv (s.acceptTimetable d c k image) := by
  unfold State.acceptTimetable
  dsimp only
  split
  · exact h.loadFault
  · next l hl =>
    split
    · exact h.loadFault
    · refine FrontInv.frontThen _ _ (h.checkRegions _ _) fun s _ hs => FrontInv.ite hs.loadFault (FrontInv.ite hs ?_)
      refine FrontInv.frontThen _ _ (FrontInv.ite hs (hs.leafAreas _ _ _ _ _)) fun s _ hs => ?_
      refine FrontInv.frontThen _ _ (FrontInv.ite (hs.leafAreas _ _ _ _ _) hs) fun s _ hs => ?_
      exact FrontInv.frontThen _ _ (hs.launchTiles _ _ _ _ _ _ _ (parseImage_ok _ _ hl)) fun s _ hs => hs.arm _ _ _ _

theorem Inv.refuseTimetable (h : Inv s) (d : Nat) (k : State.Packet) (cause : BitVec 8) : Inv (s.refuseTimetable d k cause) := h.storeStatus _

theorem Inv.readImage (h : Inv s) (d c : Nat) (k : State.Packet) (r : State × Option (List Byte)) (hr : s.readImage d c k = some r) : Inv r.1 := by
  unfold State.readImage at hr
  grind [Inv.frontRead, FrontInv]

theorem Inv.timetable (h : Inv s) (d c : Nat) (k : State.Packet) (hs : s.timetable d c k = some s') : Inv s' := by
  unfold State.timetable at hs
  dsimp only at hs
  split at hs
  · exact Option.some.inj hs ▸ h
  split at hs
  · exact Option.some.inj hs ▸ h.refuseTimetable _ _ _
  split at hs
  · contradiction
  · next he => exact Option.some.inj hs ▸ (h.readImage _ _ _ _ he).refuseTimetable _ _ _
  · next s image he =>
    have ha := (h.readImage _ _ _ _ he).acceptTimetable d c k image
    split at hs
    · next he => rw [he] at ha; exact Option.some.inj hs ▸ ha
    · next he => rw [he] at ha; exact Option.some.inj hs ▸ Inv.refuseTimetable ha _ _ _
    · contradiction

end Sys2Proof.Machine
end

section
/-! PROOF. Queues and their packets keep the invariant (Machine/Queue.lean). -/

namespace Sys2Proof.Machine

variable {s s' : State} {x y z : Tile} {c c' : Ctl} {m m' : Store} {f g : Fwc} {u v : Die}

/-! ### Queues and their packets (Machine/Queue.lean) -/

/-- An update of a die's front end. -/
theorem Inv.setFe (h : Inv s) (d : Nat) (k : Die → Fe) : Inv (s.modDie d fun x => { x with fe := k x }) :=
  h.modDie_keeps _ _ fun _ hu => hu.congr hu.fwc rfl rfl

theorem Inv.commit (h : Inv s) (qcb : Nat) (r : List Byte) : Inv (s.commit qcb r) := (h.physWrite _ _).physWrite _ _

theorem Inv.tableEntry (h : Inv s) (a align n : Nat) (r : State × Nat) (hr : s.tableEntry a align n = some r) : Inv r.1 := by
  have ht := h.touchHbm a 8
  unfold State.tableEntry at hr
  split at hr
  · contradiction
  · next he =>
    rw [he] at ht
    obtain ⟨-, hr⟩ := Option.ite_none_left_eq_some.1 hr
    exact Option.some.inj hr ▸ Inv.physWrite ht _ _

theorem Inv.queueTable (h : Inv s) (pasid : Nat) (r : State × Nat) (hr : s.queueTable pasid = some r) : Inv r.1 := h.tableEntry _ _ _ r hr

theorem Inv.walkQueue (h : Inv s) (pasid queue : Nat) (r : State × Nat) (hr : s.walkQueue pasid queue = some r) : Inv r.1 := by
  unfold State.walkQueue at hr
  split at hr
  · contradiction
  · next he => exact (h.queueTable _ _ he).tableEntry _ _ _ r hr

theorem Inv.markTable (h : Inv s) (pasid : Nat) : Inv (s.markTable pasid) := by
  unfold State.markTable
  split
  · next he => exact h.queueTable _ _ he
  · exact h

theorem Inv.modRuns (h : Inv s) (d : Nat) (k : List QRun → List QRun) : Inv (s.modRuns d k) :=
  h.modDie_keeps _ _ fun _ hu => hu.congr hu.fwc rfl rfl

theorem Inv.modRun (h : Inv s) (q : QueueId) (k : QRun → QRun) : Inv (s.modRun q k) := h.modRuns _ _

theorem Inv.startRun (h : Inv s) (q : QueueId) (qcb : Nat) : Inv (s.startRun q qcb) := Inv.ite h (h.modRuns _ _)

theorem Inv.handOver (h : Inv s) (q : QueueId) (d : Nat) : Inv (s.handOver q d) := (h.setFe _ _).sendEvents _

theorem Inv.putServe (h : Inv s) (q : QueueId) : Inv (s.putServe q) := h.modDie_keeps _ _ fun _ hu => hu.congr hu.fwc rfl rfl

theorem Inv.serveQueue (h : Inv s) (d : Nat) (pasid : BitVec 20) (queue : BitVec 8) : Inv (s.serveQueue d pasid queue) := by
  unfold State.serveQueue
  refine Inv.ite (h.putServe _) ?_
  split
  · exact Inv.ite ((h.markTable _).log _ _ _ _ _ _ _ _ _) (h.markTable _)
  · next he =>
    have hs := h.walkQueue _ _ _ he
    grind [Inv.startRun, Inv.commit, Inv.handOver]

theorem Inv.ring (h : Inv s) (w : DWord) : Inv (s.ring w) := by
  refine h.foldl _ _ fun s d hs => ?_
  grind [Inv.modDie, Inv.die, DieInv]

theorem Inv.writeBar0 (h : Inv s) (off : Nat) (data : List Byte) : Inv (s.writeBar0 off data) := by
  unfold State.writeBar0
  exact Inv.ite (h.ring _) (h.log _ _ _ _ _ _ _ _ _)

theorem Inv.rescan (h : Inv s) (d : Nat) (all : Bool) : Inv (s.rescan d all) := by
  unfold State.rescan
  refine Inv.ite (h.modDie_keeps _ _ fun _ hu => hu.congr hu.fwc rfl rfl) (h.foldl _ _ fun s k hs => ?_)
  refine Inv.ite (hs.putServe _) ?_
  split
  · exact hs.markTable _
  · next he => exact Inv.ite ((hs.walkQueue _ _ _ he).serveQueue _ _ _) (hs.walkQueue _ _ _ he)

/-- The queues that wait for a die's service are served. -/
theorem Inv.serveAll (h : Inv s) (d : Nat) (l : List QueueId) :
    Inv (l.foldl (fun s q => s.serveQueue d q.pasid q.queue) (s.modDie d fun x => { x with fe := { x.fe with serve := [] } })) :=
  (h.setFe _ _).foldl _ _ fun _ _ hs => hs.serveQueue _ _ _

theorem Inv.serveDoorbell (h : Inv s) (d : Nat) : Inv (s.serveDoorbell d) := by
  unfold State.serveDoorbell
  refine Inv.ite h (Inv.ite (h.readDbq d) ?_)
  dsimp only
  have hr : Inv (if (s.die d).fe.rescan = true then
      (s.modDie d fun x => { x with fe := { x.fe with rescan := false } }).rescan d true else s) :=
    Inv.ite ((h.setFe _ _).rescan _ _) h
  generalize (if (s.die d).fe.rescan = true then _ else s) = r at hr
  have hq := hr.serveAll d (s.die d).fe.serve
  generalize List.foldl _ _ (s.die d).fe.serve = r at hq
  refine Inv.ite hq ?_
  have hw : Inv (if (s.die d).ovf = true then (r.readDbq d).1.rescan d false else (r.readDbq d).1) :=
    Inv.ite ((hq.readDbq d).rescan _ _) (hq.readDbq d)
  split
  · exact hw.serveQueue _ _ _
  · exact hw

/-- The state a packet leaves, whatever comes of it. -/
def PkInv : State.Pk → Prop
  | .done s _ | .stay s | .stop s _ => Inv s

theorem PkInv.after {α : Type} (r : State.Front α) (k : State → α → State.Pk) (hr : FrontInv r) (hk : ∀ s a, Inv s → PkInv (k s a)) :
    PkInv (State.Pk.after r k) := by
  unfold State.Pk.after
  grind [FrontInv, PkInv]

theorem Inv.stopQueue (h : Inv s) (q : QueueId) (cause : BitVec 8) : Inv (s.stopQueue q cause) := by
  unfold State.stopQueue
  split
  · exact h
  · exact (h.commit _ _).modRun _ _

theorem Inv.finish (h : Inv s) (q : QueueId) (n : Nat) (edit : List Byte → List Byte) : Inv (s.finish q n edit) := by
  unfold State.finish
  split
  · exact h
  · next r _ =>
    have hs := fun b k => (h.commit r.qcb b).modRun q k
    grind [Inv.congr]

theorem Inv.begin_ (h : Inv s) (q : QueueId) : Inv (s.begin_ q) := by
  unfold State.begin_
  split
  · exact h
  · split
    · exact h
    · exact (h.commit _ _).modRun _ _

theorem Inv.packet (h : Inv s) (q : QueueId) (n : Nat) (act : State → Nat → State.Pk) (ha : ∀ s c, Inv s → PkInv (act s c)) :
    Inv (s.packet q n act) := by
  have hb := h.begin_ q
  unfold State.packet
  refine Inv.ite h ?_
  dsimp only
  split
  · exact hb.stopQueue _ _
  · next c _ =>
    have hp := ha _ c hb
    split
    · next he => rw [he] at hp; exact Inv.finish hp _ _ _
    · next he => rw [he] at hp; exact hp
    · next he => rw [he] at hp; exact Inv.stopQueue hp _ _

theorem PkInv.ite {p : Prop} [Decidable p] {k k' : State.Pk} (h : PkInv k) (h' : PkInv k') : PkInv (if p then k else k') := by
  split
  · exact h
  · exact h'

theorem Inv.pktWrite (h : Inv s) (q : QueueId) (sz : Bool) (va value : DWord) : Inv (s.pktWrite q sz va value) :=
  h.packet _ _ _ fun _ _ hs => PkInv.ite hs (PkInv.after _ _ (hs.frontWrite _ _ _ _ _) fun _ _ hs => hs)

theorem Inv.pktWait (h : Inv s) (q : QueueId) (op : BitVec 2) (sz : Bool) (va value mask : DWord) : Inv (s.pktWait q op sz va value mask) :=
  h.packet _ _ _ fun _ _ hs => PkInv.ite hs (PkInv.after _ _ (hs.frontRead _ _ _ _) fun _ _ hs => PkInv.ite hs (hs.modRun _ _))

theorem Inv.recheckWait (h : Inv s) (q : QueueId) : Inv (s.recheckWait q) := by
  unfold State.recheckWait
  split
  · exact Inv.ite h (h.pktWait _ _ _ _ _ _)
  · exact h

theorem Inv.pktTimer (h : Inv s) (q : QueueId) (n : BitVec 2) (per : Bool) (period : Word) (time ib bytes : DWord) :
    Inv (s.pktTimer q n per period time ib bytes) := h.packet _ _ _ fun _ _ hs => PkInv.ite hs hs

theorem Inv.pktTimerCancel (h : Inv s) (q : QueueId) (n : BitVec 2) : Inv (s.pktTimerCancel q n) := h.packet _ _ _ fun _ _ hs => hs

theorem Inv.pktIndirect (h : Inv s) (q : QueueId) (bytes : Word) (va : DWord) : Inv (s.pktIndirect q bytes va) :=
  h.packet _ _ _ fun _ _ hs => PkInv.ite hs (PkInv.ite hs hs)

theorem Inv.pktFence (h : Inv s) (q : QueueId) : Inv (s.pktFence q) := h.packet _ _ _ fun _ _ hs => PkInv.ite (hs.modRun _ _) hs

theorem Inv.sendMsi (h : Inv s) (msi : Bool) (vec : BitVec 12) : Inv (s.sendMsi msi vec) := by
  unfold State.sendMsi
  refine Inv.ite ?_ h
  exact h.congr rfl rfl rfl

theorem Inv.pktSignal (h : Inv s) (q : QueueId) (maxi sz msi : Bool) (vec : BitVec 12) (va value : DWord) :
    Inv (s.pktSignal q maxi sz msi vec va value) :=
  h.packet _ _ _ fun _ _ hs => PkInv.ite hs (PkInv.after _ _ (FrontInv.ite (hs.frontRead _ _ _ _) hs) fun _ _ hs =>
    PkInv.after _ _ (hs.frontWrite _ _ _ _ _) fun _ _ hs => hs.sendMsi _ _)

theorem Inv.pktTimetable (h : Inv s) (q : QueueId) (part : BitVec 8) (res : Bool) (image len src save status : DWord) :
    Inv (s.pktTimetable q part res image len src save status) := by
  refine h.packet _ _ _ fun s c hs => PkInv.ite hs ?_
  split
  · next he => exact hs.timetable _ _ _ he
  · exact hs

theorem Inv.readUnits (h : Inv s) (d c : Nat) (r : List Byte) (n : Nat) : FrontInv (s.readUnits d c r n) := by
  refine List.foldlRecOn (motive := FrontInv) _ _ h fun r hr p _ => ?_
  split
  · exact hr
  · exact FrontInv.map _ _ (Inv.frontRead hr _ _ _ _) fun _ hq => hq

theorem Inv.fetchPacket (h : Inv s) (q : QueueId) (qcb : Nat) : FrontInv (s.fetchPacket q qcb) := by
  have hh := h.touchHbm qcb 0x300
  unfold State.fetchPacket
  dsimp only
  split
  · next he => rw [he] at hh; exact hh
  next s he =>
  rw [he] at hh
  have hs : Inv s := hh
  split
  · exact hs.refuseFront _
  · exact hs
  split
  · exact hs.refuseFront _
  next c _ =>
  have hu := hs.readUnits q.die c
  grind [Inv.refuseFront, Inv.readUnits, FrontInv]

theorem Inv.runPacket (h : Inv s) (q : QueueId) (b : List Byte) : Inv (s.runPacket q b) := by
  unfold State.runPacket
  dsimp only
  split
  · exact h.pktTimetable _ _ _ _ _ _ _ _
  · exact h.pktWrite _ _ _ _
  · exact h.pktWait _ _ _ _ _ _
  · exact Inv.ite (h.pktTimerCancel _ _) (h.pktTimer _ _ _ _ _ _ _)
  · exact h.pktIndirect _ _ _
  · exact h.pktFence _
  · exact h.pktSignal _ _ _ _ _ _ _

theorem Inv.visitQueue (h : Inv s) (r : QRun) : Inv (s.visitQueue r) := by
  unfold State.visitQueue
  exact Inv.ite h (Inv.modRun (Inv.ite h (h.commit _ _)) _ _)

theorem Inv.visitTimers (h : Inv s) (d : Nat) : Inv (s.visitTimers d) := by
  unfold State.visitTimers
  exact Inv.ite h ((Inv.ite (h.modRuns _ _) h).foldl _ _ fun _ _ hs => hs.visitQueue _)

theorem Inv.enterTimer (h : Inv s) (q : QueueId) (qcb n : Nat) : Inv (s.enterTimer q qcb n) := (h.commit _ _).modRun _ _

theorem Inv.programTimers (h : Inv s) (d : Nat) : Inv (s.programTimers d) := by
  unfold State.programTimers
  exact Inv.ite h (h.modDie_keeps _ _ fun _ hu => hu.congr hu.fwc rfl rfl)

theorem Inv.moveLeader (h : Inv s) (q : QueueId) : Inv (s.moveLeader q) := by
  unfold State.moveLeader
  refine Inv.ite h ?_
  split
  · exact h.markTable _
  · next he =>
    have hs := h.walkQueue _ _ _ he
    dsimp only
    split
    · exact Inv.ite hs (((hs.commit _ _).modRuns _ _).handOver _ _)
    · exact hs

theorem Inv.watchdog (h : Inv s) (q : QueueId) : Inv (s.watchdog q) := by
  unfold State.watchdog
  split
  · exact Inv.ite (h.stopQueue _ _) h
  · exact h

theorem Inv.runNext (h : Inv s) (q : QueueId) (qcb : Nat) : Inv (s.runNext q qcb) := by
  have hf := h.fetchPacket q qcb
  unfold State.runNext
  split
  · next he => rw [he] at hf; exact Inv.stopQueue hf _ _
  · next he => rw [he] at hf; exact hf
  · next he => rw [he] at hf; exact hf
  · next he => rw [he] at hf; exact Inv.runPacket hf _ _

theorem Inv.goOn (h : Inv s) (q : QueueId) (r : QRun) : Inv (s.goOn q r) := by
  unfold State.goOn
  exact Inv.ite (h.runNext _ _) (Inv.ite (h.pktFence _) (h.recheckWait _))

theorem Inv.frontStep (h : Inv s) (q : QueueId) : Inv (s.frontStep q) := by
  unfold State.frontStep
  split
  · exact h
  · refine Inv.ite h (Inv.ite (h.modRuns _ _) ?_)
    split
    · exact (h.goOn _ _).watchdog _
    · refine Inv.ite (h.moveLeader _) (Inv.ite h ?_)
      split
      · exact h.enterTimer _ _ _
      · exact h.runNext _ _

end Sys2Proof.Machine
end

section
/-! PROOF. The lease, the mailbox, bring-up and reset keep the invariant (Machine/Mailbox.lean, Boot). -/

namespace Sys2Proof.Machine

variable {s s' : State} {x y z : Tile} {c c' : Ctl} {m m' : Store} {f g : Fwc} {u v : Die}

/-! ### The lease and the mailbox (Machine/Mailbox.lean) -/

theorem Inv.readLease (h : Inv s) : Inv s.readLease.1 := by
  unfold State.readLease
  grind [Inv.touchHbm]

theorem Inv.casLease (h : Inv s) (old new : DWord) : Inv (s.casLease old new).1 := by
  unfold State.casLease
  grind [Inv.readLease, Inv.physWrite]

theorem Inv.modFe (h : Inv s) (d : Nat) (k : Fe → Fe) : Inv (s.modFe d k) := h.setFe _ _

theorem Inv.renewLease (h : Inv s) (d : Nat) : Inv (s.renewLease d) := by
  unfold State.renewLease
  grind [Inv.casLease, Inv.modFe, Inv.sendEvents]

theorem Inv.expireLease (h : Inv s) (d : Nat) : Inv (s.expireLease d) := by
  unfold State.expireLease
  grind [Inv.modFe]

theorem Inv.takeLease (h : Inv s) (d : Nat) : Inv (s.takeLease d) := by
  unfold State.takeLease
  grind [Inv.readLease, Inv.casLease, Inv.modFe]

/-- The state a mailbox request leaves, whatever its answer. -/
def ReqInv : State.Req → Prop
  | .done s | .refused s | .pending s => Inv s

theorem ReqInv.of (h : Inv s) (o : Option State) (ho : ∀ r, o = some r → Inv r) : ReqInv (State.Req.of s o) := by
  cases o with
  | none => exact h
  | some r => exact ho r rfl

theorem ReqInv.ite {p : Prop} [Decidable p] {r r' : State.Req} (h : ReqInv r) (h' : ReqInv r') : ReqInv (if p then r else r') := by
  split
  · exact h
  · exact h'

theorem Inv.request (h : Inv s) (d e code : Nat) (k : State → State.Req) (hk : ∀ s, Inv s → ReqInv (k s)) : Inv (s.request d e code k) := by
  have hh := h.touchHbm (s.mbxAt e) 256
  unfold State.request
  refine Inv.ite h ?_
  split
  · next he => rw [he] at hh; exact hh
  · next he =>
    rw [he] at hh
    have hr := hk _ hh
    split
    · next he => rw [he] at hr; exact Inv.answer hr _ _
    · next he => rw [he] at hr; exact Inv.answer hr _ _
    · next he => rw [he] at hr; exact hr

theorem Inv.configure (d p : Nat) (l : List (BitVec 8 × DWord)) : ∀ {s s' : State}, Inv s → s.configure d p l = some s' → Inv s' := by
  induction l with
  | nil => exact fun h hs => Option.some.inj hs ▸ h
  | cons w l ih =>
    intro s s' h hs
    have hp : Inv { s with pkg := { s.pkg with psel := BitVec.ofNat 3 p } } := h.congr rfl rfl rfl
    unfold State.configure at hs
    split at hs
    · next he => exact ih (hp.writeConfig _ _ _ he) hs
    · contradiction

theorem Inv.reqCreate (h : Inv s) (d e : Nat) : ReqInv (State.reqCreate d e s) :=
  ReqInv.ite h (ReqInv.of h _ fun _ hr => Inv.configure _ _ _ h hr)

theorem Inv.reqDestroy (h : Inv s) (d e : Nat) : ReqInv (State.reqDestroy d e s) :=
  ReqInv.ite h (ReqInv.of h _ fun _ hr => Inv.configure _ _ _ h hr)

theorem Inv.mapGranule (h : Inv s) (q : Part) (va ent : Nat) (hs : State.mapGranule s q va ent = some s') : Inv s' := by
  unfold State.mapGranule at hs
  dsimp only at hs
  split at hs
  · contradiction
  · obtain ⟨-, hs⟩ := Option.ite_none_left_eq_some.1 hs
    exact Option.some.inj hs ▸ h.physWrite _ _
  · split at hs
    · contradiction
    · obtain ⟨-, hs⟩ := Option.ite_none_left_eq_some.1 hs
      exact Option.some.inj hs ▸ (h.physWrite _ _).physWrite _ _

theorem Inv.mapGranules (q : Part) (va : Nat → Nat) (ent : Nat) (l : List Nat) (o : Option State) (ho : ∀ r, o = some r → Inv r) :
    ∀ r, l.foldl (fun r i => r.bind fun s => State.mapGranule s q (va i) ent) o = some r → Inv r := by
  refine List.foldlRecOn (motive := fun o => ∀ r : State, o = some r → Inv r) l _ ho fun o ho i _ r hr => ?_
  obtain ⟨s, hs, hr⟩ := Option.bind_eq_some_iff.1 hr
  exact (ho s hs).mapGranule _ _ _ hr

theorem Inv.reqMap (h : Inv s) (d e : Nat) : ReqInv (State.reqMap d e s) := by
  unfold State.reqMap
  refine ReqInv.ite h (ReqInv.ite h ?_)
  generalize hw : s.touchWords _ = r
  have ht : Inv r.1 := hw ▸ h.touchWords _
  split
  · exact ht
  · exact ReqInv.of ht _ (Inv.mapGranules _ _ _ _ _ fun _ hr => Option.some.inj hr ▸ ht)

theorem Inv.reqContext (h : Inv s) (d e : Nat) : ReqInv (State.reqContext d e s) := by
  have hc : Inv { s with pkg := { s.pkg with ctxsel := BitVec.ofNat 8 (s.mbxArg e 0 1) } } := h.congr rfl rfl rfl
  exact ReqInv.ite h (ReqInv.of h _ fun _ hr => hc.writeCtx _ _ hr)

theorem Inv.reqInval (h : Inv s) (d e : Nat) : ReqInv (State.reqInval d e s) := by
  have hi := fun hit : TluEnt → Bool => h.mapDies (fun u => { u with tlu := u.tlu.filter fun x => !hit x }) fun u hu => ⟨hu.fwc, hu.wr, hu.rd⟩
  exact ReqInv.ite h (ReqInv.ite (Inv.modFe (hi _) _ _) (hi _))

theorem Inv.reqPreempt (h : Inv s) (d e : Nat) : ReqInv (State.reqPreempt d e s) := by
  unfold State.reqPreempt
  exact ReqInv.ite h (h.modPart _ _)

theorem Inv.reqQreset (h : Inv s) (d e : Nat) : ReqInv (State.reqQreset d e s) := by
  unfold State.reqQreset
  refine ReqInv.ite h ?_
  split
  · exact Inv.ite (h.markTable _) h
  · next he =>
    have hs := Option.ite_none_right_eq_some.1 he
    exact ((h.walkQueue _ _ _ hs.2).commit _ _).modRuns _ _

theorem Inv.reqAttest (h : Inv s) (d e : Nat) : ReqInv (State.reqAttest d e s) := by
  unfold State.reqAttest
  exact ReqInv.ite h (ReqInv.ite h (h.physWrite _ _))

theorem Inv.endInval (h : Inv s) (d : Nat) : Inv (s.endInval d) := by
  unfold State.endInval
  split
  · exact h
  · exact Inv.ite h ((h.answer _ _).modFe _ _)

theorem Inv.serveEntry (h : Inv s) (d e : Nat) : Inv (s.serveEntry d e) := by
  unfold State.serveEntry
  refine Inv.ite h ?_
  split
  · exact h.request _ _ _ _ fun _ hs => hs.reqCreate _ _
  · exact h.request _ _ _ _ fun _ hs => hs.reqDestroy _ _
  · exact h.request _ _ _ _ fun _ hs => hs.reqMap _ _
  · exact h.request _ _ _ _ fun _ hs => hs.reqContext _ _
  · exact h.request _ _ _ _ fun _ hs => hs.reqInval _ _
  · exact h.request _ _ _ _ fun _ hs => hs.reqPreempt _ _
  · exact h.request _ _ _ _ fun _ hs => hs.reqQreset _ _
  · exact h.request _ _ _ _ fun _ hs => hs.reqAttest _ _
  · exact h.request _ _ _ _ fun _ hs => hs

theorem Inv.scanMailbox (h : Inv s) (d : Nat) : Inv (s.scanMailbox d) := by
  unfold State.scanMailbox
  refine Inv.ite h (Inv.ite (h.modFe _ _) ?_)
  exact Inv.foldl (Inv.endInval (Inv.ite (h.modFe _ _) h) d) _ _ fun _ _ hs => hs.serveEntry _ _

/-! ### Bring-up and reset (Machine/Boot.lean) -/

theorem Inv.writeReady (h : Inv s) (k : Nat) : Inv (State.writeReady s k) := h.physWrite _ _

theorem Inv.startCores (h : Inv s) : Inv (State.startCores s) := by
  have hr : Inv ((upto 8).foldl (fun s d => if s.alive d then s.restartFwc d else s) s) :=
    h.foldl _ _ fun s d hs => Inv.ite (hs.restartFwc d) hs
  exact ⟨Map.wfFrom_filter _ 0 _ _ hr.mem, hr.tile, hr.die⟩

theorem Inv.startElection (h : Inv s) : Inv (State.startElection s) :=
  Inv.physWrite (s := { s with pkg := { s.pkg with leasepa := 0 } }) (h.congr rfl rfl rfl) _ _

/-- The doorbell queues of every die are emptied. -/
theorem Inv.noDoorbells (h : Inv s) : Inv { s with dies := s.dies.map fun e => (e.1, { e.2 with dbq := [], ovf := false }) } :=
  h.mapDies (fun u => { u with dbq := [], ovf := false }) fun _ hu => ⟨hu.fwc, hu.wr, hu.rd⟩

theorem Inv.openQueues (h : Inv s) : Inv (State.openQueues s) := by
  unfold State.openQueues
  refine Inv.writeReady ?_ 1
  exact h.noDoorbells.congr rfl rfl rfl

theorem Inv.failStep (h : Inv s) (n : Nat) (ds : List Nat) : Inv (State.failStep s n ds) := by
  unfold State.failStep
  generalize hr : List.foldl _ s ds = r
  have hi : Inv r := by
    rw [← hr]
    refine h.foldl _ _ fun s d hs => Inv.log ?_ _ _ _ _ _ _ _ _ _
    exact hs.congr rfl rfl rfl
  exact Inv.writeReady (s := { r with pkg := { r.pkg with boot := 11 } }) (hi.congr rfl rfl rfl) _

theorem Inv.bootStep (h : Inv s) (n : Nat) (k : State → State) (hk : ∀ s, Inv s → Inv (k s)) : Inv (State.bootStep s n k) := by
  unfold State.bootStep
  have hs : Inv (if Config.stepFails n 8 then s.log 0 0 1 6 0 0 0 0 (BitVec.ofNat 64 n) else s) := Inv.ite (h.log _ _ _ _ _ _ _ _ _) h
  dsimp only
  generalize (if Config.stepFails n 8 then s.log 0 0 1 6 0 0 0 0 (BitVec.ofNat 64 n) else s) = r at hs ⊢
  split
  · exact hk _ hs
  · exact hs.failStep _ _

theorem Inv.powerOn (h : Inv s) : Inv (State.powerOn s) := by
  refine h.bootStep _ _ fun s h => h.bootStep _ _ fun s h => h.bootStep _ _ fun s h => ?_
  refine Inv.foldl (Inv.writeReady ?_ 0) _ _ fun s k hs => hs.startAttempt k 1
  exact h.congr rfl rfl rfl

theorem Inv.firstPress (h : Inv s) : Inv (State.firstPress s) := by
  refine h.bootStep _ _ fun s h => h.bootStep _ _ fun s h => ?_
  have hs := h.foldl (upto 8) State.startPress fun _ d hs => hs.startPress d
  exact hs.congr rfl rfl rfl

theorem Inv.bringUp (h : Inv s) : Inv (State.bringUp s) := by
  unfold State.bringUp
  split
  · exact h.powerOn
  · exact Inv.ite (h.failStep _ _) (Inv.ite h h.firstPress)
  · exact Inv.ite h (h.congr rfl rfl rfl)
  · exact h.startCores.startElection.congr rfl rfl rfl
  · exact Inv.ite h.openQueues h
  · exact h

theorem Inv.flr (h : Inv s) : Inv (State.flr s) := by
  unfold State.flr
  have hp := h.foldl s.parts (fun (s : State) e =>
    if e.2.active then
      (s.abortPart e.1).modPart e.1 fun q => { q with
        launch := { q.launch with owed := false }, preempt := [], opening := [], next := none, saveLeft := [] }
    else s) fun s e hs => Inv.ite ((hs.abortPart _).modPart _ _) hs
  exact hp.noDoorbells.congr rfl rfl rfl

end Sys2Proof.Machine
end

section
/-! PROOF. Arithmetic and the vector unit keep the invariant (Machine/Integer.lean, Vector). -/

namespace Sys2Proof.Machine

variable {s s' : State} {x y z : Tile} {c c' : Ctl} {m m' : Store} {f g : Fwc} {u v : Die}

/-! ### The remaining words of the control unit (Machine/Integer.lean) -/

theorem Inv.execDiv (h : Inv s) (r : Ring) (rd ra rb : SReg) (k : Word → Word → Word × Word) : OutInv (execDiv r rd ra rb k s) := by
  refine h.ctlWord _ _ ?_
  dsimp only
  split
  · trivial
  · exact h.modCtl _ fun _ hc => hc.congr rfl rfl

/-- A control word that leaves the state alone but for what it lands. -/
theorem Inv.landWord (h : Inv s) (w : Form) (e : State → Eff) : OutInv (Machine.ctlWord w (fun s => .go s (e s)) s) := h.ctlWord _ _ h

theorem Inv.prepare (h : Inv s) (w : Form) (t : TReg) (a : State → BitVec 15) : OutInv (Machine.ctlWord w (fun s => Machine.prepare s t (a s)) s) :=
  h.ctlWord _ _ h

theorem Inv.loopWord (h : Inv s) (w : Form) (k : BitVec 3) (n : State → BitVec 16) :
    OutInv (Machine.ctlWord w (fun s => Machine.setLoop s k (n s)) s) := h.ctlWord _ _ (h.setLoop _ _)

/-! The shapes of the arithmetic, compare and predicate words. -/

theorem Inv.execRR (h : Inv s) (r : Ring) (lat : Nat) (rd ra rb : SReg) (k : Word → Word → Word) : OutInv (execRR r lat rd ra rb k s) :=
  h.ctlPure ..

theorem Inv.execR (h : Inv s) (r : Ring) (rd ra : SReg) (k : Word → Word) : OutInv (execR r rd ra k s) := h.ctlPure ..

theorem Inv.execCmp (h : Inv s) (r : Ring) (pd : PReg) (ra rb : SReg) (k : Word → Word → Bool) : OutInv (execCmp r pd ra rb k s) :=
  h.ctlPure ..

theorem Inv.execCmpI (h : Inv s) (r : Ring) (pd : PReg) (ra : SReg) (imm : Word) (k : Word → Word → Bool) :
    OutInv (execCmpI r pd ra imm k s) := h.ctlPure ..

theorem Inv.execPred (h : Inv s) (r : Ring) (pd pa pb : PReg) (k : Bool → Bool → Bool) : OutInv (execPred r pd pa pb k s) := h.ctlPure ..

/-! ### The vector unit (Machine/Vector.lean) -/

theorem ActInv.maskFault (x : Tile) : ActInv (maskFault x) := trivial

theorem Inv.vuTwo (h : Inv s) (r : Ring) (named : List Opnd) (srcs : List (Opnd × Nat)) (pre : Tile → Option Act)
    (act : Nat → Tile → State → List Nat → Act) (hp : ∀ x a, pre x = some a → ActInv a) (ha : ∀ t x s vs, Inv s → ActInv (act t x s vs)) :
    OutInv (vuTwo r named srcs pre act s) := by
  refine h.engWord _ _ _ fun t => ?_
  have hs := h.sources t .vu named (pre (s.tile t)) srcs (hp _)
  grind [ReadInv]

/-- A vector word with no check of its own before its operands are read. -/
theorem Inv.vuPlain (h : Inv s) (r : Ring) (named : List Opnd) (srcs : List (Opnd × Nat)) (act : Nat → Tile → State → List Nat → Act)
    (ha : ∀ t x s vs, Inv s → ActInv (act t x s vs)) : OutInv (Machine.vuTwo r named srcs (fun _ => none) act s) :=
  h.vuTwo _ _ _ _ _ (fun _ _ hn => nomatch hn) ha

theorem Inv.vuOp (h : Inv s) (r : Ring) (lat : Nat) (l : Latch) (d : Opnd) (srcs : List (Opnd × Nat)) (k : Tile → List Nat → VRes) :
    OutInv (vuOp r lat l d srcs k s) := h.vuPlain _ _ _ _ fun _ _ _ _ hs => hs

theorem Inv.vuEl (h : Inv s) (r : Ring) (ty : EType) (lat : Nat) (l : Latch) (d : Opnd) (srcs : List Opnd) (mk : Bool)
    (k : Tile → Nat → Nat → Nat → Nat → Nat × VFlags) : OutInv (vuEl r ty lat l d srcs mk k s) := h.vuOp ..

theorem Inv.vuLane (h : Inv s) (r : Ring) (ty : EType) (lat : Nat) (l : Latch) (d : Opnd) (srcs : List (Opnd × Nat)) (mk : Bool)
    (k : Nat → Nat → Nat) : OutInv (vuLane r ty lat l d srcs mk k s) := h.vuOp ..

theorem Inv.vuArith (h : Inv s) (o : Arith) (r : Ring) (ty : EType) (lat : Nat) (l : Latch) (d : Opnd) (srcs : List Opnd) (k : VMod) :
    OutInv (vuArith o r ty lat l d srcs k s) := h.vuEl ..

theorem Inv.execVqmx (h : Inv s) (r : Ring) (fmt : BlkFmt) (d a : Opnd) (q : BitVec 4) (rnd : Rnd) : OutInv (execVqmx r fmt d a q rnd s) :=
  h.vuPlain _ _ _ _ fun _ _ _ _ hs => hs

theorem Inv.execMpush (h : Inv s) (r : Ring) (ty : EType) (a : Opnd) (fresh : Bool) : OutInv (execMpush r ty a fresh s) := by
  refine h.vuTwo _ _ _ _ _ (fun x k hk => ?_) fun _ _ _ _ hs => hs
  obtain ⟨-, hk⟩ := Option.ite_none_right_eq_some.1 hk
  exact Option.some.inj hk ▸ ActInv.maskFault x

theorem Inv.maskWord (h : Inv s) (r : Ring) (op : MaskOp) : OutInv (maskWord r op s) := by
  refine h.engWord _ _ _ fun t => ?_
  grind [ActInv, ActInv.maskFault]

theorem Inv.execMqry (h : Inv s) (r : Ring) (pd : PReg) : OutInv (execMqry r pd s) := h.engWord _ _ _ fun _ => h

theorem Inv.execVld (h : Inv s) (r : Ring) (ty : EType) (d base stride : Opnd) (rows : BitVec 4) (mk : Bool) :
    OutInv (execVld r ty d base stride rows mk s) := by
  refine h.vuPlain _ _ _ _ fun t x s vs hs => ?_
  grind [Inv.readRanges, ReadInv, ActInv]

theorem Inv.execVst (h : Inv s) (r : Ring) (ty : EType) (a base stride : Opnd) (rows : BitVec 4) (mk : Bool) :
    OutInv (execVst r ty a base stride rows mk s) := by
  unfold Machine.execVst
  refine h.vuPlain _ _ _ _ fun t x s vs hs => ?_
  dsimp only
  split
  · trivial
  · exact hs

theorem Inv.execVldd (h : Inv s) (r : Ring) (ty : EType) (d : Opnd) (rows : BitVec 4) (mk : Bool) : OutInv (execVldd r ty d rows mk s) := by
  refine h.vuPlain _ _ _ _ fun t x s vs hs => ?_
  grind [Inv.touch, Inv.modTile, Inv.tile, TileInv, StoreInv, ActInv]

theorem Inv.execVarrive (h : Inv s) (r : Ring) : OutInv (execVarrive r s) := h.engWord _ _ _ fun t => h.arrive t .vu

theorem Inv.vuFlags (h : Inv s) (r : Ring) (d : Opnd) (clr : Bool) : OutInv (vuFlags r d clr s) := by
  refine h.vuPlain _ _ _ _ fun t x s vs hs => ?_
  grind [Inv.modTile, Inv.tile, TileInv, ActInv]

theorem Inv.vuSeed (h : Inv s) (r : Ring) (a : Opnd) (k : Word → Word → Land) : OutInv (vuSeed r a k s) :=
  h.vuPlain _ _ _ _ fun _ _ _ _ hs => hs

end Sys2Proof.Machine
end

section
/-! PROOF. Every word and every event keeps the invariant (Machine/Dispatch.lean). -/

namespace Sys2Proof.Machine

variable {s : State}

/-! ### Every word and every event (Machine/Dispatch.lean) -/

theorem Inv.exec (h : Inv s) (i : Instr) : OutInv (exec i s) := by
  unfold Machine.exec
  cases i with
  | add | sub | min | max | minz | maxz | adda | mul | mulh | mulhz | and | or | xor | shl | shr | sar | bfx => exact h.execRR ..
  | divs | divz => exact h.execDiv ..
  | addi | andi | ori | xori | shli | shri | sari | clz | popc | mov => exact h.execR ..
  | bfi | sel | li | lih | movl | movlHi | movlD | movlLnk | lpidx => exact h.ctlPure ..
  | cmpEq | cmpNe | cmpLt | cmpGe | cmpLtz | cmpGez => exact h.execCmp ..
  | cmpiEq | cmpiNe | cmpiLt | cmpiGe | cmpiLtz | cmpiGez => exact h.execCmpI ..
  | pand | por | pxor => exact h.execPred ..
  | xfer | xfern => exact h.transfer ..
  | ldb | ldbz | ldh | ldhz | ldw | ldd => exact h.load ..
  | stb | sth | stw | std => exact h.store ..
  | aadd | amin | amax | axchg | acas | acasD => exact h.atomic ..
  | ksig | ksigReg => exact h.tokenSignal ..
  | kwait | kwaitReg => exact h.tokenWait ..
  | fenceDie | fencePackage | fenceSystem => exact h.fence ..
  | trap | brk => exact h.softTrap ..
  | vadd | vsub | vmul | vfma | vfms => exact h.vuArith ..
  | vmin | vmax | vabs | vneg | vshl | vshr | vsar | vcmp | vsel | vmov | vrcpa | vrsqa | vrcpr | vrsqr | vexp2 | vlog2 => exact h.vuEl ..
  | vand | vor | vxor | vnot | vbcs | vrotr | vrotc | vbcr | vbcc | vperm => exact h.vuLane ..
  | vcvt | vdqmx | vjoin6 | vsplit6P4 | vsplit6P2 | vredr | vredc | vscanr | vscanc | vtrn => exact h.vuOp ..
  | minv | mpop => exact h.maskWord ..
  | vflg | vflgClr => exact h.vuFlags ..
  | vseedSeed | vseedHnd | vseedIdx | vseedAdv => exact h.vuSeed ..
  | tmac | tmacx => exact h.pushMac ..
  | raceMin | raceMax | raceArgmin | raceArgmax | raceSort | raceTopk => exact h.pushRace ..
  | xcopy | xgath | xscat => exact h.copyForm ..
  | sfeeda | sfeedb => exact h.feed ..
  | sksig | sksigReg => exact h.seqSignal ..
  | skwait | skwaitReg => exact h.seqWait ..
  | sqpop | sqpopAg => exact h.seqPop ..
  | prep | preps => exact h.prepare ..
  | lpset | lpsetReg => exact h.loopWord ..
  | nop | mftime | mfcyc => exact h.landWord ..
  | sloop | sloopReg | sagenBase | sagenStep | spermOff | smov | smovHi | smovReg | sadd | saddReg | shalt => exact h.seqSetWord ..
  | call => exact h.execCall ..
  | cinv => exact h.execCinv ..
  | cinva => exact h.execCinva ..
  | lpend => exact h.execLpend ..
  | semsig => exact h.execSemsig ..
  | semwait => exact h.execSemwait ..
  | push => exact h.execPush ..
  | pop => exact h.execPop ..
  | arrive => exact h.execArrive ..
  | mfph => exact h.execMfph ..
  | realign => exact h.execRealign ..
  | hand => exact h.execHand ..
  | take => exact h.execTake ..
  | fenceTile => exact h.execFenceTile ..
  | promote => exact h.execPromote ..
  | halt => exact h.execHalt ..
  | guard => exact h.execGuard ..
  | mfsr => exact h.execMfsr ..
  | mtsr => exact h.execMtsr ..
  | eret => exact h.execEret ..
  | tlbi => exact h.execTlbi ..
  | tlbia => exact h.execTlbia ..
  | wfe => exact h.execWfe ..
  | sev => exact h.execSev ..
  | csave => exact h.execCsave ..
  | crest => exact h.execCrest ..
  | ttrimRd => exact h.execTtrimRd ..
  | ttrimWr => exact h.execTtrimWr ..
  | finj => exact h.execFinj ..
  | vqmx => exact h.execVqmx ..
  | mpush => exact h.execMpush ..
  | mqry => exact h.execMqry ..
  | vld => exact h.execVld ..
  | vst => exact h.execVst ..
  | vldd => exact h.execVldd ..
  | varrive => exact h.execVarrive ..
  | tldb => exact h.execTldb ..
  | tzero => exact h.execTzero ..
  | tflag => exact h.execTflag ..
  | tdrain => exact h.execTdrain ..
  | tcal => exact h.execTcal ..
  | tmarg => exact h.execTmarg ..
  | tarrive => exact h.execTarrive ..
  | xcnt => exact h.execXcnt ..
  | xflag => exact h.execXflag ..
  | xrdef => exact h.execXrdef ..
  | xrgen => exact h.execXrgen ..
  | xarm => exact h.execXarm ..
  | xarrive => exact h.execXarrive ..
  | endOfText => exact h.execEndOfText ..
  | send => exact h.execSend ..
  | sdecode => exact h.execSdecode ..
  | sencode => exact h.execSencode ..
  | sperm => exact h.execSperm ..
  | sqpush => exact h.execSqpush ..
  | prefetchBufferFilled => exact h.execPrefetchBufferFilled ..
  | ringTokenSignal => exact h.execRingTokenSignal ..
  | tokenDeadlock => exact h.execTokenDeadlock ..
  | fifoElementPoppable => exact h.execFifoElementPoppable ..
  | tileHalted => exact h.execTileHalted ..
  | tdaCommandStart => exact h.execTdaCommandStart ..
  | tdaCommandRetire => exact h.execTdaCommandRetire ..
  | tldbPlaneLatch => exact h.execTldbPlaneLatch ..
  | copyLeave => exact h.execCopyLeave ..
  | copyStart => exact h.execCopyStart ..
  | copyLanded => exact h.execCopyLanded ..
  | copyRetired => exact h.execCopyRetired ..
  | tcmdResume => exact h.execTcmdResume ..
  | tcmdAbort => exact h.execTcmdAbort ..
  | partitionConfigWrite => exact h.execPartitionConfigWrite ..
  | dbqRead => exact h.execDbqRead ..
  | divisorApply => exact h.execDivisorApply ..
  | packageTimeSlew => exact h.execPackageTimeSlew ..
  | atsTranslationComplete => exact h.execAtsTranslationComplete ..
  | illegalInstruction => exact h.execIllegalInstruction ..
  | apertureAccessPerformed => exact h.execApertureAccessPerformed ..
  | resultLanding => exact h.landDue ..
  | translationComplete => exact h.endTranslation ..
  | handoverOffer => exact h.makeOffer ..
  | watermarkAdvance => exact h.raiseWatermark ..
  | launchStart => exact h.launchStart ..
  | phaseComplete => exact h.phaseComplete ..
  | deadlineReached => exact h.deadlineReached ..
  | stragglerLimit => exact h.stragglerLimit ..
  | timeZoneSlip => exact h.timeZoneSlip ..
  | partitionDone => exact h.partitionDone ..
  | preemptSaveEntry => exact h.saveEntry ..
  | saveComplete => exact h.saveComplete ..
  | fwcInterrupt => exact h.interrupt ..
  | dbgctlWrite | mmapxWrite | ctxeWrite | dptOverlayWrite | synccfgWrite | pwrcapWrite | dctlDrain | lctlReq | elctlConsume
  | elctlClearLost | dresetWrite => exact h.landWrite ..
  | calibrationDue => exact h.calibrate ..
  | tsyncPulse => exact h.tsync ..
  | tsyncOutPulse => exact h.tsyncOutput ..
  | doorbell => exact h.writeBar0 ..
  | doorbellService => exact h.serveDoorbell ..
  | timetable => exact h.pktTimetable ..
  | write => exact h.pktWrite ..
  | wait => exact h.pktWait ..
  | waitSlotCheck => exact h.recheckWait ..
  | timer => exact h.pktTimer ..
  | timerCancel => exact h.pktTimerCancel ..
  | indirect => exact h.pktIndirect ..
  | fence => exact h.pktFence ..
  | signalStore | signalMax => exact h.pktSignal ..
  | queueWatchdog => exact h.watchdog ..
  | timerSlotBoundary => exact h.visitTimers ..
  | leaseRenew => exact h.renewLease ..
  | leaseExpiry => exact h.expireLease ..
  | leaseTakeover => exact h.takeLease ..
  | queueLeaderMove => exact h.moveLeader ..
  | mailboxScan => exact h.scanMailbox ..
  | flitReplay => exact h.replayFlit ..
  | laneError => exact h.errLane ..
  | linkDrained => exact h.drainLink ..
  | linkPauseEnd => exact h.endPause ..
  | trainingAttemptEnd => exact h.endAttempt ..
  | portInboundAccess | bar2Access => exact h.takeInbound ..
  | atsInvalidation => exact h.dropCached ..
  | functionLevelReset => exact h.flr ..
  | bringUp => exact h.bringUp ..
  | uncoreDown => exact h.failUncore ..
  | eventLatchSet => exact h.setLatch ..
  | phaseOpen => exact (h.controllerOpen ..).dieOpen ..
  | create => exact h.request _ _ _ _ fun _ hs => hs.reqCreate ..
  | destroy => exact h.request _ _ _ _ fun _ hs => hs.reqDestroy ..
  | map => exact h.request _ _ _ _ fun _ hs => hs.reqMap ..
  | context => exact h.request _ _ _ _ fun _ hs => hs.reqContext ..
  | inval => exact h.request _ _ _ _ fun _ hs => hs.reqInval ..
  | preempt => exact h.request _ _ _ _ fun _ hs => hs.reqPreempt ..
  | qreset => exact h.request _ _ _ _ fun _ hs => hs.reqQreset ..
  | attest => exact h.request _ _ _ _ fun _ hs => hs.reqAttest ..

end Sys2Proof.Machine
end

section
/-! PROOF. Every turn of a tick keeps the invariant, whatever runs the words if that keeps it (Machine/Sched.lean); so does every step (O60). -/

namespace Sys2Proof.Machine

variable {s s' : State} {x y z : Tile} {c c' : Ctl} {m m' : Store} {f g : Fwc} {u v : Die}

/-! ### The engines' walk of the text (Machine/Sched.lean) -/

theorem TileInv.freeDecs (h : TileInv x) : TileInv x.freeDecs := ⟨h.store, h.ctl, h.wcfg, h.views⟩

theorem TileInv.pass (h : TileInv x) (e : Eng) (hy : x.pass e = some y) : TileInv y := by
  unfold Tile.pass at hy
  grind [TileInv.setPos, TileInv.freeDecs]

theorem TileInv.passAll (e : Eng) (n : Nat) : ∀ {x : Tile}, TileInv x → TileInv (Tile.passAll e n x) := by
  induction n with
  | zero => exact fun h => h
  | succ n ih =>
    intro x h
    unfold Tile.passAll
    split
    · next hy => exact ih (h.pass e hy)
    · exact h

theorem TileInv.ite {p : Prop} [Decidable p] (h : TileInv x) (h' : TileInv y) : TileInv (if p then x else y) := by
  split
  · exact h
  · exact h'

theorem TileInv.stand (h : TileInv x) (e : Eng) : TileInv (x.stand e) := by
  unfold Tile.stand
  refine TileInv.ite h ?_
  split
  · exact h
  · exact TileInv.ite (h.setPos _ _) h
  · exact TileInv.ite (h.setPos _ _) h

theorem TileInv.walkAll (n : Nat) : ∀ {x : Tile}, TileInv x → TileInv (Tile.walkAll n x) := by
  induction n with
  | zero => exact fun h => h
  | succ n ih =>
    intro x h
    have hy := h.foldl Tile.textEngines (fun x e => Tile.passAll e 0x20000 x) fun _ e hx => TileInv.passAll e _ hx
    exact TileInv.ite hy (ih hy)

theorem TileInv.walkText (h : TileInv x) : TileInv x.walkText :=
  (TileInv.walkAll _ h).foldl _ _ fun _ e hx => hx.stand e

/-! ### The turns of a tick (Machine/Sched.lean) -/

section
variable {run : Run} (hrun : ∀ i s, Inv s → OutInv (run i s))
include hrun

/-- A word or an event run from a state that has the invariant. -/
theorem Inv.runs (h : Inv s) (i : Instr) (a : Agent) : Inv (Machine.took (run i { s with cur := a }) s) :=
  h.took _ (hrun _ _ (h.congr rfl rfl rfl))

theorem Inv.trial (h : Inv s) (t : Nat) (e : Eng) : Inv (s.trial run t e) := by
  have h1 := h.runs hrun (s.fetch (.eng t e)) (.eng t e)
  exact (Inv.ite (h1.runs hrun _ _) h1).congr rfl rfl rfl

end

theorem Inv.touchFetch (h : Inv s) (t : Nat) (e : Eng) : Inv (s.touchFetch t e).1 := by
  unfold State.touchFetch
  grind [Inv.touch]

theorem Inv.touchAll (h : Inv s) (t : Nat) (es : List Eng) : Inv (s.touchAll t es).1 := by
  refine h.foldl_fst _ _ _ fun q e hq => ?_
  grind [Inv.touchFetch]

theorem Inv.beforeIssue (h : Inv s) (t : Nat) : Inv (s.beforeIssue t).1 := by
  unfold State.beforeIssue
  dsimp only
  have hs := h.modTile_keeps t (fun x => { x with stop := { x.stop with held := .none } }) fun _ hx => ⟨hx.store, hx.ctl, hx.wcfg, hx.views⟩
  generalize s.modTile t _ = s at hs ⊢
  have hs := hs.took _ ((hs.landDue t).execPrefetchBufferFilled t)
  generalize Machine.took _ s = s at hs ⊢
  have hs := hs.took _ (hs.execTdaCommandRetire t)
  generalize Machine.took _ s = s at hs ⊢
  have hs := hs.took _ (hs.execRingTokenSignal t)
  generalize Machine.took _ s = s at hs ⊢
  have hs := hs.took _ (hs.execFifoElementPoppable t)
  generalize Machine.took _ s = s at hs ⊢
  have hl := hs.latchNext t
  refine Inv.endTranslation ?_ t
  split
  · next he => rw [he] at hl; exact Inv.startHead hl t
  · exact hl

theorem Inv.countStalls (h : Inv s) (t : Nat) (stuck : List Eng) : Inv (s.countStalls t stuck) := by
  have hb : ∀ (src : BitVec 8) (b : Bool) (y : Tile), TileInv y → TileInv (if b then y.bump src 1 else y) := fun src b y hy =>
    TileInv.ite (hy.bump _ _) hy
  exact h.modTile_keeps _ _ fun y hy => hb _ _ _ (hb _ _ _ (hb _ _ _ (hb _ _ _ (hb _ _ _ (hb _ _ _ hy)))))

theorem Inv.firstTrap (h : Inv s) (t : Nat) (bad : List (Eng × Nat)) (array : Option (Nat × BitVec 8 × DWord)) (traps : List Eng)
    (hs : s.firstTrap t bad array traps = some s') : Inv s' := by
  have hword : ∀ e, Inv (match bad.find? fun b => b.1 == e with
      | some b => s.trapWord t e Cause.ecc (BitVec.ofNat 64 b.2)
      | none => s.first [.issue (.eng t e)]) := fun e => by
    split
    · exact h.trapWord _ _ _ _
    · exact h.first _
  unfold State.firstTrap at hs
  split at hs
  · exact Option.some.inj hs ▸ hword _
  · exact Option.some.inj hs ▸ h.freeze _ _ _
  · obtain ⟨e, -, rfl⟩ := Option.map_eq_some_iff.1 hs
    exact hword e

theorem Inv.plan {run : Run} (hrun : ∀ i s, Inv s → OutInv (run i s)) (h : Inv s) (t : Nat) : Inv (s.plan run t) := by
  have hb := h.beforeIssue t
  unfold State.plan
  dsimp only
  refine Inv.ite h (Inv.ite (hb.first _) ?_)
  have hw := hb.modTile_keeps t Tile.walkText fun _ hx => hx.walkText
  have ha := hw.touchAll t ([Eng.ctl, .vu, .tda, .xp, .tsq].filter ((((s.beforeIssue t).1.modTile t Tile.walkText).tile t).couldIssue))
  generalize State.touchAll _ t _ = q at ha ⊢
  refine Inv.ite ?_ ?_
  · exact Inv.modTile_keeps (ha.foldl _ _ fun s e hs => hs.trial hrun t e) _ _ fun _ hx => hx.bump _ _
  · split
    · next hf => exact ha.firstTrap _ _ _ _ hf
    · exact Inv.ite (ha.took _ (ha.execTokenDeadlock t)) ((ha.countStalls _ _).first _)

theorem Inv.closeTile (h : Inv s) (t : Nat) : Inv (s.closeTile t) := by
  have hs := h.modTile_keeps t (fun x => { x with cyc := x.cyc + 1 }.bump 0x01 1) fun _ hx => ⟨hx.store, hx.ctl, hx.wcfg, hx.views⟩
  exact Inv.ite h (hs.took _ (hs.execTileHalted t))

theorem Inv.issueTurn {run : Run} (hrun : ∀ i s, Inv s → OutInv (run i s)) (h : Inv s) (a : Agent) : OutInv (s.issueTurn run a) := by
  have hr := fun i a => hrun i { s with cur := a } (h.congr rfl rfl rfl)
  unfold State.issueTurn
  grind [OutInv]

theorem Inv.endBlocking (h : Inv s) (d : Nat) : Inv (s.endBlocking d) := by
  unfold State.endBlocking
  split
  · exact Inv.ite h (h.landTcmd _ _)
  · exact Inv.ite (h.took _ (h.execTcmdResume d)) (h.took _ (h.execTcmdAbort d))
  · exact h.endOther d

theorem Inv.fwcBefore (h : Inv s) (d : Nat) : Inv (s.fwcBefore d) := by
  unfold State.fwcBefore
  have hs := (h.landFwc d).modFwc_keeps d (fun f =>
    { f with ctl := { f.ctl with t := f.ctl.t.map fun (e : Nat × Target) => (e.1, Target.fill e.2 f.cyc) } }) fun _ hf =>
      ⟨hf.sram, hf.ctl.congr rfl rfl⟩
  exact (((hs.setLatch d).endBlocking d).endBlocking d).fwcInterrupt d

theorem Inv.fwcCycle (h : Inv s) (d : Nat) : Inv (s.fwcCycle d).1 := by
  unfold State.fwcCycle
  grind [Inv.fwcBefore, Inv.touchSram, Inv.exception]

theorem Inv.dieTurn (h : Inv s) (d : Nat) : Inv (s.dieTurn d) := by
  have ho := h.foldl s.parts (fun s (e : Nat × Part) => if e.2.active then s.dieOpen e.1 d else s) fun s e hs => Inv.ite (hs.dieOpen _ _) hs
  unfold State.dieTurn
  refine Inv.ite (h.modDie_keeps _ _ fun _ hu => hu.congr hu.fwc rfl rfl) (Inv.ite (h.first _) ?_)
  exact (ho.fwcCycle d).first _

theorem Inv.keepWritten (h : Inv s) (d : Nat) : Inv (s.keepWritten d) := by
  unfold State.keepWritten
  refine Inv.modDie_keeps (h.foldl _ _ fun s e hs => ?_) _ _ fun _ hu => hu.congr hu.fwc rfl rfl
  split
  · exact hs.modTile_keeps _ _ fun _ hx => ⟨hx.store, hx.ctl, hx.wcfg, hx.views⟩
  · exact hs.modDie_keeps _ _ fun _ hu => hu.congr hu.fwc rfl rfl

theorem Inv.dieDone (h : Inv s) (d : Nat) : Inv (s.dieDone d) :=
  (h.keepWritten d).modDie_keeps _ _ fun _ hu => ⟨⟨hu.fwc.sram, hu.fwc.ctl⟩, hu.wr, hu.rd⟩

theorem Inv.newTick (h : Inv s) : Inv s.newTick := h.congr rfl rfl rfl

theorem Inv.linkStep (h : Inv s) (k : Nat) : Inv (s.linkStep k) := ((h.drainLink k).endPause k).endAttempt k

theorem Inv.moveQueues (h : Inv s) (d : Nat) : Inv (s.moveQueues d) := by
  unfold State.moveQueues
  refine Inv.ite h (h.foldl _ _ fun s k hs => Inv.ite hs ?_)
  split
  · next he => exact Inv.ite ((hs.walkQueue _ _ _ he).moveLeader _) (hs.walkQueue _ _ _ he)
  · exact hs.markTable _

/-- The front end of a die takes a step for every queue it runs. -/
theorem Inv.frontSteps (h : Inv s) (l : List QRun) : Inv (l.foldl (fun s r => s.frontStep r.q) s) := h.foldl _ _ fun _ _ hs => hs.frontStep _

theorem Inv.firmware (h : Inv s) (d : Nat) : Inv (s.firmware d) := by
  unfold State.firmware
  refine Inv.ite h ?_
  have hs := ((h.linkService d).expireLease d).takeLease d
  refine Inv.programTimers (Inv.frontSteps (Inv.visitTimers (Inv.serveDoorbell ?_ d) d) _) d
  grind [Inv.renewLease, Inv.writeReplies, Inv.scanMailbox, Inv.moveQueues]

/-- An event that every listed thing takes. -/
theorem Inv.events {α : Type} (h : Inv s) (l : List α) (k : α → State → Out) (hk : ∀ a s, Inv s → OutInv (k a s)) :
    Inv (l.foldl (fun s a => Machine.took (k a s) s) s) := h.foldl _ _ fun s a hs => hs.took _ (hk a s hs)

theorem Inv.copyEvents (h : Inv s) (l : List Copy) (k : Nat → State → Out) (hk : ∀ c s, Inv s → OutInv (k c s)) :
    Inv (l.foldl (fun s c => Machine.took (k c.id s) s) s) := h.events l (fun c => k c.id) fun c => hk c.id

theorem Inv.copiesStep (h : Inv s) : Inv s.copiesStep := by
  unfold State.copiesStep
  refine Inv.events ?_ _ Machine.execWatermarkAdvance fun d s hs => hs.raiseWatermark d
  refine Inv.retryInvals (Inv.copyEvents ?_ _ Machine.execCopyRetired fun c s hs => hs.execCopyRetired c)
  refine Inv.copyEvents ?_ _ Machine.execCopyLanded fun c s hs => hs.execCopyLanded c
  refine Inv.copyEvents ?_ _ Machine.execCopyStart fun c s hs => hs.execCopyStart c
  exact h.copyEvents _ Machine.execCopyLeave fun c s hs => hs.execCopyLeave c

theorem Inv.calibrateAll (h : Inv s) : Inv s.calibrateAll := by
  unfold State.calibrateAll
  refine Inv.foldl (h.foldl _ _ fun s e hs => hs.calibrate e.1) _ _ fun s d hs => ?_
  exact Inv.ite (hs.foldl _ _ fun s k hs => hs.calibrate _) hs

/-- The offers that the active partitions make when a tick opens. -/
theorem Inv.makeOffers (h : Inv s) (l : List (Nat × Part)) :
    Inv (l.foldl (fun s (e : Nat × Part) =>
      if e.2.active then (s.releasing e.1).foldl (fun s g => s.makeOffer e.1 (0x200000 * g)) s else s) s) := by
  refine h.foldl _ _ fun s e hs => ?_
  have ho := hs.foldl (s.releasing e.1) (fun s g => s.makeOffer e.1 (0x200000 * g)) fun s g hs => hs.makeOffer e.1 (0x200000 * g)
  split
  · exact ho
  · exact hs

theorem Inv.openTick (h : Inv s) : Inv s.openTick := by
  unfold State.openTick
  dsimp only
  have hz := h.resizeBar2.foldl (upto 8) State.timeZoneSlip fun s d hs => hs.timeZoneSlip d
  generalize (upto 8).foldl State.timeZoneSlip s.resizeBar2 = s at hz ⊢
  have hb : Inv (if 4 ≤ s.pkg.boot && s.pkg.boot < 10 then s.bringUp else s) := Inv.ite hz.bringUp hz
  have hl := hb.tsyncOutput.calibrateAll.foldl (State.meshLinks ++ State.portLinks) State.linkStep fun s k hs => hs.linkStep k
  generalize List.foldl State.linkStep _ _ = s at hl ⊢
  have hp := (hl.foldl (upto 8) State.endPress fun s d hs => hs.endPress d).retryInbound.retryStatus
  generalize State.retryStatus _ = s at hp ⊢
  have hc := hp.foldl s.parts (fun s (e : Nat × Part) => (s.launchStart e.1).controllerOpen e.1) fun s e hs =>
    (hs.launchStart e.1).controllerOpen e.1
  generalize List.foldl _ s s.parts = s at hc ⊢
  have hd := (hc.makeOffers s.parts).events (upto 8) Machine.execDivisorApply fun d s hs => hs.execDivisorApply d
  exact hd.first _

theorem Inv.partStep (h : Inv s) (p : Nat) : Inv (s.partStep p) :=
  (((((((h.lateHold p).partitionDone p).phaseComplete p).deadlineReached p).stragglerLimit p).saveEntry p).saveComplete p)

theorem DieInv.keepCounts (h : DieInv u) : DieInv (State.Die.keepCounts u) := h.congr h.fwc rfl rfl

theorem Inv.countTick (h : Inv s) : Inv s.countTick := by
  unfold State.countTick
  refine Inv.foldl ?_ _ _ fun s e hs => Inv.ite (hs.bumpDie _ _ _) hs
  exact h.mapDies (fun u => { u with evc := bumpAll u.evc 0x25 1 }) fun u hu => ⟨hu.fwc, hu.wr, hu.rd⟩

theorem Inv.closeTick (h : Inv s) : Inv s.closeTick := by
  have hp := h.copiesStep.foldl s.copiesStep.parts (fun s (e : Nat × Part) => s.partStep e.1) fun s e hs => hs.partStep e.1
  exact (hp.countTick.mapDies (fun u => State.Die.keepCounts u.writeLog) fun u hu => hu.writeLog.keepCounts).nextTick

theorem Inv.turn {run : Run} (hrun : ∀ i s, Inv s → OutInv (run i s)) (h : Inv s) : OutInv (s.turn run) := by
  unfold State.turn
  split
  · exact h.newTick
  · next rest _ =>
    have hs : Inv { s with agenda := rest } := h.congr rfl rfl rfl
    dsimp only
    split
    · exact hrun _ _ (h.congr rfl rfl rfl)
    · exact hs.openTick
    · exact hs.firmware _
    · exact hs.dieTurn _
    · exact hs.plan hrun _
    · exact hs.issueTurn hrun _
    · exact hs.closeTile _
    · exact hs.dieDone _
    · exact hs.closeTick

theorem Inv.step (h : Inv s) (hs : step s = .next s') : Inv s' := by
  have ho : OutInv (Machine.step s) := h.turn fun i _ h => h.exec i
  rw [hs] at ho
  exact ho

end Sys2Proof.Machine

namespace Sys2Proof.Proofs
open Sys2Proof.Machine

/-- Settles O60: the invariant as a structure, kept by every turn because every word and every event keeps it. -/
theorem stepKeepsInvariant : Obligations.StepKeepsInvariant :=
  fun s s' h hs => (inv_iff s').1 (((inv_iff s).2 h).step hs)

end Sys2Proof.Proofs
end

section
/-! PROOF. Words on a tile, by what their meaning answers; reset, one step, and words that no engine runs (O14, O50, O55, O57). -/

namespace Sys2Proof.Machine
variable {s s' : State} {t : Nat} {e : Eng} {w : Form} {f : Eff} {cause : BitVec 8} {aux : DWord}

/-! ### A word on a tile, by its answer -/

/-- The state of a tile whose word waits on a party outside (R72). -/
abbrev State.heldWord (s : State) (t : Nat) : State :=
  (s.unguard t).modTile t fun y => { y with stop := { y.stop with held := .party } }

theorem onTile_eq (hc : s.cur = .eng t e) (k : Nat → Tile → Act) : onTile s k = k t (s.tile t) := by
  simp [onTile, hc]

section
variable {act : State → Act} (h : Ready s t .ctl w.h w.leg)
include h

theorem ctlWord_go (ha : act s = .go s' f) : ctlWord w act s = .next (s'.issued t .ctl w.h w.len f) := by
  rw [ctlWord_ready s t w act h, ha]

theorem ctlWord_wait (ha : act s = .wait) : ctlWord w act s = .next (s.unguard t) := by
  rw [ctlWord_ready s t w act h, ha]

theorem ctlWord_hold (ha : act s = .hold s') : ctlWord w act s = .next (s'.heldWord t) := by
  rw [ctlWord_ready s t w act h, ha]

theorem ctlWord_trap (ha : act s = .trap cause aux) : ctlWord w act s = .next (s.trapWord t .ctl cause aux) := by
  rw [ctlWord_ready s t w act h, ha]
end

section
variable {act : Nat → State → Act} (h : Ready s t e w.h w.leg)
include h

theorem engWord_go (ha : act t s = .go s' f) : engWord e w act s = .next (s'.issued t e w.h w.len f) := by
  rw [engWord_ready s t e w act h, ha]

theorem engWord_wait (ha : act t s = .wait) : engWord e w act s = .next (s.unguard t) := by
  rw [engWord_ready s t e w act h, ha]

theorem engWord_hold (ha : act t s = .hold s') : engWord e w act s = .next (s'.heldWord t) := by
  rw [engWord_ready s t e w act h, ha]

theorem engWord_trap (ha : act t s = .trap cause aux) : engWord e w act s = .next (s.trapWord t e cause aux) := by
  rw [engWord_ready s t e w act h, ha]

theorem engWord_fail (ha : act t s = .fail s' cause aux) : engWord e w act s = .next (s'.trapWord t e cause aux) := by
  rw [engWord_ready s t e w act h, ha]
end

/-! ### Words no engine runs -/

theorem State.word_text (hc : s.cur = .eng t e) (he : e ≠ .tsq) : s.word = (s.tile t).store.textAt ((s.tile t).pos e).pc := by
  cases e <;> simp_all [State.word]

theorem State.word_seq (hc : s.cur = .eng t .tsq) : s.word = (s.tile t).store.seqAt (s.tile t).tsq.tpc := by
  simp [State.word, hc]

/-- The opcodes of the queue commands, as numbers (R144). -/
theorem queueWord_iff (w : Word) :
    queueWord w = true ↔ w.toNat / 2 ^ 20 % 2 ^ 6 < 4 ∨ 8 ≤ w.toNat / 2 ^ 20 % 2 ^ 6 ∧ w.toNat / 2 ^ 20 % 2 ^ 6 < 14 := by
  simp [queueWord, opOf, fld, BitVec.extractLsb'_toNat, Nat.shiftRight_eq_div_pow]

theorem execIllegal_text (hc : s.cur = .eng t e) (he : e ≠ .tsq) :
    execIllegalInstruction s = .next (
      if !(s.tile t).tokens e (Ring.ofWord s.word) || (e == .tda && queueWord s.word && (s.tile t).tda.full) then s.unguard t
      else s.trapWord t e Cause.illegal (s.word.setWidth 64)) := by
  cases e with
  | tsq => exact absurd rfl he
  | _ =>
    simp only [execIllegalInstruction, hc]
    split <;> rfl

theorem sysWord_tile (h : Ready s t .ctl Ring.none .cx) (act : Nat → State → Act) :
    sysWord act s = .next (s.trapWord t .ctl Cause.illegal (((s.tile t).store.textAt (s.tile t).pctl.pc).setWidth 64)) := by
  refine ctlWord_trap (w := .cx Ring.none) h ?_
  simp only [h.1, State.illegal, State.word_text h.1 (by decide)]
  rfl

/-! ### Fetch -/

theorem Store.instrAt_ok {m : Store} {a : Nat} {i : Instr} (hl : a + headLength (m.textAt a) ≤ m.textLen)
    (hd : decodeText (m.textAt a) (m.textAt (a + 1)) (m.textAt (a + 2)) = .ok i) : m.instrAt a = i := by
  simp only [Store.instrAt, Nat.not_lt.2 hl, decide_false, Bool.and_false, Bool.false_eq_true, if_false, hd]

theorem Store.instrAt_error {m : Store} {a : Nat} {x : Reject} (hl : a + headLength (m.textAt a) ≤ m.textLen)
    (hd : decodeText (m.textAt a) (m.textAt (a + 1)) (m.textAt (a + 2)) = .error x) : m.instrAt a = .illegalInstruction := by
  simp only [Store.instrAt, Nat.not_lt.2 hl, decide_false, Bool.and_false, Bool.false_eq_true, if_false, hd]

theorem Store.instrAt_end {m : Store} {a : Nat} (h : m.textAt a = eotWord ∨ m.textLen < a + headLength (m.textAt a)) :
    m.instrAt a = .endOfText := by
  by_cases hw : m.textAt a = eotWord
  · simp [Store.instrAt, decodeText, hw]
  · simp [Store.instrAt, hw, h.resolve_left hw]

theorem Fwc.instr_inside {f : Fwc} {i : Instr} (hw : State.fwcText f f.pc ≠ eotWord) (ht : tagOf (State.fwcText f f.pc) = 0)
    (hl : f.pc + headLength (State.fwcText f f.pc) ≤ f.codeEnd)
    (hd : decodeText (State.fwcText f f.pc) (State.fwcText f (f.pc + 1)) 0 = .ok i) : f.instr = i := by
  have hd' : decodeText (State.fwcText f f.pc) (State.fwcText f (f.pc + 1)) 0#32 = .ok i := hd
  simp [Fwc.instr, hw, ht, hd', Nat.not_lt.2 hl]

theorem tagOf_eq_zero {w : Word} (h : w.toNat / 2 ^ 30 = 0) : tagOf w = 0 := by
  apply BitVec.eq_of_toNat_eq
  simp only [tagOf, fld, BitVec.extractLsb'_toNat, Nat.shiftRight_eq_div_pow, h]
  rfl

end Sys2Proof.Machine

namespace Sys2Proof.Proofs
open Sys2Proof.Machine

theorem wcfg_reset (t : Nat) : (State.reset.tile t).stop.wcfg = 0xF81F#32 := rfl

/-- Settles O50: no part of the state is listed at reset, so each reads as its default. -/
theorem resetValues : Obligations.ResetValues :=
  ⟨fun t => by rw [wcfg_reset]; exact ⟨by decide, by decide, rfl⟩, fun _ => ⟨rfl, rfl, rfl, rfl, rfl, rfl⟩,
    fun _ => ⟨rfl, rfl, rfl, rfl, rfl, rfl⟩, fun _ => ⟨rfl, rfl⟩, fun _ => rfl, rfl, rfl, rfl, rfl, rfl, rfl, rfl, rfl, rfl, rfl⟩

/-- A step whose next turn is an engine's issue runs the word that is fetched there. -/
theorem step_issue {s : State} {rest : List Turn} {t : Nat} {e : Eng} (ha : s.agenda = .issue (.eng t e) :: rest)
    (hf : (s.tile t).stop.frozen = false) :
    step s = exec (s.fetch (.eng t e)) { s with agenda := rest, cur := .eng t e } := by
  have hf' : (State.tile { s with agenda := rest } t).stop.frozen = false := hf
  simp only [step, State.turn, ha, State.issueTurn, hf', Bool.false_eq_true, if_false]
  rfl

theorem fetch_text (s : State) {t : Nat} {e : Eng} (he : e ≠ .tsq) :
    s.fetch (.eng t e) = (s.tile t).store.instrAt ((s.tile t).pos e).pc := by
  cases e with
  | tsq => exact absurd rfl he
  | _ => rfl

/-- Settles O55: the turn fetches at the agent's position, and the fetch is the decoder's. -/
theorem stepRunsDecoded : Obligations.StepRunsDecoded := by
  intro s rest
  refine ⟨fun t e ha hf he => ?_, fun t ha hf => ?_, fun t e ha hf => ?_, fun d i ha => ?_, fun i ha => ?_⟩
  · refine ⟨fun i _ hl hd => ?_, fun x _ hl hd => ?_, fun hend => ?_⟩
    · rw [step_issue ha hf, fetch_text s he, Store.instrAt_ok hl hd]
    · rw [step_issue ha hf, fetch_text s he, Store.instrAt_error hl hd]
    · rw [step_issue ha hf, fetch_text s he, Store.instrAt_end hend]
  · have hs := step_issue ha hf
    simp only [State.fetch, Store.seqInstrAt] at hs
    exact ⟨fun i hd => by rw [hs, hd], fun x hd => by rw [hs, hd]⟩
  · have hf' : (State.tile { s with agenda := rest } t).stop.frozen = true := hf
    simp only [step, State.turn, ha, State.issueTurn, hf', if_true]
  · intro f w hw ht hl hd
    have hi : (s.fwc d).instr = i := Fwc.instr_inside hw (tagOf_eq_zero ht) hl hd
    rw [← hi]
    simp only [step, State.turn, ha]
    rfl
  · simp only [step, State.turn, ha]

/-- Settles O14: the end of text and illegal words trap by their own meanings; a system word on a tile answers with the illegal
instruction of the word at the CTL's position. -/
theorem wordsNobodyRuns : Obligations.WordsNobodyRuns := by
  refine ⟨fun s => ⟨fun t e hc => ?_, fun t e hc he => ?_, fun t hc => ?_, fun d hc => ?_⟩, fun sa sb sr s t h i hi => ?_⟩
  · simp only [exec, execEndOfText, hc]; rfl
  · have hx := execIllegal_text hc he
    rw [State.word_text hc he] at hx
    simp only [exec, hx, Bool.or_eq_true, Bool.and_eq_true, queueWord_iff, Bool.not_eq_true', beq_iff_eq, Tda.full, decide_eq_true_eq,
      and_assoc]
    exact ⟨fun htok hfull => by rw [if_neg (by simp only [htok]; tauto)]; rfl, fun hw => by rw [if_pos hw]⟩
  · simp only [exec, execIllegalInstruction, hc, State.word_seq hc]; rfl
  · simp only [exec, execEndOfText, execIllegalInstruction, hc, State.word]; exact ⟨rfl, rfl⟩
  · simp only [List.mem_cons, List.not_mem_nil, or_false] at hi
    rcases hi with rfl | rfl | rfl | rfl | rfl | rfl | rfl | rfl | rfl | rfl | rfl | rfl
    all_goals exact sysWord_tile h _

/-- A machine whose tile 0 stands at a TRAP that has taken its tokens and waits for room (R183), with one token left behind them. -/
def trapHasTokens : State :=
  State.reset.setTile 0 { State.tile0 with pctl := { State.pos0 with took := true, fp := [0] } }

/-- Refutes O57: a TRAP or BRK that has taken its tokens takes none as it issues (R183; log 47), where the statement has every issue take
one for each of its ring bits. -/
theorem not_issueFrame : ¬ Obligations.IssueFrame := by
  intro h
  obtain ⟨-, -, -, -, -, -, -, -, hfp, -⟩ := (h trapHasTokens 0 0 .ctl ⟨true, false, false, false⟩ 1 Eff.nil).1 (by decide)
  exact absurd hfp (by decide)

end Sys2Proof.Proofs
end

section
/-! PROOF. Counted tokens, semaphores and the sequencer's control words (O8, O28). -/

namespace Sys2Proof.Machine
variable {s s' : State} {t : Nat} {e : Eng} {f : Eff}

/-! ### A part written twice holds what was written last -/

theorem Map.put_put {α : Type} (m : Map α) (k : Nat) (v w : α) : (m.put k v).put k w = m.put k w := by
  have above (x : Nat × α) : decide (x.1 < k) = true → decide (k < x.1) = true → False := by simp; omega
  have hlo : (m.filter fun x => decide (k < x.1)).filter (fun x => decide (x.1 < k)) = [] :=
    List.filter_eq_nil_iff.2 fun x hx hk => above x hk (List.mem_filter.1 hx).2
  have hhi : (m.filter fun x => decide (x.1 < k)).filter (fun x => decide (k < x.1)) = [] :=
    List.filter_eq_nil_iff.2 fun x hx hk => above x (List.mem_filter.1 hx).2 hk
  simp only [Map.put, List.filter_append, List.filter_filter, hlo, hhi, Bool.and_self]
  simp

theorem State.setTile_setTile (s : State) (t : Nat) (x y : Tile) : (s.setTile t x).setTile t y = s.setTile t y := by
  simp only [State.setTile, Map.put_put]

theorem State.modTile_setTile (s : State) (t : Nat) (x : Tile) (k : Tile → Tile) :
    (s.setTile t x).modTile t k = s.setTile t (k x) := by
  rw [State.modTile, State.tile_setTile, State.setTile_setTile]

theorem State.modTile_modTile (s : State) (t : Nat) (k j : Tile → Tile) : (s.modTile t k).modTile t j = s.modTile t fun x => j (k x) :=
  s.modTile_setTile t _ j

/-! ### Releases wait for stores -/

theorem le_maxOf (lo : Nat) (l : List Nat) : lo ≤ maxOf lo l := by
  unfold maxOf
  induction l generalizing lo with
  | nil => exact le_rfl
  | cons a r ih => exact (Nat.le_max_left lo a).trans (ih _)

/-- What a release waits for is a write to the scratchpad by the engine (R128). -/
theorem storesDue_isEmpty (x : Tile) (e : Eng) : (x.storesDue e).isEmpty = true ↔ ¬∃ p ∈ x.pend,
    p.eng = e ∧ ((∃ rs, p.land = .bytes .scr rs) ∨ ∃ op w a rd b c, p.land = .atomic op w a rd b c) := by
  simp only [Tile.storesDue, List.isEmpty_iff, List.map_eq_nil_iff, List.filter_eq_nil_iff, Bool.and_eq_true, beq_iff_eq, not_exists,
    not_and]
  refine forall_congr' fun p => forall_congr' fun _ => forall_congr' fun _ => not_congr ?_
  cases p.land with
  | bytes sp rs => cases sp <;> simp
  | _ => simp

theorem storesDue_storePending (x : Tile) : (x.storesDue .ctl).isEmpty = true ↔ ¬Claims.storePending x := storesDue_isEmpty x .ctl

theorem storesDue_of_storePending {x : Tile} (h : Claims.storePending x) : (x.storesDue .ctl).isEmpty = false := by
  rw [← Bool.not_eq_true, storesDue_storePending]; exact not_not_intro h

/-! ### Tokens -/

/-- The tile with another count of a token. -/
abbrev Tile.setToken (x : Tile) (k : BitVec 3) (n : Nat) : Tile :=
  { x with sync := { x.sync with k := x.sync.k.set 0 k.toNat (BitVec.ofNat 16 n) } }

theorem addToken_eq (s : State) (t : Nat) (k : BitVec 3) (n : Nat) :
    s.addToken t k n = s.setTile t ((s.tile t).setToken k ((s.tile t).token k + n)) := by
  simp only [State.addToken, State.modTile, Tile.setToken, Tile.token, BitVec.ofNat_add, BitVec.ofNat_toNat, BitVec.setWidth_eq]
  rfl

theorem subToken_eq (s : State) (t : Nat) (k : BitVec 3) (n : Nat) (h : n ≤ (s.tile t).token k) :
    s.subToken t k n = s.setTile t ((s.tile t).setToken k ((s.tile t).token k - n)) := by
  have hv : (s.tile t).sync.k.get 0#16 k.toNat - BitVec.ofNat 16 n = BitVec.ofNat 16 ((s.tile t).token k - n) := by
    apply BitVec.eq_of_toNat_eq
    have := ((s.tile t).sync.k.get 0#16 k.toNat).isLt
    unfold Tile.token at h ⊢
    simp only [BitVec.toNat_sub, BitVec.toNat_ofNat]
    omega
  simp only [State.subToken, State.modTile, hv]
  rfl

theorem low16_toNat (w : Word) : (w.extractLsb' 0 16).toNat = w.toNat % 65536 := by simp [BitVec.extractLsb'_toNat]

section
variable {h : Ring} {k : BitVec 3} {n : Ctl → BitVec 16} (hr : Ready s t .ctl h .c)
include hr

theorem tokenSignal_zero (hn : (n (s.tile t).ctl).toNat = 0) : tokenSignal h k n s = .next (s.issued t .ctl h 1 Eff.nil) :=
  ctlWord_go (w := .tile h .c) hr (by rw [onTile_eq hr.1]; simp only [hn, if_true])

theorem tokenSignal_go (hn : (n (s.tile t).ctl).toNat ≠ 0) (hs : ¬Claims.storePending (s.tile t))
    (hv : (s.tile t).token k + (n (s.tile t).ctl).toNat ≤ 65535) :
    tokenSignal h k n s =
      .next ((s.setTile t ((s.tile t).setToken k ((s.tile t).token k + (n (s.tile t).ctl).toNat))).issued t .ctl h 1 Eff.nil) := by
  rw [← addToken_eq]
  refine ctlWord_go (w := .tile h .c) hr ?_
  rw [onTile_eq hr.1]
  simp [hn, (storesDue_storePending _).2 hs, Nat.not_lt.2 hv]

theorem tokenSignal_wait (hn : (n (s.tile t).ctl).toNat ≠ 0)
    (hv : Claims.storePending (s.tile t) ∨ 65535 < (s.tile t).token k + (n (s.tile t).ctl).toNat) :
    tokenSignal h k n s = .next (s.unguard t) := by
  refine ctlWord_wait (w := .tile h .c) hr ?_
  rw [onTile_eq hr.1]
  rcases hv with hv | hv
  · simp [hn, storesDue_of_storePending hv]
  · simp [hn, hv]

theorem tokenWait_go (hv : (n (s.tile t).ctl).toNat ≤ (s.tile t).token k) :
    tokenWait h k n s =
      .next ((s.setTile t ((s.tile t).setToken k ((s.tile t).token k - (n (s.tile t).ctl).toNat))).issued t .ctl h 1 Eff.nil) := by
  rw [← subToken_eq s t k _ hv]
  refine ctlWord_go (w := .tile h .c) hr ?_
  rw [onTile_eq hr.1]
  simp only [if_neg (Nat.not_lt.2 hv)]

theorem tokenWait_wait (hv : (s.tile t).token k < (n (s.tile t).ctl).toNat) : tokenWait h k n s = .next (s.unguard t) := by
  refine ctlWord_wait (w := .tile h .c) hr ?_
  rw [onTile_eq hr.1]
  simp only [if_pos hv]
end

/-- The four token words are a signal or a wait with a count read from the CTL's registers. -/
theorem exec_tokenWord {c : Ctl} {i : Instr} {h : Ring} {k : BitVec 3} {m : Nat} {sig : Bool}
    (hi : Claims.tokenWord c i = some (h, k, m, sig)) :
    ∃ n : Ctl → BitVec 16, (n c).toNat = m ∧ exec i = if sig then tokenSignal h k n else tokenWait h k n := by
  unfold Claims.tokenWord at hi
  split at hi <;> cases hi
  case h_1 n => exact ⟨fun _ => n, rfl, rfl⟩
  case h_2 ra => exact ⟨fun c => (c.rS ra).extractLsb' 0 16, low16_toNat _, rfl⟩
  case h_3 n => exact ⟨fun _ => n, rfl, rfl⟩
  case h_4 ra => exact ⟨fun c => (c.rS ra).extractLsb' 0 16, low16_toNat _, rfl⟩

theorem semCount_ne_zero (x : Tile) (i : Nat) : x.semCount i ≠ 0 ↔ x.sync.sem.get 0#16 i ≠ 0 := by
  rw [Tile.semCount, ne_eq, ne_eq, not_congr]
  exact ⟨fun h => BitVec.eq_of_toNat_eq h, fun h => by rw [h]; rfl⟩

/-! ### A word of the sequencer, by its answer -/

section
variable {act : Nat → Tile → State → Act} (h : SeqReady s t)
include h

theorem seqWord_go (ha : act t (s.tile t) s = .go s' f) : seqWord act s = .next (s'.seqIssued t (s.tile t) f) := by
  have hp : ¬(s.tile t).seat.phase % 2 = 1 := by rw [h.2]; decide
  simp only [seqWord, h.1, State.seqRun, if_neg hp, ha]

theorem seqWord_wait (ha : act t (s.tile t) s = .wait) : seqWord act s = .next s := by
  have hp : ¬(s.tile t).seat.phase % 2 = 1 := by rw [h.2]; decide
  simp only [seqWord, h.1, State.seqRun, if_neg hp, ha]

/-- A word whose effect is a new tile, one cycle long. -/
theorem seqWord_done {y : Tile} (ha : act t (s.tile t) s = .go (s.setTile t y) Eff.nil) :
    seqWord act s = .next (Claims.seqDone s t y 1 []) := by
  rw [seqWord_go h ha, State.seqIssued, State.modTile_setTile]
  rfl
end

section
variable (h : SeqReady s t)
include h

theorem seqPop_ready {x : Fel} {r : List Fel} (hq : (s.tile t).sync.fqs = x :: r) (hx : x.ready = true) (k : Tsq → Word → Tsq) :
    seqPop k s = .next (Claims.seqDone s t
      { s.tile t with sync := { (s.tile t).sync with fqs := r }, tsq := k (s.tile t).tsq x.v } 1 []) := by
  unfold seqPop
  refine seqWord_done h ?_
  simp only [hq, hx, Bool.not_true, Bool.false_eq_true, if_false]
  rfl

theorem seqPop_wait (hq : (s.tile t).sync.fqs = [] ∨ ∃ x r, (s.tile t).sync.fqs = x :: r ∧ x.ready = false) (k : Tsq → Word → Tsq) :
    seqPop k s = .next s := by
  unfold seqPop
  refine seqWord_wait h ?_
  rcases hq with hq | ⟨x, r, hq, hx⟩
  · simp only [hq]
  · simp only [hq, hx, Bool.not_false, if_true]
end

/-- In an exchange phase the sequencer issues nothing (R241). -/
theorem seqWord_exchange {act : Nat → Tile → State → Act} (hc : s.cur = .eng t .tsq) (hp : (s.tile t).seat.phase % 2 = 1) :
    seqWord act s = .next s := by
  simp only [seqWord, hc, State.seqRun, hp, if_true]

/-- The words of `seqSets` change the sequencer's registers as it says. -/
theorem exec_seqSets {i : Instr} {q : Tsq} (hi : Claims.seqSets (s.tile t).tsq i = some q) :
    ∃ k : Tile → Tsq → Tsq, exec i s = seqWord (fun t x s => seqSet s t (k x)) s ∧ k (s.tile t) (s.tile t).tsq = q := by
  cases i
  case sloop l n => cases hi; exact ⟨fun x q => q.wN l ⟨n, 0, BitVec.ofNat 12 (x.tsq.tpc + 1)⟩, rfl, rfl⟩
  case sloopReg l ga =>
    cases hi
    refine ⟨fun x q => q.wN l ⟨(x.tsq.rG ga).extractLsb' 0 16, 0, BitVec.ofNat 12 (x.tsq.tpc + 1)⟩, rfl, ?_⟩
    simp only [preps16]
  case sagenBase k ga => cases hi; exact ⟨fun _ q => q.wA k { q.rA k with base := q.rG ga }, rfl, rfl⟩
  case sagenStep k l ga => cases hi; exact ⟨fun _ q => q.wA k ((q.rA k).setStep l (q.rG ga)), rfl, rfl⟩
  case smov gd imm => cases hi; exact ⟨fun _ q => q.wG gd (imm.signExtend 32), rfl, rfl⟩
  case smovHi gd imm =>
    cases hi
    refine ⟨fun _ q => q.wG gd (imm ++ (q.rG gd).extractLsb' 0 16), rfl, congrArg _ (BitVec.eq_of_toNat_eq ?_)⟩
    rw [BitVec.toNat_append, low16_toNat, Nat.shiftLeft_eq, Nat.mul_comm, ← Nat.two_pow_add_eq_or_of_lt (Nat.mod_lt _ (by decide)),
      BitVec.toNat_ofNat]
    have := imm.isLt
    omega
  case smovReg gd gb => cases hi; exact ⟨fun _ q => q.wG gd (q.rG gb), rfl, rfl⟩
  case sadd gd ga imm => cases hi; exact ⟨fun _ q => q.wG gd (q.rG ga + imm.signExtend 32), rfl, rfl⟩
  case saddReg gd ga gb => cases hi; exact ⟨fun _ q => q.wG gd (q.rG ga + q.rG gb), rfl, rfl⟩
  case spermOff b =>
    cases b <;> cases hi
    · exact ⟨fun _ q => { q with mapA := { q.mapA with en := false } }, rfl, rfl⟩
    · exact ⟨fun _ q => { q with mapB := { q.mapB with en := false } }, rfl, rfl⟩
  case shalt => cases hi; exact ⟨fun _ q => { q with halted := true }, rfl, rfl⟩
  all_goals exact absurd hi (Option.some_ne_none _).symm

/-- The four token words of the sequencer are a signal or a wait with a count read from its registers. -/
theorem exec_seqToken {q : Tsq} {i : Instr} {k : BitVec 3} {m : Nat} {sig : Bool} (hi : Claims.seqToken q i = some (k, m, sig)) :
    ∃ n : Tsq → BitVec 16, (n q).toNat = m ∧ exec i = if sig then seqSignal k n else seqWait k n := by
  unfold Claims.seqToken at hi
  split at hi <;> cases hi
  case h_1 n => exact ⟨fun _ => n, rfl, rfl⟩
  case h_2 ga => exact ⟨fun q => (q.rG ga).extractLsb' 0 16, low16_toNat _, rfl⟩
  case h_3 n => exact ⟨fun _ => n, rfl, rfl⟩
  case h_4 ga => exact ⟨fun q => (q.rG ga).extractLsb' 0 16, low16_toNat _, rfl⟩

end Sys2Proof.Machine

namespace Sys2Proof.Proofs
open Sys2Proof.Machine

/-- The token words of the CTL (R49, R176). -/
theorem tokenWords : Claims.TokenWords := by
  intro i h k m sig s t hi hr
  obtain ⟨n, rfl, hx⟩ := exec_tokenWord hi
  refine ⟨fun hs => ?_, fun hs => ?_⟩
  · subst hs
    exact ⟨fun hn => by rw [hx]; exact tokenSignal_zero hr hn, fun hn hp hv => by rw [hx]; exact tokenSignal_go hr hn hp hv,
      fun hn hv => by rw [hx]; exact tokenSignal_wait hr hn hv⟩
  · subst hs
    exact ⟨fun hv => by rw [hx]; exact tokenWait_go hr hv, fun hv => by rw [hx]; exact tokenWait_wait hr hv⟩

/-- The semaphore words of the CTL (R50, R72, R177). -/
theorem semaphoreWords : Claims.SemaphoreWords := by
  intro h i s t hr
  refine ⟨fun hp => ?_, fun hp hv => ?_, fun hp hv => ?_, fun hv => ?_, fun hv hx => ?_, fun hv hx => ?_⟩
  · refine ctlWord_wait (w := .tile h .cx) hr ?_
    rw [onTile_eq hr.1]
    simp only [storesDue_of_storePending hp, Bool.false_eq_true, if_false]
  · refine ctlWord_go (w := .tile h .cx) hr ?_
    rw [onTile_eq hr.1]
    simp only [(storesDue_storePending _).2 hp, if_true, State.signalSem, State.modTile, if_neg (show ¬_ = 0xFFFF#16 from hv)]
    rfl
  · refine ctlWord_go (w := .tile h .cx) hr ?_
    rw [onTile_eq hr.1]
    simp only [(storesDue_storePending _).2 hp, if_true, State.signalSem, State.modTile, if_pos (show _ = 0xFFFF#16 from hv)]
  · refine ctlWord_go (w := .tile h .cx) hr ?_
    rw [onTile_eq hr.1]
    simp only [if_pos ((semCount_ne_zero _ _).2 hv)]
    rfl
  · refine ctlWord_wait (w := .tile h .cx) hr ?_
    rw [onTile_eq hr.1]
    simp only [if_neg fun hc => (semCount_ne_zero _ _).1 hc hv, hx, Nat.zero_ne_one, if_false]
  · refine ctlWord_hold (w := .tile h .cx) hr ?_
    rw [onTile_eq hr.1]
    simp only [if_neg fun hc => (semCount_ne_zero _ _).1 hc hv, hx, if_true]

/-- Settles O8, by the cases of what each word waits for. -/
theorem countedWords : Obligations.CountedWords := ⟨tokenWords, semaphoreWords⟩

theorem sequencerRegisters : Claims.SequencerRegisters := by
  intro i q s t hc hi
  obtain ⟨k, hx, rfl⟩ := exec_seqSets hi
  rw [hx]
  refine ⟨fun hp => ?_, fun hp => seqWord_exchange hc hp⟩
  refine (seqWord_go ⟨hc, hp⟩ rfl).trans ?_
  rw [State.seqIssued, State.modTile_modTile]
  simp only [Eff.nil, Eff.of, pends, List.map_nil, List.append_nil]
  rfl

/-- The sequencer's token words (R49, R243). -/
theorem seqTokens {s : State} {t : Nat} (hr : SeqReady s t) (i : Instr) (c : BitVec 3) (m : Nat) (sig : Bool)
    (hi : Claims.seqToken (s.tile t).tsq i = some (c, m, sig)) :
    let x := s.tile t
    let v := x.token c
    let put (u : Nat) : State := Claims.seqDone s t (x.setToken c u) 1 []
    (sig = true → m = 0 → exec i s = .next (Claims.seqDone s t x 1 []))
    ∧ (sig = true → m ≠ 0 → (∀ q ∈ x.pend, q.eng ≠ .tsq) → v + m ≤ 65535 → exec i s = .next (put (v + m)))
    ∧ (sig = true → m ≠ 0 → (Claims.encodePending x ∨ 65535 < v + m) → exec i s = .next s)
    ∧ (sig = false → m ≤ v → exec i s = .next (put (v - m))) ∧ (sig = false → v < m → exec i s = .next s) := by
  obtain ⟨n, rfl, hx⟩ := exec_seqToken hi
  rw [hx]
  refine ⟨fun hs hn => ?_, fun hs hn hp hv => ?_, fun hs hn hv => ?_, fun hs hv => ?_, fun hs hv => ?_⟩ <;> subst hs <;>
    simp only [Bool.false_eq_true, if_false, if_true, seqSignal, seqWait]
  · refine (seqWord_go hr (if_pos hn)).trans ?_
    simp only [State.seqIssued, Claims.seqDone, pends, Eff.nil, Eff.of, List.map_nil, List.append_nil]
    rfl
  · refine seqWord_done hr ?_
    have he : ((s.tile t).storesDue .tsq).isEmpty = true := (storesDue_isEmpty _ _).2 fun ⟨q, hq, heng, _⟩ => hp q hq heng
    simp [hn, he, Nat.not_lt.2 hv, addToken_eq]
  · refine seqWord_wait hr ?_
    rcases hv with ⟨q, hq, heng, hl⟩ | hv
    · have he : ((s.tile t).storesDue .tsq).isEmpty = false := by
        rw [← Bool.not_eq_true, storesDue_isEmpty]; exact not_not_intro ⟨q, hq, heng, .inl hl⟩
      simp [hn, he]
    · simp [hn, hv]
  · refine seqWord_done hr ?_
    simp only [if_neg (Nat.not_lt.2 hv), subToken_eq s t c _ hv]
  · exact seqWord_wait hr (by simp only [if_pos hv])

theorem sequencerControl : Claims.SequencerControl := by
  intro l g k s t hr
  refine ⟨fun hn => ?_, fun hn => ?_, fun e r hq he => ⟨?_, ?_⟩, fun hq => ⟨?_, ?_⟩, fun hq => ?_, fun hq => ?_, seqTokens hr⟩
  · show execSend l s = _
    unfold execSend
    refine (seqWord_go hr (if_pos hn)).trans ?_
    rw [State.seqIssued, State.modTile_modTile]
    simp only [pends, List.map_nil, List.append_nil]
    rfl
  · show execSend l s = _
    exact seqWord_done hr (if_neg (Nat.not_lt.2 hn))
  · exact seqPop_ready hr hq he fun q v => q.wG g v
  · exact seqPop_ready hr hq he fun q v => q.wA k { q.rA k with base := v }
  · exact seqPop_wait hr hq fun q v => q.wG g v
  · exact seqPop_wait hr hq fun q v => q.wA k { q.rA k with base := v }
  · refine ⟨_, le_maxOf _ ((s.tile t).storesDue .tsq), ?_⟩
    show execSqpush g s = _
    exact seqWord_done hr (if_neg (Nat.not_le.2 hq))
  · show execSqpush g s = _
    exact seqWord_wait hr (if_pos hq)

/-- Settles O28: a register word sets what `seqSets` says; a control word by the cases of its FIFO, token or level. -/
theorem sequencerWords : Obligations.SequencerWords := ⟨sequencerRegisters, sequencerControl⟩

end Sys2Proof.Proofs
end

section
/-! PROOF. The CTL's control words, the fences, PROMOTE and the order of the watermark (O11). -/

namespace Sys2Proof.Machine
variable {s : State} {t : Nat}

/-! ### Releases -/

theorem State.setDie_setDie (s : State) (d : Nat) (x y : Die) : (s.setDie d x).setDie d y = s.setDie d y := by
  simp only [State.setDie, Map.put_put]

theorem State.modDie_modDie (s : State) (d : Nat) (k j : Die → Die) : (s.modDie d k).modDie d j = s.modDie d fun x => j (k x) := by
  rw [State.modDie, State.modDie, State.die_setDie, State.setDie_setDie]; rfl

theorem storesPending_tile {e : Eng} (hc : s.cur = .eng t e) : s.storesPending = !((s.tile t).storesDue .ctl).isEmpty := by
  simp only [State.storesPending, hc]

theorem fenced_iff {e : Eng} (hc : s.cur = .eng t e) (c : Copy) :
    s.fenced c = true ↔ c.tile = t ∧ c.issued ≠ (s.tile t).cyc + 1 ∧ c.st ≠ .armed := by
  simp only [State.fenced, hc, Bool.and_eq_true, beq_iff_eq, bne_iff_ne, and_assoc]

theorem copiesPending_iff {e : Eng} (hc : s.cur = .eng t e) (pkg : Bool) :
    s.copiesPending pkg = true ↔ Claims.copyPending s t pkg := by
  simp only [State.copiesPending, List.any_eq_true, Bool.and_eq_true, fenced_iff hc, Bool.or_eq_true, bne_iff_ne, Claims.copyPending, and_assoc]
  refine exists_congr fun c => and_congr_right fun _ => and_congr_right fun _ => and_congr_right fun _ => and_congr_right fun _ => ?_
  tauto

section
variable (s : State) (d : Nat) (cover : Copy → Bool)

/-- A copy as a release leaves it: a covered one retires within 4,095 ticks (R121). -/
abbrev State.covered (c : Copy) : Copy :=
  if c.st == .landed && cover c then { c with retireAt := min c.retireAt (s.ticks + 4095) } else c

theorem release_copies : (s.release d cover).copies = s.copies.map (s.covered cover) := rfl
theorem release_tiles : (s.release d cover).tiles = s.tiles := rfl
theorem release_mem : (s.release d cover).mem = s.mem := rfl
/-- A release gives no copy another number. -/
theorem covered_any (id : Nat) : (s.copies.map (s.covered cover)).any (fun c => c.id == id) = s.copies.any fun c => c.id == id := by
  have keep (c : Copy) : (s.covered cover c).id = c.id := by unfold State.covered; split <;> rfl
  simp only [List.any_map, Function.comp_def, keep]

/-- A release in one update: the copies it covers, and the die's number and watermark (R121). -/
theorem release_eq : s.release d cover =
    State.modDie { s with copies := s.copies.map (s.covered cover) } d fun x =>
      let a := State.advance (fun id => s.copies.any fun c => c.id == id) x.wm
        (x.rels ++ [(x.rel + 1, (s.copies.filter fun c => c.st == .landed && cover c).map (·.id))])
      { x with rel := x.rel + 1, wm := a.1, rels := a.2 } := by
  rw [← funext (covered_any s cover)]
  exact State.modDie_modDie { s with copies := s.copies.map (s.covered cover) } d
    (fun x => { x with rel := x.rel + 1
                       rels := x.rels ++ [(x.rel + 1, (s.copies.filter fun c => c.st == .landed && cover c).map (·.id))] })
    (fun x =>
      let a := State.advance (fun id => (s.copies.map (s.covered cover)).any fun c => c.id == id) x.wm x.rels
      { x with wm := a.1, rels := a.2 })

theorem release_die_ne (e : Nat) (h : e ≠ d) : (s.release d cover).die e = s.die e := by
  rw [release_eq]; exact State.die_modDie_ne _ d e _ h

/-- The die's number and watermark after a release (R121). -/
theorem release_die : ((s.release d cover).die d).rel = (s.die d).rel + 1
    ∧ (((s.release d cover).die d).wm, ((s.release d cover).die d).rels) =
      State.advance (fun id => s.copies.any fun c => c.id == id) (s.die d).wm
        ((s.die d).rels ++ [((s.die d).rel + 1, (s.copies.filter fun c => c.st == .landed && cover c).map (·.id))]) := by
  rw [release_eq, State.die_modDie]; exact ⟨rfl, rfl⟩

variable {s} {cover}
theorem release_keeps (h : ∀ c ∈ s.copies, (c.st == .landed && cover c) = false) :
    s.copies.map (s.covered cover) = s.copies ∧ (s.copies.filter fun c => c.st == .landed && cover c).map (·.id) = [] := by
  refine ⟨(List.map_congr_left fun c hc => ?_).trans (List.map_id _), ?_⟩
  · unfold State.covered; rw [h c hc]; rfl
  · rw [List.map_eq_nil_iff, List.filter_eq_nil_iff]
    exact fun c hc => by rw [h c hc]; decide
end

section
variable {h : Ring} {pkg rel : Bool} (hr : Ready s t .ctl h .cx)
include hr

theorem fence_wait (hp : Claims.storePending (s.tile t)) : fence h pkg rel s = .next (s.unguard t) :=
  ctlWord_wait (w := .cx h) hr (if_pos (by rw [storesPending_tile hr.1, storesDue_of_storePending hp]; rfl))

theorem fence_hold (hp : ¬Claims.storePending (s.tile t)) (hc : Claims.copyPending s t pkg) :
    fence h pkg rel s = .next (s.heldWord t) := by
  refine ctlWord_hold (w := .cx h) hr ?_
  rw [storesPending_tile hr.1, (storesDue_storePending _).2 hp, (copiesPending_iff hr.1 pkg).2 hc]
  rfl

theorem fence_go (hp : ¬Claims.storePending (s.tile t)) (hc : ¬Claims.copyPending s t pkg) :
    fence h pkg rel s = .next ((if rel then s.release (t / 64) s.fenced else s).issued t .ctl h 1 Eff.nil) := by
  refine ctlWord_go (w := .cx h) hr ?_
  rw [storesPending_tile hr.1, (storesDue_storePending _).2 hp, Bool.eq_false_iff.2 (mt (copiesPending_iff hr.1 pkg).1 hc)]
  simp only [State.curDie, hr.1]
  rfl
end

/-- The watermark passes a run of releases that nothing covers, and stops at the first that a copy covers (R121). -/
theorem advance_spec (live : Nat → Bool) (wm : Nat) (rels : List (Nat × List Nat)) :
    (∃ done, rels = done ++ (State.advance live wm rels).2 ∧ (∀ r ∈ done, ∀ id ∈ r.2, live id = false)
      ∧ (State.advance live wm rels).1 = ((done.getLast?).map (·.1)).getD wm)
    ∧ (∀ r rest, (State.advance live wm rels).2 = r :: rest → ∃ id ∈ r.2, live id = true) := by
  induction rels generalizing wm with
  | nil => exact ⟨⟨[], rfl, by simp, rfl⟩, fun r rest h => by cases h⟩
  | cons a rels ih =>
    by_cases ha : a.2.any live = true
    · rw [State.advance, if_pos ha]
      exact ⟨⟨[], rfl, by simp, rfl⟩, fun r rest h => by cases h; exact List.any_eq_true.1 ha⟩
    · rw [State.advance, if_neg ha]
      obtain ⟨⟨done, hcut, hdone, hwm⟩, hstop⟩ := ih a.1
      refine ⟨⟨a :: done, congrArg (a :: ·) hcut, ?_, ?_⟩, hstop⟩
      · rintro r hr id hid
        rcases List.mem_cons.1 hr with rfl | hr
        · exact Bool.eq_false_iff.2 fun hl => ha (List.any_eq_true.2 ⟨id, hid, hl⟩)
        · exact hdone r hr id hid
      · rw [hwm, List.getLast?_cons]
        cases done.getLast? <;> rfl

end Sys2Proof.Machine

namespace Sys2Proof.Proofs
open Sys2Proof.Machine

theorem controlWordsRule : Claims.ControlWordsRule := by
  intro h rd n s t hr
  have hcur : s.curDie = t / 64 := by simp only [State.curDie, hr.1]; rfl
  refine ⟨⟨⟨[], max 1 n.toNat, 1, none, 0⟩, rfl, rfl, rfl, ?_⟩, ?_, ?_, ?_, ?_, fun hp => ?_, ?_⟩
  · exact ctlWord_go (w := ⟨h, 1, .cx, max 1 n.toNat, 1, false⟩) hr rfl
  · exact ctlWord_go (w := .tile h .cx) hr (onTile_eq hr.1 _)
  · exact ctlWord_go (w := .tile h .cx) hr (onTile_eq hr.1 _)
  · exact ctlWord_go (w := .cx h) hr rfl
  · rw [← hcur]; exact ctlWord_go (w := .cx h) hr rfl
  · exact ctlWord_go (w := .tile h .x) ⟨hr.1, hr.2.1, beq_iff_eq.2 hp, hr.2.2.2⟩ (onTile_eq hr.1 _)
  · exact ctlWord_go (w := .tile h .cx) hr (onTile_eq hr.1 _)

section
variable {s : State} {t : Nat} {h : Ring} (hr : Ready s t .ctl h .cx)
include hr

theorem fenceTile_wait (hp : Claims.storePending (s.tile t)) : exec (.fenceTile h) s = .next (s.unguard t) :=
  ctlWord_wait (w := .cx h) hr (if_pos (by rw [storesPending_tile hr.1, storesDue_of_storePending hp]; rfl))

theorem fenceTile_go (hp : ¬Claims.storePending (s.tile t)) : exec (.fenceTile h) s = .next (s.issued t .ctl h 1 Eff.nil) :=
  ctlWord_go (w := .cx h) hr (if_neg (by rw [storesPending_tile hr.1, (storesDue_storePending _).2 hp]; decide))

/-- PROMOTE in a partition with the named die (R122). -/
theorem promote_bound {dd : BitVec 3} {p pd : Nat} (hp : (s.tile t).seat.part = some p) (hb : (s.part p).bind[dd.toNat]? = some pd) :
    let x := s.tile t
    let n := x.stop.promote.getD (s.die pd).rel
    (n ≤ (s.die pd).wm → exec (.promote h dd) s = .next
      ((s.setTile t { x with stop := { x.stop with promote := none } }).issued t .ctl h 1 Eff.nil))
    ∧ ((s.die pd).wm < n → exec (.promote h dd) s = .next
      ((s.setTile t { x with stop := { x.stop with promote := some n } }).heldWord t)) := by
  refine ⟨fun hn => ctlWord_go (w := .tile h .cx) hr ?_, fun hn => ctlWord_hold (w := .tile h .cx) hr ?_⟩ <;>
    rw [onTile_eq hr.1] <;> simp only [hp, hb]
  · exact if_pos hn
  · exact if_neg (Nat.not_le.2 hn)

theorem promote_unbound {dd : BitVec 3} {p : Nat} (hp : (s.tile t).seat.part = some p) (hb : (s.part p).bind[dd.toNat]? = none) :
    exec (.promote h dd) s = .next (s.trapWord t .ctl 0x01 (s.word.setWidth 64)) := by
  refine ctlWord_trap (w := .tile h .cx) hr ?_
  rw [onTile_eq hr.1]
  simp only [hp, hb]
  rfl
end

theorem fenceWords : Claims.FenceWords := by
  intro h dd s t hr
  refine ⟨fun hp i hi => ?_, fun hp => ⟨fenceTile_go hr hp, fun hc => fence_hold hr hp hc, fun hc => ⟨fence_hold hr hp hc, fence_hold hr hp hc⟩,
    fun hc => ?_, fun hc => ⟨?_, fence_go hr hp hc⟩⟩, fun p pd hp hb => promote_bound hr hp hb, fun p hp hb => promote_unbound hr hp hb⟩
  · simp only [List.mem_cons, List.not_mem_nil, or_false] at hi
    rcases hi with rfl | rfl | rfl | rfl
    · exact fenceTile_wait hr hp
    all_goals exact fence_wait hr hp
  · have hm (c : Copy) : (c.st == .landed && s.fenced c) = true ↔ c.tile = t ∧ c.issued ≠ (s.tile t).cyc + 1 ∧ c.st = .landed := by
      rw [Bool.and_eq_true, beq_iff_eq, fenced_iff hr.1]
      constructor
      · exact fun ⟨hl, ht, hi, _⟩ => ⟨ht, hi, hl⟩
      · exact fun ⟨ht, hi, hl⟩ => ⟨hl, ht, hi, by rw [hl]; decide⟩
    refine ⟨(s.copies.filter fun c => c.st == .landed && s.fenced c).map (·.id), s.release (t / 64) s.fenced, fence_go hr hp hc,
      ⟨(release_die _ _ _).1, (release_die _ _ _).2, rfl, rfl, release_die_ne _ _ _⟩, fun id => ?_, fun c hcm hcov => ?_, fun c hcm hcov => ?_, ?_⟩
    · simp only [List.mem_map, List.mem_filter, hm, and_assoc]
    · exact List.mem_map.2 ⟨c, hcm, if_pos ((hm c).2 hcov)⟩
    · exact List.mem_map.2 ⟨c, hcm, if_neg (mt (hm c).1 hcov)⟩
    · rw [release_copies, List.length_map]
  · have hnone : ∀ c ∈ s.copies, (c.st == .landed && s.fenced c) = false := fun c hcm => by
      rw [Bool.eq_false_iff, ne_eq, Bool.and_eq_true, fenced_iff hr.1]
      exact fun ⟨_, ht, hi, ha⟩ => hc ⟨c, hcm, ht, hi, ha, fun _ => rfl⟩
    obtain ⟨hsame, hids⟩ := release_keeps hnone
    have hdie := release_die s (t / 64) s.fenced
    rw [hids] at hdie
    exact ⟨s.release (t / 64) s.fenced, fence_go hr hp hc, ⟨hdie.1, hdie.2, rfl, rfl, release_die_ne _ _ _⟩, hsame⟩

/-- Settles O11: each word by its answer, a release by what it leaves of the die and the copies, the watermark by induction on the releases. -/
theorem controlWords : Obligations.ControlWords := ⟨controlWordsRule, fenceWords, advance_spec⟩

end Sys2Proof.Proofs
end

section
/-! PROOF. A word behind a false GUARD keeps its latency (O58). -/

namespace Sys2Proof.Machine
variable {s : State} {t : Nat} {w : Form}

/-- A CTL word behind a false GUARD issues with its ring bits, its occupancy and its latency, and nothing lands (R135). -/
theorem ctlWord_guardFalse (act : State → Act) (hc : s.cur = .eng t .ctl) (ht : (s.tile t).tokens .ctl w.h = true)
    (hl : w.leg.ok (s.tile t).seat.phase = true) (hg : (s.tile t).guardFalse .ctl = true) :
    ctlWord w act s = .next (s.issued t .ctl w.h w.len ⟨[], w.occ, w.lat, none, 0⟩) := by
  simp only [ctlWord, hc, State.textWord, ht, hl, hg, Bool.not_true, Bool.false_eq_true, if_false, if_true]

end Sys2Proof.Machine

namespace Sys2Proof.Proofs
open Sys2Proof.Machine

/-- A machine in which the CTL of tile 0 stands at the word behind a GUARD that turned out false. -/
def guardedCtl : State :=
  { State.reset.setTile 0 { State.tile0 with ctl := { State.ctl0 with guard := some ⟨0, false⟩ } } with cur := .eng 0 .ctl }

/-- Refutes O58: behind a false GUARD a MUL issues with its own latency of 3 cycles (R135), so that it is complete 3 cycles later and its
signals go then; the statement has every such word complete in the next cycle. -/
theorem not_issueChecks : ¬ Obligations.IssueChecks := by
  intro h
  have hmul : exec (.mul Ring.none 0 0 0) guardedCtl = .next (guardedCtl.issued 0 .ctl Ring.none 1 ⟨[], 1, 3, none, 0⟩) :=
    ctlWord_guardFalse (s := guardedCtl) (w := .late Ring.none 3) (fun s => .go s (Eff.of (putS 3 0 (s.ctl.rS 0 * s.ctl.rS 0))))
      rfl (by decide) (by decide) (by decide)
  have hclaim := ((h (.mul Ring.none 0 0 0) guardedCtl 0).1 Ring.none 1 _ rfl rfl).2 (by decide) (by decide)
  have hdone := congrArg (fun s : State => (s.tile 0).pctl.done) (Host.Outcome.next.inj (hmul.symm.trans hclaim))
  exact absurd hdone (by decide)

end Sys2Proof.Proofs
end

section
/-! PROOF. The array's direct words (O23). -/

namespace Sys2Proof.Machine
open Claims (ArrayQuiet waitMet taken)
variable {s s' : State} {t : Nat} {h : Ring} {leg : Legal} {sem : SemF} {f : Eff} {cause : BitVec 8} {aux : DWord}
  {act : Nat → Tile → State → Act}

theorem quiet_iff (x : Tile) : Tda.quiet x.tda = true ↔ ArrayQuiet x := by
  simp only [Tda.quiet, Bool.and_eq_true, List.isEmpty_iff, Option.isNone_iff_eq_none, and_assoc]

/-- The wait of a direct word is not met where its semaphore holds nothing. -/
theorem waitMet_iff (x : Tile) (sem : SemF) : (sem.we && x.semCount sem.wsem.toNat = 0) = true ↔ ¬waitMet x sem := by
  simp only [waitMet, Bool.and_eq_true, decide_eq_true_eq, not_forall, ← semCount_ne_zero, ne_eq, not_not, exists_prop]

/-- A direct word whose waits are met does what it does to the state in which its semaphore has been taken (R222). -/
theorem tdaDirect_met (hr : Ready s t .tda h leg) (hq : ArrayQuiet (s.tile t)) (hw : waitMet (s.tile t) sem) :
    tdaDirect h leg sem act s = engWord .tda ⟨h, 2, .cx, 1, 1, true⟩ (fun t s => act t (s.tile t) (taken s t sem)) s := by
  have hcx : Ready s t .tda h .cx := ⟨hr.1, hr.2.1, rfl, hr.2.2.2⟩
  rw [tdaDirect, engWord_ready s t .tda _ _ hcx, engWord_ready s t .tda _ _ hcx]
  simp only [(quiet_iff _).2 hq, Bool.eq_false_iff.2 (mt (waitMet_iff _ _).1 (not_not_intro hw)), hr.2.2.1, Bool.not_true,
    Bool.false_eq_true, if_false, taken, State.takeSem]
  rfl

section
variable (hr : Ready s t .tda h leg)
include hr

theorem tdaDirect_go (hq : ArrayQuiet (s.tile t)) (hw : waitMet (s.tile t) sem) (ha : act t (s.tile t) (taken s t sem) = .go s' f) :
    tdaDirect h leg sem act s = .next (s'.issued t .tda h 2 f) := by
  rw [tdaDirect_met hr hq hw]
  exact engWord_go (w := ⟨h, 2, .cx, 1, 1, true⟩) ⟨hr.1, hr.2.1, rfl, hr.2.2.2⟩ ha

theorem tdaDirect_trap (hq : ArrayQuiet (s.tile t)) (hw : waitMet (s.tile t) sem) (ha : act t (s.tile t) (taken s t sem) = .trap cause aux) :
    tdaDirect h leg sem act s = .next (s.trapWord t .tda cause aux) := by
  rw [tdaDirect_met hr hq hw]
  exact engWord_trap (w := ⟨h, 2, .cx, 1, 1, true⟩) ⟨hr.1, hr.2.1, rfl, hr.2.2.2⟩ ha

theorem tdaDirect_busy (hq : ¬ArrayQuiet (s.tile t)) : tdaDirect h leg sem act s = .next (s.unguard t) := by
  refine engWord_wait (w := ⟨h, 2, .cx, 1, 1, true⟩) ⟨hr.1, hr.2.1, rfl, hr.2.2.2⟩ ?_
  simp only [Bool.eq_false_iff.2 (mt (quiet_iff _).1 hq), Bool.not_false, if_true]

/-- The wait of a word that an exchange phase admits holds the tile (R72). -/
theorem tdaDirect_waits (hq : ArrayQuiet (s.tile t)) (hw : ¬waitMet (s.tile t) sem) :
    tdaDirect h leg sem act s = .next (if leg == .x then s.heldWord t else s.unguard t) := by
  have hcx : Ready s t .tda h .cx := ⟨hr.1, hr.2.1, rfl, hr.2.2.2⟩
  rw [tdaDirect, engWord_ready s t .tda _ _ hcx]
  simp only [(quiet_iff _).2 hq, (waitMet_iff _ _).2 hw, Bool.not_true, Bool.false_eq_true, if_false, if_true]
  have hp := hr.2.2.1
  cases leg with
  | x => simp only [beq_self_eq_true, beq_iff_eq.1 hp, Bool.and_self, if_true]
  | c => rfl
  | cx => rfl
end

theorem taken_cyc (s : State) (t : Nat) (sem : SemF) : ((taken s t sem).tile t).cyc = (s.tile t).cyc := by
  unfold taken
  split
  · rw [State.tile_modTile]
  · rfl

/-- A word in progress until some cycles from now. -/
theorem direct_eq (s : State) (t k : Nat) (w : TWork) (sem : SemF) (lands : List (Nat × Land)) {c : Nat} (hc : (s.tile t).cyc = c) :
    direct s t k w sem lands =
      .go (s.modTile t fun y => { y with tda := { y.tda with direct := some ⟨c + k, w, sem⟩ } }) ⟨lands, 1, k, none, 0⟩ := by
  subst hc; rfl

end Sys2Proof.Machine

namespace Sys2Proof.Proofs
open Sys2Proof.Machine
open Claims (taken)

/-- Settles O23: a direct word by what it waits for, then by its own meaning in the state in which its semaphore has been taken. -/
theorem arrayDirectWords : Obligations.ArrayDirectWords := by
  intro h d mg clr row sem s t
  have hcyc := taken_cyc s t sem
  have hflag : exec (.tflag h d mg clr sem) s = execTflag h d mg clr sem s := rfl
  have hdrain : exec (.tdrain h sem) s = execTdrain h sem s := rfl
  have hcal : exec (.tcal h row sem) s = execTcal h row sem s := rfl
  have hmarg : exec (.tmarg h d row sem) s = execTmarg h d row sem s := rfl
  have harr : exec (.tarrive h) s = execTarrive h s := rfl
  unfold execTflag at hflag
  unfold execTdrain at hdrain
  unfold execTcal at hcal
  unfold execTmarg at hmarg
  unfold execTarrive at harr
  refine ⟨fun hr hq hw => ⟨fun hs hm => ?_, fun hs hm hmap => ?_, fun hmap => ?_, fun hmap => ?_⟩,
    fun hr hq hw => ⟨?_, fun hs => ?_⟩, fun hq hw => ⟨fun hr => ⟨?_, ?_⟩, fun hr i hi => ?_⟩,
    fun hr hq => ⟨?_, ?_⟩, fun hr hq => ⟨?_, ?_⟩, fun hr => ⟨fun hq => ?_, fun hq => ?_⟩⟩
  · refine hflag.trans (tdaDirect_go hr hq hw ?_)
    have hmrg : ¬(mg && (s.tile t).tda.mmap ≠ 0) = true := by rcases hm with hm | hm <;> simp [hm]
    simp only [hs, Bool.false_eq_true, if_false, if_neg hmrg]
    refine direct_eq _ t 4 .flag sem _ ?_
    split
    · rw [State.tile_modTile]; exact hcyc
    · exact hcyc
  · refine hflag.trans (tdaDirect_trap hr hq hw ?_)
    simp only [hs, hm, Bool.false_eq_true, if_false, Bool.true_and, decide_eq_true_eq, if_pos hmap]
    rfl
  · exact hdrain.trans (tdaDirect_trap hr hq hw (if_pos hmap))
  · exact hdrain.trans (tdaDirect_go hr hq hw (if_neg (not_not_intro hmap)))
  · exact hcal.trans (tdaDirect_go hr hq hw (direct_eq _ t 300 _ sem _ hcyc))
  · refine ⟨(List.range 256).map fun j => Config.guardCode s.free j, by simp, hmarg.trans (tdaDirect_go hr hq hw ?_)⟩
    have hfree : (taken s t sem).free = s.free := by unfold taken; split <;> rfl
    have hdraw : (taken s t sem).draw = { taken s t sem with free := s.free + 1 } := by rw [State.draw, hfree]
    simp only [hs, Bool.false_eq_true, if_false, hfree, hdraw]
    exact direct_eq { taken s t sem with free := s.free + 1 } t 300 _ sem _ hcyc
  · exact hflag.trans (tdaDirect_waits hr hq hw)
  · exact hdrain.trans (tdaDirect_waits hr hq hw)
  · simp only [List.mem_cons, List.not_mem_nil, or_false] at hi
    rcases hi with rfl | rfl
    · exact hcal.trans (tdaDirect_waits hr hq hw)
    · exact hmarg.trans (tdaDirect_waits hr hq hw)
  · exact hcal.trans (tdaDirect_busy hr hq)
  · exact hmarg.trans (tdaDirect_busy hr hq)
  · exact hflag.trans (tdaDirect_busy hr hq)
  · exact hdrain.trans (tdaDirect_busy hr hq)
  · exact harr.trans (engWord_go (w := .tile h .cx) hr (if_pos ((quiet_iff _).2 hq)))
  · exact harr.trans (engWord_wait (w := .tile h .cx) hr (if_neg (mt (quiet_iff _).1 hq)))

end Sys2Proof.Proofs
end

section
/-! PROOF. The words of the exchange port but for the copies (O26). -/

namespace Sys2Proof.Machine
open Claims (RecordsFree RegionsFree liveHandle)
variable {s : State} {t p : Nat} {slots : List Nat} {k : State → Act}

/-! ### Reads of records -/

theorem recordsFree_iff :
    (slots.any fun i => s.addrHeld (Config.dieSite (dieOf t)) (s.recordAt p i)) = false ↔ RecordsFree s t p slots := by
  simp only [List.any_eq_false, Bool.not_eq_true]
  rfl

theorem readSlots_held (h : ¬RecordsFree s t p slots) : s.readSlots t p slots k = .hold s := by
  unfold State.readSlots
  exact if_pos (Bool.not_eq_false _ ▸ mt recordsFree_iff.1 h)

theorem readSlots_clean (h : RecordsFree s t p slots) (hb : s.hbm = []) : s.readSlots t p slots k = k s := by
  unfold State.readSlots
  rw [recordsFree_iff.2 h, List.foldl_fixed' fun _ => State.touchHbm_clean hb _ _]
  rfl

/-- A read of HBM that meets an uncorrectable codeword answers the address of one in its range. -/
theorem touchHbm_lost {pa n m : Nat} (hm : (m, true) ∈ s.hbm) (ho : overlaps (32 * m) 32 pa n = true) :
    ∃ m', (m', true) ∈ s.hbm ∧ overlaps (32 * m') 32 pa n = true ∧ s.touchHbm pa n = (s, some (32 * m')) := by
  cases hf : s.hbm.find? fun m => overlaps (32 * m.1) 32 pa n && m.2 with
  | none => exact absurd (List.find?_eq_none.1 hf _ hm) (by simp [ho])
  | some q =>
    obtain ⟨m', b⟩ := q
    have hfound : (overlaps (32 * m') 32 pa n && b) = true := List.find?_some (p := fun m : Nat × Bool => overlaps (32 * m.1) 32 pa n && m.2) hf
    obtain ⟨ho', hb⟩ := Bool.and_eq_true_iff.1 hfound
    cases hb
    refine ⟨m', List.mem_of_find?_eq_some hf, ho', ?_⟩
    simp only [State.touchHbm, hf]

theorem readSlots_lost {i m : Nat} {rest : List Nat} (h : RecordsFree s t p (i :: rest)) (hm : (m, true) ∈ s.hbm)
    (hlo : s.recordAt p i ≤ 32 * m) (hhi : 32 * m < s.recordAt p i + 256) :
    ∃ m', (m', true) ∈ s.hbm ∧ s.recordAt p i ≤ 32 * m' ∧ 32 * m' < s.recordAt p i + 256
      ∧ s.readSlots t p (i :: rest) k = .fail s Cause.ecc (BitVec.ofNat 64 (32 * m')) := by
  have ho : overlaps (32 * m) 32 (s.recordAt p i) 256 = true := by simp [overlaps]; omega
  obtain ⟨m', hm', ho', ht⟩ := touchHbm_lost hm ho
  have hat : s.recordAt p i = 32 * (0x10000 * (s.part p).rcd.toNat + 8 * i) := by unfold State.recordAt; omega
  have hin : s.recordAt p i ≤ 32 * m' ∧ 32 * m' < s.recordAt p i + 256 := by
    simp only [overlaps, Bool.and_eq_true, decide_eq_true_eq] at ho'
    omega
  refine ⟨m', hm', hin.1, hin.2, ?_⟩
  unfold State.readSlots
  rw [recordsFree_iff.2 h, List.foldl_cons]
  simp only [Bool.false_eq_true, if_false, ht]
  rw [List.foldl_fixed' fun _ => rfl]

/-! ### Handles -/

theorem staleHandle_iff (r : List Byte) (hg : BitVec 16) : staleHandle r hg = true ↔ ¬liveHandle r hg := by
  simp only [staleHandle, liveHandle, Bool.or_eq_true, beq_iff_eq, bne_iff_ne, ne_eq, not_and_or, not_not]
  rfl

theorem staleHandle_live {r : List Byte} {hg : BitVec 16} (h : liveHandle r hg) : staleHandle r hg = false :=
  Bool.eq_false_iff.2 (mt (staleHandle_iff r hg).1 (not_not_intro h))

theorem handleAux_eq (hs hg : BitVec 16) : handleAux hs hg = BitVec.ofNat 64 (hg.toNat * 65536 + hs.toNat) := by
  apply BitVec.eq_of_toNat_eq
  have h1 := hs.isLt
  have h2 := hg.isLt
  rw [handleAux, BitVec.toNat_setWidth, BitVec.toNat_append, Nat.shiftLeft_eq, Nat.mul_comm, ← Nat.two_pow_add_eq_or_of_lt h1,
    BitVec.toNat_ofNat, Nat.mul_comm]

theorem partNo_eq {x : Tile} (h : x.seat.part = some p) : x.partNo = p := by rw [Tile.partNo, h]; rfl

/-- The two checks of a new record's content are one (R258). -/
theorem newRecord_fits (sa da : Int) (v : Bool) (a b : Act) :
    (if sa < 0 || 2 ^ 52 ≤ sa || da < 0 || 2 ^ 52 ≤ da then b else if !v then b else a) =
      if 0 ≤ sa ∧ sa < 2 ^ 52 ∧ 0 ≤ da ∧ da < 2 ^ 52 ∧ v = true then a else b := by
  generalize (2 : Int) ^ 52 = top
  simp only [Bool.or_eq_true, decide_eq_true_eq, Bool.not_eq_true']
  split
  · exact (if_neg (by omega)).symm
  · cases v
    · exact (if_neg (by simp)).symm
    · exact (if_pos ⟨by omega, by omega, by omega, by omega, rfl⟩).symm

/-- A record with the offset fields of its descriptors, bits 51:0, moved to two addresses (R258). -/
def placedRecord (kept : List Byte) (sa da : Int) : List Byte :=
  recPut (recPut kept 0 8 (recNum kept 0 8 / 2 ^ 52 * 2 ^ 52 + sa.toNat)) 8 8 (recNum kept 8 8 / 2 ^ 52 * 2 ^ 52 + da.toNat)

/-- A redefinition with live handles, whose descriptors move to `sa` and `da` (R258). -/
theorem redefine_live {x : Tile} {o sa da : Int} {ofs : Bool} {ths thg nhs nhg : BitVec 16} {tr nr : List Byte}
    (htr : s.record x.partNo ths.toNat x.seat.lt = tr) (hnr : s.record x.partNo nhs.toNat x.seat.lt = nr)
    (hl : liveHandle tr thg) (hl2 : liveHandle nr nhg)
    (hsa : (Record.sdesc tr).addr + (if ofs then o * recInt tr 0x18 else 0) = sa)
    (hda : (Record.ddesc tr).addr + (if ofs then o * recInt tr 0x1C else 0) = da) :
    redefine s x o ofs ths thg nhs nhg =
      if 0 ≤ sa ∧ sa < 2 ^ 52 ∧ 0 ≤ da ∧ da < 2 ^ 52
          ∧ Record.valid (placedRecord (recPut tr 0x2C 4 (recNum nr 0x2C 4)) sa da) (s.part x.partNo).tiles = true
        then if Record.writer nr ≠ x.seat.lt then .trap Cause.ownership (handleAux nhs nhg)
          else .go (s.setRecord x.partNo nhs.toNat (placedRecord (recPut tr 0x2C 4 (recNum nr 0x2C 4)) sa da)) Eff.nil
        else .trap Cause.shape 0 := by
  rw [← newRecord_fits]
  unfold redefine
  simp only [htr, hnr, staleHandle_live hl, staleHandle_live hl2, hsa, hda, Bool.false_eq_true, if_false]
  rfl

section
variable {x : Tile} {h : Ring} {n : Nat} (hp : (s.tile t).seat.part = some p) (hr : Ready s t .xp h .cx)
include hp hr

/-- A word of the exchange port that reads record slots, by whether a link holds them and whether HBM reads them. -/
theorem slotWord_held {act : Nat → State → Act} (hf : ¬RecordsFree s t p slots)
    (ha : act t s = s.readSlots t (s.tile t).partNo slots k) : engWord .xp (Form.xp h n) act s = .next (Claims.heldTile s t) :=
  engWord_hold (w := Form.xp h n) hr (by rw [ha, partNo_eq hp, readSlots_held hf])

theorem slotWord_lost {act : Nat → State → Act} {i m : Nat} {rest : List Nat} (hf : RecordsFree s t p (i :: rest))
    (ha : act t s = s.readSlots t (s.tile t).partNo (i :: rest) k) (hm : (m, true) ∈ s.hbm)
    (hlo : s.recordAt p i ≤ 32 * m) (hhi : 32 * m < s.recordAt p i + 256) :
    ∃ m', (m', true) ∈ s.hbm ∧ s.recordAt p i ≤ 32 * m' ∧ 32 * m' < s.recordAt p i + 256
      ∧ engWord .xp (Form.xp h n) act s = .next (s.trapWord t .xp 0x12 (BitVec.ofNat 64 (32 * m'))) := by
  obtain ⟨m', hm', hlo', hhi', he⟩ := readSlots_lost (k := k) hf hm hlo hhi
  refine ⟨m', hm', hlo', hhi', engWord_fail (w := Form.xp h n) hr ?_⟩
  rw [ha, partNo_eq hp, he]
  rfl
end

end Sys2Proof.Machine

namespace Sys2Proof.Proofs
open Sys2Proof.Machine
open Claims (RecordsFree liveHandle)

theorem portWords : Claims.PortWords := by
  intro h cnt self src bytes n s t p hp
  have hcnt : exec (.xcnt h cnt self src bytes) s = execXcnt h cnt self src bytes s := rfl
  have harr : exec (.xarrive h) s = execXarrive h s := rfl
  have harm : exec (.xarm h n) s = execXarm h n s := rfl
  unfold execXcnt at hcnt
  unfold execXarrive at harr
  unfold execXarm at harm
  refine ⟨fun hr => ⟨fun hs => ?_, fun hs hq => ?_, ?_⟩, fun hr => ⟨fun hn => ?_, fun hn => ?_⟩⟩
  · refine hcnt.trans (engWord_go (w := Form.xp h 2) hr (if_neg ?_))
    rw [partNo_eq hp]
    rcases hs with hs | hs
    · simp [hs]
    · simp [Nat.not_le.2 hs]
  · refine hcnt.trans (engWord_trap (w := Form.xp h 2) hr (if_pos ?_))
    rw [partNo_eq hp]
    simp [hs, hq]
  · exact harr.trans (engWord_go (w := Form.xp h 1) hr rfl)
  · exact harm.trans (engWord_go (w := .tile h .c) hr (if_neg (not_not_intro hn)))
  · exact harm.trans (engWord_trap (w := .tile h .c) hr (if_pos hn))

section
variable {s : State} {t p : Nat} {h : Ring} (hp : (s.tile t).seat.part = some p) (hr : Ready s t .xp h .cx) (hb : s.hbm = [])
include hp hr hb

/-- XRGEN, its record read (R258). -/
theorem xrgen_read {hs hg : BitVec 16} (hf : RecordsFree s t p [hs.toNat]) :
    let x := s.tile t
    let r := s.record p hs.toNat x.seat.lt
    (liveHandle r hg → Record.writer r = x.seat.lt →
      exec (.xrgen h hs hg) s = .next ((s.setRecord p hs.toNat (recPut r 0x2E 2 (Record.gen r % 65535 + 1))).issued t .xp h 2 Eff.nil))
    ∧ (¬liveHandle r hg → exec (.xrgen h hs hg) s = .next (s.trapWord t .xp 0x0C (handleAux hs hg)))
    ∧ (liveHandle r hg → Record.writer r ≠ x.seat.lt → exec (.xrgen h hs hg) s = .next (s.trapWord t .xp 0x0D (handleAux hs hg))) := by
  have hx : exec (.xrgen h hs hg) s = execXrgen h hs hg s := rfl
  unfold execXrgen at hx
  have hread (k : State → Act) : s.readSlots t p [hs.toNat] k = k s := readSlots_clean hf hb
  refine ⟨fun hl hw => ?_, fun hl => ?_, fun hl hw => ?_⟩
  · refine hx.trans (engWord_go (w := Form.xp h 2) hr ?_)
    simp only [partNo_eq hp, hread, staleHandle_live hl, Bool.false_eq_true, if_false, hw, ne_eq, not_true]
  · refine hx.trans (engWord_trap (w := Form.xp h 2) hr ?_)
    simp only [partNo_eq hp, hread, (staleHandle_iff _ _).2 hl, if_true]
    rfl
  · refine hx.trans (engWord_trap (w := Form.xp h 2) hr ?_)
    simp only [partNo_eq hp, hread, staleHandle_live hl, Bool.false_eq_true, if_false, if_pos hw]
    rfl

/-- XRDEF is its redefinition, its records read (R258). -/
theorem xrdef_read {ths thg nhs nhg : BitVec 16} {ofs : Bool} (hf : RecordsFree s t p [ths.toNat, nhs.toNat]) :
    exec (.xrdef h ths thg nhs nhg ofs) s = engWord .xp (Form.xp h 3) (fun t s =>
      redefine s (s.tile t) (if ofs then (s.tile t).payload.toInt else 0) ofs ths thg nhs nhg) s := by
  have hx : exec (.xrdef h ths thg nhs nhg ofs) s = execXrdef h ths thg nhs nhg ofs s := rfl
  unfold execXrdef at hx
  rw [hx, engWord_ready s t .xp (Form.xp h 3) _ hr, engWord_ready s t .xp (Form.xp h 3) _ hr]
  simp only [partNo_eq hp, readSlots_clean hf hb]
end

theorem recordWords : Claims.RecordWords := by
  intro h ths thg nhs nhg ofs s t p hp hr x q rec_ trap name hb
  have hname (a b : BitVec 16) : name a b = handleAux a b := (handleAux_eq a b).symm
  refine ⟨fun hf => ?_, fun hf => ?_⟩
  · simp only [hname]
    exact xrgen_read hp hr hb hf
  · rw [xrdef_read hp hr hb hf]
    have hpx : x.partNo = p := partNo_eq hp
    refine ⟨fun hl => ?_, fun hl hl2 => ?_, ?_⟩
    · refine engWord_trap (w := Form.xp h 3) hr ?_
      simp only [redefine, hname]
      rw [if_pos ((staleHandle_iff _ _).2 (by rw [hpx]; exact hl))]
      rfl
    · refine engWord_trap (w := Form.xp h 3) hr ?_
      simp only [redefine, hname]
      rw [if_neg (by rw [hpx, staleHandle_live hl]; decide), if_pos ((staleHandle_iff _ _).2 (by rw [hpx]; exact hl2))]
      rfl
    · intro kept o sa da put new fits hl hl2
      have hmul (z : Int) : (if ofs then (if ofs then x.payload.toInt else 0) * z else 0) = if ofs then o * z else 0 := by
        cases ofs <;> rfl
      have hsa : (Record.sdesc (rec_ ths)).addr + (if ofs then (if ofs then x.payload.toInt else 0) * recInt (rec_ ths) 0x18 else 0) = sa :=
        congrArg _ (hmul _)
      have hda : (Record.ddesc (rec_ ths)).addr + (if ofs then (if ofs then x.payload.toInt else 0) * recInt (rec_ ths) 0x1C else 0) = da :=
        congrArg _ (hmul _)
      have hact := redefine_live (congrArg (s.record · ths.toNat x.seat.lt) hpx) (congrArg (s.record · nhs.toNat x.seat.lt) hpx) hl hl2 hsa hda
      rw [hpx] at hact
      refine ⟨fun hfit hw => ?_, fun hfit hw => ?_, fun hfit => ?_⟩
      · exact engWord_go (w := Form.xp h 3) hr (hact.trans ((if_pos hfit).trans (if_neg (not_not_intro hw))))
      · rw [hname]
        exact engWord_trap (w := Form.xp h 3) hr (hact.trans ((if_pos hfit).trans (if_pos hw)))
      · exact engWord_trap (w := Form.xp h 3) hr (hact.trans (if_neg hfit))

theorem recordsUnread : Claims.RecordsUnread := by
  intro h i ths thg nhs nhg ofs c g slots s t p hp hr hi
  simp only [List.mem_cons, Prod.mk.injEq, List.not_mem_nil, or_false] at hi
  rcases hi with ⟨rfl, rfl⟩ | ⟨rfl, rfl⟩ | ⟨rfl, rfl⟩ | ⟨rfl, rfl⟩ | ⟨rfl, rfl⟩ | ⟨rfl, rfl⟩
  all_goals
    refine ⟨fun hf => slotWord_held hp hr hf rfl, fun hf k m hk hm hlo hhi => ?_⟩
    cases hk
    exact slotWord_lost hp hr hf rfl hm hlo hhi

/-- Settles O26: each word of the exchange port is its action on what it reads of the counters and records; a record held by a link or
lost to ECC stops it before its handle is tested. -/
theorem exchangeWords : Obligations.ExchangeWords := ⟨portWords, recordWords, recordsUnread⟩

end Sys2Proof.Proofs
end

section
/-! PROOF. The steps inside a tile (O32). -/

namespace Sys2Proof.Machine
open Claims (ArrayQuiet SignalDue StandsAtWord RingBlocked SequencerIdle TokenDeadlock ringFifo)

theorem onlyTile_modTile (s : State) (t : Nat) (f : Tile → Tile) : OnlyTile t s (s.modTile t f) :=
  ⟨fun _ hu => State.tile_modTile_ne s _ _ f hu, rfl, rfl, rfl, rfl, rfl, rfl, rfl, rfl, rfl⟩

theorem Map.get_mapValues {α : Type} (f : α → α) (d : α) (hd : f d = d) (m : Map α) (k : Nat) :
    Map.get (m.map fun e => (e.1, f e.2)) d k = f (m.get d k) := by
  induction m with
  | nil => exact hd.symm
  | cons e r ih => 
    obtain ⟨j, v⟩ := e
    simp only [List.map_cons, Map.get_cons, ih]
    split <;> rfl

/-! ### The halt (R48, R231) -/

/-- What holds a tile back from its halt: it has halted or frozen, an engine still runs, the array or a landing is outstanding. -/
def Tile.runsOn (x : Tile) : Bool :=
  x.stop.halted || x.stop.frozen || !([Eng.ctl, .vu, .tda, .xp].all fun e => (x.pos e).stopped)
        || !Tda.quiet x.tda || !x.pend.isEmpty

theorem allEngines_iff {f : Eng → Bool} : [Eng.ctl, .vu, .tda, .xp].all f = true ↔ ∀ e, e ≠ .tsq → f e = true := by
  constructor
  · intro h e he
    exact List.all_eq_true.1 h e (by cases e <;> simp_all)
  · intro h
    exact List.all_eq_true.2 fun e he => h e (by rintro rfl; simp at he)

theorem runsOn_iff (x : Tile) : x.runsOn = false ↔
    x.stop.halted = false ∧ x.stop.frozen = false ∧ (∀ e, e ≠ .tsq → (x.pos e).stopped = true) ∧ ArrayQuiet x ∧ x.pend = [] := by
  simp only [Tile.runsOn, Bool.or_eq_false_iff, Bool.not_eq_false', allEngines_iff, quiet_iff, List.isEmpty_iff, and_assoc]

/-! ### The token deadlock (R46, R47) -/

theorem sigDue_iff (x : Tile) (g : Sig) : x.sigDue g = true ↔ SignalDue x g := by
  simp only [Tile.sigDue, SignalDue, Bool.and_eq_true, Bool.or_eq_true, decide_eq_true_eq, Bool.not_eq_true', Bool.or_eq_false_iff,
    List.any_eq_false, Nat.not_le]

theorem sigStuck_iff (x : Tile) (e : Eng) : x.sigStuck e = true ↔ ∃ g rest, (x.pos e).sigs = g :: rest ∧ SignalDue x g := by
  unfold Tile.sigStuck
  cases (x.pos e).sigs with
  | nil => simp
  | cons g rest => simp [sigDue_iff]

theorem stands_iff (x : Tile) (e : Eng) : x.stands e = true ↔ StandsAtWord x e := by
  have htrail : x.trail = [x.pctl.walk, x.pvu.walk, x.ptda.walk, x.pxp.walk].foldl min x.pctl.walk := by
    simp only [Tile.trail, List.foldl_cons, List.foldl_nil]
    omega
  simp only [Tile.stands, StandsAtWord, Tile.inWindow, Tile.window, htrail, Bool.and_eq_true, Bool.not_eq_true', decide_eq_true_eq,
    bne_iff_ne, beq_iff_eq, and_assoc]
  rfl

theorem opOf_eq (w : Word) : opOf w = w.toNat / 2 ^ 20 % 64 := by
  simp [opOf, fld, BitVec.extractLsb'_toNat, Nat.shiftRight_eq_div_pow]

theorem fld_eq_iff (w : Word) (lo n k : Nat) (hk : k < 2 ^ n) : fld w lo n = BitVec.ofNat n k ↔ w.toNat / 2 ^ lo % 2 ^ n = k := by
  rw [BitVec.toNat_inj.symm, fld, BitVec.extractLsb'_toNat, BitVec.toNat_ofNat, Nat.mod_eq_of_lt hk, Nat.shiftRight_eq_div_pow]

/-- A TRAP or BRK of the CTL that has its tokens stalls on a full FIFO (R135, R183; log 47). -/
theorem trapStalls_iff (x : Tile) (e : Eng) : x.trapStalls e = true ↔
    let w := x.unitHead .ctl
    let r := x.unitRing .ctl
    let g := x.store.textAt x.pctl.pc
    e = .ctl ∧ StandsAtWord x e ∧ (x.pctl.took = true ∨ r.wp = false ∧ r.ws = false)
      ∧ w.toNat / 2 ^ 20 % 64 = 0x3B ∧ (w.toNat / 2 ^ 18 % 4 = 1 ∨ w.toNat / 2 ^ 18 % 4 = 2)
      ∧ (x.atGuard .ctl = true → x.pctl.took = true ∨ x.ctl.rP (g.extractLsb' 13 6) ≠ g.getLsbD 19)
      ∧ (r.ss = true ∧ 8 ≤ x.pvu.fp.length ∨ r.sp = true ∧ 8 ≤ x.pxp.fs.length) := by
  have h1 := fld_eq_iff (x.unitHead .ctl) 18 2 1 (by decide)
  have h2 := fld_eq_iff (x.unitHead .ctl) 18 2 2 (by decide)
  simp only [Tile.trapStalls, Tile.trapFull, ← stands_iff, opOf_eq, Bool.and_eq_true, Bool.or_eq_true, beq_iff_eq, decide_eq_true_eq,
    Bool.not_eq_true', Bool.or_eq_false_iff, bne_iff_ne, and_assoc, or_assoc]
  refine and_congr_right ?_
  rintro rfl
  refine and_congr Iff.rfl (and_congr Iff.rfl (and_congr Iff.rfl (and_congr (or_congr h1 h2) (and_congr ?_ Iff.rfl))))
  rw [imp_iff_not_or, Bool.not_eq_true]
  rfl

theorem blocked_iff (x : Tile) (e : Eng) : x.blocked e = true ↔ RingBlocked x e := by
  rw [Tile.blocked, Bool.or_eq_true, Bool.or_eq_true, sigStuck_iff, trapStalls_iff, Bool.and_eq_true, stands_iff, Bool.not_eq_true', or_assoc]
  rfl

theorem seqIdle_iff (x : Tile) : x.seqIdle = true ↔ SequencerIdle x := by
  unfold Tile.seqIdle SequencerIdle
  rw [Bool.or_eq_true]
  refine or_congr Iff.rfl ?_
  split
  next k n h =>
    simp only [h, Except.ok.injEq, Instr.skwait.injEq, reduceCtorEq, false_and, exists_false, or_false, decide_eq_true_eq]
    exact ⟨fun hlt => ⟨k, n, ⟨rfl, rfl⟩, hlt⟩, by rintro ⟨_, _, ⟨rfl, rfl⟩, hlt⟩; exact hlt⟩
  next k a h =>
    simp only [h, Except.ok.injEq, Instr.skwaitReg.injEq, reduceCtorEq, false_and, exists_false, false_or, decide_eq_true_eq]
    have hlow : ((x.tsq.rG a).extractLsb' 0 16).toNat = (x.tsq.rG a).toNat % 65536 := low16_toNat _
    exact ⟨fun hlt => ⟨k, a, ⟨rfl, rfl⟩, hlow ▸ hlt⟩, by rintro ⟨_, _, ⟨rfl, rfl⟩, hlt⟩; exact hlow ▸ hlt⟩
  next h1 h2 =>
    refine iff_of_false Bool.false_ne_true ?_
    rintro (⟨k, n, h, -⟩ | ⟨k, a, h, -⟩)
    · exact h1 k n h
    · exact h2 k a h

theorem nothingInFlight_iff (x : Tile) : x.nothingInFlight = true ↔
    x.pend = [] ∧ ArrayQuiet x ∧ SequencerIdle x ∧ ∀ e, e ≠ .tsq → ∀ g ∈ (x.pos e).sigs, SignalDue x g := by
  unfold Tile.nothingInFlight
  simp only [Bool.and_eq_true, allEngines_iff, List.isEmpty_iff, quiet_iff, seqIdle_iff]
  rw [and_assoc, and_assoc]
  refine and_congr Iff.rfl (and_congr Iff.rfl (and_congr Iff.rfl (forall_congr' fun e => forall_congr' fun _ => ?_)))
  generalize (x.pos e).sigs = l
  cases l with
  | nil => simp
  | cons g r => simp [sigDue_iff]

theorem deadlocked_iff (x : Tile) : x.deadlocked = true ↔ TokenDeadlock x := by
  unfold Tile.deadlocked TokenDeadlock
  simp only [Bool.and_eq_true, allEngines_iff, blocked_iff, nothingInFlight_iff]
  tauto

/-! ### The ring signals (R46, R68, R254) -/

/-- A tile without what ring signals move: its text engines' positions. -/
def Tile.offRing (x : Tile) : Tile :=
  { x with pctl := State.pos0, pvu := State.pos0, ptda := State.pos0, pxp := State.pos0 }

/-- A position without its signals and its token FIFOs. -/
def Pos.offRing (p : Pos) : Pos := { p with sigs := [], fp := [], fs := [] }

/-- Only signals and tokens differ, and of those only the signals of `e` and the tokens that it sends. -/
structure SignalFrame (e : Eng) (x y : Tile) : Prop where
  rest : y.offRing = x.offRing
  pos (k : Eng) : (y.pos k).offRing = (x.pos k).offRing
  sigs (k : Eng) : k ≠ e → (y.pos k).sigs = (x.pos k).sigs
  fifo (k : Eng) (b : Bool) : k ≠ e → y.fifoTo k b = x.fifoTo k b

section
variable {e k : Eng} {x y z : Tile} {b c : Bool} {v : Word} {g : Sig}

theorem SignalFrame.refl (e : Eng) (x : Tile) : SignalFrame e x x := ⟨rfl, fun _ => rfl, fun _ _ => rfl, fun _ _ _ => rfl⟩

theorem SignalFrame.trans (h : SignalFrame e x y) (h' : SignalFrame e y z) : SignalFrame e x z where
  rest := h'.rest.trans h.rest
  pos k := (h'.pos k).trans (h.pos k)
  sigs k hk := (h'.sigs k hk).trans (h.sigs k hk)
  fifo k b hk := (h'.fifo k b hk).trans (h.fifo k b hk)

theorem sigDue_offRing (h : y.offRing = x.offRing) : y.sigDue g = x.sigDue g := congrArg (·.sigDue g) h

/-! What a placed token and a shortened list of signals change. -/

theorem place_sigs : ((x.place e b v).pos k).sigs = (x.pos k).sigs := by
  cases e <;> cases b <;> cases k <;> rfl

theorem place_fifo_same (he : e ≠ .tsq) : (x.place e b v).fifoTo e b = x.fifoTo e b ++ [v] := by
  cases e with
  | tsq => exact absurd rfl he
  | _ => cases b <;> rfl

theorem place_fifo_ne (h : (k, c) ≠ (e, b)) : (x.place e b v).fifoTo k c = x.fifoTo k c := by
  cases e <;> cases b <;> cases k <;> cases c <;> simp_all [Tile.place, Tile.fifoTo]

theorem place_frame : SignalFrame e x (x.place e b v) where
  rest := by cases e <;> cases b <;> rfl
  pos k := by cases e <;> cases b <;> cases k <;> rfl
  sigs _ _ := place_sigs
  fifo _ _ hk := place_fifo_ne fun h => hk (Prod.ext_iff.1 h).1

/-- A tile with the signals of an engine replaced. -/
def Tile.withSigs (x : Tile) (e : Eng) (l : List Sig) : Tile := x.setPos e { x.pos e with sigs := l }

theorem withSigs_sigs (he : e ≠ .tsq) (l : List Sig) : ((x.withSigs e l).pos e).sigs = l := by
  cases e with
  | tsq => exact absurd rfl he
  | _ => rfl

theorem withSigs_fifo (l : List Sig) : (x.withSigs e l).fifoTo k b = x.fifoTo k b := by
  cases e <;> cases b <;> cases k <;> rfl

theorem withSigs_frame (l : List Sig) : SignalFrame e x (x.withSigs e l) where
  rest := by cases e <;> rfl
  pos k := by cases e <;> cases k <;> rfl
  sigs k hk := by cases e <;> cases k <;> simp_all [Tile.withSigs, Tile.setPos, Tile.pos]
  fifo _ _ _ := withSigs_fifo l

/-- A token offered to a FIFO is placed where it is wanted and there is room. -/
def Tile.offer (x : Tile) (e : Eng) (b want : Bool) (v : Word) : Tile := if want && x.room e b then x.place e b v else x

theorem offer_frame {want : Bool} : SignalFrame e x (x.offer e b want v) := by
  unfold Tile.offer
  split
  · exact place_frame
  · exact SignalFrame.refl e x

theorem offer_sigs {want : Bool} : ((x.offer e b want v).pos k).sigs = (x.pos k).sigs := by
  unfold Tile.offer
  split
  · exact place_sigs
  · rfl

theorem offer_fifo_same (he : e ≠ .tsq) {want : Bool} :
    (x.offer e b want v).fifoTo e b = x.fifoTo e b ++ if want && x.room e b then [v] else [] := by
  unfold Tile.offer
  split
  · exact place_fifo_same he
  · exact (List.append_nil _).symm

theorem offer_fifo_ne {want : Bool} (h : (k, c) ≠ (e, b)) : (x.offer e b want v).fifoTo k c = x.fifoTo k c := by
  unfold Tile.offer
  split
  · exact place_fifo_ne h
  · rfl

/-- The tile after the tokens of a signal have been offered, the predecessor's first. -/
def Tile.offered (x : Tile) (e : Eng) (g : Sig) : Tile := (x.offer e false g.sp (g.pay.getD 0)).offer e true g.ss (g.pay.getD 0)

theorem offered_frame : SignalFrame e x (x.offered e g) := offer_frame.trans offer_frame

theorem offered_sigs : ((x.offered e g).pos k).sigs = (x.pos k).sigs := offer_sigs.trans offer_sigs

theorem room_eq (he : e ≠ .tsq) : x.room e b = !decide (8 ≤ (x.fifoTo e b).length) := by
  rw [Tile.room, bne_iff_ne.2 he, Bool.true_and, ← decide_not, decide_eq_decide, Nat.not_le]

theorem room_offer {want : Bool} (h : b ≠ c) : (x.offer e b want v).room e c = x.room e c := by
  unfold Tile.room
  rw [offer_fifo_ne fun hh => h (Prod.ext_iff.1 hh).2.symm]

theorem offered_fifo_pred (he : e ≠ .tsq) :
    (x.offered e g).fifoTo e false = x.fifoTo e false ++ if g.sp && x.room e false then [g.pay.getD 0] else [] :=
  (offer_fifo_ne (by simp)).trans (offer_fifo_same he)

theorem offered_fifo_succ (he : e ≠ .tsq) :
    (x.offered e g).fifoTo e true = x.fifoTo e true ++ if g.ss && x.room e true then [g.pay.getD 0] else [] := by
  unfold Tile.offered
  rw [offer_fifo_same he, offer_fifo_ne (by simp), room_offer (by simp)]

/-- The tokens of a signal that found no room (R46). -/
def Tile.unplaced (x : Tile) (e : Eng) (g : Sig) : Sig := { g with sp := g.sp && !x.room e false, ss := g.ss && !x.room e true }

theorem offer_pair {want : Bool} : (if want && x.room e b then (x.place e b v, false) else (x, want)) =
    (x.offer e b want v, want && !x.room e b) := by
  unfold Tile.offer
  cases want <;> cases x.room e b <;> rfl

theorem placeSig_eq : x.placeSig e g =
    (x.offered e g, if (x.unplaced e g).sp || (x.unplaced e g).ss then some (x.unplaced e g) else none) := by
  unfold Tile.placeSig
  simp only [offer_pair]
  simp only [room_offer Bool.false_ne_true]
  rfl

/-- The signals of an engine that has none, or whose first is not due, stay. -/
theorem placeSigs_rest {n : Nat} (h : ∀ g r, (x.pos e).sigs = g :: r → x.sigDue g = false) : x.placeSigs e n = x := by
  cases n with
  | zero => rfl
  | succ n =>
    unfold Tile.placeSigs
    split
    · rfl
    · next g r hg => rw [h g r hg]; rfl

/-- A due signal whose tokens all find room is placed, and the next is tried. -/
theorem placeSigs_whole {n : Nat} {r : List Sig} (h : (x.pos e).sigs = g :: r) (hd : x.sigDue g = true)
    (hp : (g.sp && !x.room e false) = false) (hs : (g.ss && !x.room e true) = false) :
    x.placeSigs e (n + 1) = ((x.offered e g).withSigs e r).placeSigs e n := by
  rw [Tile.placeSigs, h]
  simp only [hd, if_true, placeSig_eq, Tile.unplaced, hp, hs]
  rfl

/-- A due signal that finds a FIFO full keeps the token that found no room, and holds those after it. -/
theorem placeSigs_full {n : Nat} {r : List Sig} (h : (x.pos e).sigs = g :: r) (hd : x.sigDue g = true)
    (hf : (g.sp && !x.room e false || g.ss && !x.room e true) = true) :
    x.placeSigs e (n + 1) = (x.offered e g).withSigs e (x.unplaced e g :: r) := by
  rw [Tile.placeSigs, h]
  simp only [hd, if_true, placeSig_eq, Tile.unplaced, hf]
  rfl

theorem placeSigs_frame (n : Nat) : SignalFrame e x (x.placeSigs e n) := by
  induction n generalizing x with
  | zero => exact SignalFrame.refl e x
  | succ n ih =>
    rw [Tile.placeSigs]
    split
    · exact SignalFrame.refl e x
    · next g r _ =>
      split
      · rw [placeSig_eq]
        split
        · next heq => 
          obtain ⟨rfl, -⟩ := Prod.ext_iff.1 heq
          exact (offered_frame.trans (withSigs_frame r)).trans ih
        · next heq => 
          obtain ⟨rfl, -⟩ := Prod.ext_iff.1 heq
          exact offered_frame.trans (withSigs_frame _)
      · exact SignalFrame.refl e x

/-- The payloads of the signals that pass `p`. -/
def payloads (p : Sig → Bool) (d : List Sig) : List Word := (d.filter p).map fun g => g.pay.getD 0

theorem payloads_cons (p : Sig → Bool) (g : Sig) (d : List Sig) :
    payloads p (g :: d) = (if p g then [g.pay.getD 0] else []) ++ payloads p d := by
  unfold payloads
  rw [List.filter_cons]
  split <;> rfl

/-- Where the tokens of a due signal and of those after it have room, there is room for its own. -/
theorem room_of_fits (he : e ≠ .tsq) {p : Sig → Bool} {d : List Sig}
    (h : (x.fifoTo e b ++ payloads p (g :: d)).length ≤ max 8 (x.fifoTo e b).length) : (p g && !x.room e b) = false := by
  cases hp : p g with
  | false => rfl
  | true =>
    simp only [payloads_cons, hp, if_true, List.length_append, List.length_singleton] at h
    have hlt : (x.fifoTo e b).length < 8 := by omega
    simp [Tile.room, he, hlt]

/-- A run of due signals whose tokens fit is placed whole: what is left of the engine's signals is tried on the tile with their tokens. -/
theorem placeSigs_prefix (he : e ≠ .tsq) (r : List Sig) : ∀ (d : List Sig) (x : Tile), (x.pos e).sigs = d ++ r → (∀ g ∈ d, x.sigDue g = true) →
    (x.fifoTo e false ++ payloads (·.sp) d).length ≤ max 8 (x.fifoTo e false).length →
    (x.fifoTo e true ++ payloads (·.ss) d).length ≤ max 8 (x.fifoTo e true).length →
    ∃ y, SignalFrame e x y ∧ (y.pos e).sigs = r ∧ y.fifoTo e false = x.fifoTo e false ++ payloads (·.sp) d
      ∧ y.fifoTo e true = x.fifoTo e true ++ payloads (·.ss) d ∧ ∀ n, x.placeSigs e (d.length + n) = y.placeSigs e n := by
  intro d
  induction d with
  | nil =>
    intro x hs _ _ _
    exact ⟨x, SignalFrame.refl e x, hs, (List.append_nil _).symm, (List.append_nil _).symm, fun n => by rw [List.length_nil, Nat.zero_add]⟩
  | cons g d ih =>
    intro x hs hd hp hss
    have hrp := room_of_fits he hp
    have hrs := room_of_fits he hss
    have hframe : SignalFrame e x ((x.offered e g).withSigs e (d ++ r)) := offered_frame.trans (withSigs_frame _)
    have hfp : ((x.offered e g).withSigs e (d ++ r)).fifoTo e false = x.fifoTo e false ++ if g.sp then [g.pay.getD 0] else [] := by
      rw [withSigs_fifo, offered_fifo_pred he]
      cases hg : g.sp <;> simp_all
    have hfs : ((x.offered e g).withSigs e (d ++ r)).fifoTo e true = x.fifoTo e true ++ if g.ss then [g.pay.getD 0] else [] := by
      rw [withSigs_fifo, offered_fifo_succ he]
      cases hg : g.ss <;> simp_all
    have hpays (b : Bool) (p : Sig → Bool) (w : List Word) (hw : w = x.fifoTo e b ++ if p g then [g.pay.getD 0] else []) :
        w ++ payloads p d = x.fifoTo e b ++ payloads p (g :: d) ∧ (x.fifoTo e b).length ≤ w.length := by
      rw [hw, payloads_cons, List.append_assoc, List.length_append]
      exact ⟨rfl, Nat.le_add_right _ _⟩
    obtain ⟨hep, hlp⟩ := hpays false (·.sp) _ hfp
    obtain ⟨hes, hls⟩ := hpays true (·.ss) _ hfs
    obtain ⟨y, hy, hyr, hyp, hys, hyn⟩ := ih ((x.offered e g).withSigs e (d ++ r)) (withSigs_sigs he _)
      (fun k hk => (sigDue_offRing hframe.rest).trans (hd k (List.mem_cons_of_mem _ hk)))
      (by rw [hep]; omega) (by rw [hes]; omega)
    refine ⟨y, hframe.trans hy, hyr, hyp.trans hep, hys.trans hes, fun n => ?_⟩
    rw [List.length_cons, Nat.add_right_comm, placeSigs_whole hs (hd g List.mem_cons_self) hrp hrs]
    exact hyn n

/-- A CTL signal whose word is complete carries the CTL latch (R68, R254). -/
def Tile.loaded (x : Tile) (e : Eng) (g : Sig) : Sig :=
  if e = .ctl ∧ g.own ≤ x.cyc ∧ g.pay = none then { g with pay := some (x.ctl.alu.setWidth 32) } else g

theorem payDue_sigs : (x.payDue.pos e).sigs = (x.pos e).sigs.map (x.loaded e) := by
  cases e with
  | ctl =>
    refine List.map_congr_left fun g _ => ?_
    simp only [Tile.loaded, true_and, Bool.and_eq_true, decide_eq_true_eq, Option.isNone_iff_eq_none]
  | _ => exact (List.map_id _).symm

theorem payDue_fifo : x.payDue.fifoTo e b = x.fifoTo e b := by
  cases e <;> cases b <;> rfl

theorem payDue_pos : (x.payDue.pos e).offRing = (x.pos e).offRing := by
  cases e <;> rfl

/-- The turns of a list of engines at placing their signals. -/
def Tile.turns (x : Tile) (l : List Eng) : Tile := l.foldl (fun x e => x.placeSigs e (x.pos e).sigs.length) x

/-- What the turns of a list of engines keep: all but signals and tokens, and those of the engines not listed. -/
structure TurnsFrame (l : List Eng) (x y : Tile) : Prop where
  rest : y.offRing = x.offRing
  pos (k : Eng) : (y.pos k).offRing = (x.pos k).offRing
  sigs (k : Eng) : k ∉ l → (y.pos k).sigs = (x.pos k).sigs
  fifo (k : Eng) (b : Bool) : k ∉ l → y.fifoTo k b = x.fifoTo k b

theorem turns_frame (l : List Eng) (x : Tile) : TurnsFrame l x (x.turns l) := by
  induction l generalizing x with
  | nil => exact ⟨rfl, fun _ => rfl, fun _ _ => rfl, fun _ _ _ => rfl⟩
  | cons e l ih =>
    have hf : SignalFrame e x (x.placeSigs e (x.pos e).sigs.length) := placeSigs_frame _
    obtain ⟨hrest, hpos, hsigs, hfifo⟩ := ih (x.placeSigs e (x.pos e).sigs.length)
    exact ⟨hrest.trans hf.rest, fun k => (hpos k).trans (hf.pos k),
      fun k hk => (hsigs k (List.not_mem_of_not_mem_cons hk)).trans (hf.sigs k (List.ne_of_not_mem_cons hk)),
      fun k b hk => (hfifo k b (List.not_mem_of_not_mem_cons hk)).trans (hf.fifo k b (List.ne_of_not_mem_cons hk))⟩

/-- An engine that has one turn finds its signals and tokens untouched, and the later turns leave what it made of them. -/
theorem turns_own {l r : List Eng} (hl : e ∉ l) (hr : e ∉ r) : ∃ a : Tile, a.offRing = x.offRing ∧ (a.pos e).sigs = (x.pos e).sigs
    ∧ (∀ b, a.fifoTo e b = x.fifoTo e b)
    ∧ ((x.turns (l ++ e :: r)).pos e).sigs = ((a.placeSigs e (x.pos e).sigs.length).pos e).sigs
    ∧ ∀ b, (x.turns (l ++ e :: r)).fifoTo e b = (a.placeSigs e (x.pos e).sigs.length).fifoTo e b := by
  have ha := turns_frame l x
  have hz := turns_frame r ((x.turns l).placeSigs e (x.pos e).sigs.length)
  have heq : x.turns (l ++ e :: r) = ((x.turns l).placeSigs e (x.pos e).sigs.length).turns r := by
    rw [← ha.sigs e hl]
    exact List.foldl_append ..
  rw [heq]
  exact ⟨x.turns l, ha.rest, ha.sigs e hl, fun b => ha.fifo e b hl, hz.sigs e hr, fun b => hz.fifo e b hr⟩

/-- Every text engine has one turn. -/
theorem ring_split (he : e ≠ .tsq) : ∃ l r, [Eng.ctl, .vu, .tda, .xp] = l ++ e :: r ∧ e ∉ l ∧ e ∉ r := by
  cases e with
  | ctl => exact ⟨[], _, rfl, by decide, by decide⟩
  | vu => exact ⟨[.ctl], _, rfl, by decide, by decide⟩
  | tda => exact ⟨[.ctl, .vu], _, rfl, by decide, by decide⟩
  | xp => exact ⟨[.ctl, .vu, .tda], _, rfl, by decide, by decide⟩
  | tsq => exact absurd rfl he

theorem ringFifo_eq (x : Tile) (e : Eng) (b : Bool) : ringFifo x e b = x.fifoTo e b := by
  cases e <;> cases b <;> rfl

theorem Tile.eq_of_offRing (h : y.offRing = x.offRing) : y = { x with pctl := y.pctl, pvu := y.pvu, ptda := y.ptda, pxp := y.pxp } :=
  congrArg (fun o : Tile => { o with pctl := y.pctl, pvu := y.pvu, ptda := y.ptda, pxp := y.pxp }) h

theorem Pos.eq_of_offRing {p q : Pos} (h : q.offRing = p.offRing) : q = { p with sigs := q.sigs, fp := q.fp, fs := q.fs } :=
  congrArg (fun o : Pos => { o with sigs := q.sigs, fp := q.fp, fs := q.fs }) h

end

end Sys2Proof.Machine

namespace Sys2Proof.Proofs
open Sys2Proof.Machine
open Claims (ArrayQuiet SignalDue ringFifo)

theorem ringSignals : Claims.RingSignals := by
  intro s t x
  have hframe := turns_frame [Eng.ctl, .vu, .tda, .xp] x.payDue
  refine ⟨x.payDue.turns [Eng.ctl, .vu, .tda, .xp], rfl, Tile.eq_of_offRing hframe.rest,
    fun e he => Pos.eq_of_offRing ((hframe.pos e).trans payDue_pos), fun e he => ?_⟩
  intro loaded gs fifo d r hgs hd pays ps ss hps hss
  obtain ⟨l, l', hl, hnl, hnl'⟩ := ring_split he
  obtain ⟨a, hrest, hsigs, hfifo, hysigs, hyfifo⟩ := turns_own (x := x.payDue) hnl hnl'
  have hsig : (a.pos e).sigs = d ++ r := (hsigs.trans payDue_sigs).trans hgs
  have hdue (g : Sig) : a.sigDue g = true ↔ SignalDue x g := by rw [sigDue_offRing hrest]; exact sigDue_iff x g
  have hf (b : Bool) : fifo b = a.fifoTo e b := (ringFifo_eq x e b).trans (payDue_fifo.symm.trans (hfifo b).symm)
  obtain ⟨y, hy, hyr, hyp, hys, hyn⟩ := placeSigs_prefix he r d a hsig (fun g hg => (hdue g).2 (hd g hg))
    (by rw [← hf]; exact hps) (by rw [← hf]; exact hss)
  have hlen : (x.payDue.pos e).sigs.length = d.length + r.length := by rw [← hsigs, hsig, List.length_append]
  have hps' : y.fifoTo e false = ps := hyp.trans (congrArg (· ++ pays (·.sp)) (hf false).symm)
  have hss' : y.fifoTo e true = ss := hys.trans (congrArg (· ++ pays (·.ss)) (hf true).symm)
  have hydue (g : Sig) : y.sigDue g = true ↔ SignalDue x g := by rw [sigDue_offRing hy.rest]; exact hdue g
  simp only [ringFifo_eq, hl, hysigs, hyfifo, hlen, hyn]
  have hstay (h : ∀ g r', r = g :: r' → ¬SignalDue x g) : y.placeSigs e r.length = y :=
    placeSigs_rest fun g r' hg => Bool.eq_false_iff.2 (mt (hydue g).1 (h g r' (hyr.symm.trans hg)))
  refine ⟨fun hr => ?_, fun g r' hr hg => ?_, fun g r' hr hg hfull => ?_⟩
  · rw [hstay (by simp [hr])]
    exact ⟨hyr.trans hr, hps', hss'⟩
  · rw [hstay (by rintro k k' hk; rw [hr] at hk; cases hk; exact hg)]
    exact ⟨hyr, hps', hss'⟩
  · have hroomP : y.room e false = !decide (8 ≤ ps.length) := hps' ▸ room_eq he
    have hroomS : y.room e true = !decide (8 ≤ ss.length) := hss' ▸ room_eq he
    rw [hr, List.length_cons, placeSigs_full (hyr.trans hr) ((hydue g).2 hg) (by rw [hroomP, hroomS, Bool.not_not, Bool.not_not]; exact hfull),
      withSigs_sigs he, withSigs_fifo, withSigs_fifo, offered_fifo_pred he, offered_fifo_succ he, hps', hss', hroomP, hroomS, Tile.unplaced,
      hroomP, hroomS, Bool.not_not, Bool.not_not]
    exact ⟨rfl, rfl, rfl⟩

theorem deadlockRaised : Claims.DeadlockRaised := fun _ _ =>
  ⟨fun h => congrArg Host.Outcome.next (if_pos ((deadlocked_iff _).2 h)), fun h => congrArg Host.Outcome.next (if_neg (mt (deadlocked_iff _).1 h))⟩

/-- Every prefetch buffer whose fill has ended holds its words. -/
def BufferFilled (x : Tile) (g g' : Target) : Prop :=
  g'.addr = g.addr ∧ g'.prpd = g.prpd ∧ g'.buf = match g.buf with
          | .filling n => if n ≤ x.cyc then .filled else .filling n
          | b => b

theorem fill_filled (x : Tile) (g : Target) : BufferFilled x g (g.fill x.cyc) := by
  obtain ⟨addr, prpd, buf⟩ := g
  cases buf with
  | filling n =>
    by_cases hn : n ≤ x.cyc
    · simp [BufferFilled, Target.fill, hn]
    · simp [BufferFilled, Target.fill, hn]
  | _ => exact ⟨rfl, rfl, rfl⟩

theorem prefetch_filled (s : State) (t : Nat) : ∃ s', exec (.prefetchBufferFilled t) s = .next s' ∧ OnlyTile t s s'
    ∧ ∀ k, BufferFilled (s.tile t) ((s.tile t).ctl.rT k) ((s'.tile t).ctl.rT k) := by
  refine ⟨_, rfl, onlyTile_modTile s t _, fun k => ?_⟩
  rw [State.tile_modTile]
  have hk := Map.get_mapValues (fun g => g.fill (s.tile t).cyc) State.target0 rfl (s.tile t).ctl.t k.toNat
  exact (congrArg (BufferFilled (s.tile t) ((s.tile t).ctl.rT k)) hk).mpr (fill_filled _ _)

theorem readyFel_eq (cyc : Nat) (e : Fel) : readyFel cyc e = { e with ready := e.ready || decide (e.due ≤ cyc) } := by
  unfold readyFel
  split
  · next h => simp [h]
  · next h => simp [h]

/-- With no HALT, or with something still running, the tile runs on (R48). -/
theorem tileHalted_runs {s : State} {t : Nat} (h : ∀ a, (s.tile t).stop.haltAt = some a → (s.tile t).runsOn = true) :
    exec (.tileHalted t) s = .next s := by
  have hx : exec (.tileHalted t) s = execTileHalted t s := rfl
  unfold execTileHalted at hx
  refine hx.trans (congrArg Host.Outcome.next ?_)
  dsimp only
  split
  · rfl
  · next a ha => exact if_pos (h a ha)

/-- A tile that has stopped halts, or raises the margin that it met (R48, R231). -/
theorem tileHalted_stops {s : State} {t : Nat} {a : Nat} (ha : (s.tile t).stop.haltAt = some a) (hr : (s.tile t).runsOn = false) :
    exec (.tileHalted t) s = .next (if (s.tile t).tda.mmap ≠ 0
      then s.freeze t ⟨0x0B, (s.tile t).tda.mmap, 0, a, (s.tile t).tda.mfirst, 0, false⟩ 0
      else s.modTile t fun x => { x with stop := { x.stop with halted := true } }) := by
  have hx : exec (.tileHalted t) s = execTileHalted t s := rfl
  unfold execTileHalted at hx
  refine hx.trans (congrArg Host.Outcome.next ?_)
  simp only [ha]
  exact if_neg (Bool.eq_false_iff.1 hr)

/-- One signal of the CTL, due, with room: its token carries the CTL latch (R46, R68). -/
theorem oneSignal {x : Tile} {g : Sig} (hc : x.pctl.sigs = [g]) (hv : x.pvu.sigs = []) (hd : x.ptda.sigs = []) (hx : x.pxp.sigs = [])
    (hdue : x.sigDue g = true) (hown : g.own ≤ x.cyc) (hss : g.ss = true) (hsp : g.sp = false) (hpay : g.pay = none)
    (hroom : x.pvu.fp.length < 8) :
    x.payDue.turns [.ctl, .vu, .tda, .xp] =
      { x with pctl := { x.pctl with sigs := [] }, pvu := { x.pvu with fp := x.pvu.fp ++ [x.ctl.alu.setWidth 32] } } := by
  let g' : Sig := { g with pay := some (x.ctl.alu.setWidth 32) }
  let y : Tile := { x with pctl := { x.pctl with sigs := [] }, pvu := { x.pvu with fp := x.pvu.fp ++ [x.ctl.alu.setWidth 32] } }
  have hload : x.payDue = x.withSigs .ctl [g'] := by
    simp [Tile.payDue, Tile.withSigs, Tile.setPos, Tile.pos, hc, hown, hpay, g']
  have hsigs : ((x.withSigs .ctl [g']).pos .ctl).sigs = [g'] := rfl
  have hroom' (l : List Sig) : (x.withSigs .ctl l).room .ctl true = true := decide_eq_true hroom
  have hctl : (x.withSigs .ctl [g']).placeSigs .ctl 1 = y := by
    rw [placeSigs_whole hsigs hdue (by simp [g', hsp]) (by simp [hroom'])]
    simp only [Tile.placeSigs, Tile.offered, Tile.offer, g', hsp, hss, Bool.false_and, Bool.false_eq_true, if_false, hroom', Bool.and_true,
      if_true]
    rfl
  have hempty (e : Eng) (n : Nat) (h : (y.pos e).sigs = []) : y.placeSigs e n = y := placeSigs_rest (by simp [h])
  rw [hload]
  calc (x.withSigs .ctl [g']).turns [.ctl, .vu, .tda, .xp]
    _ = ((x.withSigs .ctl [g']).placeSigs .ctl 1).turns [.vu, .tda, .xp] := rfl
    _ = (y.placeSigs .vu (y.pos .vu).sigs.length).turns [.tda, .xp] := by rw [hctl]; rfl
    _ = (y.placeSigs .tda (y.pos .tda).sigs.length).turns [.xp] := by rw [hempty .vu _ hv]; rfl
    _ = y.placeSigs .xp (y.pos .xp).sigs.length := by rw [hempty .tda _ hd]; rfl
    _ = y := hempty .xp _ hx

theorem tileSteps : Claims.TileSteps := by
  intro s t x
  refine ⟨prefetch_filled s t, ?_, ?_, ?_, ?_, ?_, ?_, ?_, ?_⟩
  · have hup : readyFel x.cyc = fun e => { e with ready := e.ready || decide (e.due ≤ x.cyc) } := funext (readyFel_eq x.cyc)
    exact congrArg (fun f : Fel → Fel => Host.Outcome.next (s.setTile t { x with sync := { x.sync with
      fqs := x.sync.fqs.map f, fqr := x.sync.fqr.map f, fqa := x.sync.fqa.map f } })) hup
  · intro a ha hh hf hst hq hp
    have hstop := tileHalted_stops ha ((runsOn_iff x).2 ⟨hh, hf, hst, hq, hp⟩)
    exact ⟨fun hm => hstop.trans (congrArg Host.Outcome.next (if_neg (not_not_intro hm))),
      fun hm => hstop.trans (congrArg Host.Outcome.next (if_pos hm))⟩
  · refine fun h => tileHalted_runs fun a ha => ?_
    rw [← Bool.not_eq_false, ← Bool.not_eq_true, Bool.not_eq_true, runsOn_iff]
    rintro ⟨-, -, hst, hq, -⟩
    rcases h with h | ⟨e, he, hrun⟩ | h
    · exact absurd (ha.symm.trans h) (Option.some_ne_none a)
    · exact absurd (hst e he) (Bool.eq_false_iff.1 hrun)
    · exact h hq
  · exact fun h => congrArg Host.Outcome.next (if_pos h)
  · exact fun h => congrArg Host.Outcome.next (if_neg (Bool.eq_false_iff.1 h))
  · intro g hc hv hd hx hdue hcmd hown hss hsp hpay hroom
    exact congrArg (fun y => Host.Outcome.next (s.setTile t y))
      (oneSignal hc hv hd hx ((sigDue_iff x g).2 ⟨hdue, .inl hcmd⟩) hown hss hsp hpay hroom)
  · intro n hn hle
    have hx : exec (.translationComplete t) s = .next (s.endTranslation t) := rfl
    unfold State.endTranslation at hx
    simp only [show (s.tile t).stop.xlatDue = some n from hn, if_pos hle] at hx
    exact hx
  · intro h
    have hx : exec (.translationComplete t) s = .next (s.endTranslation t) := rfl
    refine hx.trans (congrArg Host.Outcome.next ?_)
    unfold State.endTranslation
    split
    · next n hn =>
      refine if_neg ?_
      rcases h with h | ⟨m, hm, hlt⟩
      · exact absurd (hn.symm.trans h) (Option.some_ne_none n)
      · cases hn.symm.trans hm
        exact Nat.not_le.2 hlt
    · rfl

/-- Settles O32: the halt and the deadlock are the conditions that the claims name, and the turns of the engines at their signals place
each engine's due signals. -/
theorem tileEvents : Obligations.TileEvents := ⟨tileSteps, deadlockRaised, ringSignals⟩

end Sys2Proof.Proofs
end

section
/-! PROOF. The life of a copy and the faults that end it (O33). -/

namespace Sys2Proof.Machine
open Claims (Sent taken countersOf)

/-! ### The counters of a source (R37, R267) -/

/-- A counter of a tile. -/
def Tile.counter (x : Tile) (k : Nat) : Counter := x.xp.active.get State.counter0 k

/-- A live counter names a source. -/
def Counter.names (c : Counter) (src : Nat) : Bool := c.live && c.src == src

/-- What a counter holds for a source. -/
def Counter.held (c : Counter) (src : Nat) : Nat := if c.names src then c.count else 0

/-- One counter's turn at counting bytes. -/
def countStep (src n : Nat) (q : Tile × Nat) (k : Nat) : Tile × Nat :=
  let c := q.1.xp.active.get State.counter0 k
  if c.live && c.src == src then
    let take := min c.count (n - q.2)
    ({ q.1 with xp := { q.1.xp with active := q.1.xp.active.put k { c with count := c.count - take } } }, q.2 + take)
  else q

/-- What a tile keeps while its counters count: its memories, its line records, and what its counters name. -/
structure CountFrame (x y : Tile) : Prop where
  frames : y.frames = x.frames
  store : y.store = x.store
  names (k src : Nat) : (y.counter k).names src = (x.counter k).names src

section
variable {src n : Nat} {x y : Tile} {m k j : Nat}

theorem CountFrame.refl (x : Tile) : CountFrame x x := ⟨rfl, rfl, fun _ _ => rfl⟩

theorem CountFrame.trans {z : Tile} (h : CountFrame x y) (h' : CountFrame y z) : CountFrame x z :=
  ⟨h'.frames.trans h.frames, h'.store.trans h.store, fun k src => (h'.names k src).trans (h.names k src)⟩

/-- The bytes that a counter takes. -/
def takes (src n : Nat) (q : Tile × Nat) (k : Nat) : Nat := min ((q.1.counter k).held src) (n - q.2)

theorem countStep_named {q : Tile × Nat} (h : (q.1.counter k).names src = true) : countStep src n q k =
    ({ q.1 with
        xp := { q.1.xp with active := q.1.xp.active.put k { (q.1.counter k) with count := (q.1.counter k).count - takes src n q k } } },
      q.2 + takes src n q k) := by
  have ht : takes src n q k = min (q.1.counter k).count (n - q.2) := congrArg (min · _) (if_pos h)
  rw [ht]
  exact if_pos h

theorem takes_unnamed {q : Tile × Nat} (h : (q.1.counter k).names src = false) : takes src n q k = 0 := by
  unfold takes
  rw [Counter.held, h, if_neg Bool.false_ne_true, Nat.zero_min]

theorem countStep_unnamed {q : Tile × Nat} (h : (q.1.counter k).names src = false) : countStep src n q k = q :=
  if_neg (Bool.eq_false_iff.1 h)

theorem countStep_snd {q : Tile × Nat} : (countStep src n q k).2 = q.2 + takes src n q k := by
  cases h : (q.1.counter k).names src with
  | true => rw [countStep_named h]
  | false => rw [countStep_unnamed h, takes_unnamed h, Nat.add_zero]

theorem countStep_same {q : Tile × Nat} : (countStep src n q k).1.counter k =
    { q.1.counter k with count := (q.1.counter k).count - takes src n q k } := by
  cases h : (q.1.counter k).names src with
  | true =>
    rw [countStep_named h]
    exact Map.get_put_same ..
  | false => rw [countStep_unnamed h, takes_unnamed h, Nat.sub_zero]

theorem countStep_ne {q : Tile × Nat} (h : j ≠ k) : (countStep src n q k).1.counter j = q.1.counter j := by
  cases hn : (q.1.counter k).names src with
  | true =>
    rw [countStep_named hn]
    exact Map.get_put_ne _ _ _ _ _ h
  | false => rw [countStep_unnamed hn]

theorem countStep_frame {q : Tile × Nat} : CountFrame q.1 (countStep src n q k).1 := by
  refine ⟨?_, ?_, fun j src' => ?_⟩
  · cases hn : (q.1.counter k).names src with
    | true => rw [countStep_named hn]
    | false => rw [countStep_unnamed hn]
  · cases hn : (q.1.counter k).names src with
    | true => rw [countStep_named hn]
    | false => rw [countStep_unnamed hn]
  · by_cases h : j = k
    · rw [h, countStep_same]; rfl
    · rw [countStep_ne h]

theorem sum_held_congr {l : List Nat} (h : ∀ k ∈ l, y.counter k = x.counter k) :
    (l.map fun k => (y.counter k).held src).sum = (l.map fun k => (x.counter k).held src).sum :=
  congrArg List.sum (List.map_congr_left fun k hk => congrArg (Counter.held · src) (h k hk))

/-- What counting over a list of counters does, its counters taken in order. -/
structure Counted (src n : Nat) (l : List Nat) (q r : Tile × Nat) : Prop where
  frame : CountFrame q.1 r.1
  other (j : Nat) : j ∉ l → r.1.counter j = q.1.counter j
  full (j : Nat) : n ≤ q.2 → r.1.counter j = q.1.counter j
  unnamed (j : Nat) : (q.1.counter j).names src = false → r.1.counter j = q.1.counter j
  count : r.2 = q.2 + min (n - q.2) (l.map fun k => (q.1.counter k).held src).sum
  left : (l.map fun k => (r.1.counter k).held src).sum + r.2 = (l.map fun k => (q.1.counter k).held src).sum + q.2
  order : l.Pairwise fun j i => 0 < (r.1.counter j).held src → r.1.counter i = q.1.counter i

theorem counted_fold (l : List Nat) (hl : l.Nodup) (q : Tile × Nat) : Counted src n l q (l.foldl (countStep src n) q) := by
  induction l generalizing q with
  | nil => exact ⟨CountFrame.refl _, fun _ _ => rfl, fun _ _ => rfl, fun _ _ => rfl, by simp, by simp, List.Pairwise.nil⟩
  | cons k l ih =>
    obtain ⟨hk, hl⟩ := List.nodup_cons.1 hl
    have hstep := ih hl (countStep src n q k)
    have hsame (j : Nat) (hj : j ≠ k) : (countStep src n q k).1.counter j = q.1.counter j := countStep_ne hj
    have hsum := sum_held_congr (src := src) (l := l) fun j hj => hsame j (by rintro rfl; exact hk hj)
    have hkeep : (l.foldl (countStep src n) (countStep src n q k)).1.counter k = (countStep src n q k).1.counter k := hstep.other k hk
    have hfull (h : takes src n q k = 0) : (countStep src n q k).1.counter k = q.1.counter k := by
      rw [countStep_same, h, Nat.sub_zero]
    have hzero (j : Nat) (h : j = k → takes src n q k = 0) : (countStep src n q k).1.counter j = q.1.counter j := by
      by_cases hj : j = k
      · rw [hj]; exact hfull (h hj)
      · exact hsame j hj
    have hheld : ((countStep src n q k).1.counter k).held src + takes src n q k = (q.1.counter k).held src := by
      rw [countStep_same]
      unfold takes Counter.held Counter.names
      split
      · simp only
        omega
      · simp
    have hcount := hstep.count
    have hleft := hstep.left
    rw [hsum, countStep_snd] at hcount hleft
    have htake : takes src n q k = min ((q.1.counter k).held src) (n - q.2) := rfl
    refine ⟨countStep_frame.trans hstep.frame, fun j hj => ?_, fun j hn => ?_, fun j hj => ?_, ?_, ?_, ?_⟩
    · exact (hstep.other j (List.not_mem_of_not_mem_cons hj)).trans (hsame j (List.ne_of_not_mem_cons hj))
    · refine (hstep.full j (by rw [countStep_snd]; omega)).trans (hzero j fun _ => by omega)
    · refine (hstep.unnamed j (by rw [countStep_frame.names]; exact hj)).trans (hzero j fun h => ?_)
      exact takes_unnamed (h ▸ hj)
    · simp only [List.foldl_cons, List.map_cons, List.sum_cons]
      omega
    · simp only [List.foldl_cons, List.map_cons, List.sum_cons, hkeep]
      omega
    · refine List.Pairwise.cons (fun i hi hpos => ?_) (hstep.order.imp_of_mem fun {j i} _ hi h hpos => ?_)
      · rw [List.foldl_cons, hkeep] at hpos
        exact (hstep.full i (by rw [countStep_snd]; omega)).trans (hsame i (by rintro rfl; exact hk hi))
      · exact (h hpos).trans (hsame i (by rintro rfl; exact hk hi))

end

/-! ### An arrival (R37, R116, R267) -/

theorem countBytes_eq (x : Tile) (src n : Nat) : x.countBytes src n = (List.range 16).foldl (countStep src n) (x, 0) := rfl

theorem countersOf_eq (x : Tile) (src : Nat) : countersOf x src = (List.range 16).filter fun k => (x.counter k).names src := rfl

theorem mem_countersOf {x : Tile} {src k : Nat} : k ∈ countersOf x src ↔ k < 16 ∧ (x.counter k).names src = true := by
  rw [countersOf_eq, List.mem_filter, List.mem_range]

/-- The sum over the counters of a source is the sum of what each counter holds for it. -/
theorem sum_countersOf {x y : Tile} {src : Nat} (h : ∀ k, (y.counter k).names src = (x.counter k).names src) :
    ((countersOf x src).map fun k => (y.counter k).count).sum = ((List.range 16).map fun k => (y.counter k).held src).sum := by
  rw [countersOf_eq]
  induction List.range 16 with
  | nil => rfl
  | cons k l ih =>
    rw [List.filter_cons, List.map_cons, List.sum_cons, ← ih, Counter.held, h]
    split
    · rfl
    · rw [Nat.zero_add]

theorem counterOf_eq {x y : Tile} {src : Nat} (h : ∀ k, (y.counter k).names src = (x.counter k).names src) : y.counterOf src = (countersOf x src).head?.getD 16 := by
  have hn : (fun k => (x.counter k).names src) = fun k => (y.counter k).names src := funext fun k => (h k).symm
  rw [countersOf_eq, List.head?_filter, hn]
  rfl

/-- A line has been written by a source, or read by the tile itself (R116). -/
def Tile.lineOf (x : Tile) (line e : Nat) : Prop :=
  x.frames.lines.get .none line = .into e ∨ x.frames.lines.get .none line = .out ∧ e = x.seat.lt

theorem lineWrite_error {x : Tile} {line src e : Nat} (h : x.lineOf line e) (hne : e ≠ src) :
    x.lineWrite line src = .error (lineLoc line e src) := by
  unfold Tile.lineWrite
  rcases h with h | ⟨h, rfl⟩
  · simp only [h, if_neg hne]
  · simp only [h, if_neg (Ne.symm hne)]

theorem lineWrite_ok {x : Tile} {line src : Nat} (h : ∀ e, x.lineOf line e → e = src) :
    ∃ y, x.lineWrite line src = .ok y ∧ y = { x with frames := y.frames } ∧ y.frames.lines.get .none line = .into src := by
  unfold Tile.lineWrite
  cases hl : x.frames.lines.get .none line with
  | none => exact ⟨_, rfl, rfl, Map.get_set_same ..⟩
  | out => 
    have hs : src = x.seat.lt := (h _ (.inr ⟨hl, rfl⟩)).symm
    exact ⟨_, if_pos hs, rfl, Map.get_set_same ..⟩
  | into e =>
    have he : e = src := h _ (.inl hl)
    exact ⟨_, if_pos he, rfl, he ▸ hl⟩

theorem fireWrites_quiet {s : State} {t : Nat} (h : (s.die (dieOf t)).inj = []) (ps : List Pend) : s.fireWrites t ps = s := by
  refine List.foldl_fixed' (fun k => if_neg ?_) _
  rw [h, Map.get_nil]
  exact Bool.false_ne_true

/-- The tile after bytes of a source have arrived in a scratchpad. -/
def Tile.received (x : Tile) (src a : Nat) (bs : List Byte) : Tile :=
  { x with
    store := x.store.writeRuns .scr [(a, bs)]
    frames := { x.frames with srcs := x.frames.srcs.set .none (a / 4096) ((x.frames.srcs.get .none (a / 4096)).add src) } }

theorem arriveLine_ok {s : State} {d t src a : Nat} {bs : List Byte} {y z : Tile} {k : Nat} (hinj : (s.die (dieOf t)).inj = [])
    (hw : (s.tile t).lineWrite (a / 64) src = .ok y) (hc : y.countBytes src bs.length = (z, k)) :
    ∃ r, s.arriveLine d t src a bs =
        (r, if k < bs.length then some (CopyFault.of t Cause.schedule (BitVec.ofNat 64 (z.counterOf src))) else none)
      ∧ r.tile t = if k = 0 then z else z.received src a (bs.take k) := by
  unfold State.arriveLine
  simp only [hw, hc]
  have hfire (w : Tile) (ps : List Pend) : (s.setTile t w).fireWrites t ps = s.setTile t w :=
    fireWrites_quiet (s := s.setTile t w) (by rw [State.setTile_die_frame]; exact hinj) ps
  by_cases hk : k = 0
  · simp only [hfire, if_pos hk]
    refine ⟨s.setTile t z, ?_, State.tile_setTile ..⟩
    split <;> rfl
  · simp only [hfire, if_neg hk]
    refine ⟨(s.setTile t (z.received src a (bs.take k))).bumpDie d 0x23 1, ?_, State.tile_setTile ..⟩
    split <;> rfl

/-- The bytes of a run that has been written read as written, and every other byte as before. -/
theorem received_read (x : Tile) (src a : Nat) (bs : List Byte) :
    (x.received src a bs).store.scr.read a bs.length = bs
    ∧ ∀ i, i < a ∨ a + bs.length ≤ i → (x.received src a bs).store.scr.read i 1 = x.store.scr.read i 1 := by
  have hscr : (x.received src a bs).store.scr = Mem.write x.store.scr a bs := rfl
  rw [hscr]
  refine ⟨?_, fun i hi => ?_⟩
  · rw [Mem.read_eq]
    refine List.ext_getElem (by simp) fun i h1 h2 => ?_
    rw [List.getElem_map, List.getElem_range, Mem.get1_write, if_pos ⟨by omega, by omega⟩, Nat.add_sub_cancel_left, List.getD_eq_getElem _ _ h2]
  · rw [Mem.read_one, Mem.read_one, Mem.get1_write, if_neg (by omega)]

/-- The tile after the first `k` bytes of a run have arrived. -/
def Tile.receivedPart (x : Tile) (src a k : Nat) (bs : List Byte) : Tile := if k = 0 then x else x.received src a (bs.take k)

theorem receivedPart_keeps (x : Tile) (src a k : Nat) (bs : List Byte) :
    (x.receivedPart src a k bs).xp = x.xp ∧ (x.receivedPart src a k bs).frames.lines = x.frames.lines := by
  unfold Tile.receivedPart
  split <;> exact ⟨rfl, rfl⟩

theorem receivedPart_read (x : Tile) (src a k : Nat) (bs : List Byte) (hk : k ≤ bs.length) :
    (x.receivedPart src a k bs).store.scr.read a k = bs.take k
    ∧ ∀ i, i < a ∨ a + k ≤ i → (x.receivedPart src a k bs).store.scr.read i 1 = x.store.scr.read i 1 := by
  unfold Tile.receivedPart
  split
  · next h => exact ⟨by rw [h, Mem.read_eq]; rfl, fun _ _ => rfl⟩
  · have hlen : (bs.take k).length = k := List.length_take_of_le hk
    have hread := received_read x src a (bs.take k)
    rw [hlen] at hread
    exact hread

/-! ### What ends a read or a decode (R116, R131, R248, R261, R262) -/

/-- A line that its own tile may read: nobody wrote it, or the tile itself did (R116). -/
def Tile.readable (x : Tile) (l : Nat) : Prop := ∀ o, x.frames.lines.get .none l = .into o → o = x.seat.lt

/-- A line is read: it stays readable, every other line stays as it was, and the tile keeps its place. -/
theorem lineRead_ok {x : Tile} {l : Nat} (h : x.readable l) : ∃ y, x.lineRead l = .ok y ∧ y.seat = x.seat ∧ y.readable l
    ∧ ∀ k, k ≠ l → y.frames.lines.get .none k = x.frames.lines.get .none k := by
  unfold Tile.lineRead
  cases hl : x.frames.lines.get .none l with
  | none =>
    refine ⟨_, rfl, rfl, fun o ho => ?_, fun k hk => Map.get_set_ne _ _ _ _ _ hk⟩
    rw [Map.get_set_same] at ho
    cases ho
  | out => exact ⟨x, rfl, rfl, h, fun _ _ => rfl⟩
  | into o => exact ⟨x, if_pos (h o hl), rfl, h, fun _ _ => rfl⟩

theorem linesRead_stops {line e : Nat} (l r : List Nat) (x : Tile) (hline : line ∉ l) (hl : ∀ k ∈ l, x.readable k)
    (he : x.frames.lines.get .none line = .into e) (hne : e ≠ x.seat.lt) :
    ∃ y, x.linesRead (l ++ line :: r) = (y, some (lineLoc line e x.seat.lt)) := by
  induction l generalizing x with
  | nil =>
    refine ⟨x, ?_⟩
    have hread : x.lineRead line = .error (lineLoc line e x.seat.lt) := by
      unfold Tile.lineRead
      simp only [he, if_neg hne]
    rw [List.nil_append, Tile.linesRead, hread]
  | cons k l ih =>
    obtain ⟨y, hy, hseat, hsame, hother⟩ := lineRead_ok (hl k List.mem_cons_self)
    have hlt : y.seat.lt = x.seat.lt := congrArg Seat.lt hseat
    have hreadable (j : Nat) (hj : j ∈ l) : y.readable j := by
      by_cases hjk : j = k
      · rw [hjk]; exact hsame
      · intro o ho
        rw [hother j hjk] at ho
        exact (hl j (List.mem_cons_of_mem _ hj) o ho).trans hlt.symm
    obtain ⟨z, hz⟩ := ih y (List.not_mem_of_not_mem_cons hline) hreadable
      ((hother line (List.ne_of_not_mem_cons hline)).trans he) (hlt ▸ hne)
    refine ⟨z, ?_⟩
    rw [List.cons_append, Tile.linesRead, hy]
    exact hlt ▸ hz

/-- The lines of a range, split at one of them. -/
theorem linesIn_split {a n line : Nat} (hn : 0 < n) (hlo : a / 64 ≤ line) (hhi : line ≤ (a + n - 1) / 64) :
    ∃ l r, linesIn a n = l ++ line :: r ∧ ∀ k ∈ l, a / 64 ≤ k ∧ k < line := by
  refine ⟨(List.range (line - a / 64)).map (· + a / 64), (List.range ((a + n - 1) / 64 - line)).map (· + (line + 1)), ?_, ?_⟩
  · unfold linesIn
    rw [if_neg (by omega), show (a + n - 1) / 64 + 1 - a / 64 = line - a / 64 + ((a + n - 1) / 64 - line + 1) by omega, List.range_add,
      List.map_append, List.range_succ_eq_map]
    simp only [List.map_cons, List.map_map]
    congr 1
    refine congrArg₂ _ (by omega) (List.map_congr_left fun i _ => ?_)
    simp only [Function.comp_apply]
    omega
  · simp only [List.mem_map, List.mem_range, forall_exists_index, and_imp, forall_apply_eq_imp_iff₂]
    omega

/-- The address of a line in the LOC of an R116 fault. -/
theorem lineLoc_and {line e src : Nat} (h : 64 * line < 2 ^ 20) : lineLoc line e src &&& 0xFFFFF#64 = BitVec.ofNat 64 (64 * line) := by
  unfold lineLoc
  apply BitVec.eq_of_toNat_eq
  rw [BitVec.toNat_and, show (0xFFFFF#64).toNat = 2 ^ 20 - 1 from rfl, Nat.and_two_pow_sub_one_eq_mod, BitVec.toNat_ofNat, BitVec.toNat_ofNat]
  omega

/-- A range within one line is one piece. -/
theorem cut64_line {a n : Nat} (hn : 0 < n) (h : (a + n - 1) / 64 = a / 64) : cut64 a n = [(a, n)] := by
  have hpage : (a + n - 1) / 0x10000 = a / 0x10000 := by omega
  unfold cut64
  rw [if_neg (by omega), hpage, Nat.add_sub_cancel_left]
  simp only [List.range_one, List.map_cons, List.map_nil]
  refine congrArg (fun p => [p]) (Prod.ext ?_ ?_) <;> simp only <;> omega

/-- A header is rejected as R248 says. -/
theorem headerBad_iff {h T : Nat} (hh : h < 2 ^ 16) : headerBad h T = true ↔
    h / 256 % 8 ≠ 0 ∨ (2 ^ 15 ≤ h ∧ h % 2 ^ 15 ≠ 0) ∨ (h < 2 ^ 15 ∧ capacity T < h / 2 ^ 11 % 16) := by
  have hb : bit h 15 = decide (2 ^ 15 ≤ h) := by
    rw [bit, Bool.eq_iff_iff, beq_iff_eq, decide_eq_true_iff]
    omega
  simp only [headerBad, hb, Bool.or_eq_true, Bool.and_eq_true, bne_iff_ne, decide_eq_true_eq, Bool.not_eq_true',
    decide_eq_false_iff_not, Nat.not_le, or_assoc]
  simp only [bits, Nat.pow_zero, Nat.div_one]
  rfl

theorem slotHeader_lt (slot : List Byte) : slotHeader slot < 2 ^ 16 := by
  unfold slotHeader
  match slot with
  | [] => decide
  | [b] => 
    have := b.isLt
    simp only [List.take, ofLe]
    omega
  | b :: c :: _ =>
    have := b.isLt
    have := c.isLt
    simp only [List.take, ofLe]
    omega

/-- An index at or above EXTENT ends the copy (R262, R266). -/
theorem indexFault_some {c : Copy} (hk : c.kind = .gath ∨ c.kind = .scat) (bs : List Byte)
    (h : ∃ i, i < Record.nidx c.rcd ∧ (Record.dim c.rcd (Record.ndim c.rcd - 1)).ext ≤ recNum bs (4 * i) 4) :
    State.indexFault c (State.indexList c bs) = some (CopyFault.of c.tile Cause.schedule (BitVec.ofNat 64 (Record.list c.rcd))) := by
  obtain ⟨i, hi, hext⟩ := h
  have hlist : State.indexList c bs = some ((List.range (Record.nidx c.rcd)).map fun e => recNum bs (4 * e) 4) := by
    unfold State.indexList
    rcases hk with hk | hk <;> rw [hk]
  rw [hlist]
  refine if_pos (List.any_eq_true.2 ⟨recNum bs (4 * i) 4, List.mem_map.2 ⟨i, List.mem_range.2 hi, rfl⟩, decide_eq_true hext⟩)

/-! ### The life of a copy (R38, R50, R119, R264, R374) -/

/-- A copy whose target is available does not fail; one whose target is not fails with its address (R131). -/
theorem failUnavailable_none {s : State} {c : Copy} (h : s.unavailable c = none) : s.failUnavailable c = none := by
  unfold State.failUnavailable
  rw [h]
  rfl

theorem failUnavailable_some {s : State} {c : Copy} {pa : Nat} (h : s.unavailable c = some pa) :
    s.failUnavailable c = some (s.failCopy c ⟨c.tile, 0x11, BitVec.ofNat 64 pa, BitVec.ofNat 64 pa⟩) := by
  unfold State.failUnavailable
  rw [h]
  rfl

/-- A started copy moves its bytes, waits for a link, or ends (R131, R266, R368). -/
theorem sendCopy_sent (s : State) (c : Copy) : Sent s c (s.sendCopy c) := by
  refine ⟨s.ticks + Config.copyLandTicks s.free, Nat.le_add_right .., ?_⟩
  intro c' r gone
  have hsend : s.sendCopy c = match r.failUnavailable c' with
    | some s => s
    | none =>
      if r.copyHeld c' then r.setCopy { c' with st := .held }
      else match r.refusedAt c' with
      | some pa => r.failTarget c' pa
      | none =>
        match r.moveCopy c' with
        | .error (s, f) => s.failCopy c' f
        | .ok (s, some f) => s.failCopy c' f
        | .ok (s, none) => s := rfl
  refine ⟨fun pa hu => ?_, fun hu hh => ?_, fun pa hu hh hr => ?_, fun hu hh hr => ⟨fun m hm => ?_, fun m f hm => ?_⟩⟩
  · rw [hsend, failUnavailable_some hu]
  · rw [hsend, failUnavailable_none hu]
    exact if_pos hh
  · rw [hsend, failUnavailable_none hu, hr]
    exact if_neg (Bool.eq_false_iff.1 hh)
  · rw [hsend, failUnavailable_none hu, hr, hm]
    exact if_neg (Bool.eq_false_iff.1 hh)
  · rw [hsend, failUnavailable_none hu, hr]
    refine (if_neg (Bool.eq_false_iff.1 hh)).trans ?_
    rcases hm with hm | hm <;> rw [hm]

section
variable {s : State} {id : Nat} {c : Copy} (hc : s.copy id = some c)
include hc

theorem copyLeave_eq : exec (.copyLeave id) s = .next (if c.st ≠ .buffered || s.time < c.due then s else
    ((s.setCopy { c with st := .left, leftAt := s.ticks }).failUnavailable { c with st := .left, leftAt := s.ticks }).getD
      (s.setCopy { c with st := .left, leftAt := s.ticks })) := by
  have hx : exec (.copyLeave id) s = execCopyLeave id s := rfl
  unfold execCopyLeave at hx
  rw [hc] at hx
  exact hx

theorem copyStart_eq : exec (.copyStart id) s = .next (if c.st ≠ .left || c.ats || !s.mayStart c then s
    else if !c.atsOk && !(s.atsMisses c).isEmpty then s.setCopy { c with ats := true }
    else if c.sem.we && (s.tile c.tile).semCount c.sem.wsem.toNat == 0 then s
    else s.beginCopy c) := by
  have hx : exec (.copyStart id) s = execCopyStart id s := rfl
  unfold execCopyStart at hx
  rw [hc] at hx
  exact hx

theorem copyLanded_held (hst : c.st = .held) : exec (.copyLanded id) s = .next (if s.copyHeld c then s else s.sendCopy c) := by
  have hx : exec (.copyLanded id) s = execCopyLanded id s := rfl
  unfold execCopyLanded at hx
  rw [hc] at hx
  exact hx.trans (congrArg Host.Outcome.next (if_pos hst))

theorem copyLanded_waits (hst : c.st ≠ .held) (h : c.st ≠ .started ∨ s.ticks < c.landAt) : exec (.copyLanded id) s = .next s := by
  have hx : exec (.copyLanded id) s = execCopyLanded id s := rfl
  unfold execCopyLanded at hx
  rw [hc] at hx
  exact hx.trans (congrArg Host.Outcome.next ((if_neg hst).trans (if_pos (by simpa using h))))

theorem copyLanded_moved (hst : c.st = .started) (hl : c.landAt ≤ s.ticks) (hk : ∀ fop, c.kind ≠ .flag fop) :
    exec (.copyLanded id) s = .next (s.landCopy c) := by
  have hx : exec (.copyLanded id) s = execCopyLanded id s := rfl
  unfold execCopyLanded at hx
  rw [hc] at hx
  have hgo : ¬(c.st ≠ .started || decide (s.ticks < c.landAt)) = true := by simp [hst, hl]
  refine hx.trans (congrArg Host.Outcome.next ((if_neg (by simp [hst])).trans ((if_neg hgo).trans ?_)))
  split
  · next fop hf => exact absurd hf (hk fop)
  · rfl

theorem copyLanded_flag {fop : BitVec 2} (hst : c.st = .started) (hl : c.landAt ≤ s.ticks) (hk : c.kind = .flag fop) :
    (∀ r, s.writeFlag c fop = .ok r → exec (.copyLanded id) s = .next (r.landCopy c))
    ∧ ∀ r f, s.writeFlag c fop = .error (r, f) → exec (.copyLanded id) s = .next (r.failCopy c f) := by
  have hx : exec (.copyLanded id) s = execCopyLanded id s := rfl
  unfold execCopyLanded at hx
  rw [hc] at hx
  have hgo : ¬(c.st ≠ .started || decide (s.ticks < c.landAt)) = true := by simp [hst, hl]
  refine ⟨fun r hr => ?_, fun r f hr => ?_⟩
  all_goals
    refine hx.trans (congrArg Host.Outcome.next ((if_neg (by simp [hst])).trans ((if_neg hgo).trans ?_)))
    simp only [hk, hr]

theorem copyRetired_eq : exec (.copyRetired id) s = .next (if c.st ≠ .landed || s.ticks < c.retireAt then s else s.dropCopy id) := by
  have hx : exec (.copyRetired id) s = execCopyRetired id s := rfl
  unfold execCopyRetired at hx
  rw [hc] at hx
  exact hx

theorem atsDone_ok (hst : c.st = .left) (ha : c.ats = true) : exec (.atsTranslationComplete id true) s = .next
    ({ s with pkg := { s.pkg with ats := (s.atsMisses c ++ s.pkg.ats).take 1024 } }.setCopy { c with ats := false, atsOk := true }) := by
  have hx : exec (.atsTranslationComplete id true) s = execAtsTranslationComplete id true s := rfl
  unfold execAtsTranslationComplete at hx
  rw [hc] at hx
  exact hx.trans (congrArg Host.Outcome.next ((if_neg (by simp [hst, ha])).trans (if_pos rfl)))

theorem atsDone_fails {x : Nat × Nat} (hst : c.st = .left) (ha : c.ats = true)
    (hf : (s.targets c).find? (fun y => decide (0x80000000000 ≤ y.1)) = some x) :
    exec (.atsTranslationComplete id false) s =
      .next (s.failCopy c ⟨c.tile, 0x11, BitVec.ofNat 64 x.1, BitVec.ofNat 64 x.1⟩) := by
  have hx : exec (.atsTranslationComplete id false) s = execAtsTranslationComplete id false s := rfl
  unfold execAtsTranslationComplete at hx
  rw [hc] at hx
  refine hx.trans (congrArg Host.Outcome.next ((if_neg (by simp [hst, ha])).trans ((if_neg Bool.false_ne_true).trans ?_)))
  rw [show (s.targets c).find? (fun x => decide (State.hostBase ≤ x.1)) = some x from hf]
  rfl

end

/-- A copy that lands is performed at die scope, signals, and retires at once where it wrote no memory (R50, R119). -/
theorem landCopy_eq (s : State) (c : Copy) : ∃ n, s.ticks ≤ n ∧ ((∀ l ∈ c.wr, l.1 ≠ 0) → n = s.ticks)
    ∧ s.landCopy c = if c.sem.se
        then ({ s with free := s.free + 1 }.setCopy { c with st := .landed, retireAt := n }).signalSem c.tile c.sem.ssem.toNat
        else { s with free := s.free + 1 }.setCopy { c with st := .landed, retireAt := n } := by
  refine ⟨if c.wr.any (fun l => l.1 == 0) then s.ticks + Config.copyRetireTicks s.free else s.ticks, ?_, fun hw => if_neg ?_, rfl⟩
  · split <;> omega
  · rw [List.any_eq_true]
    rintro ⟨l, hl, h0⟩
    exact hw l hl (beq_iff_eq.1 h0)

/-- A cached translation in use keeps; the invalidation waits (R374). -/
theorem dropCached_used {s : State} {k : BitVec 20 × Nat}
    (h : ∃ o ∈ s.copies, k ∈ s.atsPages o ∧ (o.st = .held ∨ o.st = .started ∨ o.st = .landed)) :
    s.dropCached k = { s with pkg := { s.pkg with invals := s.pkg.invals ++ [k] } } := by
  obtain ⟨o, ho, hk, hst⟩ := h
  refine if_pos (List.any_eq_true.2 ⟨o, ho, ?_⟩)
  simpa [hk, or_assoc] using hst

theorem dropCached_unused {s : State} {k : BitVec 20 × Nat}
    (h : ¬∃ o ∈ s.copies, k ∈ s.atsPages o ∧ (o.st = .held ∨ o.st = .started ∨ o.st = .landed)) :
    s.dropCached k = { s with
      pkg := { s.pkg with ats := s.pkg.ats.filter (· != k) }
      copies := s.copies.map fun o => if k ∈ s.atsPages o then { o with atsOk := false } else o } := by
  have hany : ¬(s.copies.any fun c => (c.st == .held || c.st == .started || c.st == .landed) && (s.atsPages c).contains k) = true := by
    rw [List.any_eq_true]
    rintro ⟨o, ho, hboth⟩
    refine h ⟨o, ho, ?_⟩
    simpa [or_assoc, and_comm] using hboth
  refine (if_neg hany).trans ?_
  simp only [List.contains_iff_mem]

end Sys2Proof.Machine

namespace Sys2Proof.Proofs
open Sys2Proof.Machine
open Claims (Sent taken countersOf)

theorem arrivalFaults : Claims.ArrivalFaults := by
  intro s d t src a bs hinj _ _ x line hits held n
  refine ⟨fun e he hne => ?_, fun hsame => ?_⟩
  · have hw : (s.tile t).lineWrite (a / 64) src = .error (lineLoc (a / 64) e src) := lineWrite_error he hne
    unfold State.arriveLine
    simp only [hw, lineLoc, Nat.mul_comm 64]
    rfl
  · obtain ⟨y, hw, hy, hline⟩ := lineWrite_ok hsame
    have hcnt := counted_fold (src := src) (n := bs.length) (List.range 16) List.nodup_range (y, 0)
    obtain ⟨z, m, hq⟩ : ∃ z m, y.countBytes src bs.length = (z, m) := ⟨_, _, Prod.mk.eta.symm⟩
    rw [← countBytes_eq, hq] at hcnt
    obtain ⟨r, hr, htile⟩ := arriveLine_ok (d := d) (a := a) hinj hw hq
    have hcounter (j : Nat) : y.counter j = x.counter j := by rw [hy]; rfl
    have hheld : ((List.range 16).map fun k => (y.counter k).held src).sum = held :=
      (sum_held_congr fun j _ => hcounter j).trans (sum_countersOf fun _ => rfl).symm
    have hxz (j : Nat) : (z.counter j).names src = (x.counter j).names src := (hcnt.frame.names j src).trans (by rw [hcounter])
    have hm : m = n := by
      have h := hcnt.count
      rw [hheld] at h
      simpa using h
    have hleft : ((List.range 16).map fun k => (z.counter k).held src).sum = held - n := by
      have h := hcnt.left
      simp only [hheld, hm] at h
      omega
    subst hm
    have htile' : r.tile t = z.receivedPart src a n bs := htile
    obtain ⟨hxp, hlines⟩ := receivedPart_keeps z src a n bs
    obtain ⟨hread, hother⟩ := receivedPart_read z src a n bs (Nat.min_le_left ..)
    have hget (j : Nat) : (r.tile t).xp.active.get ⟨false, false, 0, 0⟩ j = z.counter j := by rw [htile', hxp]; rfl
    have hpos {j : Nat} (hj : j ∈ countersOf x src) : (z.counter j).held src = (z.counter j).count :=
      if_pos ((hxz j).trans (mem_countersOf.1 hj).2)
    have hframes : z.frames = y.frames := hcnt.frame.frames
    have hstore : z.store = x.store := hcnt.frame.store.trans (by rw [hy])
    rw [hr]
    simp only [hget]
    refine ⟨?_, ?_, ?_, ?_, ?_, ?_, ?_⟩
    · rw [counterOf_eq hxz]
      rfl
    · rw [htile']
      exact hread
    · intro i hi
      rw [htile', hother i hi, hstore]
    · exact (sum_countersOf hxz).trans hleft
    · intro j hj i hi hji hcount
      have horder := List.pairwise_iff_getElem.1 hcnt.order j i (by simpa using (mem_countersOf.1 hj).1) (by simpa using (mem_countersOf.1 hi).1) hji
      simp only [List.getElem_range] at horder
      exact (horder (by rw [hpos hj]; exact hcount)).trans (hcounter i)
    · intro j hj
      rw [mem_countersOf, not_and_or] at hj
      rcases hj with hj | hj
      · exact (hcnt.other j (by simpa using hj)).trans (hcounter j)
      · exact (hcnt.unnamed j (by rw [hcounter]; exact Bool.eq_false_iff.2 hj)).trans (hcounter j)
    · rw [htile', hlines, hframes]
      exact hline

theorem sourceFaults : Claims.SourceFaults := by
  intro s c
  refine ⟨?_, ?_, ?_, ?_⟩
  · intro a n line e hn htop x hlo hhi he hne hearlier
    obtain ⟨l, r, hsplit, hl⟩ := linesIn_split hn hlo hhi
    obtain ⟨y, hy⟩ := linesRead_stops l r x (fun h => Nat.lt_irrefl _ (hl _ h).2)
      (fun k hk o ho => hearlier k o (hl k hk).1 (hl k hk).2 ho) he hne
    refine ⟨s.setTile c.tile y, ?_, rfl⟩
    unfold State.copyRead
    simp only [hsplit, show (s.tile c.tile).linesRead (l ++ line :: r) = _ from hy]
    rw [lineLoc_and (by omega)]
    rfl
  · intro a n e m hn hline ht
    unfold State.copyRead State.virtRead
    simp only [cut64_line hn hline, List.foldl_cons, List.foldl_nil, ht]
    rfl
  · intro m bs hk hr hidx
    have hfault := indexFault_some hk bs hidx
    unfold State.moveCopy State.copyMoves
    rcases hk with hk | hk
    all_goals
      simp only [hk] at hr ⊢
      simp only [hr, hfault]
      rfl
  · intro m slot r rest h hr hbad
    have hb : headerBad h (Record.slot c.rcd) = true := (headerBad_iff (slotHeader_lt slot)).2 hbad
    unfold State.readBlocks
    simp only [hr]
    exact if_pos hb

theorem copyLife : Claims.CopyLife := by
  intro s id c hc miss ready landed
  have hwaits : (!c.atsOk && !(s.atsMisses c).isEmpty) = true ↔ miss := by simp [miss]
  have hready : (c.sem.we && (s.tile c.tile).semCount c.sem.wsem.toNat == 0) = false ↔ ready := by
    rw [Bool.and_eq_false_imp, beq_eq_false_iff_ne, semCount_ne_zero]
  refine ⟨fun hst hdue => ⟨fun hu => ?_, fun pa hu => ?_⟩, fun h => ?_, fun hst ha hm hmiss hr => ?_, fun hst ha hm hmiss => ?_, fun h => ?_,
    fun hst hl hk => ?_, fun fop r hst hl hk hw => ?_, fun fop r f hst hl hk hw => (copyLanded_flag hc hst hl hk).2 r f hw, fun h hh => ?_,
    fun hst hh => ?_, fun hst hr => ?_, fun h => ?_, atsDone_ok hc, fun x => atsDone_fails hc, fun pasid page => ⟨fun h => ?_, fun h => ?_⟩⟩
  · rw [copyLeave_eq hc, if_neg (by simp [hst, hdue]), failUnavailable_none hu]
    rfl
  · rw [copyLeave_eq hc, if_neg (by simp [hst, hdue]), failUnavailable_some hu]
    rfl
  · rw [copyLeave_eq hc, if_pos (by simpa using h)]
  · refine ⟨_, ?_, sendCopy_sent (taken s c.tile c.sem) c⟩
    rw [copyStart_eq hc, if_neg (by simp [hst, ha, hm]), if_neg (mt hwaits.1 hmiss), if_neg (Bool.eq_false_iff.1 (hready.2 hr))]
    rfl
  · rw [copyStart_eq hc, if_neg (by simp [hst, ha, hm]), if_pos (hwaits.2 hmiss)]
  · rw [copyStart_eq hc]
    rcases h with h | h | h | ⟨hmiss, hr⟩
    · rw [if_pos (by simp [h])]
    · rw [if_pos (by simp [h])]
    · rw [if_pos (by simp [h])]
    · have hsem : (c.sem.we && (s.tile c.tile).semCount c.sem.wsem.toNat == 0) = true := (Bool.not_eq_false _).mp (mt hready.1 hr)
      rw [if_neg (mt hwaits.1 hmiss), if_pos hsem, ite_self]
  · obtain ⟨n, hn, hwr, heq⟩ := landCopy_eq s c
    exact ⟨n, hn, hwr, (copyLanded_moved hc hst hl hk).trans (congrArg Host.Outcome.next heq)⟩
  · obtain ⟨n, hn, -, heq⟩ := landCopy_eq r c
    exact ⟨n, hn, ((copyLanded_flag hc hst hl hk).1 r hw).trans (congrArg Host.Outcome.next heq)⟩
  · by_cases hst : c.st = .held
    · rw [copyLanded_held hc hst, if_pos (hh hst)]
    · exact copyLanded_waits hc hst h
  · exact ⟨_, (copyLanded_held hc hst).trans (congrArg Host.Outcome.next (if_neg (Bool.eq_false_iff.1 hh))), sendCopy_sent s c⟩
  · rw [copyRetired_eq hc, if_neg (by simp [hst, hr])]
    rfl
  · rw [copyRetired_eq hc, if_pos (by simpa using h)]
  · exact congrArg Host.Outcome.next (dropCached_unused h)
  · exact congrArg Host.Outcome.next (dropCached_used h)

/-- Settles O33: each event of a copy's life by its conditions; an arrival counts over the source's counters in order, and a read stops at
the first line, word, index or header that ends it. -/
theorem copyEvents : Obligations.CopyEvents := ⟨copyLife, arrivalFaults, sourceFaults⟩

end Sys2Proof.Proofs
end

section
/-! PROOF. The phase controller of a partition (O35). -/

namespace Sys2Proof.Machine
open Claims (allTiles stillAtLaunch Arrived Complete BoundaryLead Reconfiguring Tagged entryFor ArrayQuiet ringFifo)

/-! ### What an access of the front end leaves alone -/

/-- The tiles, the partitions, the copies, the links and the time stay. -/
structure Kept (s r : State) : Prop where
  tiles : r.tiles = s.tiles
  parts : r.parts = s.parts
  copies : r.copies = s.copies
  links : r.links = s.links
  time : r.time = s.time
  ticks : r.ticks = s.ticks

namespace Kept
variable {s r u : State}

theorem refl (s : State) : Kept s s := ⟨rfl, rfl, rfl, rfl, rfl, rfl⟩

theorem trans (h : Kept s r) (h' : Kept r u) : Kept s u :=
  ⟨h'.tiles.trans h.tiles, h'.parts.trans h.parts, h'.copies.trans h.copies, h'.links.trans h.links, h'.time.trans h.time,
    h'.ticks.trans h.ticks⟩

theorem tile (h : Kept s r) (t : Nat) : r.tile t = s.tile t := congrArg (Map.get · State.tile0 t) h.tiles
theorem part (h : Kept s r) (p : Nat) : r.part p = s.part p := congrArg (Map.get · State.part0 p) h.parts

theorem modDie (s : State) (d : Nat) (f : Die → Die) : Kept s (s.modDie d f) := ⟨rfl, rfl, rfl, rfl, rfl, rfl⟩

theorem physWrite (s : State) (a : Nat) (bs : List Byte) : Kept s (s.physWrite a bs) := by
  unfold State.physWrite
  split <;> exact ⟨rfl, rfl, rfl, rfl, rfl, rfl⟩

theorem setPkg (s : State) (k : Pkg) : Kept s { s with pkg := k } := ⟨rfl, rfl, rfl, rfl, rfl, rfl⟩

theorem draw (s : State) : Kept s s.draw := ⟨rfl, rfl, rfl, rfl, rfl, rfl⟩

theorem log (s : State) (d : Nat) (code : BitVec 8) (cls : BitVec 2) (eng : BitVec 3) (slot unit addr phase : Nat) (loc : DWord) :
    Kept s (s.log d code cls eng slot unit addr phase loc) := modDie ..

theorem ite {c : Prop} [Decidable c] (ha : c → Kept s r) (hb : ¬c → Kept s u) : Kept s (if c then r else u) := by
  split
  · exact ha ‹_›
  · exact hb ‹_›

/-- What each step of a fold keeps, the fold keeps. -/
theorem foldl {α : Type} (f : State → α → State) (hf : ∀ u a, Kept u (f u a)) (l : List α) (u : State) : Kept u (l.foldl f u) := by
  induction l generalizing u with
  | nil => exact refl u
  | cons a l ih => exact (hf u a).trans (ih _)

theorem touchHbm (s : State) (pa n : Nat) : Kept s (s.touchHbm pa n).1 := by
  unfold State.touchHbm
  dsimp only
  split
  · exact refl s
  · split
    · exact refl s
    · refine trans (r := { s with hbm := s.hbm.filter fun m => !overlaps (32 * m.1) 32 pa n }) ⟨rfl, rfl, rfl, rfl, rfl, rfl⟩
        (foldl (fun u (m : Nat × Bool) => u.logCorrected (State.hbmDie (32 * m.1)) (6, 0) 0 0
          (Config.storageKind 12 ++ BitVec.ofNat 60 (32 * m.1))) (fun _ _ => log ..) _ _)

theorem touchWords (s : State) (as : List Nat) : Kept s (s.touchWords as).1 := by
  have key (l : List Nat) (q : State × Option Nat) :
      Kept q.1 (l.foldl (fun (q : State × Option Nat) a => match q.2 with | some _ => q | none => q.1.touchHbm a 8) q).1 := by
    induction l generalizing q with
    | nil => exact refl _
    | cons a l ih =>
      refine trans ?_ (ih _)
      dsimp only
      split
      · exact refl _
      · exact touchHbm ..
  exact key as (s, none)

/-- What an access of the front end answers with keeps them. -/
def ofFront {α : Type} (s : State) : State.Front α → Prop
  | .ok q => Kept s q.1
  | .error q => Kept s q.1

theorem ofFront_ite {α : Type} {c : Prop} [Decidable c] {a b : State.Front α} (ha : c → ofFront s a) (hb : ¬c → ofFront s b) :
    ofFront s (if c then a else b) := by
  split
  · exact ha ‹_›
  · exact hb ‹_›

theorem refuseFront {α : Type} (h : Kept s r) (cause : BitVec 8) : ofFront s (r.refuseFront cause : State.Front α) := h

theorem frontTranslate (s : State) (d c va : Nat) (wr : Bool) : ofFront s (s.frontTranslate d c va wr) := by
  have ht := (modDie s d fun x => { x with evc := bumpAll x.evc 0x24 1 }).trans (touchWords (s.bumpDie d 0x24 1) (s.walkWords c va))
  unfold State.frontTranslate
  refine ofFront_ite (fun _ => refuseFront (refl s) _) fun _ => ofFront_ite (fun _ => refl s) fun _ => ?_
  split
  · next heq =>
    rw [heq] at ht
    exact refuseFront ht _
  · next u heq =>
    rw [heq] at ht
    split
    · exact refuseFront ht _
    · refine ofFront_ite (fun _ => refuseFront ht _) fun _ => ?_
      exact ht.trans (ite (fun _ => refl u) fun _ => physWrite ..)

theorem frontReach (s : State) (d c pa n : Nat) : ofFront s (s.frontReach d c pa n) := by
  unfold State.frontReach
  refine ofFront_ite (fun _ => refl s) fun _ => ofFront_ite (fun _ => refuseFront (refl s) _) fun _ => ofFront_ite (fun _ => refl s) fun _ =>
    ofFront_ite (fun _ => refuseFront ?_ _) fun _ => ?_
  · exact draw s
  · exact (draw s).trans (setPkg s.draw _)

theorem frontWrite (s : State) (d c va : Nat) (sc : Bool) (bs : List Byte) : ofFront s (s.frontWrite d c va sc bs) := by
  have ht := frontTranslate s d c va true
  unfold State.frontWrite
  split
  · next heq => rw [heq] at ht; exact ht
  · next u pa sc' heq =>
    rw [heq] at ht
    split
    · exact ht
    · have hr := frontReach u d c pa bs.length
      cases hk : u.frontReach d c pa bs.length with
      | error e => rw [hk] at hr; exact trans ht hr
      | ok q => rw [hk] at hr; exact (trans ht hr).trans (physWrite ..)

theorem storeStatus (s : State) (x : Status) : Kept s (s.storeStatus x) := by
  unfold State.storeStatus
  dsimp only
  split
  · exact ⟨rfl, rfl, rfl, rfl, rfl, rfl⟩
  split
  · exact modDie ..
  · next c _ =>
    have hw := frontWrite s x.die c x.va true (leBytes 8 x.word.toNat)
    split
    · next heq => rw [heq] at hw; exact hw
    · next heq => rw [heq] at hw; exact hw.trans (modDie ..)
    · next heq =>
      rw [heq] at hw
      exact hw.trans ⟨rfl, rfl, rfl, rfl, rfl, rfl⟩

end Kept

/-- Only tiles and dies differ. -/
def Inside (s u : State) : Prop := u = { s with dies := u.dies, tiles := u.tiles }

namespace Inside
variable {s u v : State}

theorem refl (s : State) : Inside s s := rfl
theorem trans (h : Inside s u) (h' : Inside u v) : Inside s v :=
  Eq.trans h' (congrArg (fun w : State => { w with dies := v.dies, tiles := v.tiles }) h)
theorem modTile (s : State) (t : Nat) (f : Tile → Tile) : Inside s (s.modTile t f) := rfl
theorem modDie (s : State) (d : Nat) (f : Die → Die) : Inside s (s.modDie d f) := rfl

theorem foldl {α : Type} (f : State → α → State) (hf : ∀ u a, Inside u (f u a)) (l : List α) (u : State) : Inside u (l.foldl f u) := by
  induction l generalizing u with
  | nil => exact refl u
  | cons a l ih => exact (hf u a).trans (ih _)

theorem eq (h : Inside s u) : u = { s with dies := u.dies, tiles := u.tiles } := h
theorem part (h : Inside s u) (p : Nat) : u.part p = s.part p := (congrArg (State.part · p) h.eq).trans rfl
theorem mem (h : Inside s u) : u.mem = s.mem := (congrArg State.mem h.eq).trans rfl
theorem copies (h : Inside s u) : u.copies = s.copies := (congrArg State.copies h.eq).trans rfl
theorem links (h : Inside s u) : u.links = s.links := (congrArg State.links h.eq).trans rfl
theorem time (h : Inside s u) : u.time = s.time := (congrArg State.time h.eq).trans rfl
theorem ticks (h : Inside s u) : u.ticks = s.ticks := (congrArg State.ticks h.eq).trans rfl

end Inside

/-! ### A change of several tiles -/

/-- Each tile of a list is changed, in order. -/
def State.modEach (s : State) (l : List Nat) (f : Tile → Tile) : State := l.foldl (fun s t => s.modTile t f) s

namespace State
variable {s : State} {f : Tile → Tile} {t : Nat}

/-- A change of tiles leaves everything else. -/
theorem modEach_eq (s : State) (l : List Nat) (f : Tile → Tile) : s.modEach l f = { s with tiles := (s.modEach l f).tiles } := by
  induction l generalizing s with
  | nil => rfl
  | cons t l ih => exact (ih (s.modTile t f)).trans rfl

theorem modEach_part (s : State) (l : List Nat) (f : Tile → Tile) (p : Nat) : (s.modEach l f).part p = s.part p := by
  rw [modEach_eq]; rfl

/-- What the change keeps of a tile, all of it keeps. -/
theorem modEach_keeps {α : Type} (g : Tile → α) (hg : ∀ x, g (f x) = g x) (l : List Nat) (s : State) (t : Nat) :
    g ((s.modEach l f).tile t) = g (s.tile t) := by
  induction l generalizing s with
  | nil => rfl
  | cons u l ih =>
    refine (ih (s.modTile u f)).trans ?_
    by_cases h : t = u
    · rw [h, tile_modTile, hg]
    · rw [tile_modTile_ne _ _ _ _ h]

theorem modEach_tile_ne {l : List Nat} (ht : t ∉ l) (s : State) : (s.modEach l f).tile t = s.tile t := by
  induction l generalizing s with
  | nil => rfl
  | cons u l ih =>
    exact (ih (List.not_mem_of_not_mem_cons ht) (s.modTile u f)).trans (tile_modTile_ne _ _ _ _ (List.ne_of_not_mem_cons ht))

/-- A tile listed once is changed once. -/
theorem modEach_tile {l : List Nat} (hl : l.Nodup) (ht : t ∈ l) (s : State) : (s.modEach l f).tile t = f (s.tile t) := by
  induction l generalizing s with
  | nil => exact absurd ht List.not_mem_nil
  | cons u l ih =>
    obtain ⟨hu, hl⟩ := List.nodup_cons.1 hl
    rcases List.mem_cons.1 ht with rfl | ht
    · exact (modEach_tile_ne hu (s.modTile t f)).trans (tile_modTile ..)
    · exact (ih hl ht (s.modTile u f)).trans (congrArg f (tile_modTile_ne _ _ _ _ fun h => hu (h ▸ ht)))

/-- What every change leaves true holds of each tile listed. -/
theorem modEach_holds {P : Tile → Prop} (hf : ∀ x, P (f x)) {l : List Nat} (ht : t ∈ l) (s : State) : P ((s.modEach l f).tile t) := by
  induction l generalizing s with
  | nil => exact absurd ht List.not_mem_nil
  | cons u l ih =>
    by_cases hl : t ∈ l
    · exact ih hl (s.modTile u f)
    · rcases List.mem_cons.1 ht with rfl | ht
      · have := modEach_tile_ne (f := f) hl (s.modTile t f)
        exact (congrArg P (this.trans (tile_modTile ..))).mpr (hf _)
      · exact absurd ht hl

theorem modTiles_eq (s : State) (p : Nat) (f : Tile → Tile) : s.modTiles p f = s.modEach (s.tilesOf p) f := by
  have key (l : List Nat) (q : Part) (u : State) (hq : u.part p = q) :
      l.foldl (fun s lt => s.modTile ((s.part p).phys lt) f) u = u.modEach (l.map q.phys) f := by
    induction l generalizing u with
    | nil => rfl
    | cons lt l ih =>
      refine (ih (u.modTile ((u.part p).phys lt) f) hq).trans ?_
      rw [hq]
      rfl
  exact key _ _ s rfl

theorem modEach_tiles_congr {u : State} (h : u.tiles = s.tiles) (l : List Nat) (f : Tile → Tile) :
    (u.modEach l f).tiles = (s.modEach l f).tiles := by
  induction l generalizing s u with
  | nil => exact h
  | cons t l ih =>
    refine ih (s := s.modTile t f) (u := u.modTile t f) ?_
    have ht : u.tile t = s.tile t := congrArg (Map.get · tile0 t) h
    exact congrArg₂ (fun (m : Map Tile) x => m.put t (f x)) h ht

theorem modTiles_outside (s : State) (p : Nat) (f : Tile → Tile) : s.modTiles p f = { s with tiles := (s.modTiles p f).tiles } := by
  rw [modTiles_eq]
  exact modEach_eq ..

/-! ### The tiles of a partition -/

theorem mem_tilesOf {p : Nat} : t ∈ s.tilesOf p ↔ ∃ lt, lt < 64 * (s.part p).bind.length ∧ (s.part p).phys lt = t := by
  simp only [tilesOf, upto, List.mem_map, List.mem_range, Part.tiles]

theorem forall_tilesOf {p : Nat} {P : Nat → Prop} : (∀ t ∈ s.tilesOf p, P t) ↔ allTiles s p P := by
  constructor
  · exact fun h lt hlt => h _ (mem_tilesOf.2 ⟨lt, hlt, rfl⟩)
  · rintro h t ht
    obtain ⟨lt, hlt, rfl⟩ := mem_tilesOf.1 ht
    exact h lt hlt

theorem all_tilesOf {p : Nat} {f : Nat → Bool} {P : Nat → Prop} (h : ∀ t, f t = true ↔ P t) :
    (s.tilesOf p).all f = true ↔ allTiles s p P := by
  rw [List.all_eq_true, ← forall_tilesOf]
  exact forall_congr' fun t => imp_congr_right fun _ => h t

theorem tilesOf_congr {u : State} {p : Nat} (h : (u.part p).bind = (s.part p).bind) : u.tilesOf p = s.tilesOf p := by
  have hphys : (u.part p).phys = (s.part p).phys := funext fun lt => by unfold Part.phys; rw [h]
  unfold tilesOf Part.tiles
  rw [hphys, h]

end State

/-! ### What the controller asks -/

theorem sigsFit_iff (x : Tile) : x.sigsFit = true ↔ ∀ e, e ≠ .tsq →
    (ringFifo x e false).length + ((x.pos e).sigs.filter (·.sp)).length ≤ 8
      ∧ (ringFifo x e true).length + ((x.pos e).sigs.filter (·.ss)).length ≤ 8 := by
  simp only [Tile.sigsFit, allEngines_iff, ringFifo_eq, Bool.and_eq_true, decide_eq_true_eq]

theorem arrived_iff (x : Tile) : State.arrived x = true ↔ Arrived x := by
  have hphase : (x.seat.phase % 2 == 1) = false ↔ x.seat.phase % 2 = 0 := by
    rw [beq_eq_false_iff_ne]
    omega
  simp only [State.arrived, Arrived, Bool.or_eq_true, Bool.and_eq_true, sigsFit_iff, quiet_iff, seqIdle_iff, List.isEmpty_iff, and_assoc]
  refine or_congr Iff.rfl (and_congr Iff.rfl (and_congr Iff.rfl (and_congr Iff.rfl (and_congr Iff.rfl (and_congr Iff.rfl (and_congr Iff.rfl ?_))))))
  rw [← hphase, or_iff_not_imp_left, Bool.not_eq_true]

theorem satisfied_iff (x : Tile) : State.satisfied x = true ↔ ∀ e ∈ x.xp.active, e.2.live = true → e.2.count = 0 := by
  simp only [State.satisfied, List.all_eq_true, Bool.or_eq_true, Bool.not_eq_true', beq_iff_eq]
  exact forall_congr' fun e => imp_congr_right fun _ => by rw [← Bool.not_eq_true, imp_iff_not_or]

theorem complete_iff (s : State) (p : Nat) : s.complete p = true ↔ Complete s p := by
  have hall := State.all_tilesOf (s := s) (p := p) fun t => arrived_iff (s.tile t)
  have hsat := State.all_tilesOf (s := s) (p := p) fun t => satisfied_iff (s.tile t)
  simp only [State.complete, Complete, Bool.and_eq_true, Bool.or_eq_true, beq_iff_eq, List.isEmpty_iff, and_assoc, hall, hsat,
    Bool.not_eq_true', List.any_eq_false]
  refine and_congr Iff.rfl (and_congr Iff.rfl ?_)
  rw [or_iff_not_imp_left]
  refine imp_congr_right fun _ => and_comm.trans (and_congr ?_ Iff.rfl)
  simp

theorem hasArrived_iff (s : State) (q : Part) (t : Nat) :
    s.hasArrived q t = true ↔ (s.tile t).stop.halted = true ∨ (t / 64 ∉ q.opening ∧ Arrived (s.tile t)) := by
  simp only [State.hasArrived, Bool.or_eq_true, Bool.and_eq_true, arrived_iff, Bool.not_eq_true', List.contains_eq_mem, decide_eq_false_iff_not]
  rfl

theorem quiescent_iff (s : State) (t : Nat) : s.quiescent t = true ↔ stillAtLaunch s t := by
  simp only [State.quiescent, stillAtLaunch, Bool.and_eq_true, Bool.not_eq_true', List.isEmpty_iff, quiet_iff, and_assoc, List.any_eq_false, Bool.and_eq_true, Bool.or_eq_true,
    beq_iff_eq, not_and_or, not_or, ← imp_iff_not_or]

theorem phaseEntry_eq (img : Image) (n : Nat) : State.phaseEntry img n = entryFor img n := by
  unfold State.phaseEntry entryFor
  cases (img.phases.filter fun e => decide (e.1 ≤ n)).getLast? <;> rfl

theorem linkHold_iff (s : State) : s.linkHold = true ↔ Reconfiguring s := by
  simp only [State.linkHold, Reconfiguring, List.any_eq_true, Bool.and_eq_true, Bool.or_eq_true, beq_iff_eq, or_assoc]

theorem foldl_max_le {l : List Nat} {a n : Nat} : l.foldl max a ≤ n ↔ a ≤ n ∧ ∀ k ∈ l, k ≤ n := by
  induction l generalizing a with
  | nil => simp
  | cons k l ih =>
    rw [List.foldl_cons, ih, List.forall_mem_cons, Nat.max_le, and_assoc]

theorem mem_diesOf {q : Part} {d : Nat} : d ∈ q.diesOf ↔ d < 8 ∧ q.dies.getLsbD d = true := by
  rw [Part.diesOf, List.mem_filter, List.mem_range]

theorem lead_eq {q : Part} {l : Nat} (hl : l < 8 ∧ q.dies.getLsbD l = true) (hmin : ∀ d, d < 8 ∧ q.dies.getLsbD d = true → l ≤ d) :
    State.lead q = l := by
  have hsorted : q.diesOf.Pairwise (· < ·) := List.pairwise_lt_range.filter _
  have hmem := mem_diesOf.2 hl
  unfold State.lead
  cases hq : q.diesOf with
  | nil => rw [hq] at hmem; exact absurd hmem List.not_mem_nil
  | cons d r =>
    rw [hq] at hmem hsorted
    have hd : l ≤ d := hmin d (mem_diesOf.1 (hq ▸ List.mem_cons_self))
    rcases List.mem_cons.1 hmem with rfl | hr
    · rfl
    · exact absurd ((List.pairwise_cons.1 hsorted).1 l hr) (Nat.not_lt.2 hd)

/-- The lead that R34 takes for one die of a partition, from the effective latency and skew of its pair (R356). -/
def leadPair (s : State) (l d : Nat) : Nat :=
  let ov := (s.pkg.overlayNow.get 0#32 (8 * l + d)).toNat
  if d = l then 8 else 8 + min (Config.minLat l d + ov % 65536) 65535 + min (Config.maxSkew l d + ov / 65536) 65535

theorem leadPair_eq (s : State) (l d : Nat) : leadPair s l d = 8 + (s.pairLat l d + s.pairSkew l d) := by
  have hlt := (s.pkg.overlayNow.get 0#32 (8 * l + d)).isLt
  have hhigh : ((s.pkg.overlayNow.get 0#32 (8 * l + d)).extractLsb' 16 16).toNat = (s.pkg.overlayNow.get 0#32 (8 * l + d)).toNat / 65536 := by
    rw [BitVec.extractLsb'_toNat, Nat.shiftRight_eq_div_pow]
    omega
  simp only [leadPair, State.pairLat, State.pairSkew, hhigh, low16_toNat, eq_comm (a := l)]
  split
  · rfl
  · omega

/-- R34's Lb is the largest over the dies of the partition. -/
theorem boundaryLead_eq {s : State} {q : Part} {n : Nat} (h : BoundaryLead s q n) : s.boundaryLead q = n := by
  obtain ⟨l, hl, hmin, hle, d, hd, hn⟩ := h
  have hle (k : Nat) (hk : k ∈ q.diesOf) : leadPair s l k ≤ n := hle k (mem_diesOf.1 hk)
  have hn : n = leadPair s l d := hn
  unfold State.boundaryLead
  rw [lead_eq hl hmin]
  simp only [leadPair_eq] at hle hn
  have hmax := foldl_max_le (l := q.diesOf.map fun k => s.pairLat l k + s.pairSkew l k) (a := 0) (n := s.pairLat l d + s.pairSkew l d)
  have hmem := (foldl_max_le.1 (Nat.le_refl (maxOf 0 (q.diesOf.map fun k => s.pairLat l k + s.pairSkew l k)))).2 _
    (List.mem_map_of_mem (mem_diesOf.2 hd))
  have hall := hmax.2 ⟨Nat.zero_le _, List.forall_mem_map.2 fun k hk => by have := hle k hk; omega⟩
  unfold maxOf at hmem ⊢
  omega

/-! ### What the controller does -/

theorem logExtension_kept (s : State) (q : Part) : Kept s (s.logExtension q) := by
  unfold State.logExtension
  dsimp only
  split
  · exact Kept.log ..
  · exact Kept.ite (fun _ => Kept.log ..) fun _ => Kept.refl s
  · exact Kept.refl s

/-- A STATUS word, where it is owed, changes nothing of a partition but that it is owed no more. -/
theorem writeStatus_spec (s : State) (p : Nat) (w : DWord) : ∃ l, (s.writeStatus p w).part p = { s.part p with launch := l }
    ∧ (s.writeStatus p w).tiles = s.tiles ∧ (s.writeStatus p w).copies = s.copies := by
  unfold State.writeStatus
  dsimp only
  split
  · exact ⟨_, rfl, rfl, rfl⟩
  · have hk := Kept.storeStatus (s.modPart p fun q => { q with launch := { q.launch with owed := false } })
      ⟨State.lead (s.part p), (s.part p).launch.pasid, (s.part p).launch.queue, (s.part p).launch.status, (s.part p).phase, w⟩
    exact ⟨_, (hk.part p).trans (State.part_modPart ..), hk.tiles, hk.copies⟩

/-- A timetable that ends writes its STATUS and leaves no PREEMPT request pending (R338, R345). -/
theorem endStatus_spec (s : State) (p res : Nat) (w : DWord) : ∃ l,
    ((s.writeStatus p w).endPreempt p res).part p = { s.part p with launch := l, preempt := [] }
    ∧ ((s.writeStatus p w).endPreempt p res).tiles = s.tiles ∧ ((s.writeStatus p w).endPreempt p res).copies = s.copies := by
  obtain ⟨l, hp, ht, hc⟩ := writeStatus_spec s p w
  refine ⟨l, (State.part_modPart ..).trans ?_, ht, hc⟩
  exact congrArg (fun q : Part => { q with preempt := [] }) hp

/-- A tile whose engines stand still. -/
def Tile.still (x : Tile) : Tile := { x with seat := { x.seat with run := false } }

/-- Entry into ABORTED: the engines stand still, the copies still waiting are gone (R302). -/
theorem abortPart_spec (s : State) (p : Nat) : (s.abortPart p).part p = { s.part p with st := .aborted, since := s.ticks }
    ∧ (∀ t, ((s.abortPart p).tile t).stop = (s.tile t).stop)
    ∧ (s.abortPart p).copies = s.copies.filter fun c => !(c.part == p && (c.st == .armed || c.st == .buffered)) := by
  have hlog := logExtension_kept s (s.part p)
  have hr := State.modTiles_outside ((s.logExtension (s.part p)).discardCopies p) p Tile.still
  have hstop (t : Nat) : ((((s.logExtension (s.part p)).discardCopies p).modTiles p Tile.still).tile t).stop = (s.tile t).stop := by
    rw [State.modTiles_eq, State.modEach_keeps (f := Tile.still) Tile.stop fun _ => rfl]
    exact congrArg Tile.stop (hlog.tile t)
  have hpart : (((s.logExtension (s.part p)).discardCopies p).modTiles p Tile.still).part p = s.part p :=
    (congrArg (State.part · p) hr).trans (hlog.part p)
  have hticks : (((s.logExtension (s.part p)).discardCopies p).modTiles p Tile.still).ticks = s.ticks :=
    (congrArg State.ticks hr).trans hlog.ticks
  refine ⟨(State.part_modPart ..).trans ?_, hstop, ?_⟩
  · exact congrArg₂ (fun (q : Part) n => { q with st := .aborted, since := n }) hpart hticks
  · exact (congrArg State.copies hr).trans (congrArg (List.filter _) hlog.copies)

/-- A partition that aborts: ABORTED, nothing pending; its tiles stand still, the copies still waiting are gone (R302). -/
theorem abort_spec (s : State) (p : Nat) : ∃ l, (s.abort p).part p = { s.part p with
      st := .aborted, since := s.ticks, opening := [], next := none, saveLeft := [], launch := l, preempt := [] }
    ∧ (∀ t, ((s.abort p).tile t).stop = (s.tile t).stop)
    ∧ (s.abort p).copies = s.copies.filter fun c => !(c.part == p && (c.st == .armed || c.st == .buffered)) := by
  obtain ⟨hpart, hstop, hcopies⟩ := abortPart_spec s p
  let u := (s.abortPart p).modPart p fun q => { q with opening := [], next := none, saveLeft := [] }
  obtain ⟨l, hp, ht, hc⟩ := endStatus_spec u p 1 (State.statusWord 2 (u.earliest p) (u.part p).phase)
  have hup : u.part p = { s.part p with st := .aborted, since := s.ticks, opening := [], next := none, saveLeft := [] } :=
    (State.part_modPart ..).trans (congrArg (fun q : Part => { q with opening := [], next := none, saveLeft := [] }) hpart)
  refine ⟨l, hp.trans (congrArg (fun q : Part => { q with launch := l, preempt := [] }) hup), fun t => ?_, hc.trans hcopies⟩
  exact (congrArg (fun m => (Map.get m State.tile0 t).stop) ht).trans (hstop t)

/-! ### The tags of a phase that completes (R114) -/

/-- One frame's new tag. -/
def tagStep (step : Nat) (m : Map Word) (e : Nat × FrameSrc) : Map Word :=
  match e.2 with
  | .none => m
  | .one src => m.set 0#32 e.1 (BitVec.ofNat 32 (step * 65536 + 0x4000 + src))
  | .many => m.set 0#32 e.1 (BitVec.ofNat 32 (step * 65536 + 0x8000))

/-- The tag that a frame's sources give, over the one that it had. -/
def tagFrom (step : Nat) (src : FrameSrc) (old : Word) : Word :=
  match src with
  | .one src => BitVec.ofNat 32 (65536 * step + 0x4000 + src)
  | .many => BitVec.ofNat 32 (65536 * step + 0x8000)
  | .none => old

theorem tagStep_same (step : Nat) (m : Map Word) (e : Nat × FrameSrc) : (tagStep step m e).get 0#32 e.1 = tagFrom step e.2 (m.get 0#32 e.1) := by
  obtain ⟨f, src⟩ := e
  cases src with
  | none => rfl
  | one src => exact (Map.get_set_same ..).trans (by rw [Nat.mul_comm]; rfl)
  | many => exact (Map.get_set_same ..).trans (by rw [Nat.mul_comm]; rfl)

theorem tagStep_ne (step : Nat) (m : Map Word) (e : Nat × FrameSrc) (f : Nat) (h : f ≠ e.1) : (tagStep step m e).get 0#32 f = m.get 0#32 f := by
  obtain ⟨k, src⟩ := e
  cases src with
  | none => rfl
  | one src => exact Map.get_set_ne _ _ _ _ _ h
  | many => exact Map.get_set_ne _ _ _ _ _ h

/-- Where each frame is listed once, its tag is what its sources give. -/
theorem tags_get (step : Nat) (l : Map FrameSrc) (hl : (l.map (·.1)).Nodup) (m : Map Word) (f : Nat) :
    (l.foldl (tagStep step) m).get 0#32 f = tagFrom step (l.get .none f) (m.get 0#32 f) := by
  induction l generalizing m with
  | nil => rfl
  | cons e l ih =>
    obtain ⟨he, hl⟩ := List.nodup_cons.1 hl
    rw [List.foldl_cons, ih hl]
    obtain ⟨k, src⟩ := e
    rw [Map.get_cons]
    split
    · next hk =>
      subst hk
      have habsent : Map.get l FrameSrc.none k = .none :=
        Map.get_absent _ _ _ fun e hmem hek => he (List.mem_map.2 ⟨e, hmem, hek⟩)
      rw [habsent]
      exact tagStep_same step m (k, src)
    · next hk => rw [tagStep_ne step m (k, src) f (Ne.symm hk)]

theorem newTags_tagged (x : Tile) : Tagged x (State.newTags x) := by
  intro hl
  refine ⟨rfl, fun f => ?_⟩
  have htags : (State.newTags x).frames.tags = x.frames.srcs.foldl (tagStep (x.seat.phase / 2 % 65536)) x.frames.tags := rfl
  rw [htags, tags_get _ _ hl]
  unfold tagFrom
  cases x.frames.srcs.get .none f <;> rfl

/-- The tiles of a partition as its exchange phase completes. -/
theorem tagged_of_frames {s u : State} {p : Nat} (hl : (s.tilesOf p).Nodup)
    (h : ∀ t, (u.tile t).frames = ((s.modEach (s.tilesOf p) State.newTags).tile t).frames) :
    allTiles s p fun t => Tagged (s.tile t) (u.tile t) := by
  refine State.forall_tilesOf.1 fun t ht => ?_
  have hframes := (h t).trans (congrArg Tile.frames (State.modEach_tile hl ht s))
  unfold Tagged
  rw [hframes]
  exact newTags_tagged (s.tile t)

/-! ### Each event of the controller -/

section
variable {s : State} {p : Nat}

theorem launchStart_eq {o : Nat} (hst : (s.part p).st = .armed) (hn : (s.part p).next = some o) (hf : (s.part p).since ≠ s.ticks) :
    exec (.launchStart p) s = .next (if s.time < o then s else if (s.tilesOf p).all s.quiescent then
      s.modPart p fun q => { q with
        st := .open_, since := s.ticks, origin := o, next := none, opening := q.bind
        deadline := o + (State.phaseEntry q.img q.phase).1, slimNow := q.slim.toNat }
      else (s.modPart p fun q => { q with cause := some Cause.launchSlip }).abort p) := by
  have hx : exec (.launchStart p) s = .next (s.launchStart p) := rfl
  have hfree : s.free_ (s.part p) = true := bne_iff_ne.2 hf
  unfold State.launchStart at hx
  simp only [hst, hn, hfree, Bool.not_true, Bool.false_or, decide_eq_true_eq] at hx
  exact hx

theorem halted_iff : ((s.tilesOf p).all fun t => (s.tile t).stop.halted) = true ↔ allTiles s p fun t => (s.tile t).stop.halted = true :=
  State.all_tilesOf fun _ => Iff.rfl

theorem phaseComplete_goes (hf : (s.part p).since ≠ s.ticks) (hst : (s.part p).st = .open_ ∨ (s.part p).st = .extended) (hc : Complete s p)
    (hh : (s.part p).st = .extended ∨ ¬allTiles s p fun t => (s.tile t).stop.halted = true) :
    exec (.phaseComplete p) s = .next (s.toBoundary p) := by
  refine congrArg Host.Outcome.next (if_neg ?_)
  have hfree : s.free_ (s.part p) = true := bne_iff_ne.2 hf
  rw [hfree, (complete_iff s p).2 hc]
  rw [← halted_iff] at hh
  rcases hh with hh | hh
  · simp [hh]
  · rcases hst with hst | hst <;> simp [hst, hh]

theorem phaseComplete_stays (h : ((s.part p).st ≠ .open_ ∧ (s.part p).st ≠ .extended) ∨ ¬Complete s p) :
    exec (.phaseComplete p) s = .next s := by
  refine congrArg Host.Outcome.next (if_pos ?_)
  rcases h with ⟨h1, h2⟩ | h
  · simp [h1, h2]
  · have hc : s.complete p = false := Bool.eq_false_iff.2 (mt (complete_iff s p).1 h)
    simp [hc]

theorem logExtension_inside (s : State) (q : Part) : Inside s (s.logExtension q) ∧ (s.logExtension q).tiles = s.tiles := by
  unfold State.logExtension
  dsimp only
  split
  · exact ⟨Inside.modDie .., rfl⟩
  · split
    · exact ⟨Inside.modDie .., rfl⟩
    · exact ⟨rfl, rfl⟩
  · exact ⟨rfl, rfl⟩

/-- A partition that enters BOUNDARY (R34, R114, R356, R369). -/
theorem toBoundary_spec (s : State) (p : Nat) : (s.toBoundary p).part p = { s.part p with
      st := .boundary, since := s.ticks, straggling := [], recOld := [], opening := (s.part p).bind
      next := if (s.part p).phase % 2 == 0 && s.linkHold then none else some (s.time + s.boundaryLead (s.part p))
      lead := s.boundaryLead (s.part p) }
    ∧ (s.toBoundary p).mem = s.mem
    ∧ (s.toBoundary p).tiles = (if (s.part p).phase % 2 = 1 then s.modEach (s.tilesOf p) State.newTags else s).tiles := by
  obtain ⟨hlog, htiles⟩ := logExtension_inside s (s.part p)
  have hlist : (s.logExtension (s.part p)).tilesOf p = s.tilesOf p := State.tilesOf_congr (congrArg Part.bind (hlog.part p))
  have hu : ∃ u, Inside s u ∧ u.tiles = (if (s.part p).phase % 2 = 1 then s.modEach (s.tilesOf p) State.newTags else s).tiles
      ∧ s.toBoundary p = u.modPart p fun q => { q with
        st := .boundary, since := u.ticks, straggling := [], recOld := [], opening := q.bind
        next := if (s.part p).phase % 2 == 0 && u.linkHold then none else some (u.time + u.boundaryLead q)
        lead := u.boundaryLead q } := by
    refine ⟨_, ?_, ?_, rfl⟩
    · split
      · exact hlog.trans (Inside.foldl _ (fun _ _ => Inside.modTile ..) _ _)
      · exact hlog
    · split
      · rw [hlist]
        exact State.modEach_tiles_congr htiles _ _
      · exact htiles
  obtain ⟨u, hin, hut, heq⟩ := hu
  rw [heq]
  refine ⟨(State.part_modPart ..).trans ?_, hin.mem, hut⟩
  rw [hin.part, hin.eq]
  rfl

/-- The controller opens the next phase at its origin (R34, R35). -/
theorem controllerOpen_opens {o : Nat} (hst : (s.part p).st = .boundary) (hn : (s.part p).next = some o) (hf : (s.part p).since ≠ s.ticks)
    (ho : o ≤ s.time) : s.controllerOpen p = s.modPart p fun q => { q with
      st := if (s.tilesOf p).any fun t => (s.tile t).stop.frozen then .held else .open_, heldFrom := .open_, heldAt := o
      phase := q.phase + 1, origin := o
      next := none, since := s.ticks, deadline := o + (State.phaseEntry q.img (q.phase + 1)).1, slimNow := q.slim.toNat } := by
  have hwait : ¬(!s.free_ (s.part p) || decide (s.time < o)) = true := by simp [State.free_, hf, ho]
  unfold State.controllerOpen
  simp only [hst, hn, if_neg hwait]

theorem controllerOpen_stays (h : (s.part p).st = .boundary → ∀ o, (s.part p).next = some o → s.time < o) : s.controllerOpen p = s := by
  unfold State.controllerOpen
  dsimp only
  split
  · next o hst hn => exact if_pos (by simp [h hst o hn])
  · rfl

/-- A die that has opened the phase opens it no more. -/
theorem dieOpen_opened {d : Nat} (hd : d ∉ (s.part p).opening) : s.dieOpen p d = s := by
  unfold State.dieOpen
  dsimp only
  split
  · rfl
  · exact if_pos (by simp [hd])

theorem frozen_iff : ((s.tilesOf p).any fun t => (s.tile t).stop.frozen) = false ↔ allTiles s p fun t => (s.tile t).stop.frozen = false := by
  rw [List.any_eq_false, ← State.forall_tilesOf]
  simp only [Bool.not_eq_true]

theorem deadlineReached_eq (hst : (s.part p).st = .open_) (hf : (s.part p).since ≠ s.ticks) : exec (.deadlineReached p) s = .next
    (if s.time < (s.part p).deadline then s else s.modPart p fun q => { q with
      st := .extended, since := s.ticks, extStart := q.deadline
      straggling := (upto (s.part p).tiles).filter fun lt => !s.hasArrived (s.part p) ((s.part p).phys lt) }) := by
  have hx : exec (.deadlineReached p) s = .next (s.deadlineReached p) := rfl
  have hfree : s.free_ (s.part p) = true := bne_iff_ne.2 hf
  unfold State.deadlineReached at hx
  simp only [hst, hfree, ne_eq, not_true, decide_false, Bool.not_true, Bool.false_or, decide_eq_true_eq] at hx
  exact hx

/-! ### Frozen tiles (R36, R298) -/

theorem noResume_frozen (s : State) (t u : Nat) : ((s.noResume t).tile u).stop.frozen = (s.tile u).stop.frozen := by
  by_cases h : u = t
  · rw [h, State.noResume, State.tile_modTile]
  · rw [State.noResume, State.tile_modTile_ne _ _ _ _ h]

theorem freezeAt_frozen (s : State) (t : Nat) (i : TrapInfo) (unit : Nat) (loc : DWord) (u : Nat) :
    ((s.freezeAt t i unit loc).tile u).stop.frozen = true ↔ u = t ∨ (s.tile u).stop.frozen = true := by
  unfold State.freezeAt
  dsimp only
  split
  · next hfr =>
    have htu : (s.tile u).stop.frozen = true ↔ u = t ∨ (s.tile u).stop.frozen = true :=
      ⟨.inr, fun h => h.elim (fun h => h ▸ hfr) id⟩
    split
    · rw [noResume_frozen]
      exact htu
    · exact htu
  · have hset (r : State) (f : Tile → Tile) (hf : ∀ x, (f x).stop.frozen = true) (hr : r.tile u = s.tile u) :
        ((r.modTile t f).tile u).stop.frozen = true ↔ u = t ∨ (s.tile u).stop.frozen = true := by
      by_cases h : u = t
      · rw [h, State.tile_modTile, hf]; simp
      · rw [State.tile_modTile_ne _ _ _ _ h, hr]; simp [h]
    have hhold (r : State) (p : Nat) : (r.holdPart p).tile u = r.tile u := rfl
    split
    · rw [hhold]
      exact hset _ _ (fun _ => rfl) rfl
    · exact hset _ _ (fun _ => rfl) rfl

theorem freezeEach_frozen {f : State → Nat → State} (hf : ∀ s t u, ((f s t).tile u).stop.frozen = true ↔ u = t ∨ (s.tile u).stop.frozen = true)
    (l : List Nat) (s : State) (u : Nat) : ((l.foldl f s).tile u).stop.frozen = true ↔ u ∈ l ∨ (s.tile u).stop.frozen = true := by
  induction l generalizing s with
  | nil => simp
  | cons t l ih => rw [List.foldl_cons, ih, hf, List.mem_cons, or_left_comm, or_assoc]

/-- The straggler limit: every tile still straggling freezes, and the partition aborts (R36). -/
theorem stragglerLimit_spec (hst : (s.part p).st = .extended) (hf : (s.part p).since ≠ s.ticks)
    (ht : (s.part p).deadline + (s.part p).slimNow ≤ s.time) : ∃ r, exec (.stragglerLimit p) s = .next r ∧ (r.part p).st = .aborted
      ∧ ((∀ lt ∈ (s.part p).straggling, s.hasArrived (s.part p) ((s.part p).phys lt) = true) → (r.part p).cause = some 0x13)
      ∧ ∀ lt ∈ (s.part p).straggling, s.hasArrived (s.part p) ((s.part p).phys lt) = false →
          (r.tile ((s.part p).phys lt)).stop.frozen = true := by
  let late := ((s.part p).straggling.map (s.part p).phys).filter fun t => !s.hasArrived (s.part p) t
  let u := late.foldl (fun r t => r.trapAsync t Cause.straggler (BitVec.ofNat 64 (r.time - (s.part p).extStart)) 0 none) s
  let v := if late.isEmpty then u.modPart p fun q => { q with cause := some Cause.straggler } else u
  have hx : exec (.stragglerLimit p) s = .next (v.abort p) :=
    congrArg Host.Outcome.next (if_neg (by simp [hst, State.free_, hf, ht]))
  obtain ⟨l, hpart, hstop, -⟩ := abort_spec v p
  refine ⟨v.abort p, hx, congrArg Part.st hpart, fun hall => ?_, fun lt hlt hnot => ?_⟩
  · have hlate : late = [] := by
      refine List.filter_eq_nil_iff.2 fun t ht => ?_
      obtain ⟨lt, hlt, rfl⟩ := List.mem_map.1 ht
      simp [hall lt hlt]
    have hv : v = u.modPart p fun q => { q with cause := some Cause.straggler } := if_pos (by rw [hlate]; rfl)
    exact (congrArg Part.cause hpart).trans ((congrArg (fun w : State => (w.part p).cause) hv).trans (congrArg Part.cause (State.part_modPart ..)))
  · have hmem : (s.part p).phys lt ∈ late := List.mem_filter.2 ⟨List.mem_map_of_mem hlt, by simp [hnot]⟩
    have hv : v = u := if_neg (by rw [List.isEmpty_iff]; exact List.ne_nil_of_mem hmem)
    rw [hstop, hv]
    exact (freezeEach_frozen (fun s t u => freezeAt_frozen s t _ _ _ u) late s _).2 (.inl hmem)

/-- A timetable that is over: DONE, its tiles standing still with the tags of their last exchange phase (R39, R114). -/
theorem partitionDone_spec (hst : (s.part p).st = .open_) (hf : (s.part p).since ≠ s.ticks) (hc : Complete s p)
    (hh : allTiles s p fun t => (s.tile t).stop.halted = true) : ∃ r, exec (.partitionDone p) s = .next r
      ∧ (r.part p).st = .done ∧ (r.part p).preempt = [] ∧ (r.part p).bind = (s.part p).bind
      ∧ (∀ t ∈ s.tilesOf p, (r.tile t).seat.run = false)
      ∧ ((s.part p).phase % 2 = 1 → ∀ t, (r.tile t).frames = ((s.modEach (s.tilesOf p) State.newTags).tile t).frames) := by
  let u := if (s.part p).phase % 2 = 1 then s.modEach (s.tilesOf p) State.newTags else s
  let v := (u.modTiles p Tile.still).modPart p fun q => { q with st := .done, since := (u.modTiles p Tile.still).ticks }
  have hx : exec (.partitionDone p) s = .next ((v.writeStatus p (State.statusWord 1 0 (s.part p).phase)).endPreempt p 1) := by
    refine congrArg Host.Outcome.next (if_neg ?_)
    have hfree : s.free_ (s.part p) = true := bne_iff_ne.2 hf
    rw [hfree, (complete_iff s p).2 hc, halted_iff.2 hh]
    simp [hst]
  have hin : Inside s u := by
    simp only [u]
    split
    · exact Inside.foldl _ (fun _ _ => Inside.modTile ..) _ _
    · exact Inside.refl s
  obtain ⟨l, hpart, htiles, -⟩ := endStatus_spec v p 1 (State.statusWord 1 0 (s.part p).phase)
  have hvp : v.part p = { s.part p with st := .done, since := (u.modTiles p Tile.still).ticks } := by
    simp only [v, State.part_modPart, State.modTiles_eq, State.modEach_part, hin.part]
  have htile (t : Nat) : (((v.writeStatus p (State.statusWord 1 0 (s.part p).phase)).endPreempt p 1).tile t) = (u.modTiles p Tile.still).tile t :=
    congrArg (Map.get · State.tile0 t) htiles
  refine ⟨_, hx, (congrArg Part.st hpart).trans (show (v.part p).st = .done from congrArg Part.st hvp), congrArg Part.preempt hpart,
    (congrArg Part.bind hpart).trans (show (v.part p).bind = (s.part p).bind by rw [hvp]), fun t ht => ?_, fun hodd t => ?_⟩
  · rw [htile, State.modTiles_eq]
    refine State.modEach_holds (P := fun x => x.seat.run = false) (fun _ => rfl) ?_ u
    rw [State.tilesOf_congr (congrArg Part.bind (hin.part p))]
    exact ht
  · rw [htile, State.modTiles_eq, State.modEach_keeps (f := Tile.still) Tile.frames fun _ => rfl]
    simp only [u, if_pos hodd]

/-- A partition whose origin was held takes it (R356, R369). -/
def Part.released (q : Part) (time : Nat) : Part :=
  if q.st == .boundary && q.next.isNone && q.phase % 2 == 0 then { q with next := some (time + q.lead) } else q

/-- Once no reconfiguration is left, an origin that was held is set by the Lb of the completion (R356, R369). -/
theorem releaseHeld_next (hl : s.linkHold = false) (hst : (s.part p).st = .boundary) (hn : (s.part p).next = none)
    (hp : (s.part p).phase % 2 = 0) : (s.releaseHeld.part p).next = some (s.time + (s.part p).lead) := by
  have hparts : s.releaseHeld.parts = s.parts.map fun e => (e.1, e.2.released s.time) := by
    unfold State.releaseHeld
    rw [hl]
    refine List.map_congr_left fun e _ => ?_
    unfold Part.released
    split <;> rfl
  have hget : s.releaseHeld.part p = (s.part p).released s.time := by
    unfold State.part
    rw [hparts]
    exact Map.get_mapValues (Part.released · s.time) State.part0 rfl _ _
  rw [hget]
  exact congrArg Part.next (if_pos (by simp [hst, hn, hp]))

end

end Sys2Proof.Machine

namespace Sys2Proof.Proofs
open Sys2Proof.Machine
open Claims (allTiles stillAtLaunch Arrived Complete BoundaryLead Reconfiguring Tagged)

/-- Settles O35: each transition of the controller by its conditions, which are the claims' own; what it leaves of the tiles is a change of
each tile of the partition. -/
theorem phaseEvents : Obligations.PhaseEvents := by
  intro s p q straggles halted
  have hstraggles (lt : Nat) : s.hasArrived q (q.phys lt) = false ↔ straggles lt :=
    Bool.eq_false_iff.trans (not_congr (hasArrived_iff s q (q.phys lt)))
  refine ⟨fun hl hst hn hp => releaseHeld_next (Bool.eq_false_iff.2 (mt (linkHold_iff s).1 hl)) hst hn hp, fun hf => ?_⟩
  refine ⟨fun o hst hn ho hq => ?_, fun o hst hn ho hq => ?_, fun o hst hn ho => ?_, fun hst hc hh => ?_, phaseComplete_stays,
    fun o d hst hn ho hd => ?_, fun hst hd => ?_, fun hst hd => ?_, fun hst hd => ?_, fun hst hd => ?_, fun hst hc hh => ?_⟩
  · have hall : (s.tilesOf p).all s.quiescent = true := (State.all_tilesOf fun t => quiescent_iff s t).2 hq
    rw [launchStart_eq hst hn hf, if_neg (Nat.not_lt.2 ho), if_pos hall]
    simp only [phaseEntry_eq]
    rfl
  · have hall : ¬(s.tilesOf p).all s.quiescent = true := mt (State.all_tilesOf fun t => quiescent_iff s t).1 hq
    obtain ⟨l, hpart, -, -⟩ := abort_spec (s.modPart p fun q => { q with cause := some Cause.launchSlip }) p
    refine ⟨_, ?_, congrArg Part.st hpart, (congrArg Part.cause hpart).trans (congrArg Part.cause (State.part_modPart ..))⟩
    rw [launchStart_eq hst hn hf, if_neg (Nat.not_lt.2 ho), if_neg hall]
  · rw [launchStart_eq hst hn hf, if_pos ho]
  · obtain ⟨hpart, hmem, htiles⟩ := toBoundary_spec s p
    have htile (t : Nat) : (s.toBoundary p).tile t = (if (s.part p).phase % 2 = 1 then s.modEach (s.tilesOf p) State.newTags else s).tile t :=
      congrArg (Map.get · State.tile0 t) htiles
    refine ⟨_, phaseComplete_goes hf hst hc hh, congrArg Part.st hpart, by rw [hpart], by rw [hpart], by rw [hpart], hmem, fun n hn => ?_, fun hr hp => ?_, fun hp hl => ?_, fun hp => ?_⟩
    · have hlead := boundaryLead_eq hn
      rw [hpart]
      by_cases hhold : ((s.part p).phase % 2 == 0 && s.linkHold) = true
      · obtain ⟨hp, hr⟩ := Bool.and_eq_true_iff.1 hhold
        exact .inr ⟨(linkHold_iff s).1 hr, beq_iff_eq.1 hp, if_pos hhold, hlead⟩
      · exact .inl ⟨hlead, (if_neg hhold).trans (by rw [hlead])⟩
    · rw [hpart]
      exact if_pos (by simp [(linkHold_iff s).2 hr, show (s.part p).phase % 2 = 0 from hp])
    · refine tagged_of_frames hl fun t => ?_
      rw [htile, if_pos hp]
    · rw [htiles, if_neg (by rw [hp]; decide)]
  · have hopen := controllerOpen_opens hst hn hf ho
    have hpart : (s.controllerOpen p).part p = { q with
        st := if (s.tilesOf p).any fun t => (s.tile t).stop.frozen then .held else .open_, heldFrom := .open_, heldAt := o
        phase := q.phase + 1, origin := o, next := none, since := s.ticks
        deadline := o + (State.phaseEntry q.img (q.phase + 1)).1, slimNow := q.slim.toNat } := by
      rw [hopen]
      exact State.part_modPart ..
    have hclosed : d ∉ ((s.controllerOpen p).part p).opening := by rw [hpart]; exact hd
    have hx : exec (.phaseOpen p d) s = .next (s.controllerOpen p) := congrArg Host.Outcome.next (dieOpen_opened hclosed)
    refine ⟨_, hx, by rw [hpart], by rw [hpart], by rw [hpart, phaseEntry_eq], by rw [hpart], fun hall => ?_, fun hall => ?_, ?_, ?_⟩
    · rw [hpart]
      exact if_neg (Bool.eq_false_iff.1 (frozen_iff.2 hall))
    · rw [hpart]
      exact if_pos ((Bool.not_eq_false _).mp (mt frozen_iff.1 hall))
    · rw [hopen]; rfl
    · rw [hopen]; rfl
  · refine ⟨_, (deadlineReached_eq hst hf).trans (congrArg Host.Outcome.next (if_neg (Nat.not_lt.2 hd))), fun lt => ?_⟩
    rw [List.mem_filter, upto, List.mem_range, Bool.not_eq_true', hstraggles]
    rfl
  · rw [deadlineReached_eq hst hf, if_pos hd]
  · obtain ⟨r, hr, hab, hcause, hfr⟩ := stragglerLimit_spec hst hf hd
    refine ⟨r, hr, hab, fun hall => hcause fun lt hlt => ?_, fun lt hlt hs => hfr lt hlt ((hstraggles lt).2 hs)⟩
    exact (Bool.not_eq_false _).mp (mt (hstraggles lt).1 (hall lt hlt))
  · exact congrArg Host.Outcome.next (if_pos (by simp [show s.time < (s.part p).deadline + (s.part p).slimNow from hd]))
  · obtain ⟨r, hr, hdone, hpre, hbind, hrun, hframes⟩ := partitionDone_spec hst hf hc hh
    refine ⟨r, hr, hdone, hpre, State.forall_tilesOf.1 fun t ht => hrun t ?_, fun hp hl => tagged_of_frames hl (hframes hp)⟩
    rwa [State.tilesOf_congr hbind] at ht

end Sys2Proof.Proofs
end

section
/-! PROOF. A die opens a phase (O36). -/

namespace Sys2Proof.Machine
open Claims (Opened WaitsFor Realigning)

/-! ### What an opening leaves on a tile -/

theorem enterPhase_opened (x : Tile) (n : Nat) : Opened x (State.enterPhase x n) n := by
  have hbuf (k : TReg) : ((State.enterPhase x n).ctl.rT k).buf = .empty := by
    have hk := Map.get_mapValues Target.emptied State.target0 rfl x.ctl.t k.toNat
    exact congrArg Target.buf hk
  have hodd (h : n % 2 = 1) : (State.enterPhase x n).xp = { count := 0, sealed := false, active := x.xp.staged, staged := [] } := if_pos h
  have hcount : (State.enterPhase x n).xp.count = 0 ∧ (State.enterPhase x n).xp.sealed = false := by
    by_cases h : n % 2 = 1
    · rw [hodd h]; exact ⟨rfl, rfl⟩
    · have heven : (State.enterPhase x n).xp = { x.xp with count := 0, sealed := false } := if_neg h
      rw [heven]; exact ⟨rfl, rfl⟩
  exact ⟨rfl, rfl, rfl, rfl, rfl, rfl, rfl, hcount.1, hcount.2, fun h => ⟨congrArg Xp.active (hodd h), congrArg Xp.staged (hodd h)⟩, hbuf,
    fun _ => rfl, rfl, rfl, rfl, rfl⟩

theorem startTile_opened (x : Tile) : Opened x (State.startTile x) x.seat.phase :=
  enterPhase_opened { x with seat := { x.seat with run := true } } x.seat.phase

theorem openTile_opened (x : Tile) : Opened x (State.openTile x) (x.seat.phase + 1) := enterPhase_opened x (x.seat.phase + 1)

/-! ### Each tile of a die opens the next phase -/

/-- The clock of a die: its count and its divisors. -/
structure SameClock (a b : Die) : Prop where
  cyc : b.cyc = a.cyc
  cur : b.cur = a.cur
  div : b.div = a.div
  divAt : b.divAt = a.divAt

theorem SameClock.refl (a : Die) : SameClock a a := ⟨rfl, rfl, rfl, rfl⟩

theorem SameClock.trans {a b c : Die} (h : SameClock a b) (h' : SameClock b c) : SameClock a c :=
  ⟨h'.cyc.trans h.cyc, h'.cur.trans h.cur, h'.div.trans h.div, h'.divAt.trans h.divAt⟩

/-- Entries for the error log change no tile and no clock. -/
structure Logged (s u : State) : Prop where
  inside : Inside s u
  tiles : u.tiles = s.tiles
  clock (d : Nat) : SameClock (s.die d) (u.die d)

theorem Logged.log (s : State) (d : Nat) (code : BitVec 8) (cls : BitVec 2) (eng : BitVec 3) (slot unit addr phase : Nat) (loc : DWord) :
    Logged s (s.log d code cls eng slot unit addr phase loc) := by
  refine ⟨Inside.modDie .., rfl, fun e => ?_⟩
  by_cases h : e = d
  · rw [h, State.log, State.die_modDie]; exact ⟨rfl, rfl, rfl, rfl⟩
  · rw [State.log, State.die_modDie_ne _ _ _ _ h]; exact SameClock.refl _

theorem Logged.foldl {α : Type} (f : State → α → State) (hf : ∀ u a, Logged u (f u a)) (l : List α) (u : State) : Logged u (l.foldl f u) := by
  induction l generalizing u with
  | nil => exact ⟨Inside.refl u, rfl, fun _ => SameClock.refl _⟩
  | cons a l ih =>
    have h := hf u a
    have h' := ih (f u a)
    exact ⟨h.inside.trans h'.inside, h'.tiles.trans h.tiles, fun d => (h.clock d).trans (h'.clock d)⟩

/-- A saturated semaphore is logged, and its mark cleared (R50). -/
theorem logSaturated_spec (s : State) (t : Nat) : ∃ u, Logged s u
    ∧ s.logSaturated t = u.modTile t fun x => { x with sync := { x.sync with semSat := [] } } :=
  ⟨_, Logged.foldl _ (fun _ _ => Logged.log ..) _ _, rfl⟩

/-- The tiles of a list open the next phase. -/
def State.openEach (s : State) (ts : List Nat) : State := ts.foldl (fun s t => (s.logSaturated t).modTile t State.openTile) s

theorem openEach_step (s : State) (t : Nat) : ∃ u, Logged s u ∧ (s.logSaturated t).modTile t State.openTile = u.modTile t State.openTile := by
  obtain ⟨u, hu, heq⟩ := logSaturated_spec s t
  refine ⟨u, hu, ?_⟩
  rw [heq, State.modTile_modTile]
  rfl

theorem openEach_spec (ts : List Nat) (s : State) : Inside s (s.openEach ts) ∧ (∀ d, SameClock (s.die d) ((s.openEach ts).die d))
    ∧ (s.openEach ts).tiles = (s.modEach ts State.openTile).tiles := by
  induction ts generalizing s with
  | nil => exact ⟨Inside.refl s, fun _ => SameClock.refl _, rfl⟩
  | cons t ts ih =>
    obtain ⟨u, hu, hstep⟩ := openEach_step s t
    have heq : s.openEach (t :: ts) = (u.modTile t State.openTile).openEach ts := congrArg (State.openEach · ts) hstep
    obtain ⟨hin, hclock, htiles⟩ := ih (u.modTile t State.openTile)
    rw [heq]
    refine ⟨(hu.inside.trans (Inside.modTile ..)).trans hin, fun d => (hu.clock d).trans (hclock d), htiles.trans ?_⟩
    exact State.modEach_tiles_congr (State.modEach_tiles_congr hu.tiles [t] State.openTile) ts State.openTile

/-! ### A die opens (R34, R41, R363, R369) -/

/-- A reconfiguration at a die holds its divisor (R369). -/
def LinkBusy (s : State) (d : Nat) : Prop :=
  ∃ e ∈ s.links, e.1 < 12 ∧ ((linkSites e.1).1 = Config.dieSite d ∨ (linkSites e.1).2 = Config.dieSite d)
    ∧ (e.2.st = .draining ∨ e.2.st = .paused ∨ (e.2.st = .training ∧ e.2.req = true))

theorem applyDivisor_busy {s : State} {d : Nat} (h : LinkBusy s d) : s.applyDivisor d = s := by
  unfold LinkBusy at h
  refine if_pos ?_
  simpa only [List.any_eq_true, Bool.and_eq_true, Bool.or_eq_true, beq_iff_eq, decide_eq_true_eq, and_assoc, or_assoc] using h

theorem applyDivisor_free {s : State} {d : Nat} (h : ¬LinkBusy s d) :
    s.applyDivisor d = s.modDie d fun x => { x with cur := x.div, divAt := none } := by
  unfold LinkBusy at h
  refine if_neg ?_
  simpa only [List.any_eq_true, Bool.and_eq_true, Bool.or_eq_true, beq_iff_eq, decide_eq_true_eq, and_assoc, or_assoc] using h

theorem realigns_iff (s : State) (p d : Nat) : s.realigns (s.dieTiles p d) = true ↔ Realigning s p d := by
  simp only [State.realigns, List.all_eq_true, Bool.and_eq_true, Bool.or_eq_true, beq_iff_eq]
  rfl

/-- A partition that waits for a die no more. -/
def State.closeOpening (s : State) (p d : Nat) : State := s.modPart p fun q => { q with opening := q.opening.filter (· != d) }

/-- A die that realigns takes package time as its count (R41). -/
def State.realign (s : State) (d : Nat) (re : Bool) : State := if re then s.modDie d fun x => { x with cyc := s.time } else s

/-- The next phase, open on a die but for its copies. -/
def State.openNext (s : State) (p d : Nat) : State :=
  (((s.closeOpening p d).realign d (s.realigns (s.dieTiles p d))).openEach (s.dieTiles p d)).applyDivisor d

section
variable {s : State} {p d o : Nat}

theorem realign_inside (re : Bool) : Inside s (s.realign d re) ∧ (s.realign d re).tiles = s.tiles := by
  unfold State.realign
  split
  · exact ⟨Inside.modDie .., rfl⟩
  · exact ⟨Inside.refl s, rfl⟩

theorem applyDivisor_inside : Inside s (s.applyDivisor d) ∧ (s.applyDivisor d).tiles = s.tiles := by
  by_cases h : LinkBusy s d
  · rw [applyDivisor_busy h]; exact ⟨Inside.refl s, rfl⟩
  · rw [applyDivisor_free h]; exact ⟨Inside.modDie .., rfl⟩

theorem openNext_inside : Inside (s.closeOpening p d) (s.openNext p d) :=
  ((realign_inside _).1.trans (openEach_spec _ _).1).trans applyDivisor_inside.1

theorem openNext_tiles : (s.openNext p d).tiles = (s.modEach (s.dieTiles p d) State.openTile).tiles :=
  applyDivisor_inside.2.trans ((openEach_spec _ _).2.2.trans (State.modEach_tiles_congr (s := s)
    (show ((s.closeOpening p d).realign d (s.realigns (s.dieTiles p d))).tiles = s.tiles from (realign_inside _).2) _ _))

/-- The clock of the die as it opens the next phase. -/
theorem openNext_clock : let re := s.realigns (s.dieTiles p d)
    let x := (s.openNext p d).die d
    x.cyc = (if re then s.time else (s.die d).cyc)
    ∧ (LinkBusy s d → x.cur = (s.die d).cur ∧ x.divAt = (s.die d).divAt)
    ∧ (¬LinkBusy s d → x.cur = (s.die d).div ∧ x.divAt = none) := by
  intro re x
  have hre : ((s.closeOpening p d).realign d re).die d = { s.die d with cyc := if re then s.time else (s.die d).cyc } := by
    unfold State.realign
    cases re with
    | true =>
      rw [if_pos rfl, State.die_modDie]
      rfl
    | false => rfl
  obtain ⟨hin, hclock, -⟩ := openEach_spec (s.dieTiles p d) ((s.closeOpening p d).realign d re)
  have hk := hclock d
  rw [hre] at hk
  have hlinks : LinkBusy (((s.closeOpening p d).realign d re).openEach (s.dieTiles p d)) d ↔ LinkBusy s d := by
    unfold LinkBusy
    rw [hin.links, (realign_inside re).1.links]
    rfl
  by_cases hb : LinkBusy s d
  · have hx : x = (((s.closeOpening p d).realign d re).openEach (s.dieTiles p d)).die d :=
      congrArg (State.die · d) (applyDivisor_busy (hlinks.2 hb))
    rw [hx]
    exact ⟨hk.cyc, fun _ => ⟨hk.cur, hk.divAt⟩, fun h => absurd hb h⟩
  · have hx : x = { (((s.closeOpening p d).realign d re).openEach (s.dieTiles p d)).die d with
        cur := ((((s.closeOpening p d).realign d re).openEach (s.dieTiles p d)).die d).div, divAt := none } :=
      (congrArg (State.die · d) (applyDivisor_free (mt hlinks.1 hb))).trans (State.die_modDie ..)
    rw [hx]
    exact ⟨hk.cyc, fun h => absurd h hb, fun _ => ⟨hk.div, rfl⟩⟩

/-- Engines that all run: the opening is not the first of a launch. -/
theorem noLaunch (hrun : ∀ t ∈ s.dieTiles p d, (s.tile t).seat.run = true) :
    ((s.part p).st != .boundary && (s.dieTiles p d).any fun t => !(s.tile t).seat.run) = false := by
  have hany : ((s.dieTiles p d).any fun t => !(s.tile t).seat.run) = false := by
    rw [List.any_eq_false]
    intro t ht
    simp [hrun t ht]
  rw [hany, Bool.and_false]

/-- A die that is not due opens nothing. -/
theorem dieOpen_waits (ho : s.originFor (s.part p) = some o) (hrun : ∀ t ∈ s.dieTiles p d, (s.tile t).seat.run = true)
    (h : (s.die d).phaseLeft ≠ 0 ∨ (if s.realigns (s.dieTiles p d) then s.time else (s.die d).cyc) < o) : s.dieOpen p d = s := by
  unfold State.dieOpen
  simp only [ho, noLaunch hrun, Bool.not_false, Bool.true_and]
  refine if_pos ?_
  rcases h with h | h
  · simp [State.cycles, h]
  · rw [decide_eq_true h, Bool.or_true]

/-- A die that is due opens the next phase; its armed copies enter their buffers as an exchange phase opens. -/
theorem dieOpen_next (ho : s.originFor (s.part p) = some o) (hrun : ∀ t ∈ s.dieTiles p d, (s.tile t).seat.run = true)
    (hd : d ∈ (s.part p).opening) (hc : (s.die d).phaseLeft = 0)
    (hdue : o ≤ if s.realigns (s.dieTiles p d) then s.time else (s.die d).cyc) :
    s.dieOpen p d = if ((s.dieTiles p d).map fun t => ((s.openNext p d).tile t).seat.phase % 2) == []
        || (s.dieTiles p d).any (fun t => ((s.openNext p d).tile t).seat.phase % 2 == 0) then s.openNext p d
      else (s.openNext p d).enterBuffers p d o := by
  unfold State.dieOpen
  simp only [ho, noLaunch hrun, Bool.not_false, Bool.true_and, Bool.false_eq_true, if_false]
  refine if_neg ?_
  rw [decide_eq_false (Nat.not_lt.2 hdue)]
  simp [State.cycles, hc, hd]

/-- The first opening of a launch starts the tiles of the die. -/
theorem dieOpen_launch (ho : s.originFor (s.part p) = some o) (hst : (s.part p).st ≠ .boundary)
    (hrun : ∃ t ∈ s.dieTiles p d, (s.tile t).seat.run = false) (hd : d ∈ (s.part p).opening) (hc : (s.die d).phaseLeft = 0)
    (hdue : o ≤ (s.die d).cyc) : s.dieOpen p d = (s.closeOpening p d).modEach (s.dieTiles p d) State.startTile := by
  have hl : ((s.part p).st != .boundary && (s.dieTiles p d).any fun t => !(s.tile t).seat.run) = true := by
    obtain ⟨t, ht, hr⟩ := hrun
    rw [bne_iff_ne.2 hst, Bool.true_and]
    exact List.any_eq_true.2 ⟨t, ht, by rw [hr]; rfl⟩
  unfold State.dieOpen
  simp only [ho, hl, Bool.not_true, Bool.false_and, if_true, Bool.false_eq_true, if_false]
  refine if_neg ?_
  rw [decide_eq_false (Nat.not_lt.2 hdue)]
  simp [State.cycles, hc, hd]

/-- What the controller has to do for a die that waits for an origin. -/
structure OriginSent (s r : State) (p o : Nat) : Prop where
  parts : r = { s with parts := r.parts }
  opening : (r.part p).opening = (s.part p).opening
  bind : (r.part p).bind = (s.part p).bind
  origin : r.originFor (r.part p) = some o
  opens : (s.part p).st = .boundary → o ≤ s.time → (r.part p).phase = (s.part p).phase + 1 ∧ (r.part p).origin = o
    ∧ ((r.part p).st = .open_ ∨ (r.part p).st = .held)

theorem controllerOpen_sent (h : WaitsFor s (s.part p) o) : OriginSent s (s.controllerOpen p) p o := by
  rcases h with ⟨hst, hn, hsince⟩ | ⟨hst, ho⟩
  · by_cases hle : o ≤ s.time
    · have hopen := controllerOpen_opens hst hn (by omega) hle
      have hpart : (s.controllerOpen p).part p = { s.part p with
          st := if (s.tilesOf p).any fun t => (s.tile t).stop.frozen then .held else .open_, heldFrom := .open_, heldAt := o
          phase := (s.part p).phase + 1, origin := o, next := none, since := s.ticks
          deadline := o + (State.phaseEntry (s.part p).img ((s.part p).phase + 1)).1, slimNow := (s.part p).slim.toNat } := by
        rw [hopen]
        exact State.part_modPart ..
      have hst' : ((s.controllerOpen p).part p).st = .open_ ∨ ((s.controllerOpen p).part p).st = .held := by
        rw [hpart]
        dsimp only
        split
        · exact .inr rfl
        · exact .inl rfl
      refine ⟨?_, by rw [hpart], by rw [hpart], ?_, fun _ _ => ⟨by rw [hpart], by rw [hpart], hst'⟩⟩
      · rw [hopen]; rfl
      · unfold State.originFor
        rcases hst' with h | h <;> rw [h, hpart]
    · have hstay : s.controllerOpen p = s := controllerOpen_stays fun _ o' ho' => by
        rw [hn] at ho'
        cases ho'
        exact Nat.not_le.1 hle
      rw [hstay]
      refine ⟨rfl, rfl, rfl, ?_, fun _ h => absurd h hle⟩
      unfold State.originFor
      rw [hst]
      exact (if_neg (by omega)).trans hn
  · have hne : (s.part p).st ≠ .boundary := by rcases hst with h | h | h <;> rw [h] <;> decide
    rw [controllerOpen_stays fun h => absurd h hne]
    refine ⟨rfl, rfl, rfl, ?_, fun h => absurd h hne⟩
    unfold State.originFor
    rcases hst with h | h | h <;> rw [h, ho]

end

end Sys2Proof.Machine

namespace Sys2Proof.Proofs
open Sys2Proof.Machine
open Claims (Opened WaitsFor Realigning)

theorem nextOpens : Claims.NextOpens := by
  intro s p d o q ts due linkBusy hw hd hrun hnodup
  have hs := controllerOpen_sent hw
  generalize hr : s.controllerOpen p = r at hs
  have hts : r.dieTiles p d = ts := congrArg (List.filter _) (State.tilesOf_congr hs.bind)
  have htile (t : Nat) : r.tile t = s.tile t := (congrArg (State.tile · t) hs.parts).trans rfl
  have hdie (e : Nat) : r.die e = s.die e := (congrArg (State.die · e) hs.parts).trans rfl
  have htime : r.time = s.time := (congrArg State.time hs.parts).trans rfl
  have hcopies : r.copies = s.copies := (congrArg State.copies hs.parts).trans rfl
  have hbusy : LinkBusy r d ↔ linkBusy := by
    have hlinks : r.links = s.links := (congrArg State.links hs.parts).trans rfl
    unfold LinkBusy
    rw [hlinks]
  have hre : r.realigns (r.dieTiles p d) = true ↔ Realigning s p d := by
    rw [← realigns_iff, hts]
    simp only [State.realigns, htile]
    rfl
  have hrun' : ∀ t ∈ r.dieTiles p d, (r.tile t).seat.run = true := fun t ht => by
    rw [htile]
    exact hrun t (hts ▸ ht)
  have hdue : due ↔ o ≤ if r.realigns (r.dieTiles p d) then r.time else (r.die d).cyc := by
    rw [htime, hdie]
    by_cases h : Realigning s p d
    · rw [if_pos (hre.2 h)]
      exact ⟨fun hd => hd.1 h, fun ho => ⟨fun _ => ho, fun hn => absurd h hn⟩⟩
    · rw [if_neg (mt hre.1 h)]
      exact ⟨fun hd => hd.2 h, fun ho => ⟨fun hn => absurd hn h, fun _ => ho⟩⟩
  have hx : exec (.phaseOpen p d) s = .next (r.dieOpen p d) := by rw [← hr]; rfl
  refine ⟨fun hdue' hc => ?_, fun h => ⟨r, ?_, hs.opening ▸ hd, (congrArg State.tiles hs.parts).trans rfl,
    (congrArg State.dies hs.parts).trans rfl, hcopies, (congrArg State.mem hs.parts).trans rfl⟩⟩
  · let n := r.openNext p d
    have hin : Inside (r.closeOpening p d) n := openNext_inside
    have hnpart : n.part p = { r.part p with opening := (r.part p).opening.filter (· != d) } := (hin.part p).trans (State.part_modPart ..)
    have hn (t : Nat) : n.tile t = (r.modEach ts State.openTile).tile t :=
      (congrArg (Map.get · State.tile0 t) openNext_tiles).trans (congrArg (fun l => (r.modEach l State.openTile).tile t) hts)
    have hopen (t : Nat) (ht : t ∈ ts) : n.tile t = State.openTile (s.tile t) :=
      (hn t).trans ((State.modEach_tile (hnodup.filter _) ht r).trans (congrArg State.openTile (htile t)))
    have hother (t : Nat) (ht : t ∉ ts) : n.tile t = s.tile t := (hn t).trans ((State.modEach_tile_ne ht r).trans (htile t))
    have hphase (t : Nat) (ht : t ∈ ts) : (n.tile t).seat.phase = (s.tile t).seat.phase + 1 := by rw [hopen t ht]; rfl
    have hncopies : n.copies = s.copies := hin.copies.trans hcopies
    obtain ⟨hcyc, hheld, hfree⟩ := openNext_clock (s := r) (p := p) (d := d)
    simp only [hdie] at hcyc hheld hfree
    let c := (ts.map fun t => (n.tile t).seat.phase % 2) == [] || ts.any fun t => (n.tile t).seat.phase % 2 == 0
    let s' := if c then n else n.enterBuffers p d o
    have hx' : exec (.phaseOpen p d) s = .next s' := by
      rw [hx, dieOpen_next hs.origin hrun' (hs.opening ▸ hd) ((hdie d).symm ▸ hc) (hdue.1 hdue')]
      simp only [hts]
      rfl
    have hs' : s' = { n with copies := s'.copies } := by
      simp only [s']
      split <;> rfl
    have hpart : s'.part p = { r.part p with opening := (r.part p).opening.filter (· != d) } :=
      ((congrArg (State.part · p) hs').trans rfl).trans hnpart
    have htile' (t : Nat) : s'.tile t = n.tile t := (congrArg (State.tile · t) hs').trans rfl
    have hdie' : s'.die d = n.die d := (congrArg (State.die · d) hs').trans rfl
    refine ⟨s', hx', ?_, fun t ht => ?_, fun u hu => ?_, ?_, fun h => ?_, fun h => ?_, fun h => ?_, fun h => ?_, fun hne heven => ?_, fun hodd => ?_,
      fun hst ho => ?_⟩
    · rw [hpart]
      simp
    · rw [htile', hopen t ht]
      exact ⟨openTile_opened (s.tile t), hrun t ht⟩
    · rw [htile', hother u hu]
    · exact ((congrArg State.mem hs').trans rfl).trans (hin.mem.trans ((congrArg State.mem hs.parts).trans rfl))
    · rw [hdie', hcyc, if_pos (hre.2 h), htime]
    · rw [hdie', hcyc, if_neg (mt hre.1 h)]
    · rw [hdie']
      exact hfree (mt hbusy.1 h)
    · rw [hdie']
      exact hheld (hbusy.2 h)
    · have hc : ¬c = true := by
        simp only [c, Bool.or_eq_true, beq_iff_eq, List.map_eq_nil_iff, List.any_eq_true, not_or, not_exists, not_and]
        refine ⟨hne, fun t ht => ?_⟩
        rw [hphase t ht]
        have := heven t ht
        omega
      have hbuf : s' = n.enterBuffers p d o := if_neg hc
      rw [hbuf, State.enterBuffers, hncopies]
      simp only [Bool.and_eq_true, beq_iff_eq, and_assoc]
      rfl
    · obtain ⟨t, ht, hp⟩ := hodd
      have hc : c = true := by
        simp only [c, Bool.or_eq_true, List.any_eq_true, beq_iff_eq]
        exact .inr ⟨t, ht, by rw [hphase t ht]; omega⟩
      have hbuf : s' = n := if_pos hc
      rw [hbuf, hncopies]
    · rw [hpart]
      exact hs.opens hst ho
  · rw [hx, dieOpen_waits hs.origin hrun' ?_]
    rw [hdue, Nat.not_le] at h
    rw [hdie] at h ⊢
    exact h.symm

theorem launchOpens : Claims.LaunchOpens := by
  intro s p d t q hst hd ht ho hc hrun hnodup
  have hne : q.st ≠ .boundary := by rcases hst with h | h | h <;> rw [h] <;> decide
  have horigin : s.originFor (s.part p) = some q.origin := by
    unfold State.originFor
    rcases hst with h | h | h <;> rw [show (s.part p).st = _ from h]
  have hx : exec (.phaseOpen p d) s = .next ((s.closeOpening p d).modEach (s.dieTiles p d) State.startTile) := by
    refine congrArg Host.Outcome.next ?_
    rw [controllerOpen_stays fun h => absurd h hne]
    exact dieOpen_launch horigin hne hrun hd hc ho
  have hts : (s.dieTiles p d).Nodup := hnodup.filter _
  have htile := State.modEach_tile (f := State.startTile) hts ht (s.closeOpening p d)
  have hout := State.modEach_eq (s.closeOpening p d) (s.dieTiles p d) State.startTile
  refine ⟨_, hx, ?_, ?_, ?_, (congrArg State.copies hout).trans rfl, (congrArg State.dies hout).trans rfl,
    fun u hu => State.modEach_tile_ne hu (s.closeOpening p d), (congrArg State.mem hout).trans rfl⟩
  · rw [State.modEach_part, State.closeOpening, State.part_modPart]
    simp
  · rw [htile]
    exact startTile_opened (s.tile t)
  · rw [htile]
    rfl

/-- Settles O36: a die that is due changes each of its tiles once, and its clock by R41 and R363; one that is not due waits. -/
theorem dieOpens : Obligations.DieOpens := ⟨nextOpens, launchOpens⟩

end Sys2Proof.Proofs
end

section
/-! PROOF. Slip, TCMD, pre-emption and the divisor (O37). -/

namespace Sys2Proof.Machine
open Claims (allTiles ContextAt)

section
variable {s : State} {p d t : Nat}

/-! ### A slip (R40) -/

theorem trapEach_frozen (n : DWord) (l : List Nat) (s : State) (u : Nat) :
    ((l.foldl (fun s t => s.trapAsync t Cause.slip n 0 none) s).tile u).stop.frozen = true ↔ u ∈ l ∨ (s.tile u).stop.frozen = true :=
  freezeEach_frozen (fun s t u => freezeAt_frozen s t _ _ _ u) l s u

theorem timeZoneSlip_spec {q : Part} (hn : Config.tolerance d < (s.drift d).natAbs)
    (hf : (s.parts.find? fun e => e.2.active && e.2.dies.getLsbD d) = some (p, q)) : ∃ r, exec (.timeZoneSlip d) s = .next r
      ∧ (r.part p).st = .aborted ∧ ∀ u ∈ s.dieTiles p d, (r.tile u).stop.frozen = true := by
  let v := (s.dieTiles p d).foldl (fun r t => r.trapAsync t Cause.slip (BitVec.ofInt 64 (s.drift d)) 0 none) s
  have hx : exec (.timeZoneSlip d) s = .next (v.abort p) := by
    refine congrArg Host.Outcome.next ?_
    unfold State.timeZoneSlip
    simp only [hf]
    exact if_neg (Nat.not_le.2 hn)
  obtain ⟨l, hpart, hstop, -⟩ := abort_spec v p
  refine ⟨_, hx, congrArg Part.st hpart, fun u hu => ?_⟩
  rw [hstop]
  exact (trapEach_frozen _ _ s u).2 (.inl hu)

/-! ### TCMD (R301, R302) -/

theorem tileHeld_some (hp : (s.tile t).seat.part = some p) (hst : (s.part p).st = .held) : s.tileHeld t = some p := by
  unfold State.tileHeld
  simp only [hp, hst, if_true]

theorem tileHeld_none (hp : (s.tile t).seat.part = some p) (hst : (s.part p).st ≠ .held) : s.tileHeld t = none := by
  unfold State.tileHeld
  simp only [hp, if_neg hst]

theorem tcmdResume_eq {m : Nat} (hb : (s.fwc d).blk = some (.tcmd 1 m)) (hm : m ≤ (s.fwc d).cyc) : exec (.tcmdResume d) s =
    .next (if s.resumeOk (s.tileOf d) && !s.abortComing (s.tileOf d) then (s.resumeTile (s.tileOf d)).unblock d
      else s.exception d 0x18 1 (s.fwc d).blkAt) := by
  have hx : exec (.tcmdResume d) s = execTcmdResume d s := rfl
  unfold execTcmdResume at hx
  rw [hb] at hx
  exact hx.trans (congrArg Host.Outcome.next (if_neg (by simp [hm])))

theorem tcmdAbort_eq {m : Nat} (hb : (s.fwc d).blk = some (.tcmd 2 m)) (hm : m ≤ (s.fwc d).cyc) :
    (∀ p, s.tileHeld (s.tileOf d) = some p → exec (.tcmdAbort d) s = .next ((s.abort p).unblock d))
    ∧ (s.tileHeld (s.tileOf d) = none → exec (.tcmdAbort d) s = .next (s.exception d 0x18 2 (s.fwc d).blkAt)) := by
  have hx : exec (.tcmdAbort d) s = execTcmdAbort d s := rfl
  unfold execTcmdAbort at hx
  rw [hb] at hx
  refine ⟨fun p hp => ?_, fun hp => ?_⟩
  · refine hx.trans (congrArg Host.Outcome.next ((if_neg (by simp [hm])).trans ?_))
    rw [hp]
  · refine hx.trans (congrArg Host.Outcome.next ((if_neg (by simp [hm])).trans ?_))
    rw [hp]
    rfl

/-- With no cycle of a die left in the tick no ABORT is to come. -/
theorem abortComing_none (h : ∀ a, a < 8 → Turn.die a ∉ s.agenda) : s.abortComing t = false := by
  unfold State.abortComing
  rw [List.any_eq_false]
  intro a ha
  have hz : s.cyclesLeft a = 0 := by
    have hl : s.agenda.filter (· == .die a) = [] := List.filter_eq_nil_iff.2 fun x hx hxa => by
      rw [beq_iff_eq] at hxa
      exact h a (List.mem_range.1 ha) (hxa ▸ hx)
    unfold State.cyclesLeft
    rw [hl]
    exact if_pos (Nat.zero_le _)
  simp [hz]

/-- A die whose cycle is still to come lands the ABORT that it waits with (R301). -/
theorem abortComing_mtsr {a m : Nat} (ha : a < 8) (hag : Turn.die a ∈ s.agenda) (hl : (s.die a).phaseLeft = 0)
    (hr : s.pkg.dreset.getLsbD a = false) (hb : (s.fwc a).blk = some (.mtsr 0x0A 2 m)) (hm : m ≤ (s.fwc a).cyc)
    (hsame : s.tileHeld (s.tileOf a) = (s.tile t).seat.part) : s.abortComing t = true := by
  unfold State.abortComing
  refine List.any_eq_true.2 ⟨a, List.mem_range.2 ha, ?_⟩
  have hk : 0 < s.cyclesLeft a := by
    have hn : 0 < (s.agenda.filter (· == .die a)).length := List.length_pos_of_mem (List.mem_filter.2 ⟨hag, beq_self_eq_true _⟩)
    unfold State.cyclesLeft
    dsimp only
    rw [hl, if_neg (by omega)]
    exact Nat.succ_pos _
  have hlt : m < (s.fwc a).cyc + s.cyclesLeft a := by omega
  simp only [hr, hb, hsame, hk, hlt]
  simp

/-- A tile that runs again, its report and TPEND clear (R75). -/
def Tile.resumed (x : Tile) : Tile := { x with stop := { x.stop with frozen := false, report := none, tpend := false } }

/-- A partition whose tiles all run again (R301). -/
def Part.resumed (q : Part) (time ticks : Nat) : Part :=
  { q with
    st := q.heldFrom, since := ticks
    deadline := q.deadline + (time - q.heldAt)
    extStart := if q.heldFrom = .extended then q.extStart + (time - q.heldAt) else q.extStart }

/-- Another tile of the partition is frozen. -/
def OtherFrozen (s : State) (p t : Nat) : Prop :=
  ∃ lt, lt < 64 * (s.part p).bind.length ∧ (s.part p).phys lt ≠ t ∧ (s.tile ((s.part p).phys lt)).stop.frozen = true

theorem anyFrozen_iff : ((upto (s.part p).tiles).any fun lt => ((s.modTile t Tile.resumed).tile ((s.part p).phys lt)).stop.frozen) = true ↔
    OtherFrozen s p t := by
  unfold OtherFrozen
  rw [List.any_eq_true]
  refine exists_congr fun lt => and_congr List.mem_range ?_
  by_cases h : (s.part p).phys lt = t
  · rw [h, State.tile_modTile]
    simp [Tile.resumed]
  · rw [State.tile_modTile_ne _ _ _ _ h]
    simp [h]

/-- The tile that resumes runs again; a partition with no tile frozen leaves HELD (R75, R301). -/
theorem resumeTile_spec (hp : (s.tile t).seat.part = some p) (hst : (s.part p).st = .held) :
    (OtherFrozen s p t → s.resumeTile t = s.modTile t Tile.resumed)
    ∧ (¬OtherFrozen s p t → s.resumeTile t = (s.modTile t Tile.resumed).modPart p (Part.resumed · s.time s.ticks)) := by
  have hheld : (s.modTile t Tile.resumed).tileHeld t = some p :=
    tileHeld_some (by rw [State.tile_modTile]; exact hp) hst
  have heq : s.resumeTile t = if ((upto (s.part p).tiles).any fun lt => ((s.modTile t Tile.resumed).tile ((s.part p).phys lt)).stop.frozen)
      then s.modTile t Tile.resumed else (s.modTile t Tile.resumed).modPart p (Part.resumed · s.time s.ticks) := by
    unfold State.resumeTile
    dsimp only
    split
    · next hnone => exact absurd (hheld.symm.trans hnone) (Option.some_ne_none p)
    · next p' hsome =>
      cases hheld.symm.trans hsome
      rfl
  rw [heq]
  exact ⟨fun h => if_pos (anyFrozen_iff.2 h), fun h => if_neg (mt anyFrozen_iff.1 h)⟩

/-! ### The save of a pre-empted partition (R50, R307, R345, R346) -/

theorem ctxSize_eq (frz : Bool) : ctxSize frz = if frz then 1929216 else 1728512 := by cases frz <;> rfl

theorem leafSize_bounds (k : Nat) : 0 < leafSize k ∧ leafSize k ≤ 2 ^ 30 := by
  unfold leafSize
  split <;> decide

/-- The page of a leaf begins in the physical address space, and is at most 1 GiB (R315). -/
theorem walkFrom_leaf {va : Nat} {l : Leaf} : ∀ n k table, s.walkFrom va n k table = some l → l.pa < 2 ^ 44 ∧ 0 < l.size ∧ l.size ≤ 2 ^ 30 := by
  intro n
  induction n with
  | zero => intro k table h; cases h
  | succ n ih =>
    intro k table h
    unfold State.walkFrom at h
    dsimp only at h
    split at h
    · cases h
    split at h
    · split at h
      · cases h
      · cases h
        have hbits : bits (s.physNum (table + 8 * walkIndex va k) 8) 43 8 < 2 ^ 36 := Nat.mod_lt _ (by decide)
        exact ⟨show _ * 256 < 2 ^ 44 by omega, leafSize_bounds k⟩
    split at h
    · cases h
    · exact ih _ _ h

/-- A translation of the front end answers an address of 64 bits, and keeps the tiles. -/
theorem frontTranslate_pa {c va : Nat} {wr : Bool} {r : State} {pa : Nat} {sc : Bool} (h : s.frontTranslate d c va wr = .ok (r, pa, sc)) :
    pa < 2 ^ 64 ∧ Kept s r := by
  have hk := Kept.frontTranslate s d c va wr
  rw [h] at hk
  refine ⟨?_, hk⟩
  unfold State.frontTranslate at h
  split at h
  · cases h
  split at h
  · cases h
  split at h
  · cases h
  split at h
  · cases h
  next u _ l hl =>
  have hleaf : l.pa < 2 ^ 44 ∧ 0 < l.size ∧ l.size ≤ 2 ^ 30 := by
    unfold State.walk at hl
    dsimp only at hl
    split at hl
    · exact walkFrom_leaf _ _ _ hl
    · cases hl
  by_cases hb : (!bit l.bits (if wr then 3 else 2)) = true
  · rw [if_pos hb] at h
    cases h
  · rw [if_neg hb] at h
    cases h
    have hmod : va % l.size < l.size := Nat.mod_lt _ hleaf.2.1
    omega

theorem ctxAddrOk_iff {pa n : Nat} (h : pa < 2 ^ 64) : s.ctxAddrOk (BitVec.ofNat 64 pa) n = true ↔ ContextAt s pa n := by
  have hpa : (BitVec.ofNat 64 pa).toNat = pa := by rw [BitVec.toNat_ofNat, Nat.mod_eq_of_lt h]
  simp only [State.ctxAddrOk, ContextAt, hpa, Bool.and_eq_true, beq_iff_eq, decide_eq_true_eq, and_assoc]
  rfl

/-- The address that a request of the front end carries: a host's, tagged with the PASID (R313). -/
theorem frontReach_addr {c pa n : Nat} {v : State} {a : Nat} (hpa : pa < 2 ^ 44) (h : s.frontReach d c pa n = .ok (v, a)) :
    a = if 0x80000000000 ≤ pa then pa + ((s.ctx c).pasid.toNat + 1) * 2 ^ 44 else pa := by
  unfold State.frontReach at h
  split at h
  · cases h
  split at h
  · cases h
  split at h
  next hlt =>
    cases h
    exact (if_neg (Nat.not_le.2 hlt)).symm
  next hge =>
    split at h
    · cases h
    · cases h
      have hbase : State.hostBase ≤ pa := Nat.not_lt.1 hge
      have htag : (decide (State.hostBase ≤ pa) && decide (pa < State.physTop)) = true := by
        rw [decide_eq_true hbase, Bool.true_and]
        exact decide_eq_true hpa
      exact (if_pos htag).trans (if_pos hbase).symm

/-- What a word that cannot be translated, or an address that is none of a context, leaves of the save of a tile (R307, R346). -/
theorem saveTile_untranslated {q : Part} {c lt : Nat} {e : State × Option (BitVec 8)}
    (h : s.frontTranslate (q.phys lt / 64) c (q.launch.save + 0x200000 * lt) true = .error e) : s.saveTile q c lt = .error e := by
  unfold State.saveTile
  dsimp only
  rw [show dieOf (q.phys lt) = q.phys lt / 64 from rfl, h]

theorem correct_intact {v : State} (hecc : (v.tile t).store.ecc = []) (hw : (v.tile t).store.wiped = []) (who : BitVec 3 × Nat)
    (sp : EccSpace) (a b : Nat) : v.correct t who sp a b = (v, none) := by
  unfold State.correct
  simp [hecc, hw]

/-- A tile whose memories hold no error is read as it stands (R375). -/
theorem readTile_intact {v : State} (hecc : (v.tile t).store.ecc = []) (hw : (v.tile t).store.wiped = []) : v.readTile t = (v, none) := by
  unfold State.readTile
  induction savedSpaces (v.tile t).isFrozen with
  | nil => rfl
  | cons sp l ih =>
    simp only [List.foldl_cons, correct_intact hecc hw]
    exact ih

section
variable {r v : State} {q : Part} {c lt pa a : Nat} {sc : Bool}
  (hvia : s.frontTranslate (q.phys lt / 64) c (q.launch.save + 0x200000 * lt) true = .ok (r, pa, sc))
include hvia

/-- The size of the context is that of the tile behind the translation as well. -/
theorem saveTile_size : ctxSize (s.tile (q.phys lt)).isFrozen = if (r.tile (q.phys lt)).isFrozen then 1929216 else 1728512 := by
  rw [(frontTranslate_pa hvia).2.tile, ctxSize_eq]

theorem saveTile_refused (hno : ¬ContextAt r pa (if (r.tile (q.phys lt)).isFrozen then 1929216 else 1728512)) :
    s.saveTile q c lt = .error (r, some 0x18) := by
  unfold State.saveTile
  dsimp only
  rw [show dieOf (q.phys lt) = q.phys lt / 64 from rfl, hvia, saveTile_size hvia]
  dsimp only
  exact if_pos (by rw [Bool.not_eq_true', ← Bool.not_eq_true, ctxAddrOk_iff (frontTranslate_pa hvia).1]; exact hno)

variable (hctx : ContextAt r pa (if (r.tile (q.phys lt)).isFrozen then 1929216 else 1728512))
include hctx

theorem saveTile_unreached {e : State × Option (BitVec 8)}
    (h : r.frontReach (q.phys lt / 64) c pa (if (r.tile (q.phys lt)).isFrozen then 1929216 else 1728512) = .error e) :
    s.saveTile q c lt = .error e := by
  unfold State.saveTile
  dsimp only
  rw [show dieOf (q.phys lt) = q.phys lt / 64 from rfl, hvia, saveTile_size hvia]
  dsimp only
  rw [if_neg (by rw [Bool.not_eq_true', Bool.not_eq_false, ctxAddrOk_iff (frontTranslate_pa hvia).1]; exact hctx), h]

variable (hreach : r.frontReach (q.phys lt / 64) c pa (if (r.tile (q.phys lt)).isFrozen then 1929216 else 1728512) = .ok (v, a))
include hreach

theorem saveTile_lost {m : Nat} (h : (v.readTile (q.phys lt)).2 = some m) :
    s.saveTile q c lt = .error ((v.readTile (q.phys lt)).1, some 0x12) := by
  unfold State.saveTile
  dsimp only
  rw [show dieOf (q.phys lt) = q.phys lt / 64 from rfl, hvia, saveTile_size hvia]
  dsimp only
  rw [if_neg (by rw [Bool.not_eq_true', Bool.not_eq_false, ctxAddrOk_iff (frontTranslate_pa hvia).1]; exact hctx), hreach]
  dsimp only
  rw [show v.readTile (q.phys lt) = ((v.readTile (q.phys lt)).1, some m) from Prod.ext rfl h]
  rfl

theorem saveTile_written (hecc : (v.tile (q.phys lt)).store.ecc = []) (hw : (v.tile (q.phys lt)).store.wiped = []) :
    s.saveTile q c lt = .ok (v.saveContext (q.phys lt) a, ()) := by
  unfold State.saveTile
  dsimp only
  rw [show dieOf (q.phys lt) = q.phys lt / 64 from rfl, hvia, saveTile_size hvia]
  dsimp only
  rw [if_neg (by rw [Bool.not_eq_true', Bool.not_eq_false, ctxAddrOk_iff (frontTranslate_pa hvia).1]; exact hctx), hreach]
  dsimp only
  rw [readTile_intact hecc hw]
end

end

/-! ### The entry of the save (R50, R345) -/

/-- A tile with no semaphore marked as saturated. -/
def Tile.unmarked (x : Tile) : Tile := { x with sync := { x.sync with semSat := [] } }

/-- The saturated semaphores of a list of tiles are logged, their marks cleared (R50). -/
def State.logEach (s : State) (ts : List Nat) : State := ts.foldl State.logSaturated s

theorem logEach_spec (ts : List Nat) (s : State) : Inside s (s.logEach ts) ∧ (s.logEach ts).tiles = (s.modEach ts Tile.unmarked).tiles := by
  induction ts generalizing s with
  | nil => exact ⟨Inside.refl s, rfl⟩
  | cons t ts ih =>
    obtain ⟨u, hu, heq⟩ := logSaturated_spec s t
    have hstep : s.logEach (t :: ts) = (u.modTile t Tile.unmarked).logEach ts := congrArg (State.logEach · ts) heq
    obtain ⟨hin, htiles⟩ := ih (u.modTile t Tile.unmarked)
    rw [hstep]
    refine ⟨(hu.inside.trans (Inside.modTile ..)).trans hin, htiles.trans ?_⟩
    have ht : u.tile t = s.tile t := congrArg (Map.get · State.tile0 t) hu.tiles
    exact State.modEach_tiles_congr (congrArg₂ (fun (m : Map Tile) x => m.put t (Tile.unmarked x)) hu.tiles ht) ts _

/-- Logging only adds entries to those of the tick. -/
theorem mem_logNow_log {s : State} {x : Nat × LogEnt} {d d' : Nat} {code : BitVec 8} {cls : BitVec 2} {eng : BitVec 3} {slot unit addr phase : Nat}
    {loc : DWord} (h : x ∈ (s.die d).logNow) : x ∈ ((s.log d' code cls eng slot unit addr phase loc).die d).logNow := by
  by_cases hd : d = d'
  · subst hd
    rw [State.log, State.die_modDie]
    exact List.mem_append_left _ h
  · rw [State.log, State.die_modDie_ne _ _ _ _ hd]
    exact h

theorem mem_logNow_foldl {α : Type} {f : State → α → State} {x : Nat × LogEnt} {d : Nat}
    (hf : ∀ u a, x ∈ (u.die d).logNow → x ∈ ((f u a).die d).logNow) (l : List α) (u : State) (h : x ∈ (u.die d).logNow) :
    x ∈ ((l.foldl f u).die d).logNow := by
  induction l generalizing u with
  | nil => exact h
  | cons a l ih => exact ih _ (hf u a h)

theorem mem_logNow_logSaturated {x : Nat × LogEnt} {d : Nat} (u : State) (t : Nat) (h : x ∈ (u.die d).logNow) :
    x ∈ ((u.logSaturated t).die d).logNow :=
  mem_logNow_foldl (fun _ _ => mem_logNow_log) (u.tile t).sync.semSat u h

/-- The cause code of an entry is its first byte (R292). -/
theorem entry_code (code : BitVec 8) (cls : BitVec 2) (eng : BitVec 3) (slot : BitVec 6) (unit : BitVec 4) (res : BitVec 26) (addr : BitVec 15) :
    BitVec.extractLsb' 56 8 (show DWord from code ++ cls ++ eng ++ slot ++ unit ++ res ++ addr) = code := by
  refine BitVec.eq_of_getLsbD_eq fun i hi => ?_
  have hcode : (code ++ cls ++ eng ++ slot ++ unit ++ res ++ addr).getLsbD (56 + i) = code.getLsbD i := by
    simp only [BitVec.getLsbD_append]
    repeat rw [if_neg (by omega)]
    congr 1
    omega
  rw [BitVec.getLsbD_extractLsb', decide_eq_true hi, Bool.true_and]
  exact hcode

/-- An entry of the tick at a die that says that semaphore `k` saturated (R50). -/
def Saturated (s : State) (d k : Nat) : Prop :=
  ∃ r le, (r, le) ∈ (s.die d).logNow ∧ le.e0.extractLsb' 56 8 = 0x22 ∧ le.e3 = BitVec.ofNat 64 k

theorem saturated_log (s : State) (d slot phase k : Nat) : Saturated (s.log d 0x22 2 7 slot 0 0 phase (BitVec.ofNat 64 k)) d k := by
  unfold Saturated State.log
  rw [State.die_modDie]
  refine ⟨_, _, List.mem_append_right _ (List.mem_singleton_self _), ?_, rfl⟩
  exact entry_code ..

theorem Saturated.grow {α : Type} {f : State → α → State} {d k : Nat}
    (hf : ∀ x u a, x ∈ (u.die d).logNow → x ∈ ((f u a).die d).logNow) (l : List α) {u : State} (h : Saturated u d k) :
    Saturated (l.foldl f u) d k := by
  obtain ⟨r, le, hmem, hsays⟩ := h
  exact ⟨r, le, mem_logNow_foldl (hf _) l u hmem, hsays⟩

theorem saturated_foldl {f : State → Nat × Bool → State} {d : Nat} {e : Nat × Bool}
    (hf : ∀ x u a, x ∈ (u.die d).logNow → x ∈ ((f u a).die d).logNow) (hs : ∀ u, Saturated (f u e) d e.1) :
    ∀ (l : List (Nat × Bool)) (u : State), e ∈ l → Saturated (l.foldl f u) d e.1
  | [], _, he => absurd he List.not_mem_nil
  | a :: l, u, he => by
    by_cases ha : e = a
    · subst ha
      exact (hs u).grow hf l
    · exact saturated_foldl hf hs l _ ((List.mem_cons.1 he).resolve_left ha)

theorem saturated_logSaturated {s : State} {t : Nat} {e : Nat × Bool} (he : e ∈ (s.tile t).sync.semSat) :
    Saturated (s.logSaturated t) (t / 64) e.1 :=
  saturated_foldl (f := fun u k => u.log (dieOf t) 0x22 2 7 (slotOf t) 0 0 (u.tile t).seat.phase (BitVec.ofNat 64 k.1))
    (fun _ _ _ => mem_logNow_log) (fun _ => saturated_log ..) (s.tile t).sync.semSat s he

theorem saturated_logEach {t : Nat} {k : Nat × Bool} : ∀ (ts : List Nat) (s : State), t ∈ ts → k ∈ (s.tile t).sync.semSat →
    Saturated (s.logEach ts) (t / 64) k.1
  | [], _, ht, _ => absurd ht List.not_mem_nil
  | u :: ts, s, ht, hk => by
    by_cases hu : t = u
    · subst hu
      exact (saturated_logSaturated hk).grow (fun _ => mem_logNow_logSaturated) ts
    · refine saturated_logEach ts _ ((List.mem_cons.1 ht).resolve_left hu) ?_
      obtain ⟨v, hv, heq⟩ := logSaturated_spec s u
      rw [heq, State.tile_modTile_ne _ _ _ _ hu]
      exact (congrArg (fun m : Map Tile => k ∈ (m.get State.tile0 t).sync.semSat) hv.tiles).mpr hk

section
variable {s : State} {p d : Nat}

/-- When each die of a partition is done with its contexts (R345). -/
def State.saveEnds (s : State) (q : Part) : List (Nat × Nat) :=
  q.bind.map fun d => (d, s.ticks + 64 * ctxCycles false * ((s.die d).cur.toNat + 1))

/-- A partition that begins its save in this tick, each die of it with its end of the save. -/
def Part.entered (q : Part) (ticks : Nat) (l : List (Nat × Nat)) : Part :=
  { q with st := .saving, since := ticks, next := none, opening := [], saveLeft := l }

/-- PREEMPT_SAVE_ENTRY after the boundary of an exchange phase (R345). -/
theorem saveEntry_spec {q : Part} (hq : s.part p = q) (hst : q.st = .boundary) (hodd : q.phase % 2 = 1) (htick : s.ticks = q.since + 1)
    (hpre : q.preempt ≠ []) : ∃ s' l, exec (.preemptSaveEntry p) s = .next s' ∧ l.map (·.1) = q.bind ∧ s'.mem = s.mem
      ∧ s'.part p = q.entered s.ticks l
      ∧ (allTiles s p fun u => (s'.tile u).sync.semSat = [] ∧ (s'.tile u).store = (s.tile u).store)
      ∧ allTiles s p fun u => ∀ e ∈ (s.tile u).sync.semSat, Saturated s' (u / 64) e.1 := by
  subst hq
  have hno : ¬((s.part p).st ≠ .boundary || (s.part p).phase % 2 = 0 || s.ticks ≠ (s.part p).since + 1 || (s.part p).preempt.isEmpty) = true := by
    simp [hst, hodd, htick, hpre]
  obtain ⟨hin, htiles⟩ := logEach_spec (s.tilesOf p) s
  have htile (u : Nat) : (s.logEach (s.tilesOf p)).tile u = (s.modEach (s.tilesOf p) Tile.unmarked).tile u :=
    congrArg (Map.get · State.tile0 u) htiles
  refine ⟨(s.logEach (s.tilesOf p)).modPart p (fun q => q.entered s.ticks (s.saveEnds q)), s.saveEnds (s.part p), ?_, ?_, hin.mem, ?_, ?_, ?_⟩
  · refine congrArg Host.Outcome.next ?_
    unfold State.saveEntry
    dsimp only
    rw [if_neg hno]
    rfl
  · exact (List.map_map ..).trans (List.map_id _)
  · rw [State.part_modPart, hin.part]
  · refine State.forall_tilesOf.1 fun u hu => ?_
    rw [show (State.modPart _ _ _).tile u = _ from htile u]
    exact ⟨State.modEach_holds (P := fun x => x.sync.semSat = []) (fun _ => rfl) hu s,
      State.modEach_keeps (f := Tile.unmarked) Tile.store (fun _ => rfl) ..⟩
  · exact State.forall_tilesOf.1 fun u hu e he => saturated_logEach (s.tilesOf p) s hu he

theorem saveEntry_not (h : (s.part p).st ≠ .boundary ∨ (s.part p).phase % 2 = 0 ∨ (s.part p).preempt = []) :
    exec (.preemptSaveEntry p) s = .next s := by
  refine congrArg Host.Outcome.next ?_
  unfold State.saveEntry
  dsimp only
  refine if_pos ?_
  obtain h | h | h := h <;> simp [h]

/-! ### The end of the save (R346) -/

/-- A partition whose contexts are written. -/
def Part.saved (q : Part) (ticks : Nat) : Part := { q with st := .idle, since := ticks, saveLeft := [] }

theorem failed_spec (p : Nat) (cause : BitVec 8) : ∃ q, ((s.modPart p fun q => { q with cause := some cause }).abort p).part p = q
    ∧ q.st = .aborted ∧ q.cause = some cause := by
  obtain ⟨l, hpart, -⟩ := abort_spec (s.modPart p fun q => { q with cause := some cause }) p
  refine ⟨_, hpart, rfl, ?_⟩
  exact congrArg Part.cause (State.part_modPart ..)

section
variable (hst : (s.part p).st = .saving) (hfree : (s.part p).since ≠ s.ticks) (hend : ∀ e ∈ (s.part p).saveLeft, e.2 ≤ s.ticks)
include hst hfree hend

theorem saveComplete_due :
    ¬((s.part p).st ≠ .saving || !s.free_ (s.part p) || (s.part p).saveLeft.any fun e => decide (s.ticks < e.2)) = true := by
  have hany : ((s.part p).saveLeft.any fun e => decide (s.ticks < e.2)) = false :=
    List.any_eq_false.2 fun e he => by simpa using hend e he
  have hf : s.free_ (s.part p) = true := by simpa [State.free_] using hfree
  simp [hst, hf, hany]

theorem saveComplete_unmapped (hc : s.ctxOf (s.part p).launch.pasid = none) :
    exec (.saveComplete p) s = .next ((s.modPart p fun q => { q with cause := some Cause.translation }).abort p) := by
  refine congrArg Host.Outcome.next ?_
  unfold State.saveComplete
  dsimp only
  rw [if_neg (saveComplete_due hst hfree hend), hc]

variable {c : Nat} {m : State} (hc : s.ctxOf (s.part p).launch.pasid = some c)
include hc

theorem saveComplete_failed {cause : BitVec 8} (h : s.saveTiles (s.part p) c = .error (m, some cause)) :
    exec (.saveComplete p) s = .next ((m.modPart p fun q => { q with cause := some cause }).abort p) := by
  refine congrArg Host.Outcome.next ?_
  unfold State.saveComplete
  dsimp only
  rw [if_neg (saveComplete_due hst hfree hend), hc]
  dsimp only
  rw [h]

theorem saveComplete_held (h : s.saveTiles (s.part p) c = .error (m, none)) : exec (.saveComplete p) s = .next s := by
  refine congrArg Host.Outcome.next ?_
  unfold State.saveComplete
  dsimp only
  rw [if_neg (saveComplete_due hst hfree hend), hc]
  dsimp only
  rw [h]

theorem saveComplete_saved (h : s.saveTiles (s.part p) c = .ok (m, ())) : ∃ w, exec (.saveComplete p) s = .next
    ((((m.modTiles p Tile.still).modPart p (Part.saved · (m.modTiles p Tile.still).ticks)).writeStatus p w).endPreempt p 0) := by
  refine ⟨State.statusWord 3 0 ((s.part p).phase + 1), congrArg Host.Outcome.next ?_⟩
  unfold State.saveComplete
  dsimp only
  rw [if_neg (saveComplete_due hst hfree hend), hc]
  dsimp only
  rw [h]
  rfl
end

end

/-- The save of partition `p` is over (R346). -/
def Saved (m r : State) (p : Nat) : Prop :=
  (r.part p).st = .idle ∧ (r.part p).preempt = [] ∧ (allTiles r p fun u => (r.tile u).seat.run = false)
    ∧ ∀ e ∈ (m.part p).preempt, (e, 0) ∈ r.pkg.replies

theorem saved_spec (m : State) (p : Nat) (w : DWord) (ticks : Nat) :
    Saved m ((((m.modTiles p Tile.still).modPart p (Part.saved · ticks)).writeStatus p w).endPreempt p 0) p := by
  let u := (m.modTiles p Tile.still).modPart p (Part.saved · ticks)
  have hup : u.part p = (m.part p).saved ticks := by
    refine (State.part_modPart ..).trans ?_
    rw [State.modTiles_eq, State.modEach_part]
  obtain ⟨l, hpart, htiles, -⟩ := endStatus_spec u p 0 w
  obtain ⟨l', hw, -, -⟩ := writeStatus_spec u p w
  rw [hup] at hpart hw
  refine ⟨congrArg Part.st hpart, congrArg Part.preempt hpart, ?_, fun e he => ?_⟩
  · refine State.forall_tilesOf.1 fun t ht => ?_
    rw [State.tilesOf_congr (s := m) ((congrArg Part.bind hpart).trans rfl)] at ht
    have htile : ((u.writeStatus p w).endPreempt p 0).tile t = (m.modTiles p Tile.still).tile t := congrArg (Map.get · State.tile0 t) htiles
    rw [htile, State.modTiles_eq]
    exact State.modEach_holds (P := fun x => x.seat.run = false) (fun _ => rfl) ht m
  · refine List.mem_append_right _ (List.mem_map.2 ⟨e, ?_, rfl⟩)
    rw [congrArg Part.preempt hw]
    exact he

end Sys2Proof.Machine

namespace Sys2Proof.Proofs
open Sys2Proof.Machine
open Claims (allTiles ContextAt)

section
variable {s : State} {p d m : Nat}

/-- A RESUME that is taken (R301). -/
theorem tcmdResume_taken (hb : (s.fwc d).blk = some (.tcmd 1 m)) (hm : m ≤ (s.fwc d).cyc) (hp : (s.tile (s.tileOf d)).seat.part = some p)
    (hst : (s.part p).st = .held) (hfr : (s.tile (s.tileOf d)).stop.frozen = true) (hag : ∀ a, a < 8 → Turn.die a ∉ s.agenda)
    (hrep : ∀ r, (s.tile (s.tileOf d)).stop.report = some r → r.w0.getLsbD 20 = true) (hsome : (s.tile (s.tileOf d)).stop.report ≠ none) :
    exec (.tcmdResume d) s = .next ((s.resumeTile (s.tileOf d)).unblock d) := by
  have hok : s.resumeOk (s.tileOf d) = true := by
    obtain ⟨r, hr⟩ := Option.ne_none_iff_exists'.1 hsome
    unfold State.resumeOk
    simp only [hfr, tileHeld_some hp hst, hr, hrep r hr]
    rfl
  rw [tcmdResume_eq hb hm, hok, abortComing_none hag]
  rfl

theorem unblock_spec (u : State) (d p : Nat) :
    (u.unblock d).part p = u.part p ∧ (u.unblock d).copies = u.copies ∧ ((u.unblock d).fwc d).blk = none := by
  refine ⟨rfl, rfl, ?_⟩
  unfold State.unblock
  rw [State.fwc_modFwc]

theorem resume_unblocked (t : Nat) (hp : (s.tile t).seat.part = some p) (hst : (s.part p).st = .held) :
    let r := (s.resumeTile t).unblock d
    (r.tile t).stop.frozen = false ∧ (r.tile t).stop.report = none ∧ (r.tile t).stop.tpend = false ∧ (r.fwc d).blk = none
    ∧ ((∀ lt, lt < 64 * (s.part p).bind.length → (s.part p).phys lt ≠ t → (s.tile ((s.part p).phys lt)).stop.frozen = false) →
        (r.part p).st = (s.part p).heldFrom ∧ (r.part p).deadline = (s.part p).deadline + (s.time - (s.part p).heldAt))
    ∧ (OtherFrozen s p t → (r.part p).st = .held) := by
  obtain ⟨hheld, hleft⟩ := resumeTile_spec hp hst
  have htile : (s.resumeTile t).tile t = (s.tile t).resumed := by
    by_cases h : OtherFrozen s p t
    · rw [hheld h]; exact State.tile_modTile ..
    · rw [hleft h]; exact State.tile_modTile ..
  have hblk := (unblock_spec (s.resumeTile t) d p).2.2
  refine ⟨congrArg (·.stop.frozen) htile, congrArg (·.stop.report) htile, congrArg (·.stop.tpend) htile, hblk, fun hnone => ?_, fun h => ?_⟩
  · have hno : ¬OtherFrozen s p t := by
      rintro ⟨lt, hlt, hne, hf⟩
      rw [hnone lt hlt hne] at hf
      exact Bool.false_ne_true hf
    have hpart : ((s.resumeTile t).unblock d).part p = (s.part p).resumed s.time s.ticks := by
      rw [hleft hno]
      show ((s.modTile t Tile.resumed).modPart p (Part.resumed · s.time s.ticks)).part p = _
      exact State.part_modPart ..
    exact ⟨congrArg Part.st hpart, congrArg Part.deadline hpart⟩
  · rw [hheld h]
    exact hst

theorem tcmdResume_refused (hb : (s.fwc d).blk = some (.tcmd 1 m)) (hm : m ≤ (s.fwc d).cyc)
    (h : (s.tile (s.tileOf d)).stop.frozen = false ∨ s.abortComing (s.tileOf d) = true) :
    exec (.tcmdResume d) s = .next (s.exception d 0x18 1 (s.fwc d).blkAt) := by
  rw [tcmdResume_eq hb hm]
  refine congrArg Host.Outcome.next (if_neg ?_)
  rcases h with h | h
  · simp [State.resumeOk, h]
  · simp [h]

theorem tcmdAbort_taken (hb : (s.fwc d).blk = some (.tcmd 2 m)) (hm : m ≤ (s.fwc d).cyc) (hp : (s.tile (s.tileOf d)).seat.part = some p)
    (hst : (s.part p).st = .held) : ∃ s', exec (.tcmdAbort d) s = .next s' ∧ (s'.part p).st = .aborted ∧ (s'.fwc d).blk = none
      ∧ ∀ c ∈ s'.copies, c.part = p → c.st ≠ .armed ∧ c.st ≠ .buffered := by
  obtain ⟨l, hpart, -, hcopies⟩ := abort_spec s p
  obtain ⟨hkeep, hck, hblk⟩ := unblock_spec (s.abort p) d p
  refine ⟨_, (tcmdAbort_eq hb hm).1 p (tileHeld_some hp hst), by rw [hkeep, hpart], hblk, fun c hc hcp => ?_⟩
  rw [hck, hcopies, List.mem_filter] at hc
  simpa [hcp] using hc.2

theorem divisorApply_idle (hdiv : (s.die d).divAt = some m) (hm : m ≤ s.ticks) (hidle : s.dieActive d = false) :
    exec (.divisorApply d) s = .next (s.setDie d { s.die d with cur := (s.die d).div, divAt := none }) := by
  have hx : exec (.divisorApply d) s = execDivisorApply d s := rfl
  unfold execDivisorApply at hx
  rw [hdiv] at hx
  exact hx.trans (congrArg Host.Outcome.next (if_pos (by simp [hm, hidle])))

end

/-- Settles O37: the doors of TCMD by the held partition, the save tile by tile, and what each end of it writes. -/
theorem partitionCommands : Obligations.PartitionCommands := by
  intro s p d q f t n
  refine ⟨fun h => ?_, timeZoneSlip_spec, ?_, ?_, ?_, fun m => tcmdAbort_taken, ?_, fun hst hodd htick hpre => saveEntry_spec rfl hst hodd htick hpre,
    saveEntry_not, fun hst hfree hend hc => ?_, fun c hst hfree hend hc => ⟨fun m h => ?_, fun m cause h => ?_, fun m h => ?_⟩, fun c lt => ?_,
    fun m => divisorApply_idle⟩
  · exact congrArg Host.Outcome.next (if_pos h)
  · intro m hb hm hp hst hfr hag hrep hsome
    exact ⟨_, tcmdResume_taken hb hm hp hst hfr hag hrep hsome, resume_unblocked t hp hst⟩
  · exact fun m hb hm hfr => tcmdResume_refused hb hm (.inl hfr)
  · intro m a m' hb hm ha hag hleft hdreset hba hma hst hp hpa
    refine tcmdResume_refused hb hm (.inr (abortComing_mtsr ha hag hleft hdreset hba hma ?_))
    exact (tileHeld_some hpa hst).trans hp.symm
  · exact fun m hb hm hp hst => (tcmdAbort_eq hb hm).2 (tileHeld_none hp hst)
  · obtain ⟨q', hpart, hab, hcause⟩ := failed_spec (s := s) p Cause.translation
    exact ⟨_, saveComplete_unmapped hst hfree hend hc, hpart ▸ hab, hpart ▸ hcause⟩
  · obtain ⟨w, hx⟩ := saveComplete_saved hst hfree hend hc h
    obtain ⟨hidle, hpre, hrun, hreplies⟩ := saved_spec m p w (m.modTiles p Tile.still).ticks
    exact ⟨_, hx, fun _ => ⟨hidle, hrun⟩, hpre, hreplies⟩
  · obtain ⟨q', hpart, hab, hcause⟩ := failed_spec (s := m) p cause
    exact ⟨_, saveComplete_failed hst hfree hend hc h, hpart ▸ hab, hpart ▸ hcause⟩
  · exact saveComplete_held hst hfree hend hc h
  · intro u via
    refine ⟨fun e => saveTile_untranslated, fun r pa sc hvia => ?_⟩
    intro n
    refine ⟨saveTile_refused hvia, fun hctx => ⟨fun e => saveTile_unreached hvia hctx, fun v a hreach => ?_⟩⟩
    obtain ⟨-, hpa, -⟩ := id hctx
    exact ⟨frontReach_addr hpa hreach, saveTile_written hvia hctx hreach, fun m => saveTile_lost hvia hctx hreach⟩

end Sys2Proof.Proofs
end

section
/-! PROOF. The copy words of the exchange port (O27). -/

namespace Sys2Proof.Machine
open Claims (RecordsFree RegionsFree liveHandle translated engineTakes)

section
variable {s s' : State} {t d p : Nat}

/-! ### Translation of the pages of a copy (R317, R319) -/

/-- A walk in memory without errors changes none of these. -/
structure Walked (s r : State) : Prop where
  kept : Kept s r
  ctxs : r.ctxs = s.ctxs
  hbm : r.hbm = []

theorem Walked.refl (h : s.hbm = []) : Walked s s := ⟨Kept.refl s, rfl, h⟩

theorem Walked.trans {r u : State} (h : Walked s r) (h' : Walked r u) : Walked s u :=
  ⟨h.kept.trans h'.kept, h'.ctxs.trans h.ctxs, h'.hbm⟩

theorem Walked.physWrite (h : s.hbm = []) (a : Nat) (bs : List Byte) : Walked s (s.physWrite a bs) := by
  refine ⟨Kept.physWrite s a bs, ?_, ?_⟩
  · unfold State.physWrite
    split <;> rfl
  · unfold State.physWrite
    split
    · exact h
    · show List.filter _ s.hbm = []
      rw [h]
      rfl

theorem walkPage_walked {g : Page} {x : Xlat} (h : s.hbm = []) (hw : s.walkPage d p g = (s', some x)) : Walked s s' := by
  unfold State.walkPage at hw
  dsimp only at hw
  split at hw
  · cases hw
  next l _ =>
    by_cases hb : (g.rd && !bit l.bits 2 || g.wr && !bit l.bits 3 || !s.scAgrees p g.lo l.size (bit l.bits 4)) = true
    · rw [if_pos hb] at hw
      cases hw
    · rw [if_neg hb] at hw
      have hset : Walked s (if l.bits % 256 ||| 0x20 ||| (if g.wr then 0x40 else 0) = l.bits % 256 then s
          else s.physWrite l.at_ [BitVec.ofNat 8 (l.bits % 256 ||| 0x20 ||| (if g.wr then 0x40 else 0))]) := by
        by_cases hn : l.bits % 256 ||| 0x20 ||| (if g.wr then 0x40 else 0) = l.bits % 256
        · rw [if_pos hn]; exact Walked.refl h
        · rw [if_neg hn]; exact Walked.physWrite h ..
      cases hw
      exact hset.trans ⟨⟨rfl, rfl, rfl, rfl, rfl, rfl⟩, rfl, hset.hbm⟩

theorem translate_walked {g : Page} {x : Xlat} (h : s.hbm = []) (hw : s.translate d p g = .ok (s', x)) : Walked s s' := by
  have hb : (s.bumpDie d 0x24 1).hbm = [] := h
  have hbump : Walked s (s.bumpDie d 0x24 1) := ⟨⟨rfl, rfl, rfl, rfl, rfl, rfl⟩, rfl, h⟩
  unfold State.translate at hw
  dsimp only at hw
  split at hw
  · split at hw
    · cases hw; exact Walked.refl h
    · cases hw
  · rw [State.touchWords_clean hb] at hw
    dsimp only at hw
    split at hw
    · cases hw
    · next heq =>
      cases hw
      exact hbump.trans (walkPage_walked hb heq)

theorem translateAll_walked {all : List Page} : ∀ (pages : List Page) {s s' : State} {xs : List Xlat}, s.hbm = [] →
    s.translateAll d p all pages = .ok (s', xs) → Walked s s' := by
  intro pages
  induction pages with
  | nil =>
    intro s s' xs h hw
    cases hw
    exact Walked.refl h
  | cons g pages ih =>
    intro s s' xs h hw
    unfold State.translateAll at hw
    dsimp only at hw
    split at hw
    · split at hw <;> cases hw
    · next u x hu =>
      have hg := translate_walked h hu
      split at hw
      · cases hw
      · next hv =>
        cases hw
        exact hg.trans (ih hg.hbm hv)

/-! ### A copy is placed (R30, R38, R252, R265) -/

/-- The copy that a word places, its pages translated. -/
def placedCopy (s s' : State) (t p : Nat) (w : CopyWord) (r : List Byte) (rd wr : List Side) (xs : List Xlat) : Copy :=
  let x := s.tile t
  let q := s'.part p
  let compute := x.seat.phase % 2 == 0
  { id := s'.nextId, tile := t, lt := x.seat.lt, part := p, eng := w.eng, head := x.pxp.pc, kind := w.kind
    ord := w.ord, sem := w.sem, off := w.off, pay := w.pay, pasid := (s'.ctx q.ctx.toNat).pasid, rcd := r, time := w.time
    due := (if q.phase = x.seat.phase then q.origin else q.next.getD q.origin) + w.time
    phase := if compute then x.seat.phase + 1 else x.seat.phase, st := if compute then .armed else .buffered
    leftAt := 0, landAt := 0, retireAt := 0, pages := distinct xs, rd := linesOf xs rd, wr := linesOf xs wr
    gran := granulesOf (virtualRuns (rd ++ wr)), ats := false, atsOk := false, issued := x.cyc + 1 }

/-- A copy joins the machine's, and counts at its tile. -/
def State.addCopy (s : State) (t : Nat) (c : Copy) : State :=
  { s.draw with copies := s.copies ++ [c], nextId := s.nextId + 1 }.modTile t fun y =>
    ({ y with xp := { y.xp with count := y.xp.count + 1 } }).bump 0x0C 1

section
variable {w : CopyWord} {r : List Byte} {rd wr : List Side} {pages : List Page} (hp : (s.tile t).seat.part = some p)
include hp

theorem placeCopy_held (h : s.walksHeld (t / 64) p pages = true) : placeCopy s t w r rd wr pages = .hold s := by
  unfold placeCopy
  dsimp only
  rw [partNo_eq hp]
  exact if_pos h

theorem placeCopy_failed {cause : BitVec 8} {a : Nat} (h : s.walksHeld (t / 64) p pages = false)
    (ht : s.translateAll (t / 64) p pages pages = .error (s', cause, a)) :
    placeCopy s t w r rd wr pages = .fail s' cause (BitVec.ofNat 64 a) := by
  unfold placeCopy
  dsimp only
  rw [partNo_eq hp, show dieOf t = t / 64 from rfl, h, ht]
  rfl

variable {xs : List Xlat} (hw : s.walksHeld (t / 64) p pages = false) (ht : s.translateAll (t / 64) p pages pages = .ok (s', xs))
  (hx : s'.nextId = s.nextId ∨ (s.tile t).stop.xlated = true)
include hw ht hx

/-- With every page translated the engine decides. -/
theorem placeCopy_translated : placeCopy s t w r rd wr pages =
    if (s.tile t).seat.phase % 2 == 0 && ((s.tile t).xp.sealed || decide (4 ≤ s.quota t w.eng)) then .trap Cause.schedule 0
    else if 4 ≤ s.quota t w.eng then .hold s
    else .go (s'.addCopy t (placedCopy s s' t p w r rd wr xs)) Eff.nil := by
  unfold placeCopy
  dsimp only
  rw [partNo_eq hp, show dieOf t = t / 64 from rfl, hw, ht]
  dsimp only
  rw [if_neg (by decide), if_neg]
  · rfl
  · rcases hx with hx | hx <;> simp [hx]

theorem placeCopy_schedule (hph : (s.tile t).seat.phase % 2 = 0) (hq : (s.tile t).xp.sealed = true ∨ 4 ≤ s.quota t w.eng) :
    placeCopy s t w r rd wr pages = .trap Cause.schedule 0 := by
  rw [placeCopy_translated hp hw ht hx]
  exact if_pos (by simpa [hph] using hq)

theorem placeCopy_full (hph : (s.tile t).seat.phase % 2 = 1) (hq : 4 ≤ s.quota t w.eng) :
    placeCopy s t w r rd wr pages = .hold s := by
  rw [placeCopy_translated hp hw ht hx, if_neg (by simp [hph])]
  exact if_pos hq

theorem placeCopy_taken (he : engineTakes s t w.eng) :
    placeCopy s t w r rd wr pages = .go (s'.addCopy t (placedCopy s s' t p w r rd wr xs)) Eff.nil := by
  obtain ⟨hseal, hq⟩ := he
  have hq : ¬4 ≤ s.quota t w.eng := Nat.not_le.2 hq
  rw [placeCopy_translated hp hw ht hx, if_neg, if_neg hq]
  rw [decide_eq_false hq, Bool.or_false, Bool.and_eq_true, beq_iff_eq]
  rintro ⟨hph, hsl⟩
  exact Bool.false_ne_true ((hseal hph).symm.trans hsl)
end

/-! ### The region table of ranges (R324) -/

theorem regionsFree_iff {rs : List (Nat × Nat)} :
    (((granulesOf rs).flatMap fun g => s.regionWords p (0x200000 * g)).any (s.addrHeld (Config.dieSite (t / 64)))) = false ↔
      RegionsFree s t p rs := by
  simp only [List.any_eq_false, List.mem_flatMap, Bool.not_eq_true]
  exact ⟨fun h g hg a ha => h a ⟨g, hg, ha⟩, fun h a ⟨g, hg, ha⟩ => h g hg a ha⟩

theorem readRegions_held {rs : List (Nat × Nat)} {k : State → Act} (h : ¬RegionsFree s t p rs) : s.readRegions t p rs k = .hold s := by
  unfold State.readRegions
  exact if_pos (Bool.not_eq_false _ ▸ mt regionsFree_iff.1 h)

theorem readRegions_clean {rs : List (Nat × Nat)} {k : State → Act} (h : RegionsFree s t p rs) (hb : s.hbm = []) :
    s.readRegions t p rs k = k s := by
  unfold State.readRegions
  dsimp only
  rw [show dieOf t = t / 64 from rfl, regionsFree_iff.2 h, State.touchWords_clean hb]
  rfl

end

theorem engWord_lost {s s' : State} {t : Nat} {e : Eng} {w : Form} {act : Nat → State → Act} {a : DWord} (h : Ready s t e w.h w.leg)
    (ha : act t s = .lost s' a) : engWord e w act s = .next ((s'.trapWord t e Cause.translation a).noResume t) := by
  rw [engWord_ready s t e w act h, ha]

/-! ### The checks of XCOPY, XGATH and XSCAT, in their order (R111, R116, R124, R252-R256) -/

/-- The handle is live, its record valid and of the word's mode (R252, R255). -/
structure GoodRecord (s : State) (t p : Nat) (k : CopyKind) (hs hg : BitVec 16) : Prop where
  live : liveHandle (s.record p hs.toNat (s.tile t).seat.lt) hg
  valid : Record.valid (s.record p hs.toNat (s.tile t).seat.lt) (s.part p).tiles = true
  mode : k = .copy ∨ Record.mode (s.record p hs.toNat (s.tile t).seat.lt) = 0

/-- The footprint of a copy word. -/
def State.footOf (s : State) (t p : Nat) (w : CopyWord) (hs : BitVec 16) : Except Nat Sides :=
  footprint ⟨(s.tile t).seat.lt, w.off, t, s.part p⟩ w.kind (s.record p hs.toNat (s.tile t).seat.lt)

/-- A side that is read lies in another tile's scratchpad (R116). -/
def Foreign (t : Nat) (f : Sides) : Prop := ∃ y ∈ f.rd, ∃ u, y.scr = some u ∧ u ≠ t

theorem foreign_iff {t : Nat} {f : Sides} : (f.rd.any fun y => y.scr.isSome && y.scr != some t) = true ↔ Foreign t f := by
  rw [List.any_eq_true]
  refine exists_congr fun y => and_congr_right fun _ => ?_
  cases y.scr <;> simp

/-- What a copy word checks of its ranges once its scratchpad ranges stand, and its place. -/
def checkVirtual (s : State) (t p : Nat) (w : CopyWord) (r : List Byte) (f : Sides) : Act :=
  let x := s.tile t
  s.readRegions t p (virtualRuns (f.rd ++ f.wr)) fun s =>
    match ownedBy s p x.seat.lt (virtualRuns (f.rd ++ f.wr)) with
    | some g => violation (0x200000 * g)
    | none =>
      match virtualOut (f.rd ++ f.wr) with
      | some a => .lost s (auxOf a)
      | none => placeCopy s t w r f.rd f.wr (pagesOf (virtualRuns f.rd) (virtualRuns f.wr))

/-- What a copy word with a good record checks of its sides. -/
def checkSides (s : State) (t p : Nat) (w : CopyWord) (r : List Byte) (f : Sides) : Act :=
  if f.rd.any fun y => y.scr.isSome && y.scr != some t then violation (Record.edesc r).addr
  else
    match scratchOut (f.rd ++ f.wr) with
    | some a => .trap Cause.ownership (auxOf a)
    | none => checkVirtual s t p w r f

section
variable {s : State} {t p : Nat} {w : CopyWord} {hs hg : BitVec 16} (hp : (s.tile t).seat.part = some p)
include hp

theorem copyWord_stale (h : ¬liveHandle (s.record p hs.toNat (s.tile t).seat.lt) hg) :
    copyWord s t w hs hg = .trap Cause.stale (handleAux hs hg) := by
  unfold copyWord
  dsimp only
  rw [partNo_eq hp]
  exact if_pos ((staleHandle_iff _ _).2 h)

theorem copyWord_shape (hl : liveHandle (s.record p hs.toNat (s.tile t).seat.lt) hg)
    (h : Record.valid (s.record p hs.toNat (s.tile t).seat.lt) (s.part p).tiles = false
      ∨ w.kind ≠ .copy ∧ Record.mode (s.record p hs.toNat (s.tile t).seat.lt) ≠ 0) : copyWord s t w hs hg = .trap Cause.shape 0 := by
  unfold copyWord
  dsimp only
  rw [partNo_eq hp, staleHandle_live hl, if_neg Bool.false_ne_true]
  refine if_pos ?_
  rcases h with h | h <;> simp [h]

variable (hgood : GoodRecord s t p w.kind hs hg)
include hgood

omit hp in
theorem GoodRecord.passes : (!Record.valid (s.record p hs.toNat (s.tile t).seat.lt) (s.part p).tiles
    || w.kind != .copy && Record.mode (s.record p hs.toNat (s.tile t).seat.lt) != 0) = false := by
  rcases hgood.mode with h | h <;> simp [hgood.valid, h]

theorem copyWord_outside {a : Nat} (h : s.footOf t p w hs = .error a) : copyWord s t w hs hg = violation a := by
  unfold State.footOf at h
  unfold copyWord
  dsimp only
  rw [partNo_eq hp, staleHandle_live hgood.live, if_neg Bool.false_ne_true, GoodRecord.passes hgood, if_neg Bool.false_ne_true, h]

/-- A word with a good record and a footprint goes on to its sides. -/
theorem copyWord_sides {f : Sides} (h : s.footOf t p w hs = .ok f) :
    copyWord s t w hs hg = checkSides s t p w (s.record p hs.toNat (s.tile t).seat.lt) f := by
  unfold State.footOf at h
  unfold copyWord
  dsimp only
  rw [partNo_eq hp, staleHandle_live hgood.live, if_neg Bool.false_ne_true, GoodRecord.passes hgood, if_neg Bool.false_ne_true, h]
  rfl
end

section
variable {s : State} {t p : Nat} {w : CopyWord} {r : List Byte} {f : Sides}

theorem checkSides_foreign (h : Foreign t f) : checkSides s t p w r f = violation (Record.edesc r).addr := by
  unfold checkSides
  exact if_pos (foreign_iff.2 h)

section
variable (hown : ∀ y ∈ f.rd, ∀ u, y.scr = some u → u = t)
include hown

theorem not_foreign : ¬Foreign t f := fun ⟨y, hy, u, hu, hne⟩ => hne (hown y hy u hu)

theorem checkSides_scratch {a : Int} (h : scratchOut (f.rd ++ f.wr) = some a) :
    checkSides s t p w r f = .trap Cause.ownership (auxOf a) := by
  unfold checkSides
  rw [if_neg (mt foreign_iff.1 (not_foreign hown)), h]

variable (hin : scratchOut (f.rd ++ f.wr) = none)
include hin

theorem checkSides_virtual : checkSides s t p w r f = checkVirtual s t p w r f := by
  unfold checkSides
  rw [if_neg (mt foreign_iff.1 (not_foreign hown)), hin]

theorem checkSides_held (h : ¬RegionsFree s t p (virtualRuns (f.rd ++ f.wr))) : checkSides s t p w r f = .hold s := by
  rw [checkSides_virtual hown hin]
  exact readRegions_held h

variable (hb : s.hbm = []) (hfree : RegionsFree s t p (virtualRuns (f.rd ++ f.wr)))
include hb hfree

theorem checkSides_owned {m : Nat} (h : ownedBy s p (s.tile t).seat.lt (virtualRuns (f.rd ++ f.wr)) = some m) :
    checkSides s t p w r f = violation (0x200000 * m) := by
  rw [checkSides_virtual hown hin, checkVirtual, readRegions_clean hfree hb]
  rw [h]

variable (hmine : ownedBy s p (s.tile t).seat.lt (virtualRuns (f.rd ++ f.wr)) = none)
include hmine

theorem checkSides_beyond {a : Int} (h : virtualOut (f.rd ++ f.wr) = some a) : checkSides s t p w r f = .lost s (auxOf a) := by
  rw [checkSides_virtual hown hin, checkVirtual, readRegions_clean hfree hb]
  rw [hmine, h]

theorem checkSides_placed (h : virtualOut (f.rd ++ f.wr) = none) :
    checkSides s t p w r f = placeCopy s t w r f.rd f.wr (pagesOf (virtualRuns f.rd) (virtualRuns f.wr)) := by
  rw [checkSides_virtual hown hin, checkVirtual, readRegions_clean hfree hb]
  rw [hmine, h]
end

end

/-! ### The checks of XFLAG (R268) -/

/-- Where the flag of a record lies for logical tile `lt`, and the flag as a side. -/
def flagAt (r : List Byte) (lt : Nat) : Int := ((Record.ddesc r).addr : Int) + lt * recInt r 0x14
def flagSide (r : List Byte) (lt : Nat) : Side := ⟨none, [(flagAt r lt, 2 ^ Record.esize r)]⟩

/-- Every granule of the ranges is shared and coherent (R268, R324). -/
def Shared (s : State) (p : Nat) (rs : List (Nat × Nat)) : Prop :=
  ∀ k ∈ granulesOf rs, ∃ e, s.region p (0x200000 * k) = some e ∧ e.sc = true

theorem shared_iff {s : State} {p : Nat} {rs : List (Nat × Nat)} :
    ((granulesOf rs).any fun g => !((s.region p (0x200000 * g)).map (·.sc)).getD false) = false ↔ Shared s p rs := by
  rw [List.any_eq_false]
  refine forall₂_congr fun g _ => ?_
  cases s.region p (0x200000 * g) <;> simp

/-- What XFLAG checks of the place of its flag. -/
def checkFlag (s : State) (t p : Nat) (w : CopyWord) (r : List Byte) (lt : Nat) : Act :=
  s.readRegions t p (virtualRuns [flagSide r lt]) fun s =>
    if (granulesOf (virtualRuns [flagSide r lt])).any fun g => !((s.region p (0x200000 * g)).map (·.sc)).getD false then
      .trap Cause.ownership (auxOf (flagAt r lt))
    else
      match virtualOut [flagSide r lt] with
      | some b => .lost s (auxOf b)
      | none => placeCopy s t w r [] [flagSide r lt] (pagesOf (virtualRuns [flagSide r lt]) (virtualRuns [flagSide r lt]))

section
variable {s : State} {t p : Nat} {w : CopyWord} {hs hg : BitVec 16} {r : List Byte} (hp : (s.tile t).seat.part = some p)
  (hr : s.record p hs.toNat (s.tile t).seat.lt = r)
include hp hr

theorem flagWord_stale (h : ¬liveHandle r hg) : flagWord s t w hs hg = .trap Cause.stale (handleAux hs hg) := by
  unfold flagWord
  dsimp only
  rw [partNo_eq hp, hr]
  exact if_pos ((staleHandle_iff _ _).2 h)

variable (hl : liveHandle r hg)
include hl

theorem flagWord_shape (h : Record.valid r (s.part p).tiles = false ∨ Record.esize r < 2) :
    flagWord s t w hs hg = .trap Cause.shape 0 := by
  unfold flagWord
  dsimp only
  rw [partNo_eq hp, hr, staleHandle_live hl, if_neg Bool.false_ne_true]
  refine if_pos ?_
  rcases h with h | h <;> simp [h]

variable (hv : Record.valid r (s.part p).tiles = true) (hz : 2 ≤ Record.esize r)
include hv hz

/-- A flag with a good record goes on to its place. -/
theorem flagWord_good : flagWord s t w hs hg =
    if (Record.ddesc r).kind ≠ 0 then violation (Record.ddesc r).addr else checkFlag s t p w r (s.tile t).seat.lt := by
  unfold flagWord
  dsimp only
  rw [partNo_eq hp, hr, staleHandle_live hl, if_neg Bool.false_ne_true, if_neg (by simp [hv]; omega)]
  rfl
end

section
variable {s : State} {t p : Nat} {w : CopyWord} {r : List Byte} {lt : Nat}

theorem checkFlag_held (h : ¬RegionsFree s t p (virtualRuns [flagSide r lt])) : checkFlag s t p w r lt = .hold s :=
  readRegions_held h

variable (hb : s.hbm = []) (hfree : RegionsFree s t p (virtualRuns [flagSide r lt]))
include hb hfree

theorem checkFlag_private (h : ¬Shared s p (virtualRuns [flagSide r lt])) :
    checkFlag s t p w r lt = .trap Cause.ownership (auxOf (flagAt r lt)) :=
  (readRegions_clean hfree hb).trans (if_pos (Bool.not_eq_false _ ▸ mt shared_iff.1 h))

variable (hsc : Shared s p (virtualRuns [flagSide r lt]))
include hsc

theorem checkFlag_beyond {b : Int} (h : virtualOut [flagSide r lt] = some b) : checkFlag s t p w r lt = .lost s (auxOf b) := by
  refine (readRegions_clean hfree hb).trans ((if_neg (Bool.not_eq_true _ ▸ shared_iff.2 hsc)).trans ?_)
  rw [h]

theorem checkFlag_placed (h : virtualOut [flagSide r lt] = none) : checkFlag s t p w r lt =
    placeCopy s t w r [] [flagSide r lt] (pagesOf (virtualRuns [flagSide r lt]) (virtualRuns [flagSide r lt])) := by
  refine (readRegions_clean hfree hb).trans ((if_neg (Bool.not_eq_true _ ▸ shared_iff.2 hsc)).trans ?_)
  rw [h]
end

/-! ### A word by its action (R252) -/

section
variable {s s' : State} {t p : Nat} {h : Ring} {act : Nat → State → Act}

theorem addCopy_tile (s : State) (t : Nat) (c : Copy) : ((s.addCopy t c).tile t).xp.count = (s.tile t).xp.count + 1
    ∧ ((s.addCopy t c).tile t).store = (s.tile t).store ∧ ((s.addCopy t c).tile t).ctl = (s.tile t).ctl
    ∧ ∀ u, u ≠ t → (s.addCopy t c).tile u = s.tile u := by
  unfold State.addCopy
  rw [State.tile_modTile]
  exact ⟨rfl, rfl, rfl, fun u hu => State.tile_modTile_ne _ _ _ _ hu⟩

/-- A copy placed after a walk of its pages is placed as the statement says. -/
theorem addCopy_placed {w : CopyWord} {r : List Byte} {rd wr : List Side} {xs : List Xlat} (hw : Walked s s') :
    Claims.placed s ((s'.addCopy t (placedCopy s s' t p w r rd wr xs)).issued t .xp h 3 Eff.nil) t p h (placedCopy s s' t p w r rd wr xs) := by
  have hpart := hw.kept.part p
  have hctx (k : Nat) : s'.ctx k = s.ctx k := congrArg (Map.get · State.ctx0 k) hw.ctxs
  obtain ⟨hcount, hstore, hctl, hother⟩ := addCopy_tile s' t (placedCopy s s' t p w r rd wr xs)
  rw [hw.kept.tile] at hcount hstore hctl
  refine ⟨_, rfl, congrArg (· ++ [_]) hw.kept.copies, rfl, rfl, rfl, rfl, ?_, fun hph => ?_, fun hph => ?_, ?_, hcount, hstore, hctl,
    fun u hu => (hother u hu).trans (hw.kept.tile u)⟩
  · unfold placedCopy
    dsimp only
    rw [hctx, hpart]
  · simp [placedCopy, hph]
  · simp [placedCopy, hph]
  · unfold placedCopy
    dsimp only
    rw [hpart]

/-- What a word does that has passed its checks before its placing (R252, R265, R318, R368). -/
theorem notPlaced_of {i : Instr} {w : CopyWord} {r : List Byte} {rd wr : List Side} {pages : List Page} (hr : Ready s t .xp h .cx)
    (hp : (s.tile t).seat.part = some p) (hx : exec i s = engWord .xp (Form.xp h 3) act s) (ha : act t s = placeCopy s t w r rd wr pages) :
    Claims.notPlaced i s t p w.eng pages := by
  refine ⟨fun hheld => ?_, fun hfree r cause a hfail => ?_, ?_, ?_⟩
  · exact hx.trans (engWord_hold (w := Form.xp h 3) hr (ha.trans (placeCopy_held hp hheld)))
  · exact hx.trans (engWord_fail (w := Form.xp h 3) hr (ha.trans (placeCopy_failed hp hfree hfail)))
  · rintro ⟨hw, v, xs, ht, hn⟩ hph hq
    exact hx.trans (engWord_trap (w := Form.xp h 3) hr (ha.trans (placeCopy_schedule hp hw ht hn hph hq)))
  · rintro ⟨hw, v, xs, ht, hn⟩ hph hq
    exact hx.trans (engWord_hold (w := Form.xp h 3) hr (ha.trans (placeCopy_full hp hw ht hn hph hq)))

/-- A word that the engine takes places its copy. -/
theorem placed_of {i : Instr} {w : CopyWord} {r : List Byte} {rd wr : List Side} {pages : List Page} (hr : Ready s t .xp h .cx)
    (hp : (s.tile t).seat.part = some p) (hx : exec i s = engWord .xp (Form.xp h 3) act s) (ha : act t s = placeCopy s t w r rd wr pages)
    (hb : s.hbm = []) (htr : translated s t p pages) (he : engineTakes s t w.eng) :
    ∃ r' v xs, exec i s = .next r' ∧ Claims.placed s r' t p h (placedCopy s v t p w r rd wr xs) := by
  obtain ⟨hw, v, xs, ht, hn⟩ := htr
  exact ⟨_, v, xs, hx.trans (engWord_go (w := Form.xp h 3) hr (ha.trans (placeCopy_taken hp hw ht hn he))),
    addCopy_placed (translateAll_walked pages hb ht)⟩
end

end Sys2Proof.Machine

namespace Sys2Proof.Proofs
open Sys2Proof.Machine
open Claims (RecordsFree RegionsFree liveHandle translated engineTakes)

section
variable {s : State} {t p : Nat} {h : Ring} (hr : Ready s t .xp h .cx) (hp : (s.tile t).seat.part = some p)

/-- What an XCOPY, XGATH or XSCAT of a tile carries, and an XFLAG. -/
def copyOf (x : Tile) (k : CopyKind) (c : CopyF) : CopyWord := ⟨k, c.eng.toNat, c.ord, c.sem, x.offset c.ofs, 0, c.time.toNat⟩
def flagOf (x : Tile) (g : FlagF) : CopyWord := ⟨.flag g.fop, g.eng.toNat, g.ord, g.sem, 0, x.payload, g.time.toNat⟩

/-- The three copy words are one. -/
theorem copyForm_of {i : Instr} {c : CopyF} {k : CopyKind} (hi : (i, k) ∈ [(Instr.xcopy h c, CopyKind.copy), (.xgath h c, .gath), (.xscat h c, .scat)])
    (s : State) : exec i s = copyForm k h c s := by
  simp only [List.mem_cons, Prod.mk.injEq, List.not_mem_nil, or_false] at hi
  rcases hi with ⟨rfl, rfl⟩ | ⟨rfl, rfl⟩ | ⟨rfl, rfl⟩ <;> rfl

include hr hp

/-- With its record read a copy word is its checks. -/
theorem copyForm_read {c : CopyF} {k : CopyKind} (hb : s.hbm = []) (hf : RecordsFree s t p [c.hs.toNat]) :
    copyForm k h c s = engWord .xp (Form.xp h 3) (fun t s => copyWord s t (copyOf (s.tile t) k c) c.hs c.hg) s := by
  unfold copyForm
  rw [engWord_ready s t .xp (Form.xp h 3) _ hr, engWord_ready s t .xp (Form.xp h 3) _ hr]
  dsimp only
  rw [partNo_eq hp, readSlots_clean hf hb]
  rfl

theorem flag_read {g : FlagF} (hb : s.hbm = []) (hf : RecordsFree s t p [g.hs.toNat]) :
    exec (.xflag h g) s = engWord .xp (Form.xp h 3) (fun t s => flagWord s t (flagOf (s.tile t) g) g.hs g.hg) s := by
  have hx : exec (.xflag h g) s = execXflag h g s := rfl
  unfold execXflag at hx
  rw [hx, engWord_ready s t .xp (Form.xp h 3) _ hr, engWord_ready s t .xp (Form.xp h 3) _ hr]
  dsimp only
  rw [partNo_eq hp, readSlots_clean hf hb]
  rfl

omit hr hp in
theorem footOf_copyOf {c : CopyF} {k : CopyKind} : s.footOf t p (copyOf (s.tile t) k c) c.hs =
    footprint ⟨(s.tile t).seat.lt, if c.ofs then ((s.tile t).pxp.fs.headD 0).toInt else 0, t, s.part p⟩ k (s.record p c.hs.toNat (s.tile t).seat.lt) :=
  rfl

omit hr in
theorem copyChecked_place {c : CopyF} {k : CopyKind} {f : Sides} (hc : Claims.copyChecked s t p c k f) :
    copyWord s t (copyOf (s.tile t) k c) c.hs c.hg = placeCopy s t (copyOf (s.tile t) k c) (s.record p c.hs.toNat (s.tile t).seat.lt) f.rd f.wr
      (pagesOf (virtualRuns f.rd) (virtualRuns f.wr)) := by
  obtain ⟨hb, -, hfree, hl, hv, hm, hfoot, hown, hin, hmine, hout⟩ := hc
  have hsides := copyWord_sides (w := copyOf (s.tile t) k c) (hs := c.hs) (hg := c.hg) hp ⟨hl, hv, hm⟩ (footOf_copyOf.trans hfoot)
  exact hsides.trans (checkSides_placed hown hin hb hfree hmine hout)

omit hr in
theorem flagChecked_place {g : FlagF} {side : Side} (hc : Claims.flagChecked s t p g side) :
    flagWord s t (flagOf (s.tile t) g) g.hs g.hg = placeCopy s t (flagOf (s.tile t) g) (s.record p g.hs.toNat (s.tile t).seat.lt) [] [side]
      (pagesOf (virtualRuns [side]) (virtualRuns [side])) := by
  obtain ⟨hb, -, hfree, hl, hv, hz, hk, rfl, hsc, hout⟩ := hc
  rw [flagWord_good hp rfl hl hv hz, if_neg (not_not_intro hk)]
  exact checkFlag_placed hb hfree hsc hout

theorem copyWord_trapped {c : CopyF} {k : CopyKind} {i : Instr} {cause : BitVec 8} {a : DWord}
    (hi : (i, k) ∈ [(Instr.xcopy h c, CopyKind.copy), (.xgath h c, .gath), (.xscat h c, .scat)]) (hb : s.hbm = [])
    (hf : RecordsFree s t p [c.hs.toNat]) (ha : copyWord s t (copyOf (s.tile t) k c) c.hs c.hg = .trap cause a) :
    exec i s = .next (s.trapWord t .xp cause a) :=
  (copyForm_of hi s).trans ((copyForm_read hr hp hb hf).trans (engWord_trap (w := Form.xp h 3) hr ha))
end

theorem copyWordsRule : Claims.CopyWordsRule := by
  intro h c g s t p hr hp
  refine ⟨fun i k f hi hc htr he => ?_, fun side hc htr he => ?_⟩
  · have hx := (copyForm_of hi s).trans (copyForm_read hr hp hc.1 hc.2.1)
    obtain ⟨r', v, xs, hgo, hplaced⟩ := placed_of hr hp hx (copyChecked_place hp hc) hc.1 htr he
    exact ⟨r', _, hgo, hplaced, rfl, rfl, rfl, rfl, rfl, rfl, rfl⟩
  · obtain ⟨r', v, xs, hgo, hplaced⟩ := placed_of hr hp (flag_read hr hp hc.1 hc.2.1) (flagChecked_place hp hc) hc.1 htr he
    exact ⟨r', _, hgo, hplaced, rfl, rfl, rfl, rfl, rfl, rfl, rfl⟩

theorem copyWordStops : Claims.CopyWordStops := by
  intro h c s t p i k hr hp hi x q r stop foot read good
  refine ⟨?_, ?_, ?_, ?_, ?_, fun f hc => ?_⟩
  · rintro ⟨hb, hf⟩ hl
    rw [← handleAux_eq]
    exact copyWord_trapped hr hp hi hb hf (copyWord_stale hp hl)
  · rintro ⟨hb, hf⟩ hl hbad
    exact copyWord_trapped hr hp hi hb hf (copyWord_shape hp hl hbad)
  · rintro ⟨⟨hb, hf⟩, hl, hv, hm⟩ a ha
    exact copyWord_trapped hr hp hi hb hf (copyWord_outside hp ⟨hl, hv, hm⟩ (footOf_copyOf.trans ha))
  · rintro ⟨⟨hb, hf⟩, hl, hv, hm⟩ f hfoot hforeign
    exact copyWord_trapped hr hp hi hb hf ((copyWord_sides hp ⟨hl, hv, hm⟩ (footOf_copyOf.trans hfoot)).trans (checkSides_foreign hforeign))
  · rintro ⟨⟨hb, hf⟩, hl, hv, hm⟩ f hfoot hown
    have hact := copyWord_sides hp (w := copyOf x k c) (hs := c.hs) (hg := c.hg) ⟨hl, hv, hm⟩ (footOf_copyOf.trans hfoot)
    have hx := (copyForm_of hi s).trans (copyForm_read hr hp hb hf)
    refine ⟨fun a ha => ?_, fun hin => ⟨fun hheld => ?_, fun hfree => ⟨fun m hm => ?_, fun hmine a ha => ?_⟩⟩⟩
    · exact copyWord_trapped hr hp hi hb hf (hact.trans (checkSides_scratch hown ha))
    · exact hx.trans (engWord_hold (w := Form.xp h 3) hr (hact.trans (checkSides_held hown hin hheld)))
    · exact copyWord_trapped hr hp hi hb hf (hact.trans (checkSides_owned hown hin hb hfree hm))
    · exact hx.trans (engWord_lost (w := Form.xp h 3) hr (hact.trans (checkSides_beyond hown hin hb hfree hmine ha)))
  · exact notPlaced_of hr hp ((copyForm_of hi s).trans (copyForm_read hr hp hc.1 hc.2.1)) (copyChecked_place hp hc)

theorem flagStops : Claims.FlagStops := by
  intro h g s t p hr hp x r a side stop read good free shared
  have htrap {cause : BitVec 8} {b : DWord} (hread : read) (ha : flagWord s t (flagOf x g) g.hs g.hg = .trap cause b) :
      exec (.xflag h g) s = .next (s.trapWord t .xp cause b) :=
    (flag_read hr hp hread.1 hread.2).trans (engWord_trap (w := Form.xp h 3) hr ha)
  have hgood (hg' : good) := flagWord_good (w := flagOf x g) (hs := g.hs) hp rfl hg'.2.1 hg'.2.2.1 hg'.2.2.2
  refine ⟨fun hread hl => ?_, fun hread hl hbad => ?_, fun hg' hk => ?_, fun hg' hk hfree => ?_, fun hg' hk hfree hsc => ?_,
    fun hg' hk hfree hsc b hout => ?_, fun hc => ?_⟩
  · rw [← handleAux_eq]
    exact htrap hread (flagWord_stale hp rfl hl)
  · exact htrap hread (flagWord_shape hp rfl hl hbad)
  · exact htrap hg'.1 ((hgood hg').trans (if_pos hk))
  · refine (flag_read hr hp hg'.1.1 hg'.1.2).trans (engWord_hold (w := Form.xp h 3) hr ?_)
    exact (hgood hg').trans ((if_neg (not_not_intro hk)).trans (checkFlag_held hfree))
  · exact htrap hg'.1 ((hgood hg').trans ((if_neg (not_not_intro hk)).trans (checkFlag_private hg'.1.1 hfree hsc)))
  · refine (flag_read hr hp hg'.1.1 hg'.1.2).trans (engWord_lost (w := Form.xp h 3) hr ?_)
    exact (hgood hg').trans ((if_neg (not_not_intro hk)).trans (checkFlag_beyond hg'.1.1 hfree hsc hout))
  · exact notPlaced_of hr hp (flag_read hr hp hc.1 hc.2.1) (flagChecked_place hp hc)

/-- Settles O27: a copy word whose record is read is its checks in their order, and the last of them its placing. -/
theorem copyWords : Obligations.CopyWords := ⟨copyWordsRule, copyWordStops, flagStops⟩

end Sys2Proof.Proofs
end

section
/-! PROOF. The mask stack, the flags and the seeds of the vector unit (O20). -/

namespace Sys2Proof.Machine
open Claims (Clean)

section
variable {s : State} {t : Nat}

/-! ### Sources that can be read (R310, R375) -/

theorem fireRead_none (h : (s.die (t / 64)).inj = []) (slot : Nat) (sp : EccSpace) (a b : Nat) : s.fireRead (t / 64) slot sp a b = s := by
  have hk (k : Nat) : ((s.die (t / 64)).inj.get State.inj0 k).armed = false := by rw [h]; rfl
  unfold State.fireRead
  simp [hk]

theorem touch_intact (hecc : (s.tile t).store.ecc = []) (hw : (s.tile t).store.wiped = []) (hi : (s.die (t / 64)).inj = [])
    (who : BitVec 3 × Nat) (sp : EccSpace) (a b : Nat) : s.touch t who sp a b = (s, none) := by
  unfold State.touch
  rw [show dieOf t = t / 64 from rfl, fireRead_none hi]
  exact correct_intact hecc hw who sp a b

theorem touchOpnds_intact (hecc : (s.tile t).store.ecc = []) (hw : (s.tile t).store.wiped = []) (hi : (s.die (t / 64)).inj = [])
    (e : Eng) (srcs : List (Opnd × Nat)) : s.touchOpnds t e srcs = (s, none) := by
  have hruns (sp : EccSpace) (rs : List (Nat × Nat)) : s.touchRuns t e sp rs = (s, none) := by
    unfold State.touchRuns
    induction rs with
    | nil => rfl
    | cons r rs ih =>
      rw [List.foldl_cons]
      dsimp only
      rw [touch_intact hecc hw hi]
      exact ih
  unfold State.touchOpnds
  dsimp only
  induction srcs with
  | nil => rfl
  | cons o srcs ih =>
    rw [List.foldl_cons]
    dsimp only
    cases opndRuns (s.tile t) o.1 o.2 with
    | none => exact ih
    | some q =>
      dsimp only
      rw [hruns]
      exact ih

/-- What the operands of a word hold, where they can be read. -/
theorem sources_clean {named : List Opnd} (h : Clean s t named) (srcs : List (Opnd × Nat)) :
    s.sources t .vu named none srcs = .ok (s, srcs.map fun o => (s.tile t).opnd o.1 o.2) := by
  obtain ⟨hshape, hpbm, hecc, hw, hi⟩ := h
  have hdebug : debugHit (s.tile t) srcs = none := by
    unfold debugHit
    rw [hpbm]
    rfl
  unfold State.sources
  simp only [hshape, hdebug, touchOpnds_intact hecc hw hi, Bool.false_eq_true, if_false]

theorem sources_refused {named : List Opnd} {srcs : List (Opnd × Nat)} {a : Act} (h : shapeBad (s.tile t) named = false) :
    s.sources t .vu named (some a) srcs = .error a := by
  unfold State.sources
  simp only [h, Bool.false_eq_true, if_false]

/-- A two-word VU word whose sources can be read does what it says. -/
theorem vuTwo_go {h : Ring} {named : List Opnd} {srcs : List (Opnd × Nat)} {pre : Tile → Option Act} {act : Nat → Tile → State → List Nat → Act}
    {s' : State} {f : Eff} (hr : Ready s t .vu h .c) (hc : Clean s t named) (hpre : pre (s.tile t) = none)
    (ha : act t (s.tile t) s (srcs.map fun o => (s.tile t).opnd o.1 o.2) = .go s' f) :
    vuTwo h named srcs pre act s = .next (s'.issued t .vu h 2 f) := by
  refine engWord_go (w := .mk h 2 .c 1 1 true) hr ?_
  rw [hpre, sources_clean hc]
  exact ha

end

/-! ### Results and seeds -/

theorem vuOcc_one (a : Opnd) : vuOcc [a] = 4 := by
  cases a <;> rfl

/-- Lanes (0, 0) and (0, 1) of an operand. -/
theorem ofNat_el (v n : Nat) : BitVec.ofNat 32 (el 32 v n) = BitVec.ofNat 32 (v / 2 ^ (32 * n)) := by
  apply BitVec.eq_of_toNat_eq
  simp [el]

/-- An operand that names a memory lies in runs of it (R65). -/
theorem opndRuns_some (x : Tile) {d : Opnd} (hl : ∀ l, d ≠ .latch l) (hc : ∀ k, d ≠ .const k) (hr : d ≠ .ring) :
    ∃ sp rs, opndRuns x d 4096 = some (sp, rs) := by
  cases d with
  | main v i => exact ⟨_, _, rfl⟩
  | ofile e => exact ⟨_, _, rfl⟩
  | latch l => exact absurd rfl (hl l)
  | const k => exact absurd rfl (hc k)
  | ring => exact absurd rfl hr

end Sys2Proof.Machine

namespace Sys2Proof.Proofs
open Sys2Proof.Machine
open Claims (Clean)

section
variable {s : State} {t : Nat} {h : Ring} (hr : Ready s t .vu h .c)
include hr

theorem mpush_pushes {ty : EType} {a : Opnd} {fresh : Bool} (hc : Clean s t [a]) (hd : (s.tile t).vu.masks.length < 16) :
    let m := maskOf ty ((s.tile t).opnd a 4096)
    exec (.mpush h ty a fresh) s = .next (s.issued t .vu h 2
      ⟨[(4, .mask (.push (if fresh then m else m &&& (s.tile t).vu.masks.headD allNibbles)))], 4, 4, none, 0⟩) := by
  have hx : exec (.mpush h ty a fresh) s = execMpush h ty a fresh s := rfl
  unfold execMpush at hx
  refine hx.trans (vuTwo_go hr hc (if_neg (Nat.not_le.2 hd)) ?_)
  dsimp only
  rw [vuOcc_one]
  rfl

theorem mpush_full {ty : EType} {a : Opnd} {fresh : Bool} (hs : shapeBad (s.tile t) [a] = false) (hd : 16 ≤ (s.tile t).vu.masks.length) :
    exec (.mpush h ty a fresh) s = .next (s.trapWord t .vu 0x08 (BitVec.ofNat 64 (s.tile t).vu.masks.length)) := by
  refine engWord_trap (w := .mk h 2 .c 1 1 true) hr ?_
  dsimp only
  rw [if_pos hd, sources_refused hs]
  rfl

theorem maskWord_go {op : MaskOp} (hm : (s.tile t).vu.masks ≠ []) : maskWord h op s = .next (s.issued t .vu h 1 (Eff.of [(1, .mask op)])) := by
  refine engWord_go (w := .tile h .c) hr (if_neg ?_)
  rwa [List.isEmpty_iff]

theorem maskWord_empty {op : MaskOp} (hm : (s.tile t).vu.masks = []) : maskWord h op s = .next (s.trapWord t .vu 0x08 0) := by
  refine engWord_trap (w := .tile h .c) hr ((if_pos ?_).trans ?_)
  · rw [hm]; rfl
  · unfold maskFault
    rw [hm]
    rfl

/-- VFLG and its clearing form: the flags of the issue cycle (R212). -/
theorem vuFlags_go {d : Opnd} (hc : Clean s t [d]) (clr : Bool) : vuFlags h d clr s = .next
    ((if clr then s.modTile t fun y => { y with vu := { y.vu with vstat := 0 } } else s).issued t .vu h 2
      ⟨resultLands (s.tile t) 6 d .alu (splat (s.tile t).vu.vstat.toNat) allNibbles, 4, 6, none, 0⟩) :=
  vuTwo_go hr hc rfl rfl

/-- VSEED: its lands after a cycle (R211). -/
theorem vuSeed_go {a : Opnd} (hc : Clean s t [a]) (f : Word → Word → Land) : vuSeed h a f s = .next (s.issued t .vu h 2
    (Eff.of [(1, f (BitVec.ofNat 32 ((s.tile t).opnd a 8)) (BitVec.ofNat 32 ((s.tile t).opnd a 8 / 2 ^ 32)))])) := by
  refine vuTwo_go hr hc rfl ?_
  dsimp only [List.map]
  rw [ofNat_el, ofNat_el, Nat.mul_zero, Nat.pow_zero, Nat.div_one]
  rfl

/-- VQMX: elements to d, scales to l.alu (R199). -/
theorem vqmx_go {fmt : BlkFmt} {d a : Opnd} {q : BitVec 4} {rnd : Rnd} {sp : Space} {rs : List (Nat × Nat)} (hc : Clean s t [d, a])
    (hd : opndRuns (s.tile t) d 4096 = some (sp, rs)) :
    let p := blkPar fmt
    let v := (s.tile t).opnd a 4096
    let r := quantize (s.tile t) p q.toNat rnd (scalesOf p v) v
    let b := scaleBytes q.toNat (scalesOf p v)
    exec (.vqmx h fmt d a q rnd) s = .next (s.issued t .vu h 2
      ⟨(landRuns sp rs r.v r.wr ++ landRuns .lat [(0, 4096)] b.v b.wr).map (fun l => (10, l)) ++ flagLands 10 r.fl, 4, 10, none, 0⟩) := by
  have hx : exec (.vqmx h fmt d a q rnd) s = execVqmx h fmt d a q rnd s := rfl
  unfold execVqmx at hx
  refine hx.trans (vuTwo_go hr hc rfl ?_)
  dsimp only [whole, List.map]
  rw [hd, vuOcc_one]
  rfl
end

theorem vectorArrival : Claims.VectorArrival := fun h s t hr => by
  have hx : exec (.varrive h) s = execVarrive h s := rfl
  exact hx.trans (engWord_go (w := .tile h .cx) hr rfl)

theorem stateWords : Claims.StateWords := by
  intro h ty fmt d a q rnd pd fresh s t hr x v w depth go seed flg
  have hcx : Ready s t .vu h .cx := ⟨hr.1, hr.2.1, rfl, hr.2.2.2⟩
  have hinv : exec (.minv h) s = maskWord h .inv s := rfl
  have hpop : exec (.mpop h) s = maskWord h .pop s := rfl
  have hqry : exec (.mqry h pd) s = execMqry h pd s := rfl
  have hflg : exec (.vflg h d) s = vuFlags h d false s := rfl
  have hclr : exec (.vflgClr h d) s = vuFlags h d true s := rfl
  have hseed : exec (.vseedSeed h a) s = execVseedSeed h a s := rfl
  have hhnd : exec (.vseedHnd h a) s = execVseedHnd h a s := rfl
  have hidx : exec (.vseedIdx h a) s = execVseedIdx h a s := rfl
  have hadv : exec (.vseedAdv h a) s = execVseedAdv h a s := rfl
  refine ⟨fun hc hd => mpush_pushes hr hc hd, fun hs hd => mpush_full hr hs hd, fun hm => ?_, fun hm => ?_, ?_, vectorArrival h s t hcx,
    fun hc => ⟨hflg.trans (vuFlags_go hr hc false), hclr.trans (vuFlags_go hr hc true)⟩, fun hc => ?_, fun hc hl hk hring => ?_⟩
  · exact ⟨hinv.trans (maskWord_go hr hm), hpop.trans (maskWord_go hr hm)⟩
  · exact ⟨hinv.trans (maskWord_empty hr hm), hpop.trans (maskWord_empty hr hm)⟩
  · exact hqry.trans (engWord_go (w := .tile h .c) hr rfl)
  · exact ⟨hseed.trans (vuSeed_go hr hc _), hhnd.trans (vuSeed_go hr hc _), hidx.trans (vuSeed_go hr hc _), hadv.trans (vuSeed_go hr hc _)⟩
  · obtain ⟨sp, rs, hd⟩ := opndRuns_some x hl hk hring
    exact ⟨sp, rs, hd, vqmx_go hr hc hd⟩

end Sys2Proof.Proofs
end

section
/-! PROOF. Rounding into a floating format against the value it rounds (R85, R88-R91). -/

namespace Sys2Proof.Machine
open Claims (WholeRounded Delivers Rounded codeValue magnitude signBit IsFinite IsInfinite IsNaN withSign)

/-! ### Rounding to a whole number (R88, R94) -/

section
variable {md : RMode} {neg : Bool} {y : ℝ}

theorem wholeRounded_unique {a b : ℕ} (ha : WholeRounded md neg y a) (hb : WholeRounded md neg y b) : a = b := by
  obtain ⟨hu, ha⟩ | ⟨hu, ha⟩ := ha <;> obtain ⟨hv, hb⟩ | ⟨hv, hb⟩ := hb
  · rw [ha, hb]
  · exact absurd hu hv
  · exact absurd hv hu
  · rw [ha, hb]

theorem floor_le_wholeRounded {n : ℕ} (h : WholeRounded md neg y n) : ⌊y⌋₊ ≤ n := by
  obtain ⟨-, h⟩ | ⟨-, h⟩ := h <;> omega

theorem wholeRounded_le_floor {n : ℕ} (h : WholeRounded md neg y n) : n ≤ ⌊y⌋₊ + 1 := by
  obtain ⟨-, h⟩ | ⟨-, h⟩ := h <;> omega

/-- A whole number stays as it is, in a mode that keeps exact values. -/
theorem wholeRounded_nat (hk : md.draw 0 = false) (n : ℕ) : WholeRounded md neg n n := by
  refine .inr ⟨?_, (Nat.floor_natCast n).symm⟩
  rw [Nat.floor_natCast, sub_self]
  cases md.rnd <;> norm_num [hk]
end

theorem floor_natDiv (m sh : ℕ) : ⌊(m : ℝ) / 2 ^ sh⌋₊ = m / 2 ^ sh := by
  rw [show (2 : ℝ) ^ sh = ((2 ^ sh : ℕ) : ℝ) by push_cast; rfl]
  exact Nat.floor_div_eq_div m _

/-- The part of a quotient below one. -/
theorem natDiv_sub_floor (m sh : ℕ) : (m : ℝ) / 2 ^ sh - (m / 2 ^ sh : ℕ) = (m % 2 ^ sh : ℕ) / 2 ^ sh := by
  have h : (m : ℝ) = 2 ^ sh * (m / 2 ^ sh : ℕ) + (m % 2 ^ sh : ℕ) := by exact_mod_cast (Nat.div_add_mod m (2 ^ sh)).symm
  have hp : (2 : ℝ) ^ sh ≠ 0 := by positivity
  field_simp
  linarith

theorem choose_next {up : Prop} {b : Bool} (h : up ↔ b = true) (k : ℕ) :
    up ∧ (if b then k + 1 else k) = k + 1 ∨ ¬up ∧ (if b then k + 1 else k) = k := by
  cases b
  · exact .inr ⟨by simp [h], rfl⟩
  · exact .inl ⟨h.2 rfl, rfl⟩

/-- `roundTo` rounds the quotient as its mode says (R88). -/
theorem roundTo_whole (md : RMode) (neg : Bool) (m sh : ℕ) :
    WholeRounded md neg ((m : ℝ) / 2 ^ sh) (roundTo md neg m sh false).1 := by
  have hp : (0 : ℝ) < 2 ^ sh := by positivity
  have hne : ((m % 2 ^ sh : ℕ) : ℝ) / 2 ^ sh ≠ 0 ↔ m % 2 ^ sh ≠ 0 := by
    rw [ne_eq, div_eq_zero_iff, not_or, Nat.cast_eq_zero]
    exact and_iff_left hp.ne'
  have hhalf : (1 / 2 : ℝ) < (m % 2 ^ sh : ℕ) / 2 ^ sh ↔ 2 ^ sh < 2 * (m % 2 ^ sh) := by
    rw [div_lt_div_iff₀ two_pos hp, one_mul, mul_comm]
    exact_mod_cast Iff.rfl
  have heven : ((m % 2 ^ sh : ℕ) : ℝ) / 2 ^ sh = 1 / 2 ↔ 2 ^ sh = 2 * (m % 2 ^ sh) := by
    rw [div_eq_div_iff hp.ne' two_ne_zero, one_mul, mul_comm, eq_comm]
    exact_mod_cast Iff.rfl
  have hdraw : ⌊((m % 2 ^ sh : ℕ) : ℝ) / 2 ^ sh * 2 ^ 24⌋₊ = m % 2 ^ sh * 2 ^ 24 / 2 ^ sh := by
    rw [← floor_natDiv]
    congr 1
    push_cast
    ring
  unfold WholeRounded roundTo
  simp only [floor_natDiv, natDiv_sub_floor]
  refine choose_next ?_ _
  cases md.rnd with
  | rn => simp only [hhalf, heven, Bool.or_eq_true, Bool.and_eq_true, decide_eq_true_eq, Bool.false_or, beq_iff_eq]
  | rz => simp
  | rd => simp [hne]
  | ru => simp [hne]
  | sr => rw [hdraw]

/-- What `roundTo` says of a discarded part (R88). -/
theorem roundTo_inexact {md : RMode} (hk : md.draw 0 = false) (neg : Bool) (m sh : ℕ) :
    (roundTo md neg m sh false).2 = true ↔ ((roundTo md neg m sh false).1 : ℝ) ≠ (m : ℝ) / 2 ^ sh := by
  have hp : (0 : ℝ) < 2 ^ sh := by positivity
  have hflag : (roundTo md neg m sh false).2 = true ↔ m % 2 ^ sh ≠ 0 := by simp [roundTo]
  rw [hflag, not_iff_not]
  constructor
  · intro hr
    have hq : (m : ℝ) / 2 ^ sh = (m / 2 ^ sh : ℕ) := by
      have := natDiv_sub_floor m sh
      rw [hr, Nat.cast_zero, zero_div] at this
      linarith
    have hw := roundTo_whole md neg m sh
    rw [hq] at hw ⊢
    exact congrArg _ (wholeRounded_unique hw (wholeRounded_nat hk _))
  · intro h
    rw [eq_div_iff hp.ne'] at h
    have h : (roundTo md neg m sh false).1 * 2 ^ sh = m := by exact_mod_cast h
    rw [← h]
    exact Nat.mul_mod_left ..

/-! ### The values of codes (R85) -/

/-- The magnitude of code `a` in units of the least subnormal. -/
def FPar.steps (p : FPar) (a : ℕ) : ℕ :=
  if a / 2 ^ p.frac = 0 then a else (2 ^ p.frac + a % 2 ^ p.frac) * 2 ^ (a / 2 ^ p.frac - 1)

theorem FPar.steps_of {p : FPar} {e r : ℕ} (hr : r < 2 ^ p.frac) :
    p.steps ((e + 1) * 2 ^ p.frac + r) = (2 ^ p.frac + r) * 2 ^ e ∧ p.steps r = r := by
  have hF : 0 < 2 ^ p.frac := by positivity
  have hdiv : ((e + 1) * 2 ^ p.frac + r) / 2 ^ p.frac = e + 1 := by
    rw [add_comm, Nat.add_mul_div_right _ _ hF, Nat.div_eq_of_lt hr, zero_add]
  have hmod : ((e + 1) * 2 ^ p.frac + r) % 2 ^ p.frac = r := by
    rw [add_comm, Nat.add_mul_mod_self_right, Nat.mod_eq_of_lt hr]
  unfold FPar.steps
  rw [hdiv, hmod, Nat.div_eq_of_lt hr]
  exact ⟨if_neg (Nat.succ_ne_zero e), if_pos rfl⟩

theorem FPar.steps_strictMono (p : FPar) : StrictMono p.steps := by
  refine strictMono_nat_of_lt_succ fun a => ?_
  have hF : 0 < 2 ^ p.frac := by positivity
  have hmod := Nat.mod_lt a hF
  have ha := Nat.div_add_mod' a (2 ^ p.frac)
  generalize a / 2 ^ p.frac = e at ha
  generalize a % 2 ^ p.frac = r at ha hmod
  subst ha
  cases e with
  | zero =>
    rw [zero_mul, zero_add, (FPar.steps_of (e := 0) hmod).2]
    by_cases hr : r + 1 < 2 ^ p.frac
    · rw [(FPar.steps_of (e := 0) hr).2]
      exact Nat.lt_succ_self r
    · have hr : r + 1 = (0 + 1) * 2 ^ p.frac + 0 := by omega
      rw [hr, (FPar.steps_of hF).1]
      omega
  | succ e =>
    rw [(FPar.steps_of hmod).1]
    by_cases hr : r + 1 < 2 ^ p.frac
    · rw [add_assoc, (FPar.steps_of hr).1]
      exact Nat.mul_lt_mul_of_pos_right (by omega) (by positivity)
    · have hr : (e + 1) * 2 ^ p.frac + r + 1 = (e + 1 + 1) * 2 ^ p.frac + 0 := by
        rw [add_assoc, show r + 1 = 2 ^ p.frac by omega]
        ring
      rw [hr, (FPar.steps_of hF).1, pow_succ 2 e, mul_comm (2 ^ e) 2, ← mul_assoc]
      exact Nat.mul_lt_mul_of_pos_right (by omega) (by positivity)

/-- A code and its exponent field lie `n` units of `2 ^ k` apart from zero (R88): also where the rounding carried into the next exponent. -/
theorem FPar.steps_carry {p : FPar} {k n : ℕ} (hn : n ≤ 2 * 2 ^ p.frac) (hk : 0 < k → 2 ^ p.frac ≤ n) :
    p.steps (k * 2 ^ p.frac + n) = n * 2 ^ k := by
  have hF : 0 < 2 ^ p.frac := by positivity
  by_cases hlow : n < 2 ^ p.frac
  · have hk0 : k = 0 := by omega
    rw [hk0, zero_mul, zero_add, (FPar.steps_of (e := 0) hlow).2, pow_zero, mul_one]
  by_cases htop : n < 2 * 2 ^ p.frac
  · have hsum : k * 2 ^ p.frac + n = (k + 1) * 2 ^ p.frac + (n - 2 ^ p.frac) := by rw [add_mul]; omega
    rw [hsum, (FPar.steps_of (by omega)).1, show 2 ^ p.frac + (n - 2 ^ p.frac) = n by omega]
  · have hsum : k * 2 ^ p.frac + n = (k + 1 + 1) * 2 ^ p.frac + 0 := by
      rw [show n = 2 * 2 ^ p.frac by omega]
      ring
    rw [hsum, (FPar.steps_of hF).1, show n = 2 * 2 ^ p.frac by omega, add_zero, pow_succ]
    ring

/-- The layout of a format. -/
theorem FFmt.par_layout (f : FFmt) : 0 < f.par.width ∧ f.par.top < 2 ^ (f.par.width - 1)
    ∧ (∀ i, f.par.inf = some i → f.par.top < i ∧ i < 2 ^ (f.par.width - 1)) := by
  cases f <;> refine ⟨by decide, by decide, ?_⟩ <;> rintro i ⟨⟩ <;> decide

theorem codeValue_eq (f : FFmt) (c : ℕ) : (codeValue f c : ℝ) =
    (if signBit f c then -1 else 1) * (f.par.steps (magnitude f c) * 2 ^ (1 - f.par.bias - f.par.frac)) := by
  have h2 : (2 : ℝ) ≠ 0 := two_ne_zero
  unfold codeValue FPar.steps
  generalize magnitude f c = a
  push_cast
  congr 1
  · split <;> simp
  split
  · next h0 =>
    have hlt : a < 2 ^ f.par.frac := (Nat.div_eq_zero_iff_lt (by positivity)).1 h0
    rw [Nat.mod_eq_of_lt hlt, zpow_sub₀ h2 _ (f.par.frac : ℤ), zpow_natCast]
    push_cast
    ring
  · next h0 =>
    obtain ⟨e, he⟩ := Nat.exists_eq_succ_of_ne_zero h0
    have hexp : ((a : ℤ) / 2 ^ f.par.frac) - f.par.bias = (e : ℤ) + (1 - f.par.bias) := by
      have : ((a / 2 ^ f.par.frac : ℕ) : ℤ) = (e.succ : ℕ) := congrArg _ he
      push_cast at this
      rw [this]
      ring
    rw [hexp, he, zpow_sub₀ h2 _ (f.par.frac : ℤ), zpow_natCast, Nat.succ_sub_one]
    push_cast
    rw [zpow_add₀ h2, zpow_natCast]
    field_simp

/-- The value of a sign, a magnitude and an exponent. -/
noncomputable def numVal (s : Bool) (m : ℕ) (e : ℤ) : ℝ := (if s then -1 else 1) * ((m : ℝ) * 2 ^ e)

theorem numVal_zero (s : Bool) (e : ℤ) : numVal s 0 e = 0 := by simp [numVal]

theorem numVal_abs (s : Bool) (m : ℕ) (e : ℤ) : |numVal s m e| = (m : ℝ) * 2 ^ e := by
  have h : (0 : ℝ) ≤ (m : ℝ) * 2 ^ e := by positivity
  unfold numVal
  cases s <;> simp [abs_of_nonneg]

theorem numVal_neg {s : Bool} {m : ℕ} {e : ℤ} (hm : 0 < m) : decide (numVal s m e < 0) = s := by
  have h : (0 : ℝ) < (m : ℝ) * 2 ^ e := by positivity
  unfold numVal
  cases s
  · simpa using h.le
  · simpa using h

theorem numVal_shift (s : Bool) (m : ℕ) (e k : ℤ) : numVal s m (e + k) = numVal s m e * 2 ^ k := by
  unfold numVal
  rw [zpow_add₀ two_ne_zero]
  ring

/-- floor_log2 is the logarithm of the value (R99). -/
theorem log_numVal {m : ℕ} (e : ℤ) (hm : 0 < m) : Int.log 2 ((m : ℝ) * 2 ^ e) = floorLog2 m e := by
  have hpos : (0 : ℝ) < (m : ℝ) * 2 ^ e := by positivity
  have hlo : ((2 : ℕ) : ℝ) ^ floorLog2 m e ≤ (m : ℝ) * 2 ^ e := by
    unfold floorLog2
    rw [Nat.cast_two, zpow_add₀ two_ne_zero, zpow_natCast]
    refine mul_le_mul_of_nonneg_right ?_ (by positivity)
    exact_mod_cast Nat.log2_self_le hm.ne'
  have hhi : (m : ℝ) * 2 ^ e < ((2 : ℕ) : ℝ) ^ (floorLog2 m e + 1) := by
    unfold floorLog2
    rw [Nat.cast_two, add_right_comm, zpow_add₀ two_ne_zero]
    refine mul_lt_mul_of_pos_right ?_ (by positivity)
    exact_mod_cast Nat.lt_log2_self (n := m)
  refine le_antisymm ?_ ((Int.zpow_le_iff_le_log one_lt_two hpos).1 hlo)
  exact Int.lt_add_one_iff.1 ((Int.lt_zpow_iff_log_lt one_lt_two hpos).1 hhi)

/-- A code with a sign has that sign and that magnitude. -/
theorem withSign_spec {f : FFmt} {a : ℕ} (s : Bool) (h : a < 2 ^ (f.par.width - 1)) :
    signBit f (withSign f s a) = s ∧ magnitude f (withSign f s a) = a ∧ withSign f s a < 2 ^ f.par.width := by
  have hw : 2 ^ f.par.width = 2 ^ (f.par.width - 1) + 2 ^ (f.par.width - 1) := by
    rw [← Nat.two_pow_pred_add_two_pow_pred f.par_layout.1]
  cases s
  · rw [show withSign f false a = a from zero_add a]
    exact ⟨Nat.testBit_lt_two_pow h, Nat.mod_eq_of_lt h, by omega⟩
  · rw [show withSign f true a = 2 ^ (f.par.width - 1) + a from rfl]
    refine ⟨?_, ?_, by omega⟩
    · exact (Nat.testBit_two_pow_add_eq ..).trans (by rw [Nat.testBit_lt_two_pow h]; rfl)
    · exact (Nat.add_mod_left ..).trans (Nat.mod_eq_of_lt h)

theorem codeValue_withSign {f : FFmt} {a : ℕ} (s : Bool) (h : a < 2 ^ (f.par.width - 1)) :
    (codeValue f (withSign f s a) : ℝ) = numVal s (f.par.steps a) (1 - f.par.bias - f.par.frac) := by
  obtain ⟨hs, hm, -⟩ := withSign_spec (f := f) s h
  rw [codeValue_eq, hs, hm]
  rfl

theorem codeValue_top (f : FFmt) : (codeValue f f.par.top : ℝ) = (f.par.steps f.par.top : ℝ) * 2 ^ (1 - f.par.bias - f.par.frac) := by
  have h := codeValue_withSign (f := f) false f.par_layout.2.1
  rw [show withSign f false f.par.top = f.par.top from zero_add _] at h
  rw [h]
  simp [numVal]

/-! ### What a code reads as (R85, R87) -/

theorem bit_eq_testBit (c i : ℕ) : bit c i = c.testBit i := by
  rw [Nat.testBit_eq_decide_div_mod_eq]
  rfl

theorem value_finite {f : FFmt} {c : ℕ} (h : IsFinite f c) :
    ∃ m e, f.value c = .num (signBit f c) m e ∧ (codeValue f c : ℝ) = numVal (signBit f c) m e := by
  have hinf : f.par.inf ≠ some (magnitude f c) := fun hi => absurd (f.par_layout.2.2 _ hi).1 (Nat.not_lt.2 h)
  have hval (m : ℕ) (e : ℤ) (hv : (f.par.steps (magnitude f c) : ℝ) * 2 ^ (1 - f.par.bias - f.par.frac) = (m : ℝ) * 2 ^ e) :
      (codeValue f c : ℝ) = numVal (signBit f c) m e := by
    rw [codeValue_eq, hv]
    rfl
  unfold FFmt.value
  dsimp only
  rw [bit_eq_testBit, if_neg hinf, if_neg (Nat.not_lt.2 h)]
  by_cases h0 : magnitude f c / 2 ^ f.par.frac = 0
  · rw [if_pos h0]
    refine ⟨_, _, rfl, hval _ _ ?_⟩
    rw [FPar.steps, if_pos h0]
  · rw [if_neg h0]
    refine ⟨_, _, rfl, hval _ _ ?_⟩
    obtain ⟨e, he⟩ := Nat.exists_eq_succ_of_ne_zero h0
    rw [FPar.steps, if_neg h0, he, Nat.succ_sub_one]
    push_cast
    rw [show (e : ℤ) + 1 - f.par.bias - f.par.frac = (e : ℤ) + (1 - f.par.bias - f.par.frac) by ring, zpow_add₀ two_ne_zero, zpow_natCast]
    ring

theorem value_infinite {f : FFmt} {c : ℕ} (h : IsInfinite f c) : f.value c = .inf (signBit f c) := by
  unfold FFmt.value
  dsimp only
  rw [bit_eq_testBit]
  exact if_pos h

theorem value_nan {f : FFmt} {c : ℕ} (h : IsNaN f c) : f.value c = .nan := by
  unfold FFmt.value
  dsimp only
  rw [if_neg h.2]
  exact if_pos (Nat.not_le.1 h.1)

/-! ### Rounding into a format (R88, R89, R91) -/

/-- Overflow goes to infinity in this mode (R89). -/
def awayTo (r : Rnd) (neg : Bool) : Bool :=
  match r with
  | .rn => true
  | .sr => true
  | .rz => false
  | .rd => neg
  | .ru => !neg

theorem overflow_eq (f : FFmt) (md : RMode) (neg : Bool) : (withSign f neg (f.par.overflow md neg).1, (f.par.overflow md neg).2) =
    if f.par.inf = none ∨ md.sat = true then (withSign f neg f.par.top, 42)
    else if awayTo md.rnd neg then (withSign f neg (f.par.inf.getD 0), 10) else (withSign f neg f.par.top, 10) := by
  unfold FPar.overflow awayTo
  cases f.par.inf with
  | none => rfl
  | some i =>
    cases md.sat with
    | true => rfl
    | false => cases md.rnd <;> cases neg <;> rfl

/-- The multiple of `2 ^ q` that a magnitude rounds to, and whether a part was discarded. -/
def roundAt (md : RMode) (s : Bool) (m : ℕ) (e q : ℤ) : ℕ × Bool :=
  if q ≤ e then (m * 2 ^ (e - q).toNat, false) else roundTo md s m (q - e).toNat false

theorem roundAt_spec {md : RMode} (hk : md.draw 0 = false) (s : Bool) (m : ℕ) (e q : ℤ) :
    WholeRounded md s ((m : ℝ) * 2 ^ e / 2 ^ q) (roundAt md s m e q).1
    ∧ ((roundAt md s m e q).2 = true ↔ ((roundAt md s m e q).1 : ℝ) * 2 ^ q ≠ (m : ℝ) * 2 ^ e) := by
  have hq : (2 : ℝ) ^ q ≠ 0 := by positivity
  have hdiv : (m : ℝ) * 2 ^ e / 2 ^ q = (m : ℝ) * 2 ^ (e - q) := by
    rw [zpow_sub₀ two_ne_zero]
    ring
  rw [ne_eq, ← eq_div_iff hq, hdiv]
  unfold roundAt
  by_cases h : q ≤ e
  · have hwhole : (m : ℝ) * 2 ^ (e - q) = (m * 2 ^ (e - q).toNat : ℕ) := by
      push_cast
      rw [← zpow_natCast, Int.toNat_of_nonneg (by omega)]
    rw [if_pos h, hwhole]
    exact ⟨wholeRounded_nat hk _, by simp⟩
  · have hfrac : (m : ℝ) * 2 ^ (e - q) = (m : ℝ) / 2 ^ (q - e).toNat := by
      rw [← zpow_natCast, Int.toNat_of_nonneg (by omega), div_eq_mul_inv, ← zpow_neg, neg_sub]
    rw [if_neg h, hfrac]
    exact ⟨roundTo_whole .., roundTo_inexact hk ..⟩

/-- Where a rounded magnitude lies in its binade: at most a power of two above it, and below one only in the lowest. -/
theorem roundAt_range {md : RMode} {s : Bool} {m n : ℕ} {e q : ℤ} {F : ℕ} (hlo : (m : ℝ) * 2 ^ e < 2 ^ (q + F + 1))
    (hn : WholeRounded md s ((m : ℝ) * 2 ^ e / 2 ^ q) n) :
    n ≤ 2 * 2 ^ F ∧ (2 ^ (q + F) ≤ (m : ℝ) * 2 ^ e → 2 ^ F ≤ n) := by
  have hq : (0 : ℝ) < 2 ^ q := by positivity
  constructor
  · have hlt : (m : ℝ) * 2 ^ e / 2 ^ q < ((2 * 2 ^ F : ℕ) : ℝ) := by
      rw [div_lt_iff₀ hq]
      refine hlo.trans_eq ?_
      rw [zpow_add₀ two_ne_zero, zpow_add₀ two_ne_zero, zpow_natCast, zpow_one]
      push_cast
      ring
    exact (wholeRounded_le_floor hn).trans ((Nat.floor_lt' (by positivity)).2 hlt)
  · intro hge
    refine (Nat.le_floor ?_).trans (floor_le_wholeRounded hn)
    rw [le_div_iff₀ hq]
    refine le_trans (le_of_eq ?_) hge
    rw [zpow_add₀ two_ne_zero, zpow_natCast]
    push_cast
    ring

/-- round_fmt of a magnitude in the terms of `roundAt`. -/
theorem roundMag_eq (f : FFmt) (md : RMode) (s : Bool) {m : ℕ} (e : ℤ) (hm : 0 < m) :
    let x := floorLog2 m e
    let q := max x (1 - f.par.bias) - f.par.frac
    let r := roundAt md s m e q
    let a := (q + f.par.frac + f.par.bias - 1).toNat * 2 ^ f.par.frac + r.1
    f.roundMag md s m e false = if f.par.top < a then (withSign f s (f.par.overflow md s).1, (f.par.overflow md s).2)
      else (withSign f s a, VF.when r.2 VF.inx ||| VF.when (r.2 && decide (x < 1 - f.par.bias)) VF.unf) := by
  unfold FFmt.roundMag
  dsimp only
  rw [if_neg hm.ne']
  rfl

/-- A magnitude lies in the binade of its floor_log2 (R99). -/
theorem binade {m : ℕ} (e : ℤ) (hm : 0 < m) : 2 ^ floorLog2 m e ≤ (m : ℝ) * 2 ^ e ∧ (m : ℝ) * 2 ^ e < 2 ^ (floorLog2 m e + 1)
    ∧ ∀ k, (m : ℝ) * 2 ^ e < 2 ^ k ↔ floorLog2 m e < k := by
  have hpos : (0 : ℝ) < (m : ℝ) * 2 ^ e := by positivity
  have hlog := log_numVal e hm
  have hlo := Int.zpow_log_le_self one_lt_two hpos
  have hhi := Int.lt_zpow_succ_log_self one_lt_two ((m : ℝ) * 2 ^ e)
  have hlt := fun k => Int.lt_zpow_iff_log_lt (b := 2) one_lt_two (x := k) hpos
  simp only [hlog, Nat.cast_two] at hlo hhi hlt
  exact ⟨hlo, hhi, hlt⟩

/-- The code that a rounded magnitude makes has its value, also where the rounding carried into the next exponent (R88). -/
theorem code_value (f : FFmt) {md : RMode} (hk : md.draw 0 = false) (s : Bool) {m : ℕ} {e q : ℤ} (hm : 0 < m)
    (hq : q = max (floorLog2 m e) (1 - f.par.bias) - f.par.frac) :
    ((roundAt md s m e q).1 : ℝ) * 2 ^ q =
      (f.par.steps ((q + f.par.frac + f.par.bias - 1).toNat * 2 ^ f.par.frac + (roundAt md s m e q).1) : ℝ)
        * 2 ^ (1 - f.par.bias - f.par.frac) := by
  obtain ⟨hlo, hhi, -⟩ := binade e hm
  obtain ⟨k, hkq⟩ : ∃ k : ℕ, q + f.par.frac + f.par.bias - 1 = k := ⟨_, (Int.toNat_of_nonneg (by omega)).symm⟩
  have hqk : q = k + (1 - f.par.bias - f.par.frac) := by omega
  obtain ⟨hn, hbig⟩ := roundAt_range (F := f.par.frac) (hhi.trans_le (zpow_le_zpow_right₀ one_le_two (by omega))) (roundAt_spec hk s m e q).1
  have hcarry : f.par.steps (k * 2 ^ f.par.frac + (roundAt md s m e q).1) = (roundAt md s m e q).1 * 2 ^ k := by
    refine FPar.steps_carry hn fun hk0 => hbig (le_trans ?_ hlo)
    exact zpow_le_zpow_right₀ one_le_two (by omega)
  rw [hkq, Int.toNat_natCast, hcarry]
  nth_rewrite 2 [hqk]
  rw [zpow_add₀ two_ne_zero, zpow_natCast]
  push_cast
  ring

/-- round_fmt delivers the exact value (R88, R89, R91). -/
theorem roundMag_delivers (f : FFmt) {md : RMode} (hk : md.draw 0 = false) (s : Bool) (m : ℕ) (e : ℤ) :
    Delivers f md (numVal s m e) s (f.roundMag md s m e false) := by
  rcases Nat.eq_zero_or_pos m with rfl | hm
  · exact ⟨fun _ => rfl, fun h => absurd (numVal_zero s e) h⟩
  have hpos : (0 : ℝ) < (m : ℝ) * 2 ^ e := by positivity
  have hne : numVal s m e ≠ 0 := by rw [← abs_ne_zero, numVal_abs]; exact hpos.ne'
  refine ⟨fun h => absurd h hne, fun _ => ?_⟩
  have htiny := (binade e hm).2.2 (1 - f.par.bias)
  have hmag := roundMag_eq f md s e hm
  unfold Rounded
  dsimp only at hmag ⊢
  rw [numVal_abs, log_numVal e hm, numVal_neg hm]
  obtain ⟨q, hq⟩ : ∃ q, q = max (floorLog2 m e) (1 - f.par.bias) - f.par.frac := ⟨_, rfl⟩
  have hval := code_value f hk s hm hq
  obtain ⟨hwhole, hexact⟩ := roundAt_spec hk s m e q
  rw [← hq] at hmag ⊢
  generalize roundAt md s m e q = r at *
  generalize (q + f.par.frac + f.par.bias - 1).toNat * 2 ^ f.par.frac + r.1 = a at *
  have htop : (r.1 : ℝ) * 2 ^ q ≤ codeValue f f.par.top ↔ a ≤ f.par.top := by
    rw [hval, codeValue_top, mul_le_mul_iff_left₀ (by positivity), Nat.cast_le, f.par.steps_strictMono.le_iff_le]
  refine ⟨r.1, hwhole, fun hle => ?_, fun hgt => ?_⟩
  · have hle := htop.1 hle
    have hlt := hle.trans_lt f.par_layout.2.1
    obtain ⟨hs, hmg, hwd⟩ := withSign_spec (f := f) s hlt
    rw [hmag, if_neg (Nat.not_lt.2 hle)]
    refine ⟨hs, hmg.trans_le hle, hwd, ?_, fun heq => ?_, fun hnq => ?_⟩
    · rw [codeValue_withSign s hlt, numVal_abs, hval]
    · have hr : r.2 = false := Bool.not_eq_true _ ▸ mt hexact.1 (not_not_intro heq)
      rw [hr, Bool.false_and]
      rfl
    · rw [hexact.2 hnq, Bool.true_and]
      by_cases ht : floorLog2 m e < 1 - f.par.bias
      · rw [decide_eq_true ht, if_pos (htiny.2 ht)]
        rfl
      · rw [decide_eq_false ht, if_neg (mt htiny.1 ht)]
        rfl
  · have hgt := Nat.not_le.1 (mt htop.2 (not_le.2 hgt))
    rw [hmag, if_pos hgt, overflow_eq]
    rfl

end Sys2Proof.Machine
end

section
/-! PROOF. Block formats: scales, elements, and the registers they are collected in (O20). -/

namespace Sys2Proof.Machine
open Claims (WholeRounded Delivers codeValue magnitude signBit IsFinite IsInfinite IsNaN withSign blockForm QuantizedAs DequantizedAs ScaleOf
  intVal codeOf infiniteResult)

/-! ### Registers from their sub-elements (R184) -/

theorem el_packW {w : ℕ} : ∀ {l : List ℕ} (n : ℕ), (∀ z ∈ l, z < 2 ^ w) → el w (packW w l) n = l.getD n 0
  | [], n, _ => by simp [el, packW]
  | z :: l, 0, h => by
    have hz := h z (List.mem_cons_self ..)
    simp [el, packW, Nat.mod_eq_of_lt hz]
  | z :: l, n + 1, h => by
    have hz := h z (List.mem_cons_self ..)
    have ih := el_packW (l := l) n fun y hy => h y (List.mem_cons_of_mem _ hy)
    rw [List.getD_cons_succ, ← ih, show packW w (z :: l) = z + 2 ^ w * packW w l from rfl]
    unfold el
    rw [Nat.mul_succ, Nat.add_comm (w * n), Nat.pow_add, ← Nat.div_div_eq_div_mul, Nat.add_mul_div_left _ _ (by positivity), Nat.div_eq_of_lt hz,
      Nat.zero_add]

theorem getD_map_range {α : Type} {g : ℕ → α} {N n : ℕ} (d : α) (h : n < N) : ((List.range N).map g).getD n d = g n := by
  simp [List.getD, h]

section
variable {step N : ℕ} {g : ℕ → Option (ℕ × VFlags)}

/-- A collected register holds the results, all nibbles of those alone written (R191). -/
theorem collect_el {n : ℕ} (hn : n < N) (h : ∀ n < N, ∀ e, g n = some e → e.1 < 2 ^ step) :
    el step (collect step ((List.range N).map g)).v n = ((g n).map (·.1)).getD 0 := by
  unfold collect
  dsimp only
  rw [List.map_map, el_packW]
  · exact getD_map_range 0 hn
  · intro z hz
    obtain ⟨i, hi, rfl⟩ := List.mem_map.1 hz
    have hi := List.mem_range.1 hi
    show ((g i).map (·.1)).getD 0 < _
    cases hg : g i with
    | none => exact Nat.two_pow_pos step
    | some e => exact h i hi e hg

theorem collect_wr {n : ℕ} (hn : n < N) :
    el (step / 4) (collect step ((List.range N).map g)).wr n = if (g n).isSome then 2 ^ (step / 4) - 1 else 0 := by
  unfold collect
  dsimp only
  rw [List.map_map, el_packW]
  · exact getD_map_range 0 hn
  · intro z hz
    obtain ⟨i, -, rfl⟩ := List.mem_map.1 hz
    have hp := Nat.two_pow_pos (step / 4)
    show (if (g i).isSome then 2 ^ (step / 4) - 1 else 0) < _
    split <;> omega

theorem foldl_flags (rs : List (Option (ℕ × VFlags))) (f : VFlags) (k : ℕ) :
    (rs.foldl (fun f r => f ||| (r.map (·.2)).getD 0) f).getLsbD k = true ↔
      f.getLsbD k = true ∨ ∃ e, some e ∈ rs ∧ e.2.getLsbD k = true := by
  induction rs generalizing f with
  | nil => simp
  | cons r rs ih =>
    rw [List.foldl_cons, ih, BitVec.getLsbD_or, Bool.or_eq_true, or_assoc]
    refine or_congr_right ?_
    cases r with
    | none => simp
    | some e => simp [or_and_right, exists_or]

theorem collect_fl (k : ℕ) : (collect step ((List.range N).map g)).fl.getLsbD k = true ↔
    ∃ n < N, ∃ e, g n = some e ∧ e.2.getLsbD k = true := by
  unfold collect
  dsimp only
  have h0 : (0 : VFlags).getLsbD k = false := BitVec.getLsbD_zero
  rw [foldl_flags, h0]
  simp only [Bool.false_eq_true, false_or, List.mem_map, List.mem_range]
  constructor
  · rintro ⟨e, ⟨n, hn, hg⟩, he⟩
    exact ⟨n, hn, e, hg, he⟩
  · rintro ⟨n, hn, e, hg, he⟩
    exact ⟨e, ⟨n, hn, hg⟩, he⟩
end

/-! ### Bounds of results -/

theorem overflow_lt (f : FFmt) (md : RMode) (neg : Bool) : (f.par.overflow md neg).1 < 2 ^ (f.par.width - 1) := by
  have htop := f.par_layout.2.1
  have hinf := f.par_layout.2.2
  unfold FPar.overflow
  cases hi : f.par.inf with
  | none => exact htop
  | some i =>
    have hi := (hinf i hi).2
    cases md.sat with
    | true => exact htop
    | false => cases md.rnd <;> cases neg <;> assumption

theorem roundMag_lt (f : FFmt) (md : RMode) (s : Bool) (m : ℕ) (e : ℤ) : (f.roundMag md s m e false).1 < 2 ^ f.par.width := by
  rcases Nat.eq_zero_or_pos m with rfl | hm
  · exact (withSign_spec (f := f) s (Nat.two_pow_pos _)).2.2
  · rw [roundMag_eq f md s e hm]
    split
    · exact (withSign_spec s (overflow_lt f md s)).2.2
    · next h => exact (withSign_spec s ((Nat.not_lt.1 h).trans_lt f.par_layout.2.1)).2.2

theorem round_lt (md : RMode) (v : FVal) : (FFmt.f32.round md v).1 < 2 ^ 32 := by
  cases v with
  | nan => exact (by decide : 0x7FC00000 < 2 ^ 32)
  | inv => exact (by decide : 0x7FC00000 < 2 ^ 32)
  | inf s => cases s <;> cases hs : md.sat <;> simp [FFmt.round, FFmt.par, hs]
  | num s m e => exact roundMag_lt .f32 md s m e

/-! ### The scale of a block (R95, R96) -/

/-- The formats of the model's blocks are those of the statement. -/
theorem blockForm_eq (fmt : BlkFmt) : blockForm fmt = ((blkPar fmt).place, (blkPar fmt).flt, (blkPar fmt).bits, (blkPar fmt).emax) := by
  cases fmt <;> rfl

/-- The absolute value of a code of .f32. -/
noncomputable def absValue (c : ℕ) : ℝ := |(codeValue .f32 c : ℝ)|

theorem magLt_iff {m n : ℕ} {e k : ℤ} : magLt m e n k = true ↔ (m : ℝ) * 2 ^ e < n * 2 ^ k := by
  have hshift (j : ℕ) (i : ℤ) (hi : min e k ≤ i) : (j : ℝ) * 2 ^ i = ((j * 2 ^ (i - min e k).toNat : ℕ) : ℝ) * 2 ^ min e k := by
    push_cast
    rw [← zpow_natCast, Int.toNat_of_nonneg (by omega), mul_assoc, ← zpow_add₀ two_ne_zero, sub_add_cancel]
  unfold magLt
  rw [decide_eq_true_iff, hshift m e (min_le_left ..), hshift n k (min_le_right ..), mul_lt_mul_iff_left₀ (by positivity), Nat.cast_lt]

/-- The greatest magnitude so far; none past an infinity or a NaN. -/
def amaxStep (r : Option (ℕ × ℤ)) (v : FVal) : Option (ℕ × ℤ) :=
  match r, v with
  | some (m, e), .num _ n k => some (if magLt m e n k then (n, k) else (m, e))
  | _, _ => none

theorem amax_eq (vs : List FVal) : amax vs = vs.foldl amaxStep (some (0, 0)) := rfl

theorem foldl_amaxStep_none (vs : List FVal) : vs.foldl amaxStep none = none := by
  induction vs with
  | nil => rfl
  | cons v vs ih => exact ih

theorem amaxStep_special {c : ℕ} (h : ¬IsFinite .f32 c) (r : Option (ℕ × ℤ)) : amaxStep r (FFmt.f32.value c) = none := by
  by_cases hi : IsInfinite .f32 c
  · rw [value_infinite hi]
    cases r <;> rfl
  · rw [value_nan ⟨h, hi⟩]
    cases r <;> rfl

theorem foldl_amaxStep_special {cs : List ℕ} (h : ∃ c ∈ cs, ¬IsFinite .f32 c) (r : Option (ℕ × ℤ)) :
    (cs.map FFmt.f32.value).foldl amaxStep r = none := by
  induction cs generalizing r with
  | nil => obtain ⟨c, hc, -⟩ := h; exact absurd hc List.not_mem_nil
  | cons d cs ih =>
    rw [List.map_cons, List.foldl_cons]
    obtain ⟨c, hc, hf⟩ := h
    rcases List.mem_cons.1 hc with rfl | hc
    · rw [amaxStep_special hf, foldl_amaxStep_none]
    · exact ih ⟨c, hc, hf⟩ _

/-- `q` is the greatest magnitude of codes and of one more. -/
structure Greatest (cs : List ℕ) (m : ℕ) (e : ℤ) (q : ℕ × ℤ) : Prop where
  above : (m : ℝ) * 2 ^ e ≤ q.1 * 2 ^ q.2
  bound : ∀ c ∈ cs, absValue c ≤ q.1 * 2 ^ q.2
  attained : (q.1 : ℝ) * 2 ^ q.2 = m * 2 ^ e ∨ ∃ c ∈ cs, absValue c = q.1 * 2 ^ q.2

theorem foldl_amaxStep_finite : ∀ {cs : List ℕ} (m : ℕ) (e : ℤ), (∀ c ∈ cs, IsFinite .f32 c) →
    ∃ q, (cs.map FFmt.f32.value).foldl amaxStep (some (m, e)) = some q ∧ Greatest cs m e q
  | [], m, e, _ => ⟨(m, e), rfl, le_refl _, fun c hc => absurd hc List.not_mem_nil, .inl rfl⟩
  | d :: cs, m, e, h => by
    obtain ⟨n, k, hv, hd⟩ := value_finite (h d (List.mem_cons_self ..))
    have hd : absValue d = (n : ℝ) * 2 ^ k := by rw [absValue, hd, numVal_abs]
    have hcs : ∀ c ∈ cs, IsFinite .f32 c := fun c hc => h c (List.mem_cons_of_mem _ hc)
    have hstep : amaxStep (some (m, e)) (FFmt.f32.value d) = some (if magLt m e n k then (n, k) else (m, e)) := by rw [hv]; rfl
    rw [List.map_cons, List.foldl_cons, hstep]
    by_cases hlt : magLt m e n k = true
    · have hlt' := (magLt_iff.1 hlt).le
      obtain ⟨q, hq, habove, hbound, hatt⟩ := foldl_amaxStep_finite n k hcs
      rw [if_pos hlt]
      refine ⟨q, hq, hlt'.trans habove, List.forall_mem_cons.2 ⟨hd.trans_le habove, hbound⟩, .inr ?_⟩
      rcases hatt with ha | ⟨c, hc, ha⟩
      · exact ⟨d, List.mem_cons_self .., hd.trans ha.symm⟩
      · exact ⟨c, List.mem_cons_of_mem _ hc, ha⟩
    · have hge := not_lt.1 (mt magLt_iff.2 hlt)
      obtain ⟨q, hq, habove, hbound, hatt⟩ := foldl_amaxStep_finite m e hcs
      rw [if_neg hlt]
      refine ⟨q, hq, habove, List.forall_mem_cons.2 ⟨hd.trans_le (hge.trans habove), hbound⟩, hatt.imp_right ?_⟩
      rintro ⟨c, hc, ha⟩
      exact ⟨c, List.mem_cons_of_mem _ hc, ha⟩

/-- amax of a block is none, or the greatest magnitude of its codes (R95). -/
theorem amax_special {cs : List ℕ} (h : ∃ c ∈ cs, ¬IsFinite .f32 c) : amax (cs.map FFmt.f32.value) = none :=
  foldl_amaxStep_special h _

theorem amax_finite {cs : List ℕ} (h : ∀ c ∈ cs, IsFinite .f32 c) : ∃ m e, amax (cs.map FFmt.f32.value) = some (m, e)
    ∧ (∀ c ∈ cs, absValue c ≤ m * 2 ^ e) ∧ (m = 0 ∨ ∃ c ∈ cs, absValue c = m * 2 ^ e) := by
  obtain ⟨⟨m, e⟩, hq, -, hbound, hatt⟩ := foldl_amaxStep_finite 0 0 h
  refine ⟨m, e, hq, hbound, hatt.imp_left fun h0 => ?_⟩
  rw [Nat.cast_zero, zero_mul, mul_eq_zero, Nat.cast_eq_zero] at h0
  exact h0.resolve_right (by positivity)

theorem absValue_eq_zero {c : ℕ} : absValue c = 0 ↔ codeValue .f32 c = 0 := by
  rw [absValue, abs_eq_zero, Rat.cast_eq_zero]

theorem zeroBlock_iff {cs : List ℕ} : zeroBlock (cs.map FFmt.f32.value) = true ↔ ∀ c ∈ cs, IsFinite .f32 c ∧ codeValue .f32 c = 0 := by
  unfold zeroBlock
  by_cases hfin : ∀ c ∈ cs, IsFinite .f32 c
  · obtain ⟨m, e, hq, hbound, hatt⟩ := amax_finite hfin
    rw [hq]
    show (m == 0) = true ↔ _
    rw [beq_iff_eq]
    constructor
    · rintro rfl c hc
      refine ⟨hfin c hc, absValue_eq_zero.1 (le_antisymm ?_ (abs_nonneg _))⟩
      simpa using hbound c hc
    · intro hz
      rcases hatt with h0 | ⟨c, hc, ha⟩
      · exact h0
      · rw [absValue_eq_zero.2 (hz c hc).2, eq_comm, mul_eq_zero, Nat.cast_eq_zero] at ha
        exact ha.resolve_right (by positivity)
  · rw [amax_special (by simpa using hfin)]
    exact ⟨fun h => absurd h (by decide), fun h => absurd (fun c hc => (h c hc).1) hfin⟩

theorem absValue_lt {c : ℕ} (h : IsFinite .f32 c) : absValue c < 2 ^ (128 : ℤ) := by
  have hsteps : FFmt.f32.par.steps (magnitude .f32 c) < 2 ^ 24 * 2 ^ 253 :=
    ((FPar.steps_strictMono _).monotone h).trans_lt (by decide)
  have habs : absValue c = (FFmt.f32.par.steps (magnitude .f32 c) : ℝ) * 2 ^ (-149 : ℤ) := by
    rw [absValue, codeValue_eq, abs_mul, abs_of_nonneg (a := (_ : ℝ) * _) (by positivity)]
    have : |(if signBit .f32 c = true then (-1 : ℝ) else 1)| = 1 := by split <;> simp
    rw [this, one_mul]
    rfl
  have hcast : (FFmt.f32.par.steps (magnitude .f32 c) : ℝ) < 2 ^ (24 : ℤ) * 2 ^ (253 : ℤ) := by exact_mod_cast hsteps
  rw [habs]
  calc (FFmt.f32.par.steps (magnitude .f32 c) : ℝ) * 2 ^ (-149 : ℤ) < 2 ^ (24 : ℤ) * 2 ^ (253 : ℤ) * 2 ^ (-149 : ℤ) :=
        mul_lt_mul_of_pos_right hcast (by positivity)
    _ = 2 ^ (128 : ℤ) := by rw [← zpow_add₀ two_ne_zero, ← zpow_add₀ two_ne_zero]; norm_num

theorem blockScale_spec (fmt : BlkFmt) (cs : List ℕ) : ScaleOf fmt cs (blockScale (blkPar fmt) (cs.map FFmt.f32.value)) := by
  unfold ScaleOf blockScale
  rw [blockForm_eq]
  refine ⟨fun h => ?_, fun h => ?_, fun c hc hmax hne => ?_⟩
  · rw [amax_special h]
    rfl
  · obtain ⟨m, e, hq, -, hatt⟩ := amax_finite fun c hc => (h c hc).1
    have hm : m = 0 := by
      rcases hatt with h0 | ⟨c, hc, ha⟩
      · exact h0
      · rw [show absValue c = 0 from (h c hc).2, eq_comm, mul_eq_zero, Nat.cast_eq_zero] at ha
        exact ha.resolve_right (by positivity)
    rw [hq, hm]
    rfl
  · obtain ⟨m, e, hq, hbound, hatt⟩ := amax_finite fun d hd => (hmax d hd).1
    have hge : absValue c ≤ m * 2 ^ e := hbound c hc
    have hpos : 0 < absValue c := (abs_nonneg _).lt_of_ne' hne
    have hm : m ≠ 0 := by
      rintro rfl
      rw [Nat.cast_zero, zero_mul] at hge
      exact absurd hpos (not_lt.2 hge)
    obtain ⟨d, hd, ha⟩ := hatt.resolve_left hm
    have hval : absValue c = m * 2 ^ e := le_antisymm hge (ha ▸ (hmax d hd).2)
    rw [hq]
    dsimp only
    rw [if_neg hm, show |(codeValue .f32 c : ℝ)| = m * 2 ^ e from hval, log_numVal e (Nat.pos_of_ne_zero hm)]
    rfl

theorem blockScale_lt (fmt : BlkFmt) (cs : List ℕ) : (blockScale (blkPar fmt) (cs.map FFmt.f32.value)).1 < 2 ^ 8 := by
  unfold blockScale
  by_cases hfin : ∀ c ∈ cs, IsFinite .f32 c
  · obtain ⟨m, e, hq, -, hatt⟩ := amax_finite hfin
    rw [hq]
    dsimp only
    by_cases hm : m = 0
    · rw [if_pos hm]; decide
    obtain ⟨c, hc, ha⟩ := hatt.resolve_left hm
    have hpos : (0 : ℝ) < (m : ℝ) * 2 ^ e := by positivity
    have hlog : floorLog2 m e < 128 := by
      rw [← log_numVal e (Nat.pos_of_ne_zero hm)]
      refine (Int.lt_zpow_iff_log_lt one_lt_two hpos).1 ?_
      rw [← ha, Nat.cast_two]
      exact absValue_lt (hfin c hc)
    have hemax : 0 < (blkPar fmt).emax := by cases fmt <;> decide
    rw [if_neg hm]
    split
    · decide
    · show (floorLog2 m e - (blkPar fmt).emax + 127).toNat < 256
      omega
  · rw [amax_special (by simpa using hfin)]
    exact (by decide : 0xFF < 2 ^ 8)

/-- A scale other than 0xFF is that of a block of finite values (R95). -/
theorem finite_of_blockScale {fmt : BlkFmt} {cs : List ℕ} (h : (blockScale (blkPar fmt) (cs.map FFmt.f32.value)).1 ≠ 255) :
    ∀ c ∈ cs, IsFinite .f32 c := by
  by_contra hfin
  exact h (congrArg Prod.fst ((blockScale_spec fmt cs).1 (by simpa using hfin)))

/-! ### The elements of a block (R96-R98, R200) -/

theorem round_num (f : FFmt) {md : RMode} (hk : md.draw 0 = false) (s : Bool) (m : ℕ) (e : ℤ) {v : ℝ} (hv : numVal s m e = v) :
    Delivers f md v s (f.round md (.num s m e)) := hv ▸ roundMag_delivers f hk s m e

/-- Rounding to an integer and clamping to a symmetric range (R90, R97). -/
theorem roundInt_symmetric {md : RMode} (hk : md.draw 0 = false) {hi : ℤ} (hpos : 0 ≤ hi) (s : Bool) (m : ℕ) (e : ℤ) :
    ∃ n : ℕ, WholeRounded md s |numVal s m e| n ∧ roundInt md (-hi) hi (.num s m e) =
      (max (-hi) (min hi (if s then -(n : ℤ) else n)), (if hi < n then 32 else 0) ||| if (n : ℝ) = |numVal s m e| then 0 else 8) := by
  have hr : roundInt md (-hi) hi (.num s m e) = ((clampTo (-hi) hi (if s then -((roundAt md s m e 0).1 : ℤ) else (roundAt md s m e 0).1)).1,
      (clampTo (-hi) hi (if s then -((roundAt md s m e 0).1 : ℤ) else (roundAt md s m e 0).1)).2 ||| VF.when (roundAt md s m e 0).2 VF.inx) := by
    unfold roundInt roundAt
    rw [sub_zero, zero_sub]
  obtain ⟨hwhole, hexact⟩ := roundAt_spec hk s m e 0
  rw [zpow_zero, div_one] at hwhole
  rw [zpow_zero, mul_one] at hexact
  refine ⟨(roundAt md s m e 0).1, by rwa [numVal_abs], ?_⟩
  rw [hr, numVal_abs]
  generalize roundAt md s m e 0 = r at *
  have hinx : VF.when r.2 VF.inx = if (r.1 : ℝ) = (m : ℝ) * 2 ^ e then 0 else 8 := by
    by_cases h : (r.1 : ℝ) = (m : ℝ) * 2 ^ e
    · have hf : r.2 = false := Bool.not_eq_true _ ▸ mt hexact.1 (not_not_intro h)
      rw [if_pos h, hf]
      rfl
    · rw [if_neg h, hexact.2 h]
      rfl
  have hclamp (v : ℤ) (hv : v = r.1 ∨ v = -(r.1 : ℤ)) : clampTo (-hi) hi v = (max (-hi) (min hi v), if hi < r.1 then 32 else 0) := by
    unfold clampTo
    by_cases hlo : v < -hi
    · rw [if_pos hlo, if_pos (by omega), min_eq_right (by omega), max_eq_left (by omega)]
      rfl
    by_cases hhi : hi < v
    · rw [if_neg hlo, if_pos hhi, if_pos (by omega), min_eq_left (by omega), max_eq_right (by omega)]
      rfl
    · rw [if_neg hlo, if_neg hhi, if_neg (by omega), min_eq_right (by omega), max_eq_right (by omega)]
      rfl
  rw [hinx, hclamp]
  cases s <;> simp

theorem quantEl_spec (fmt : BlkFmt) {md : RMode} (hk : md.draw 0 = false) (scale c : ℕ) (hfin : scale ≠ 255 → IsFinite .f32 c) :
    QuantizedAs fmt md scale c (quantEl (blkPar fmt) md scale (FFmt.f32.value c)) := by
  unfold QuantizedAs
  rw [blockForm_eq]
  dsimp only
  refine ⟨fun h => if_pos h, fun h => ?_⟩
  obtain ⟨m, e, hv, hc⟩ := value_finite (hfin h)
  have hval : numVal (signBit .f32 c) m (e - scale + 127) = (codeValue .f32 c : ℝ) / 2 ^ ((scale : ℤ) - 127) := by
    rw [hc, sub_add, sub_eq_add_neg, numVal_shift, zpow_neg]
    rfl
  rw [hv]
  refine ⟨fun f hf => ?_, fun hf => ?_⟩
  · have hq : quantEl (blkPar fmt) md scale (.num (signBit .f32 c) m e)
        = f.round { md with sat := true } (.num (signBit .f32 c) m (e - scale + 127)) := by
      unfold quantEl
      rw [if_neg h]
      dsimp only
      rw [hf]
    rw [hq]
    exact round_num f (md := { md with sat := true }) hk _ _ _ hval
  · have hq : quantEl (blkPar fmt) md scale (.num (signBit .f32 c) m e) =
        (toBitsN (stepOf (blkPar fmt).place) (roundInt md (-intHi true (blkPar fmt).bits) (intHi true (blkPar fmt).bits)
          (.num (signBit .f32 c) m (e - scale + 127))).1, (roundInt md (-intHi true (blkPar fmt).bits) (intHi true (blkPar fmt).bits)
          (.num (signBit .f32 c) m (e - scale + 127))).2) := by
      unfold quantEl
      rw [if_neg h]
      dsimp only
      rw [hf]
    have hpos : 0 ≤ intHi true (blkPar fmt).bits := by cases fmt <;> decide
    obtain ⟨n, hn, hr⟩ := roundInt_symmetric hk hpos (signBit .f32 c) m (e - scale + 127)
    rw [hval] at hn hr
    rw [hq, hr]
    exact ⟨n, hn, rfl⟩

theorem quantEl_lt (fmt : BlkFmt) (md : RMode) (scale : ℕ) (v : FVal) : (quantEl (blkPar fmt) md scale v).1 < 2 ^ stepOf (blkPar fmt).place := by
  have hstep := Nat.two_pow_pos (stepOf (blkPar fmt).place)
  unfold quantEl
  split
  · exact hstep
  cases v with
  | num s m e =>
    dsimp only
    cases hf : (blkPar fmt).flt with
    | none =>
      dsimp only
      unfold toBitsN
      have := Int.emod_lt_of_pos (roundInt md (-intHi true (blkPar fmt).bits) (intHi true (blkPar fmt).bits) (.num s m (e - scale + 127))).1
        (show (0 : ℤ) < 2 ^ stepOf (blkPar fmt).place by positivity)
      rw [Int.toNat_lt (Int.emod_nonneg _ (by positivity))]
      exact_mod_cast this
    | some f =>
      have hw : f.par.width ≤ stepOf (blkPar fmt).place := by cases fmt <;> cases hf <;> decide
      exact (roundMag_lt f { md with sat := true } s m _).trans_le (Nat.pow_le_pow_right two_pos hw)
  | nan => exact hstep
  | inv => exact hstep
  | inf s => exact hstep

/-- A value as the scale of its block has it (R98). -/
def FVal.scaled (v : FVal) (scale : ℕ) : FVal :=
  match v with
  | .num s m e => .num s m (e + scale - 127)
  | v => v

theorem dequantEl_float {p : BlkPar} {f : FFmt} (md : RMode) {scale c : ℕ} (h : scale ≠ 255) (hf : p.flt = some f) :
    dequantEl p md scale c = FFmt.f32.round md (FVal.scaled (f.value (c % 2 ^ p.bits)) scale) := by
  unfold dequantEl
  rw [if_neg h, hf]
  dsimp only
  cases f.value (c % 2 ^ p.bits) <;> rfl

theorem sext_eq_intVal (c n : ℕ) : sext c n = intVal n true (c % 2 ^ n) := by
  unfold sext intVal
  simp

theorem dequantEl_int {p : BlkPar} (md : RMode) {scale c : ℕ} (h : scale ≠ 255) (hf : p.flt = none) :
    let v := intVal p.bits true (c % 2 ^ p.bits)
    dequantEl p md scale c = FFmt.f32.round md (.num (if v = 0 then false else decide (v < 0)) v.natAbs (0 + scale - 127)) := by
  unfold dequantEl
  rw [if_neg h, hf, sext_eq_intVal]
  rfl

theorem numVal_int (v k : ℤ) : numVal (if v = 0 then false else decide (v < 0)) v.natAbs k = (v : ℝ) * 2 ^ k := by
  have habs : ((v.natAbs : ℕ) : ℝ) = |(v : ℝ)| := by rw [Nat.cast_natAbs, Int.cast_abs]
  unfold numVal
  rw [habs]
  rcases lt_trichotomy v 0 with h | rfl | h
  · rw [if_neg h.ne, decide_eq_true h, if_pos rfl, abs_of_neg (Int.cast_lt_zero.2 h)]
    ring
  · simp
  · rw [if_neg h.ne', decide_eq_false (not_lt.2 h.le), if_neg Bool.false_ne_true, abs_of_pos (Int.cast_pos.2 h)]
    ring

theorem dequantEl_spec (fmt : BlkFmt) {md : RMode} (hk : md.draw 0 = false) (scale c : ℕ) :
    DequantizedAs fmt md scale c (dequantEl (blkPar fmt) md scale c) := by
  unfold DequantizedAs
  rw [blockForm_eq]
  dsimp only
  refine ⟨fun h => if_pos h, fun h => ⟨fun f hf => ⟨fun hn => ?_, fun hi => ?_, fun hfin => ?_⟩, fun hf => ?_⟩⟩
  · rw [dequantEl_float md h hf, value_nan hn]
    rfl
  · rw [dequantEl_float md h hf, value_infinite hi]
    unfold infiniteResult
    cases hs : md.sat <;> simp [FVal.scaled, FFmt.round, FFmt.par, hs] <;> rfl
  · obtain ⟨m, e, hv, hc⟩ := value_finite hfin
    rw [dequantEl_float md h hf, hv]
    refine round_num .f32 hk _ _ _ ?_
    rw [hc, add_sub_assoc, numVal_shift]
  · rw [dequantEl_int md h hf]
    generalize intVal (blkPar fmt).bits true (c % 2 ^ (blkPar fmt).bits) = v
    rw [zero_add]
    obtain ⟨hzero, hround⟩ := round_num .f32 hk _ _ _ (numVal_int v (scale - 127))
    refine ⟨fun h0 => ?_, hround⟩
    have hv : v = 0 := by
      rw [mul_eq_zero, Int.cast_eq_zero] at h0
      exact h0.resolve_right (by positivity)
    have hz := hzero h0
    rw [if_pos hv] at hz ⊢
    exact hz

theorem dequantEl_lt (p : BlkPar) (md : RMode) (scale c : ℕ) : (dequantEl p md scale c).1 < 2 ^ 32 := by
  unfold dequantEl
  split
  · exact (by decide : f32Nan < 2 ^ 32)
  · dsimp only
    split <;> exact round_lt ..

/-! ### Blocks in registers (R185, R199, R200) -/

theorem modeAt_keeps (x : Tile) (rnd : Rnd) (sat : Bool) (i : ℕ) : (modeAt x rnd sat i).draw 0 = false :=
  decide_eq_false (Nat.not_lt_zero (srBits x.vu.srseed x.vu.srhnd (x.vu.sridx + BitVec.ofNat 32 i)))

/-- The codes of half `h` of row `y`. -/
def blockCodes (a y h : ℕ) : List ℕ := (List.range 32).map fun k => el 32 a (64 * y + 32 * h + k)

theorem blockVals_eq (a y h : ℕ) : blockVals a (2 * y + h) = (blockCodes a y h).map FFmt.f32.value := by
  unfold blockVals blockCodes
  rw [List.map_map]
  refine List.map_congr_left fun k _ => ?_
  show FFmt.f32.value _ = FFmt.f32.value _
  congr 2
  ring

theorem mem_blockCodes (a y c : ℕ) : el 32 a (64 * y + c) ∈ blockCodes a y (c / 32) := by
  refine List.mem_map.2 ⟨c % 32, List.mem_range.2 (Nat.mod_lt _ (by decide)), ?_⟩
  rw [add_assoc, Nat.div_add_mod]

theorem scalesOf_getD (p : BlkPar) (a : ℕ) {y h : ℕ} (hy : y < 16) (hh : h < 2) (d : ℕ × VFlags) :
    (scalesOf p a).getD (2 * y + h) d = blockScale p ((blockCodes a y h).map FFmt.f32.value) := by
  rw [← blockVals_eq]
  exact getD_map_range d (by omega)

/-- The register of a block's elements: rows of parts of 64, sixteen of them (R185). -/
theorem place_shape (fmt : BlkFmt) : 64 ∣ rowLen (blkPar fmt).place ∧ 16 * rowLen (blkPar fmt).place = count (blkPar fmt).place := by
  cases fmt <;> decide

section
variable {L q y c : ℕ} (hL : 64 ∣ L) (hq : 64 * q < L)
include hL hq

theorem part_fits : 64 * q + 64 ≤ L := by
  obtain ⟨k, rfl⟩ := hL
  omega

variable (hc : c < 64)
include hc

theorem index_row : (y * L + 64 * q + c) / L = y ∧ (y * L + 64 * q + c) % L = 64 * q + c := by
  have hfit := part_fits hL hq
  have hlt : 64 * q + c < L := by omega
  rw [add_assoc, add_comm, Nat.add_mul_div_right _ _ (by omega), Nat.add_mul_mod_self_right, Nat.div_eq_of_lt hlt, Nat.mod_eq_of_lt hlt, zero_add]
  exact ⟨rfl, rfl⟩

theorem index_lt (hy : y < 16) : y * L + 64 * q + c < 16 * L := by
  have hfit := part_fits hL hq
  calc y * L + 64 * q + c < y * L + L := by omega
    _ = (y + 1) * L := by ring
    _ ≤ 16 * L := Nat.mul_le_mul_right L hy
end

/-- An index inside the part is that of a row and a column of it. -/
theorem index_of {L q n : ℕ} (hlo : 64 * q ≤ n % L) : n = n / L * L + 64 * q + (n % L - 64 * q) := by
  have := Nat.div_add_mod' n L
  omega

/-! #### VQMX (R199) -/

/-- One element of VQMX and its flags. -/
def quantAt (x : Tile) (fmt : BlkFmt) (rnd : Rnd) (a n y c : ℕ) : ℕ × VFlags :=
  if zeroBlock ((blockCodes a y (c / 32)).map FFmt.f32.value) then (0, 0)
  else quantEl (blkPar fmt) (modeAt x rnd true n) (blockScale (blkPar fmt) ((blockCodes a y (c / 32)).map FFmt.f32.value)).1
    (FFmt.f32.value (el 32 a (64 * y + c)))

/-- A sub-element of the register that VQMX makes; none outside its part. -/
def quantSlot (x : Tile) (p : BlkPar) (q : ℕ) (rnd : Rnd) (sc : List (ℕ × VFlags)) (a n : ℕ) : Option (ℕ × VFlags) :=
  let rd := rowLen p.place
  let zs := (List.range 32).map fun b => zeroBlock (blockVals a b)
  let y := n / rd
  let i := n % rd
  if 64 * q ≤ i && i < 64 * q + 64 then
    let c := i - 64 * q
    let s := sc.getD (2 * y + c / 32) (0, 0)
    if zs.getD (2 * y + c / 32) false then some (0, s.2)
    else
      let e := quantEl p (modeAt x rnd true n) s.1 (FFmt.f32.value (el 32 a (64 * y + c)))
      some (e.1, e.2 ||| s.2)
  else none

theorem quantize_eq (x : Tile) (p : BlkPar) (q : ℕ) (rnd : Rnd) (sc : List (ℕ × VFlags)) (a : ℕ) :
    quantize x p q rnd sc a = collect (stepOf p.place) ((List.range (count p.place)).map (quantSlot x p q rnd sc a)) := rfl

section
variable {x : Tile} {fmt : BlkFmt} {q : ℕ} {rnd : Rnd} {a : ℕ}

theorem quantSlot_in (hq : 64 * q < rowLen (blkPar fmt).place) {y c : ℕ} (hy : y < 16) (hc : c < 64) :
    let n := y * rowLen (blkPar fmt).place + 64 * q + c
    quantSlot x (blkPar fmt) q rnd (scalesOf (blkPar fmt) a) a n = some ((quantAt x fmt rnd a n y c).1,
      (quantAt x fmt rnd a n y c).2 ||| (blockScale (blkPar fmt) ((blockCodes a y (c / 32)).map FFmt.f32.value)).2) := by
  intro n
  have hh : c / 32 < 2 := by omega
  obtain ⟨hrow, hcol⟩ := index_row (y := y) (place_shape fmt).1 hq hc
  have hin : (decide (64 * q ≤ 64 * q + c) && decide (64 * q + c < 64 * q + 64)) = true := by simp [hc]
  unfold quantSlot quantAt
  dsimp only
  rw [hrow, hcol, if_pos hin, Nat.add_sub_cancel_left, scalesOf_getD _ a hy hh, getD_map_range false (by omega), blockVals_eq]
  split
  · exact congrArg (fun f => some (0, f)) BitVec.zero_or.symm
  · rfl

theorem quantSlot_out {n : ℕ} (hn : n < count (blkPar fmt).place)
    (h : ∀ y c, y < 16 → c < 64 → n ≠ y * rowLen (blkPar fmt).place + 64 * q + c) :
    quantSlot x (blkPar fmt) q rnd (scalesOf (blkPar fmt) a) a n = none := by
  unfold quantSlot
  dsimp only
  refine if_neg fun hin => ?_
  rw [Bool.and_eq_true, decide_eq_true_iff, decide_eq_true_iff] at hin
  rw [← (place_shape fmt).2] at hn
  exact h _ _ (Nat.div_lt_of_lt_mul (by rwa [mul_comm] at hn)) (by omega) (index_of hin.1)

theorem quantSlot_lt {sc : List (ℕ × VFlags)} {n : ℕ} {e : ℕ × VFlags} (h : quantSlot x (blkPar fmt) q rnd sc a n = some e) :
    e.1 < 2 ^ stepOf (blkPar fmt).place := by
  unfold quantSlot at h
  dsimp only at h
  split at h
  · split at h
    · cases h
      exact Nat.two_pow_pos _
    · cases h
      exact quantEl_lt ..
  · cases h

theorem quantAt_zero {n y c : ℕ} (h : zeroBlock ((blockCodes a y (c / 32)).map FFmt.f32.value) = true) : quantAt x fmt rnd a n y c = (0, 0) :=
  if_pos h

theorem quantAt_spec {n y c : ℕ} (h : zeroBlock ((blockCodes a y (c / 32)).map FFmt.f32.value) = false) :
    QuantizedAs fmt (modeAt x rnd true n) (blockScale (blkPar fmt) ((blockCodes a y (c / 32)).map FFmt.f32.value)).1 (el 32 a (64 * y + c))
      (quantAt x fmt rnd a n y c) := by
  unfold quantAt
  rw [h]
  exact quantEl_spec fmt (modeAt_keeps ..) _ _ fun hs => finite_of_blockScale hs _ (mem_blockCodes a y c)
end

/-! #### The scale bytes of VQMX (R199) -/

/-- A byte of the latch that VQMX writes; none outside its part. -/
def scaleSlot (q : ℕ) (sc : List (ℕ × VFlags)) (n : ℕ) : Option (ℕ × VFlags) :=
  let y := n / 256
  let c := n % 256
  if 2 * q ≤ c && c < 2 * q + 2 then some ((sc.getD (2 * y + c - 2 * q) (0, 0)).1, 0) else none

theorem scaleBytes_eq (q : ℕ) (sc : List (ℕ × VFlags)) : scaleBytes q sc = collect 8 ((List.range 4096).map (scaleSlot q sc)) := rfl

section
variable {p : BlkPar} {q a : ℕ}

theorem scaleSlot_in (hq : 2 * q + 2 ≤ 256) {y h : ℕ} (hy : y < 16) (hh : h < 2) : scaleSlot q (scalesOf p a) (256 * y + 2 * q + h) =
    some ((blockScale p ((blockCodes a y h).map FFmt.f32.value)).1, 0) := by
  have hrow : (256 * y + 2 * q + h) / 256 = y := by omega
  have hcol : (256 * y + 2 * q + h) % 256 = 2 * q + h := by omega
  have hin : (decide (2 * q ≤ 2 * q + h) && decide (2 * q + h < 2 * q + 2)) = true := by simp [hh]
  unfold scaleSlot
  dsimp only
  rw [hrow, hcol, if_pos hin, show 2 * y + (2 * q + h) - 2 * q = 2 * y + h by omega, scalesOf_getD p a hy hh]

theorem scaleSlot_out {sc : List (ℕ × VFlags)} {n : ℕ} (hn : n < 4096) (h : ∀ y h, y < 16 → h < 2 → n ≠ 256 * y + 2 * q + h) :
    scaleSlot q sc n = none := by
  unfold scaleSlot
  dsimp only
  refine if_neg fun hin => ?_
  rw [Bool.and_eq_true, decide_eq_true_iff, decide_eq_true_iff] at hin
  exact h (n / 256) (n % 256 - 2 * q) (by omega) (by omega) (by omega)

theorem scaleSlot_lt {fmt : BlkFmt} {n : ℕ} {e : ℕ × VFlags} (hn : n < 4096) (h : scaleSlot q (scalesOf (blkPar fmt) a) n = some e) : e.1 < 2 ^ 8 := by
  unfold scaleSlot at h
  dsimp only at h
  split at h
  · next hin =>
    rw [Bool.and_eq_true, decide_eq_true_iff, decide_eq_true_iff] at hin
    rw [show 2 * (n / 256) + n % 256 - 2 * q = 2 * (n / 256) + (n % 256 - 2 * q) by omega,
      scalesOf_getD _ a (by omega) (by omega)] at h
    cases h
    exact blockScale_lt ..
  · cases h
end

/-! #### VDQMX (R200) -/

/-- A lane that VDQMX makes. -/
def dequantAt (x : Tile) (p : BlkPar) (q : ℕ) (rnd : Rnd) (a b n : ℕ) : ℕ × VFlags :=
  let y := n / 64
  let i := 64 * q + n % 64
  dequantEl p (modeAt x rnd false n) (el 8 b (256 * y + i / 32)) (el (stepOf p.place) a (y * rowLen p.place + i))

theorem dequantize_eq (x : Tile) (p : BlkPar) (q : ℕ) (rnd : Rnd) (a b : ℕ) :
    dequantize x p q rnd a b = collect 32 ((List.range 1024).map fun n => some (dequantAt x p q rnd a b n)) := rfl

theorem dequantAt_spec (x : Tile) (fmt : BlkFmt) (q : ℕ) (rnd : Rnd) (a b y : ℕ) {c : ℕ} (hc : c < 64) :
    DequantizedAs fmt (modeAt x rnd false (64 * y + c)) (el 8 b (256 * y + (64 * q + c) / 32))
      (el (stepOf (blkPar fmt).place) a (y * rowLen (blkPar fmt).place + 64 * q + c)) (dequantAt x (blkPar fmt) q rnd a b (64 * y + c)) := by
  have hrow : (64 * y + c) / 64 = y := by omega
  have hcol : (64 * y + c) % 64 = c := by omega
  unfold dequantAt
  dsimp only
  rw [hrow, hcol, ← add_assoc]
  exact dequantEl_spec fmt (modeAt_keeps ..) _ _

end Sys2Proof.Machine

namespace Sys2Proof.Proofs
open Sys2Proof.Machine
open Claims (blockForm IsFinite codeValue QuantizedAs DequantizedAs ScaleOf)

section
variable (x : Tile) (fmt : BlkFmt) (q : ℕ) (rnd : Rnd) (a b : ℕ)

/-- The scale bytes in the latch. -/
theorem scaleBytes_spec (hq : 2 * q + 2 ≤ 256) {y h : ℕ} (hy : y < 16) (hh : h < 2) :
    let S := scaleBytes q (scalesOf (blkPar fmt) a)
    el 8 S.v (256 * y + 2 * q + h) = (blockScale (blkPar fmt) ((blockCodes a y h).map FFmt.f32.value)).1
      ∧ el 2 S.wr (256 * y + 2 * q + h) = 3 := by
  have hn : 256 * y + 2 * q + h < 4096 := by omega
  dsimp only
  rw [scaleBytes_eq]
  constructor
  · rw [collect_el hn fun n hn e he => scaleSlot_lt hn he, scaleSlot_in hq hy hh]
    rfl
  · rw [show 2 = 8 / 4 from rfl, collect_wr hn, scaleSlot_in hq hy hh]
    rfl

theorem scaleBytes_outside {n : ℕ} (hn : n < 4096) (h : ∀ y h, y < 16 → h < 2 → n ≠ 256 * y + 2 * q + h) :
    el 2 (scaleBytes q (scalesOf (blkPar fmt) a)).wr n = 0 := by
  rw [scaleBytes_eq, show 2 = 8 / 4 from rfl, collect_wr hn, scaleSlot_out hn h]
  rfl

/-- The elements of the part, and what is written. -/
theorem quantize_el (hq : 64 * q < rowLen (blkPar fmt).place) {y c : ℕ} (hy : y < 16) (hc : c < 64) :
    let R := quantize x (blkPar fmt) q rnd (scalesOf (blkPar fmt) a) a
    let n := y * rowLen (blkPar fmt).place + 64 * q + c
    el (stepOf (blkPar fmt).place) R.v n = (quantAt x fmt rnd a n y c).1
      ∧ el (stepOf (blkPar fmt).place / 4) R.wr n = 2 ^ (stepOf (blkPar fmt).place / 4) - 1 := by
  have hn : y * rowLen (blkPar fmt).place + 64 * q + c < count (blkPar fmt).place :=
    (place_shape fmt).2 ▸ index_lt (place_shape fmt).1 hq hc hy
  dsimp only
  rw [quantize_eq, collect_el hn fun n _ e he => quantSlot_lt he, collect_wr hn, quantSlot_in hq hy hc]
  exact ⟨rfl, rfl⟩

theorem quantize_outside {n : ℕ} (hn : n < count (blkPar fmt).place)
    (h : ∀ y c, y < 16 → c < 64 → n ≠ y * rowLen (blkPar fmt).place + 64 * q + c) :
    el (stepOf (blkPar fmt).place / 4) (quantize x (blkPar fmt) q rnd (scalesOf (blkPar fmt) a) a).wr n = 0 := by
  rw [quantize_eq, collect_wr hn, quantSlot_out hn h]
  rfl

/-- The flags of VQMX are those of the elements and scales of its part. -/
theorem quantize_fl (hq : 64 * q < rowLen (blkPar fmt).place) (k : ℕ) :
    (quantize x (blkPar fmt) q rnd (scalesOf (blkPar fmt) a) a).fl.getLsbD k = true ↔ ∃ y c, y < 16 ∧ c < 64
      ∧ ((quantAt x fmt rnd a (y * rowLen (blkPar fmt).place + 64 * q + c) y c).2
          ||| (blockScale (blkPar fmt) ((blockCodes a y (c / 32)).map FFmt.f32.value)).2).getLsbD k = true := by
  rw [quantize_eq, collect_fl]
  constructor
  · rintro ⟨n, hn, e, he, hk⟩
    by_cases hin : ∃ y c, y < 16 ∧ c < 64 ∧ n = y * rowLen (blkPar fmt).place + 64 * q + c
    · obtain ⟨y, c, hy, hc, rfl⟩ := hin
      rw [quantSlot_in hq hy hc] at he
      cases he
      exact ⟨y, c, hy, hc, hk⟩
    · rw [quantSlot_out hn fun y c hy hc h => hin ⟨y, c, hy, hc, h⟩] at he
      cases he
  · rintro ⟨y, c, hy, hc, hk⟩
    exact ⟨_, (place_shape fmt).2 ▸ index_lt (place_shape fmt).1 hq hc hy, _, quantSlot_in hq hy hc, hk⟩

/-- The lanes of VDQMX, all written. -/
theorem dequantize_el {n : ℕ} (hn : n < 1024) :
    let D := dequantize x (blkPar fmt) q rnd a b
    el 32 D.v n = (dequantAt x (blkPar fmt) q rnd a b n).1 ∧ el 8 D.wr n = 255 := by
  dsimp only
  rw [dequantize_eq]
  constructor
  · rw [collect_el hn fun n _ e he => by cases he; exact dequantEl_lt ..]
    rfl
  · rw [show 8 = 32 / 4 from rfl, collect_wr hn]
    rfl

theorem dequantize_fl (k : ℕ) : (dequantize x (blkPar fmt) q rnd a b).fl.getLsbD k = true ↔
    ∃ y c, y < 16 ∧ c < 64 ∧ (dequantAt x (blkPar fmt) q rnd a b (64 * y + c)).2.getLsbD k = true := by
  rw [dequantize_eq, collect_fl]
  constructor
  · rintro ⟨n, hn, e, he, hk⟩
    cases he
    refine ⟨n / 64, n % 64, by omega, by omega, ?_⟩
    rwa [Nat.div_add_mod]
  · rintro ⟨y, c, hy, hc, hk⟩
    exact ⟨64 * y + c, by omega, _, rfl, hk⟩
end

theorem blockFormats : Claims.BlockFormats := by
  intro x fmt q rnd a b
  have hplace : (blockForm fmt).1 = (blkPar fmt).place := congrArg Prod.fst (blockForm_eq fmt)
  dsimp only
  rw [hplace]
  intro hq
  have hq' : 2 * q + 2 ≤ 256 := by
    have hL : rowLen (blkPar fmt).place ≤ 512 := by cases fmt <;> decide
    omega
  refine ⟨fun y h hy hh => ?_, fun n hn h => scaleBytes_outside fmt q a hn h,
    ⟨fun y c => (quantAt x fmt rnd a (y * rowLen (blkPar fmt).place + 64 * q + c) y c).2, fun y c hy hc => ?_,
      fun n hn h => quantize_outside x fmt q rnd a hn h, fun k => ?_⟩,
    fun y c => (dequantAt x (blkPar fmt) q rnd a b (64 * y + c)).2, fun y c hy hc => ?_, fun k => dequantize_fl x fmt q rnd a b k⟩
  · rw [scalesOf_getD _ a hy hh]
    exact ⟨blockScale_spec fmt _, scaleBytes_spec fmt q a hq' hy hh⟩
  · obtain ⟨hv, hwr⟩ := quantize_el x fmt q rnd a hq hy hc
    rw [scalesOf_getD _ a hy (by omega)]
    rw [hv]
    refine ⟨fun hz => ?_, fun hz => ?_, hwr⟩
    · have hz : zeroBlock ((blockCodes a y (c / 32)).map FFmt.f32.value) = true := zeroBlock_iff.2 hz
      exact ⟨congrArg Prod.fst (quantAt_zero hz), congrArg Prod.snd (quantAt_zero hz)⟩
    · exact quantAt_spec (Bool.not_eq_true _ ▸ mt zeroBlock_iff.1 hz)
  · rw [quantize_fl x fmt q rnd a hq]
    refine exists_congr fun y => exists_congr fun c => and_congr_right fun hy => and_congr_right fun hc => ?_
    rw [scalesOf_getD _ a hy (by omega)]
  · obtain ⟨hv, hwr⟩ := dequantize_el x fmt q rnd a b (n := 64 * y + c) (by omega)
    rw [hv]
    exact ⟨dequantAt_spec x fmt q rnd a b y hc, hwr⟩

/-- Settles O20: the words of the mask stack, flags and seeds are their actions on sources that can be read; a block's scale is the exponent of
its greatest magnitude, and each element its exact quotient or product rounded once. -/
theorem vectorStateWords : Obligations.VectorStateWords := ⟨stateWords, vectorArrival, blockFormats⟩

end Sys2Proof.Proofs
end

section
/-! PROOF. Memory at reset; the freeze of a running tile, and a precise trap of a word (O51, O59). -/

namespace Sys2Proof.Machine

/-! ### Reset (R55, R313) -/

theorem ok_tile0 : State.tile0.ok := ⟨⟨rfl, rfl, rfl, rfl⟩, ⟨rfl, rfl⟩, by decide, fun _ => BitVec.zero_and⟩
theorem ok_die0 : State.die0.ok := ⟨rfl, ⟨rfl, rfl⟩, by decide, by decide⟩

/-! ### A report and a log entry (R293, R376) -/

/-- The first word of a report of a precise trap (R293). -/
theorem TrapInfo.word0_fields (i : TrapInfo) (h : i.async = false) :
    i.word0.extractLsb' 56 8 = i.cause ∧ i.word0.extractLsb' 48 8 = 0 ∧ i.word0.extractLsb' 32 1 = 0 ∧ i.word0.extractLsb' 24 8 = i.code
      ∧ i.word0.extractLsb' 21 3 = i.eng ∧ i.word0.extractLsb' 0 15 = BitVec.ofNat 15 i.addr := by
  unfold TrapInfo.word0
  rw [h]
  generalize BitVec.ofBool (resumable i.cause i.aux && !false) = rsm
  generalize BitVec.ofNat 15 i.addr = addr
  simp only [Bool.false_eq_true, if_false]
  bv_normalize

/-- The class of an entry (R376). -/
theorem entry_class (code : BitVec 8) (cls : BitVec 2) (eng : BitVec 3) (slot : BitVec 6) (unit : BitVec 4) (res : BitVec 26) (addr : BitVec 15) :
    BitVec.extractLsb' 54 2 (show DWord from code ++ cls ++ eng ++ slot ++ unit ++ res ++ addr) = cls := by
  bv_normalize

/-- The entry of a tile stands at the tile's slot (R376). -/
theorem logRank_engine (code : BitVec 8) (e : Eng) (slot unit : Nat) : logRank code e.code slot unit = slot := by
  cases e <;> rfl

section
variable (z : Die) (r : Nat) (le : LogEnt)

/-- One entry of a tick enters the log as the tick ends. -/
theorem Die.writeLog_one (h : z.logNow = [(r, le)]) : z.writeLog = ({ z with logNow := [] } : Die).writeEntry le := by
  rw [Die.writeLog, h]
  rfl

theorem Die.writeLog_room (h : z.logNow = [(r, le)]) (hf : (z.logWr + 512 - z.logRd) % 512 < 256) :
    z.writeLog.logWr = (z.logWr + 1) % 512 ∧ z.writeLog.log.get State.log0 (z.logWr % 256) = le
      ∧ z.writeLog.lost = z.lost ∧ z.writeLog.logNow = [] := by
  rw [z.writeLog_one r le h, Die.writeEntry, if_neg (by exact Nat.not_le.2 hf)]
  exact ⟨rfl, Map.get_put_same _ _ _ _, rfl, rfl⟩

theorem Die.writeLog_full (h : z.logNow = [(r, le)]) (hf : 256 ≤ (z.logWr + 512 - z.logRd) % 512) :
    z.writeLog.logWr = z.logWr ∧ z.writeLog.log = z.log ∧ z.writeLog.lost = min 65535 (z.lost + 1) := by
  rw [z.writeLog_one r le h, Die.writeEntry, if_pos (by exact hf)]
  exact ⟨rfl, rfl, rfl⟩
end

/-! ### The freeze of a running tile (R75, R293, R300) -/

/-- The report of a reason, at a package time and in a phase (R293). -/
abbrev TrapInfo.report (i : TrapInfo) (time phase : Nat) : Report := ⟨i.word0, BitVec.ofNat 64 time, BitVec.ofNat 64 phase, i.aux⟩

/-- A tile that has frozen for a reason, at a package time. -/
def Tile.frozenFor (x : Tile) (i : TrapInfo) (time : Nat) : Tile :=
  { x with stop := { x.stop with
      frozen := true, held := .none, xlated := false, xlatDue := none, promote := none, tpend := true
      report := some (i.report time x.seat.phase) } }

/-- The partition of a tile that freezes, if it has one, is HELD. -/
def State.holdSeat (s : State) (o : Option Nat) : State := o.elim s s.holdPart

section
variable {s : State} {t : Nat} {i : TrapInfo} {unit : Nat} {loc : DWord}

theorem freezeAt_running (h : (s.tile t).stop.frozen = false) : s.freezeAt t i unit loc =
    ((s.log (dieOf t) i.cause 1 i.eng (slotOf t) unit (if i.async then i.addr2.toNat else i.addr) (s.tile t).seat.phase loc).modTile t
      (·.frozenFor i s.time)).holdSeat (s.tile t).seat.part := by
  unfold State.freezeAt
  dsimp only
  rw [h, if_neg Bool.false_ne_true]
  cases (s.tile t).seat.part <;> rfl

/-- Outside the partitions, holding one changes nothing. -/
theorem holdSeat_tile (u : State) (o : Option Nat) (k : Nat) : (u.holdSeat o).tile k = u.tile k := by cases o <;> rfl
theorem holdSeat_die (u : State) (o : Option Nat) (k : Nat) : (u.holdSeat o).die k = u.die k := by cases o <;> rfl
theorem holdSeat_rest (u : State) (o : Option Nat) : (u.holdSeat o).mem = u.mem ∧ (u.holdSeat o).copies = u.copies
    ∧ (u.holdSeat o).links = u.links ∧ (u.holdSeat o).pkg = u.pkg := by
  cases o <;> exact ⟨rfl, rfl, rfl, rfl⟩

theorem holdSeat_part_ne {u : State} {o : Option Nat} {p : Nat} (h : o ≠ some p) : (u.holdSeat o).part p = u.part p := by
  cases o with
  | none => rfl
  | some q =>
    show (u.holdPart q).part p = u.part p
    rw [State.holdPart, State.part_modPart_ne _ _ _ _ fun hp => h (congrArg some hp.symm)]

/-- HELD (R35, R300): an OPEN or EXTENDED partition that has taken no transition in this tick. -/
theorem holdSeat_part {u : State} {p : Nat} : (u.holdSeat (some p)).part p =
    if (u.part p).since ≠ u.ticks ∧ ((u.part p).st = .open_ ∨ (u.part p).st = .extended) then
      { u.part p with st := .held, heldFrom := (u.part p).st, heldAt := u.time, since := u.ticks }
    else u.part p := by
  show (u.holdPart p).part p = _
  rw [State.holdPart, State.part_modPart]
  by_cases hs : (u.part p).since = u.ticks
  · simp only [hs, if_true, ne_eq, not_true, false_and, if_false]
  · rw [if_neg hs]
    cases hst : (u.part p).st <;> simp [hs]

variable (h : (s.tile t).stop.frozen = false)
include h

theorem freezeAt_tile : (s.freezeAt t i unit loc).tile t = (s.tile t).frozenFor i s.time := by
  rw [freezeAt_running h, holdSeat_tile, State.tile_modTile]
  rfl

theorem freezeAt_tile_ne {u : Nat} (hu : u ≠ t) : (s.freezeAt t i unit loc).tile u = s.tile u := by
  rw [freezeAt_running h, holdSeat_tile, State.tile_modTile_ne _ _ _ _ hu]
  rfl

/-- Memory, copies, links and the package registers stay. -/
theorem freezeAt_rest : (s.freezeAt t i unit loc).mem = s.mem ∧ (s.freezeAt t i unit loc).copies = s.copies
    ∧ (s.freezeAt t i unit loc).links = s.links ∧ (s.freezeAt t i unit loc).pkg = s.pkg := by
  rw [freezeAt_running h]
  exact holdSeat_rest _ _

theorem freezeAt_part_ne {p : Nat} (hp : (s.tile t).seat.part ≠ some p) : (s.freezeAt t i unit loc).part p = s.part p := by
  rw [freezeAt_running h, holdSeat_part_ne hp]
  rfl

theorem freezeAt_part {p : Nat} (hp : (s.tile t).seat.part = some p) : (s.freezeAt t i unit loc).part p =
    if (s.part p).since ≠ s.ticks ∧ ((s.part p).st = .open_ ∨ (s.part p).st = .extended) then
      { s.part p with st := .held, heldFrom := (s.part p).st, heldAt := s.time, since := s.ticks }
    else s.part p := by
  rw [freezeAt_running h, hp, holdSeat_part]
  rfl

/-- One entry of class fault arises at the tile's die (R376). -/
theorem freezeAt_log {e : Eng} (he : i.eng = e.code) :
    ∃ le, ((s.freezeAt t i unit loc).die (t / 64)).logNow = (s.die (t / 64)).logNow ++ [(t % 64, le)]
      ∧ le.e0.extractLsb' 56 8 = i.cause ∧ le.e0.extractLsb' 54 2 = 1 ∧ le.e1 = BitVec.ofNat 64 s.time
      ∧ le.e2 = BitVec.ofNat 64 (s.tile t).seat.phase := by
  rw [freezeAt_running h, holdSeat_die, State.modTile_die_frame, State.log, show dieOf t = t / 64 from rfl, State.die_modDie, he, logRank_engine]
  exact ⟨_, rfl, entry_code .., entry_class .., rfl, rfl⟩
end

/-! ### A trap of a word behind no GUARD -/

theorem unguard_none {s : State} {t : Nat} (h : (s.tile t).ctl.guard = none) : s.unguard t = s.setTile t (s.tile t) := by
  unfold State.unguard
  rw [State.modTile, h]

/-- A tile that is written as it stands reads as before. -/
theorem setTile_self_tile (s : State) (t u : Nat) : (s.setTile t (s.tile t)).tile u = s.tile u := by
  rcases eq_or_ne u t with rfl | hu
  · exact State.tile_setTile _ _ _
  · exact State.tile_setTile_ne _ _ _ _ hu

/-- What a precise trap reports (R293). -/
abbrev State.wordTrap (x : Tile) (e : Eng) (cause : BitVec 8) (aux : DWord) : TrapInfo :=
  ⟨cause, aux, e.code, headAt x e, trapAddr2 x cause, 0, false⟩

theorem trapWord_unguarded {s : State} {t : Nat} {e : Eng} {cause : BitVec 8} {aux : DWord} (h : (s.tile t).ctl.guard = none) :
    s.trapWord t e cause aux = (s.setTile t (s.tile t)).freezeAt t (State.wordTrap (s.tile t) e cause aux) 0 aux := by
  unfold State.trapWord State.freeze
  rw [unguard_none h]

theorem headAt_unguarded {x : Tile} (h : x.ctl.guard = none) : State.headAt x .ctl = x.pctl.pc := by
  rw [State.headAt, h]
  rfl

end Sys2Proof.Machine

namespace Sys2Proof.Proofs
open Sys2Proof.Machine

/-- Settles O51: nothing is listed at reset, so each part reads as its default, whose memories are empty. -/
theorem resetMemory : Obligations.ResetMemory :=
  ⟨⟨rfl, fun _ => ok_tile0, fun _ => ok_die0⟩, rfl, fun _ => ok_tile0.1, fun _ => rfl⟩

/-- Settles O59: behind no GUARD a trap is the freeze of the tile as it stands, whose parts read one by one. -/
theorem trapTaken : Obligations.TrapTaken := by
  intro s t e cause aux hf hg x s' y
  have hself := setTile_self_tile s t
  have hf' : ((s.setTile t (s.tile t)).tile t).stop.frozen = false := by rw [hself]; exact hf
  have hs' : s' = (s.setTile t x).freezeAt t (State.wordTrap x e cause aux) 0 aux := trapWord_unguarded hg
  have hy : y = x.frozenFor (State.wordTrap x e cause aux) s.time := by
    rw [show y = s'.tile t from rfl, hs', freezeAt_tile hf', hself]
    rfl
  obtain ⟨hcause, hzero, hasync, -, heng, haddr⟩ := (State.wordTrap x e cause aux).word0_fields rfl
  obtain ⟨hmem, hcopies, hlinks, hpkg⟩ := freezeAt_rest (i := State.wordTrap x e cause aux) (unit := 0) (loc := aux) hf'
  have hpart (p : Nat) (hp : x.seat.part = some p) := freezeAt_part (i := State.wordTrap x e cause aux) (unit := 0) (loc := aux) hf'
    (p := p) (by rw [hself]; exact hp)
  rw [hy, hs']
  refine ⟨rfl, rfl, ⟨_, rfl, hcause, hzero, hasync, heng, ?_, rfl, rfl, rfl⟩,
    ⟨fun _ => rfl, fun _ => rfl, fun _ => rfl, fun _ => rfl, rfl, fun _ _ => rfl, fun _ => rfl, fun _ => rfl, rfl, rfl⟩,
    ⟨rfl, rfl, rfl, rfl, rfl, rfl, rfl, rfl⟩, fun e' => ?_, rfl, rfl, rfl, fun u hu => ?_, hmem, hcopies, hlinks, hpkg,
    fun p hp hsince hst => ?_, fun p hp hsince hst => ?_, fun p hno => ?_, ?_, fun z r le => z.writeLog_room r le,
    fun z r le => z.writeLog_full r le⟩
  · cases e with
    | ctl => exact haddr.trans (congrArg (BitVec.ofNat 15) (headAt_unguarded hg))
    | _ => exact haddr
  · cases e' <;> rfl
  · rw [freezeAt_tile_ne hf' hu, hself]
  · rw [hpart p hp, if_pos ⟨hsince, .inl hst⟩]
    exact ⟨rfl, rfl, hst⟩
  · rw [hpart p hp, if_pos ⟨hsince, .inr hst⟩]
    exact ⟨rfl, hst⟩
  · by_cases hp : x.seat.part = some p
    · rw [hpart p hp]
      exact if_neg fun ⟨hsince, hst⟩ => hno.elim (absurd hp) fun h => h.elim (absurd · hsince) fun h => hst.elim h.1 h.2
    · exact freezeAt_part_ne hf' (by rw [hself]; exact hp)
  · obtain ⟨le, hlog, hcode, hcls, htime, hphase⟩ := freezeAt_log (i := State.wordTrap x e cause aux) (unit := 0) (loc := aux) hf' rfl
    rw [hself] at hphase
    exact ⟨le, hlog, hcode, hcls, htime, hphase⟩

end Sys2Proof.Proofs
end

section
/-! PROOF. TRAP, BRK and GUARD (O12). -/

namespace Sys2Proof.Machine
variable {s : State} {t d : Nat} {h : Ring} {cause code : BitVec 8}

/-! ### TRAP and BRK on a tile (R135, R183) -/

theorem guardable_iff (w : Word) : guardable w = true ↔ ¬Claims.Unguardable w := by
  have htag : tagOf w = 0#2 ↔ w.toNat / 2 ^ 30 = 0 := by
    rw [tagOf, show (0#2 : BitVec 2) = BitVec.ofNat 2 0 from rfl, fld_eq_iff w 30 2 0 (by decide)]
    have := w.isLt
    omega
  have hsys : (fld w 18 2).toNat = w.toNat / 2 ^ 18 % 4 := Proofs.toNat_fld w 18 2
  simp only [guardable, Claims.Unguardable, Bool.and_eq_true, Bool.not_eq_true', beq_iff_eq, htag, opOf_eq, hsys, List.contains_eq_mem,
    decide_eq_false_iff_not, Bool.and_eq_false_imp, beq_eq_false_iff_ne, not_or, not_and, and_assoc, not_not]
  norm_num

theorem trapReady_iff (x : Tile) (h : Ring) : x.trapReady h = true ↔
    ¬(h.ss = true ∧ 8 ≤ x.pvu.fp.length ∨ h.sp = true ∧ 8 ≤ x.pxp.fs.length
      ∨ (h.sp = true ∨ h.ss = true) ∧ (x.pctl.sigs ≠ [] ∨ x.cyc < x.pctl.done)) := by
  simp only [Tile.trapReady, Bool.and_eq_true, Bool.or_eq_true, Bool.not_eq_true', Bool.or_eq_false_iff, List.isEmpty_iff, decide_eq_true_eq]
  grind

theorem softTrap_waits (hc : s.cur = .eng t .ctl) (ht : (s.tile t).tokens .ctl h = false) :
    softTrap h cause code s = .next (s.unguard t) := by
  unfold softTrap
  simp only [hc, ht, Bool.not_false, if_true]
  split
  · rw [textWord_waits s t .ctl (.cx h) _ ht]
  · rfl

theorem softTrap_passed (hc : s.cur = .eng t .ctl) (ht : (s.tile t).tokens .ctl h = true) (hg : (s.tile t).guardFalse .ctl = true) :
    softTrap h cause code s = .next (s.issued t .ctl h 1 Eff.nil) := by
  unfold softTrap
  simp only [hc, hg, if_true, State.textWord, Form.cx, ht]
  rfl

theorem softTrap_stalls (hc : s.cur = .eng t .ctl) (ht : (s.tile t).tokens .ctl h = true) (hg : (s.tile t).guardFalse .ctl = false)
    (hr : (s.tile t).trapReady h = false) : softTrap h cause code s = .next ((s.unguard t).modTile t fun x => x.takeTrap h) := by
  unfold softTrap
  simp only [hc, ht, hg, hr, Bool.not_true, Bool.not_false, Bool.false_eq_true, if_false, if_true]

/-- A tile whose TRAP or BRK has completed: its tokens are taken, its signals placed. -/
def Tile.pastTrap (x : Tile) (h : Ring) : Tile :=
  (x.issue .ctl { h with sp := false, ss := false } 1 ⟨[], 0, 0, none, 0⟩).placeCtl h (x.ctl.alu.setWidth 32)

/-- What a TRAP or BRK reports (R293). -/
abbrev State.softInfo (x : Tile) (cause code : BitVec 8) : TrapInfo := ⟨cause, 0, 0, State.headAt x .ctl, 0, code, false⟩

theorem softTrap_freezes (hc : s.cur = .eng t .ctl) (ht : (s.tile t).tokens .ctl h = true) (hg : (s.tile t).guardFalse .ctl = false)
    (hr : (s.tile t).trapReady h = true) :
    softTrap h cause code s = .next ((s.modTile t fun x => x.pastTrap h).freezeAt t (State.softInfo (s.tile t) cause code) 0 0) := by
  unfold softTrap
  simp only [hc, ht, hg, hr, Bool.not_true, Bool.false_eq_true, if_false]
  rfl

/-- The completed word has freed the engine's next word and placed its tokens; the tile's stop bits are as they were. -/
theorem pastTrap_spec (x : Tile) (h : Ring) :
    (x.pastTrap h).stop.frozen = x.stop.frozen ∧ (x.pastTrap h).seat = x.seat ∧ (x.pastTrap h).pctl.pc = x.pctl.pc + 1
      ∧ (x.pastTrap h).pctl.took = false
      ∧ (x.pastTrap h).pctl.fp = (if h.wp && !x.pctl.took then x.pctl.fp.drop 1 else x.pctl.fp)
      ∧ (x.pastTrap h).pctl.fs = (if h.ws && !x.pctl.took then x.pctl.fs.drop 1 else x.pctl.fs)
      ∧ (x.pastTrap h).pvu.fp = (if h.ss then x.pvu.fp ++ [x.ctl.alu.setWidth 32] else x.pvu.fp)
      ∧ (x.pastTrap h).pxp.fs = (if h.sp then x.pxp.fs ++ [x.ctl.alu.setWidth 32] else x.pxp.fs) := by
  obtain ⟨wp, ws, sp, ss⟩ := h
  cases sp <;> cases ss <;> exact ⟨rfl, rfl, rfl, rfl, rfl, rfl, rfl, rfl⟩

/-- A GUARD that is undone leaves the engine at the GUARD, and everything else of the tile as it was but for the walk. -/
theorem unguard_tile (s : State) (t : Nat) : (s.unguard t).tile t = { s.tile t with
    ctl := { (s.tile t).ctl with guard := none }
    pctl := { (s.tile t).pctl with pc := State.headAt (s.tile t) .ctl, walk := ((s.unguard t).tile t).pctl.walk } } := by
  unfold State.unguard
  rw [State.tile_modTile]
  cases hg : (s.tile t).ctl.guard with
  | none => simp only [headAt_unguarded hg, ← hg]
  | some g => simp only [State.headAt, hg]; rfl

theorem onlyTile_unguard (s : State) (t : Nat) (f : Tile → Tile) : OnlyTile t s ((s.unguard t).modTile t f) := by
  unfold State.unguard
  rw [State.modTile_modTile]
  exact onlyTile_modTile s t _

/-! ### GUARD (R135, R287) -/

section
variable {neg : Bool} {p : PReg}

/-- By the word that follows it, a GUARD overruns the text, is illegal, or issues with that word. -/
def guardBy (w : Word) (overrun illegal pair : State) : State :=
  if w == eotWord then overrun else if !guardable w then illegal else pair

theorem guardBy_spec (w : Word) (overrun illegal pair : State) :
    (w ≠ 0xFFFFFFFF → ¬Claims.Unguardable w → Host.Outcome.next (guardBy w overrun illegal pair) = (.next pair : Out))
    ∧ (w ≠ 0xFFFFFFFF → Claims.Unguardable w → Host.Outcome.next (guardBy w overrun illegal pair) = (.next illegal : Out))
    ∧ (w = 0xFFFFFFFF → Host.Outcome.next (guardBy w overrun illegal pair) = (.next overrun : Out)) := by
  have hend : (w == eotWord) = true ↔ w = 0xFFFFFFFF := beq_iff_eq
  unfold guardBy
  refine ⟨fun hw hu => ?_, fun hw hu => ?_, fun hw => ?_⟩
  · rw [if_neg (mt hend.1 hw), (guardable_iff w).2 hu]
    rfl
  · rw [if_neg (mt hend.1 hw), Bool.eq_false_iff.2 fun hg => (guardable_iff w).1 hg hu]
    rfl
  · rw [if_pos (hend.2 hw)]

theorem execGuard_tile (hc : s.cur = .eng t .ctl) : execGuard neg p s = .next (guardBy ((s.tile t).store.textAt ((s.tile t).pctl.pc + 1))
    (s.trapWord t .ctl Cause.overrun 0) (s.trapWord t .ctl Cause.illegal (s.word.setWidth 64))
    ((s.modTile t fun x => { x with
      ctl := { x.ctl with guard := some ⟨x.pctl.pc, x.pctl.took || x.ctl.rP p != neg⟩ }
      pctl := { x.pctl with pc := x.pctl.pc + 1, walk := x.pctl.walk + 1 } }).first [.issue (.eng t .ctl)])) := by
  unfold execGuard guardBy
  simp only [hc]
  split <;> [rfl; split <;> rfl]

theorem execGuard_fwc (hc : s.cur = .fwc d) : execGuard neg p s = .next (guardBy (State.fwcText (s.fwc d) ((s.fwc d).pc + 1))
    (s.exception d Cause.overrun 0 (s.fwc d).pc) (s.exception d Cause.illegal (s.word.setWidth 64) (s.fwc d).pc)
    ((s.modFwc d fun f => { f with ctl := { f.ctl with guard := some ⟨f.pc, f.ctl.rP p != neg⟩ }, pc := f.pc + 1 }).first
      [.issue (.fwc d)])) := by
  unfold execGuard guardBy
  simp only [hc]
  split <;> [rfl; split <;> rfl]
end

end Sys2Proof.Machine

namespace Sys2Proof.Proofs
open Sys2Proof.Machine

theorem softwareTraps : Claims.SoftwareTraps := by
  intro i h code cause c s t hi hc
  have hexec : exec i s = softTrap h cause c s := by
    rcases hi with ⟨rfl, rfl, rfl⟩ | ⟨rfl, rfl, rfl⟩ <;> rfl
  rw [hexec]
  refine ⟨fun ht => softTrap_waits hc ht, fun ht hg => softTrap_passed hc ht hg, fun ht hg hfull => ?_, fun ht hg hfull hrun => ?_⟩
  · have hr : (s.tile t).trapReady h = false := Bool.eq_false_iff.2 fun hr => (trapReady_iff _ _).1 hr hfull
    refine ⟨_, softTrap_stalls hc ht hg hr, ?_⟩
    have htile : ((s.unguard t).modTile t fun x => x.takeTrap h).tile t = ((s.unguard t).tile t).takeTrap h := State.tile_modTile _ _ _
    rw [htile, unguard_tile]
    exact ⟨rfl, rfl, rfl, rfl, rfl, rfl, rfl, rfl, onlyTile_unguard s t _, fun _ => rfl, fun _ => rfl, fun _ => rfl, fun _ => rfl, rfl, fun _ _ => rfl,
      fun _ => rfl, fun _ => rfl, rfl, rfl⟩
  · have hr : (s.tile t).trapReady h = true := (trapReady_iff _ _).2 hfull
    obtain ⟨hfrozen, hseat, hpc, htook, hfp, hfs, hvu, hxp⟩ := pastTrap_spec (s.tile t) h
    have hpast : (s.modTile t fun x => x.pastTrap h).tile t = (s.tile t).pastTrap h := State.tile_modTile _ _ _
    have hf : ((s.modTile t fun x => x.pastTrap h).tile t).stop.frozen = false := by rw [hpast, hfrozen, hrun]
    obtain ⟨hcause, -, -, hcode, -, haddr⟩ := (State.softInfo (s.tile t) cause c).word0_fields rfl
    obtain ⟨hmem, -⟩ := freezeAt_rest (i := State.softInfo (s.tile t) cause c) (unit := 0) (loc := 0) hf
    refine ⟨_, (State.softInfo (s.tile t) cause c).report s.time (s.tile t).seat.phase, softTrap_freezes hc ht hg hr, ?_⟩
    rw [freezeAt_tile hf, hpast]
    refine ⟨rfl, congrArg (fun q : Seat => some ((State.softInfo (s.tile t) cause c).report s.time q.phase)) hseat, hcause, hcode, haddr, rfl, rfl, hpc, htook, hfp, hfs, hvu, hxp, fun u hu => ?_, hmem⟩
    rw [freezeAt_tile_ne hf hu, State.tile_modTile_ne _ _ _ _ hu]

theorem firmwareTraps : Claims.FirmwareTraps := by
  intro code s d ⟨hc, hg⟩
  have hsoft (cause c : BitVec 8) : softTrap Ring.none cause c s = .next (s.exception d cause 0 ((s.fwc d).pc + 1)) := by
    unfold softTrap
    simp only [hc, hg]
    rfl
  exact ⟨hsoft _ _, hsoft _ _⟩

theorem guardWord : Claims.GuardWord := by
  intro neg p s
  constructor
  · intro t hc x w
    rw [show exec (.guard neg p) s = execGuard neg p s from rfl, execGuard_tile hc]
    exact guardBy_spec w _ _ _
  · intro d hc f w
    rw [show exec (.guard neg p) s = execGuard neg p s from rfl, execGuard_fwc hc]
    exact guardBy_spec w _ _ _

/-- Settles O12: TRAP and BRK by the guard, the tokens and the room of their signals, ending in the freeze of the tile that they leave; GUARD by
the word that follows it. -/
theorem guardsAndTraps : Obligations.GuardsAndTraps := ⟨softwareTraps, firmwareTraps, guardWord⟩

end Sys2Proof.Proofs
end

section
/-! PROOF. What lands, what a landing leaves alone, and when (O31). -/

namespace Sys2Proof.Machine

/-! ### The CTL's registers (R53, R54) -/

section
variable (c : Ctl)

theorem Ctl.rS_wS (r : SReg) (v : Word) (q : SReg) : (c.wS r v).rS q = if q = r ∧ r ≠ 0#6 then v else c.rS q := by
  by_cases hr : r = 0#6
  · rw [Ctl.wS, if_pos hr, if_neg fun h => h.2 hr]
  · rw [Ctl.wS, if_neg hr]
    unfold Ctl.rS
    by_cases hq : q = r
    · rw [hq, if_neg hr, if_pos ⟨rfl, hr⟩, Map.get_set_same]
    · rw [if_neg (c := q = r ∧ r ≠ 0#6) fun h => hq h.1, Map.get_set_ne _ _ _ _ _ (mt BitVec.eq_of_toNat_eq hq)]

theorem Ctl.rP_wP (p : PReg) (b : Bool) (q : PReg) : (c.wP p b).rP q = if q = p ∧ p ≠ 0#6 then b else c.rP q := by
  by_cases hp : p = 0#6
  · rw [Ctl.wP, if_pos hp, if_neg fun h => h.2 hp]
  · rw [Ctl.wP, if_neg hp]
    unfold Ctl.rP
    by_cases hq : q = p
    · rw [hq, if_neg hp, if_pos ⟨rfl, hp⟩, Map.get_set_same]
    · rw [if_neg (c := q = p ∧ p ≠ 0#6) fun h => hq h.1, Map.get_set_ne _ _ _ _ _ (mt BitVec.eq_of_toNat_eq hq)]

/-- A pair takes the low word in its even register and the high word in the next. -/
theorem Ctl.rS_wD (r : SReg) (d : DWord) (q : SReg) : (c.wD r d).rS q =
    if r = 0#6 then c.rS q else if q = r then d.setWidth 32 else if q.toNat = r.toNat + 1 then (d >>> 32).setWidth 32 else c.rS q := by
  by_cases hr : r = 0#6
  · rw [Ctl.wD, if_pos hr, if_pos hr]
  · have hlow : d.extractLsb' 0 32 = d.setWidth 32 := BitVec.eq_of_toNat_eq (by simp [BitVec.extractLsb'_toNat])
    have hhigh : d.extractLsb' 32 32 = (d >>> 32).setWidth 32 := BitVec.eq_of_toNat_eq (by simp [BitVec.extractLsb'_toNat])
    rw [Ctl.wD, if_neg hr, if_neg hr, hlow, hhigh]
    unfold Ctl.rS
    by_cases hq : q = r
    · rw [if_pos hq, hq, if_neg hr, Map.get_set_ne _ _ _ _ _ (Nat.ne_of_lt (Nat.lt_succ_self _)), Map.get_set_same]
    · rw [if_neg hq]
      by_cases hn : q.toNat = r.toNat + 1
      · have hq0 : q ≠ 0#6 := by rintro rfl; exact absurd hn (by simp)
        rw [if_pos hn, if_neg hq0, hn, Map.get_set_same]
      · rw [if_neg hn, Map.get_set_ne _ _ _ _ _ hn, Map.get_set_ne _ _ _ _ _ (mt BitVec.eq_of_toNat_eq hq)]

theorem Ctl.rT_wT (k : TReg) (g : Target) (q : TReg) : (c.wT k g).rT q = if q = k then g else c.rT q := by
  unfold Ctl.rT Ctl.wT
  by_cases hq : q = k
  · rw [if_pos hq, hq, Map.get_put_same]
  · rw [if_neg hq, Map.get_put_ne _ _ _ _ _ (mt BitVec.eq_of_toNat_eq hq)]

theorem Ctl.rL_wL (k : BitVec 3) (l : Level) (q : BitVec 3) : (c.wL k l).rL q = if q = k then l else c.rL q := by
  unfold Ctl.rL Ctl.wL
  by_cases hq : q = k
  · rw [if_pos hq, hq, Map.get_put_same]
  · rw [if_neg hq, Map.get_put_ne _ _ _ _ _ (mt BitVec.eq_of_toNat_eq hq)]

/-- The landings that do not write a scalar register. -/
theorem Ctl.rS_land {l : Land} {q : SReg} (hs : ∀ v, l ≠ .sreg q v) (hp : ∀ r v, l ≠ .pair r v) : (c.land l).rS q = c.rS q := by
  cases l with
  | sreg r v => exact (c.rS_wS r v q).trans (if_neg fun h => hs v (by rw [h.1]))
  | pair r v => exact absurd rfl (hp r v)
  | pred p b =>
    rw [Ctl.land, Ctl.wP]
    split <;> rfl
  | _ => rfl
end

/-! ### Bytes (R73, R191) -/

theorem Mem.get1_writeRuns_outside (m : Mem) {a : Nat} : ∀ {rs : List (Nat × List Byte)}, (∀ q ∈ rs, a < q.1 ∨ q.1 + q.2.length ≤ a) →
    Mem.get1 (Mem.writeRuns m rs) a = Mem.get1 m a := by
  intro rs h
  refine List.foldlRecOn (motive := fun x => Mem.get1 x a = Mem.get1 m a) rs _ rfl fun x hx q hq => ?_
  rw [Mem.get1_write, if_neg (by have := h q hq; omega), hx]

theorem Mem.get1_merge_outside (m : Mem) {a b : Nat} {vs : List (Byte × Byte)} (h : a < b ∨ b + vs.length ≤ a) :
    Mem.get1 (Mem.merge m b vs) a = Mem.get1 m a := by
  have hlen : (List.zipWith mergeByte (Mem.read m b vs.length) vs).length ≤ vs.length := by
    rw [List.length_zipWith]
    exact Nat.min_le_right _ _
  rw [Mem.merge, Mem.get1_write, if_neg (by omega)]

theorem Mem.get1_mergeRuns_outside (m : Mem) {a : Nat} {rs : List (Nat × List (Byte × Byte))} (h : ∀ q ∈ rs, a < q.1 ∨ q.1 + q.2.length ≤ a) :
    Mem.get1 (rs.foldl (fun x r => Mem.merge x r.1 r.2) m) a = Mem.get1 m a :=
  List.foldlRecOn (motive := fun x => Mem.get1 x a = Mem.get1 m a) rs _ rfl fun x hx q hq => (Mem.get1_merge_outside x (h q hq)).trans hx

/-- A space that is written reads as written where it has a memory, the others as before. -/
theorem Store.get1_set (m : Store) {sp sp' : Space} {k : Mem} {a : Nat} (h : sp' ≠ sp ∨ Mem.get1 k a = Mem.get1 (m.get sp) a) :
    Mem.get1 ((m.set sp k).get sp') a = Mem.get1 (m.get sp') a := by
  by_cases hsp : sp' = sp
  · have hk := h.resolve_left (absurd hsp)
    subst hsp
    cases sp'
    case sram => rfl
    all_goals exact hk
  · revert hsp
    cases sp <;> cases sp' <;> simp [Store.get, Store.set]

theorem Store.get1_writeRuns_outside (m : Store) {sp sp' : Space} {rs : List (Nat × List Byte)} {a : Nat}
    (h : sp' ≠ sp ∨ ∀ q ∈ rs, a < q.1 ∨ q.1 + q.2.length ≤ a) : Mem.get1 ((m.writeRuns sp rs).get sp') a = Mem.get1 (m.get sp') a :=
  (by cases sp' <;> rfl : Mem.get1 ((m.writeRuns sp rs).get sp') a = Mem.get1 ((m.set sp (Mem.writeRuns (m.get sp) rs)).get sp') a).trans
    (m.get1_set (h.imp_right (Mem.get1_writeRuns_outside _)))

theorem Store.get1_mergeRuns_outside (m : Store) {sp sp' : Space} {rs : List (Nat × List (Byte × Byte))} {a : Nat}
    (h : sp' ≠ sp ∨ ∀ q ∈ rs, a < q.1 ∨ q.1 + q.2.length ≤ a) : Mem.get1 ((m.mergeRuns sp rs).get sp') a = Mem.get1 (m.get sp') a :=
  (by cases sp' <;> rfl : Mem.get1 ((m.mergeRuns sp rs).get sp') a =
    Mem.get1 ((m.set sp (rs.foldl (fun x r => Mem.merge x r.1 r.2) (m.get sp))).get sp') a).trans
    (m.get1_set (h.imp_right (Mem.get1_mergeRuns_outside _)))

/-! ### One landing on a tile -/

/-- What no landing touches: the other units, positions, tokens, the stop bits, what is pending, views, the texts. -/
structure LandFrame (x y : Tile) : Prop where
  units : SameUnits x y
  pos : ∀ e, y.pos e = x.pos e
  cyc : y.cyc = x.cyc
  sync : y.sync = x.sync
  stop : y.stop = x.stop
  pend : y.pend = x.pend
  vw : y.vw = x.vw
  text : ∀ a, y.store.textAt a = x.store.textAt a
  seq : ∀ a, y.store.seqAt a = x.store.seqAt a

theorem Store.set_texts (m : Store) (sp : Space) (k : Mem) (ms : List EccMark) :
    (∀ a, Store.textAt { m.set sp k with ecc := ms } a = m.textAt a) ∧ ∀ a, Store.seqAt { m.set sp k with ecc := ms } a = m.seqAt a := by
  cases sp <;> exact ⟨fun _ => rfl, fun _ => rfl⟩

theorem land_frame (x : Tile) (l : Land) : LandFrame x (x.land l) := by
  cases l with
  | bytes sp rs =>
    obtain ⟨htext, hseq⟩ := x.store.set_texts sp (Mem.writeRuns (x.store.get sp) rs) (clearMarks x.store.ecc sp rs)
    exact ⟨⟨rfl, rfl, rfl, rfl, rfl, rfl, rfl, rfl⟩, fun e => by cases e <;> rfl, rfl, rfl, rfl, rfl, rfl, htext, hseq⟩
  | part sp rs =>
    obtain ⟨htext, hseq⟩ := x.store.set_texts sp (rs.foldl (fun x r => Mem.merge x r.1 r.2) (x.store.get sp))
      (clearMarks x.store.ecc sp ((maskedRuns rs).map fun r => (r.1, [0#8])))
    exact ⟨⟨rfl, rfl, rfl, rfl, rfl, rfl, rfl, rfl⟩, fun e => by cases e <;> rfl, rfl, rfl, rfl, rfl, rfl, htext, hseq⟩
  | _ => exact ⟨⟨rfl, rfl, rfl, rfl, rfl, rfl, rfl, rfl⟩, fun e => by cases e <;> rfl, rfl, rfl, rfl, rfl, rfl, fun _ => rfl, fun _ => rfl⟩

/-- A landing reads and writes the CTL, the VU's registers and the memories alone. -/
theorem land_congr {x y : Tile} (hc : y.ctl = x.ctl) (hv : y.vu = x.vu) (hm : y.store = x.store) (l : Land) :
    (y.land l).ctl = (x.land l).ctl ∧ (y.land l).vu = (x.land l).vu ∧ (y.land l).store = (x.land l).store := by
  cases l <;> simp only [Tile.land, hc, hv, hm, and_self]

theorem land_rS (x : Tile) {l : Land} {q : SReg} (hs : ∀ v, l ≠ .sreg q v) (hp : ∀ r v, l ≠ .pair r v)
    (ha : ∀ op w a rd b c, l ≠ .atomic op w a rd b c) : (x.land l).ctl.rS q = x.ctl.rS q := by
  have hctl := x.ctl.rS_land hs hp
  cases l with
  | atomic op w a rd b c => exact absurd rfl (ha op w a rd b c)
  | _ => exact hctl

/-! ### The records due (R73) -/

theorem mem_insertPend {p q : Pend} {l : List Pend} : p ∈ insertPend q l ↔ p = q ∨ p ∈ l := by
  induction l with
  | nil => simp [insertPend]
  | cons r l ih =>
    unfold insertPend
    split
    · rw [List.mem_cons, ih, List.mem_cons, or_left_comm]
    · rw [List.mem_cons]

/-- The landing order is an order of the records. -/
theorem mem_landingOrder {p : Pend} {ps : List Pend} : p ∈ landingOrder ps ↔ p ∈ ps := by
  have hfold (acc : List Pend) : p ∈ ps.foldl (fun acc p => insertPend p acc) acc ↔ p ∈ ps ∨ p ∈ acc := by
    induction ps generalizing acc with
    | nil => simp
    | cons q ps ih => rw [List.foldl_cons, ih, mem_insertPend, List.mem_cons, or_left_comm, or_assoc]
  exact (hfold []).trans (by simp)

theorem landingOrder_isEmpty {ps : List Pend} : (landingOrder ps).isEmpty = true ↔ ps = [] := by
  rw [List.isEmpty_iff, List.eq_nil_iff_forall_not_mem, List.eq_nil_iff_forall_not_mem]
  simp only [mem_landingOrder]

/-- The records of a tile that are due in its present cycle. -/
abbrev Tile.dueNow (x : Tile) : List Pend := x.pend.filter fun p => decide (p.due ≤ x.cyc)

/-- A tile that is about to land the records due: they are no longer pending, and the signals of the CTL have their payloads. -/
def Tile.landing (x : Tile) (due : List Pend) : Tile :=
  { x with
    pend := x.pend.filter fun p => !decide (p.due ≤ x.cyc)
    pctl := { x.pctl with sigs := x.pctl.sigs.map fun g =>
      if g.own ≤ x.cyc && g.pay.isNone then { g with pay := some ((aluAt x due g.pos).setWidth 32) } else g }
    tda := { x.tda with just := regLandings due, justAt := x.cyc } }

/-- A tile on which records have landed in a cycle that wiped errors. -/
def Tile.landed (x : Tile) (due : List Pend) : Tile :=
  let y := due.foldl (fun x p => x.landPend p) (x.landing due)
  { y with store := { y.store with wiped := wipedMarks x.store.ecc y.store.ecc, wipedAt := x.cyc } }

theorem landDue_none {s : State} {t : Nat} (h : (s.tile t).dueNow = []) : s.landDue t = s := by
  unfold State.landDue
  dsimp only
  rw [if_pos (landingOrder_isEmpty.2 h)]

theorem landDue_quiet {s : State} {t : Nat} (hi : (s.die (t / 64)).inj = []) (h : (s.tile t).dueNow ≠ []) :
    s.landDue t = s.setTile t ((s.tile t).landed (landingOrder (s.tile t).dueNow)) := by
  unfold State.landDue
  dsimp only
  rw [if_neg (mt landingOrder_isEmpty.1 h)]
  exact fireWrites_quiet (s := s.setTile t _) hi _

/-- What a list of landings leaves. -/
theorem foldl_landPend_keeps (due : List Pend) (x : Tile) : (due.foldl (fun x p => x.landPend p) x).pend = x.pend
    ∧ (due.foldl (fun x p => x.landPend p) x).cyc = x.cyc :=
  List.foldlRecOn (motive := fun y : Tile => y.pend = x.pend ∧ y.cyc = x.cyc) due _ ⟨rfl, rfl⟩ fun y ⟨hp, hc⟩ p _ =>
    ⟨(land_frame y p.land).pend.trans hp, (land_frame y p.land).cyc.trans hc⟩

theorem foldl_landPend_rS {due : List Pend} {x : Tile} {r : SReg} (h : ∀ p ∈ due, (∀ v, p.land ≠ .sreg r v) ∧ (∀ q v, p.land ≠ .pair q v)
      ∧ ∀ op w a rd b c, p.land ≠ .atomic op w a rd b c) : (due.foldl (fun x p => x.landPend p) x).ctl.rS r = x.ctl.rS r :=
  List.foldlRecOn (motive := fun y : Tile => y.ctl.rS r = x.ctl.rS r) due _ rfl fun y hy p hp => by
    obtain ⟨hs, hd, ha⟩ := h p hp
    exact (land_rS y hs hd ha).trans hy

end Sys2Proof.Machine

namespace Sys2Proof.Proofs
open Sys2Proof.Machine

theorem landings : Claims.Landings := by
  intro x r p k lv v d b a full l m ms f
  refine ⟨Ctl.rS_wS _ r v, fun _ => Ctl.rS_wD _ r d, Ctl.rP_wP _ p b, Ctl.rT_wT _ k _, Ctl.rL_wL _ lv l, rfl, fun hm => ?_, fun hm => ⟨?_, ?_⟩,
    rfl, rfl, rfl, rfl, rfl⟩
  · exact congrArg (m :: ·) hm
  · exact congrArg (List.drop 1) hm
  · exact congrArg (landMask · .inv) hm

theorem landingFrame : Claims.LandingFrame := by
  intro x l
  obtain ⟨hunits, hpos, -, hsync, hstop, hpend, hvw, htext, hseq⟩ := land_frame x l
  refine ⟨hunits, hsync, hstop, hpend, hpos, hvw, htext, hseq, fun sp rs hl => ?_, fun sp rs hl => ?_, fun hb hp ha => ?_⟩
  · subst hl
    exact ⟨rfl, rfl, fun sp' a => x.store.get1_writeRuns_outside⟩
  · subst hl
    exact ⟨rfl, rfl, fun sp' a => x.store.get1_mergeRuns_outside⟩
  · cases l with
    | bytes sp rs => exact absurd rfl (hb sp rs)
    | part sp rs => exact absurd rfl (hp sp rs)
    | atomic op w a rd b c => exact absurd rfl (ha op w a rd b c)
    | _ => rfl

theorem landDueOnly : Claims.LandDueOnly := by
  intro s t x
  have hexec : exec (.resultLanding t) s = .next (s.landDue t) := rfl
  have hlater (p : Pend) : (!decide (p.due ≤ x.cyc)) = decide (x.cyc < p.due) := by rw [← decide_not, decide_eq_decide, Nat.not_le]
  rw [hexec]
  refine ⟨fun h => ?_, fun hi => ?_⟩
  · rw [landDue_none (List.filter_eq_nil_iff.2 fun p hp => by simpa using h p hp)]
  by_cases hdue : x.dueNow = []
  · have hnone (p : Pend) (hp : p ∈ x.pend) : x.cyc < p.due := by simpa using List.filter_eq_nil_iff.1 hdue p hp
    refine ⟨s, by rw [landDue_none hdue], ⟨fun _ _ => rfl, rfl, rfl, rfl, rfl, rfl, rfl, rfl, rfl, rfl⟩, ?_, rfl, fun _ _ => rfl, fun p hp => ?_⟩
    · exact (List.filter_eq_self.2 fun p hp => decide_eq_true (hnone p hp)).symm
    · exact absurd (hdue.symm.trans hp) (by simp)
  · refine ⟨_, congrArg Host.Outcome.next (landDue_quiet hi hdue), onlyTile_modTile s t fun x => x.landed (landingOrder x.dueNow), ?_⟩
    rw [State.tile_setTile]
    obtain ⟨hpend, hcyc⟩ := foldl_landPend_keeps (landingOrder x.dueNow) (x.landing (landingOrder x.dueNow))
    refine ⟨?_, hcyc, fun r h => ?_, fun p hp => ?_⟩
    · exact hpend.trans (congrArg (x.pend.filter ·) (funext hlater))
    · exact foldl_landPend_rS fun p hp => by
        obtain ⟨hmem, hd⟩ := List.mem_filter.1 (mem_landingOrder.1 hp)
        exact h p hmem (of_decide_eq_true hd)
    · obtain ⟨hc, hv, hm⟩ := land_congr (x := x) (y := x.landing [p]) rfl rfl rfl p.land
      have hone : landingOrder x.dueNow = [p] := congrArg landingOrder hp
      rw [hone]
      exact ⟨hc, hv, _, congrArg (fun m : Store => ({ m with wiped := wipedMarks x.store.ecc m.ecc, wipedAt := x.cyc } : Store)) hm⟩

/-- Settles O31: each landing by its kind; a landing's frame; the records due land in their order, and each keeps the rest. -/
theorem resultsLand : Obligations.ResultsLand := ⟨landings, landingFrame, landDueOnly⟩

end Sys2Proof.Proofs
end

section
/-! PROOF. The commands of the array's queue, and the races that enter it (O21). -/

namespace Sys2Proof.Machine
open Claims (Clean QueueRoom accFits pushed)
variable {s : State} {t : Nat} {h : Ring} {sem : SemF}

/-! ### What any engine reads of operands that can be read (R64, R77, R375) -/

theorem sources_intact {named : List Opnd} (hc : Clean s t named) (e : Eng) (srcs : List (Opnd × Nat)) :
    s.sources t e named none srcs = .ok (s, srcs.map fun o => (s.tile t).opnd o.1 o.2) := by
  obtain ⟨hshape, hpbm, hecc, hw, hi⟩ := hc
  have hdebug : debugHit (s.tile t) srcs = none := by
    rw [debugHit, hpbm]
    rfl
  unfold State.sources
  simp only [hshape, hdebug, touchOpnds_intact hecc hw hi, Bool.false_eq_true, if_false]

theorem sources_shapeBad {named : List Opnd} (hb : shapeBad (s.tile t) named = true) (e : Eng) (pre : Option Act) (srcs : List (Opnd × Nat)) :
    s.sources t e named pre srcs = .error (.trap Cause.shape 0) := by
  unfold State.sources
  simp only [hb, if_true]

/-! ### A queue command, by the room in its queue and by its checks (R218) -/

section
variable {mk : Nat → Tile → State → Except Act (State × TOp)}

theorem tda_full_iff (x : Tile) : x.tda.full = true ↔ ¬QueueRoom x := by
  rw [Tda.full, decide_eq_true_eq, QueueRoom, Nat.not_lt]

theorem tdaQueue_waits (hr : Ready s t .tda h .c) (hq : ¬QueueRoom (s.tile t)) : tdaQueue h sem mk s = .next (s.unguard t) :=
  engWord_wait (w := .mk h 2 .cx 1 1 true) ⟨hr.1, hr.2.1, rfl, hr.2.2.2⟩ (by dsimp only; rw [if_pos ((tda_full_iff _).2 hq)])

/-- What the word does once its queue has room in a compute phase: it traps, or its command is pushed. -/
def queueAct (t : Nat) (sem : SemF) (x : Tile) : Except Act (State × TOp) → Act
  | .error e => e
  | .ok (s, op) => .go (s.modTile t fun y => { y with tda := { y.tda with
        nextId := x.tda.nextId + 1
        queue := y.tda.queue ++ [⟨x.tda.nextId, x.ptda.pc, x.ptda.walk, x.cyc, op, sem⟩] } })
      ⟨[], 1, 1, none, x.tda.nextId⟩

variable (hr : Ready s t .tda h .c) (hq : QueueRoom (s.tile t))
include hr hq

theorem tdaQueue_acts : tdaQueue h sem mk s =
    engWord .tda (.mk h 2 .cx 1 1 true) (fun t s => queueAct t sem (s.tile t) (mk t (s.tile t) s)) s := by
  obtain ⟨hc, ht, hl, hg⟩ := hr
  have hodd : ¬(s.tile t).seat.phase % 2 = 1 := by
    have : (s.tile t).seat.phase % 2 = 0 := by simpa [Legal.ok] using hl
    omega
  unfold tdaQueue
  rw [engWord_ready s t .tda _ _ ⟨hc, ht, rfl, hg⟩, engWord_ready s t .tda _ _ ⟨hc, ht, rfl, hg⟩]
  dsimp only
  rw [if_neg (mt (tda_full_iff _).1 (not_not.2 hq)), if_neg hodd]
  cases mk t (s.tile t) s <;> rfl

theorem tdaQueue_traps {cause : BitVec 8} {aux : DWord} (hm : mk t (s.tile t) s = .error (.trap cause aux)) :
    tdaQueue h sem mk s = .next (s.trapWord t .tda cause aux) := by
  rw [tdaQueue_acts hr hq]
  exact engWord_trap (w := .mk h 2 .cx 1 1 true) ⟨hr.1, hr.2.1, rfl, hr.2.2.2⟩ (by rw [hm]; rfl)

/-- A command enters the queue; its word may have changed other registers of the array. -/
theorem tdaQueue_pushes {s' : State} {d : Tda} {op : TOp} (hm : mk t (s.tile t) s = .ok (s', op)) (hs : ∀ y, s'.setTile t y = s.setTile t y)
    (ht : s'.tile t = { s.tile t with tda := d }) (hd : d.queue = (s.tile t).tda.queue) :
    tdaQueue h sem mk s = .next (pushed s t h d op sem) := by
  rw [tdaQueue_acts hr hq]
  refine engWord_go (w := .mk h 2 .cx 1 1 true) ⟨hr.1, hr.2.1, rfl, hr.2.2.2⟩ ?_
  rw [hm, queueAct, State.modTile, hs, ht, hd]

theorem tdaQueue_pushed {op : TOp} (hm : mk t (s.tile t) s = .ok (s, op)) : tdaQueue h sem mk s = .next (pushed s t h (s.tile t).tda op sem) :=
  tdaQueue_pushes hr hq hm (fun _ => rfl) rfl rfl
end

/-! ### The checks of an accumulator and of the push view (R64, R217, R225, R227) -/

section
variable {x : Tile} {v i : BitVec 3} {e m n : Nat} {cs : Bool}

theorem accumulator_fits (h : accFits (x.view v) i e m n cs) :
    accumulator x v i e m n cs = some ((x.view v).base + i.toNat * (x.view v).istep, (x.view v).pitch) := by
  obtain ⟨hp, he⟩ := h
  exact if_neg (by rw [Bool.or_eq_true, decide_eq_true_eq, decide_eq_true_eq, not_or, Nat.not_lt, Nat.not_lt]; exact ⟨hp, he⟩)

theorem accumulator_past (h : ¬accFits (x.view v) i e m n cs) : accumulator x v i e m n cs = none := by
  rw [accFits, not_and_or, Nat.not_le, Nat.not_le] at h
  exact if_pos (by rw [Bool.or_eq_true, decide_eq_true_eq, decide_eq_true_eq]; exact h)

theorem viewsAgree_iff (x : Tile) (n : Nat) (f : TFmt) (wide : Bool) :
    viewsAgree x (ceilDiv n 64) f wide = true ↔ ∀ k, 64 * k < n → x.tda.view.get none k = some ⟨f, wide⟩ := by
  have hk (k : Nat) : k < ceilDiv n 64 ↔ 64 * k < n := by rw [ceilDiv]; omega
  simp only [viewsAgree, List.all_eq_true, List.mem_range, beq_iff_eq, hk]

/-- The element size of a view by its type (R64, R227). -/
theorem elemSize_typed {w : View} {wide : Bool} (hs : w.shape = 2) (ht : w.etype = if wide then 0xE else 0) {f32 x48 : Bool}
    (ha : (if wide then x48 else f32) = true) : elemSize w f32 x48 = some (if wide then 8 else 4) := by
  unfold elemSize
  cases wide <;> simp_all

theorem elemSize_other {w : View} {f32 x48 : Bool} (h : w.shape ≠ 2 ∨ (f32 = true → w.etype ≠ 0) ∧ (x48 = true → w.etype ≠ 0xE)) :
    elemSize w f32 x48 = none := by
  unfold elemSize
  by_cases hs : w.shape = 2#2
  · obtain ⟨h0, hE⟩ := h.resolve_left (absurd hs)
    cases f32 <;> cases x48 <;> simp_all
  · rw [if_pos hs]
end

/-! ### TMAC, TMACX and TZERO (R218, R225, R227) -/

section
variable {v i : BitVec 3} {msz : MSize} {nsz : BitVec 6} {f : TFmt} {cs wide : Bool} (hr : Ready s t .tda h .c) (hq : QueueRoom (s.tile t))
include hr hq

theorem pushMac_pushes (hs : ((s.tile t).view v).shape = 2) (ht : ((s.tile t).view v).etype = if wide then 0xE else 0)
    (hfit : accFits ((s.tile t).view v) i (if wide then 8 else 4) (MSize.rows msz) (colsOf nsz) cs)
    (hv : viewsAgree (s.tile t) (ceilDiv (colsOf nsz) 64) f wide = true) : pushMac h v i msz nsz f cs wide sem s = .next (pushed s t h (s.tile t).tda
      (.mac wide (((s.tile t).view v).base + i.toNat * ((s.tile t).view v).istep) ((s.tile t).view v).pitch (MSize.rows msz) (colsOf nsz) f cs) sem) := by
  refine tdaQueue_pushed hr hq ?_
  dsimp only
  rw [elemSize_typed hs ht (by cases wide <;> rfl)]
  dsimp only
  rw [accumulator_fits hfit]
  exact if_pos hv

theorem pushMac_traps (hbad : ((s.tile t).view v).shape ≠ 2 ∨ ((s.tile t).view v).etype ≠ (if wide then 0xE else 0)
      ∨ ¬accFits ((s.tile t).view v) i (if wide then 8 else 4) (MSize.rows msz) (colsOf nsz) cs
      ∨ ¬viewsAgree (s.tile t) (ceilDiv (colsOf nsz) 64) f wide = true) :
    pushMac h v i msz nsz f cs wide sem s = .next (s.trapWord t .tda Cause.shape 0) := by
  refine tdaQueue_traps hr hq ?_
  dsimp only
  by_cases hst : ((s.tile t).view v).shape = 2 ∧ ((s.tile t).view v).etype = (if wide then 0xE else 0)
  · rw [elemSize_typed hst.1 hst.2 (by cases wide <;> rfl)]
    dsimp only
    by_cases hfit : accFits ((s.tile t).view v) i (if wide then 8 else 4) (MSize.rows msz) (colsOf nsz) cs
    · rw [accumulator_fits hfit]
      exact if_neg (((hbad.resolve_left (absurd hst.1)).resolve_left (absurd hst.2)).resolve_left (absurd hfit))
    · rw [accumulator_past hfit]
      rfl
  · rw [elemSize_other ?_]
    · rfl
    · rw [not_and_or] at hst
      refine hst.imp_right fun ht => ?_
      cases wide
      · exact ⟨fun _ => ht, nofun⟩
      · exact ⟨nofun, fun _ => ht⟩

theorem execTzero_pushes (hs : ((s.tile t).view v).shape = 2) (ht : ((s.tile t).view v).etype = if wide then 0xE else 0)
    (hfit : accFits ((s.tile t).view v) i (if wide then 8 else 4) (MSize.rows msz) (colsOf nsz) cs) :
    execTzero h v i msz nsz cs sem s = .next (pushed s t h (s.tile t).tda (.zero (((s.tile t).view v).base + i.toNat * ((s.tile t).view v).istep)
      ((s.tile t).view v).pitch (if wide then 8 else 4) (MSize.rows msz) (colsOf nsz) cs) sem) := by
  refine tdaQueue_pushed hr hq ?_
  rw [elemSize_typed hs ht (by cases wide <;> rfl)]
  dsimp only
  rw [accumulator_fits hfit]

theorem execTzero_traps (hbad : ((s.tile t).view v).shape ≠ 2 ∨ ((s.tile t).view v).etype ≠ 0 ∧ ((s.tile t).view v).etype ≠ 0xE) :
    execTzero h v i msz nsz cs sem s = .next (s.trapWord t .tda Cause.shape 0) := by
  refine tdaQueue_traps hr hq ?_
  rw [elemSize_other (hbad.imp_right fun ⟨h0, hE⟩ => ⟨fun _ => h0, fun _ => hE⟩)]
  rfl
end

/-! ### The push view of TLDB (R217, R226) -/

/-- Some planes of a map hold one value. -/
theorem foldl_set_get {α : Type} [DecidableEq α] (d v : α) (slot : Nat) (m : Map α) (k : Nat) : ∀ n,
    Map.get ((List.range n).foldl (fun m j => m.set d (slot + j) v) m) d k = if slot ≤ k ∧ k < slot + n then v else m.get d k
  | 0 => by rw [if_neg (by omega)]; rfl
  | n + 1 => by
    rw [List.range_succ, List.foldl_concat]
    by_cases hk : k = slot + n
    · rw [hk, Map.get_set_same, if_pos (by omega)]
    · rw [Map.get_set_ne _ _ _ _ _ hk, foldl_set_get d v slot m k n]
      exact if_congr (by omega) rfl rfl

/-- The push view after a load of planes. -/
def loadedView (m : Map (Option PlaneFmt)) (slot n : Nat) (p : PlaneFmt) : Map (Option PlaneFmt) :=
  (List.range n).foldl (fun m k => m.set none (slot + k) (some p)) m

theorem execTldb_pushes {slot cnt : BitVec 4} {wide : Bool} {f : TFmt} (hr : Ready s t .tda h .c) (hq : QueueRoom (s.tile t)) :
    execTldb h slot cnt wide f sem s = .next (pushed s t h
      { (s.tile t).tda with view := loadedView (s.tile t).tda.view slot.toNat (cnt.toNat + 1) ⟨f, wide⟩ }
      (.ldb slot.toNat (cnt.toNat + 1) wide f) sem) :=
  tdaQueue_pushes hr hq rfl (fun _ => State.setTile_setTile ..) (State.tile_modTile ..) rfl

/-! ### The races (R218, R234, R235) -/

section
variable {d a : Opnd} {rows : BitVec 4} {kt : KeyType} {q : Bool} {op : RaceOp} (hr : Ready s t .tda h .c) (hq : QueueRoom (s.tile t))
include hr hq

/-- The lanes of the rows that a race delivers, from its keys. -/
abbrev raceLanes (op : RaceOp) (kt : KeyType) (n keys : Nat) : List (List Nat) :=
  (List.range n).map fun y => raceRow op kt y ((List.range 64).map fun k => el 32 keys (64 * y + k))

theorem pushRace_pushes (hc : Clean s t [d, a]) : pushRace h d a rows kt q op sem s = .next (pushed s t h (s.tile t).tda
    (.race ((resultLands (s.tile t) 0 d .acc (packW 32 (raceLanes op kt (rows.toNat + 1) ((s.tile t).opnd a (256 * (rows.toNat + 1)))).flatten)
        (2 ^ (512 * (rows.toNat + 1)) - 1)).map (·.2))
      (if q then (raceLanes op kt (rows.toNat + 1) ((s.tile t).opnd a (256 * (rows.toNat + 1)))).map fun l => BitVec.ofNat 32 (l.headD 0) else [])
      (raceLat op kt - 24)) sem) := by
  refine tdaQueue_pushed hr hq ?_
  dsimp only
  rw [sources_intact hc]
  rfl

theorem pushRace_traps (hb : shapeBad (s.tile t) [d, a] = true) :
    pushRace h d a rows kt q op sem s = .next (s.trapWord t .tda Cause.shape 0) := by
  refine tdaQueue_traps hr hq ?_
  dsimp only
  rw [sources_shapeBad hb]
end

theorem exec_race {j : Instr} {d a : Opnd} {rows : BitVec 4} {kt : KeyType} {q : Bool} {op : RaceOp}
    (hj : Claims.raceOf j = some (h, d, a, rows, kt, q, op, sem)) : exec j s = pushRace h d a rows kt q op sem s := by
  cases j
  case raceMin | raceMax | raceArgmin | raceArgmax | raceSort | raceTopk => cases hj; rfl
  all_goals cases hj

end Sys2Proof.Machine

namespace Sys2Proof.Proofs
open Sys2Proof.Machine
open Claims (Clean QueueRoom accFits pushed)

theorem arrayCommandsRule : Claims.ArrayCommandsRule := by
  intro h v i msz nsz f cs sem slot cnt wide s t hr x w m n base mac ty e views
  have hmac : exec mac s = pushMac h v i msz nsz f cs wide sem s := by
    show exec (if wide then _ else _) s = _
    cases wide <;> rfl
  have hzero : exec (.tzero h v i msz nsz cs sem) s = execTzero h v i msz nsz cs sem s := rfl
  have hldb : exec (.tldb h slot cnt wide f sem) s = execTldb h slot cnt wide f sem s := rfl
  have hviews : viewsAgree x (ceilDiv (colsOf nsz) 64) f wide = true ↔ views := viewsAgree_iff x _ f wide
  rw [hmac, hzero, hldb]
  refine ⟨fun hq j hj => ?_, fun hq hs ht hfit hv => pushMac_pushes hr hq hs ht hfit (hviews.2 hv), fun hq hbad => ?_,
    fun hq hs ht hfit => execTzero_pushes hr hq hs ht hfit, fun hq => execTzero_traps hr hq, fun hq => ⟨_, execTldb_pushes hr hq, fun k => ?_⟩⟩
  · simp only [List.mem_cons, List.not_mem_nil, or_false] at hj
    rcases hj with rfl | rfl | rfl
    · rw [hmac]
      exact tdaQueue_waits hr hq
    · exact hldb.trans (tdaQueue_waits hr hq)
    · exact hzero.trans (tdaQueue_waits hr hq)
  · exact pushMac_traps hr hq (hbad.imp_right fun h => h.imp_right fun h => h.imp_right (mt hviews.1))
  · rw [loadedView, foldl_set_get]
    exact if_congr (by omega) rfl rfl

theorem raceCommands : Claims.RaceCommands := by
  intro j h d a rows kt q op sem s t hj hr x n keys out
  rw [exec_race hj]
  exact ⟨fun hq hc => pushRace_pushes hr hq hc, fun hq => tdaQueue_waits hr hq, fun hq hb => pushRace_traps hr hq hb⟩

/-- Settles O21: each word is a command of the queue whose checks answer the trap or the command that is pushed. -/
theorem arrayCommands : Obligations.ArrayCommands := ⟨arrayCommandsRule, raceCommands⟩

end Sys2Proof.Proofs
end


section
/-! PROOF. The words of the vector unit with a register result: they issue, or trap (O17). -/

namespace Sys2Proof.Machine
open Claims (Clean VuRow vuRow)

section
variable {s : State} {t : Nat} {h : Ring}

/-- A word of R187's table is its row. -/
theorem exec_vuRow {i : Instr} {r : VuRow} (hi : vuRow i = some r) (s : State) :
    exec i s = vuOp r.h r.lat r.latch r.d r.srcs r.res s := by
  cases i
  case vadd | vsub | vmul | vfma | vfms | vmin | vmax | vabs | vneg | vand | vor | vxor | vnot | vshl | vshr | vsar | vcmp | vsel
    | vmov | vbcs | vcvt | vdqmx | vjoin6 | vsplit6P4 | vsplit6P2 | vrcpa | vrsqa | vrcpr | vrsqr | vexp2 | vlog2 | vrotr | vrotc
    | vbcr | vbcc | vperm | vtrn | vredr | vredc | vscanr | vscanc => cases hi; rfl
  all_goals cases hi

/-- A third source in register space costs a cycle (R69, R186). -/
theorem vuOcc_map_fst (srcs : List (Opnd × Nat)) : vuOcc (srcs.map (·.1)) = if 3 ≤ (srcs.filter fun o => match o.1 with
    | .main _ _ => true
    | _ => false).length then 5 else 4 := by
  unfold vuOcc
  rw [List.filter_map, List.length_map]
  rfl

theorem vuOp_go {lat : Nat} {l : Latch} {d : Opnd} {srcs : List (Opnd × Nat)} {f : Tile → List Nat → VRes} (hr : Ready s t .vu h .c)
    (hc : Clean s t (d :: srcs.map (·.1))) :
    let v := f (s.tile t) (srcs.map fun o => (s.tile t).opnd o.1 o.2)
    vuOp h lat l d srcs f s = .next (s.issued t .vu h 2
      ⟨resultLands (s.tile t) lat d l v.v v.wr ++ flagLands lat v.fl, vuOcc (srcs.map (·.1)), lat, none, 0⟩) :=
  vuTwo_go hr hc rfl rfl

section
variable {lat : Nat} {l : Latch} {d : Opnd} {srcs : List (Opnd × Nat)} {f : Tile → List Nat → VRes} (hr : Ready s t .vu h .c)
include hr

theorem vuOp_trap {cause : BitVec 8} {aux : DWord} (ha : s.sources t .vu (d :: srcs.map (·.1)) none srcs = .error (.trap cause aux)) :
    vuOp h lat l d srcs f s = .next (s.trapWord t .vu cause aux) :=
  engWord_trap hr (by rw [ha])

theorem vuOp_fail {u : State} {cause : BitVec 8} {aux : DWord} (ha : s.sources t .vu (d :: srcs.map (·.1)) none srcs = .error (.fail u cause aux)) :
    vuOp h lat l d srcs f s = .next (u.trapWord t .vu cause aux) :=
  engWord_fail hr (by rw [ha])
end

theorem sources_debug {named : List Opnd} {srcs : List (Opnd × Nat)} {w : Nat} (h : shapeBad (s.tile t) named = false)
    (hd : debugHit (s.tile t) srcs = some w) :
    s.sources t .vu named none srcs = .error (.trap Cause.debugRead (BitVec.ofNat 64 (4 * w))) := by
  unfold State.sources
  simp only [h, hd, Bool.false_eq_true, if_false]

theorem sources_lost {named : List Opnd} {srcs : List (Opnd × Nat)} {u : State} {a : Nat} (h : shapeBad (s.tile t) named = false)
    (hd : debugHit (s.tile t) srcs = none) (hu : s.touchOpnds t .vu srcs = (u, some a)) :
    s.sources t .vu named none srcs = .error (.fail u Cause.ecc (BitVec.ofNat 64 a)) := by
  unfold State.sources
  simp only [h, hd, hu, Bool.false_eq_true, if_false]

end
end Sys2Proof.Machine

namespace Sys2Proof.Proofs
open Sys2Proof.Machine
open Claims (Clean VuRow vuRow)

theorem vectorWordsRule : Claims.VectorWordsRule := by
  intro i r s t hi hr hc x v
  rw [exec_vuRow hi, vuOp_go hr hc, vuOcc_map_fst]
  rfl

theorem vectorTraps : Claims.VectorTraps := by
  intro i r s t hi hr x
  rw [exec_vuRow hi]
  exact ⟨fun hb => vuOp_trap hr (sources_shapeBad hb .vu none r.srcs),
    fun hb w hd => vuOp_trap hr (sources_debug hb hd),
    fun hb hd u a hu => vuOp_fail hr (sources_lost hb hd hu)⟩

end Sys2Proof.Proofs
end

section
/-! PROOF. A read of coded words by a tile engine (O17). -/

namespace Sys2Proof.Machine

section
variable (s : State)

/-- A corrected error leaves every tile and the memories, and makes one entry on its die. -/
theorem logCorrected_spec (d : Nat) (who : BitVec 3 × Nat) (slot phase : Nat) (loc : DWord) :
    (∀ k, (s.logCorrected d who slot phase loc).tile k = s.tile k) ∧ (s.logCorrected d who slot phase loc).mem = s.mem
      ∧ ((s.logCorrected d who slot phase loc).die d).logNow.length = (s.die d).logNow.length + 1 := by
  refine ⟨fun _ => rfl, rfl, ?_⟩
  rw [State.logCorrected, State.log, State.die_modDie, List.length_append]
  rfl

theorem logCorrected_foldl {α : Type} (d slot phase : Nat) (who : BitVec 3 × Nat) (loc : α → DWord) (ms : List α) :
    let u := ms.foldl (fun s m => s.logCorrected d who slot phase (loc m)) s
    (∀ k, u.tile k = s.tile k) ∧ u.mem = s.mem ∧ (u.die d).logNow.length = (s.die d).logNow.length + ms.length := by
  induction ms generalizing s with
  | nil => exact ⟨fun _ => rfl, rfl, rfl⟩
  | cons m ms ih =>
    obtain ⟨htile, hmem, hlen⟩ := ih (s.logCorrected d who slot phase (loc m))
    obtain ⟨htile', hmem', hlen'⟩ := logCorrected_spec s d who slot phase (loc m)
    exact ⟨fun k => (htile k).trans (htile' k), hmem.trans hmem', by rw [List.foldl_cons, hlen, hlen', List.length_cons]; omega⟩

/-- The marks of a memory's words from `w0` to `w1`. -/
def EccMark.hits (sp : EccSpace) (w0 w1 : Nat) (m : EccMark) : Bool := m.sp == sp && decide (w0 ≤ m.word) && decide (m.word ≤ w1)

/-- The tile after words were corrected: their marks are gone. -/
def State.unmarked (t : Nat) (sp : EccSpace) (w0 w1 : Nat) : State :=
  s.modTile t fun x => { x with store := { x.store with
    ecc := x.store.ecc.filter fun m => !m.hits sp w0 w1, wiped := x.store.wiped.filter fun m => !m.hits sp w0 w1 } }

/-- The marks of a tile's memories are none of its registers. -/
theorem sameRegisters_marks (x : Tile) (ecc wiped : List EccMark) :
    SameRegisters x { x with store := { x.store with ecc := ecc, wiped := wiped } } :=
  ⟨fun _ => rfl, fun _ => rfl, fun _ => rfl, fun _ => rfl, rfl, fun sp _ => by cases sp <;> rfl, fun _ => rfl, fun _ => rfl, rfl, rfl⟩

variable {s} {t : Nat} (who : BitVec 3 × Nat) {sp : EccSpace} {w0 w1 : Nat}

theorem correct_lost (h : ∃ m ∈ (s.tile t).store.ecc, m.hits sp w0 w1 = true ∧ m.lost = true) :
    ∃ m ∈ (s.tile t).store.ecc, m.hits sp w0 w1 = true ∧ m.lost = true ∧ s.correct t who sp w0 w1 = (s, some (sp.unit * m.word)) := by
  obtain ⟨m', hm', hh', hl'⟩ := h
  obtain ⟨m, hm⟩ := Option.isSome_iff_exists.1 (List.find?_isSome.2 ⟨m', List.mem_filter.2 ⟨hm', hh'⟩, hl'⟩)
  obtain ⟨hmem, hhit⟩ := List.mem_filter.1 (List.mem_of_find?_eq_some hm)
  refine ⟨m, hmem, hhit, List.find?_some hm, ?_⟩
  unfold State.correct
  unfold EccMark.hits at hm
  simp only [hm]

/-- Words that their code corrects are written back and logged, or there are none. -/
theorem correct_corrects (h : ∀ m ∈ (s.tile t).store.ecc, m.hits sp w0 w1 = true → m.lost = false) :
    ∃ u, s.correct t who sp w0 w1 = (u, none) ∧ (u.tile t).store.ecc = (s.tile t).store.ecc.filter (fun m => !m.hits sp w0 w1)
      ∧ ((s.tile t).store.wiped = [] →
          (u.die (t / 64)).logNow.length = (s.die (t / 64)).logNow.length + ((s.tile t).store.ecc.filter (·.hits sp w0 w1)).length)
      ∧ SameRegisters (s.tile t) (u.tile t) ∧ (∀ k, k ≠ t → u.tile k = s.tile k) ∧ u.mem = s.mem := by
  have hfind : ((s.tile t).store.ecc.filter (·.hits sp w0 w1)).find? EccMark.lost = none := by
    refine List.find?_eq_none.2 fun m hm => ?_
    obtain ⟨hmem, hhit⟩ := List.mem_filter.1 hm
    simp [h m hmem hhit]
  unfold State.correct
  unfold EccMark.hits at hfind
  simp only [hfind]
  generalize hlost : (if (s.tile t).store.wipedAt = (s.tile t).cyc then _ else _ : List EccMark) = lost
  have hwiped (hw : (s.tile t).store.wiped = []) : lost = [] := by rw [← hlost, hw, List.filter_nil, ite_self]
  split
  next hnone =>
    have hnil : (s.tile t).store.ecc.filter (·.hits sp w0 w1) = [] := List.isEmpty_iff.1 (Bool.and_eq_true_iff.1 hnone).1
    have hkept : (s.tile t).store.ecc.filter (fun m => !m.hits sp w0 w1) = (s.tile t).store.ecc :=
      List.filter_eq_self.2 fun m hm => by simpa using List.filter_eq_nil_iff.1 hnil m hm
    exact ⟨s, rfl, hkept.symm, fun _ => by rw [hnil]; rfl, sameRegisters_marks _ _ _, fun _ _ => rfl, rfl⟩
  next =>
    refine ⟨_, rfl, ?_⟩
    obtain ⟨htile, hmem, hlen⟩ := logCorrected_foldl (s.unmarked t sp w0 w1) (t / 64) (slotOf t) (s.tile t).seat.phase who
      (fun m : EccMark => eccLoc sp m.word) ((s.tile t).store.ecc.filter (·.hits sp w0 w1) ++ lost)
    have ht := (htile t).trans (State.tile_modTile ..)
    refine ⟨congrArg (·.store.ecc) ht, fun hw => hlen.trans ?_, ?_, fun k hk => (htile k).trans (State.tile_modTile_ne _ _ _ _ hk), hmem⟩
    · rw [hwiped hw, List.append_nil]
      rfl
    · exact (congrArg (SameRegisters (s.tile t)) ht).mpr (sameRegisters_marks ..)

end
end Sys2Proof.Machine

namespace Sys2Proof.Proofs
open Sys2Proof.Machine

theorem codedReads : Claims.CodedReads := by
  intro s t who sp w0 w1 hi x hit
  have htouch : s.touch t who sp w0 w1 = s.correct t who sp w0 w1 := by
    rw [State.touch, show dieOf t = t / 64 from rfl, fireRead_none hi]
  rw [htouch]
  exact ⟨correct_lost who, correct_corrects who⟩

end Sys2Proof.Proofs
end


section
/-! PROOF. Where the lanes of moves, joins and splits come from (O17). -/

namespace Sys2Proof.Machine
open Claims (intVal codeOf)

/-! ### Sub-elements of a register (R184) -/

theorem el_lt (w v n : ℕ) : el w v n < 2 ^ w := Nat.mod_lt _ (Nat.two_pow_pos w)

theorem el_map_range {w N i : ℕ} {f : ℕ → ℕ} (hf : ∀ i, f i < 2 ^ w) (hi : i < N) : el w (packW w ((List.range N).map f)) i = f i := by
  rw [el_packW _ (List.forall_mem_map.2 fun k _ => hf k), getD_map_range _ hi]

theorem el_lanes {f : ℕ → ℕ} (hf : ∀ i, f i < 2 ^ 32) {y x : ℕ} (hy : y < 16) (hx : x < 64) : el 32 (lanes f) (64 * y + x) = f (64 * y + x) :=
  el_map_range hf (by omega)

/-- The number whose `n` sub-elements are all `p`. -/
theorem packW_replicate (w n p : ℕ) : packW w (List.replicate n p) = p * ∑ k ∈ Finset.range n, (2 ^ w) ^ k := by
  induction n with
  | zero => simp [packW]
  | succ n ih =>
    rw [List.replicate_succ, show packW w (p :: List.replicate n p) = p + 2 ^ w * packW w (List.replicate n p) from rfl, ih, geom_sum_succ]
    ring

theorem packW_replicate_div {w n N : ℕ} (hw : 2 ≤ 2 ^ w) (hN : w * n = N) (p : ℕ) :
    packW w (List.replicate n p) = p * ((2 ^ N - 1) / (2 ^ w - 1)) := by
  rw [packW_replicate, Nat.geomSum_eq hw, ← pow_mul, hN]

theorem splat_eq (p : ℕ) : splat p = packW 32 (List.replicate 1024 p) := by
  rw [packW_replicate_div (by norm_num) (show 32 * 1024 = 32768 by norm_num), splat]

theorem el_splat {p i : ℕ} (hp : p < 2 ^ 32) (hi : i < 1024) : el 32 (splat p) i = p := by
  rw [splat_eq, el_packW _ fun z hz => by rwa [List.eq_of_mem_replicate hz], List.getD_replicate _ hi]

/-- Sub-elements after `k` more. -/
theorem el_shift (w v k n : ℕ) : el w (v * 2 ^ (w * k)) (k + n) = el w v n := by
  unfold el
  rw [Nat.mul_add, Nat.pow_add, Nat.mul_comm v, Nat.mul_div_mul_left _ _ (Nat.two_pow_pos _)]

theorem el_ones {w N i : ℕ} (h : w * i + w ≤ N) : el w (2 ^ N - 1) i = 2 ^ w - 1 := by
  refine Nat.eq_of_testBit_eq fun b => ?_
  unfold el
  rw [Nat.testBit_mod_two_pow, Nat.testBit_div_two_pow, Nat.testBit_two_pow_sub_one, Nat.testBit_two_pow_sub_one]
  by_cases hb : b < w
  · simp [hb]; omega
  · simp [hb]

/-- Bits `k` to `k + n` of a number, all ones. -/
theorem testBit_ones (n k i : ℕ) : ((2 ^ n - 1) * 2 ^ k).testBit i = true ↔ k ≤ i ∧ i < k + n := by
  rw [Nat.testBit_mul_two_pow, Nat.testBit_two_pow_sub_one]
  simp
  omega

/-! ### Moves of lanes (R197, R204, R207, R208) -/

section
variable {y x : ℕ} (hy : y < 16) (hx : x < 64)
include hy hx

/-- A register of lanes that are each moved from the lane `g` names. -/
theorem el_moved (a : ℕ) {g : ℕ → ℕ} {k : ℕ} (hg : g (64 * y + x) = k) : el 32 (lanes fun i => el 32 a (g i)) (64 * y + x) = el 32 a k := by
  rw [el_lanes (fun i => el_lt 32 a (g i)) hy hx, hg]

theorem el_rotR (a n : ℕ) : el 32 (rotR a n) (64 * y + x) = el 32 a (64 * y + (x + 64 - n % 64) % 64) :=
  el_moved hy hx a (by omega)

theorem el_rotC (a n : ℕ) : el 32 (rotC a n) (64 * y + x) = el 32 a (64 * ((y + 16 - n % 16) % 16) + x) :=
  el_moved hy hx a (by omega)

theorem el_bcR (a n : ℕ) : el 32 (bcR a n) (64 * y + x) = el 32 a (64 * y + n % 64) :=
  el_moved hy hx a (by omega)

theorem el_bcC (a n : ℕ) : el 32 (bcC a n) (64 * y + x) = el 32 a (64 * (n % 16) + x) :=
  el_moved hy hx a (by omega)

theorem el_permute (a b : ℕ) : let m := el 32 b (64 * y + x) % 1024
    el 32 (permute a b) (64 * y + x) = el 32 a (64 * (m / 64) + m % 64) :=
  el_moved hy hx a (Nat.div_add_mod _ 64).symm
end

/-- A row is a number of groups of 16 sub-elements. -/
theorem rowLen_groups (ty : EType) : ∃ k, rowLen ty = 16 * k :=
  ⟨2 * ty.subs2, by rw [rowLen]; ring⟩

/-- VTRN exchanges the row with the column of a group (R204). -/
theorem trnFrom_eq {ty : EType} {s y c : ℕ} (hs : 16 * s < rowLen ty) (hc : c < 16) :
    trnFrom ty (y * rowLen ty + 16 * s + c) = c * rowLen ty + 16 * s + y := by
  obtain ⟨k, hk⟩ := rowLen_groups ty
  have hi : 16 * s + c < rowLen ty := by omega
  have hmod : (y * rowLen ty + 16 * s + c) % rowLen ty = 16 * s + c := by
    rw [Nat.add_assoc, Nat.mul_add_mod_self_right, Nat.mod_eq_of_lt hi]
  have hdiv : (y * rowLen ty + 16 * s + c) / rowLen ty = y := by
    rw [Nat.add_assoc, Nat.mul_comm, Nat.mul_add_div (by omega), Nat.div_eq_of_lt hi, Nat.add_zero]
  obtain ⟨hcol, hgroup⟩ : (16 * s + c) % 16 = c ∧ (16 * s + c) / 16 = s := by omega
  unfold trnFrom
  dsimp only
  rw [hmod, hdiv, hcol, hgroup, Nat.mul_comm s]

/-! ### Codes of 48 bits (R81) -/

theorem toBitsN_lt (n : ℕ) (v : ℤ) : toBitsN n v < 2 ^ n := by
  unfold toBitsN
  rw [Int.toNat_lt (Int.emod_nonneg _ (by positivity))]
  exact_mod_cast Int.emod_lt_of_pos v (show (0 : ℤ) < 2 ^ n by positivity)

/-- A code of `n` bits is that of the integer it stands for. -/
theorem toBitsN_sext (n c : ℕ) : toBitsN n (sext c n) = c % 2 ^ n := by
  have hpow : ((2 ^ n : ℕ) : ℤ) = 2 ^ n := by push_cast; rfl
  unfold toBitsN sext
  dsimp only
  rw [← hpow]
  split
  · rw [Int.sub_emod_right, ← Int.natCast_mod, Int.toNat_natCast, Nat.mod_mod]
  · rw [← Int.natCast_mod, Int.toNat_natCast, Nat.mod_mod]

/-- An integer is read from its low bits. -/
theorem sext_mod (n c : ℕ) : sext (c % 2 ^ n) n = sext c n := by
  unfold sext
  rw [Nat.mod_mod]

theorem wrap48_sext (c : ℕ) : wrap48 (sext c 48) = sext c 48 := by
  rw [wrap48, toBitsN_sext, sext_mod]

theorem moveEl_x48 (c : ℕ) : moveEl .x48 c = codeOf 64 (intVal 48 true (c % 2 ^ 48)) := by
  rw [moveEl, if_pos rfl, writeInt, if_pos rfl, wrap48_sext, sext_eq_intVal]
  rfl

theorem moveEl_of_ne {ty : EType} (h : ty ≠ .x48) (c : ℕ) : moveEl ty c = c := if_neg h

theorem nonzero_of_ne {ty : EType} (h : ty ≠ .x48) (c : ℕ) : nonzero ty c = (c % 2 ^ stepOf ty != 0) := by
  rw [nonzero, widthOfT, if_neg h]

/-! ### Lanes under a mask (R191) -/

theorem masked_wr (ty : EType) (mk : Bool) (top v : ℕ) {i : ℕ} (hi : i < count ty) :
    el (stepOf ty / 4) (masked ty mk top v).wr i =
      if mk = false ∨ top.testBit (stepOf ty / 4 * i) = true then 2 ^ (stepOf ty / 4) - 1 else 0 := by
  cases mk with
  | false =>
    refine el_ones ?_
    have h : stepOf ty / 4 * count ty ≤ 8192 := by cases ty <;> decide
    calc stepOf ty / 4 * i + stepOf ty / 4 = stepOf ty / 4 * (i + 1) := (Nat.mul_succ ..).symm
      _ ≤ stepOf ty / 4 * count ty := Nat.mul_le_mul_left _ hi
      _ ≤ 8192 := h
  | true =>
    have hp := Nat.two_pow_pos (stepOf ty / 4)
    refine (el_map_range (fun k => ?_) hi).trans ?_
    · split <;> omega
    · simp only [enabled, bit_eq_testBit, Bool.not_true, Bool.false_or, Bool.true_eq_false, false_or]

/-! ### Planes of six-bit codes (R201, R202) -/

theorem join6_code_lt (q a b n : ℕ) : el 4 a (4096 * (q / 4) + n) + 16 * el 2 b (4096 * (q % 4) + n) < 2 ^ 6 := by
  have ha := el_lt 4 a (4096 * (q / 4) + n)
  have hb := el_lt 2 b (4096 * (q % 4) + n)
  omega

theorem join6_el (f : SixFmt) (q a b : ℕ) {n : ℕ} (hn : n < 4096) :
    let c := el 4 a (4096 * (q / 4) + n) + 16 * el 2 b (4096 * (q % 4) + n)
    el 8 (join6 f q a b).v n = match f with
      | .s6 => toBitsN 8 (sext c 6)
      | .e2m3 => c := by
  unfold join6
  rw [collect_el hn]
  · rfl
  · rintro k - e he
    cases he
    cases f with
    | s6 => exact toBitsN_lt 8 _
    | e2m3 => exact (join6_code_lt q a b k).trans (by norm_num)

theorem join6_rest (f : SixFmt) (q a b : ℕ) {n : ℕ} (hn : n < 4096) : el 2 (join6 f q a b).wr n = 3 ∧ (join6 f q a b).fl = 0 := by
  refine ⟨(collect_wr (step := 8) hn).trans rfl, BitVec.eq_of_getLsbD_eq fun k _ => ?_⟩
  rw [show (0 : VFlags).getLsbD k = false from BitVec.getLsbD_zero, ← Bool.not_eq_true, join6, collect_fl]
  rintro ⟨n, -, e, he, hk⟩
  cases he
  exact absurd hk (by simp)

theorem split6_plane {w k n q a : ℕ} {g : ℕ → ℕ} (hg : ∀ c, g c < 2 ^ w) (hn : n < 4096) (hk : k = w * (4096 * q)) :
    el w (packW w (((List.range 4096).map fun n => el 8 a n).map g) * 2 ^ k) (4096 * q + n) = g (el 8 a n) := by
  rw [hk, el_shift, List.map_map]
  exact el_map_range (fun i => hg _) hn

end Sys2Proof.Machine

namespace Sys2Proof.Proofs
open Sys2Proof.Machine

theorem movedLanes : Claims.MovedLanes := by
  refine ⟨fun a b n v y x hy hx hv => ⟨el_rotR hy hx a n, el_rotC hy hx a n, el_bcR hy hx a n, el_bcC hy hx a n, el_permute hy hx a b,
      el_splat hv (by omega)⟩, fun ty s y c hs _ _ hc => trnFrom_eq hs hc, fun ty c => ⟨fun h => ⟨moveEl_of_ne h c, nonzero_of_ne h c⟩,
      moveEl_x48 c, rfl⟩, fun ty mk top v => ⟨rfl, rfl, fun i hi => masked_wr ty mk top v hi⟩,
    fun q a b n _ hn => ⟨join6_el .e2m3 q a b hn, ?_, fun f => join6_rest f q a b hn⟩, fun q a n k hn _ => ⟨fun _ => ⟨?_, ?_⟩, fun _ => ⟨?_, ?_⟩⟩⟩
  · rw [join6_el .s6 q a b hn, sext_eq_intVal, Nat.mod_eq_of_lt (join6_code_lt q a b n)]
    rfl
  · exact split6_plane (fun c => Nat.mod_lt c (by decide)) hn (by ring)
  · exact (testBit_ones ..).trans (by omega)
  · exact split6_plane (fun c => Nat.mod_lt (c / 16) (by decide)) hn (by ring)
  · exact (testBit_ones ..).trans (by omega)

end Sys2Proof.Proofs
end


section
/-! PROOF. The conversions of a register's part (O17). -/

namespace Sys2Proof.Machine

/-! ### Results fit their sub-elements -/

theorem FFmt.round_lt (f : FFmt) (md : RMode) (v : FVal) : (f.round md v).1 < 2 ^ f.par.width := by
  cases v with
  | nan => cases f <;> simp [FFmt.round, FFmt.par]
  | inv => cases f <;> simp [FFmt.round, FFmt.par]
  | inf s => cases f <;> cases s <;> cases hs : md.sat <;> simp [FFmt.round, FFmt.par, hs]
  | num s m e => exact roundMag_lt f md s m e

theorem width_eq_stepOf {ty : EType} {f : FFmt} (h : kindOf ty = .flt f) : f.par.width = stepOf ty := by
  cases ty <;> cases h <;> rfl

theorem round_lt_stepOf {ty : EType} {f : FFmt} (h : kindOf ty = .flt f) (md : RMode) (v : FVal) : (f.round md v).1 < 2 ^ stepOf ty :=
  width_eq_stepOf h ▸ f.round_lt md v

theorem writeInt_lt (ty : EType) (v : ℤ) : writeInt ty v < 2 ^ stepOf ty := by
  unfold writeInt
  split
  next h => exact h ▸ toBitsN_lt 64 _
  next => exact toBitsN_lt _ v

theorem finInt_lt (ty : EType) (sat : Bool) (v : ℤ) : (finInt ty sat v).1 < 2 ^ stepOf ty := by
  cases sat
  · exact writeInt_lt ty v
  · exact writeInt_lt ty _

theorem cvtEl_lt (dt st : EType) (md : RMode) (c : ℕ) : (cvtEl dt st md c).1 < 2 ^ stepOf dt := by
  unfold cvtEl
  split
  next h => exact round_lt_stepOf h md _
  next => exact writeInt_lt dt _
  next => exact finInt_lt dt md.sat _

/-! ### Parts of a row (R185) -/

theorem count_eq (ty : EType) : count ty = 16 * rowLen ty := by
  cases ty <;> decide

section
variable {dt st : EType} {q n : ℕ}

/-- Source of a destination sub-element of the part. -/
theorem partFrom_some (h : rowLen st < rowLen dt → rowLen st * q ≤ n % rowLen dt ∧ n % rowLen dt < rowLen st * q + rowLen st) :
    partFrom dt st q n = some (if rowLen st < rowLen dt then n / rowLen dt * rowLen st + (n % rowLen dt - rowLen st * q)
      else if rowLen dt < rowLen st then n / rowLen dt * rowLen st + rowLen dt * q + n % rowLen dt else n) := by
  unfold partFrom
  dsimp only
  split
  next hlt =>
    obtain ⟨hlo, hhi⟩ := h hlt
    rw [if_pos (by simp [hlo, hhi]), Nat.add_sub_assoc hlo]
  next => split <;> rfl

theorem partFrom_none (h : ¬(rowLen st < rowLen dt → rowLen st * q ≤ n % rowLen dt ∧ n % rowLen dt < rowLen st * q + rowLen st)) :
    partFrom dt st q n = none := by
  obtain ⟨hlt, hout⟩ := Classical.not_imp.1 h
  unfold partFrom
  rw [if_pos hlt, if_neg (by simpa using hout)]

end

end Sys2Proof.Machine

namespace Sys2Proof.Proofs
open Sys2Proof.Machine

theorem placedConversions : Claims.PlacedConversions := by
  intro x dt st q rnd sat a y i hy hi R kd ks n from_ on_ e
  have hn : n < count dt := by
    rw [count_eq]
    calc y * rowLen dt + i < (y + 1) * rowLen dt := by rw [Nat.succ_mul]; omega
      _ ≤ 16 * rowLen dt := Nat.mul_le_mul_right _ hy
  have hon (k : ℕ) (h : on_ k) : (partFrom dt st q k).map (fun j => cvtEl dt st (modeAt x rnd sat k) (el (stepOf st) a j)) = some (e k) := by
    rw [partFrom_some h]
    rfl
  have hoff (k : ℕ) (h : ¬on_ k) : (partFrom dt st q k).map (fun j => cvtEl dt st (modeAt x rnd sat k) (el (stepOf st) a j)) = none := by
    rw [partFrom_none h]
    rfl
  refine ⟨fun h => ⟨?_, ?_⟩, fun h => ?_, fun b => (collect_fl b).trans ⟨?_, ?_⟩⟩
  · refine (collect_el hn fun k _ r hr => ?_).trans ?_
    · obtain ⟨j, -, rfl⟩ := Option.map_eq_some_iff.1 hr
      exact cvtEl_lt ..
    · rw [hon n h, Nat.mod_eq_of_lt (cvtEl_lt ..)]
      rfl
  · exact (collect_wr hn).trans (by rw [hon n h]; rfl)
  · exact (collect_wr hn).trans (by rw [hoff n h]; rfl)
  · rintro ⟨k, hk, r, hr, hb⟩
    have hin : on_ k := by_contra fun hout => by rw [hoff k hout] at hr; cases hr
    rw [hon k hin] at hr
    cases hr
    exact ⟨k, hk, hin, hb⟩
  · rintro ⟨k, hk, hin, hb⟩
    exact ⟨k, hk, e k, hon k hin, hb⟩

end Sys2Proof.Proofs
end


section
/-! PROOF. The lines of a reduction or a scan and what is accumulated over them (O17). -/

namespace Sys2Proof.Machine
open Claims (floatType intForm neutral)

/-! ### A result for every enabled sub-element (R189, R191) -/

section
variable {ty : EType} {mk : Bool} {top : ℕ} {f : ℕ → ℕ × VFlags}

/-- The result of a sub-element that is enabled; none of one that is not. -/
theorem enabled_eq_some {n : ℕ} {e : ℕ × VFlags} :
    (if enabled ty mk top n then some (f n) else none) = some e ↔ (!mk || top.testBit (stepOf ty / 4 * n)) = true ∧ f n = e := by
  rw [enabled, bit_eq_testBit]
  split <;> simp_all

theorem perElem_el (hf : ∀ n < count ty, (f n).1 < 2 ^ stepOf ty) {n : ℕ} (hn : n < count ty) (hon : (!mk || top.testBit (stepOf ty / 4 * n)) = true) :
    el (stepOf ty) (perElem ty mk top f).v n = (f n).1 := by
  refine (collect_el hn fun k hk e he => ?_).trans ?_
  · exact (enabled_eq_some.1 he).2 ▸ hf k hk
  · rw [enabled_eq_some.2 ⟨hon, rfl⟩]
    rfl

theorem perElem_wr {n : ℕ} (hn : n < count ty) : el (stepOf ty / 4) (perElem ty mk top f).wr n =
    if !mk || top.testBit (stepOf ty / 4 * n) then 2 ^ (stepOf ty / 4) - 1 else 0 := by
  refine (collect_wr hn).trans ?_
  rw [enabled, bit_eq_testBit]
  split <;> simp_all

theorem perElem_fl (b : ℕ) : (perElem ty mk top f).fl.getLsbD b = true ↔
    ∃ n, n < count ty ∧ (!mk || top.testBit (stepOf ty / 4 * n)) = true ∧ (f n).2.getLsbD b = true := by
  refine (collect_fl b).trans ?_
  simp only [enabled_eq_some]
  constructor
  · rintro ⟨n, hn, e, ⟨hon, rfl⟩, hb⟩
    exact ⟨n, hn, hon, hb⟩
  · rintro ⟨n, hn, hon, hb⟩
    exact ⟨n, hn, _, ⟨hon, rfl⟩, hb⟩
end

/-! ### Lines (R205, R206) -/

/-- The line of sub-element `n`, and its place there. -/
theorem lineOf_placeOf (ty : EType) (col : Bool) (n : ℕ) : lineOf ty col (placeOf ty col n).1 =
    if col then (List.range 16).map (fun y => y * rowLen ty + n % rowLen ty)
      else (List.range (rowLen ty)).map (fun i => n / rowLen ty * rowLen ty + i) := by
  cases col <;> rfl

theorem rowLen_pos (ty : EType) : 0 < rowLen ty := by
  cases ty <;> decide

theorem placeOf_line {ty : EType} (col : Bool) {n : ℕ} (hn : n < count ty) : (placeOf ty col n).1 < lineCount ty col := by
  rw [count_eq] at hn
  cases col
  · exact Nat.div_lt_of_lt_mul (by rwa [Nat.mul_comm])
  · exact Nat.mod_lt _ (rowLen_pos ty)

theorem placeOf_place {ty : EType} {col : Bool} {n : ℕ} (hn : n < count ty) (k : ℕ) : (placeOf ty col n).2 < (lineOf ty col k).length := by
  rw [count_eq] at hn
  cases col
  · simpa [lineOf, placeOf] using Nat.mod_lt n (rowLen_pos ty)
  · simpa [lineOf, placeOf] using Nat.div_lt_of_lt_mul (by rwa [Nat.mul_comm])

/-- The state after `k + 1` elements. -/
theorem prefixes_getD (f : Acc → ℕ → Acc) : ∀ (s : Acc) (cs : List ℕ) {k : ℕ} (d : Acc), k < cs.length →
    (prefixes f s cs).getD k d = (cs.take (k + 1)).foldl f s
  | _, [], _, _, h => absurd h (Nat.not_lt_zero _)
  | _, _ :: _, 0, _, _ => rfl
  | s, c :: cs, _ + 1, d, h => prefixes_getD f (f s c) cs d (Nat.lt_of_succ_lt_succ h)

/-- The state before an element, or with it. -/
theorem prefixes_excl_getD (f : Acc → ℕ → Acc) (excl : Bool) {cs : List ℕ} {k : ℕ} (h : k < cs.length) :
    (if excl then Acc.empty :: prefixes f .empty cs else prefixes f .empty cs).getD k .empty
      = (cs.take (if excl then k else k + 1)).foldl f .empty := by
  cases excl with
  | false => exact prefixes_getD f .empty cs .empty h
  | true =>
    cases k with
    | zero => rfl
    | succ => exact prefixes_getD f .empty cs .empty (Nat.lt_of_succ_lt h)

/-- The identity of an operation is the code a disabled sub-element takes part as. -/
theorem identity_eq_neutral {ty : EType} (h : (floatType ty).isSome ∨ (intForm ty).isSome) (h4 : ty ≠ .e2m1) (o : RKind) :
    identity ty o = neutral ty o := by
  cases ty
  case pl4 | pl2 | e8m0 => simp [floatType, intForm] at h
  case e2m1 => exact absurd rfl h4
  all_goals cases o <;> rfl

theorem identity_lt (ty : EType) (o : RKind) : identity ty o < 2 ^ stepOf ty := by
  cases ty <;> cases o <;> decide

theorem redEl_lt (ty : EType) (o : RKind) (mk : Bool) (top a n : ℕ) : redEl ty o mk top a n < 2 ^ stepOf ty := by
  unfold redEl
  split
  · exact el_lt ..
  · exact identity_lt ty o

/-! ### What is accumulated (R205) -/

/-- What one more code makes of the code so far, for the operations that accumulate a code. -/
def codeOp (ty : EType) (o : RKind) (d c : ℕ) : ℕ :=
  match o with
  | .and => d &&& c
  | .or => d ||| c
  | .xor => d ^^^ c
  | .max => pick ty true d c
  | _ => pick ty false d c

/-- The code of the first element. -/
def codeFirst (ty : EType) (o : RKind) (c : ℕ) : ℕ :=
  match o with
  | .and | .or | .xor => c
  | o => codeOp ty o c c

section
variable {ty : EType} {o : RKind} {rd : Bool}

theorem foldl_accStep_code (ho : o ≠ .add) (c : ℕ) (cs : List ℕ) :
    (c :: cs).foldl (accStep ty o rd) .empty = .code (cs.foldl (codeOp ty o) (codeFirst ty o c)) := by
  have hfirst : accStep ty o rd .empty c = .code (codeFirst ty o c) := by
    cases o
    case add => exact absurd rfl ho
    all_goals rfl
  have hstep (d e : ℕ) : accStep ty o rd (.code d) e = .code (codeOp ty o d e) := by
    cases o
    case add => exact absurd rfl ho
    all_goals rfl
  rw [List.foldl_cons, hfirst]
  generalize codeFirst ty o c = d
  induction cs generalizing d with
  | nil => rfl
  | cons e cs ih => rw [List.foldl_cons, hstep, ih, List.foldl_cons]

theorem foldl_accStep_sum {f : FFmt} (hf : kindOf ty = .flt f) (c : ℕ) (cs : List ℕ) :
    (c :: cs).foldl (accStep ty .add rd) .empty = .sum (cs.foldl (fun u c => FVal.add rd u (f.value c)) (f.value c)) := by
  have hstep (u : FVal) (e : ℕ) : accStep ty .add rd (.sum u) e = .sum (FVal.add rd u (f.value e)) := by
    simp only [accStep, hf]
  rw [List.foldl_cons, show accStep ty .add rd .empty c = .sum (f.value c) by simp only [accStep, hf]]
  generalize f.value c = u
  induction cs generalizing u with
  | nil => rfl
  | cons e cs ih => rw [List.foldl_cons, hstep, ih, List.foldl_cons]

theorem foldl_accStep_int (hf : ∀ f, kindOf ty ≠ .flt f) (c : ℕ) (cs : List ℕ) :
    (c :: cs).foldl (accStep ty .add rd) .empty = .int ((c :: cs).map (readInt ty)).sum := by
  have hfirst : accStep ty .add rd .empty c = .int (readInt ty c) := by
    cases hk : kindOf ty with
    | flt f => exact absurd hk (hf f)
    | int | raw => simp only [accStep, hk]
  have hstep (u : ℤ) (e : ℕ) : accStep ty .add rd (.int u) e = .int (u + readInt ty e) := by
    cases hk : kindOf ty with
    | flt f => exact absurd hk (hf f)
    | int | raw => simp only [accStep, hk]
  rw [List.foldl_cons, List.map_cons, List.sum_cons, hfirst]
  generalize readInt ty c = u
  induction cs generalizing u with
  | nil => simp
  | cons e cs ih => rw [List.foldl_cons, hstep, ih, List.map_cons, List.sum_cons, add_assoc]
end

/-- What holds of the first code, and of one more where it held before, holds of a line. -/
theorem foldl_line {β : Type} {Q : List ℕ → β → Prop} {h : β → ℕ → β} {c : ℕ} {b : β} (h0 : Q [c] b)
    (hs : ∀ P b e, P ≠ [] → Q P b → Q (P ++ [e]) (h b e)) (cs : List ℕ) : Q (c :: cs) (cs.foldl h b) := by
  induction cs using List.reverseRecOn with
  | nil => exact h0
  | append_singleton cs e ih =>
    rw [List.foldl_append, ← List.cons_append]
    exact hs (c :: cs) _ e (by simp) ih

/-! ### What is accumulated fits its sub-element -/

theorem canonicalNaN_lt (f : FFmt) : f.par.nan.getD 0 < 2 ^ f.par.width := by
  cases f <;> decide

theorem pick_lt {ty : EType} (up : Bool) {a b : ℕ} (ha : a < 2 ^ stepOf ty) (hb : b < 2 ^ stepOf ty) : pick ty up a b < 2 ^ stepOf ty := by
  unfold pick
  split
  next f hf =>
    rw [← width_eq_stepOf hf] at ha hb ⊢
    dsimp only
    split
    · exact canonicalNaN_lt f
    · split <;> split <;> assumption
  next => cases up <;> exact writeInt_lt ty _

theorem codeOp_lt {ty : EType} (o : RKind) {d c : ℕ} (hd : d < 2 ^ stepOf ty) (hc : c < 2 ^ stepOf ty) : codeOp ty o d c < 2 ^ stepOf ty := by
  cases o with
  | and => exact Nat.and_lt_two_pow d hc
  | or => exact Nat.or_lt_two_pow hd hc
  | xor => exact Nat.xor_lt_two_pow hd hc
  | add | min => exact pick_lt false hd hc
  | max => exact pick_lt true hd hc

theorem codeFirst_lt {ty : EType} (o : RKind) {c : ℕ} (hc : c < 2 ^ stepOf ty) : codeFirst ty o c < 2 ^ stepOf ty := by
  cases o with
  | and | or | xor => exact hc
  | add | min => exact pick_lt false hc hc
  | max => exact pick_lt true hc hc

theorem moveEl_lt {ty : EType} {c : ℕ} (hc : c < 2 ^ stepOf ty) : moveEl ty c < 2 ^ stepOf ty := by
  unfold moveEl
  split
  · exact writeInt_lt ty _
  · exact hc

theorem accOut_lt {ty : EType} {o : RKind} {rd : Bool} (md : RMode) {cs : List ℕ} (hcs : ∀ c ∈ cs, c < 2 ^ stepOf ty) :
    (accOut ty o md (cs.foldl (accStep ty o rd) .empty)).1 < 2 ^ stepOf ty := by
  cases cs with
  | nil => exact identity_lt ty o
  | cons c cs =>
    have hc := hcs c (List.mem_cons_self ..)
    by_cases ho : o = .add
    · subst ho
      cases hk : kindOf ty with
      | flt f =>
        rw [foldl_accStep_sum hk]
        simp only [accOut, hk]
        exact round_lt_stepOf hk ..
      | int | raw =>
        rw [foldl_accStep_int (by simp [hk])]
        exact finInt_lt ty _ _
    · rw [foldl_accStep_code ho]
      refine moveEl_lt (foldl_line (Q := fun P d => (∀ c ∈ P, c < 2 ^ stepOf ty) → d < 2 ^ stepOf ty) (fun _ => codeFirst_lt o hc)
        (fun P d e _ ih h => codeOp_lt o (ih fun c hc => h c (List.mem_append_left _ hc)) (h e (by simp))) cs hcs)

/-- What a reduction takes of a sub-element's line, and what it makes of it. -/
def lineCodes (ty : EType) (o : RKind) (col mk : Bool) (top a n : ℕ) : List ℕ := (lineOf ty col (placeOf ty col n).1).map (redEl ty o mk top a)

theorem lineCodes_lt {ty : EType} {o : RKind} {col mk : Bool} {top a n : ℕ} : ∀ c ∈ lineCodes ty o col mk top a n, c < 2 ^ stepOf ty :=
  List.forall_mem_map.2 fun k _ => redEl_lt ty o mk top a k

/-- The state at a sub-element of a reduction. -/
def redAcc (ty : EType) (o : RKind) (col : Bool) (m : VMod) (top a n : ℕ) : Acc :=
  ((List.range (lineCount ty col)).map fun k =>
    (lineOf ty col k).foldl (fun s n => accStep ty o (m.rnd == .rd) s (redEl ty o m.msk top a n)) Acc.empty).getD (placeOf ty col n).1 .empty

theorem redAcc_eq {ty : EType} (o : RKind) (col : Bool) (m : VMod) (top a : ℕ) {n : ℕ} (hn : n < count ty) :
    redAcc ty o col m top a n = (lineCodes ty o col m.msk top a n).foldl (accStep ty o (m.rnd == .rd)) .empty := by
  rw [redAcc, getD_map_range _ (placeOf_line col hn), lineCodes, List.foldl_map]

/-- The state at a sub-element of a scan. -/
def scanAcc (ty : EType) (o : RKind) (col excl : Bool) (m : VMod) (top a n : ℕ) : Acc :=
  (((List.range (lineCount ty col)).map fun k =>
    let p := prefixes (accStep ty o (m.rnd == .rd)) .empty ((lineOf ty col k).map (redEl ty o m.msk top a))
    if excl then Acc.empty :: p else p).getD (placeOf ty col n).1 []).getD (placeOf ty col n).2 .empty

theorem scanAcc_eq {ty : EType} (o : RKind) (col excl : Bool) (m : VMod) (top a : ℕ) {n : ℕ} (hn : n < count ty) :
    scanAcc ty o col excl m top a n = ((lineCodes ty o col m.msk top a n).take
      (if excl then (placeOf ty col n).2 else (placeOf ty col n).2 + 1)).foldl (accStep ty o (m.rnd == .rd)) .empty := by
  rw [scanAcc, getD_map_range _ (placeOf_line col hn)]
  exact prefixes_excl_getD _ excl (by rw [List.length_map]; exact placeOf_place hn _)

end Sys2Proof.Machine
end


section
/-! PROOF. Reductions of bits and of integers (O17). -/

namespace Sys2Proof.Machine
open Claims (intForm intVal codeOf intPlace intResult)

/-! ### Bits (R205) -/

/-- The sign of a 48-bit code fills its place (R81). -/
theorem moveEl_x48_testBit (c : ℕ) {b : ℕ} (hb : b < 64) : (moveEl .x48 c).testBit b = c.testBit (min b 47) := by
  have hint : sext c 48 = (BitVec.ofNat 48 c).toInt := by
    rw [BitVec.toInt_eq_toNat_cond, BitVec.toNat_ofNat, sext]
    split <;> split <;> omega
  have hcode : moveEl .x48 c = ((BitVec.ofNat 48 c).signExtend 64).toNat := by
    rw [moveEl, if_pos rfl, writeInt, if_pos rfl, wrap48_sext, hint]
    exact (BitVec.toNat_ofInt ..).symm
  rw [hcode, BitVec.testBit_toNat, BitVec.getLsbD_signExtend, decide_eq_true hb, Bool.true_and]
  split
  next h => rw [BitVec.getLsbD_ofNat, decide_eq_true h, Bool.true_and, Nat.min_eq_left (by omega)]
  next h =>
    rw [BitVec.msb_eq_getLsbD_last, BitVec.getLsbD_ofNat, Nat.min_eq_right (by omega)]
    simp

theorem moveEl_testBit (ty : EType) (c : ℕ) {b : ℕ} (hb : b < stepOf ty) :
    (moveEl ty c).testBit b = c.testBit (if ty = .x48 then min b 47 else b) := by
  by_cases h : ty = .x48
  · subst h
    exact moveEl_x48_testBit c hb
  · rw [moveEl_of_ne h, if_neg h]

/-- A bit of what is accumulated. -/
def BitOf (o : RKind) (cs : List ℕ) (k : ℕ) : Prop :=
  match o with
  | .and => ∀ c ∈ cs, c.testBit k = true
  | .or => ∃ c ∈ cs, c.testBit k = true
  | _ => (cs.filter fun c => c.testBit k).length % 2 = 1

theorem codeOp_testBit (ty : EType) {o : RKind} (ho : o = .and ∨ o = .or ∨ o = .xor) (c : ℕ) (cs : List ℕ) (k : ℕ) :
    (cs.foldl (codeOp ty o) (codeFirst ty o c)).testBit k = true ↔ BitOf o (c :: cs) k := by
  refine foldl_line (Q := fun P (d : ℕ) => d.testBit k = true ↔ BitOf o P k) ?_ (fun P d e _ ih => ?_) cs
  · rcases ho with rfl | rfl | rfl
    · simp [codeFirst, BitOf]
    · simp [codeFirst, BitOf]
    · cases hc : c.testBit k <;> simp [codeFirst, BitOf, hc]
  · rcases ho with rfl | rfl | rfl
    · rw [codeOp, Nat.testBit_and, Bool.and_eq_true, ih]
      simp only [BitOf, List.forall_mem_append, List.forall_mem_singleton]
    · rw [codeOp, Nat.testBit_or, Bool.or_eq_true, ih]
      simp only [BitOf, List.mem_append, List.mem_singleton, or_and_right, exists_or, exists_eq_left]
    · simp only [BitOf, List.filter_append, List.length_append] at ih ⊢
      rw [codeOp, Nat.testBit_xor]
      cases he : e.testBit k
      · simp [he, ih]
      · simp [he, Bool.eq_false_iff, ih]
        omega

/-- What a reduction of bits answers (R205). -/
theorem accOut_bits {ty : EType} {o : RKind} (ho : o = .and ∨ o = .or ∨ o = .xor) (md : RMode) (rd : Bool) {cs : List ℕ} (hcs : cs ≠ []) :
    (accOut ty o md (cs.foldl (accStep ty o rd) .empty)).2 = 0 ∧ ∀ b, b < stepOf ty →
      ((accOut ty o md (cs.foldl (accStep ty o rd) .empty)).1.testBit b = true ↔ BitOf o cs (if ty = .x48 then min b 47 else b)) := by
  obtain ⟨c, cs, rfl⟩ := List.exists_cons_of_ne_nil hcs
  have hadd : o ≠ .add := by rintro rfl; simp at ho
  rw [foldl_accStep_code hadd]
  exact ⟨rfl, fun b hb => by rw [accOut, moveEl_testBit ty _ hb, codeOp_testBit ty ho]⟩

/-! ### Integers (R81, R90) -/

theorem toBitsN_mod {n m : ℕ} (h : n ≤ m) (v : ℤ) : toBitsN m v % 2 ^ n = toBitsN n v := by
  have hm := Int.emod_nonneg v (show (2 ^ m : ℤ) ≠ 0 by positivity)
  have hn := Int.emod_nonneg v (show (2 ^ n : ℤ) ≠ 0 by positivity)
  unfold toBitsN
  zify
  rw [Int.toNat_of_nonneg hm, Int.toNat_of_nonneg hn, Int.emod_emod_of_dvd _ (pow_dvd_pow 2 h)]

/-- The low bits of a code of an integer are its code of fewer bits. -/
theorem sext_toBitsN {n m : ℕ} (h : n ≤ m) (v : ℤ) : sext (toBitsN m v) n = sext (toBitsN n v) n := by
  rw [← sext_mod, toBitsN_mod h]

theorem moveEl_writeInt (ty : EType) (v : ℤ) : moveEl ty (writeInt ty v) = writeInt ty v := by
  by_cases h : ty = .x48
  · subst h
    have hw (u : ℤ) : writeInt .x48 u = toBitsN 64 (wrap48 u) := if_pos rfl
    have hs : sext (toBitsN 48 (sext (toBitsN 48 v) 48)) 48 = sext (toBitsN 48 v) 48 := by rw [toBitsN_sext, sext_mod]
    rw [moveEl, if_pos rfl, hw, hw, wrap48_sext, sext_toBitsN (by norm_num), wrap48, hs]
  · exact moveEl_of_ne h _

/-- A code is that of the integer it stands for. -/
theorem codeOf_intVal {w : ℕ} {sg : Bool} {c : ℕ} (hc : c < 2 ^ w) : codeOf w (intVal w sg c) = c := by
  cases sg with
  | true =>
    have hs := sext_eq_intVal c w
    rw [Nat.mod_eq_of_lt hc] at hs
    rw [← hs]
    exact (toBitsN_sext w c).trans (Nat.mod_eq_of_lt hc)
  | false =>
    have hv : intVal w false c = (c : ℤ) := by simp [intVal]
    have hm : ((c : ℤ) % 2 ^ w) = c := Int.emod_eq_of_lt (Int.natCast_nonneg c) (by exact_mod_cast hc)
    rw [codeOf, hv, hm, Int.toNat_natCast]

section
variable {ty : EType} {w step : ℕ} {sg : Bool} (h : intForm ty = some (w, step, sg))
include h

/-- The integer forms are the model's. -/
theorem intForm_eq : kindOf ty = .int sg ∧ widthOfT ty = w ∧ stepOf ty = step ∧ w ≤ step ∧ (ty ≠ .x48 → w = step) ∧ (ty = .x48 → sg = true) := by
  cases ty <;> cases h <;> exact ⟨rfl, rfl, rfl, by decide, by simp, by simp⟩

theorem readInt_eq (c : ℕ) : readInt ty c = intVal w sg (c % 2 ^ w) := by
  obtain ⟨hk, hw, hs, -, hne, hx⟩ := intForm_eq h
  unfold readInt
  rw [hk]
  cases sg with
  | true =>
    rw [← sext_eq_intVal, ← hw]
  | false =>
    rw [← hne fun h => absurd (hx h) Bool.false_ne_true] at hs
    rw [hs]
    simp [intVal]

theorem writeInt_eq (v : ℤ) : writeInt ty v = intPlace w step sg v := by
  obtain ⟨hk, hw, hs, -, hne, hx⟩ := intForm_eq h
  unfold writeInt intPlace
  split
  next hx48 =>
    subst hx48
    cases h
    rw [wrap48, sext_eq_intVal, Nat.mod_eq_of_lt (toBitsN_lt 48 v)]
    rfl
  next hx48 =>
    rw [hs, ← hne hx48]
    exact (codeOf_intVal (toBitsN_lt w v)).symm

theorem finInt_eq (sat : Bool) (v : ℤ) : finInt ty sat v = intResult w step sg sat v := by
  obtain ⟨hk, hw, -⟩ := intForm_eq h
  have hsg : isSigned ty = sg := by rw [isSigned, hk]; cases sg <;> rfl
  cases sat with
  | false => exact Prod.ext (writeInt_eq h v) rfl
  | true =>
    have hclamp (lo hi : ℤ) : (writeInt ty (clampTo lo hi v).1, (clampTo lo hi v).2) =
        if v < lo then (intPlace w step sg lo, 32) else if hi < v then (intPlace w step sg hi, 32) else (intPlace w step sg v, 0) := by
      simp only [writeInt_eq h, clampTo]
      split
      · rfl
      · split <;> rfl
    unfold finInt loOf hiOf
    rw [hsg, hw]
    exact hclamp _ _

/-- A value of the type survives its code. -/
theorem readInt_writeInt (c : ℕ) : readInt ty (writeInt ty (readInt ty c)) = readInt ty c := by
  obtain ⟨-, -, -, hle, -⟩ := intForm_eq h
  have hc : c % 2 ^ w < 2 ^ w := Nat.mod_lt _ (Nat.two_pow_pos w)
  have hplace : intPlace w step sg (intVal w sg (c % 2 ^ w)) % 2 ^ w = c % 2 ^ w := by
    rw [intPlace, codeOf_intVal hc]
    exact (toBitsN_mod hle _).trans (codeOf_intVal hc)
  rw [writeInt_eq h, readInt_eq h, readInt_eq h, hplace]

/-- A sum of a line (R205). -/
theorem accOut_intSum (md : RMode) (rd : Bool) {cs : List ℕ} (hcs : cs ≠ []) :
    accOut ty .add md (cs.foldl (accStep ty .add rd) .empty) = intResult w step sg md.sat (cs.map fun c => intVal w sg (c % 2 ^ w)).sum := by
  obtain ⟨c, cs, rfl⟩ := List.exists_cons_of_ne_nil hcs
  have hk : ∀ f, kindOf ty ≠ .flt f := by simp [(intForm_eq h).1]
  rw [foldl_accStep_int hk, accOut, finInt_eq h, funext (readInt_eq h)]

theorem pick_int (up : Bool) (a b : ℕ) :
    pick ty up a b = writeInt ty (if up then max (readInt ty a) (readInt ty b) else min (readInt ty a) (readInt ty b)) := by
  unfold pick
  rw [(intForm_eq h).1]
  cases up <;> rfl
end

/-! ### The least and the greatest of a line (R205) -/

/-- `c` is of a line and none of it has a lesser key, or with `up` a greater one. -/
def Best {α : Type} [LinearOrder α] (up : Bool) (key : ℕ → α) (cs : List ℕ) (c : ℕ) : Prop :=
  c ∈ cs ∧ ∀ c' ∈ cs, if up then key c' ≤ key c else key c ≤ key c'

section
variable {α : Type} [LinearOrder α] {up : Bool} {key : ℕ → α} {cs : List ℕ} {c e : ℕ}

theorem best_singleton : Best up key [c] c :=
  ⟨List.mem_singleton_self c, by simp⟩

theorem Best.keep (h : Best up key cs c) (he : if up then key e ≤ key c else key c ≤ key e) : Best up key (cs ++ [e]) c :=
  ⟨List.mem_append_left _ h.1, List.forall_mem_append.2 ⟨h.2, List.forall_mem_singleton.2 he⟩⟩

theorem Best.replace (h : Best up key cs c) (he : if up then key c ≤ key e else key e ≤ key c) : Best up key (cs ++ [e]) e := by
  refine ⟨List.mem_append_right _ (List.mem_singleton_self e), List.forall_mem_append.2 ⟨fun c' hc' => ?_, by simp⟩⟩
  have hc := h.2 c' hc'
  cases up
  · exact le_trans he hc
  · exact le_trans hc he
end

section
variable {ty : EType} {w step : ℕ} {sg : Bool} (h : intForm ty = some (w, step, sg))
include h

theorem best_int_foldl (up : Bool) (c : ℕ) (cs : List ℕ) :
    ∃ b, Best up (readInt ty) (c :: cs) b ∧ cs.foldl (pick ty up) (pick ty up c c) = writeInt ty (readInt ty b) := by
  refine foldl_line (Q := fun P d => ∃ b, Best up (readInt ty) P b ∧ d = writeInt ty (readInt ty b)) ?_ (fun P d e _ ih => ?_) cs
  · exact ⟨c, best_singleton, by rw [pick_int h, max_self, min_self, ite_self]⟩
  · obtain ⟨b, hb, rfl⟩ := ih
    rw [pick_int h, readInt_writeInt h]
    cases up with
    | false =>
      rcases le_total (readInt ty b) (readInt ty e) with hle | hle
      · exact ⟨b, hb.keep hle, congrArg _ (min_eq_left hle)⟩
      · exact ⟨e, hb.replace hle, congrArg _ (min_eq_right hle)⟩
    | true =>
      rcases le_total (readInt ty b) (readInt ty e) with hle | hle
      · exact ⟨e, hb.replace hle, congrArg _ (max_eq_right hle)⟩
      · exact ⟨b, hb.keep hle, congrArg _ (max_eq_left hle)⟩

/-- What a reduction of integers to the least or the greatest answers (R205). -/
theorem accOut_intBest {o : RKind} {up : Bool} (ho : o = if up then .max else .min) (md : RMode) (rd : Bool) {cs : List ℕ} (hcs : cs ≠ []) :
    ∃ c, Best up (readInt ty) cs c ∧
      accOut ty o md (cs.foldl (accStep ty o rd) .empty) = (intPlace w step sg (intVal w sg (c % 2 ^ w)), 0) := by
  obtain ⟨c, cs, rfl⟩ := List.exists_cons_of_ne_nil hcs
  obtain ⟨b, hb, hfold⟩ := best_int_foldl h up c cs
  have hpick : cs.foldl (codeOp ty o) (codeFirst ty o c) = cs.foldl (pick ty up) (pick ty up c c) := by
    subst ho
    cases up <;> rfl
  refine ⟨b, hb, ?_⟩
  rw [foldl_accStep_code (by cases up <;> simp [ho]), hpick, hfold, accOut, moveEl_writeInt, writeInt_eq h, readInt_eq h]
end

end Sys2Proof.Machine
end


section
/-! PROOF. Reductions of floating codes (O17). -/

namespace Sys2Proof.Machine
open Claims (floatType codeValue magnitude signBit IsFinite IsInfinite IsNaN withSign canonicalNaN infiniteResult Delivers)

/-! ### Exact values compared and added (R87, R193) -/

theorem numVal_eq_zero {s : Bool} {m : ℕ} {e : ℤ} (h : numVal s m e = 0) : m = 0 := by
  have habs := numVal_abs s m e
  rw [h, abs_zero] at habs
  exact_mod_cast (mul_eq_zero.1 habs.symm).resolve_right (by positivity)

theorem atExp_numVal (s : Bool) (m : ℕ) {e q : ℤ} (h : q ≤ e) : (atExp s m e q : ℝ) * 2 ^ q = numVal s m e := by
  have hpow : (2 : ℝ) ^ (e - q).toNat * 2 ^ q = 2 ^ e := by
    rw [← zpow_natCast, Int.toNat_of_nonneg (by omega), ← zpow_add₀ two_ne_zero, sub_add_cancel]
  unfold atExp numVal
  cases s <;> simp [mul_assoc, hpow]

theorem ofInt_numVal (v q : ℤ) (z : Bool) : numVal (if v = 0 then z else decide (v < 0)) v.natAbs q = (v : ℝ) * 2 ^ q := by
  rw [← numVal_int]
  split
  next h => rw [h, Int.natAbs_zero, numVal_zero, numVal_zero]
  next => rfl

section
variable (s r : Bool) (m n : ℕ) (e k : ℤ)

theorem lt_num : (FVal.num s m e).lt (.num r n k) = true ↔ numVal s m e < numVal r n k := by
  rw [← atExp_numVal s m (min_le_left e k), ← atExp_numVal r n (min_le_right e k), mul_lt_mul_iff_left₀ (by positivity), Int.cast_lt]
  exact decide_eq_true_iff

theorem eq_num : (FVal.num s m e).eq (.num r n k) = true ↔ numVal s m e = numVal r n k := by
  rw [← atExp_numVal s m (min_le_left e k), ← atExp_numVal r n (min_le_right e k), mul_left_inj' (by positivity), Int.cast_inj]
  exact decide_eq_true_iff

/-- The exact sum of two values, and the sign of a zero (R87). -/
theorem add_num (rd : Bool) : ∃ s' m' e', FVal.add rd (.num s m e) (.num r n k) = .num s' m' e'
    ∧ numVal s' m' e' = numVal s m e + numVal r n k ∧ (m = 0 ∧ n = 0 → s' = if s = r then s else rd)
    ∧ (¬(m = 0 ∧ n = 0) → numVal s' m' e' = 0 → s' = rd) := by
  by_cases h : m = 0 ∧ n = 0
  · obtain ⟨rfl, rfl⟩ := h
    exact ⟨_, 0, 0, by simp [FVal.add], by simp only [numVal_zero, add_zero], fun _ => rfl, fun h => absurd ⟨rfl, rfl⟩ h⟩
  · have hval := ofInt_numVal (atExp s m e (min e k) + atExp r n k (min e k)) (min e k) rd
    refine ⟨_, _, _, if_neg (by simpa using h), ?_, fun h' => absurd h' h, fun _ h0 => ?_⟩
    · rw [hval, Int.cast_add, add_mul, atExp_numVal s m (min_le_left e k), atExp_numVal r n (min_le_right e k)]
    · rw [hval] at h0
      exact if_pos (Int.cast_eq_zero.1 ((mul_eq_zero.1 h0).resolve_right (by positivity)))
end

/-! ### Codes compared (R193) -/

/-- The value of a code that is not a NaN, and its place among all such codes: -0 lies below +0. -/
noncomputable def floatKey (f : FFmt) (c : ℕ) : EReal := if IsInfinite f c then (if signBit f c then ⊥ else ⊤) else ((codeValue f c : ℝ) : EReal)
noncomputable def floatRank (f : FFmt) (c : ℕ) : EReal ×ₗ Bool := toLex (floatKey f c, !signBit f c)

section
variable {f : FFmt} {a b : ℕ}

theorem floatRank_lt : floatRank f a < floatRank f b ↔
    floatKey f a < floatKey f b ∨ floatKey f a = floatKey f b ∧ signBit f a = true ∧ signBit f b = false := by
  rw [floatRank, floatRank, Prod.Lex.toLex_lt_toLex]
  cases signBit f a <;> cases signBit f b <;> simp

theorem not_isNaN_iff : ¬IsNaN f a ↔ IsFinite f a ∨ IsInfinite f a := by
  rw [not_and_or, not_not, not_not]

theorem not_infinite_of_finite (h : IsFinite f a) : ¬IsInfinite f a :=
  fun hi => absurd (f.par_layout.2.2 _ hi).1 (Nat.not_lt.2 h)

theorem floatKey_infinite (h : IsInfinite f a) : floatKey f a = if signBit f a then ⊥ else ⊤ := if_pos h

theorem floatKey_finite (h : IsFinite f a) : floatKey f a = ((codeValue f a : ℝ) : EReal) := if_neg (not_infinite_of_finite h)

theorem value_isNan : (f.value a).isNan = true ↔ IsNaN f a := by
  refine ⟨fun h => by_contra fun hn => ?_, fun h => by rw [value_nan h]; rfl⟩
  rcases not_isNaN_iff.1 hn with hfin | hinf
  · obtain ⟨m, e, hv, -⟩ := value_finite hfin
    simp [hv, FVal.isNan] at h
  · simp [value_infinite hinf, FVal.isNan] at h

theorem value_sign (h : ¬IsNaN f a) : (f.value a).sign = signBit f a := by
  rcases not_isNaN_iff.1 h with hfin | hinf
  · obtain ⟨m, e, hv, -⟩ := value_finite hfin
    rw [hv]
    rfl
  · rw [value_infinite hinf]
    rfl

theorem value_compare (ha : ¬IsNaN f a) (hb : ¬IsNaN f b) :
    ((f.value a).lt (f.value b) = true ↔ floatKey f a < floatKey f b) ∧ ((f.value a).eq (f.value b) = true ↔ floatKey f a = floatKey f b) := by
  rcases not_isNaN_iff.1 ha with hfa | hia <;> rcases not_isNaN_iff.1 hb with hfb | hib
  · obtain ⟨m, e, hv, hc⟩ := value_finite hfa
    obtain ⟨n, k, hw, hd⟩ := value_finite hfb
    rw [hv, hw, floatKey_finite hfa, floatKey_finite hfb, hc, hd, EReal.coe_lt_coe_iff, EReal.coe_eq_coe_iff]
    exact ⟨lt_num .., eq_num ..⟩
  · obtain ⟨m, e, hv, -⟩ := value_finite hfa
    rw [hv, value_infinite hib, floatKey_finite hfa, floatKey_infinite hib]
    cases signBit f b <;> simp [FVal.lt, FVal.eq]
  · obtain ⟨n, k, hw, -⟩ := value_finite hfb
    rw [hw, value_infinite hia, floatKey_infinite hia, floatKey_finite hfb]
    cases signBit f a <;> simp [FVal.lt, FVal.eq]
  · rw [value_infinite hia, value_infinite hib, floatKey_infinite hia, floatKey_infinite hib]
    cases signBit f a <;> cases signBit f b <;> simp [FVal.lt, FVal.eq]

theorem value_below (ha : ¬IsNaN f a) (hb : ¬IsNaN f b) : (f.value a).below (f.value b) = true ↔ floatRank f a < floatRank f b := by
  obtain ⟨hlt, heq⟩ := value_compare ha hb
  rw [floatRank_lt, ← hlt, ← heq, FVal.below, value_sign ha, value_sign hb]
  simp [and_assoc]
end

/-! ### The least and the greatest of a line (R205) -/

theorem Best.pick {α : Type} [LinearOrder α] {up : Bool} {key : ℕ → α} {cs : List ℕ} {c e : ℕ} (h : Best up key cs c) :
    Best up key (cs ++ [e]) (if (if up then key c < key e else key e < key c) then e else c) := by
  cases up with
  | false =>
    simp only [Bool.false_eq_true, if_false]
    split
    next hlt => exact h.replace hlt.le
    next hle => exact h.keep (not_lt.1 hle)
  | true =>
    simp only [if_true]
    split
    next hlt => exact h.replace hlt.le
    next hle => exact h.keep (not_lt.1 hle)

section
variable {ty : EType} {f : FFmt} (hf : kindOf ty = .flt f)
include hf

theorem pick_nan (up : Bool) {a b : ℕ} (h : IsNaN f a ∨ IsNaN f b) : pick ty up a b = canonicalNaN f := by
  unfold pick
  rw [hf]
  exact if_pos (by simpa [value_isNan] using h)

theorem pick_float (up : Bool) {a b : ℕ} (ha : ¬IsNaN f a) (hb : ¬IsNaN f b) :
    pick ty up a b = if (if up then floatRank f a < floatRank f b else floatRank f b < floatRank f a) then b else a := by
  have hnan : ¬((f.value a).isNan || (f.value b).isNan) = true := by simp [value_isNan, ha, hb]
  unfold pick
  rw [hf]
  refine (if_neg hnan).trans ?_
  cases up
  · exact (if_neg Bool.false_ne_true).trans (if_congr (by simpa using value_below hb ha) rfl rfl)
  · exact (if_pos rfl).trans (if_congr (by simpa using value_below ha hb) rfl rfl)

variable (hnan : f.par.nan.isSome = true)
include hnan

omit hf in
theorem canonicalNaN_isNaN : IsNaN f (canonicalNaN f) := by
  revert hnan
  cases f <;> decide

/-- A NaN of the line is the answer; else a code that none is past. -/
def FloatBest (f : FFmt) (up : Bool) (cs : List ℕ) (d : ℕ) : Prop :=
  ((∃ c ∈ cs, IsNaN f c) → d = canonicalNaN f) ∧ ((∀ c ∈ cs, ¬IsNaN f c) → Best up (floatRank f) cs d)

theorem floatBest_foldl (up : Bool) (c : ℕ) (cs : List ℕ) : FloatBest f up (c :: cs) (cs.foldl (pick ty up) (pick ty up c c)) := by
  refine foldl_line (Q := FloatBest f up) ⟨fun h => ?_, fun h => ?_⟩ (fun P d e _ ih => ⟨fun h => ?_, fun h => ?_⟩) cs
  · exact pick_nan hf up (Or.inl (by simpa using h))
  · have hc := h c (List.mem_singleton_self c)
    rw [pick_float hf up hc hc, ite_self]
    exact best_singleton
  · by_cases hP : ∃ c ∈ P, IsNaN f c
    · rw [ih.1 hP]
      exact pick_nan hf up (Or.inl (canonicalNaN_isNaN hnan))
    · obtain ⟨c, hc, hcn⟩ := h
      rcases List.mem_append.1 hc with hc | hc
      · exact absurd ⟨c, hc, hcn⟩ hP
      · exact pick_nan hf up (Or.inr (List.mem_singleton.1 hc ▸ hcn))
  · have hb := ih.2 fun c hc => h c (List.mem_append_left _ hc)
    have hd := h d (List.mem_append_left _ hb.1)
    have he := h e (List.mem_append_right _ (List.mem_singleton_self e))
    rw [pick_float hf up hd he]
    exact hb.pick

/-- What a reduction of floating codes to the least or the greatest answers (R205). -/
theorem accOut_floatBest {o : RKind} {up : Bool} (ho : o = if up then .max else .min) (md : RMode) (rd : Bool) {cs : List ℕ} (hcs : cs ≠ []) :
    ∃ d, FloatBest f up cs d ∧ accOut ty o md (cs.foldl (accStep ty o rd) .empty) = (d, 0) := by
  obtain ⟨c, cs, rfl⟩ := List.exists_cons_of_ne_nil hcs
  have hpick : cs.foldl (codeOp ty o) (codeFirst ty o c) = cs.foldl (pick ty up) (pick ty up c c) := by
    subst ho
    cases up <;> rfl
  have hne : ty ≠ .x48 := by rintro rfl; cases hf
  refine ⟨_, floatBest_foldl hf hnan up c cs, ?_⟩
  rw [foldl_accStep_code (by cases up <;> simp [ho]), hpick, accOut, moveEl_of_ne hne]
end

/-! ### The exact sum of a line (R205) -/

/-- A line has an infinity of a sign. -/
def HasInf (f : FFmt) (cs : List ℕ) (s : Bool) : Prop := ∃ c ∈ cs, IsInfinite f c ∧ signBit f c = s
/-- A line is all zeros of a sign. -/
def AllZeros (f : FFmt) (cs : List ℕ) (s : Bool) : Prop := ∀ c ∈ cs, (codeValue f c : ℝ) = 0 ∧ signBit f c = s

/-- The sum of a line: a NaN, an invalid one, an infinity, or its exact value with the sign of a zero (R87). -/
structure SumOf (f : FFmt) (rd : Bool) (cs : List ℕ) (v : FVal) : Prop where
  nan : (∃ c ∈ cs, IsNaN f c) → v = .nan
  inv : (∀ c ∈ cs, ¬IsNaN f c) → (∀ s, HasInf f cs s) → v = .inv
  inf : ∀ s, (∀ c ∈ cs, ¬IsNaN f c) → HasInf f cs s → ¬HasInf f cs (!s) → v = .inf s
  num : (∀ c ∈ cs, IsFinite f c) → ∃ s m e, v = .num s m e ∧ numVal s m e = (cs.map fun c => (codeValue f c : ℝ)).sum
    ∧ (numVal s m e = 0 → (∀ z, AllZeros f cs z → s = z) ∧ ((∀ z, ¬AllZeros f cs z) → s = rd))

theorem add_nan_right (rd : Bool) (v : FVal) : FVal.add rd v .nan = .nan := by
  cases v <;> rfl

section
variable {f : FFmt} {rd : Bool} {P : List ℕ} {v : FVal} {c e : ℕ}

theorem hasInf_append {s : Bool} : HasInf f (P ++ [e]) s ↔ HasInf f P s ∨ IsInfinite f e ∧ signBit f e = s := by
  simp only [HasInf, List.mem_append, List.mem_singleton, or_and_right, exists_or, exists_eq_left]

theorem allZeros_append {s : Bool} : AllZeros f (P ++ [e]) s ↔ AllZeros f P s ∧ (codeValue f e : ℝ) = 0 ∧ signBit f e = s := by
  simp only [AllZeros, List.forall_mem_append, List.forall_mem_singleton]

theorem sumOf_singleton : SumOf f rd [c] (f.value c) where
  nan h := value_nan (by simpa using h)
  inv _ h := by
    have ht := h true
    have hf := h false
    simp only [HasInf, List.mem_singleton, exists_eq_left] at ht hf
    exact absurd (ht.2.symm.trans hf.2) (by decide)
  inf s _ h _ := by
    simp only [HasInf, List.mem_singleton, exists_eq_left] at h
    rw [value_infinite h.1, h.2]
  num h := by
    obtain ⟨m, k, hv, hc⟩ := value_finite (h c (List.mem_singleton_self c))
    refine ⟨_, m, k, hv, by rw [List.map_singleton, List.sum_singleton, hc], fun h0 => ⟨fun z hz => ?_, fun hz => ?_⟩⟩
    · exact (hz c (List.mem_singleton_self c)).2
    · exact absurd (List.forall_mem_singleton.2 ⟨hc.trans h0, rfl⟩) (hz (signBit f c))

/-- A NaN is added. -/
theorem SumOf.append_nan (he : IsNaN f e) : SumOf f rd (P ++ [e]) (FVal.add rd v (f.value e)) where
  nan _ := by rw [value_nan he, add_nan_right]
  inv h := absurd he (h e (by simp))
  inf _ h := absurd he (h e (by simp))
  num h := absurd (h e (by simp)) he.1

/-- A NaN of a line to which none is added is there before. -/
theorem nan_before (he : ¬IsNaN f e) (h : ∃ c ∈ P ++ [e], IsNaN f c) : ∃ c ∈ P, IsNaN f c := by
  obtain ⟨c, hc, hn⟩ := h
  rcases List.mem_append.1 hc with hc | hc
  · exact ⟨c, hc, hn⟩
  · exact absurd (List.mem_singleton.1 hc ▸ hn) he

theorem SumOf.add_infinity (h : SumOf f rd P v) (hP : ∀ c ∈ P, ¬IsNaN f c) (t : Bool) :
    (HasInf f P (!t) → FVal.add rd v (.inf t) = .inv) ∧ (¬HasInf f P (!t) → FVal.add rd v (.inf t) = .inf t) := by
  by_cases ht : HasInf f P t
  · refine ⟨fun hnt => ?_, fun hnt => ?_⟩
    · rw [h.inv hP fun s => by cases s <;> cases t <;> assumption]
      rfl
    · rw [h.inf t hP ht hnt]
      exact if_pos rfl
  · refine ⟨fun hnt => ?_, fun hnt => ?_⟩
    · rw [h.inf (!t) hP hnt (by rwa [Bool.not_not])]
      exact if_neg (by simp)
    · obtain ⟨s, m, k, hv, -⟩ := h.num fun c hc => (not_isNaN_iff.1 (hP c hc)).resolve_right fun hi => by
        by_cases hs : signBit f c = t
        · exact ht ⟨c, hc, hi, hs⟩
        · exact hnt ⟨c, hc, hi, Bool.eq_not_of_ne hs⟩
      rw [hv]
      rfl

/-- An infinity is added. -/
theorem SumOf.append_inf (h : SumOf f rd P v) (he : IsInfinite f e) : SumOf f rd (P ++ [e]) (FVal.add rd v (f.value e)) where
  nan hn := by
    rw [h.nan (nan_before (fun hn => hn.2 he) hn)]
    rfl
  inv hn hi := by
    rw [value_infinite he]
    refine (h.add_infinity (fun c hc => hn c (List.mem_append_left _ hc)) _).1 ((hasInf_append.1 (hi _)).resolve_right fun hs => ?_)
    exact Bool.not_ne_self _ hs.2.symm
  inf s hn hs hns := by
    have hne : signBit f e = s := by
      by_contra hne
      exact hns (hasInf_append.2 (Or.inr ⟨he, Bool.eq_not_of_ne hne⟩))
    rw [value_infinite he, hne]
    exact (h.add_infinity (fun c hc => hn c (List.mem_append_left _ hc)) s).2 fun hi => hns (hasInf_append.2 (Or.inl hi))
  num hfin := absurd he (not_infinite_of_finite (hfin e (by simp)))

/-- A finite code is added. -/
theorem SumOf.append_num (h : SumOf f rd P v) (he : IsFinite f e) : SumOf f rd (P ++ [e]) (FVal.add rd v (f.value e)) := by
  obtain ⟨n, k, hw, hd⟩ := value_finite he
  have hbefore {s : Bool} (hi : HasInf f (P ++ [e]) s) : HasInf f P s :=
    (hasInf_append.1 hi).resolve_right fun hi => not_infinite_of_finite he hi.1
  rw [hw]
  refine ⟨fun hn => ?_, fun hn hi => ?_, fun s hn hs hns => ?_, fun hfin => ?_⟩
  · rw [h.nan (nan_before (fun hn => hn.1 he) hn)]
    rfl
  · rw [h.inv (fun c hc => hn c (List.mem_append_left _ hc)) fun s => hbefore (hi s)]
    rfl
  · rw [h.inf s (fun c hc => hn c (List.mem_append_left _ hc)) (hbefore hs) fun hi => hns (hasInf_append.2 (Or.inl hi))]
    rfl
  · obtain ⟨s, m, j, hv, hsum, hzero⟩ := h.num fun c hc => hfin c (List.mem_append_left _ hc)
    obtain ⟨s', m', j', hadd, hval, hboth, hone⟩ := add_num s (signBit f e) m n j k rd
    refine ⟨s', m', j', by rw [hv, hadd], ?_, fun h0 => ?_⟩
    · rw [hval, hsum, ← hd, List.map_append, List.sum_append, List.map_singleton, List.sum_singleton]
    by_cases hmn : m = 0 ∧ n = 0
    · have hs0 : numVal s m j = 0 := by rw [hmn.1, numVal_zero]
      have he0 : (codeValue f e : ℝ) = 0 := by rw [hd, hmn.2, numVal_zero]
      obtain ⟨hsame, hmixed⟩ := hzero hs0
      rw [hboth hmn]
      refine ⟨fun z hz => ?_, fun hz => ?_⟩
      · obtain ⟨hPz, -, hez⟩ := allZeros_append.1 hz
        rw [hsame z hPz, hez, if_pos rfl]
      · split
        next hse =>
          refine hmixed fun z hPz => hz z (allZeros_append.2 ⟨hPz, he0, ?_⟩)
          rw [← hse, hsame z hPz]
        next => rfl
    · rw [hone hmn h0]
      refine ⟨fun z hz => absurd ?_ hmn, fun _ => rfl⟩
      obtain ⟨hPz, he0, -⟩ := allZeros_append.1 hz
      refine ⟨numVal_eq_zero (hsum.trans ?_), numVal_eq_zero (hd.symm.trans he0)⟩
      exact List.sum_eq_zero fun r hr => by
        obtain ⟨c, hc, rfl⟩ := List.mem_map.1 hr
        exact (hPz c hc).1

theorem SumOf.append (h : SumOf f rd P v) : SumOf f rd (P ++ [e]) (FVal.add rd v (f.value e)) := by
  by_cases he : IsNaN f e
  · exact .append_nan he
  · rcases not_isNaN_iff.1 he with hfin | hinf
    · exact h.append_num hfin
    · exact h.append_inf hinf
end

/-- What a reduction of floating codes accumulates with its sum (R205). -/
theorem accOut_floatSum {ty : EType} {f : FFmt} (hf : kindOf ty = .flt f) (md : RMode) (rd : Bool) {cs : List ℕ} (hcs : cs ≠ []) :
    ∃ v, SumOf f rd cs v ∧ accOut ty .add md (cs.foldl (accStep ty .add rd) .empty) = f.round md v := by
  obtain ⟨c, cs, rfl⟩ := List.exists_cons_of_ne_nil hcs
  refine ⟨_, foldl_line (Q := SumOf f rd) sumOf_singleton (fun P v e _ h => h.append) cs, ?_⟩
  rw [foldl_accStep_sum hf]
  simp only [accOut, hf]

/-- An infinity is delivered (R89). -/
theorem round_inf (f : FFmt) (md : RMode) (s : Bool) : f.round md (.inf s) = infiniteResult f md s := by
  unfold FFmt.round infiniteResult
  dsimp only
  cases f.par.inf with
  | none => rfl
  | some i => cases md.sat <;> rfl

end Sys2Proof.Machine
end


section
/-! PROOF. What reductions and scans make of a line, and the words of the vector unit with a register result (O17). -/

namespace Sys2Proof.Machine
open Claims (floatType intForm codeValue signBit IsFinite IsInfinite IsNaN canonicalNaN infiniteResult Delivers Reduces KeepsExact neutral
  intVal intPlace intResult)

theorem floatType_eq {ty : EType} {f : FFmt} (h : floatType ty = some f) : kindOf ty = .flt f ∧ (ty ≠ .e2m1 → f.par.nan.isSome = true) := by
  refine ⟨?_, ?_⟩
  · cases ty <;> cases h <;> rfl
  · cases ty <;> cases h <;> simp [FFmt.par]

section
variable {ty : EType} {o : RKind} {md : RMode} {cs : List ℕ} (hcs : cs ≠ [])
include hcs

/-- What a line of floating codes sums to (R87-R89, R205). -/
theorem reduces_floatSum {f : FFmt} (hf : floatType ty = some f) (h4 : ty ≠ .e2m1) (hk : KeepsExact md) :
    let r := accOut ty .add md (cs.foldl (accStep ty .add (md.rnd == .rd)) .empty)
    let zeros (s : Bool) : Prop := ∀ c ∈ cs, (codeValue f c : ℝ) = 0 ∧ signBit f c = s
    ((∃ c ∈ cs, IsNaN f c) → r = (canonicalNaN f, 0))
    ∧ ((¬∃ c ∈ cs, IsNaN f c) → HasInf f cs true → HasInf f cs false → r = (canonicalNaN f, 1))
    ∧ (∀ s, (¬∃ c ∈ cs, IsNaN f c) → HasInf f cs s → ¬HasInf f cs (!s) → r = infiniteResult f md s)
    ∧ (∀ z, (∀ c ∈ cs, IsFinite f c) → (zeros z ∨ ¬zeros true ∧ ¬zeros false ∧ z = decide (md.rnd = .rd)) →
        Delivers f md ((cs.map fun c => (codeValue f c : ℝ)).sum) z r) := by
  obtain ⟨hkind, hnan⟩ := floatType_eq hf
  obtain ⟨n, hn⟩ := Option.isSome_iff_exists.1 (hnan h4)
  obtain ⟨v, hv, hr⟩ := accOut_floatSum hkind md (md.rnd == .rd) hcs
  intro r zeros
  have hr : r = f.round md v := hr
  rw [hr]
  refine ⟨fun h => ?_, fun h ht hf => ?_, fun s h hs hns => ?_, fun z hfin hz => ?_⟩
  · rw [hv.nan h]
    simp [FFmt.round, canonicalNaN, hn, VF.none]
  · rw [hv.inv (by simpa using h) fun s => by cases s <;> assumption]
    rfl
  · rw [hv.inf s (by simpa using h) hs hns, round_inf]
  · obtain ⟨s, m, e, rfl, hsum, hzero⟩ := hv.num hfin
    obtain ⟨hround0, hround⟩ := round_num f hk s m e hsum
    refine ⟨fun h0 => ?_, hround⟩
    obtain ⟨hsame, hmixed⟩ := hzero (hsum.trans h0)
    rw [hround0 h0]
    have hs : s = z := by
      rcases hz with hz | ⟨ht, hf, rfl⟩
      · exact hsame z hz
      · exact hmixed fun z => by cases z <;> assumption
    rw [hs]

/-- The least or the greatest floating code of a line (R193, R205). -/
theorem reduces_floatBest {f : FFmt} (hf : floatType ty = some f) (h4 : ty ≠ .e2m1) (ho : o = .min ∨ o = .max) (rd : Bool) :
    let r := accOut ty o md (cs.foldl (accStep ty o rd) .empty)
    let less (x y : ℕ) : Prop := floatKey f x < floatKey f y ∨ floatKey f x = floatKey f y ∧ signBit f x = true ∧ signBit f y = false
    ((∃ c ∈ cs, IsNaN f c) → r = (canonicalNaN f, 0))
    ∧ ((¬∃ c ∈ cs, IsNaN f c) → r.2 = 0 ∧ r.1 ∈ cs ∧ ∀ c ∈ cs, if o = .min then ¬less c r.1 else ¬less r.1 c) := by
  obtain ⟨hkind, hnan⟩ := floatType_eq hf
  have hup : o = if decide (o = .max) then .max else .min := by rcases ho with rfl | rfl <;> rfl
  obtain ⟨d, ⟨hbad, hbest⟩, hr⟩ := accOut_floatBest hkind (hnan h4) hup md rd hcs
  intro r less
  have hr : r = (d, 0) := hr
  rw [hr]
  refine ⟨fun h => by rw [hbad h], fun h => ⟨rfl, ?_⟩⟩
  obtain ⟨hmem, hall⟩ := hbest (by simpa using h)
  refine ⟨hmem, fun c hc => ?_⟩
  have hc := hall c hc
  rcases ho with rfl | rfl
  · exact fun hlt => not_lt.2 hc (floatRank_lt.2 hlt)
  · exact fun hlt => not_lt.2 hc (floatRank_lt.2 hlt)

/-- Integers of a line: their sum, the least and the greatest (R90, R205). -/
theorem reduces_int {w step : ℕ} {sg : Bool} (h : intForm ty = some (w, step, sg)) (rd : Bool) :
    let r := accOut ty o md (cs.foldl (accStep ty o rd) .empty)
    let I (c : ℕ) : ℤ := intVal w sg (c % 2 ^ w)
    (o = .add → r = intResult w step sg md.sat (cs.map I).sum)
    ∧ (o = .min → ∃ c ∈ cs, r = (intPlace w step sg (I c), 0) ∧ ∀ c' ∈ cs, I c ≤ I c')
    ∧ (o = .max → ∃ c ∈ cs, r = (intPlace w step sg (I c), 0) ∧ ∀ c' ∈ cs, I c' ≤ I c) := by
  have hI := readInt_eq h
  refine ⟨?_, ?_, ?_⟩
  · rintro rfl
    exact accOut_intSum h md rd hcs
  · rintro rfl
    obtain ⟨c, ⟨hc, hle⟩, hr⟩ := accOut_intBest h (up := false) rfl md rd hcs
    exact ⟨c, hc, hr, fun c' hc' => by simpa [hI] using hle c' hc'⟩
  · rintro rfl
    obtain ⟨c, ⟨hc, hle⟩, hr⟩ := accOut_intBest h (up := true) rfl md rd hcs
    exact ⟨c, hc, hr, fun c' hc' => by simpa [hI] using hle c' hc'⟩

/-- What is accumulated over a line is what the operation makes of it (R205). -/
theorem accOut_reduces (h4 : ty ≠ .e2m1) (hk : KeepsExact md) : Reduces ty o md cs (accOut ty o md (cs.foldl (accStep ty o (md.rnd == .rd)) .empty)) := by
  refine ⟨fun f hf => ⟨?_, fun ho => reduces_floatBest hcs hf h4 ho _⟩, fun w step sg h => reduces_int hcs h _, fun ho => ?_⟩
  · rintro rfl
    exact reduces_floatSum hcs hf h4 hk
  · obtain ⟨hfl, hbit⟩ := accOut_bits ho md (md.rnd == .rd) hcs
    refine ⟨hfl, fun b hb => (hbit b hb).trans ?_⟩
    rcases ho with rfl | rfl | rfl <;> exact Iff.rfl
end

/-! ### Reductions and scans (R189, R205, R206) -/

/-- The result of each enabled sub-element, and flags of it (R189, R191). -/
def Tells (ty : EType) (mk : Bool) (top : ℕ) (R : VRes) (P : ℕ → ℕ × VFlags → Prop) : Prop :=
  ∃ g : ℕ → VFlags, (∀ n, n < count ty → (!mk || top.testBit (stepOf ty / 4 * n)) = true → P n (el (stepOf ty) R.v n, g n))
    ∧ (∀ n, n < count ty → el (stepOf ty / 4) R.wr n = if !mk || top.testBit (stepOf ty / 4 * n) then 2 ^ (stepOf ty / 4) - 1 else 0)
    ∧ ∀ b, R.fl.getLsbD b = true ↔
        ∃ n, n < count ty ∧ (!mk || top.testBit (stepOf ty / 4 * n)) = true ∧ (g n).getLsbD b = true

theorem tells_perElem {ty : EType} {mk : Bool} {top : ℕ} {f : ℕ → ℕ × VFlags} {P : ℕ → ℕ × VFlags → Prop}
    (hf : ∀ n < count ty, (f n).1 < 2 ^ stepOf ty) (hP : ∀ n < count ty, P n (f n)) : Tells ty mk top (perElem ty mk top f) P :=
  ⟨fun n => (f n).2, fun n hn hon => by rw [perElem_el hf hn hon]; exact hP n hn, fun _ hn => perElem_wr hn, perElem_fl⟩

/-- The codes that a line takes part as (R205). -/
theorem lineCodes_eq {ty : EType} (h : (floatType ty).isSome ∨ (intForm ty).isSome) (h4 : ty ≠ .e2m1) (o : RKind) (col mk : Bool) (top a n : ℕ) :
    lineCodes ty o col mk top a n =
      (if col then (List.range 16).map (fun y => y * rowLen ty + n % rowLen ty)
        else (List.range (rowLen ty)).map (fun i => n / rowLen ty * rowLen ty + i)).map
      fun n => if !mk || top.testBit (stepOf ty / 4 * n) then el (stepOf ty) a n else neutral ty o := by
  rw [lineCodes, lineOf_placeOf]
  refine List.map_congr_left fun k _ => ?_
  rw [redEl, enabled, bit_eq_testBit, identity_eq_neutral h h4]

theorem lineCodes_ne_nil (ty : EType) (o : RKind) (col mk : Bool) (top a n : ℕ) (hn : n < count ty) : lineCodes ty o col mk top a n ≠ [] := by
  refine List.ne_nil_of_length_pos ?_
  rw [lineCodes, List.length_map]
  exact (Nat.zero_le _).trans_lt (placeOf_place hn (placeOf ty col n).1)

section
variable {ty : EType} (h4 : ty ≠ .e2m1) (x : Tile) (o : RKind) (col excl : Bool) (m : VMod) (a : ℕ)
include h4

theorem tells_reduce : Tells ty m.msk x.top (reduce x ty o col m a) fun n r =>
    Reduces ty o (modeAt x m.rnd m.sat n) (lineCodes ty o col m.msk x.top a n) r := by
  refine tells_perElem (f := fun n => accOut ty o (modeAt x m.rnd m.sat n) (redAcc ty o col m x.top a n)) (fun n hn => ?_) (fun n hn => ?_)
  · rw [redAcc_eq o col m x.top a hn]
    exact accOut_lt _ lineCodes_lt
  · rw [redAcc_eq o col m x.top a hn]
    exact accOut_reduces (lineCodes_ne_nil ty o col m.msk x.top a n hn) h4 (modeAt_keeps x m.rnd m.sat n)

theorem tells_scan : Tells ty m.msk x.top (scan x ty o col excl m a) fun n r =>
    let cs := (lineCodes ty o col m.msk x.top a n).take (if excl then (placeOf ty col n).2 else (placeOf ty col n).2 + 1)
    (cs = [] → r = (identity ty o, 0)) ∧ (cs ≠ [] → Reduces ty o (modeAt x m.rnd m.sat n) cs r) := by
  refine tells_perElem (f := fun n => accOut ty o (modeAt x m.rnd m.sat n) (scanAcc ty o col excl m x.top a n)) (fun n hn => ?_) (fun n hn => ?_)
  · rw [scanAcc_eq o col excl m x.top a hn]
    exact accOut_lt _ fun c hc => lineCodes_lt c (List.mem_of_mem_take hc)
  · rw [scanAcc_eq o col excl m x.top a hn]
    refine ⟨fun hcs => by rw [hcs]; rfl, fun hcs => accOut_reduces hcs h4 (modeAt_keeps x m.rnd m.sat n)⟩
end

end Sys2Proof.Machine

namespace Sys2Proof.Proofs
open Sys2Proof.Machine

theorem reductions : Claims.Reductions := by
  intro x ty col excl m a hty h4 L on_ code line place tells
  refine ⟨fun op => ?_, fun op => ?_⟩
  · have h := tells_reduce h4 x (RedOp.kind op) col m a
    simp only [lineCodes_eq hty h4] at h
    exact h
  · have h := tells_scan h4 x (ScanOp.kind op) col excl m a
    simp only [lineCodes_eq hty h4, identity_eq_neutral hty h4, ← List.map_take] at h
    cases col
    · exact h
    · exact h

/-- Settles O17: a word is its row of R187's table, whose operands are read or refused; moves, conversions and reductions are registers
collected from their sub-elements, and a line accumulates to what its operation makes of it. -/
theorem vectorWords : Obligations.VectorWords :=
  ⟨vectorWordsRule, vectorTraps, codedReads, movedLanes, placedConversions, reductions⟩

end Sys2Proof.Proofs
end

section
/-! PROOF. The events of the array: a product without columns (O24). -/

namespace Sys2Proof.Machine
open Claims (startable)

/-- A TMAC with checksums over one row and no column. -/
def noColumns : TCmd := ⟨1, 0, 0, 0, .mac false 0 64 1 0 .s8 true, ⟨false, 0, false, 0⟩⟩

/-- An entry of one row whose codes and scales are all ones: both scales are NaN. -/
def nanRow : FifoEnt := ⟨List.replicate 66 0xFF, 66, 10⟩

/-- A machine whose tile 0 has that command and that entry at their heads. -/
def columnless : State :=
  State.reset.setTile 0 { State.tile0 with cyc := 10, tda := { State.tda0 with queue := [noColumns], ofa := [nanRow] } }

/-- The state after the start. -/
def columnlessStarted : State := State.arrayStep 0 (columnless.startHead 0)

theorem columnless_startable : startable (columnless.tile 0) noColumns [] :=
  ⟨rfl, nofun, by decide, by decide, by decide⟩

theorem columnlessStarted_pend : (columnlessStarted.tile 0).pend.map (·.land) = [.bytes .reg [(0, [0, 0, 0, 0]), (64, [0, 0, 0, 0])]] := by
  decide

/-- The product covers no margin block. -/
theorem columnlessStarted_marg : (columnlessStarted.tile 0).tda.runs.map (·.marg) = [0] := by
  have h : (columnlessStarted.tile 0).tda.runs.map (·.marg) = [Config.outOfBand 0 &&& coverOf 1 0 ||| 0] := rfl
  rw [h, show coverOf 1 0 = 0 by decide]
  simp

end Sys2Proof.Machine

namespace Sys2Proof.Proofs
open Sys2Proof.Machine

/-- Refutes O24: a TMAC whose checksums sum no column adds nothing and leaves its accumulator, where the statement has the NaN scale of its
row make the sum a NaN: the scales of a row take part in a sum with its products alone (R101, R225). No word pushes such a command (R139). -/
theorem not_arrayEvents : ¬ Obligations.ArrayEvents := by
  rintro ⟨hstarts, -, -⟩
  obtain ⟨-, -, -, hmac⟩ := hstarts columnless 0 noColumns [] columnless_startable
  obtain ⟨s', r, out, hexec, hstarted, -, -, -, -, -, -, hsums⟩ :=
    hmac false 0 64 1 0 .s8 true nanRow [] rfl ⟨rfl, rfl, rfl, rfl⟩ (fun _ h => nomatch h) rfl (by decide)
  have hs : s' = columnlessStarted := (Host.Outcome.next.inj hexec).symm
  obtain ⟨-, -, -, hruns, -, -, hpend, -⟩ := hstarted
  rw [hs] at hruns hpend
  have hmarg : r.marg = 0 := by
    have h : [0] = [r.marg] := columnlessStarted_marg.symm.trans (congrArg (List.map (·.marg)) hruns)
    exact (List.singleton_inj.1 h).symm
  have hout : out = [(0, [0, 0, 0, 0]), (64, [0, 0, 0, 0])] := by
    have h : _ = [Land.bytes .reg out] := columnlessStarted_pend.symm.trans (congrArg (List.map (·.land)) hpend)
    exact (Land.bytes.inj (List.singleton_inj.1 h)).2.symm
  obtain ⟨fl, hproduct, -⟩ := hsums (by decide) (fun k hk => by omega)
  have hsum := hproduct 0 0 (by decide) (by decide) fun v w _ _ => by rw [hmarg]; exact BitVec.getLsbD_zero
  have hnan := hsum.1 (Or.inr ⟨0, by decide, Or.inl ⟨0, by decide, by decide⟩⟩)
  rw [hout] at hnan
  have hcode : 0 = 0x7FC00000 := congrArg Prod.fst hnan
  exact absurd hcode (by decide)

end Sys2Proof.Proofs
end

section
/-! PROOF. What TMAC and TMACX add to the accumulator (O25). -/

namespace Sys2Proof.Machine
open Claims (codeValue magnitude signBit IsFinite IsInfinite IsNaN withSign Delivers AddsTerms)

/-- A code is its sign and its magnitude. -/
theorem withSign_signBit {f : FFmt} {c : ℕ} (h : c < 2 ^ f.par.width) : withSign f (signBit f c) (magnitude f c) = c := by
  have hw : 2 ^ f.par.width = 2 ^ (f.par.width - 1) * 2 := by rw [← pow_succ, Nat.sub_add_cancel f.par_layout.1]
  have hdiv := Nat.div_add_mod c (2 ^ (f.par.width - 1))
  have hlt : c / 2 ^ (f.par.width - 1) < 2 := Nat.div_lt_of_lt_mul (hw ▸ h)
  unfold withSign signBit magnitude
  rw [Nat.testBit_eq_decide_div_mod_eq, Nat.mod_eq_of_lt hlt]
  generalize c / 2 ^ (f.par.width - 1) = k at *
  interval_cases k <;> simpa using hdiv

/-- An integer times a power of two is rounded once; an exact zero has the sign that it is given (R88). -/
theorem round_ofInt (f : FFmt) {md : RMode} (hk : md.draw 0 = false) (v q : ℤ) (z : Bool) {w : ℝ} (hw : (v : ℝ) * 2 ^ q = w) :
    Delivers f md w z (f.round md (FVal.ofInt v q z)) := by
  obtain ⟨hzero, hround⟩ := round_num f hk _ v.natAbs q ((ofInt_numVal v q z).trans hw)
  refine ⟨fun h0 => ?_, hround⟩
  have hv : v = 0 := Int.cast_eq_zero.1 ((mul_eq_zero.1 (hw.trans h0)).resolve_right (by positivity))
  rw [if_pos hv] at hzero
  rw [← hzero h0, FVal.ofInt, if_pos hv]

/-! ### Sums of 48 bits (R99, R103) -/

/-- wrap48 keeps an integer modulo 2^48, in the signed range. -/
theorem wrap48_spec (v : ℤ) : wrap48 v < 2 ^ 47 ∧ -(2 ^ 47) ≤ wrap48 v ∧ (wrap48 v - v) % 2 ^ 48 = 0 := by
  unfold wrap48 sext toBitsN
  norm_num
  split <;> omega

/-! ### Terms (R101) -/

/-- The value of a term. -/
noncomputable def Dy.val (t : Dy) : ℝ := (t.v : ℝ) * 2 ^ t.e

theorem Dy.val_eq_zero {t : Dy} : t.val = 0 ↔ t.v = 0 := by
  rw [Dy.val, mul_eq_zero, Int.cast_eq_zero]
  exact or_iff_left (by positivity)

theorem Dy.log_val {t : Dy} (h : t.v ≠ 0) : Int.log 2 |t.val| = floorLog2 t.v.natAbs t.e := by
  rw [← log_numVal _ (Int.natAbs_pos.2 h), Dy.val, abs_mul, Nat.cast_natAbs, Int.cast_abs, abs_of_pos (by positivity : (0 : ℝ) < 2 ^ t.e)]

/-- A term in units of 2^q: what lies above them, and whether something is left. -/
theorem Dy.floorAt_spec (t : Dy) (q : ℤ) :
    (t.floorAt q).1 = ⌊t.val / 2 ^ q⌋ ∧ ((t.floorAt q).2 = true ↔ (⌊t.val / 2 ^ q⌋ : ℝ) * 2 ^ q ≠ t.val) := by
  have hq : (2 : ℝ) ^ q ≠ 0 := by positivity
  have hdiv : t.val / 2 ^ q = t.v * 2 ^ (t.e - q) := by rw [Dy.val, zpow_sub₀ two_ne_zero, mul_div_assoc]
  rw [ne_eq, ← eq_div_iff hq, hdiv]
  unfold Dy.floorAt
  split
  next h =>
    have hint : (t.v : ℝ) * 2 ^ (t.e - q) = ((t.v * 2 ^ (t.e - q).toNat : ℤ) : ℝ) := by
      push_cast
      rw [← zpow_natCast, Int.toNat_of_nonneg (by omega)]
    rw [hint, Int.floor_intCast]
    simp
  next h =>
    have hpos : (0 : ℤ) < 2 ^ (q - t.e).toNat := by positivity
    have hfrac : (t.v : ℝ) * 2 ^ (t.e - q) = (t.v : ℝ) / ((2 ^ (q - t.e).toNat : ℤ) : ℝ) := by
      push_cast
      rw [← zpow_natCast, Int.toNat_of_nonneg (by omega), div_eq_mul_inv, ← zpow_neg, neg_sub]
    have hfloor : ⌊(t.v : ℝ) / ((2 ^ (q - t.e).toNat : ℤ) : ℝ)⌋ = t.v / 2 ^ (q - t.e).toNat := by
      exact_mod_cast Rat.floor_intCast_div_natCast t.v (2 ^ (q - t.e).toNat)
    dsimp only
    rw [hfrac, hfloor, Int.fdiv_eq_ediv_of_nonneg _ hpos.le, Int.fmod_eq_emod_of_nonneg _ hpos.le]
    refine ⟨rfl, ?_⟩
    rw [bne_iff_ne, not_iff_not, ← Int.dvd_iff_emod_eq_zero, eq_div_iff (by exact_mod_cast hpos.ne'), ← Int.cast_mul, Int.cast_inj]
    exact ⟨Int.ediv_mul_cancel, Dvd.intro_left _⟩

/-- `h` is the greatest floor_log2 of terms that are not zero, none where all are. -/
def TopOf (ts : List Dy) (h : Option ℤ) : Prop :=
  (h = none → ∀ t ∈ ts, t.v = 0)
  ∧ ∀ k, h = some k → (∃ t ∈ ts, t.v ≠ 0 ∧ floorLog2 t.v.natAbs t.e = k) ∧ ∀ t ∈ ts, t.v ≠ 0 → floorLog2 t.v.natAbs t.e ≤ k

/-- One more term. -/
def topStep (h : Option ℤ) (t : Dy) : Option ℤ :=
  if t.v = 0 then h
  else some (match h with
    | none => floorLog2 t.v.natAbs t.e
    | some y => max (floorLog2 t.v.natAbs t.e) y)

theorem TopOf.append {ts : List Dy} {h : Option ℤ} (hh : TopOf ts h) (t : Dy) : TopOf (ts ++ [t]) (topStep h t) := by
  obtain ⟨hnone, hsome⟩ := hh
  simp only [TopOf, List.forall_mem_append, List.forall_mem_singleton, topStep]
  by_cases ht : t.v = 0
  · rw [if_pos ht]
    refine ⟨fun h => ⟨hnone h, ht⟩, fun k hk => ?_⟩
    obtain ⟨⟨u, hu, hlog⟩, hle⟩ := hsome k hk
    exact ⟨⟨u, List.mem_append_left _ hu, hlog⟩, hle, fun h => absurd ht h⟩
  · have htmem : t ∈ ts ++ [t] := List.mem_append_right _ (List.mem_singleton_self t)
    rw [if_neg ht]
    refine ⟨nofun, fun k hk => ?_⟩
    cases h with
    | none =>
      cases hk
      exact ⟨⟨t, htmem, ht, rfl⟩, fun u hu hne => absurd (hnone rfl u hu) hne, fun _ => le_rfl⟩
    | some y =>
      obtain ⟨⟨u, hu, hne, hlog⟩, hle⟩ := hsome y rfl
      cases hk
      refine ⟨?_, fun u hu hne => (hle u hu hne).trans (le_max_right ..), fun _ => le_max_left ..⟩
      rcases le_total y (floorLog2 t.v.natAbs t.e) with hyt | hty
      · exact ⟨t, htmem, ht, (max_eq_left hyt).symm⟩
      · exact ⟨u, List.mem_append_left _ hu, hne, hlog.trans (max_eq_right hty).symm⟩

theorem topLog_spec (ts : List Dy) : TopOf ts (topLog ts) := by
  induction ts using List.reverseRecOn with
  | nil => exact ⟨fun _ => nofun, nofun⟩
  | append_singleton ts t ih =>
    rw [topLog, List.foldl_append]
    exact ih.append t

/-! ### tmac_f32 (R101, R102) -/

/-- The accumulator as a term. -/
def accTerm (s : Bool) (m : ℕ) (e : ℤ) : Dy := ⟨if s then -(m : ℤ) else m, e⟩

theorem accTerm_val (s : Bool) (m : ℕ) (e : ℤ) : (accTerm s m e).val = numVal s m e := by
  unfold accTerm Dy.val numVal
  cases s <;> simp

/-- The sum of terms in units of 2^q, twice, and one where something is left below them. -/
def floorSum (list : List Dy) (q : ℤ) : ℤ :=
  2 * ((list.map fun t => t.floorAt q).map (·.1)).sum + if (list.map fun t => t.floorAt q).any (·.2) then 1 else 0

section
variable {acc : ℕ} (terms : List Dy) {nan : Bool}

theorem tmacF32_nan (h : IsNaN .f32 acc ∨ nan = true) : tmacF32 acc terms nan = (0x7FC00000, 0) := by
  unfold tmacF32
  rcases h with h | rfl
  · rw [value_nan h]
    rfl
  · cases FFmt.f32.value acc <;> rfl

theorem tmacF32_infinite (hacc : acc < 2 ^ 32) (h : IsInfinite .f32 acc) : tmacF32 acc terms false = (acc, 0) := by
  have hmag : 0x7F800000 = magnitude .f32 acc := Option.some.inj h
  have hinf (s : Bool) : f32Inf s = withSign .f32 s 0x7F800000 := by cases s <;> rfl
  unfold tmacF32
  rw [value_infinite h]
  exact congrArg (·, 0) ((hinf _).trans (hmag ▸ withSign_signBit hacc))

theorem tmacF32_finite {s : Bool} {m : ℕ} {e : ℤ} (h : FFmt.f32.value acc = .num s m e) : tmacF32 acc terms false =
    match topLog (accTerm s m e :: terms) with
    | none => (acc, 0)
    | some h => FFmt.f32.round .rne (FVal.ofInt (floorSum (accTerm s m e :: terms) (h - 64)) (h - 65) false) := by
  unfold tmacF32
  rw [h]
  rfl

/-- A bit as the number that a sum has of it. -/
theorem bit_cast (b : Bool) {p : Prop} (h : b = true ↔ p) : ∃ st : ℝ, (p → st = 1) ∧ (¬p → st = 0) ∧ ((if b then 1 else 0 : ℤ) : ℝ) = st := by
  cases b
  · exact ⟨0, fun hp => absurd (h.2 hp) Bool.false_ne_true, fun _ => rfl, Int.cast_zero⟩
  · exact ⟨1, fun _ => rfl, fun hp => absurd (h.1 rfl) hp, Int.cast_one⟩

/-- The sum of terms in units of 2^q with half a unit for what lies below them. -/
theorem floorSum_val (list : List Dy) (q : ℤ) : ∃ st : ℝ, ((∃ t ∈ list.map Dy.val, ⌊t / 2 ^ q⌋ * 2 ^ q ≠ t) → st = 1)
    ∧ ((∀ t ∈ list.map Dy.val, ⌊t / 2 ^ q⌋ * 2 ^ q = t) → st = 0)
    ∧ (floorSum list q : ℝ) = 2 * ((((list.map Dy.val).map fun t => ⌊t / 2 ^ q⌋).sum : ℤ) + st / 2) := by
  have hsum : ((list.map fun t => t.floorAt q).map (·.1)) = (list.map Dy.val).map fun t => ⌊t / 2 ^ q⌋ := by
    rw [List.map_map, List.map_map]
    exact List.map_congr_left fun t _ => (t.floorAt_spec q).1
  have hany : (list.map fun t => t.floorAt q).any (·.2) = true ↔ ∃ t ∈ list.map Dy.val, (⌊t / 2 ^ q⌋ : ℝ) * 2 ^ q ≠ t := by
    simp only [List.any_map, List.any_eq_true, Function.comp_apply, List.mem_map, exists_exists_and_eq_and, (Dy.floorAt_spec _ q).2]
  obtain ⟨st, hone, hzero, hcast⟩ := bit_cast _ hany
  refine ⟨st, hone, fun h => hzero (by simpa using h), ?_⟩
  unfold floorSum
  rw [hsum, Int.cast_add, Int.cast_mul, hcast]
  push_cast
  ring

/-- The floor_log2 of terms that a finite sum starts from. -/
theorem topLog_eq_some {list : List Dy} {h : ℤ} (hex : ∃ t ∈ list.map Dy.val, t ≠ 0 ∧ Int.log 2 |t| = h)
    (hle : ∀ t ∈ list.map Dy.val, t ≠ 0 → Int.log 2 |t| ≤ h) : topLog list = some h := by
  obtain ⟨_, hmem, hne, hlog⟩ := hex
  obtain ⟨t, ht, rfl⟩ := List.mem_map.1 hmem
  have hne := mt Dy.val_eq_zero.2 hne
  obtain ⟨hnone, hsome⟩ := topLog_spec list
  cases htop : topLog list with
  | none => exact absurd (hnone htop t ht) hne
  | some k =>
    obtain ⟨⟨u, hu, hune, hulog⟩, hmax⟩ := hsome k htop
    refine congrArg some (le_antisymm ?_ ?_)
    · rw [← hulog, ← Dy.log_val hune]
      exact hle u.val (List.mem_map_of_mem hu) (mt Dy.val_eq_zero.1 hune)
    · rw [← hlog, Dy.log_val hne]
      exact hmax t ht hne

theorem topLog_eq_none {list : List Dy} (h : ∀ t ∈ list.map Dy.val, t = 0) : topLog list = none := by
  simp only [List.forall_mem_map, Dy.val_eq_zero] at h
  cases htop : topLog list with
  | none => rfl
  | some k =>
    obtain ⟨⟨t, ht, hne, -⟩, -⟩ := (topLog_spec list).2 k htop
    exact absurd (h t ht) hne

theorem tmacF32_adds (hacc : acc < 2 ^ 32) : AddsTerms acc (nan = true) (terms.map Dy.val) (tmacF32 acc terms nan) := by
  cases nan with
  | true => exact ⟨fun _ => tmacF32_nan terms (Or.inr rfl), fun _ h => absurd rfl h, fun _ h => absurd rfl h, fun _ h => absurd rfl h⟩
  | false =>
    refine ⟨fun h => tmacF32_nan terms h, fun hinf _ => tmacF32_infinite terms hacc hinf, fun hfin _ => ?_, fun hfin _ h => ?_⟩
    all_goals
      obtain ⟨m, e, hv, hc⟩ := value_finite hfin
      rw [hc, ← accTerm_val, ← List.map_cons, tmacF32_finite terms hv]
    · intro hz
      rw [topLog_eq_none hz]
    · intro hex hle
      rw [topLog_eq_some hex hle]
      obtain ⟨st, hone, hzero, hval⟩ := floorSum_val (accTerm (signBit .f32 acc) m e :: terms) (h - 64)
      refine ⟨st, hone, hzero, round_ofInt .f32 rfl _ _ false ?_⟩
      rw [hval, show h - 64 = h - 65 + 1 by ring, zpow_add_one₀ two_ne_zero]
      ring
end

end Sys2Proof.Machine

namespace Sys2Proof.Proofs
open Sys2Proof.Machine
open Claims (magnitude IsFinite IsNaN)

theorem wideAccumulation : Claims.WideAccumulation := by
  intro acc ds hlo hhi r
  obtain ⟨hlt, hge, hmod⟩ := wrap48_spec (acc + ds.sum)
  refine ⟨hlt, hge, hmod, ?_, fun h => ?_⟩
  · simp [r, tmacX48]
  · have hr : ¬(acc + ds.sum < -(2 ^ 47)) ∧ ¬(2 ^ 47 ≤ acc + ds.sum) := by simpa [r, tmacX48] using h
    show wrap48 (acc + ds.sum) = acc + ds.sum
    omega

theorem tmacSpecialCases : Claims.TmacSpecialCases := by
  intro acc terms nan hacc
  obtain ⟨hnan, hinf, hzero, -⟩ := tmacF32_adds terms (nan := nan) hacc
  have hnan_iff : acc % 2 ^ 31 > 0x7F800000 → IsNaN .f32 acc := fun h =>
    ⟨fun hfin => absurd (show acc % 2 ^ 31 ≤ 0x7F7FFFFF from hfin) (by omega), fun hi => absurd (Option.some.inj hi : 0x7F800000 = acc % 2 ^ 31) (by omega)⟩
  refine ⟨fun h => hnan (Or.inl (hnan_iff h)), fun h => hnan (Or.inr h), fun h hn => hinf (congrArg some h.symm) (by simp [hn]), fun h hn hz => ?_⟩
  have hmag : magnitude .f32 acc = 0 := h
  refine hzero (show acc % 2 ^ 31 ≤ 0x7F7FFFFF by omega) (by simp [hn]) (List.forall_mem_cons.2 ⟨?_, ?_⟩)
  · rw [codeValue_eq, hmag]
    simp [FPar.steps]
  · exact List.forall_mem_map.2 fun t ht => Dy.val_eq_zero.2 (hz t ht)

theorem tmacSum : Claims.TmacSum := fun _ terms _ hacc => tmacF32_adds terms hacc

/-- Settles O25: wrap48 keeps its argument modulo 2^48; TMAC's sum is that of the floors of its terms, in units that the greatest of them
fixes, rounded once. -/
theorem arrayProducts : Obligations.ArrayProducts := ⟨wideAccumulation, tmacSpecialCases, tmacSum⟩

end Sys2Proof.Proofs
end

section
/-! PROOF. Integer sub-elements, masks and stochastic draws (O18). -/

namespace Sys2Proof.Machine
open Claims (intForm intVal codeOf intPlace intResult)

/-! ### Integer sub-elements (R81, R90, R192, R193, R195, R196) -/

section
variable {ty : EType} {w step : ℕ} {sg : Bool} (h : intForm ty = some (w, step, sg))
include h

theorem isSigned_eq : isSigned ty = sg := by
  rw [isSigned, (intForm_eq h).1]
  cases sg <;> rfl

/-- The range of the type (R81). -/
theorem loOf_eq : loOf ty = if sg then -2 ^ (w - 1) else 0 := by
  rw [loOf, isSigned_eq h, (intForm_eq h).2.1, intLo]

theorem hiOf_eq : hiOf ty = if sg then 2 ^ (w - 1) - 1 else 2 ^ w - 1 := by
  rw [hiOf, isSigned_eq h, (intForm_eq h).2.1, intHi]

theorem arithEl_int (o : Arith) (md : RMode) (a b c : ℕ) :
    arithEl ty o md a b c = intResult w step sg md.sat (o.onI (readInt ty a) (readInt ty b) (readInt ty c)) := by
  unfold arithEl
  rw [(intForm_eq h).1]
  exact finInt_eq h _ _

theorem absEl_signed (hsg : sg = true) (sat : Bool) (a : ℕ) : absEl ty sat a = intResult w step sg sat |readInt ty a| := by
  unfold absEl
  rw [(intForm_eq h).1, isSigned_eq h]
  exact (if_pos hsg).trans (by rw [finInt_eq h, Int.natCast_natAbs])

theorem absEl_unsigned (hsg : sg = false) (sat : Bool) (a : ℕ) : absEl ty sat a = (a, 0) := by
  unfold absEl
  rw [(intForm_eq h).1, isSigned_eq h]
  exact if_neg (by simp [hsg])

theorem negEl_int (sat : Bool) (a : ℕ) : negEl ty sat a = intResult w step sg (sat && sg) (-readInt ty a) := by
  unfold negEl
  rw [(intForm_eq h).1, isSigned_eq h]
  exact finInt_eq h _ _

/-- The negation of an unsigned code (R193). -/
theorem negEl_unsigned (hsg : sg = false) (sat : Bool) {a : ℕ} (ha : a < 2 ^ w) : negEl ty sat a = ((2 ^ w - a) % 2 ^ w, 0) := by
  obtain ⟨-, -, -, -, hstep, hx⟩ := intForm_eq h
  subst hsg
  have hw : w = step := hstep fun hty => absurd (hx hty) Bool.false_ne_true
  have hA : readInt ty a = a := by rw [readInt_eq h, Nat.mod_eq_of_lt ha]; rfl
  have hcode : codeOf w (-(a : ℤ)) = (2 ^ w - a) % 2 ^ w := by
    unfold codeOf
    zify [ha.le]
    rw [Int.toNat_of_nonneg (Int.emod_nonneg _ (by positivity)), Int.sub_emod_left]
  rw [negEl_int h, hA, Bool.and_false, ← hcode]
  refine Prod.ext ?_ rfl
  show intPlace w step false (-(a : ℤ)) = _
  rw [intPlace, ← hw]
  exact codeOf_intVal (toBitsN_lt w _)

theorem sarEl_int (a b : ℕ) : sarEl ty a b = intPlace w step sg ((intVal w true (a % 2 ^ w)).fdiv (2 ^ min (b % 2 ^ w) w)) := by
  unfold sarEl
  rw [writeInt_eq h, sext_eq_intVal, (intForm_eq h).2.1]

theorem shrEl_int (hne : ty ≠ .x48) (a : ℕ) {b : ℕ} (hb : b < 2 ^ step) : shrEl ty a b = if b < w then a / 2 ^ b else 0 := by
  obtain ⟨-, hw, -, -, hstep, -⟩ := intForm_eq h
  unfold shrEl
  rw [hw, hstep hne, Nat.mod_eq_of_lt hb]

theorem shlEl_below {b : ℕ} (hb : b % 2 ^ w < w) (sat : Bool) (a : ℕ) : shlEl ty sat a b = intResult w step sg sat (readInt ty a * 2 ^ (b % 2 ^ w)) := by
  unfold shlEl
  rw [(intForm_eq h).2.1]
  exact (if_pos hb).trans (finInt_eq h _ _)

/-- A shift by the width or more (R195). -/
theorem shlEl_past {b : ℕ} (hb : w ≤ b % 2 ^ w) (sat : Bool) (a : ℕ) : shlEl ty sat a b =
    if sat && readInt ty a ≠ 0 then (writeInt ty (if readInt ty a < 0 then loOf ty else hiOf ty), 32) else (0, 0) := by
  unfold shlEl
  rw [(intForm_eq h).2.1]
  exact if_neg (Nat.not_lt.2 hb)

theorem cmpEl_int (cc : VCond) {a b : ℕ} {p : Prop} [Decidable p] (hp : cmpI cc (readInt ty a) (readInt ty b) = decide p) :
    cmpEl ty cc a b = if p then 2 ^ step - 1 else 0 := by
  obtain ⟨hk, -, hs, -⟩ := intForm_eq h
  unfold cmpEl
  rw [hk, hs]
  exact if_congr (by rw [hp, decide_eq_true_iff]) rfl rfl
end

/-! ### Stochastic rounding (R92, R94) -/

/-- Binary digits, highest first. -/
theorem foldl_digits (d : ℕ → ℕ) (n : ℕ) :
    (List.range n).foldl (fun u i => 2 * u + d i) 0 = ((List.range n).map fun i => d i * 2 ^ (n - (i + 1))).sum := by
  induction n with
  | zero => rfl
  | succ n ih =>
    have hshift : ((List.range n).map fun i => d i * 2 ^ (n + 1 - (i + 1))) = (List.range n).map fun i => 2 * (d i * 2 ^ (n - (i + 1))) := by
      refine List.map_congr_left fun i hi => ?_
      have hi := List.mem_range.1 hi
      rw [show n + 1 - (i + 1) = n - (i + 1) + 1 by omega, pow_succ]
      ring
    rw [List.range_succ, List.foldl_append, List.map_append, List.sum_append, ih, hshift, List.sum_map_mul_left]
    simp

/-- The top bit of a double word. -/
theorem extractLsb_msb (v : DWord) : (v.extractLsb' 63 1).toNat = if v.msb then 1 else 0 := by
  rw [BitVec.msb_eq_decide, BitVec.extractLsb'_toNat, Nat.shiftRight_eq_div_pow]
  split <;> simp_all <;> omega

/-- The random bits of an element as a number (R94). -/
theorem srBits_eq (seed : DWord) (h idx : Word) : srBits seed h idx =
    ((List.range 24).map fun i => if (mix64 (seed ^^^ mix64 (h ++ idx) ^^^ BitVec.ofNat 64 (i + 1))).msb then 2 ^ (24 - (i + 1)) else 0).sum := by
  unfold srBits
  simp only [foldl_digits, extractLsb_msb, ite_mul, one_mul, zero_mul]

end Sys2Proof.Machine

namespace Sys2Proof.Proofs
open Sys2Proof.Machine

theorem integerElementsRule : Claims.IntegerElementsRule := by
  intro ty w step sg md a b c h ha hb hc A B C n lo hi fin put ones
  obtain ⟨-, -, -, -, hstep, hx⟩ := intForm_eq h
  have hA : readInt ty a = A := readInt_eq h a
  have hB : readInt ty b = B := readInt_eq h b
  have hC : readInt ty c = C := readInt_eq h c
  have harith (o : Arith) : arithEl ty o md a b c = fin (o.onI A B C) := by rw [arithEl_int h, hA, hB, hC]
  have hpick (up : Bool) : pick ty up a b = put (if up then max A B else min A B) := by rw [pick_int h, writeInt_eq h, hA, hB]
  have hcmp (cc : VCond) (p : Prop) [Decidable p] (hp : cmpI cc A B = decide p) : cmpEl ty cc a b = ones p :=
    cmpEl_int h cc (by rw [hA, hB, hp])
  have hlt (hsg : sg = false) : a < 2 ^ w := by
    rwa [hstep fun h => absurd (hx h) (by simp [hsg])]
  refine ⟨harith .add, harith .sub, fun hne => ⟨harith .mul, harith .fma, harith .fms, shrEl_int h hne a hb⟩, hpick false, hpick true,
    fun sat => ⟨fun hsg => ⟨?_, ?_⟩, fun hsg => ⟨absEl_unsigned h hsg sat a, negEl_unsigned h hsg sat (hlt hsg)⟩⟩,
    fun sat => ⟨fun hn => ?_, fun hn h0 => ?_, fun hn hsat => ⟨fun hneg => ?_, fun hpos => ?_⟩⟩, sarEl_int h a b,
    hcmp .eq _ rfl, hcmp .ne _ ?_, hcmp .lt _ rfl, hcmp .le _ rfl, hcmp .gt _ rfl, hcmp .ge _ rfl⟩
  · rw [absEl_signed h hsg, hA]
  · rw [negEl_int h, hA, hsg, Bool.and_true]
  · rw [shlEl_below h hn, hA]
  · rw [shlEl_past h hn, hA]
    rcases h0 with rfl | h0 <;> simp [*]
  · rw [shlEl_past h hn, hA, hsat, loOf_eq h, hiOf_eq h, writeInt_eq h]
    simp [hneg, hneg.ne, put, lo]
  · rw [shlEl_past h hn, hA, hsat, loOf_eq h, hiOf_eq h, writeInt_eq h]
    simp [hpos.not_gt, hpos.ne', put, hi]
  · exact Bool.eq_iff_iff.2 (by simp [cmpI])

theorem maskedElements : Claims.MaskedElements :=
  fun _ _ _ _ hf => ⟨fun _ hi => ⟨perElem_wr hi, perElem_el (fun k _ => hf k) hi⟩, perElem_fl⟩

theorem stochasticDraw : Claims.StochasticDraw :=
  ⟨fun seed h idx _ => by rw [srUp, srBits_eq], fun x r sat i => ⟨modeAt_keeps x r sat i, rfl⟩⟩

end Sys2Proof.Proofs
end

section
/-! PROOF. Arithmetic and compares of floating sub-elements (O18). -/

namespace Sys2Proof.Machine
open Claims (floatType codeValue magnitude signBit IsFinite IsInfinite IsNaN withSign canonicalNaN infiniteResult Delivers)

/-! ### Exact sums and products (R87, R192) -/

/-- The sign matters to an exact zero alone. -/
theorem delivers_sign {f : FFmt} {md : RMode} {v : ℝ} {s z : Bool} {r : ℕ × VFlags} (h : Delivers f md v s r) (hz : v = 0 → s = z) :
    Delivers f md v z r :=
  ⟨fun h0 => hz h0 ▸ h.1 h0, h.2⟩

theorem numVal_mul (s r : Bool) (m n : ℕ) (e k : ℤ) : numVal (s != r) (m * n) (e + k) = numVal s m e * numVal r n k := by
  unfold numVal
  rw [zpow_add₀ two_ne_zero]
  push_cast
  cases s <;> cases r <;> simp <;> ring

theorem numVal_not (s : Bool) (m : ℕ) (e : ℤ) : numVal (!s) m e = -numVal s m e := by
  unfold numVal
  cases s <;> simp

section
variable (f : FFmt) {md : RMode} (hk : md.draw 0 = false) (rd : Bool)
include hk

/-- A sum of two numbers is rounded once; of two zeros it keeps a common sign (R87). -/
theorem round_add (s r : Bool) (m n : ℕ) (e k : ℤ) {p : Prop} [Decidable p] (hp : p ↔ numVal s m e = 0 ∧ numVal r n k = 0 ∧ s = r) :
    Delivers f md (numVal s m e + numVal r n k) (if p then r else rd) (f.round md (FVal.add rd (.num s m e) (.num r n k))) := by
  obtain ⟨s', m', e', hadd, hval, hboth, hone⟩ := add_num s r m n e k rd
  rw [hadd]
  refine delivers_sign (round_num f hk s' m' e' hval) fun h0 => ?_
  by_cases hmn : m = 0 ∧ n = 0
  · obtain ⟨rfl, rfl⟩ := hmn
    rw [hboth ⟨rfl, rfl⟩]
    by_cases hsr : s = r
    · rw [if_pos hsr, if_pos (hp.2 ⟨numVal_zero .., numVal_zero .., hsr⟩), hsr]
    · rw [if_neg hsr, if_neg fun h => hsr (hp.1 h).2.2]
  · rw [hone hmn (hval.trans h0), if_neg]
    rw [hp]
    exact fun h => hmn ⟨numVal_eq_zero h.1, numVal_eq_zero h.2.1⟩
end

/-- A value, or with `k` its negation. -/
def FVal.signed (k : Bool) (v : FVal) : FVal := if k then v.neg else v

section
variable {f : FFmt} {a b c : ℕ}

theorem signed_nan (k : Bool) (h : IsNaN f c) : (f.value c).signed k = .nan := by
  rw [value_nan h]
  cases k <;> rfl

theorem signed_infinite (k : Bool) (h : IsInfinite f c) : (f.value c).signed k = .inf (signBit f c != k) := by
  rw [value_infinite h]
  cases k
  · exact congrArg FVal.inf (Bool.bne_false _).symm
  · exact congrArg FVal.inf (Bool.bne_true _).symm

theorem signed_finite (k : Bool) (h : IsFinite f c) : ∃ m e, (f.value c).signed k = .num (signBit f c != k) m e
    ∧ (if k then -(codeValue f c : ℝ) else codeValue f c) = numVal (signBit f c != k) m e
    ∧ ((codeValue f c : ℝ) = 0 ↔ numVal (signBit f c != k) m e = 0) := by
  obtain ⟨m, e, hv, hc⟩ := value_finite h
  rw [hv, hc]
  refine ⟨m, e, ?_, ?_⟩
  · cases k <;> simp [FVal.signed, FVal.neg]
  · cases k
    · rw [Bool.bne_false]
      exact ⟨rfl, Iff.rfl⟩
    · rw [Bool.bne_true, numVal_not]
      exact ⟨rfl, neg_eq_zero.symm⟩

theorem signed_ne_nan (k : Bool) (h : ¬IsNaN f c) : (f.value c).signed k ≠ .nan := by
  rcases not_isNaN_iff.1 h with hfin | hinf
  · obtain ⟨m, e, hv, -⟩ := signed_finite k hfin
    rw [hv]
    nofun
  · rw [signed_infinite k hinf]
    nofun

/-- A zero times an infinity (R192). -/
def InvalidProduct (f : FFmt) (a b : ℕ) : Prop :=
  (IsFinite f a ∧ (codeValue f a : ℝ) = 0) ∧ IsInfinite f b ∨ IsInfinite f a ∧ (IsFinite f b ∧ (codeValue f b : ℝ) = 0)

theorem mul_nan (h : IsNaN f a ∨ IsNaN f b) : FVal.mul (f.value a) (f.value b) = .nan := by
  rcases h with h | h
  · rw [value_nan h]
    rfl
  · rw [value_nan h]
    cases f.value a <;> rfl

theorem mul_invalid (h : InvalidProduct f a b) : FVal.mul (f.value a) (f.value b) = .inv := by
  rcases h with ⟨⟨hfin, h0⟩, hinf⟩ | ⟨hinf, hfin, h0⟩
  all_goals
    obtain ⟨m, e, hv, hc⟩ := value_finite hfin
    rw [hv, value_infinite hinf]
    exact if_pos (numVal_eq_zero (hc.symm.trans h0))

theorem mul_finite (ha : IsFinite f a) (hb : IsFinite f b) : ∃ m e, FVal.mul (f.value a) (f.value b) = .num (signBit f a != signBit f b) m e
    ∧ (codeValue f a : ℝ) * codeValue f b = numVal (signBit f a != signBit f b) m e := by
  obtain ⟨m, e, hv, hc⟩ := value_finite ha
  obtain ⟨n, k, hw, hd⟩ := value_finite hb
  exact ⟨m * n, e + k, by rw [hv, hw]; rfl, by rw [hc, hd, numVal_mul]⟩

/-- An infinity times a number that is not zero, or times an infinity. -/
theorem mul_infinite (ha : ¬IsNaN f a) (hb : ¬IsNaN f b) (hinf : IsInfinite f a ∨ IsInfinite f b) (hv : ¬InvalidProduct f a b) :
    FVal.mul (f.value a) (f.value b) = .inf (signBit f a != signBit f b) := by
  rcases not_isNaN_iff.1 ha with hfa | hia <;> rcases not_isNaN_iff.1 hb with hfb | hib
  · exact absurd hinf (not_or_intro (not_infinite_of_finite hfa) (not_infinite_of_finite hfb))
  · obtain ⟨m, e, hm, hc⟩ := value_finite hfa
    rw [hm, value_infinite hib]
    refine (if_neg fun h0 => hv (Or.inl ⟨⟨hfa, ?_⟩, hib⟩)).trans (congrArg FVal.inf bne_comm)
    rw [hc, h0, numVal_zero]
  · obtain ⟨m, e, hm, hc⟩ := value_finite hfb
    rw [hm, value_infinite hia]
    refine if_neg fun h0 => hv (Or.inr ⟨hia, hfb, ?_⟩)
    rw [hc, h0, numVal_zero]
  · rw [value_infinite hia, value_infinite hib]
    rfl
end

/-! ### Arithmetic of floating sub-elements (R87-R91, R192) -/

theorem nan_isSome {f : FFmt} {c : ℕ} (h : IsNaN f c) : f.par.nan.isSome = true := by
  have hlt : magnitude f c < 2 ^ (f.par.width - 1) := Nat.mod_lt _ (by positivity)
  obtain ⟨hfin, -⟩ := h
  cases f
  case e2m3 | e2m1 => exact absurd (Nat.le_of_lt_succ hlt) hfin
  all_goals rfl

/-- A NaN is canonical (R87). -/
theorem round_nan {f : FFmt} {c : ℕ} (h : IsNaN f c) (md : RMode) : f.round md .nan = (canonicalNaN f, 0) := by
  obtain ⟨n, hn⟩ := Option.isSome_iff_exists.1 (nan_isSome h)
  simp [FFmt.round, canonicalNaN, hn, VF.none]

theorem arithEl_float {ty : EType} {f : FFmt} (hf : floatType ty = some f) (o : Arith) (md : RMode) (a b c : ℕ) :
    arithEl ty o md a b c = f.round md (o.onF (decide (md.rnd = .rd)) (f.value a) (f.value b) (f.value c)) := by
  unfold arithEl
  rw [(floatType_eq hf).1]
  rfl

section
variable {ty : EType} {f : FFmt} (hf : floatType ty = some f) {md : RMode} {a b c : ℕ} (k : Bool) {o : Arith}
include hf

/-- VADD and VSUB: what a value and another, or its negation, sum to. -/
theorem arithEl_sum (ho : o = if k then .sub else .add) : arithEl ty o md a b c =
    f.round md (FVal.add (decide (md.rnd = .rd)) (f.value a) ((f.value b).signed k)) := by
  rw [arithEl_float hf, ho]
  cases k <;> rfl

/-- VFMA and VFMS where no operand is a NaN. -/
theorem arithEl_fused (ho : o = if k then .fms else .fma) (ha : ¬IsNaN f a) (hb : ¬IsNaN f b) (hc : ¬IsNaN f c) : arithEl ty o md a b c =
    f.round md (FVal.add (decide (md.rnd = .rd)) (FVal.mul (f.value a) (f.value b)) ((f.value c).signed k)) := by
  have hnan : ¬((f.value a).isNan || (f.value b).isNan || (f.value c).isNan) = true := by simp [value_isNan, ha, hb, hc]
  rw [arithEl_float hf, ho]
  cases k <;> exact congrArg (f.round md) (if_neg hnan)

theorem arithEl_fused_nan (ho : o = if k then .fms else .fma) (h : IsNaN f a ∨ IsNaN f b ∨ IsNaN f c) : arithEl ty o md a b c = (canonicalNaN f, 0) := by
  have hnan : ((f.value a).isNan || (f.value b).isNan || (f.value c).isNan) = true := by simpa [value_isNan, or_assoc] using h
  have hround : f.round md .nan = (canonicalNaN f, 0) := by rcases h with h | h | h <;> exact round_nan h md
  rw [arithEl_float hf, ho, ← hround]
  cases k <;> exact congrArg (f.round md) (if_pos hnan)
end

/-- Infinities of the same sign and of opposite signs (R192). -/
theorem add_infinite (rd s r : Bool) : FVal.add rd (.inf s) (.inf r) = if s = r then .inf s else .inv := rfl

theorem add_inv {rd : Bool} {v : FVal} (h : v ≠ .nan) : FVal.add rd .inv v = .inv := by
  cases v
  case nan => exact absurd rfl h
  all_goals rfl

/-! ### Compares and signs of floating sub-elements (R193, R196) -/

section
variable {ty : EType} {f : FFmt} (hf : floatType ty = some f)
include hf

theorem cmpEl_float (cc : VCond) (a b : ℕ) : cmpEl ty cc a b = if cmpF cc (f.value a) (f.value b) then 2 ^ f.par.width - 1 else 0 := by
  rw [width_eq_stepOf (floatType_eq hf).1]
  unfold cmpEl
  rw [(floatType_eq hf).1]

/-- A compare of two codes (R196). -/
theorem cmpEl_holds {cc : VCond} {a b : ℕ} {p : Prop} (h : cmpF cc (f.value a) (f.value b) = true ↔ p) :
    (p → cmpEl ty cc a b = 2 ^ f.par.width - 1) ∧ (¬p → cmpEl ty cc a b = 0) := by
  rw [cmpEl_float hf]
  exact ⟨fun hp => if_pos (h.2 hp), fun hp => if_neg (mt h.1 hp)⟩

theorem absEl_float (sat : Bool) (a : ℕ) : absEl ty sat a = (if (f.value a).isNan then canonicalNaN f else magnitude f a, 0) := by
  unfold absEl
  rw [(floatType_eq hf).1]

theorem negEl_float (sat : Bool) {a : ℕ} (ha : a < 2 ^ f.par.width) :
    negEl ty sat a = (if (f.value a).isNan then canonicalNaN f else withSign f (!signBit f a) (magnitude f a), 0) := by
  have hcode := withSign_signBit ha
  have hlt : magnitude f a < 2 ^ (f.par.width - 1) := Nat.mod_lt _ (by positivity)
  have hneg : (if a < 2 ^ (f.par.width - 1) then a + 2 ^ (f.par.width - 1) else a - 2 ^ (f.par.width - 1))
      = withSign f (!signBit f a) (magnitude f a) := by
    cases hs : signBit f a with
    | false =>
      have hm : magnitude f a = a := by simpa [withSign, hs] using hcode
      rw [hm] at hlt ⊢
      exact (if_pos hlt).trans (Nat.add_comm ..)
    | true =>
      have hm : 2 ^ (f.par.width - 1) + magnitude f a = a := by simpa [withSign, hs] using hcode
      rw [if_neg (by omega)]
      exact (Nat.sub_eq_of_eq_add' hm.symm).trans (Nat.zero_add _).symm
  unfold negEl
  rw [(floatType_eq hf).1, ← hneg]
end

/-- Where neither is a NaN, codes compare as their values. -/
theorem cmpF_iff (f : FFmt) (a b : ℕ) :
    let nan := IsNaN f a ∨ IsNaN f b
    let V := floatKey f
    let holds (cc : VCond) (p : Prop) : Prop := cmpF cc (f.value a) (f.value b) = true ↔ p
    holds .eq (¬nan ∧ V a = V b) ∧ holds .ne (nan ∨ V a ≠ V b) ∧ holds .lt (¬nan ∧ V a < V b) ∧ holds .le (¬nan ∧ V a ≤ V b)
    ∧ holds .gt (¬nan ∧ V b < V a) ∧ holds .ge (¬nan ∧ V b ≤ V a) ∧ holds .uo nan ∧ holds .or (¬nan) := by
  intro nan V holds
  have hnan : ((f.value a).isNan || (f.value b).isNan) = true ↔ nan := by rw [Bool.or_eq_true, value_isNan, value_isNan]
  by_cases h : nan
  · have h' := hnan.2 h
    simp [holds, cmpF, h, h']
  · have h' : ((f.value a).isNan || (f.value b).isNan) = false := by rwa [← Bool.not_eq_true, hnan]
    obtain ⟨ha, hb⟩ := not_or.1 h
    obtain ⟨hlt, heq⟩ := value_compare ha hb
    obtain ⟨hgt, -⟩ := value_compare hb ha
    have hne : (f.value a).eq (f.value b) = false ↔ V a ≠ V b := by rw [← Bool.not_eq_true, heq]
    have hle (x y : EReal) : x < y ∨ y = x ↔ x ≤ y := by rw [eq_comm, ← le_iff_lt_or_eq]
    simp only [holds, cmpF, h, h', Bool.not_false, Bool.true_and, Bool.false_or, Bool.or_eq_true, Bool.not_eq_true', not_false_iff, true_and,
      false_or, hlt, heq, hgt, hne, V, ← le_iff_lt_or_eq, hle]
    simp

end Sys2Proof.Machine

namespace Sys2Proof.Proofs
open Sys2Proof.Machine
open Claims (floatType codeValue signBit IsFinite IsInfinite IsNaN canonicalNaN infiniteResult Delivers)

section
variable {ty : EType} {f : FFmt} (hf : floatType ty = some f) {md : RMode} (hk : md.draw 0 = false) (a b c : ℕ)
include hf hk

/-- VADD and VSUB. -/
theorem float_sums (k : Bool) {o : Arith} (ho : o = if k then .sub else .add) :
    let V (x : ℕ) : ℝ := codeValue f x
    let sb := signBit f b != k
    let r := arithEl ty o md a b c
    (IsNaN f a ∨ IsNaN f b → r = (canonicalNaN f, 0))
    ∧ (IsInfinite f a → IsInfinite f b → r = if signBit f a = sb then infiniteResult f md sb else (canonicalNaN f, 1))
    ∧ (IsInfinite f a → IsFinite f b → r = infiniteResult f md (signBit f a)) ∧ (IsFinite f a → IsInfinite f b → r = infiniteResult f md sb)
    ∧ (IsFinite f a → IsFinite f b → Delivers f md (V a + if k then -V b else V b)
        (if V a = 0 ∧ V b = 0 ∧ signBit f a = sb then sb else decide (md.rnd = .rd)) r) := by
  intro V sb r
  have hr : r = _ := arithEl_sum hf k ho
  rw [hr]
  refine ⟨fun h => ?_, fun ha hb => ?_, fun ha hb => ?_, fun ha hb => ?_, fun ha hb => ?_⟩
  · rcases h with h | h
    · rw [value_nan h, ← round_nan h md]
      rfl
    · rw [signed_nan k h, add_nan_right, round_nan h]
  · rw [value_infinite ha, signed_infinite k hb, add_infinite]
    split
    next h => rw [h, round_inf]
    next => rfl
  · obtain ⟨m, e, hv, -⟩ := signed_finite k hb
    rw [value_infinite ha, hv, ← round_inf]
    rfl
  · obtain ⟨m, e, hv, -⟩ := value_finite ha
    rw [hv, signed_infinite k hb, ← round_inf]
    rfl
  · obtain ⟨m, e, hv, hva⟩ := value_finite ha
    obtain ⟨n, j, hw, hvb, hzero⟩ := signed_finite k hb
    rw [hv, hw, hvb, show V a = _ from hva]
    exact round_add f hk _ _ _ _ _ _ _ (by rw [← hzero])

/-- VMUL. -/
theorem float_product :
    let r := arithEl ty .mul md a b c
    let zero (x : ℕ) : Prop := IsFinite f x ∧ (codeValue f x : ℝ) = 0
    (IsNaN f a ∨ IsNaN f b → r = (canonicalNaN f, 0))
    ∧ (zero a ∧ IsInfinite f b ∨ IsInfinite f a ∧ zero b → r = (canonicalNaN f, 1))
    ∧ (¬IsNaN f a → ¬IsNaN f b → ¬zero a → ¬zero b → IsInfinite f a ∨ IsInfinite f b → r = infiniteResult f md (signBit f a != signBit f b))
    ∧ (IsFinite f a → IsFinite f b → Delivers f md ((codeValue f a : ℝ) * codeValue f b) (signBit f a != signBit f b) r) := by
  intro r zero
  have hr : r = f.round md (FVal.mul (f.value a) (f.value b)) := arithEl_float hf .mul md a b c
  rw [hr]
  refine ⟨fun h => ?_, fun h => ?_, fun ha hb hza hzb hinf => ?_, fun ha hb => ?_⟩
  · rw [mul_nan h]
    rcases h with h | h <;> exact round_nan h md
  · rw [mul_invalid h]
    rfl
  · rw [mul_infinite ha hb hinf (by rintro (⟨h, -⟩ | ⟨-, h⟩) <;> contradiction), round_inf]
  · obtain ⟨m, e, hv, hval⟩ := mul_finite ha hb
    rw [hv]
    exact round_num f hk _ m e hval.symm

/-- VFMA and VFMS. -/
theorem float_fused (k : Bool) {o : Arith} (ho : o = if k then .fms else .fma) :
    let V (x : ℕ) : ℝ := codeValue f x
    let r := arithEl ty o md a b c
    let sp := signBit f a != signBit f b
    let sc := signBit f c != k
    let nan : Prop := IsNaN f a ∨ IsNaN f b ∨ IsNaN f c
    (nan → r = (canonicalNaN f, 0)) ∧ (¬nan → InvalidProduct f a b → r = (canonicalNaN f, 1))
    ∧ (¬nan → (IsInfinite f a ∨ IsInfinite f b) ∧ ¬InvalidProduct f a b →
        r = if IsInfinite f c ∧ sp ≠ sc then (canonicalNaN f, 1) else infiniteResult f md sp)
    ∧ (IsFinite f a → IsFinite f b → IsInfinite f c → r = infiniteResult f md sc)
    ∧ (IsFinite f a → IsFinite f b → IsFinite f c →
        Delivers f md (V a * V b + if k then -V c else V c) (if V a * V b = 0 ∧ V c = 0 ∧ sp = sc then sp else decide (md.rnd = .rd)) r) := by
  intro V r sp sc nan
  have hr (hn : ¬nan) : r = _ := arithEl_fused hf k ho (fun h => hn (Or.inl h)) (fun h => hn (Or.inr (Or.inl h))) (fun h => hn (Or.inr (Or.inr h)))
  have hfinite {x : ℕ} (h : IsFinite f x) : ¬IsNaN f x := fun hn => hn.1 h
  refine ⟨arithEl_fused_nan hf k ho, fun hn hi => ?_, fun hn hi => ?_, fun ha hb hc => ?_, fun ha hb hc => ?_⟩
  · rw [hr hn, mul_invalid hi, add_inv (signed_ne_nan k fun h => hn (Or.inr (Or.inr h)))]
    rfl
  · obtain ⟨hinf, hvalid⟩ := hi
    rw [hr hn, mul_infinite (fun h => hn (Or.inl h)) (fun h => hn (Or.inr (Or.inl h))) hinf hvalid]
    rcases not_isNaN_iff.1 fun h => hn (Or.inr (Or.inr h)) with hc | hc
    · obtain ⟨m, e, hv, -⟩ := signed_finite k hc
      rw [hv, if_neg fun h => not_infinite_of_finite hc h.1, ← round_inf]
      rfl
    · rw [signed_infinite k hc, add_infinite]
      by_cases hs : sp = sc
      · rw [if_pos hs, round_inf, if_neg fun h => h.2 hs]
      · rw [if_neg hs, if_pos ⟨hc, hs⟩]
        rfl
  · obtain ⟨m, e, hv, -⟩ := mul_finite ha hb
    rw [hr fun h => h.elim (hfinite ha) fun h => h.elim (hfinite hb) fun h => h.2 hc, hv, signed_infinite k hc, ← round_inf]
    rfl
  · obtain ⟨m, e, hv, hva⟩ := mul_finite ha hb
    obtain ⟨n, j, hw, hvc, hzero⟩ := signed_finite k hc
    have hsign : (if V a * V b = 0 ∧ V c = 0 ∧ sp = sc then sp else decide (md.rnd = .rd))
        = if V a * V b = 0 ∧ V c = 0 ∧ sp = sc then sc else decide (md.rnd = .rd) := by
      split
      next h => exact h.2.2
      next => rfl
    rw [hsign, hr fun h => h.elim (hfinite ha) fun h => h.elim (hfinite hb) (hfinite hc), hv, hw, hvc, show V a * V b = _ from hva]
    exact round_add f hk _ _ _ _ _ _ _ (by rw [← hzero])
end

theorem floatArithmetic : Claims.FloatArithmetic := by
  intro ty f md a b c hf hk _ _ _ V sg rd zero
  refine ⟨fun o k ho => float_sums hf hk a b c k ?_, float_product hf hk a b c, fun o k ho => float_fused hf hk a b c k ?_⟩
  all_goals rcases ho with ⟨rfl, rfl⟩ | ⟨rfl, rfl⟩ <;> rfl

theorem floatCompares : Claims.FloatCompares := by
  intro ty f a b hf ha hb V nan less w holds
  obtain ⟨heq, hne, hlt, hle, hgt, hge, huo, hor⟩ := cmpF_iff f a b
  have hkind := (floatType_eq hf).1
  have hpick (h : ¬nan) (up : Bool) := pick_float hkind up (fun hn => h (Or.inl hn)) (fun hn => h (Or.inr hn))
  refine ⟨fun h up => pick_nan hkind up h, fun h => ⟨fun hba => ?_, fun hba => ?_, fun hab => ?_, fun hab => ?_⟩, cmpEl_holds hf heq,
    cmpEl_holds hf hne, cmpEl_holds hf hlt, cmpEl_holds hf hle, cmpEl_holds hf hgt, cmpEl_holds hf hge, cmpEl_holds hf huo, cmpEl_holds hf hor,
    fun sat => ⟨fun hn => ?_, fun hn => ?_⟩⟩
  · exact (hpick h false).trans (if_pos (floatRank_lt.2 hba))
  · exact (hpick h false).trans (if_neg (mt floatRank_lt.1 hba))
  · exact (hpick h true).trans (if_pos (floatRank_lt.2 hab))
  · exact (hpick h true).trans (if_neg (mt floatRank_lt.1 hab))
  · rw [absEl_float hf, negEl_float hf sat ha, if_pos (value_isNan.2 hn), if_pos (value_isNan.2 hn)]
    exact ⟨rfl, rfl⟩
  · rw [absEl_float hf, negEl_float hf sat ha, if_neg (mt value_isNan.1 hn), if_neg (mt value_isNan.1 hn)]
    exact ⟨rfl, rfl⟩

end Sys2Proof.Proofs
end

section
/-! PROOF. Conversions of a sub-element (O18). -/

namespace Sys2Proof.Machine
open Claims (floatType intForm codeValue signBit IsFinite IsInfinite IsNaN WholeRounded infiniteResult intResult intPlace intVal codeOf)

/-- Rounding to an integer and clamping to a range (R90): INX is judged before the clamp. -/
theorem roundInt_num {md : RMode} (hk : md.draw 0 = false) (lo hi : ℤ) (s : Bool) (m : ℕ) (e : ℤ) :
    ∃ n : ℕ, WholeRounded md s |numVal s m e| n ∧ ∀ v : ℤ, v = (if s then -(n : ℤ) else n) →
      roundInt md lo hi (.num s m e) = ((clampTo lo hi v).1, (clampTo lo hi v).2 ||| if (n : ℝ) = |numVal s m e| then 0 else 8) := by
  obtain ⟨hwhole, hexact⟩ := roundAt_spec hk s m e 0
  rw [zpow_zero, div_one] at hwhole
  rw [zpow_zero, mul_one] at hexact
  refine ⟨(roundAt md s m e 0).1, by rwa [numVal_abs], fun v hv => ?_⟩
  have hround : roundInt md lo hi (.num s m e) = ((clampTo lo hi v).1, (clampTo lo hi v).2 ||| VF.when (roundAt md s m e 0).2 VF.inx) := by
    rw [hv]
    unfold roundInt roundAt
    rw [sub_zero, zero_sub]
  have hinx : VF.when (roundAt md s m e 0).2 VF.inx = if ((roundAt md s m e 0).1 : ℝ) = |numVal s m e| then 0 else 8 := by
    rw [numVal_abs, VF.when, ← ite_not]
    exact if_congr (by rw [Bool.not_eq_true, ← Bool.not_eq_true, hexact, not_not]) rfl rfl
  rw [hround, hinx]

section
variable {dt st : EType} {f g : FFmt} {w step : ℕ} {sg : Bool} (md : RMode) (c : ℕ)

theorem cvtEl_toFloat (hf : floatType dt = some f) : cvtEl dt st md c = f.round md (cvtValue st c) := by
  unfold cvtEl
  rw [(floatType_eq hf).1]

theorem cvtValue_float (hg : floatType st = some g) : cvtValue st c = g.value c := by
  unfold cvtValue
  rw [(floatType_eq hg).1]

theorem cvtValue_int (h : intForm st = some (w, step, sg)) : cvtValue st c = FVal.ofInt (intVal w sg (c % 2 ^ w)) 0 false := by
  unfold cvtValue
  rw [(intForm_eq h).1, ← readInt_eq h]

theorem cvtEl_toInt (h : intForm dt = some (w, step, sg)) (hg : floatType st = some g) :
    cvtEl dt st md c = (writeInt dt (roundInt md (loOf dt) (hiOf dt) (g.value c)).1, (roundInt md (loOf dt) (hiOf dt) (g.value c)).2) := by
  rw [← cvtValue_float c hg]
  unfold cvtEl
  rw [(intForm_eq h).1, (floatType_eq hg).1]

theorem cvtEl_intToInt {w' step' : ℕ} {sg' : Bool} (h : intForm dt = some (w, step, sg)) (h' : intForm st = some (w', step', sg')) :
    cvtEl dt st md c = intResult w step sg md.sat (intVal w' sg' (c % 2 ^ w')) := by
  unfold cvtEl
  rw [(intForm_eq h).1, (intForm_eq h').1]
  exact (finInt_eq h _ _).trans (by rw [readInt_eq h'])

end

/-- An integer clamped to the range of its type (R90). -/
theorem clampTo_eq {ty : EType} {w step : ℕ} {sg : Bool} (h : intForm ty = some (w, step, sg)) (v : ℤ) :
    (writeInt ty (clampTo (loOf ty) (hiOf ty) v).1, (clampTo (loOf ty) (hiOf ty) v).2) = intResult w step sg true v := finInt_eq h true v

theorem intPlace_zero (w step : ℕ) (sg : Bool) : intPlace w step sg 0 = 0 := by
  have h : 0 < 2 ^ (w - 1) := by positivity
  simp [intPlace, intVal, codeOf]

end Sys2Proof.Machine

namespace Sys2Proof.Proofs
open Sys2Proof.Machine

theorem conversions : Claims.Conversions := by
  intro dt st md c hk _ r
  refine ⟨fun f g hf hg => ?_, fun f w step sg hf h => ?_, fun hdt hst => ?_, fun g w step sg h hg => ?_, fun w step sg w' step' sg' h h' => ?_⟩
  · have hr : r = f.round md (g.value c) := (cvtEl_toFloat md c hf).trans (by rw [cvtValue_float c hg])
    rw [hr]
    refine ⟨fun hn => ?_, fun hi => ?_, fun hfin => ?_⟩
    · rw [value_nan hn]
      cases hnan : f.par.nan <;> simp [FFmt.round, hnan, VF.none, VF.inv]
    · rw [value_infinite hi, round_inf]
    · obtain ⟨m, e, hv, hc⟩ := value_finite hfin
      rw [hv]
      exact round_num f hk _ m e hc.symm
  · have hr : r = f.round md (FVal.ofInt (Claims.intVal w sg (c % 2 ^ w)) 0 false) := (cvtEl_toFloat md c hf).trans (by rw [cvtValue_int c h])
    rw [hr]
    exact round_ofInt f hk _ 0 false (by rw [zpow_zero, mul_one])
  · subst hdt hst
    have hr : r = FFmt.f32.round md (scaleValue c) := rfl
    rw [hr]
    refine ⟨fun h => ?_, fun h => ?_⟩
    · rw [h]
      rfl
    · rw [scaleValue, if_neg h]
      exact round_num .f32 hk false 1 _ (by simp [numVal])
  · intro lo hi s
    have hr : r = _ := cvtEl_toInt md c h hg
    rw [hr]
    refine ⟨fun hn => ?_, fun hi => ?_, fun hfin => ?_⟩
    · rw [value_nan hn]
      exact Prod.ext (by rw [writeInt_eq h]; exact intPlace_zero w step sg) rfl
    · rw [value_infinite hi]
      refine Prod.ext ?_ rfl
      show writeInt dt (if s then loOf dt else hiOf dt) = _
      rw [writeInt_eq h, loOf_eq h, hiOf_eq h]
    · obtain ⟨m, e, hv, hc⟩ := value_finite hfin
      obtain ⟨n, hn, hround⟩ := roundInt_num hk (loOf dt) (hiOf dt) s m e
      rw [← hc] at hn hround
      refine ⟨n, hn, ?_⟩
      intro v inx cl
      have hinx : inx = if (n : ℝ) = |(Claims.codeValue g c : ℝ)| then 0 else 8 := if_congr (by exact_mod_cast Iff.rfl) rfl rfl
      rw [hv, hround v rfl, ← hinx, show cl = _ from (clampTo_eq h v).symm]
  · exact cvtEl_intToInt md c h h'

end Sys2Proof.Proofs
end

section
/-! PROOF. The integer square root, and values rounded to twelve bits and then to .f32 (O18). -/

namespace Sys2Proof.Machine
open Claims (WholeRounded codeValue magnitude signBit IsFinite withSign Rounded Delivers)

/-! ### The integer square root -/

/-- Newton's descent halves the distance to the root. -/
theorem isqrtFrom_eq (n : ℕ) : ∀ k j x, j ≤ k → Nat.sqrt n ≤ x → x - Nat.sqrt n < 2 ^ j → isqrtFrom n k x = Nat.sqrt n
  | 0, j, x, hj, hle, hlt => by
    rw [Nat.le_zero.1 hj] at hlt
    rw [isqrtFrom]
    omega
  | k + 1, j, x, hj, hle, hlt => by
    have hsq := Nat.sqrt_le n
    have hsq' := Nat.lt_succ_sqrt n
    have hdown (h : Nat.sqrt n < x) : n / x ≤ Nat.sqrt n :=
      Nat.le_of_lt_succ ((Nat.div_lt_iff_lt_mul (by omega)).2 (hsq'.trans_le (Nat.mul_le_mul_left _ h)))
    have hup : Nat.sqrt n ≤ (x + n / x) / 2 := by
      rw [Nat.le_div_iff_mul_le two_pos]
      rcases Nat.eq_zero_or_pos x with rfl | hx
      · omega
      have hdiv : 2 * Nat.sqrt n - x ≤ n / x := by
        rw [Nat.le_div_iff_mul_le hx]
        rcases Nat.le_total (2 * Nat.sqrt n) x with h | h
        · simp [Nat.sub_eq_zero_of_le h]
        · zify [h] at hsq ⊢
          nlinarith [sq_nonneg ((Nat.sqrt n : ℤ) - x)]
      omega
    rw [isqrtFrom]
    split
    next h =>
      cases j with
      | zero => omega
      | succ j => exact isqrtFrom_eq n k j _ (by omega) hup (by omega)
    next h => omega

theorem isqrt_eq {n : ℕ} (hlog : Nat.log2 n < 798) : isqrt n = Nat.sqrt n := by
  unfold isqrt
  split
  next h0 => rw [h0, Nat.sqrt_zero]
  next h0 =>
    have hroot : Nat.sqrt n < 2 ^ (Nat.log2 n / 2 + 1) := by
      rw [Nat.sqrt_lt', ← pow_mul]
      exact Nat.lt_log2_self.trans_le (Nat.pow_le_pow_right two_pos (by omega))
    exact isqrtFrom_eq n 400 (Nat.log2 n / 2 + 1) _ (by omega) hroot.le (by have := Nat.sqrt_pos.2 (Nat.pos_of_ne_zero h0); omega)

/-! ### Magnitudes known from below (R108) -/

/-- A magnitude is the whole part of a value in units of a power of two; sticky where a part follows. -/
structure Mag.Floor (v : Mag) (t : ℝ) : Prop where
  le : (v.m : ℝ) * 2 ^ v.e ≤ t
  lt : t < ((v.m : ℝ) + 1) * 2 ^ v.e
  sticky : v.sticky = true ↔ t ≠ (v.m : ℝ) * 2 ^ v.e

theorem Mag.floor_of {v : Mag} {t y : ℝ} (ht : t = y * 2 ^ v.e) (hy : 0 ≤ y) (hm : v.m = ⌊y⌋₊) (hs : v.sticky = true ↔ y ≠ v.m) : v.Floor t := by
  have hpos : (0 : ℝ) < 2 ^ v.e := by positivity
  refine ⟨?_, ?_, ?_⟩
  · rw [ht, hm]
    exact mul_le_mul_of_nonneg_right (Nat.floor_le hy) hpos.le
  · rw [ht, hm]
    exact mul_lt_mul_of_pos_right (Nat.lt_floor_add_one y) hpos
  · rw [hs, ht, ne_eq, ne_eq, mul_left_inj' hpos.ne']

/-- The binade of a value is that of its whole part. -/
theorem Mag.Floor.log {v : Mag} {t : ℝ} (h : v.Floor t) (hm : 0 < v.m) : Int.log 2 t = floorLog2 v.m v.e := by
  have hpos : (0 : ℝ) < (v.m : ℝ) * 2 ^ v.e := by positivity
  have hlt : t < 2 ^ (floorLog2 v.m v.e + 1) := by
    refine h.lt.trans_le ?_
    have hnat : ((v.m : ℝ) + 1) ≤ 2 ^ (Nat.log2 v.m + 1) := by exact_mod_cast Nat.lt_log2_self (n := v.m)
    rw [floorLog2, add_right_comm, zpow_add₀ two_ne_zero]
    exact mul_le_mul_of_nonneg_right (by exact_mod_cast hnat) (by positivity)
  refine le_antisymm ?_ ?_
  · exact Int.lt_add_one_iff.1 ((Int.lt_zpow_iff_log_lt (b := 2) one_lt_two (hpos.trans_le h.le)).1 (by exact_mod_cast hlt))
  · rw [← log_numVal v.e hm]
    exact Int.log_mono_right hpos h.le

/-! ### Twelve significant bits (R108) -/

/-- The shift that leaves twelve bits of a magnitude, and the magnitude rounded there. -/
def Mag.shift (v : Mag) : ℕ := Nat.log2 v.m - 11
def Mag.twelve (v : Mag) : ℕ × Bool := roundTo .rne false v.m v.shift v.sticky

theorem Mag.log2_eq {v : Mag} (hm : 2 ^ 12 ≤ v.m) : Nat.log2 v.m = v.shift + 11 ∧ 0 < v.shift := by
  have h : 12 ≤ Nat.log2 v.m := (Nat.le_log2 (by omega)).2 hm
  unfold Mag.shift
  omega

/-- The parts of a magnitude above and below the shift. -/
theorem Mag.shift_bounds {v : Mag} (hm : 2 ^ 12 ≤ v.m) : 2 ^ 11 ≤ v.m / 2 ^ v.shift ∧ v.m / 2 ^ v.shift < 2 ^ 12 := by
  obtain ⟨hlog, -⟩ := v.log2_eq hm
  have hlo := Nat.log2_self_le (n := v.m) (by omega)
  have hhi := Nat.lt_log2_self (n := v.m)
  rw [hlog] at hlo hhi
  constructor
  · rwa [Nat.le_div_iff_mul_le (by positivity), ← pow_add, add_comm]
  · rwa [Nat.div_lt_iff_lt_mul (by positivity), ← pow_add, add_comm 12]

theorem Mag.twelve_eq (v : Mag) : v.twelve =
    (if decide (2 ^ v.shift < 2 * (v.m % 2 ^ v.shift)) || (decide (2 ^ v.shift = 2 * (v.m % 2 ^ v.shift)) && (v.sticky || v.m / 2 ^ v.shift % 2 == 1))
      then v.m / 2 ^ v.shift + 1 else v.m / 2 ^ v.shift, v.m % 2 ^ v.shift != 0 || v.sticky) := rfl

theorem Mag.twelve_range {v : Mag} (hm : 2 ^ 12 ≤ v.m) : 2 ^ 11 ≤ v.twelve.1 ∧ v.twelve.1 ≤ 2 ^ 12 := by
  obtain ⟨hlo, hhi⟩ := v.shift_bounds hm
  rw [v.twelve_eq]
  dsimp only
  split <;> omega

/-- Rounding to nearest even of a number with a whole part, a part in whole units, and a part below one unit (R88). -/
theorem nearest_even {k r P Q : ℕ} {u y : ℝ} {b : Bool} (hP : P = 2 * Q) (hr : r < P) (h0 : 0 ≤ u) (h1 : u < 1) (hb : b = true ↔ u ≠ 0)
    (hy : y * P = k * P + (r + u)) (hk : ⌊y⌋₊ = k) :
    let up := decide (P < 2 * r) || (decide (P = 2 * r) && (b || k % 2 == 1))
    WholeRounded .rne false y (if up then k + 1 else k) ∧ ((r != 0 || b) = true ↔ ¬((if up then k + 1 else k : ℕ) : ℝ) * P = y * P) := by
  intro up
  have hrP : (r : ℝ) + 1 ≤ P := by exact_mod_cast hr
  have hPR : (P : ℝ) = 2 * Q := by exact_mod_cast hP
  have hpos : (0 : ℝ) < P := by linarith [Nat.cast_nonneg (α := ℝ) r]
  have hd : (y - k) * P = r + u := by linarith
  have hhalf : 1 / 2 < y - k ↔ (Q : ℝ) < r + u := by
    rw [← mul_lt_mul_iff_left₀ hpos, hd, hPR]
    constructor <;> intro h <;> linarith
  have heq : y - k = 1 / 2 ↔ (r : ℝ) + u = Q := by
    rw [← mul_left_inj' hpos.ne', hd, hPR]
    constructor <;> intro h <;> linarith
  have hcases : Q < r ∨ r = Q ∨ r < Q := by omega
  have hup : (1 / 2 < y - k ∨ y - k = 1 / 2 ∧ k % 2 = 1) ↔ up = true := by
    simp only [up, Bool.or_eq_true, Bool.and_eq_true, decide_eq_true_iff, beq_iff_eq, hb, hhalf, heq]
    rcases hcases with h | rfl | h
    · have : (Q : ℝ) + 1 ≤ r := by exact_mod_cast h
      exact iff_of_true (Or.inl (by linarith)) (Or.inl (by omega))
    · rw [hP]
      have hu : (r : ℝ) < r + u ↔ u ≠ 0 := by
        rw [lt_add_iff_pos_right]
        exact ⟨ne_of_gt, fun h => lt_of_le_of_ne h0 h.symm⟩
      rw [hu, add_eq_left]
      have : ¬2 * r < 2 * r := lt_irrefl _
      tauto
    · have : (r : ℝ) + 1 ≤ Q := by exact_mod_cast h
      refine iff_of_false (not_or_intro (by linarith) fun h => by linarith [h.1]) (not_or_intro (by omega) fun h => by omega)
  refine ⟨?_, ?_⟩
  · have h := choose_next hup k
    rw [← hk] at h ⊢
    exact h
  · rw [Bool.or_eq_true, bne_iff_ne, hb, hy, ← not_and_or, not_iff_not]
    cases hv : up with
    | false =>
      rw [if_neg Bool.false_ne_true, left_eq_add]
      have hr0 := Nat.cast_nonneg (α := ℝ) r
      exact ⟨fun h => by rw [h.1, h.2]; simp, fun h => ⟨by exact_mod_cast (by linarith : (r : ℝ) = 0), by linarith⟩⟩
    | true =>
      rw [if_pos rfl]
      refine iff_of_false (fun h => ?_) fun h => ?_
      · have hzero : y - k = 0 := by
          rw [h.1, h.2] at hd
          simpa [hpos.ne'] using hd
        rcases hup.2 hv with h' | h'
        · linarith
        · linarith [h'.1]
      · push_cast at h
        linarith

/-- What the first rounding has for a value of which the magnitude is the whole part. -/
theorem Mag.twelve_whole {v : Mag} {t : ℝ} (h : v.Floor t) (hm : 2 ^ 12 ≤ v.m) :
    WholeRounded .rne false (t / 2 ^ (floorLog2 v.m v.e - 11)) v.twelve.1
    ∧ (v.twelve.2 = true ↔ (v.twelve.1 : ℝ) * 2 ^ (floorLog2 v.m v.e - 11) ≠ t) := by
  obtain ⟨hlog, hpos⟩ := v.log2_eq hm
  obtain ⟨j, hj⟩ : ∃ j, v.shift = j + 1 := ⟨v.shift - 1, by omega⟩
  have hE : (0 : ℝ) < 2 ^ v.e := by positivity
  obtain ⟨y, rfl⟩ : ∃ y, t = y * 2 ^ v.e := ⟨t / 2 ^ v.e, (div_mul_cancel₀ t hE.ne').symm⟩
  have hle : (v.m : ℝ) ≤ y := le_of_mul_le_mul_right h.le hE
  have hlt : y < v.m + 1 := lt_of_mul_lt_mul_right h.lt hE.le
  have hsticky : v.sticky = true ↔ y ≠ v.m := by rw [h.sticky, ne_eq, mul_left_inj' hE.ne']
  have hunit : (2 : ℝ) ^ (floorLog2 v.m v.e - 11) = 2 ^ v.shift * 2 ^ v.e := by
    rw [← zpow_natCast, ← zpow_add₀ two_ne_zero, floorLog2, hlog]
    congr 1
    push_cast
    ring
  have hP : (0 : ℝ) < 2 ^ v.shift := by positivity
  have hfloor : ⌊y / 2 ^ v.shift⌋₊ = v.m / 2 ^ v.shift := by
    have h := Nat.floor_div_natCast y (2 ^ v.shift)
    rw [(Nat.floor_eq_iff (by linarith [Nat.cast_nonneg (α := ℝ) v.m])).2 ⟨hle, hlt⟩] at h
    exact_mod_cast h
  have hsplit : y = (v.m / 2 ^ v.shift : ℕ) * 2 ^ v.shift + ((v.m % 2 ^ v.shift : ℕ) + (y - v.m)) := by
    have hmod : (v.m : ℝ) = (v.m / 2 ^ v.shift : ℕ) * 2 ^ v.shift + (v.m % 2 ^ v.shift : ℕ) := by
      exact_mod_cast (Nat.div_add_mod' v.m (2 ^ v.shift)).symm
    linarith
  have hcast : ((2 ^ v.shift : ℕ) : ℝ) = 2 ^ v.shift := by push_cast; rfl
  have h := nearest_even (u := y - v.m) (y := y / 2 ^ v.shift) (b := v.sticky) (show 2 ^ v.shift = 2 * 2 ^ j by rw [hj, pow_succ']) (Nat.mod_lt v.m (by positivity))
    (by linarith) (by linarith) (by rw [hsticky, ne_eq, ne_eq, sub_eq_zero]) (by rw [hcast, div_mul_cancel₀ _ hP.ne']; exact hsplit) hfloor
  rw [hcast, div_mul_cancel₀ _ hP.ne'] at h
  rw [hunit, mul_div_mul_right _ _ hE.ne', ← mul_assoc, ne_eq, mul_left_inj' hE.ne', v.twelve_eq]
  exact h

/-- The second rounding, of twelve bits. -/
def Mag.second (neg : Bool) (v : Mag) : ℕ × VFlags := FFmt.f32.roundMag .rne neg v.twelve.1 (floorLog2 v.m v.e - 11) false

theorem roundTwice_eq (neg : Bool) {v : Mag} (hm : 2 ^ 12 ≤ v.m) :
    let c := v.second neg
    let ix := v.twelve.2 || (c.2 &&& VF.inx) != 0
    roundTwice neg v = (c.1, (c.2 &&& VF.ovf) ||| VF.when ix VF.inx ||| VF.when (ix && decide (floorLog2 v.m v.e < -126)) VF.unf) := by
  obtain ⟨hlog, hpos⟩ := v.log2_eq hm
  have hshift : floorLog2 v.m v.e - 11 - v.e = v.shift := by
    rw [floorLog2, hlog]
    push_cast
    ring
  have hq : ¬floorLog2 v.m v.e - 11 ≤ v.e := by omega
  unfold roundTwice
  dsimp only
  rw [if_neg (by omega), if_neg hq, hshift, Int.toNat_natCast]
  rfl

/-! ### The second rounding (R108) -/

/-- A number of units of 2^k is a number of smaller units: it is not rounded. -/
theorem wholeRounded_units {md : RMode} (hk : md.draw 0 = false) {neg : Bool} {N n : ℕ} {j k : ℤ} (hjk : j ≤ k)
    (h : WholeRounded md neg ((N : ℝ) * 2 ^ k / 2 ^ j) n) : (n : ℝ) * 2 ^ j = N * 2 ^ k := by
  have hunits : (N : ℝ) * 2 ^ k = (N * 2 ^ (k - j).toNat : ℕ) * 2 ^ j := by
    push_cast
    rw [← zpow_natCast, Int.toNat_of_nonneg (by omega), mul_assoc, ← zpow_add₀ two_ne_zero, sub_add_cancel]
  rw [hunits, mul_div_cancel_right₀ _ (by positivity)] at h
  rw [hunits, wholeRounded_unique h (wholeRounded_nat hk _)]

theorem numVal_ne_zero {s : Bool} {m : ℕ} {e : ℤ} (hm : 0 < m) : numVal s m e ≠ 0 := mt numVal_eq_zero hm.ne'

theorem codeValue_sign (f : FFmt) (c : ℕ) : (codeValue f c : ℝ) = (if signBit f c then -1 else 1) * |(codeValue f c : ℝ)| := by
  have h : (0 : ℝ) ≤ f.par.steps (magnitude f c) * 2 ^ (1 - f.par.bias - f.par.frac) := by positivity
  rw [codeValue_eq]
  cases signBit f c <;> simp [abs_of_nonneg h]

/-- R108's two roundings of a value, with the flags of the value that is delivered. -/
def Twice (v : ℝ) (r : ℕ × VFlags) : Prop :=
  let u : ℝ := 2 ^ (Int.log 2 |v| - 11)
  ∃ n q, WholeRounded .rne false (|v| / u) n ∧ Rounded .f32 .rne (if v < 0 then -(n * u) else n * u) q ∧ r.1 = q.1
    ∧ (let ovf : Prop := 0x7F7FFFFF < magnitude .f32 q.1
       let isExact : Prop := ¬ovf ∧ (codeValue .f32 q.1 : ℝ) = v
       r.2 = (if ovf then 2 else 0) + (if isExact then 0 else 8) + (if ¬isExact ∧ |v| < 2 ^ (-126 : Int) then 4 else 0))

/-- The flags of two roundings. -/
theorem flags_twice {c : VFlags} {ix tiny : Bool} {p e l : Prop} [Decidable p] [Decidable e] [Decidable (¬e ∧ l)]
    (hp : c &&& VF.ovf = if p then 2 else 0) (he : ix = true ↔ ¬e) (hl : tiny = true ↔ l) :
    (c &&& VF.ovf) ||| VF.when ix VF.inx ||| VF.when (ix && tiny) VF.unf
      = (if p then 2 else 0) + (if e then 0 else 8) + (if ¬e ∧ l then 4 else 0) := by
  rw [hp]
  cases ix <;> cases tiny <;> simp at he hl <;> by_cases hp : p <;> simp [he, hl, hp, VF.when, VF.inx, VF.unf]

/-- Rounding to nearest into .f32: a finite code, exact or with INX, or an infinity (R89, R91). -/
theorem rounded_f32 {w : ℝ} {c : ℕ × VFlags} (h : Rounded .f32 .rne w c) :
    let j := max (Int.log 2 |w|) (-126) - 23
    ∃ n : ℕ, WholeRounded .rne (decide (w < 0)) (|w| / 2 ^ j) n
      ∧ (c.2 &&& VF.ovf = 0 ∧ magnitude .f32 c.1 ≤ 0x7F7FFFFF ∧ (codeValue .f32 c.1 : ℝ) = (if w < 0 then -1 else 1) * (n * 2 ^ j)
          ∧ ((c.2 &&& VF.inx != 0) = true ↔ (n : ℝ) * 2 ^ j ≠ |w|)
        ∨ c = (withSign .f32 (decide (w < 0)) 0x7F800000, 10)) := by
  intro j
  obtain ⟨n, hwhole, hfin, hovf⟩ := h
  refine ⟨n, hwhole, ?_⟩
  rcases le_or_gt ((n : ℝ) * 2 ^ j) (codeValue .f32 FFmt.f32.par.top) with hle | hgt
  · obtain ⟨hs, hmag, -, habs, hex, hinex⟩ := hfin hle
    have hval : (codeValue .f32 c.1 : ℝ) = (if w < 0 then -1 else 1) * (n * 2 ^ j) := by
      rw [codeValue_sign, hs, habs]
      simp [j]
      rfl
    by_cases he : (n : ℝ) * 2 ^ j = |w|
    · refine Or.inl ⟨by rw [hex he]; rfl, hmag, hval, ?_⟩
      rw [hex he]
      exact iff_of_false (by decide) (not_not_intro he)
    · have hf := hinex he
      refine Or.inl ⟨?_, hmag, hval, iff_of_true ?_ he⟩
      · rw [hf]
        split <;> rfl
      · rw [hf]
        split <;> rfl
  · exact Or.inr (hovf hgt)

/-- Where both roundings are exact, the value is delivered, and there alone: a value that the second rounding can hold is not moved by the first,
or has twelve bits or fewer. -/
theorem twice_exact {t : ℝ} {n n' : ℕ} {x : ℤ} {neg : Bool} (hn : WholeRounded .rne false (t / 2 ^ (x - 11)) n) {j : ℤ}
    (hn' : WholeRounded .rne neg ((n : ℝ) * 2 ^ (x - 11) / 2 ^ j) n') :
    (n' : ℝ) * 2 ^ j = t ↔ (n : ℝ) * 2 ^ (x - 11) = t ∧ (n' : ℝ) * 2 ^ j = n * 2 ^ (x - 11) := by
  refine ⟨fun h => ?_, fun h => h.2.trans h.1⟩
  have hfirst : (n : ℝ) * 2 ^ (x - 11) = t := by
    rcases le_total (x - 11) j with hj | hj
    · rw [← h] at hn ⊢
      exact wholeRounded_units rfl hj hn
    · rw [← h]
      exact (wholeRounded_units rfl hj hn').symm
  exact ⟨hfirst, h.trans hfirst.symm⟩

section
variable {v : Mag} {t : ℝ} (neg : Bool) (hm : 2 ^ 12 ≤ v.m)
include hm

theorem Mag.second_rounded : Rounded .f32 .rne (numVal neg v.twelve.1 (floorLog2 v.m v.e - 11)) (v.second neg) :=
  (roundMag_delivers .f32 rfl neg v.twelve.1 (floorLog2 v.m v.e - 11)).2 (numVal_ne_zero (by have := v.twelve_range hm; omega))

theorem roundTwice_twice (h : v.Floor t) : Twice (if neg then -t else t) (roundTwice neg v) := by
  have hmpos : 0 < v.m := by omega
  have ht : 0 < t := (by positivity : (0 : ℝ) < (v.m : ℝ) * 2 ^ v.e).trans_le h.le
  obtain ⟨hwhole, hinexact⟩ := v.twelve_whole h hm
  have habs : |if neg then -t else t| = t := by cases neg <;> simp [abs_of_pos ht]
  have hlt : (if neg then -t else t) < 0 ↔ neg = true := by cases neg <;> simp [ht, ht.le]
  have hlog := h.log hmpos
  have hrounded := v.second_rounded neg hm
  have hnpos : 0 < v.twelve.1 := by have := v.twelve_range hm; omega
  have hw : numVal neg v.twelve.1 (floorLog2 v.m v.e - 11) = if (if neg then -t else t) < 0 then
      -((v.twelve.1 : ℝ) * 2 ^ (floorLog2 v.m v.e - 11)) else (v.twelve.1 : ℝ) * 2 ^ (floorLog2 v.m v.e - 11) := by
    rw [if_congr hlt rfl rfl]
    cases neg <;> simp [numVal]
  have htiny : decide (floorLog2 v.m v.e < -126) = true ↔ t < 2 ^ (-126 : ℤ) := by
    rw [decide_eq_true_iff, ← hlog]
    exact_mod_cast (Int.lt_zpow_iff_log_lt (b := 2) one_lt_two (x := -126) ht).symm
  unfold Twice
  rw [habs, hlog, roundTwice_eq neg hm]
  refine ⟨v.twelve.1, v.second neg, hwhole, hw ▸ hrounded, rfl, ?_⟩
  obtain ⟨n', hwhole', hc⟩ := rounded_f32 hrounded
  rw [numVal_abs] at hwhole' hc
  rw [if_congr (decide_eq_true_iff.symm.trans (by rw [numVal_neg hnpos])) rfl rfl] at hc
  rw [numVal_neg hnpos] at hwhole' hc
  rcases hc with ⟨hovf, hmag, hval, hinx⟩ | hinf
  · refine flags_twice (hovf.trans (if_neg (Nat.not_lt.2 hmag)).symm) ?_ htiny
    have hsign : (codeValue .f32 (v.second neg).1 : ℝ) = (if neg then -t else t) ↔ (n' : ℝ) * 2 ^ (max (Int.log 2 ((v.twelve.1 : ℝ) *
        2 ^ (floorLog2 v.m v.e - 11))) (-126) - 23) = t := by
      rw [hval]
      cases neg <;> simp
    rw [Bool.or_eq_true, hinexact, hinx, and_iff_right (Nat.not_lt.2 hmag), hsign, twice_exact hwhole hwhole', not_and_or]
  · have hmagnitude : 0x7F7FFFFF < magnitude .f32 (v.second neg).1 := by rw [hinf]; cases neg <;> decide
    refine flags_twice ?_ (iff_of_true ?_ fun he => he.1 hmagnitude) htiny
    · rw [if_pos hmagnitude, hinf]
      exact (by decide : (10 : VFlags) &&& VF.ovf = 2)
    · rw [hinf, Bool.or_eq_true]
      exact Or.inr (by decide : ((10 : VFlags) &&& VF.inx != 0) = true)
end

end Sys2Proof.Machine
end

section
/-! PROOF. Reciprocals, reciprocal square roots and their refinements (O18). -/

namespace Sys2Proof.Machine
open Claims (codeValue magnitude signBit IsFinite IsInfinite IsNaN withSign Delivers)

/-! ### Codes of .f32 (R84, R85) -/

/-- The magnitude and the exponent of a finite code of .f32. -/
structure F32Num (a m : ℕ) (e : ℤ) : Prop where
  value : FFmt.f32.value a = .num (signBit .f32 a) m e
  val : (codeValue .f32 a : ℝ) = numVal (signBit .f32 a) m e
  lt : m < 2 ^ 24
  least : -149 ≤ e
  greatest : e ≤ 104
  normal : e = -149 ∨ 2 ^ 23 ≤ m

theorem f32Num_of_finite {a : ℕ} (h : IsFinite .f32 a) : ∃ m e, F32Num a m e := by
  obtain ⟨m, e, hv, hc⟩ := value_finite h
  have hmag : magnitude .f32 a ≤ 0x7F7FFFFF := h
  suffices hb : m < 2 ^ 24 ∧ -149 ≤ e ∧ e ≤ 104 ∧ (e = -149 ∨ 2 ^ 23 ≤ m) from ⟨m, e, hv, hc, hb.1, hb.2.1, hb.2.2.1, hb.2.2.2⟩
  have hinf : FFmt.f32.par.inf ≠ some (magnitude .f32 a) := fun hi => not_infinite_of_finite h hi
  unfold FFmt.value at hv
  dsimp only at hv
  rw [if_neg hinf, if_neg (Nat.not_lt.2 h)] at hv
  change (if magnitude .f32 a / 2 ^ 23 = 0 then FVal.num _ (magnitude .f32 a) (-149)
    else .num _ (2 ^ 23 + magnitude .f32 a % 2 ^ 23) (((magnitude .f32 a / 2 ^ 23 : ℕ) : ℤ) - 127 - 23)) = _ at hv
  split at hv
  next h0 =>
    obtain ⟨-, rfl, rfl⟩ := FVal.num.inj hv
    omega
  next h0 =>
    obtain ⟨-, rfl, rfl⟩ := FVal.num.inj hv
    omega

/-- A finite code that is not zero. -/
theorem f32Num_pos {a m : ℕ} {e : ℤ} (h : F32Num a m e) (h0 : (codeValue .f32 a : ℝ) ≠ 0) : 0 < m := by
  refine Nat.pos_of_ne_zero fun hm => h0 ?_
  rw [h.val, hm, numVal_zero]

/-! ### Exact values (R108) -/

theorem magRcp_floor {m : ℕ} (e : ℤ) (hm : 0 < m) : (magRcp m e).Floor (1 / ((m : ℝ) * 2 ^ e)) := by
  have hmR : (m : ℝ) ≠ 0 := by positivity
  refine Mag.floor_of (y := ((2 ^ 64 : ℕ) : ℝ) / m) ?_ (by positivity) (Nat.floor_div_eq_div _ _).symm ?_
  · simp only [magRcp]
    rw [zpow_sub₀ two_ne_zero, zpow_neg]
    push_cast
    field_simp
    norm_num
  · rw [magRcp, bne_iff_ne, ne_eq, ne_eq, not_iff_not, div_eq_iff hmR, ← Nat.cast_mul, Nat.cast_inj, ← Nat.dvd_iff_mod_eq_zero]
    exact ⟨fun h => (Nat.div_mul_cancel h).symm, fun h => Dvd.intro_left _ h.symm⟩

theorem floor_sqrt (z : ℝ) (hz : 0 ≤ z) : ⌊√z⌋₊ = Nat.sqrt ⌊z⌋₊ := by
  have hfloor := Nat.floor_le hz
  have hlt := Nat.lt_floor_add_one z
  have hle : ((Nat.sqrt ⌊z⌋₊ : ℕ) : ℝ) ^ 2 ≤ ⌊z⌋₊ := by exact_mod_cast Nat.sqrt_le' ⌊z⌋₊
  have hge : ((⌊z⌋₊ : ℕ) : ℝ) + 1 ≤ (Nat.sqrt ⌊z⌋₊ + 1) ^ 2 := by exact_mod_cast Nat.succ_le_succ_sqrt' ⌊z⌋₊
  rw [Nat.floor_eq_iff (Real.sqrt_nonneg z)]
  exact ⟨Real.le_sqrt_of_sq_le (hle.trans hfloor), (Real.sqrt_lt' (by positivity)).2 (by linarith)⟩

theorem magRsq_floor {m : ℕ} (e : ℤ) (hm : 0 < m) (hlt : m < 2 ^ 24) : (magRsq m e).Floor (1 / √((m : ℝ) * 2 ^ e)) ∧ 2 ^ 12 ≤ (magRsq m e).m := by
  obtain ⟨n, k, hn, hk, hval, hnpos, hnlt⟩ : ∃ (n : ℕ) (k : ℤ), (if e % 2 = 0 then m else 2 * m) = n ∧ (if e % 2 = 0 then e else e - 1) = 2 * k
      ∧ (m : ℝ) * 2 ^ e = n * (2 ^ k) ^ 2 ∧ 0 < n ∧ n < 2 ^ 25 := by
    rcases Int.emod_two_eq_zero_or_one e with he | he
    · refine ⟨m, e / 2, if_pos he, by rw [if_pos he]; omega, ?_, hm, by omega⟩
      rw [← zpow_natCast, ← zpow_mul, show e / 2 * (2 : ℕ) = e by push_cast; omega]
    · refine ⟨2 * m, (e - 1) / 2, if_neg (by omega), by rw [if_neg (by omega)]; omega, ?_, by omega, by omega⟩
      rw [← zpow_natCast, ← zpow_mul, show (e - 1) / 2 * (2 : ℕ) = e - 1 by push_cast; omega, zpow_sub_one₀ two_ne_zero]
      push_cast
      ring
  have hquot : 2 ^ 12 * 2 ^ 12 ≤ 2 ^ 128 / n := (Nat.le_div_iff_mul_le hnpos).2 (by omega)
  have hroot : isqrt (2 ^ 128 / n) = Nat.sqrt (2 ^ 128 / n) := by
    refine isqrt_eq (lt_of_lt_of_le ((Nat.log2_lt (k := 129) (by omega)).2 ?_) (by norm_num))
    exact (Nat.div_le_self ..).trans_lt (by norm_num)
  have hmag : magRsq m e = ⟨Nat.sqrt (2 ^ 128 / n), -k - 64, Nat.sqrt (2 ^ 128 / n) * Nat.sqrt (2 ^ 128 / n) * n != 2 ^ 128⟩ := by
    unfold magRsq
    rw [hn, hk]
    dsimp only
    rw [hroot, show 2 * k / 2 = k by omega]
  have hnR : (0 : ℝ) < n := by exact_mod_cast hnpos
  have hfl : ⌊√(((2 ^ 128 : ℕ) : ℝ) / n)⌋₊ = Nat.sqrt (2 ^ 128 / n) := by
    rw [floor_sqrt _ (by positivity), Nat.floor_div_eq_div]
  rw [hmag, hval]
  refine ⟨Mag.floor_of (y := √(((2 ^ 128 : ℕ) : ℝ) / n)) ?_ (Real.sqrt_nonneg _) hfl.symm ?_, ?_⟩
  · have hroot : √((2 ^ 128 : ℕ) : ℝ) = 2 ^ 64 := by
      rw [show ((2 ^ 128 : ℕ) : ℝ) = (2 ^ 64) ^ 2 by norm_num, Real.sqrt_sq (by positivity)]
    have hpos : (0 : ℝ) < √n := Real.sqrt_pos.2 hnR
    rw [Real.sqrt_mul hnR.le, Real.sqrt_sq (by positivity), Real.sqrt_div (by positivity), hroot, zpow_sub₀ two_ne_zero, zpow_neg]
    field_simp
  · rw [bne_iff_ne, ne_eq, ne_eq, not_iff_not, Real.sqrt_eq_iff_mul_self_eq (by positivity) (by positivity), div_eq_iff hnR.ne', ← Nat.cast_mul,
      ← Nat.cast_mul, Nat.cast_inj, eq_comm]
  · exact Nat.le_sqrt.2 hquot

/-! ### Reciprocals (R108, R109) -/

/-- A finite code of .f32 that is not zero. -/
def F32Some (a : ℕ) : Prop := IsFinite .f32 a ∧ (codeValue .f32 a : ℝ) ≠ 0

section
variable {a : ℕ} (h : F32Some a)
include h

theorem rcpApprox_twice : Twice (1 / (codeValue .f32 a : ℝ)) (rcpApprox a) := by
  obtain ⟨m, e, hnum⟩ := f32Num_of_finite h.1
  have hm := f32Num_pos hnum h.2
  have hbig : 2 ^ 12 ≤ (magRcp m e).m := (Nat.le_div_iff_mul_le hm).2 (by have := hnum.lt; omega)
  have hr : rcpApprox a = roundTwice (signBit .f32 a) (magRcp m e) := by
    unfold rcpApprox
    rw [hnum.value]
    exact if_neg hm.ne'
  have hval : 1 / (codeValue .f32 a : ℝ) = if signBit .f32 a then -(1 / ((m : ℝ) * 2 ^ e)) else 1 / ((m : ℝ) * 2 ^ e) := by
    rw [hnum.val, numVal]
    cases signBit .f32 a <;> simp
  rw [hr, hval]
  exact roundTwice_twice _ hbig (magRcp_floor e hm)

theorem rsqApprox_twice (hs : signBit .f32 a = false) : Twice (1 / √(codeValue .f32 a : ℝ)) (rsqApprox a) := by
  obtain ⟨m, e, hnum⟩ := f32Num_of_finite h.1
  have hm := f32Num_pos hnum h.2
  obtain ⟨hfloor, hbig⟩ := magRsq_floor e hm hnum.lt
  have hr : rsqApprox a = roundTwice false (magRsq m e) := by
    unfold rsqApprox
    rw [hnum.value, hs]
    exact if_neg hm.ne'
  have hval : (codeValue .f32 a : ℝ) = (m : ℝ) * 2 ^ e := by
    rw [hnum.val, hs, numVal]
    simp
  rw [hr, hval]
  exact roundTwice_twice false hbig hfloor
end

/-! ### The special inputs (R109) -/

section
variable {a : ℕ}

theorem approx_nan (h : IsNaN .f32 a) : rcpApprox a = (0x7FC00000, 0) ∧ rsqApprox a = (0x7FC00000, 0) ∧ exp2Approx a = (0x7FC00000, 0)
    ∧ log2Approx a = (0x7FC00000, 0) := by
  unfold rcpApprox rsqApprox exp2Approx log2Approx
  rw [value_nan h]
  exact ⟨rfl, rfl, rfl, rfl⟩

theorem f32Inf_eq (s : Bool) : f32Inf s = withSign .f32 s 0x7F800000 := by cases s <;> rfl

theorem value_zero (h : IsFinite .f32 a) (h0 : (codeValue .f32 a : ℝ) = 0) : ∃ e, FFmt.f32.value a = .num (signBit .f32 a) 0 e := by
  obtain ⟨m, e, hv, hc⟩ := value_finite h
  exact ⟨e, by rw [hv, numVal_eq_zero (hc.symm.trans h0)]⟩

theorem approx_zero (h : IsFinite .f32 a) (h0 : (codeValue .f32 a : ℝ) = 0) : rcpApprox a = (withSign .f32 (signBit .f32 a) 0x7F800000, 0)
    ∧ rsqApprox a = (withSign .f32 (signBit .f32 a) 0x7F800000, 0) ∧ exp2Approx a = (0x3F800000, 0) ∧ log2Approx a = (0xFF800000, 0) := by
  obtain ⟨e, hv⟩ := value_zero h h0
  unfold rcpApprox rsqApprox exp2Approx log2Approx
  rw [hv, ← f32Inf_eq]
  exact ⟨rfl, rfl, rfl, rfl⟩

/-- The functions of positive values take no other (R109). -/
theorem approx_negative (h : F32Some a) (hs : signBit .f32 a = true) : rsqApprox a = (0x7FC00000, 1) ∧ log2Approx a = (0x7FC00000, 1) := by
  obtain ⟨m, e, hnum⟩ := f32Num_of_finite h.1
  have hm := (f32Num_pos hnum h.2).ne'
  unfold rsqApprox log2Approx
  rw [hnum.value, hs]
  exact ⟨if_neg hm, if_neg hm⟩
end

/-! ### Refinements (R110) -/

section
variable (s r : Bool) (m n : ℕ) (e k : ℤ)

theorem mul_num : ∃ s' m' e', FVal.mul (.num s m e) (.num r n k) = .num s' m' e' ∧ numVal s' m' e' = numVal s m e * numVal r n k :=
  ⟨_, _, _, rfl, numVal_mul ..⟩

theorem sub_num : ∃ s' m' e', FVal.sub (.num s m e) (.num r n k) = .num s' m' e' ∧ numVal s' m' e' = numVal s m e - numVal r n k := by
  obtain ⟨s', m', e', hadd, hval, -⟩ := add_num s (!r) m n e k false
  exact ⟨s', m', e', hadd, by rw [hval, numVal_not, sub_eq_add_neg]⟩
end

/-- A value that is not zero and what a refinement adds to it, rounded once. -/
theorem round_refined {s r : Bool} {m n : ℕ} {e k : ℤ} {v : ℝ} (hm : 0 < m) (hv : numVal s m e + numVal r n k = v) :
    Delivers .f32 .rne v false (FFmt.f32.round .rne (FVal.add false (.num s m e) (.num r n k))) := by
  have h := round_add .f32 (md := .rne) rfl false s r m n e k (p := False) (iff_of_false not_false fun h => numVal_ne_zero hm h.1)
  rwa [if_neg not_false, hv] at h

theorem rcpStep_delivers (s r : Bool) (m : ℕ) {n : ℕ} (e k : ℤ) (hn : 0 < n) :
    Delivers .f32 .rne (numVal r n k + numVal r n k * (1 - numVal s m e * numVal r n k)) false
      (FFmt.f32.round .rne (rcpStep (.num s m e) (.num r n k))) := by
  obtain ⟨s₁, m₁, e₁, h₁, hv₁⟩ := mul_num s r m n e k
  obtain ⟨s₂, m₂, e₂, h₂, hv₂⟩ := sub_num false s₁ 1 m₁ 0 e₁
  obtain ⟨s₃, m₃, e₃, h₃, hv₃⟩ := mul_num r s₂ n m₂ k e₂
  rw [rcpStep, FVal.one, h₁, h₂, h₃]
  refine round_refined hn ?_
  rw [hv₃, hv₂, hv₁]
  simp [numVal]

theorem rsqStep_delivers (s r : Bool) (m : ℕ) {n : ℕ} (e k : ℤ) (hn : 0 < n) :
    Delivers .f32 .rne (numVal r n k + numVal r n k * (1 - numVal s m e * numVal r n k * numVal r n k) / 2) false
      (FFmt.f32.round .rne (rsqStep (.num s m e) (.num r n k))) := by
  obtain ⟨s₁, m₁, e₁, h₁, hv₁⟩ := mul_num s r m n e k
  obtain ⟨s₂, m₂, e₂, h₂, hv₂⟩ := mul_num s₁ r m₁ n e₁ k
  obtain ⟨s₃, m₃, e₃, h₃, hv₃⟩ := sub_num false s₂ 1 m₂ 0 e₂
  obtain ⟨s₄, m₄, e₄, h₄, hv₄⟩ := mul_num r s₃ n m₃ k e₃
  obtain ⟨s₅, m₅, e₅, h₅, hv₅⟩ := mul_num false s₄ 1 m₄ (-1) e₄
  rw [rsqStep, FVal.one, h₁, h₂, h₃, h₄, h₅]
  refine round_refined hn ?_
  rw [hv₅, hv₄, hv₃, hv₂, hv₁, show numVal false 1 (-1) = 1 / 2 by norm_num [numVal], show numVal false 1 0 = 1 by simp [numVal]]
  ring

section
variable {a b : ℕ} (g : FVal → FVal → FVal)

theorem refine_nan (h : IsNaN .f32 b) : refine g a b = (0x7FC00000, 0) := by
  unfold refine
  rw [value_nan h]
  rfl

theorem refine_keeps (h : IsFinite .f32 b ∧ (codeValue .f32 b : ℝ) = 0 ∨ IsInfinite .f32 b) : refine g a b = (b, 0) := by
  unfold refine
  rcases h with ⟨hfin, h0⟩ | hinf
  · obtain ⟨e, hv⟩ := value_zero hfin h0
    rw [hv]
    rfl
  · rw [value_infinite hinf]

/-- Past the tests of the estimate. -/
theorem refine_some (a : ℕ) (h : F32Some b) : ∃ m e, (codeValue .f32 b : ℝ) = numVal (signBit .f32 b) m e ∧ 0 < m ∧ refine g a b =
    match FFmt.f32.value a with
    | .num sx mx ex => if mx = 0 then (b, 0) else FFmt.f32.round .rne (g (.num sx mx ex) (.num (signBit .f32 b) m e))
    | .inf _ => (b, 0)
    | _ => (f32Nan, 0) := by
  obtain ⟨m, e, hnum⟩ := f32Num_of_finite h.1
  have hm := f32Num_pos hnum h.2
  refine ⟨m, e, hnum.val, hm, ?_⟩
  unfold refine
  rw [hnum.value]
  exact if_neg hm.ne'
end

end Sys2Proof.Machine

namespace Sys2Proof.Proofs
open Sys2Proof.Machine
open Claims (codeValue signBit IsFinite IsInfinite IsNaN Delivers)

/-- Refinements: the four tests, then the exact step rounded once. -/
theorem refinements (a b : ℕ) (g : FVal → FVal → FVal) (v : ℝ) :
    let V (x : ℕ) : ℝ := codeValue .f32 x
    let zero (x : ℕ) : Prop := IsFinite .f32 x ∧ V x = 0
    (g = rcpStep ∧ v = V b + V b * (1 - V a * V b) ∨ g = rsqStep ∧ v = V b + V b * (1 - V a * V b * V b) / 2) →
    (IsNaN .f32 b → refine g a b = (0x7FC00000, 0)) ∧ (zero b ∨ IsInfinite .f32 b → refine g a b = (b, 0))
    ∧ (F32Some b → IsNaN .f32 a → refine g a b = (0x7FC00000, 0)) ∧ (F32Some b → zero a ∨ IsInfinite .f32 a → refine g a b = (b, 0))
    ∧ (F32Some b → F32Some a → Delivers .f32 .rne v false (refine g a b)) := by
  intro V zero hg
  refine ⟨refine_nan g, refine_keeps g, fun hb ha => ?_, fun hb ha => ?_, fun hb ha => ?_⟩
  all_goals obtain ⟨n, k, hvb, hn, hr⟩ := refine_some g a hb
  · rw [hr, value_nan ha]
    rfl
  · rcases ha with ⟨hfin, h0⟩ | hinf
    · obtain ⟨e, hv⟩ := value_zero hfin h0
      rw [hr, hv]
      rfl
    · rw [hr, value_infinite hinf]
  · obtain ⟨m, e, hnum⟩ := f32Num_of_finite ha.1
    rw [hr, hnum.value]
    simp only [(f32Num_pos hnum ha.2).ne', if_false]
    have hva : V a = _ := hnum.val
    have hvb : V b = _ := hvb
    rcases hg with ⟨rfl, hv⟩ | ⟨rfl, hv⟩ <;> rw [hv, hva, hvb]
    · exact rcpStep_delivers _ _ m e k hn
    · exact rsqStep_delivers _ _ m e k hn

end Sys2Proof.Proofs
end

section
/-! PROOF. Twelve-bit roundings of values known within a few units (O18). -/

namespace Sys2Proof.Machine
open Claims (WholeRounded codeValue magnitude signBit IsFinite withSign Rounded Delivers)

/-! ### The first rounding of an approximation -/

section
variable {v : Mag} (hs : v.sticky = true)
include hs

/-- A sticky magnitude is rounded to within half a unit, and down from below the middle. -/
theorem Mag.twelve_near : 2 * v.m ≤ 2 * (v.twelve.1 * 2 ^ v.shift) + 2 ^ v.shift ∧ 2 * (v.twelve.1 * 2 ^ v.shift) ≤ 2 * v.m + 2 ^ v.shift
    ∧ (2 * (v.m % 2 ^ v.shift) < 2 ^ v.shift → v.twelve.1 = v.m / 2 ^ v.shift) ∧ v.twelve.2 = true := by
  have hmod := Nat.div_add_mod' v.m (2 ^ v.shift)
  have hlt := Nat.mod_lt v.m (Nat.two_pow_pos v.shift)
  rw [v.twelve_eq]
  simp only [hs, Bool.true_or, Bool.and_true, Bool.or_true, Bool.or_eq_true, decide_eq_true_iff]
  generalize 2 ^ v.shift = P at *
  split
  · rw [Nat.add_one_mul (v.m / P)]
    generalize v.m / P = k at *
    generalize k * P = l at *
    exact ⟨by omega, by omega, fun _ => by omega, trivial⟩
  · generalize v.m / P = k at *
    generalize k * P = l at *
    exact ⟨by omega, by omega, fun _ => rfl, trivial⟩

/-- A value that is known to `D` units is not farther from its rounding than half a unit of its twelve bits. -/
theorem Mag.twelve_error (hm : 2 ^ 12 ≤ v.m) {y : ℝ} {D : ℕ} (hD : 1 ≤ D) (hbig : D * 2 ^ 28 ≤ v.m) (hy : |y - v.m| ≤ D) :
    |(v.twelve.1 : ℝ) * 2 ^ v.shift - y| ≤ 2 ^ (-12 : ℤ) * y := by
  obtain ⟨hlo, hhi, hdown, -⟩ := v.twelve_near hs
  obtain ⟨hk, hk'⟩ := v.shift_bounds hm
  have hmod := Nat.div_add_mod' v.m (2 ^ v.shift)
  have hlt := Nat.mod_lt v.m (Nat.two_pow_pos v.shift)
  generalize hP : 2 ^ v.shift = P at *
  have hcast : (2 : ℝ) ^ v.shift = P := by rw [← hP]; push_cast; rfl
  rw [hcast, show (2 : ℝ) ^ (-12 : ℤ) = 1 / 4096 by norm_num]
  obtain ⟨hy₁, hy₂⟩ := abs_le.1 hy
  have hmP : 2 ^ 11 * P ≤ v.m := (Nat.mul_le_mul_right P hk).trans (Nat.div_mul_le_self ..)
  have hmP' : v.m < 2 ^ 12 * P := by nlinarith
  have hPD : D * 2 ^ 16 < P := by omega
  by_cases hfar : 2 ^ 11 * P + 2 ^ 13 * D ≤ v.m
  · have h₁ : (2 : ℝ) * v.m ≤ 2 * (v.twelve.1 * P) + P := by exact_mod_cast hlo
    have h₂ : (2 : ℝ) * (v.twelve.1 * P) ≤ 2 * v.m + P := by exact_mod_cast hhi
    have h₃ : (2 : ℝ) ^ 11 * P + 2 ^ 13 * D ≤ v.m := by exact_mod_cast hfar
    have hD' : (1 : ℝ) ≤ D := by exact_mod_cast hD
    rw [abs_le]
    constructor <;> linarith
  · have hquot : v.m / P = 2 ^ 11 := by
      refine Nat.div_eq_of_lt_le hmP ?_
      omega
    have hn : v.twelve.1 = 2 ^ 11 := (hdown (by rw [hquot] at hmod; omega)).trans hquot
    have h₁ : (v.m : ℝ) < 2 ^ 11 * P + 2 ^ 13 * D := by exact_mod_cast Nat.not_le.1 hfar
    have h₂ : (2 : ℝ) ^ 11 * P ≤ v.m := by exact_mod_cast hmP
    have h₃ : (D : ℝ) * 2 ^ 16 < P := by exact_mod_cast hPD
    have hD' : (1 : ℝ) ≤ D := by exact_mod_cast hD
    rw [hn, abs_le]
    push_cast
    constructor <;> linarith
end

/-! ### Roundings into .f32 (R88-R91) -/

theorem f32_top : (codeValue .f32 FFmt.f32.par.top : ℝ) = (2 ^ 24 - 1) * 2 ^ 104 := by
  rw [codeValue_top, show FFmt.f32.par.steps FFmt.f32.par.top = (2 ^ 24 - 1) * 2 ^ 253 by decide,
    show 1 - FFmt.f32.par.bias - (FFmt.f32.par.frac : ℤ) = -149 by decide]
  norm_num

section
variable {w : ℝ} {c : ℕ × VFlags} (h : Rounded .f32 .rne w c)
include h

/-- A value that .f32 holds is not changed. -/
theorem rounded_exact {N : ℕ} {k : ℤ} (hw : |w| = N * 2 ^ k) (hk : max (Int.log 2 |w|) (-126) - 23 ≤ k) (htop : |w| ≤ (2 ^ 24 - 1) * 2 ^ 104) :
    IsFinite .f32 c.1 ∧ (codeValue .f32 c.1 : ℝ) = w ∧ c.2 = 0 := by
  obtain ⟨n, hwhole, hfin, -⟩ := h
  rw [hw] at hwhole
  have hn := (wholeRounded_units rfl (hw ▸ hk) hwhole).trans hw.symm
  rw [← hw] at hn
  obtain ⟨hs, hmag, -, habs, hex, -⟩ := hfin ((hn.trans_le htop).trans_eq f32_top.symm)
  refine ⟨hmag, ?_, hex hn⟩
  rw [codeValue_sign, hs, habs]
  refine (congrArg _ hn).trans ?_
  rcases lt_or_ge w 0 with hneg | hpos
  · simp [hneg, abs_of_neg]
  · simp [hpos, hpos.not_gt, abs_of_nonneg]

/-- A value of 2^128 or more overflows. -/
theorem rounded_overflow (hw : (2 : ℝ) ^ (128 : ℤ) ≤ w) : c = (0x7F800000, 10) := by
  obtain ⟨n, hwhole, -, hovf⟩ := h
  have hpos : 0 < w := (by positivity : (0 : ℝ) < 2 ^ (128 : ℤ)).trans_le hw
  have hlog : 128 ≤ Int.log 2 w := (Int.zpow_le_iff_le_log (b := 2) one_lt_two hpos).1 (by exact_mod_cast hw)
  have hself : (2 : ℝ) ^ Int.log 2 w ≤ w := by exact_mod_cast Int.zpow_log_le_self (b := 2) one_lt_two hpos
  rw [abs_of_pos hpos] at hwhole hovf
  have hmax : max (Int.log 2 w) (1 - FFmt.f32.par.bias) - (FFmt.f32.par.frac : ℤ) = Int.log 2 w - 23 := by
    rw [show 1 - FFmt.f32.par.bias = -126 by decide, max_eq_left (by omega)]
    rfl
  rw [hmax] at hwhole hovf
  have hn : 2 ^ 23 ≤ n := by
    refine (Nat.le_floor ?_).trans (floor_le_wholeRounded hwhole)
    rw [le_div_iff₀ (by positivity)]
    refine le_trans (le_of_eq ?_) hself
    rw [zpow_sub₀ two_ne_zero]
    push_cast
    field_simp
    norm_num
  have hunits : (2 : ℝ) ^ 23 * 2 ^ (105 : ℤ) ≤ n * 2 ^ (Int.log 2 w - 23) :=
    mul_le_mul (by exact_mod_cast hn) (zpow_le_zpow_right₀ one_le_two (by omega)) (by positivity) (by positivity)
  have hbig : ((2 : ℝ) ^ 24 - 1) * 2 ^ 104 < n * 2 ^ (Int.log 2 w - 23) := lt_of_lt_of_le (by norm_num) hunits
  rw [hovf (f32_top.trans_lt hbig), decide_eq_false hpos.not_gt]
  rfl

/-- A positive value of 2^-150 or less becomes zero. -/
theorem rounded_underflow (hpos : 0 < w) (hw : w ≤ 2 ^ (-150 : ℤ)) : c = (0, 12) := by
  obtain ⟨n, hwhole, hfin, -⟩ := h
  have hlog : Int.log 2 w ≤ -150 := by
    rw [← Int.log_zpow (R := ℝ) one_lt_two (-150)]
    exact Int.log_mono_right hpos (by exact_mod_cast hw)
  rw [abs_of_pos hpos] at hwhole hfin
  have hmax : max (Int.log 2 w) (1 - FFmt.f32.par.bias) - (FFmt.f32.par.frac : ℤ) = -149 := by
    rw [show 1 - FFmt.f32.par.bias = -126 by decide, max_eq_right (by omega)]
    rfl
  rw [hmax] at hwhole hfin
  have hhalf : w / 2 ^ (-149 : ℤ) ≤ 1 / 2 := by
    rw [div_le_iff₀ (by positivity)]
    refine hw.trans (le_of_eq ?_)
    norm_num
  have hfloor : ⌊w / 2 ^ (-149 : ℤ)⌋₊ = 0 := Nat.floor_eq_zero.2 (hhalf.trans_lt (by norm_num))
  have hn : n = 0 := by
    obtain ⟨hup, -⟩ | ⟨-, hn⟩ := hwhole
    · rw [hfloor, Nat.cast_zero, sub_zero] at hup
      rcases hup with hup | ⟨-, hup⟩
      · exact absurd hup hhalf.not_gt
      · omega
    · exact hn.trans hfloor
  rw [hn, Nat.cast_zero, zero_mul] at hfin
  obtain ⟨hs, -, hlt, habs, -, hinex⟩ := hfin (f32_top.symm ▸ by norm_num)
  have hsteps : FFmt.f32.par.steps (magnitude .f32 c.1) = 0 := by
    rw [codeValue_eq, hs, decide_eq_false hpos.not_gt, if_neg Bool.false_ne_true, one_mul, abs_eq_zero, mul_eq_zero] at habs
    exact_mod_cast habs.resolve_right (zpow_ne_zero _ two_ne_zero)
  have hzero : c.1 = 0 := by
    have h0 := FFmt.f32.par.steps_strictMono.injective (hsteps.trans (FPar.steps_of (p := FFmt.f32.par) (e := 0) (r := 0) (by decide)).2.symm)
    rw [← withSign_signBit hlt, hs, h0, decide_eq_false hpos.not_gt]
    rfl
  refine Prod.ext hzero ((hinex hpos.ne).trans (if_pos ?_))
  refine hw.trans_lt ?_
  rw [show 1 - FFmt.f32.par.bias = -126 by decide]
  norm_num
end

end Sys2Proof.Machine
end

section
/-! PROOF. Both roundings of a value that is known exactly, or within a few units (O18). -/

namespace Sys2Proof.Machine
open Claims (codeValue IsFinite Rounded)

/-! ### Values of fewer than thirteen bits -/

section
variable (neg : Bool) {v : Mag} (h0 : 0 < v.m) (hm : v.m < 2 ^ 12)
include h0 hm

/-- A value of fewer than thirteen bits is rounded once. -/
theorem roundTwice_short : ∃ c, Rounded .f32 .rne (numVal neg v.m v.e) c ∧
    let ix := v.sticky || c.2 &&& VF.inx != 0
    roundTwice neg v = (c.1, (c.2 &&& VF.ovf) ||| VF.when ix VF.inx ||| VF.when (ix && decide (floorLog2 v.m v.e < -126)) VF.unf) := by
  have hlog : Nat.log2 v.m ≤ 11 := Nat.le_of_lt_succ ((Nat.log2_lt h0.ne').2 hm)
  have hq : floorLog2 v.m v.e - 11 ≤ v.e := by unfold floorLog2; omega
  have hval : numVal neg (v.m * 2 ^ (v.e - (floorLog2 v.m v.e - 11)).toNat) (floorLog2 v.m v.e - 11) = numVal neg v.m v.e := by
    simp only [numVal]
    push_cast
    rw [mul_assoc, ← zpow_natCast, Int.toNat_of_nonneg (by omega), ← zpow_add₀ two_ne_zero, sub_add_cancel]
  refine ⟨FFmt.f32.roundMag .rne neg (v.m * 2 ^ (v.e - (floorLog2 v.m v.e - 11)).toNat) (floorLog2 v.m v.e - 11) false, ?_, ?_⟩
  · exact hval ▸ (roundMag_delivers .f32 rfl neg _ _).2 (hval ▸ numVal_ne_zero h0)
  · unfold roundTwice
    dsimp only
    rw [if_neg h0.ne', if_pos hq]

/-- One that .f32 holds is delivered. -/
theorem roundTwice_exact (hs : v.sticky = false) (hlo : max (floorLog2 v.m v.e) (-126) - 23 ≤ v.e)
    (hhi : (v.m : ℝ) * 2 ^ v.e ≤ (2 ^ 24 - 1) * 2 ^ 104) :
    IsFinite .f32 (roundTwice neg v).1 ∧ (codeValue .f32 (roundTwice neg v).1 : ℝ) = numVal neg v.m v.e ∧ (roundTwice neg v).2 = 0 := by
  obtain ⟨c, hc, hr⟩ := roundTwice_short neg h0 hm
  obtain ⟨hfin, hval, hfl⟩ := rounded_exact hc (numVal_abs ..) (by rwa [numVal_abs, log_numVal v.e h0]) (by rwa [numVal_abs])
  rw [hr, hfl, hs]
  exact ⟨hfin, hval, by simp [VF.when]⟩

theorem roundTwice_short_overflow (h : (2 : ℝ) ^ (128 : ℤ) ≤ (v.m : ℝ) * 2 ^ v.e) : roundTwice false v = (0x7F800000, 10) := by
  obtain ⟨c, hc, hr⟩ := roundTwice_short false h0 hm
  have hx : -126 ≤ floorLog2 v.m v.e := by
    rw [← log_numVal v.e h0]
    refine (by norm_num : (-126 : ℤ) ≤ 128).trans ((Int.zpow_le_iff_le_log (b := 2) one_lt_two (by positivity)).1 ?_)
    exact_mod_cast h
  have hinx : (v.sticky || (10 : VFlags) &&& VF.inx != 0) = true := Bool.or_true _
  rw [hr, rounded_overflow hc (h.trans_eq (by simp [numVal])), decide_eq_false (by omega)]
  dsimp only
  rw [hinx]
  rfl

theorem roundTwice_short_underflow (h : (v.m : ℝ) * 2 ^ v.e ≤ 2 ^ (-150 : ℤ)) : roundTwice false v = (0, 12) := by
  obtain ⟨c, hc, hr⟩ := roundTwice_short false h0 hm
  have hval : numVal false v.m v.e = (v.m : ℝ) * 2 ^ v.e := by simp [numVal]
  have hx : floorLog2 v.m v.e < -126 := by
    rw [← log_numVal v.e h0, ← Int.lt_zpow_iff_log_lt (b := 2) one_lt_two (by positivity)]
    refine h.trans_lt ?_
    norm_num
  have hinx : (v.sticky || (12 : VFlags) &&& VF.inx != 0) = true := Bool.or_true _
  rw [hr, rounded_underflow hc (by rw [hval]; positivity) (hval.trans_le h), decide_eq_true hx]
  dsimp only
  rw [hinx]
  rfl
end

/-! ### Values known within a few units -/

section
variable {v : Mag} (hs : v.sticky = true) (hm : 2 ^ 12 ≤ v.m)
include hs hm

theorem roundTwice_second (neg : Bool) : ∃ c, Rounded .f32 .rne (numVal neg v.twelve.1 (floorLog2 v.m v.e - 11)) c ∧ roundTwice neg v =
    (c.1, (c.2 &&& VF.ovf) ||| VF.inx ||| VF.when (decide (floorLog2 v.m v.e < -126)) VF.unf) := by
  obtain ⟨-, -, -, hsticky⟩ := v.twelve_near hs
  refine ⟨v.second neg, v.second_rounded neg hm, ?_⟩
  rw [roundTwice_eq neg hm, hsticky]
  simp [VF.when]

/-- Twelve bits within the range of normal values are delivered. -/
theorem roundTwice_normal (neg : Bool) (hlo : -126 ≤ floorLog2 v.m v.e) (hhi : floorLog2 v.m v.e < 127 ∨ floorLog2 v.m v.e = 127 ∧ v.twelve.1 < 2 ^ 12) :
    IsFinite .f32 (roundTwice neg v).1 ∧ (codeValue .f32 (roundTwice neg v).1 : ℝ) = numVal neg v.twelve.1 (floorLog2 v.m v.e - 11)
    ∧ (roundTwice neg v).2 = 8 := by
  obtain ⟨c, hc, hr⟩ := roundTwice_second hs hm neg
  obtain ⟨h11, h12⟩ := v.twelve_range hm
  have hlog : Int.log 2 |numVal neg v.twelve.1 (floorLog2 v.m v.e - 11)| ≤ floorLog2 v.m v.e + 1 := by
    have : Nat.log2 v.twelve.1 < 13 := (Nat.log2_lt (by omega)).2 (by omega)
    rw [numVal_abs, log_numVal _ (by omega)]
    unfold floorLog2 at *
    omega
  have htop : |numVal neg v.twelve.1 (floorLog2 v.m v.e - 11)| ≤ (2 ^ 24 - 1) * 2 ^ 104 := by
    have hbound (N : ℕ) (k : ℤ) (hN : v.twelve.1 ≤ N) (hk : floorLog2 v.m v.e ≤ k) :
        (v.twelve.1 : ℝ) * 2 ^ (floorLog2 v.m v.e - 11) ≤ N * 2 ^ (k - 11) :=
      mul_le_mul (by exact_mod_cast hN) (zpow_le_zpow_right₀ one_le_two (by omega)) (by positivity) (by positivity)
    rw [numVal_abs]
    rcases hhi with h | ⟨h, hlt⟩
    · refine (hbound (2 ^ 12) 126 h12 (by omega)).trans ?_
      norm_num
    · refine (hbound (2 ^ 12 - 1) 127 (by omega) (by omega)).trans ?_
      norm_num
  obtain ⟨hfin, hval, hfl⟩ := rounded_exact hc (numVal_abs ..) (by omega) htop
  rw [hr, hfl, decide_eq_false (by omega)]
  exact ⟨hfin, hval, rfl⟩

/-- So a value known within `D` units is delivered within the error of R108. -/
theorem roundTwice_error (neg : Bool) {y : ℝ} {D : ℕ} (hD : 1 ≤ D) (hbig : D * 2 ^ 28 ≤ v.m) (hy : |y - v.m| ≤ D) (hlo : -126 ≤ floorLog2 v.m v.e)
    (hhi : floorLog2 v.m v.e < 127 ∨ floorLog2 v.m v.e = 127 ∧ v.twelve.1 < 2 ^ 12) :
    IsFinite .f32 (roundTwice neg v).1
    ∧ |(codeValue .f32 (roundTwice neg v).1 : ℝ) - (if neg then -(y * 2 ^ v.e) else y * 2 ^ v.e)| ≤ 2 ^ (-12 : ℤ) * (y * 2 ^ v.e)
    ∧ (roundTwice neg v).2 = 8 := by
  obtain ⟨hfin, hval, hfl⟩ := roundTwice_normal hs hm neg hlo hhi
  obtain ⟨hlog, -⟩ := v.log2_eq hm
  refine ⟨hfin, ?_, hfl⟩
  have hunit : (v.twelve.1 : ℝ) * 2 ^ (floorLog2 v.m v.e - 11) = v.twelve.1 * 2 ^ v.shift * 2 ^ v.e := by
    rw [mul_assoc, ← zpow_natCast, ← zpow_add₀ two_ne_zero, floorLog2, hlog]
    congr 2
    push_cast
    ring
  have herr := mul_le_mul_of_nonneg_right (v.twelve_error hs hm hD hbig hy) (by positivity : (0 : ℝ) ≤ 2 ^ v.e)
  have habs : |(codeValue .f32 (roundTwice neg v).1 : ℝ) - (if neg then -(y * 2 ^ v.e) else y * 2 ^ v.e)|
      = |((v.twelve.1 : ℝ) * 2 ^ v.shift - y) * 2 ^ v.e| := by
    rw [hval, numVal, hunit]
    cases neg
    · simp [sub_mul]
    · simp only [if_true, mul_assoc, neg_one_mul]
      rw [← abs_neg]
      congr 1
      ring
  rwa [habs, abs_mul, abs_of_pos (by positivity : (0 : ℝ) < 2 ^ v.e), ← mul_assoc]

theorem roundTwice_overflow (hx : 128 ≤ floorLog2 v.m v.e ∨ floorLog2 v.m v.e = 127 ∧ v.twelve.1 = 2 ^ 12) : roundTwice false v = (0x7F800000, 10) := by
  obtain ⟨c, hc, hr⟩ := roundTwice_second hs hm false
  have hbound (N : ℕ) (k : ℤ) (hN : N ≤ v.twelve.1) (hk : k ≤ floorLog2 v.m v.e) :
      (N : ℝ) * 2 ^ (k - 11) ≤ v.twelve.1 * 2 ^ (floorLog2 v.m v.e - 11) :=
    mul_le_mul (by exact_mod_cast hN) (zpow_le_zpow_right₀ one_le_two (by omega)) (by positivity) (by positivity)
  have hbig : (2 : ℝ) ^ (128 : ℤ) ≤ numVal false v.twelve.1 (floorLog2 v.m v.e - 11) := by
    rw [numVal, if_neg Bool.false_ne_true, one_mul]
    rcases hx with h | ⟨h, h12⟩
    · refine le_trans ?_ (hbound (2 ^ 11) 128 (v.twelve_range hm).1 h)
      norm_num
    · refine le_trans ?_ (hbound (2 ^ 12) 127 h12.ge h.ge)
      norm_num
  rw [hr, rounded_overflow hc hbig, decide_eq_false (by omega)]
  rfl

theorem roundTwice_underflow (hx : floorLog2 v.m v.e ≤ -151) : roundTwice false v = (0, 12) := by
  obtain ⟨c, hc, hr⟩ := roundTwice_second hs hm false
  obtain ⟨h11, h12⟩ := v.twelve_range hm
  have hval : numVal false v.twelve.1 (floorLog2 v.m v.e - 11) = v.twelve.1 * 2 ^ (floorLog2 v.m v.e - 11) := by simp [numVal]
  have hpos : (0 : ℝ) < v.twelve.1 := by exact_mod_cast (by omega : 0 < v.twelve.1)
  have hsmall : (v.twelve.1 : ℝ) * 2 ^ (floorLog2 v.m v.e - 11) ≤ 2 ^ (-150 : ℤ) := by
    have h : (v.twelve.1 : ℝ) * 2 ^ (floorLog2 v.m v.e - 11) ≤ 2 ^ 12 * 2 ^ (-162 : ℤ) :=
      mul_le_mul (by exact_mod_cast h12) (zpow_le_zpow_right₀ one_le_two (by omega)) (by positivity) (by positivity)
    refine h.trans ?_
    norm_num
  rw [hr, rounded_underflow hc (by rw [hval]; positivity) (hval.trans_le hsmall), decide_eq_true (by omega)]
  rfl
end

end Sys2Proof.Machine
end

section
/-! PROOF. VLOG2 (O18): its bits against the logarithm. -/

namespace Sys2Proof.Machine
open Claims (codeValue signBit IsFinite)

/-! ### The bits of a logarithm (R108) -/

/-- The logarithm of a number of [1, 2) carried with 200 bits. -/
noncomputable def logAt (y : ℕ) : ℝ := Real.logb 2 (y / 2 ^ 200)

/-- log2(1 + 1/n) is at most 2 in n. -/
theorem logb_succ_le {n : ℕ} (hn : 0 < n) : Real.logb 2 ((n : ℝ) + 1) ≤ Real.logb 2 n + 2 / n := by
  have hpos : (0 : ℝ) < n := by exact_mod_cast hn
  have hsplit : (n : ℝ) + 1 = n * (1 + 1 / n) := by field_simp
  have hlog : Real.log (1 + 1 / n) ≤ 1 / n := (Real.log_le_sub_one_of_pos (by positivity)).trans_eq (by ring)
  have h2 := Real.log_two_gt_d9
  rw [hsplit, Real.logb_mul hpos.ne' (by positivity), add_le_add_iff_left, Real.logb, div_le_iff₀ (by linarith)]
  have hn' : 0 < 1 / (n : ℝ) := by positivity
  calc Real.log (1 + 1 / n) ≤ 1 / n := hlog
    _ ≤ 2 / n * Real.log 2 := by rw [show 2 / (n : ℝ) = 2 * (1 / n) by ring]; nlinarith

/-- A squaring gives a bit of the logarithm and the number of the next. -/
theorem logAt_square {y y' b : ℕ} (hy : 0 < y) (hy' : 2 ^ 200 ≤ y') (hlo : y' * (2 ^ b * 2 ^ 200) ≤ y * y)
    (hhi : y * y < (y' + 1) * (2 ^ b * 2 ^ 200)) : logAt y' + b ≤ 2 * logAt y ∧ 2 * logAt y ≤ logAt y' + b + 2 ^ (-199 : ℤ) := by
  have hpos : (0 : ℝ) < y := by exact_mod_cast hy
  have hpos' : (0 : ℝ) < y' := by exact_mod_cast (by omega : 0 < y')
  have hloR : (y' : ℝ) * (2 ^ b * 2 ^ 200) ≤ y * y := by exact_mod_cast hlo
  have hhiR : (y : ℝ) * y ≤ (y' + 1) * (2 ^ b * 2 ^ 200) := by exact_mod_cast hhi.le
  have hb : Real.logb 2 ((2 : ℝ) ^ b * 2 ^ 200) = b + 200 := by
    rw [← pow_add, Real.logb_pow, Real.logb_self_eq_one one_lt_two]
    push_cast
    ring
  have hunit : (0 : ℝ) < 2 ^ b * 2 ^ 200 := by positivity
  have hlog (z : ℕ) (hz : (0 : ℝ) < z) : logAt z = Real.logb 2 z - 200 := by
    rw [logAt, Real.logb_div hz.ne' (by positivity), Real.logb_pow, Real.logb_self_eq_one one_lt_two]
    norm_num
  have h₁ := Real.logb_le_logb_of_le one_lt_two (by positivity) hloR
  have h₂ := Real.logb_le_logb_of_le one_lt_two (by positivity) hhiR
  rw [Real.logb_mul hpos'.ne' hunit.ne', Real.logb_mul hpos.ne' hpos.ne', hb] at h₁
  rw [Real.logb_mul (by positivity) hunit.ne', Real.logb_mul hpos.ne' hpos.ne', hb] at h₂
  have hstep := logb_succ_le (n := y') (by omega)
  have hsmall : 2 / (y' : ℝ) ≤ 2 ^ (-199 : ℤ) := by
    rw [div_le_iff₀ hpos']
    have : (2 : ℝ) ^ 200 ≤ y' := by exact_mod_cast hy'
    calc (2 : ℝ) = 2 ^ (-199 : ℤ) * 2 ^ 200 := by norm_num
      _ ≤ 2 ^ (-199 : ℤ) * y' := mul_le_mul_of_nonneg_left this (by positivity)
  rw [hlog y hpos, hlog y' hpos']
  generalize (2 : ℝ) ^ (-199 : ℤ) = η at *
  constructor <;> linarith

/-- `k` bits lie at most one unit of the last below the logarithm, and the error of the squarings. -/
theorem log2Bits_bounds : ∀ (k y acc : ℕ), 2 ^ 200 ≤ y → y < 2 ^ 201 →
    (log2Bits k y acc : ℝ) ≤ (acc + logAt y) * 2 ^ k ∧ (acc + logAt y) * 2 ^ k ≤ log2Bits k y acc + 1 + (2 ^ k - 1) * 2 ^ (-199 : ℤ)
  | 0, y, acc, hlo, hhi => by
    have h0 : 0 ≤ logAt y := by
      refine Real.logb_nonneg one_lt_two ((one_le_div (by positivity)).2 ?_)
      exact_mod_cast hlo
    have h1 : logAt y ≤ 1 := by
      have : (y : ℝ) / 2 ^ 200 ≤ 2 := by
        rw [div_le_iff₀ (by positivity)]
        exact_mod_cast (by omega : y ≤ 2 * 2 ^ 200)
      rw [logAt, ← Real.logb_self_eq_one one_lt_two]
      exact Real.logb_le_logb_of_le one_lt_two (div_pos (by exact_mod_cast (by omega : 0 < y)) (by positivity)) this
    rw [log2Bits, pow_zero, mul_one, sub_self, zero_mul, add_zero]
    constructor <;> linarith
  | k + 1, y, acc, hlo, hhi => by
    have hz := Nat.div_add_mod' (y * y) (2 ^ 200)
    have hzlt := Nat.mod_lt (y * y) (Nat.two_pow_pos 200)
    have hzlo : 2 ^ 200 ≤ y * y / 2 ^ 200 := (Nat.le_div_iff_mul_le (by positivity)).2 (Nat.mul_le_mul hlo hlo)
    have hzhi : y * y / 2 ^ 200 < 2 ^ 202 := (Nat.div_lt_iff_lt_mul (by positivity)).2
      ((Nat.mul_lt_mul'' hhi hhi).trans_eq (by rw [← pow_add, ← pow_add]))
    have hnext (b y' : ℕ) (h₁ : 2 ^ 200 ≤ y') (h₂ : y' < 2 ^ 201) (h₃ : y' * (2 ^ b * 2 ^ 200) ≤ y * y) (h₄ : y * y < (y' + 1) * (2 ^ b * 2 ^ 200)) :
        (log2Bits k y' (2 * acc + b) : ℝ) ≤ (acc + logAt y) * 2 ^ (k + 1) ∧
        (acc + logAt y) * 2 ^ (k + 1) ≤ log2Bits k y' (2 * acc + b) + 1 + (2 ^ (k + 1) - 1) * 2 ^ (-199 : ℤ) := by
      obtain ⟨hle, hge⟩ := log2Bits_bounds k y' (2 * acc + b) h₁ h₂
      obtain ⟨hs₁, hs₂⟩ := logAt_square (by omega) h₁ h₃ h₄
      have hp : (0 : ℝ) ≤ 2 ^ k := by positivity
      push_cast at hle hge
      rw [pow_succ]
      constructor
      · calc _ ≤ (2 * acc + b + logAt y') * 2 ^ k := hle
          _ ≤ (2 * acc + 2 * logAt y) * 2 ^ k := mul_le_mul_of_nonneg_right (by linarith) hp
          _ = _ := by ring
      · calc (acc + logAt y) * (2 ^ k * 2) = (2 * acc + 2 * logAt y) * 2 ^ k := by ring
          _ ≤ (2 * acc + b + logAt y' + 2 ^ (-199 : ℤ)) * 2 ^ k := mul_le_mul_of_nonneg_right (by linarith) hp
          _ = (2 * acc + b + logAt y') * 2 ^ k + 2 ^ k * 2 ^ (-199 : ℤ) := by ring
          _ ≤ _ := by linarith
    unfold log2Bits
    dsimp only
    generalize y * y / 2 ^ 200 = z at *
    generalize y * y = s at *
    split
    next h => exact hnext 1 (z / 2) (by omega) (by omega) (by omega) (by omega)
    next h => exact hnext 0 z (by omega) (by omega) (by omega) (by omega)

theorem f32_zero : (codeValue .f32 0 : ℝ) = 0 := by
  have h := codeValue_withSign (f := .f32) false (a := 0) (by decide)
  rw [(FPar.steps_of (p := FFmt.f32.par) (e := 0) (r := 0) (by decide)).2, numVal_zero] at h
  exact h

/-! ### VLOG2 (R108) -/

theorem logb_two_zpow (n : ℤ) : Real.logb 2 ((2 : ℝ) ^ n) = n := by
  rw [← Real.rpow_intCast, Real.logb_rpow two_pos one_lt_two.ne']

theorem one_sub_inv_le_logb {x : ℝ} (hx : 1 ≤ x) : 1 - x⁻¹ ≤ Real.logb 2 x := by
  have h2 := Real.log_two_lt_d9
  have hpos : 0 < Real.log 2 := Real.log_pos one_lt_two
  have h0 := Real.log_nonneg hx
  refine (Real.one_sub_inv_le_log_of_pos (by linarith)).trans ?_
  rw [Real.logb, le_div_iff₀ hpos]
  nlinarith

section
variable {m : ℕ} (hm : 0 < m) (hlt : m < 2 ^ 24)
include hm hlt

/-- A magnitude carried with 200 bits below its first. -/
theorem carried_range : 2 ^ 200 ≤ m * 2 ^ (200 - Nat.log2 m) ∧ m * 2 ^ (200 - Nat.log2 m) < 2 ^ 201 ∧ Nat.log2 m ≤ 23 := by
  have hk : Nat.log2 m ≤ 23 := Nat.le_of_lt_succ ((Nat.log2_lt hm.ne').2 hlt)
  have h : 2 ^ Nat.log2 m * 2 ^ (200 - Nat.log2 m) = 2 ^ 200 := by rw [← pow_add, Nat.add_sub_cancel' (by omega)]
  have hlo := Nat.mul_le_mul_right (2 ^ (200 - Nat.log2 m)) (Nat.log2_self_le hm.ne')
  have hhi := Nat.mul_lt_mul_of_pos_right (Nat.lt_log2_self (n := m)) (Nat.two_pow_pos (200 - Nat.log2 m))
  rw [pow_succ, mul_right_comm] at hhi
  rw [h] at hlo hhi
  exact ⟨hlo, hhi, hk⟩

theorem logAt_eq : logAt (m * 2 ^ (200 - Nat.log2 m)) = Real.logb 2 m - Nat.log2 m := by
  obtain ⟨-, -, hk⟩ := carried_range hm hlt
  have hmR : (0 : ℝ) < m := by exact_mod_cast hm
  have hval : ((m * 2 ^ (200 - Nat.log2 m) : ℕ) : ℝ) / 2 ^ 200 = m / 2 ^ Nat.log2 m := by
    rw [div_eq_div_iff (by positivity) (by positivity)]
    push_cast
    rw [mul_assoc, ← pow_add, Nat.sub_add_cancel (by omega)]
  rw [logAt, hval, Real.logb_div hmR.ne' (by positivity), Real.logb_pow, Real.logb_self_eq_one one_lt_two, mul_one]

theorem logb_carried (e : ℤ) : Real.logb 2 ((m : ℝ) * 2 ^ e) = floorLog2 m e + logAt (m * 2 ^ (200 - Nat.log2 m)) := by
  rw [logAt_eq hm hlt, Real.logb_mul (by positivity) (by positivity), logb_two_zpow, floorLog2]
  push_cast
  ring

/-- The logarithm of a magnitude that is no power of two is not near a whole number. -/
theorem logAt_carried (hne : m ≠ 2 ^ Nat.log2 m) :
    2 ^ (-24 : ℤ) ≤ logAt (m * 2 ^ (200 - Nat.log2 m)) ∧ logAt (m * 2 ^ (200 - Nat.log2 m)) ≤ 1 - 2 ^ (-24 : ℤ) := by
  obtain ⟨-, -, hk⟩ := carried_range hm hlt
  have hlo : 2 ^ Nat.log2 m + 1 ≤ m := by have := Nat.log2_self_le hm.ne'; omega
  have hhi : m + 1 ≤ 2 ^ (Nat.log2 m + 1) := Nat.lt_log2_self
  have hp : 2 ^ (Nat.log2 m + 1) ≤ 2 ^ 24 := Nat.pow_le_pow_right two_pos (by omega)
  have hmR : (0 : ℝ) < m := by exact_mod_cast hm
  have hloR : (2 : ℝ) ^ Nat.log2 m + 1 ≤ m := by exact_mod_cast hlo
  have hhiR : (m : ℝ) + 1 ≤ 2 ^ (Nat.log2 m + 1) := by exact_mod_cast hhi
  have hpR : (2 : ℝ) ^ (Nat.log2 m + 1) ≤ 2 ^ 24 := by exact_mod_cast hp
  have hltR : (m : ℝ) ≤ 2 ^ 24 := by exact_mod_cast hlt.le
  have hpow (k : ℕ) : Real.logb 2 ((2 : ℝ) ^ k) = k := by rw [Real.logb_pow, Real.logb_self_eq_one one_lt_two, mul_one]
  have hnear {x y : ℝ} (hx : 0 < x) (hxy : x + 1 ≤ y) (hy : y ≤ 2 ^ 24) : 2 ^ (-24 : ℤ) ≤ Real.logb 2 y - Real.logb 2 x := by
    have hypos : 0 < y := by linarith
    rw [← Real.logb_div hypos.ne' hx.ne']
    refine le_trans ?_ (one_sub_inv_le_logb ((one_le_div hx).2 (by linarith)))
    rw [inv_div, one_sub_div hypos.ne', le_div_iff₀ hypos]
    norm_num at hy ⊢
    linarith
  rw [logAt_eq hm hlt]
  have h₁ := hnear (by positivity) hloR hltR
  have h₂ := hnear hmR hhiR hpR
  rw [hpow] at h₁ h₂
  push_cast at h₂
  constructor <;> linarith
end

/-! ### VLOG2 (R108) -/

/-- A logarithm known within two units of 2^-80. -/
theorem roundTwice_log (neg : Bool) {M : ℕ} {t : ℝ} (hlo : 2 ^ 29 ≤ M) (hhi : M < 2 ^ 90) (hy : |t * 2 ^ 80 - M| ≤ 2) :
    IsFinite .f32 (roundTwice neg ⟨M, -80, true⟩).1
    ∧ |(codeValue .f32 (roundTwice neg ⟨M, -80, true⟩).1 : ℝ) - (if neg then -t else t)| ≤ 2 ^ (-12 : ℤ) * t
    ∧ (roundTwice neg ⟨M, -80, true⟩).2 = 8 := by
  have hlog : 29 ≤ Nat.log2 M ∧ Nat.log2 M < 90 := ⟨(Nat.le_log2 (by omega)).2 hlo, (Nat.log2_lt (by omega)).2 hhi⟩
  have h := roundTwice_error (v := ⟨M, -80, true⟩) rfl (by dsimp only; omega) neg (y := t * 2 ^ 80) (D := 2) (by norm_num)
    (by dsimp only; omega) (by exact_mod_cast hy) (by unfold floorLog2; dsimp only; omega) (Or.inl (by unfold floorLog2; dsimp only; omega))
  have ht : t * 2 ^ 80 * 2 ^ (-80 : ℤ) = t := by rw [mul_assoc, show (2 : ℝ) ^ 80 * 2 ^ (-80 : ℤ) = 1 by norm_num, mul_one]
  rwa [ht] at h

section
variable {a m : ℕ} {e : ℤ} (h : F32Num a m e) (hs : signBit .f32 a = false)
include h hs

theorem positive_value : (codeValue .f32 a : ℝ) = (m : ℝ) * 2 ^ e := by
  rw [h.val, hs, numVal]
  simp

variable (hm : 0 < m)
include hm

theorem log2Approx_eq : log2Approx a = roundTwice (magLog2 m e).1 (magLog2 m e).2 := by
  unfold log2Approx
  rw [h.value, hs]
  exact if_neg hm.ne'

/-- A power of two is known by its magnitude. -/
theorem power_of_two (n : ℤ) (hv : (codeValue .f32 a : ℝ) = 2 ^ n) : m = 2 ^ Nat.log2 m ∧ floorLog2 m e = n := by
  rw [positive_value h hs] at hv
  have hlog : floorLog2 m e = n := by
    rw [← log_numVal e hm, hv]
    exact_mod_cast Int.log_zpow (R := ℝ) one_lt_two n
  refine ⟨?_, hlog⟩
  rw [← hlog, floorLog2, zpow_add₀ two_ne_zero, mul_left_inj' (by positivity)] at hv
  exact_mod_cast hv

theorem log2Approx_power (n : ℤ) (hv : (codeValue .f32 a : ℝ) = 2 ^ n) :
    IsFinite .f32 (log2Approx a).1 ∧ (codeValue .f32 (log2Approx a).1 : ℝ) = n ∧ (log2Approx a).2 = 0 := by
  obtain ⟨hpow, hlog⟩ := power_of_two h hs hm n hv
  have hmag : magLog2 m e = (decide (n < 0), ⟨n.natAbs, 0, false⟩) := by
    unfold magLog2
    rw [if_pos hpow, hlog]
  rw [log2Approx_eq h hs hm, hmag]
  rcases eq_or_ne n 0 with rfl | hn
  · exact ⟨by decide, by rw [Int.cast_zero, ← f32_zero]; rfl, rfl⟩
  · have hrange : n.natAbs < 2 ^ 8 := by
      obtain ⟨-, -, hk⟩ := carried_range hm h.lt
      have := h.least
      have := h.greatest
      unfold floorLog2 at hlog
      omega
    have hpos : 0 < n.natAbs := Int.natAbs_pos.2 hn
    have hbits : Nat.log2 n.natAbs < 8 := (Nat.log2_lt hpos.ne').2 hrange
    have hle : (n.natAbs : ℝ) ≤ 2 ^ 8 := by exact_mod_cast hrange.le
    obtain ⟨hfin, hval, hfl⟩ := roundTwice_exact (decide (n < 0)) (v := ⟨n.natAbs, 0, false⟩) hpos (by dsimp only; omega) rfl
      (by unfold floorLog2; dsimp only; omega) (by dsimp only; norm_num at hle ⊢; linarith)
    refine ⟨hfin, hval.trans ?_, hfl⟩
    have hint := numVal_int n 0
    rw [if_neg hn] at hint
    simpa using hint

theorem log2Approx_near (hne : ∀ n : ℤ, (codeValue .f32 a : ℝ) ≠ 2 ^ n) : IsFinite .f32 (log2Approx a).1
    ∧ |(codeValue .f32 (log2Approx a).1 : ℝ) - Real.logb 2 (codeValue .f32 a)| ≤ 2 ^ (-12 : ℤ) * |Real.logb 2 (codeValue .f32 a)|
    ∧ (log2Approx a).2 = 8 := by
  have hval := positive_value h hs
  have hpow : m ≠ 2 ^ Nat.log2 m := by
    intro hp
    refine hne (floorLog2 m e) ?_
    rw [hval, floorLog2, zpow_add₀ two_ne_zero, hp]
    push_cast
    rw [← hp, zpow_natCast]
  obtain ⟨hlo, hhi, hk⟩ := carried_range hm h.lt
  obtain ⟨hL, hL'⟩ := logAt_carried hm h.lt hpow
  obtain ⟨hb, hb'⟩ := log2Bits_bounds 80 _ 0 hlo hhi
  have hmag : magLog2 m e = if 0 ≤ floorLog2 m e then
      (false, ⟨(floorLog2 m e).toNat * 2 ^ 80 + log2Bits 80 (m * 2 ^ (200 - Nat.log2 m)) 0, -80, true⟩)
      else (true, ⟨(-floorLog2 m e).toNat * 2 ^ 80 - log2Bits 80 (m * 2 ^ (200 - Nat.log2 m)) 0 - 1, -80, true⟩) := if_neg hpow
  have hx : -149 ≤ floorLog2 m e ∧ floorLog2 m e ≤ 127 := by
    have := h.least
    have := h.greatest
    unfold floorLog2
    omega
  rw [log2Approx_eq h hs hm, hmag, hval, logb_carried hm h.lt]
  generalize floorLog2 m e = x at *
  generalize logAt (m * 2 ^ (200 - Nat.log2 m)) = L at *
  generalize log2Bits 80 (m * 2 ^ (200 - Nat.log2 m)) 0 = l at *
  rw [show (2 : ℝ) ^ (-24 : ℤ) = 1 / 2 ^ 24 by norm_num] at hL hL'
  rw [Nat.cast_zero, zero_add] at hb hb'
  have hη : ((2 : ℝ) ^ 80 - 1) * 2 ^ (-199 : ℤ) ≤ 1 := by norm_num
  have hl : l < 2 ^ 80 - 2 ^ 50 := by
    have : (l : ℝ) + 2 ^ 50 < 2 ^ 80 := by linarith
    have : l + 2 ^ 50 < 2 ^ 80 := by exact_mod_cast this
    omega
  have hl' : 2 ^ 50 < l := by
    have : (2 : ℝ) ^ 50 < l := by linarith
    exact_mod_cast this
  split
  next hx0 =>
    obtain ⟨n, rfl⟩ := Int.eq_ofNat_of_zero_le hx0
    have ht : 0 ≤ ((n : ℤ) : ℝ) + L := add_nonneg (by positivity) (by linarith)
    rw [abs_of_nonneg ht]
    refine roundTwice_log false (by omega) (by omega) ?_
    rw [Int.toNat_natCast, abs_le]
    push_cast
    constructor <;> linarith
  next hx0 =>
    obtain ⟨n, hn, rfl⟩ : ∃ n : ℕ, 1 ≤ n ∧ x = -n := ⟨(-x).toNat, by omega, by omega⟩
    have hnR : (1 : ℝ) ≤ n := by exact_mod_cast hn
    have ht : ((-(n : ℤ) : ℤ) : ℝ) + L = -(n - L) := by push_cast; ring
    rw [ht, abs_neg, abs_of_nonneg (by linarith : 0 ≤ (n : ℝ) - L)]
    refine roundTwice_log true (by omega) (by omega) ?_
    rw [neg_neg, Int.toNat_natCast, Nat.cast_sub (by omega), Nat.cast_sub (by omega), abs_le]
    push_cast
    constructor <;> linarith
end

end Sys2Proof.Machine
end

section
/-! PROOF. VEXP2 (O18): the products of its roots against the power. -/

namespace Sys2Proof.Machine

/-! ### The power of a fraction (R108) -/

/-- 2 to the power of a fraction of 64 bits. -/
noncomputable def powFrac (f : ℕ) : ℝ := 2 ^ ((f : ℝ) / 2 ^ 64)

theorem powFrac_add (f g : ℕ) : powFrac (f + g) = powFrac f * powFrac g := by
  unfold powFrac
  rw [← Real.rpow_add two_pos]
  push_cast
  rw [add_div]

theorem powFrac_zero : powFrac 0 = 1 := by simp [powFrac]

theorem one_le_powFrac (f : ℕ) : 1 ≤ powFrac f := Real.one_le_rpow one_le_two (by positivity)

theorem powFrac_le_two {f : ℕ} (h : f ≤ 2 ^ 64) : powFrac f ≤ 2 := by
  have hf : (f : ℝ) / 2 ^ 64 ≤ 1 := (div_le_one (by positivity)).2 (by exact_mod_cast h)
  exact (Real.rpow_le_rpow_of_exponent_le one_le_two hf).trans_eq (Real.rpow_one 2)

/-- `c` is carried with 192 bits for `C`, at most `d` units of 2^-190 of it below. -/
def Carried (d : ℕ) (c : ℕ) (C : ℝ) : Prop := C * 2 ^ 192 * (1 - d * 2 ^ (-190 : ℤ)) ≤ c ∧ (c : ℝ) ≤ C * 2 ^ 192

theorem log2_mul_pow_le {c a : ℕ} (h : c ≤ 2 ^ a) (b : ℕ) : Nat.log2 (c * 2 ^ b) ≤ a + b := by
  rw [Nat.log2_eq_log_two, ← Nat.log_pow one_lt_two (a + b), pow_add]
  exact Nat.log_mono_right (Nat.mul_le_mul_right _ h)

/-- A square root keeps its units. -/
theorem carried_root {c : ℕ} {C : ℝ} (h : Carried 1 c (C * C)) (h1 : 1 ≤ C) (h2 : C * C ≤ 2) : Carried 1 (isqrt (c * 2 ^ expScale)) C := by
  obtain ⟨hlo, hhi⟩ := h
  have hsize : c ≤ 2 ^ 193 := by
    have : (c : ℝ) ≤ 2 * 2 ^ 192 := hhi.trans (mul_le_mul_of_nonneg_right h2 (by positivity))
    exact_mod_cast (this.trans_eq (by norm_num : (2 : ℝ) * 2 ^ 192 = 2 ^ 193))
  have hroot : isqrt (c * 2 ^ expScale) = Nat.sqrt (c * 2 ^ 192) := isqrt_eq ((log2_mul_pow_le hsize 192).trans_lt (by norm_num))
  have hs : ((Nat.sqrt (c * 2 ^ 192) : ℕ) : ℝ) ^ 2 ≤ c * 2 ^ 192 := by exact_mod_cast Nat.sqrt_le' (c * 2 ^ 192)
  have hs' : (c : ℝ) * 2 ^ 192 < (Nat.sqrt (c * 2 ^ 192) + 1) ^ 2 := by exact_mod_cast Nat.lt_succ_sqrt' (c * 2 ^ 192)
  rw [hroot]
  unfold Carried
  generalize Nat.sqrt (c * 2 ^ 192) = r at *
  rw [Nat.cast_one, one_mul] at hlo
  generalize hP : (2 : ℝ) ^ 192 = P at *
  have hε : P * 2 ^ (-190 : ℤ) = 4 := by rw [← hP]; norm_num
  have hε1 : (2 : ℝ) ^ (-190 : ℤ) ≤ 1 / 4 := by norm_num
  have hε0 : (0 : ℝ) < 2 ^ (-190 : ℤ) := by positivity
  generalize (2 : ℝ) ^ (-190 : ℤ) = ε at *
  have hPpos : 0 < P := by rw [← hP]; positivity
  have hr0 : (0 : ℝ) ≤ r := Nat.cast_nonneg r
  constructor
  · rw [Nat.cast_one, one_mul]
    have hsq : (C * P * (1 - 3 / 4 * ε)) ^ 2 ≤ (r + 1) ^ 2 := by
      have h3 : (1 - 3 / 4 * ε) ^ 2 ≤ 1 - ε := by nlinarith
      calc (C * P * (1 - 3 / 4 * ε)) ^ 2 = (C * C * P * P) * (1 - 3 / 4 * ε) ^ 2 := by ring
        _ ≤ (C * C * P * P) * (1 - ε) := mul_le_mul_of_nonneg_left h3 (by positivity)
        _ = C * C * P * (1 - ε) * P := by ring
        _ ≤ c * P := mul_le_mul_of_nonneg_right hlo hPpos.le
        _ ≤ (r + 1) ^ 2 := hs'.le
    have hle : C * P * (1 - 3 / 4 * ε) ≤ r + 1 := le_of_sq_le_sq hsq (by positivity)
    have hCP : 4 ≤ C * P * ε := by nlinarith
    linarith
  · refine le_of_sq_le_sq (hs.trans ?_) (by positivity)
    calc (c : ℝ) * P ≤ C * C * P * P := mul_le_mul_of_nonneg_right hhi hPpos.le
      _ = (C * P) ^ 2 := by ring

/-- A product loses a unit for each factor, and one for its floor. -/
theorem carried_mul {d a r : ℕ} {A C : ℝ} (ha : Carried d a A) (hr : Carried 1 r C) (hA : 1 ≤ A) (hC : 1 ≤ C) (hd : d ≤ 2 ^ 10) :
    Carried (d + 2) (a * r / 2 ^ expScale) (A * C) := by
  obtain ⟨halo, hahi⟩ := ha
  obtain ⟨hrlo, hrhi⟩ := hr
  have hfloor : ((a * r / 2 ^ 192 : ℕ) : ℝ) * 2 ^ 192 ≤ a * r := by exact_mod_cast Nat.div_mul_le_self (a * r) (2 ^ 192)
  have hfloor' : (a : ℝ) * r < ((a * r / 2 ^ 192 : ℕ) + 1) * 2 ^ 192 := by
    exact_mod_cast Nat.lt_mul_of_div_lt (Nat.lt_succ_self (a * r / 2 ^ 192)) (by positivity)
  have hdR : (d : ℝ) ≤ 2 ^ 10 := by exact_mod_cast hd
  unfold Carried expScale
  generalize a * r / 2 ^ 192 = q at *
  push_cast at hrlo ⊢
  generalize hP : (2 : ℝ) ^ 192 = P at *
  have hε : P * 2 ^ (-190 : ℤ) = 4 := by rw [← hP]; norm_num
  have hε1 : (2 : ℝ) ^ 10 * 2 ^ (-190 : ℤ) ≤ 1 := by norm_num
  have hε0 : (0 : ℝ) < 2 ^ (-190 : ℤ) := by positivity
  generalize (2 : ℝ) ^ (-190 : ℤ) = ε at *
  have hPpos : 0 < P := by rw [← hP]; positivity
  have hdε : (d : ℝ) * ε ≤ 1 := (mul_le_mul_of_nonneg_right hdR hε0.le).trans hε1
  have hε1' : ε ≤ 1 := by norm_num at hε1; linarith
  have hd0 : (0 : ℝ) ≤ d := Nat.cast_nonneg d
  constructor
  · have hprod : (A * P * (1 - d * ε)) * (C * P * (1 - 1 * ε)) ≤ a * r :=
      mul_le_mul halo hrlo (mul_nonneg (by positivity) (by linarith)) (Nat.cast_nonneg a)
    have hunits : 1 - (d + 1) * ε ≤ (1 - d * ε) * (1 - 1 * ε) := by nlinarith [mul_nonneg hd0 (mul_nonneg hε0.le hε0.le)]
    have hone : (1 : ℝ) ≤ A * C := by nlinarith
    have hle : A * C * P * P * (1 - (d + 1) * ε) ≤ (q + 1) * P := by
      calc A * C * P * P * (1 - (d + 1) * ε) ≤ A * C * P * P * ((1 - d * ε) * (1 - 1 * ε)) := mul_le_mul_of_nonneg_left hunits (by positivity)
        _ = (A * P * (1 - d * ε)) * (C * P * (1 - 1 * ε)) := by ring
        _ ≤ _ := hprod.trans hfloor'.le
    have hle' : A * C * P * (1 - (d + 1) * ε) ≤ q + 1 := le_of_mul_le_mul_right (by linarith) hPpos
    have hACP : 4 ≤ A * C * P * ε := by rw [mul_assoc, hε]; linarith
    linarith
  · refine le_of_mul_le_mul_right (hfloor.trans ?_) hPpos
    calc (a : ℝ) * r ≤ (A * P) * (C * P) := mul_le_mul hahi hrhi (Nat.cast_nonneg r) (by positivity)
      _ = A * C * P * P := by ring

theorem Carried.mono {d d' c : ℕ} {C : ℝ} (h : Carried d c C) (hd : d ≤ d') (hC : 0 ≤ C) : Carried d' c C := by
  refine ⟨le_trans (mul_le_mul_of_nonneg_left ?_ (by positivity)) h.1, h.2⟩
  have : (d : ℝ) ≤ d' := by exact_mod_cast hd
  gcongr

/-- The bits of a fraction below the `k`th, each taken with its root. -/
theorem expFrac_carried (f : ℕ) : ∀ (k d c acc : ℕ) (A : ℝ), k ≤ 64 → Carried 1 c (powFrac (2 ^ k)) → Carried d acc A → 1 ≤ A → d + 2 * k ≤ 2 ^ 10 →
    Carried (d + 2 * k) (expFrac f (expRoots k c) (k - 1) acc) (A * powFrac (f % 2 ^ k))
  | 0, d, c, acc, A, _, _, hacc, _, _ => by
    rw [pow_zero, Nat.mod_one, powFrac_zero, mul_one]
    exact hacc
  | k + 1, d, c, acc, A, hk, hc, hacc, hA, hd => by
    rw [pow_succ, mul_two, powFrac_add] at hc
    have h2 : powFrac (2 ^ k) * powFrac (2 ^ k) ≤ 2 := by
      rw [← powFrac_add, ← mul_two, ← pow_succ]
      exact powFrac_le_two (Nat.pow_le_pow_right two_pos hk)
    have hroot := carried_root hc (one_le_powFrac _) h2
    have hmod : f % 2 ^ (k + 1) = (if bit f k then 2 ^ k else 0) + f % 2 ^ k := by
      rw [Nat.mod_pow_succ, bit, add_comm]
      rcases Nat.mod_two_eq_zero_or_one (f / 2 ^ k) with h | h <;> simp [h]
    have hnext : Carried (d + 2) (if bit f k then acc * isqrt (c * 2 ^ expScale) / 2 ^ expScale else acc) (A * powFrac (if bit f k then 2 ^ k else 0)) := by
      split
      · exact carried_mul hacc hroot hA (one_le_powFrac _) (by omega)
      · rw [powFrac_zero, mul_one]
        exact hacc.mono (by omega) (by linarith)
    have hA' : 1 ≤ A * powFrac (if bit f k then 2 ^ k else 0) := one_le_mul_of_one_le_of_one_le hA (one_le_powFrac _)
    have h := expFrac_carried f k (d + 2) _ _ _ (by omega) hroot hnext hA' (by omega)
    rw [mul_assoc, ← powFrac_add, ← hmod] at h
    rw [show d + 2 * (k + 1) = d + 2 + 2 * k by omega]
    exact h

end Sys2Proof.Machine
end

section
/-! PROOF. VEXP2 (O18): its magnitudes and their roundings. -/

namespace Sys2Proof.Machine
open Claims (codeValue signBit IsFinite)

/-! ### Powers of two near one -/

theorem two_rpow_ge (x : ℝ) : 1 + Real.log 2 * x ≤ 2 ^ x := by
  rw [Real.rpow_def_of_pos two_pos, add_comm]
  exact Real.add_one_le_exp _

theorem two_rpow_le (x : ℝ) : 2 ^ x * (1 - Real.log 2 * x) ≤ 1 := by
  have h := two_rpow_ge (-x)
  rw [mul_neg, ← sub_eq_add_neg] at h
  calc (2 : ℝ) ^ x * (1 - Real.log 2 * x) ≤ 2 ^ x * 2 ^ (-x) := mul_le_mul_of_nonneg_left h (by positivity)
    _ = 1 := by rw [← Real.rpow_add two_pos, add_neg_cancel, Real.rpow_zero]

/-! ### The power of a fraction, in its binade (R108) -/

/-- What the products of the roots deliver for a fraction. -/
def fracPower (f : ℕ) : ℕ := expFrac f (expRoots 64 (2 ^ (expScale + 1))) 63 (2 ^ expScale)

theorem fracPower_carried {f : ℕ} (hf : f < 2 ^ 64) : Carried 128 (fracPower f) (powFrac f) := by
  have hroot : Carried 1 (2 ^ (expScale + 1)) (powFrac (2 ^ 64)) := by
    have hone : powFrac (2 ^ 64) = 2 := by
      unfold powFrac
      rw [show ((2 ^ 64 : ℕ) : ℝ) / 2 ^ 64 = 1 by norm_num, Real.rpow_one]
    rw [hone]
    unfold Carried expScale
    norm_num
  have hacc : Carried 0 (2 ^ expScale) 1 := by
    unfold Carried expScale
    norm_num
  have h := expFrac_carried f 64 0 _ _ 1 le_rfl hroot hacc le_rfl (by norm_num)
  rwa [Nat.mod_eq_of_lt hf, one_mul] at h

theorem fracPower_near {f : ℕ} (hf : f < 2 ^ 64) : (fracPower f : ℝ) ≤ powFrac f * 2 ^ 192
    ∧ powFrac f * 2 ^ 192 * (1 - 2 ^ (-183 : ℤ)) ≤ fracPower f ∧ |powFrac f * 2 ^ 192 - fracPower f| ≤ ((2 ^ 10 : ℕ) : ℝ) := by
  obtain ⟨hlo, hhi⟩ := fracPower_carried hf
  have hε : ((128 : ℕ) : ℝ) * 2 ^ (-190 : ℤ) = 2 ^ (-183 : ℤ) := by norm_num
  rw [hε] at hlo
  refine ⟨hhi, hlo, ?_⟩
  have hloss : powFrac f * (2 ^ 192 * 2 ^ (-183 : ℤ)) ≤ 2 * (2 ^ 192 * 2 ^ (-183 : ℤ)) :=
    mul_le_mul_of_nonneg_right (powFrac_le_two hf.le) (by positivity)
  have hD : (2 : ℝ) * (2 ^ 192 * 2 ^ (-183 : ℤ)) = (2 ^ 10 : ℕ) := by norm_num
  have hD0 : (0 : ℝ) ≤ (2 ^ 10 : ℕ) := Nat.cast_nonneg _
  have hsplit : powFrac f * 2 ^ 192 * (1 - 2 ^ (-183 : ℤ)) = powFrac f * 2 ^ 192 - powFrac f * (2 ^ 192 * 2 ^ (-183 : ℤ)) := by ring
  rw [hsplit] at hlo
  rw [hD] at hloss
  rw [abs_le]
  constructor <;> linarith

section
variable {f : ℕ} (h0 : 0 < f) (hf : f < 2 ^ 64)
include h0 hf

theorem powFrac_bounds : 1 + 2 ^ (-65 : ℤ) ≤ powFrac f ∧ powFrac f < 2 := by
  have h := two_rpow_ge ((f : ℝ) / 2 ^ 64)
  have hlog := Real.log_two_gt_d9
  have h1 : (1 : ℝ) ≤ f := by exact_mod_cast h0
  have hlt : (f : ℝ) / 2 ^ 64 < 1 := (div_lt_one (by positivity)).2 (by exact_mod_cast hf)
  refine ⟨le_trans ?_ h, (Real.rpow_lt_rpow_of_exponent_lt one_lt_two hlt).trans_eq (Real.rpow_one 2)⟩
  rw [add_le_add_iff_left, mul_div_assoc', le_div_iff₀ (by positivity)]
  rw [show (2 : ℝ) ^ (-65 : ℤ) * 2 ^ 64 = 1 / 2 by norm_num]
  nlinarith

theorem fracPower_range : 2 ^ 192 ≤ fracPower f ∧ fracPower f < 2 ^ 193 := by
  obtain ⟨hhi, hlo, -⟩ := fracPower_near hf
  obtain ⟨h1, h2⟩ := powFrac_bounds h0 hf
  constructor
  · have h : (2 : ℝ) ^ 192 ≤ fracPower f := by
      refine le_trans ?_ hlo
      have hone : (1 : ℝ) ≤ (1 + 2 ^ (-65 : ℤ)) * (1 - 2 ^ (-183 : ℤ)) := by norm_num
      have hpos : (0 : ℝ) ≤ 1 - 2 ^ (-183 : ℤ) := by norm_num
      calc (2 : ℝ) ^ 192 ≤ 2 ^ 192 * ((1 + 2 ^ (-65 : ℤ)) * (1 - 2 ^ (-183 : ℤ))) := le_mul_of_one_le_right (by positivity) hone
        _ ≤ 2 ^ 192 * (powFrac f * (1 - 2 ^ (-183 : ℤ))) := by gcongr
        _ = powFrac f * 2 ^ 192 * (1 - 2 ^ (-183 : ℤ)) := by ring
    exact_mod_cast h
  · have h : (fracPower f : ℝ) < 2 ^ 193 := hhi.trans_lt ((mul_lt_mul_of_pos_right h2 (by positivity)).trans_eq (by norm_num))
    exact_mod_cast h

/-- The magnitude of 2 to the power of a number with a fraction is in the binade of its whole part. -/
theorem fracPower_binade (k : ℤ) : Nat.log2 (fracPower f) = 192 ∧ floorLog2 (fracPower f) (k - 192) = k := by
  obtain ⟨hlo, hhi⟩ := fracPower_range h0 hf
  have h : Nat.log2 (fracPower f) = 192 :=
    le_antisymm (Nat.le_of_lt_succ ((Nat.log2_lt (by omega)).2 hhi)) ((Nat.le_log2 (by omega)).2 hlo)
  unfold floorLog2
  omega
end

end Sys2Proof.Machine
end

section
/-! PROOF. VEXP2 of .f32 codes (O18). -/

namespace Sys2Proof.Machine
open Claims (codeValue signBit IsFinite)

/-! ### The magnitudes of VEXP2 (R108) -/

/-- A power whose exponent has a fraction is carried so. -/
def powerMag (k : ℤ) (f : ℕ) : Mag := ⟨fracPower f, k - 192, true⟩

/-- What is carried for a power of two: constants past the range and next to one, else a power of two or a power with a fraction. -/
theorem magExp2_cases (s : Bool) {m : ℕ} (e : ℤ) (hm : 0 < m) (hlt : m < 2 ^ 24) :
    256 ≤ numVal s m e ∧ magExp2 s m e = ⟨1, 512, true⟩ ∨ numVal s m e ≤ -256 ∧ magExp2 s m e = ⟨1, -600, true⟩
    ∨ |numVal s m e| < 2 ^ (-40 : ℤ) ∧ roundTwice false (magExp2 s m e) = (0x3F800000, 8)
    ∨ ∃ (k : ℤ) (f : ℕ), f < 2 ^ 64 ∧ numVal s m e = k + f / 2 ^ 64 ∧ magExp2 s m e = if f = 0 then ⟨1, k, false⟩ else powerMag k f := by
  have hpos : (0 : ℝ) < (m : ℝ) * 2 ^ e := by positivity
  have hlog := log_numVal e hm
  unfold magExp2
  dsimp only
  split
  next h8 =>
    have hbig : (256 : ℝ) ≤ (m : ℝ) * 2 ^ e := by
      rw [← hlog] at h8
      have := (Int.zpow_le_iff_le_log (b := 2) one_lt_two hpos).2 h8
      norm_num at this ⊢
      exact this
    cases s
    · exact Or.inl ⟨by simpa [numVal] using hbig, rfl⟩
    · exact Or.inr (Or.inl ⟨by simpa [numVal] using hbig, rfl⟩)
  next h8 =>
    split
    next h40 =>
      refine Or.inr (Or.inr (Or.inl ⟨?_, by cases s <;> decide⟩))
      rw [← hlog] at h40
      rw [numVal_abs]
      exact_mod_cast (Int.lt_zpow_iff_log_lt (b := 2) one_lt_two hpos).2 h40
    next h40 =>
      have he : -64 ≤ e := by
        have : Nat.log2 m < 24 := (Nat.log2_lt hm.ne').2 hlt
        unfold floorLog2 at h40
        omega
      have hval := atExp_numVal s m he
      generalize atExp s m e (-64) = v at *
      have hmod := Int.emod_add_mul_ediv v (2 ^ 64)
      have hnonneg := Int.emod_nonneg v (by norm_num : (2 : ℤ) ^ 64 ≠ 0)
      have hltmod := Int.emod_lt_of_pos v (by norm_num : (0 : ℤ) < 2 ^ 64)
      refine Or.inr (Or.inr (Or.inr ⟨v / 2 ^ 64, (v % 2 ^ 64).toNat, by omega, ?_, rfl⟩))
      have hcast : (((v % 2 ^ 64).toNat : ℕ) : ℝ) = ((v % 2 ^ 64 : ℤ) : ℝ) := by exact_mod_cast congrArg (Int.cast (R := ℝ)) (Int.toNat_of_nonneg hnonneg)
      have hsplit : (v : ℝ) = ((v % 2 ^ 64 : ℤ) : ℝ) + 2 ^ 64 * ((v / 2 ^ 64 : ℤ) : ℝ) := by exact_mod_cast congrArg (Int.cast (R := ℝ)) hmod.symm
      rw [← hval, hcast, hsplit, zpow_neg]
      field_simp
      norm_num
      ring

/-! ### Powers with a fraction -/

theorem two_rpow_split (k : ℤ) (f : ℕ) : (2 : ℝ) ^ ((k : ℝ) + f / 2 ^ 64) = powFrac f * 2 ^ 192 * 2 ^ (k - 192) := by
  rw [Real.rpow_add two_pos, Real.rpow_intCast, ← powFrac, zpow_sub₀ two_ne_zero]
  norm_num
  ring

theorem powerMag_m (k : ℤ) (f : ℕ) : (powerMag k f).m = fracPower f := rfl

section
variable {k : ℤ} {f : ℕ} (h0 : 0 < f) (hf : f < 2 ^ 64)
include h0 hf

theorem powerMag_twelve_le : 2 ^ 12 ≤ (powerMag k f).m :=
  (Nat.pow_le_pow_right two_pos (by norm_num)).trans (fracPower_range h0 hf).1

theorem powerMag_shift : (powerMag k f).shift = 181 := by
  rw [Mag.shift, powerMag, (fracPower_binade h0 hf k).1]

theorem powerMag_error (hlo : -126 ≤ k) (hhi : k < 127 ∨ k = 127 ∧ (powerMag k f).twelve.1 < 2 ^ 12) :
    IsFinite .f32 (roundTwice false (powerMag k f)).1
    ∧ |(codeValue .f32 (roundTwice false (powerMag k f)).1 : ℝ) - 2 ^ ((k : ℝ) + f / 2 ^ 64)| ≤ 2 ^ (-12 : ℤ) * 2 ^ ((k : ℝ) + f / 2 ^ 64)
    ∧ (roundTwice false (powerMag k f)).2 = 8 := by
  obtain ⟨-, hk⟩ := fracPower_binade h0 hf k
  obtain ⟨-, -, hnear⟩ := fracPower_near hf
  have hbig : 2 ^ 10 * 2 ^ 28 ≤ fracPower f := le_trans (by norm_num) (fracPower_range h0 hf).1
  rw [two_rpow_split]
  exact roundTwice_error (v := powerMag k f) rfl (powerMag_twelve_le h0 hf) false (by norm_num) hbig hnear (hk.symm ▸ hlo) (hk.symm ▸ hhi)

/-- From half a unit below, the twelve bits carry into the next binade. -/
theorem powerMag_carry (h : 2 - 2 ^ (-12 : ℤ) < powFrac f * (1 - 2 ^ (-183 : ℤ))) : (powerMag k f).twelve.1 = 2 ^ 12 := by
  obtain ⟨-, hrange⟩ := (powerMag k f).twelve_range (powerMag_twelve_le h0 hf)
  obtain ⟨hup, -⟩ := (powerMag k f).twelve_near rfl
  obtain ⟨-, hlo, -⟩ := fracPower_near hf
  rw [powerMag_shift h0 hf] at hup
  refine hrange.antisymm (Nat.not_lt.1 fun hlt => ?_)
  have hE : 2 * fracPower f ≤ 8191 * 2 ^ 181 := by
    rw [powerMag_m] at hup
    omega
  have hER : (2 : ℝ) * fracPower f ≤ 8191 * 2 ^ 181 := by exact_mod_cast hE
  have hbound := mul_lt_mul_of_pos_right h (by positivity : (0 : ℝ) < 2 ^ 192)
  rw [show (2 - 2 ^ (-12 : ℤ)) * (2 : ℝ) ^ 192 = 8191 * 2 ^ 180 by norm_num, mul_right_comm] at hbound
  have hlt' := hbound.trans_le hlo
  linarith

/-- Below half a unit they stay in the binade. -/
theorem powerMag_stay (h : powFrac f < 2 - 2 ^ (-12 : ℤ)) : (powerMag k f).twelve.1 < 2 ^ 12 := by
  obtain ⟨-, hrange⟩ := (powerMag k f).twelve_range (powerMag_twelve_le h0 hf)
  obtain ⟨-, hdown, -⟩ := (powerMag k f).twelve_near rfl
  obtain ⟨hhi, -, -⟩ := fracPower_near hf
  rw [powerMag_shift h0 hf] at hdown
  refine lt_of_le_of_ne hrange fun heq => ?_
  have hE : 8191 * 2 ^ 181 ≤ 2 * fracPower f := by
    rw [heq, powerMag_m] at hdown
    omega
  have hER : 8191 * (2 : ℝ) ^ 181 ≤ 2 * fracPower f := by exact_mod_cast hE
  have hbound := mul_lt_mul_of_pos_right h (by positivity : (0 : ℝ) < 2 ^ 192)
  rw [show (2 - 2 ^ (-12 : ℤ)) * (2 : ℝ) ^ 192 = 8191 * 2 ^ 180 by norm_num] at hbound
  have hlt' := hhi.trans_lt hbound
  linarith
end

/-- The power of a fraction against that of its distance to one. -/
theorem powFrac_eq (f : ℕ) : powFrac f = 2 * 2 ^ ((f : ℝ) / 2 ^ 64 - 1) := by
  rw [Real.rpow_sub_one two_ne_zero, powFrac]
  ring

/-- The last step of .f32 that overflows, and the first that does not (R108). -/
theorem powFrac_carry {f : ℕ} (h : 1 - 23 * 2 ^ (-17 : ℤ) ≤ (f : ℝ) / 2 ^ 64) : 2 - 2 ^ (-12 : ℤ) < powFrac f * (1 - 2 ^ (-183 : ℤ)) := by
  have hpow := two_rpow_ge ((f : ℝ) / 2 ^ 64 - 1)
  have h₁ := Real.log_two_gt_d9
  have h₂ := Real.log_two_lt_d9
  have hx : -(0.6931471808 * (23 * 2 ^ (-17 : ℤ))) ≤ Real.log 2 * ((f : ℝ) / 2 ^ 64 - 1) := by
    have hu : (0 : ℝ) < 23 * 2 ^ (-17 : ℤ) := by positivity
    nlinarith
  have hnum : 2 - 2 ^ (-12 : ℤ) < 2 * (1 - 0.6931471808 * (23 * 2 ^ (-17 : ℤ)) : ℝ) * (1 - 2 ^ (-183 : ℤ)) := by norm_num
  have h183 : (0 : ℝ) ≤ 1 - 2 ^ (-183 : ℤ) := by norm_num
  rw [powFrac_eq]
  exact hnum.trans_le (mul_le_mul_of_nonneg_right (by linarith) h183)

theorem powFrac_stay {f : ℕ} (h : (f : ℝ) / 2 ^ 64 ≤ 1 - 24 * 2 ^ (-17 : ℤ)) : powFrac f < 2 - 2 ^ (-12 : ℤ) := by
  have hpow := two_rpow_le ((f : ℝ) / 2 ^ 64 - 1)
  have h₁ := Real.log_two_gt_d9
  have hx : 1 + 0.6931471803 * (24 * 2 ^ (-17 : ℤ)) ≤ 1 - Real.log 2 * ((f : ℝ) / 2 ^ 64 - 1) := by
    have hu : (0 : ℝ) < 24 * 2 ^ (-17 : ℤ) := by positivity
    nlinarith
  have hp : (0 : ℝ) < 2 ^ ((f : ℝ) / 2 ^ 64 - 1) := by positivity
  rw [powFrac_eq]
  generalize (2 : ℝ) ^ ((f : ℝ) / 2 ^ 64 - 1) = p at *
  have hp1 := (mul_le_mul_of_nonneg_left hx hp.le).trans hpow
  norm_num at hp1 ⊢
  linarith

end Sys2Proof.Machine
end

section
/-! PROOF. The special functions, and the elements of the vector unit (O18). -/

namespace Sys2Proof.Machine
open Claims (codeValue signBit IsFinite)

/-! ### VEXP2 (R108) -/

theorem power_overflow {k : ℤ} (b : Bool) (hk : 128 ≤ k) : roundTwice false ⟨1, k, b⟩ = (0x7F800000, 10) := by
  refine roundTwice_short_overflow one_pos (by norm_num) ?_
  rw [Nat.cast_one, one_mul]
  exact zpow_le_zpow_right₀ one_le_two hk

theorem power_underflow {k : ℤ} (b : Bool) (hk : k ≤ -150) : roundTwice false ⟨1, k, b⟩ = (0, 12) := by
  refine roundTwice_short_underflow one_pos (by norm_num) ?_
  rw [Nat.cast_one, one_mul]
  exact zpow_le_zpow_right₀ one_le_two hk

/-- The whole part of a number and its fraction. -/
theorem whole_part {v : ℝ} {k : ℤ} {f : ℕ} (hf : f < 2 ^ 64) (hv : v = k + f / 2 ^ 64) : (k : ℝ) ≤ v ∧ v < k + 1 ∧ (v = k ↔ f = 0) := by
  have hlt : (f : ℝ) / 2 ^ 64 < 1 := (div_lt_one (by positivity)).2 (by exact_mod_cast hf)
  have h0 : (0 : ℝ) ≤ f / 2 ^ 64 := by positivity
  refine ⟨by linarith, by linarith, ?_⟩
  rw [hv, add_eq_left, div_eq_zero_iff, Nat.cast_eq_zero, or_iff_left (by positivity)]

theorem f32_one : (codeValue .f32 0x3F800000 : ℝ) = 1 := by
  have h := codeValue_withSign (f := .f32) false (a := 0x3F800000) (by decide)
  rw [show FFmt.f32.par.steps 0x3F800000 = 2 ^ 149 by decide, show 1 - FFmt.f32.par.bias - (FFmt.f32.par.frac : ℤ) = -149 by decide] at h
  refine Eq.trans h ?_
  norm_num [numVal]

/-- 2 to the power of a number near zero is near one. -/
theorem two_rpow_near {v : ℝ} (hv : |v| < 2 ^ (-40 : ℤ)) : |1 - (2 : ℝ) ^ v| ≤ 2 ^ (-12 : ℤ) * 2 ^ v := by
  have hge := two_rpow_ge v
  have hle := two_rpow_le v
  have h₁ := Real.log_two_gt_d9
  have h₂ := Real.log_two_lt_d9
  obtain ⟨hlo, hhi⟩ := abs_lt.1 hv
  have hpos : (0 : ℝ) < 2 ^ v := by positivity
  have hsmall : |Real.log 2 * v| ≤ 2 ^ (-40 : ℤ) := by
    rw [abs_mul, abs_of_pos (by linarith)]
    nlinarith [abs_nonneg v]
  obtain ⟨hs, hs'⟩ := abs_le.1 hsmall
  generalize (2 : ℝ) ^ v = p at *
  generalize Real.log 2 * v = y at *
  have hp : p * (1 - 2 ^ (-40 : ℤ)) ≤ 1 := (mul_le_mul_of_nonneg_left (by linarith) hpos.le).trans hle
  norm_num at hs hp ⊢
  rw [abs_le]
  constructor <;> linarith

section
variable {a m : ℕ} {e : ℤ} (h : F32Num a m e) (hm : 0 < m)
include h hm

theorem exp2Approx_eq : exp2Approx a = roundTwice false (magExp2 (signBit .f32 a) m e) := by
  unfold exp2Approx
  rw [h.value]
  exact if_neg hm.ne'

/-- The cases of VEXP2 on the value of its operand. -/
theorem exp2Approx_cases : 256 ≤ (codeValue .f32 a : ℝ) ∧ exp2Approx a = (0x7F800000, 10) ∨ (codeValue .f32 a : ℝ) ≤ -256 ∧ exp2Approx a = (0, 12)
    ∨ |(codeValue .f32 a : ℝ)| < 2 ^ (-40 : ℤ) ∧ exp2Approx a = (0x3F800000, 8)
    ∨ ∃ (k : ℤ) (f : ℕ), f < 2 ^ 64 ∧ (codeValue .f32 a : ℝ) = k + f / 2 ^ 64
      ∧ exp2Approx a = roundTwice false (if f = 0 then ⟨1, k, false⟩ else powerMag k f) := by
  rw [h.val, exp2Approx_eq h hm]
  obtain ⟨hv, hr⟩ | ⟨hv, hr⟩ | ⟨hv, hr⟩ | ⟨k, f, hf, hv, hr⟩ := magExp2_cases (signBit .f32 a) e hm h.lt
  · exact Or.inl ⟨hv, by rw [hr, power_overflow true (by norm_num)]⟩
  · exact Or.inr (Or.inl ⟨hv, by rw [hr, power_underflow true (by norm_num)]⟩)
  · exact Or.inr (Or.inr (Or.inl ⟨hv, hr⟩))
  · exact Or.inr (Or.inr (Or.inr ⟨k, f, hf, hv, by rw [hr]⟩))

/-- The last value below those that overflow. -/
theorem below_overflow (hlo : 127 ≤ (codeValue .f32 a : ℝ)) (hhi : (codeValue .f32 a : ℝ) < 128 - 23 * 2 ^ (-17 : ℤ)) :
    (codeValue .f32 a : ℝ) ≤ 128 - 24 * 2 ^ (-17 : ℤ) := by
  have hpos : (0 : ℝ) < (m : ℝ) * 2 ^ e := by positivity
  have habs : (m : ℝ) * 2 ^ e = (codeValue .f32 a : ℝ) := by
    rw [← numVal_abs (signBit .f32 a), ← h.val, abs_of_nonneg (by linarith)]
  have h17 : (0 : ℝ) < 2 ^ (-17 : ℤ) := by positivity
  have hunit : (2 : ℝ) ^ 24 * 2 ^ (-17 : ℤ) = 128 := by norm_num
  have hlog : floorLog2 m e = 6 := by
    rw [← log_numVal e hm]
    refine le_antisymm ?_ ?_
    · refine Int.lt_add_one_iff.1 ((Int.lt_zpow_iff_log_lt (b := 2) one_lt_two hpos).1 ?_)
      norm_num
      linarith
    · refine (Int.zpow_le_iff_le_log (b := 2) one_lt_two hpos).1 ?_
      norm_num
      linarith
  have he : e = -17 := by
    have hk : Nat.log2 m < 24 := (Nat.log2_lt hm.ne').2 h.lt
    unfold floorLog2 at hlog
    rcases h.normal with hn | hn
    · omega
    · have := (Nat.le_log2 hm.ne').2 hn
      omega
  rw [← habs, he, ← hunit, ← sub_mul] at hhi ⊢
  have hlt : m + 23 < 2 ^ 24 := by
    have := lt_of_mul_lt_mul_right hhi h17.le
    exact_mod_cast (by linarith : (m : ℝ) + 23 < 2 ^ 24)
  have hle : (m : ℝ) + 24 ≤ 2 ^ 24 := by exact_mod_cast (by omega : m + 24 ≤ 2 ^ 24)
  exact mul_le_mul_of_nonneg_right (by linarith) h17.le

theorem exp2Approx_whole (n : ℤ) (hv : (codeValue .f32 a : ℝ) = n) (hlo : -149 ≤ n) (hhi : n < 128) : IsFinite .f32 (exp2Approx a).1
    ∧ (codeValue .f32 (exp2Approx a).1 : ℝ) = 2 ^ n ∧ (exp2Approx a).2 = 0 := by
  have hne : (codeValue .f32 a : ℝ) ≠ 0 := h.val ▸ numVal_ne_zero hm
  have hloR : (-149 : ℝ) ≤ n := by exact_mod_cast hlo
  have hhiR : (n : ℝ) < 128 := by exact_mod_cast hhi
  obtain ⟨hbig, -⟩ | ⟨hbig, -⟩ | ⟨hsmall, -⟩ | ⟨k, f, hf, hsplit, hr⟩ := exp2Approx_cases h hm
  · linarith
  · linarith
  · have hlt := hsmall.trans (by norm_num : (2 : ℝ) ^ (-40 : ℤ) < 1)
    rw [hv] at hlt hne
    have hn : |n| < 1 := by exact_mod_cast hlt
    exact absurd (by exact_mod_cast Int.abs_lt_one_iff.1 hn) hne
  · obtain ⟨hk, hk', hiff⟩ := whole_part hf hsplit
    rw [hv] at hk hk' hiff
    have hkn : n = k := by
      have h₁ : k ≤ n := by exact_mod_cast hk
      have h₂ : n < k + 1 := by exact_mod_cast hk'
      omega
    have hf0 := hiff.1 (by rw [hkn])
    rw [hr, if_pos hf0, ← hkn]
    have htop : ((1 : ℕ) : ℝ) * 2 ^ n ≤ (2 ^ 24 - 1) * 2 ^ 104 := by
      rw [Nat.cast_one, one_mul]
      refine (zpow_le_zpow_right₀ one_le_two (by omega : n ≤ 127)).trans ?_
      norm_num
    have hone := roundTwice_exact false (v := ⟨1, n, false⟩) one_pos (by norm_num) rfl
      (by rw [show floorLog2 1 n = n by simp [floorLog2, show Nat.log2 1 = 0 by decide]]; dsimp only; omega) htop
    simpa [numVal] using hone

theorem exp2Approx_overflow (hv : 128 - 23 * 2 ^ (-17 : ℤ) ≤ (codeValue .f32 a : ℝ)) : exp2Approx a = (0x7F800000, 10) := by
  have h17 : (23 : ℝ) * 2 ^ (-17 : ℤ) < 1 := by norm_num
  have h40 : (2 : ℝ) ^ (-40 : ℤ) < 1 := by norm_num
  obtain ⟨-, hr⟩ | ⟨hbig, -⟩ | ⟨hsmall, -⟩ | ⟨k, f, hf, hsplit, hr⟩ := exp2Approx_cases h hm
  · exact hr
  · linarith
  · linarith [(abs_lt.1 hsmall).2]
  · obtain ⟨hk, hk', hiff⟩ := whole_part hf hsplit
    have hk127 : 127 ≤ k := by
      have : (127 : ℝ) < k + 1 := by linarith
      exact Int.lt_add_one_iff.1 (by exact_mod_cast this)
    rw [hr]
    split
    next h0 =>
      refine power_overflow false (lt_of_le_of_ne hk127 fun heq => ?_)
      rw [hiff.2 h0, ← heq] at hv
      norm_num at hv
    next h0 =>
      have hpos := Nat.pos_of_ne_zero h0
      refine roundTwice_overflow rfl (powerMag_twelve_le hpos hf) ?_
      change 128 ≤ floorLog2 (fracPower f) (k - 192) ∨ floorLog2 (fracPower f) (k - 192) = 127 ∧ _
      rw [(fracPower_binade hpos hf k).2]
      rcases hk127.eq_or_lt with heq | hlt
      · refine Or.inr ⟨heq.symm, powerMag_carry hpos hf (powFrac_carry ?_)⟩
        rw [hsplit, ← heq] at hv
        push_cast at hv
        linarith
      · exact Or.inl hlt

theorem exp2Approx_underflow (hv : (codeValue .f32 a : ℝ) < -150) : exp2Approx a = (0, 12) := by
  have h40 : (2 : ℝ) ^ (-40 : ℤ) < 1 := by norm_num
  obtain ⟨hbig, -⟩ | ⟨-, hr⟩ | ⟨hsmall, -⟩ | ⟨k, f, hf, hsplit, hr⟩ := exp2Approx_cases h hm
  · linarith
  · exact hr
  · linarith [(abs_lt.1 hsmall).1]
  · obtain ⟨hk, -, -⟩ := whole_part hf hsplit
    have hk150 : k < -150 := by exact_mod_cast (hk.trans_lt hv)
    rw [hr]
    split
    next h0 => exact power_underflow false hk150.le
    next h0 =>
      have hpos := Nat.pos_of_ne_zero h0
      refine roundTwice_underflow rfl (powerMag_twelve_le hpos hf) ?_
      exact (fracPower_binade hpos hf k).2.trans_le (by omega)

theorem exp2Approx_near (hne : ∀ n : ℤ, (codeValue .f32 a : ℝ) ≠ n) (hlo : -126 ≤ (codeValue .f32 a : ℝ))
    (hhi : (codeValue .f32 a : ℝ) < 128 - 23 * 2 ^ (-17 : ℤ)) : IsFinite .f32 (exp2Approx a).1
    ∧ |(codeValue .f32 (exp2Approx a).1 : ℝ) - 2 ^ (codeValue .f32 a : ℝ)| ≤ 2 ^ (-12 : ℤ) * 2 ^ (codeValue .f32 a : ℝ) ∧ (exp2Approx a).2 = 8 := by
  have h17 : (0 : ℝ) < 23 * 2 ^ (-17 : ℤ) := by positivity
  obtain ⟨hbig, -⟩ | ⟨hbig, -⟩ | ⟨hsmall, hr⟩ | ⟨k, f, hf, hsplit, hr⟩ := exp2Approx_cases h hm
  · linarith
  · linarith
  · rw [hr]
    refine ⟨by decide, ?_, rfl⟩
    rw [f32_one]
    exact two_rpow_near hsmall
  · obtain ⟨hk, hk', hiff⟩ := whole_part hf hsplit
    have hpos : 0 < f := Nat.pos_of_ne_zero fun h0 => hne k (hiff.2 h0)
    have hk126 : -126 ≤ k := by
      have : (-126 : ℝ) < k + 1 := by linarith
      exact Int.lt_add_one_iff.1 (by exact_mod_cast this)
    have hk127 : k ≤ 127 := by
      have : (k : ℝ) < 128 := by linarith
      exact Int.lt_add_one_iff.1 (by exact_mod_cast this)
    rw [hr, if_neg hpos.ne', hsplit]
    refine powerMag_error hpos hf hk126 (hk127.lt_or_eq.imp_right fun heq => ⟨heq, powerMag_stay hpos hf (powFrac_stay ?_)⟩)
    have hlast := below_overflow h hm (by rw [heq] at hk; exact_mod_cast hk) hhi
    rw [hsplit, heq] at hlast
    push_cast at hlast
    linarith
end

end Sys2Proof.Machine

namespace Sys2Proof.Proofs
open Sys2Proof.Machine

theorem specialFunctions : Claims.SpecialFunctions := by
  intro a b ha hb V nan sg inf zero some_ twice
  refine ⟨approx_nan, fun h => ?_, ?_, ?_, fun h => approx_negative h, rcpApprox_twice, rsqApprox_twice, fun h => ?_, fun h hs => ?_, refinements a b⟩
  · exact approx_zero h.1 h.2
  · rintro rfl
    exact ⟨rfl, rfl, rfl, rfl⟩
  · rintro rfl
    exact ⟨rfl, rfl, rfl, rfl⟩
  · obtain ⟨m, e, hnum⟩ := f32Num_of_finite h.1
    have hm := f32Num_pos hnum h.2
    exact ⟨exp2Approx_whole hnum hm, exp2Approx_overflow hnum hm, exp2Approx_underflow hnum hm, exp2Approx_near hnum hm⟩
  · obtain ⟨m, e, hnum⟩ := f32Num_of_finite h.1
    have hm := f32Num_pos hnum h.2
    exact ⟨log2Approx_power hnum hs hm, log2Approx_near hnum hs hm⟩

/-- Settles O18: each clause by its own theorem. -/
theorem integerElements : Obligations.IntegerElements :=
  ⟨integerElementsRule, maskedElements, stochasticDraw, floatArithmetic, floatCompares, conversions, specialFunctions⟩

end Sys2Proof.Proofs
end
